-- ==== Sys2Proof/Word.lean ====
section
/-! DEFINITION. The byte, the one word type the floor link carries (R156). Every other quantity of the
manual is a non-negative whole number (section 0.5) and is a `Nat` in this model. -/

namespace Sys2Proof

/-- One byte of a telegram (Table 11-1), or a set of up to eight members with one bit each (R167). -/
abbrev Byte := BitVec 8

end Sys2Proof
end

