-- ==== Sys2Proof/Config.lean ====
section
/-! DEFINITION. What the part fixes (capacities, widths, ranges), and the values the manual leaves open: bytes of
the controller's own telegrams whose codes it does not give. The open values are opaque constants; no proof
can depend on what they are. -/

namespace Sys2Proof.Config

/-- Stock Table places (R1). -/
def maxSlabs : Nat := 512
/-- Plan Pool entries (R19). -/
def maxPlacements : Nat := 1536
/-- Placements of one slab (R19). -/
def maxPerSlab : Nat := 12
/-- Cutouts of one parent (R33). -/
def maxCutouts : Nat := 3
/-- Defects of one slab (Table 1-1). -/
def maxDefects : Nat := 4
/-- Station table entries (R38). -/
def maxStations : Nat := 24
/-- Saw-class entries (Table 3-2). -/
def maxSaws : Nat := 8
/-- Orders on one saw's queue (R58). -/
def maxQueue : Nat := 6
/-- Job records (R134). -/
def maxJobs : Nat := 128
/-- Entries of the kind rule table (R159). -/
def maxKindRules : Nat := 64
/-- Compare rules (Table 6-1). -/
def maxWaterRules : Nat := 4
/-- Telegrams waiting behind the one in transmission on a segment (R155). -/
def maxWaiting : Nat := 64
/-- Deliveries of one order (R79, R80). -/
def maxSends : Nat := 4
/-- Content bytes of one ANSWER (R162). -/
def answerBytes : Nat := 46
/-- The silence timer, in milliseconds (R48). -/
def silenceMs : Nat := 10000
/-- The acknowledgement timer, in milliseconds (R77). -/
def ackMs : Nat := 400
/-- Revision code of QUERY CAPABILITY (R166). -/
def revision : Nat := 3
/-- Greatest cost basis, in cents (Table 1-1). -/
def maxBasis : Nat := 10000000
/-- Greatest value of a 32-bit count or id. -/
def max32 : Nat := 4294967295
/-- Greatest water tenths of an order or job: 2^48 - 1 (R89, R117). -/
def max48 : Nat := 281474976710655
/-- Greatest value of a shop accumulator: 2^63 - 1 (R118). -/
def max63 : Nat := 9223372036854775807
/-- Greatest value of a job charge accumulator, in cents (R116). -/
def maxCharge : Nat := 999999999999

/-- Items of the controller's own telegrams for which the manual gives a byte but no code (DESIGN CHOICE, log entry 3). -/
inductive Uncoded where
  | loadCreated | loadReplaced | loadUpdated
  | groupBase | groupRemnant | groupMitre | groupCutout | groupQuote
  | ruleBuiltIn | ruleShopDefined | ruleAbsent
  | chargedToJob | chargedToOverhead
  | plantSilent
  | conflictRefused | conflictDisplaced
  | satMaterial | satSaw | satWear | satWater | satRecycled | satFresh | satBladeSeconds
  | causeSample | causeRuleLoad | causeAllowance | causeRenew | causePlantLost | causeLineReset
  | excursionBegan | excursionEnded
  | returnedNoAnswer | returnedBreak
  deriving DecidableEq, Repr

/-- The byte that stands for an item without a code. Free value (DESIGN CHOICE, log entry 3): the manual lists the items and
never their codes. -/
opaque uncoded : Uncoded → BitVec 8

/-- The one byte (R168) that stands for a count above 255. Free value (DESIGN CHOICE, log entry 4): the manual gives every count
one byte, and several counts of the part reach beyond it. -/
opaque wideCount : Nat → BitVec 8

/-- The source (position 1) or kind (position 2) "as received" of a telegram too short to hold that byte
(R157, step 1). Free value (DESIGN CHOICE, log entry 5). -/
opaque missingByte : Nat → BitVec 8

end Sys2Proof.Config
end

