-- ==== Sys2Proof/Syntax.lean ====
section
/-! DEFINITION. The commands of the WB-7140: one constructor of `Instr` per row of spec/opcode_table.json.

A row that is a telegram carries the telegram's addressing (`Header`) and the fields of its payload in the
order of Tables 11-4 to 11-6, each as the number its bytes hold. Enumeration, flag and presence bytes that a
rule tests are kept as numbers, so that a byte outside its values can be refused by that rule. A telegram
whose payload has not the length its kind calls for is no row of its own: it is a `telegramReceived`. -/

namespace Sys2Proof

/-- The two segments of the floor link (R154). -/
inductive Side where
  | a | b
  deriving DecidableEq, Repr

/-- A telegram in the layout of Table 11-1; its payload length and check word follow from the rest. -/
structure Telegram where
  dst : Nat
  src : Nat
  kind : Nat
  tag : Nat
  payload : List Byte
  deriving DecidableEq, Repr

/-- The addressing of an arriving telegram: the segment it arrived on and bytes 0, 1 and 3 of Table 11-1. -/
structure Header where
  side : Side
  dst : Nat
  src : Nat
  tag : Nat
  deriving DecidableEq, Repr

/-- A rectangle: origin, length along x and width along y (section 0.5, SLAB COORDINATES). -/
structure Rect where
  x : Nat
  y : Nat
  length : Nat
  width : Nat
  deriving DecidableEq, Repr

/-- The saw fields of LOAD STATION as carried (Table 11-4). -/
structure SawFields where
  kindSet : Nat
  bedLength : Nat
  bedWidth : Nat
  maxThickness : Nat
  materials : List Nat
  feedMin : Nat
  feedMax : Nat
  sawRate : Nat
  wearRate : Nat
  patient : Nat
  deriving DecidableEq, Repr

/-- The commands: telegrams arriving on a segment, the reset and supply pins, the ends of transmissions, the
expiries of the two kinds of timer, and the evaluation of a presented saw. -/
inductive Instr where
  /-- RESET is asserted (R170, R172). -/
  | coldResetAssert
  /-- RESET is released with KEEP and the five address straps at the given levels (R169, R170). -/
  | coldResetRelease (keep : Bool) (straps : Nat)
  /-- The standby supply falls below its retention level (R170). -/
  | standbyRetentionLoss
  /-- A run of bytes ended by an idle line is received on a segment (R154, R157). -/
  | telegramReceived (side : Side) (bytes : List Byte)
  /-- A segment's transmitter finishes its telegram (R155). -/
  | transmitComplete (side : Side)
  /-- ANNOUNCE: class byte, current work (R45). -/
  | announce (h : Header) (cls : Nat) (work : Option (Nat × Nat))
  | querySlabRecord (h : Header) (slab : Nat)
  | querySlabDefects (h : Header) (slab : Nat)
  | querySlabNext (h : Header) (slab : Nat)
  | queryPlacementEntry (h : Header) (slab index : Nat)
  | queryPlacementSlab (h : Header) (slab : Nat)
  | queryJobRecord (h : Header) (job : Nat)
  | queryJobNext (h : Header) (job : Nat)
  | queryBill (h : Header) (position : Nat)
  | queryStationEntry (h : Header) (address : Nat)
  | queryStationNext (h : Header) (address : Nat)
  | queryRule (h : Header) (code : Nat)
  | queryWater (h : Header)
  | queryExcursion (h : Header) (rule : Nat)
  | queryFault (h : Header)
  | queryShop (h : Header)
  | queryCapability (h : Header)
  /-- LOAD STATION of any class but NONE; `cls`, `stationSide` and `tier` are the bytes carried (R39). -/
  | loadStation (h : Header) (address cls stationSide tier : Nat) (saw : Option SawFields)
  | loadStationNone (h : Header) (address : Nat)
  | loadRule (h : Header) (code disposition tier classSet : Nat)
  | loadGroup (h : Header) (enables : Nat)
  | loadConstants (h : Header) (kerf margin remnantMin conserveFeed : Nat)
  | loadRates (h : Header) (recycled fresh : Nat)
  | loadWaterRule (h : Header) (number enabled channel direction trip release confirm action : Nat)
  | loadShareWindow (h : Header) (length : Nat)
  | loadAllowance (h : Header) (allowance : Nat)
  | loadNotices (h : Header) (station mask enables : Nat)
  | clearFault (h : Header)
  | releaseLine (h : Header)
  | lineReset (h : Header)
  | renewAllowance (h : Header)
  | slabEnter (h : Header) (slab material thickness length width basis : Nat) (defects : List Rect)
  | slabEditLock (h : Header) (slab reason : Nat)
  | slabEditUnlock (h : Header) (slab : Nat)
  | slabEditSetBasis (h : Header) (slab value : Nat)
  | slabEditAddDefect (h : Header) (slab : Nat) (defect : Rect)
  | slabRetire (h : Header) (slab : Nat)
  | slabDoneFinished (h : Header) (slab : Nat)
  | slabDoneScrap (h : Header) (slab : Nat)
  /-- PLACE; a `job` of 0 is none (R156), `parentPresent` is the presence byte of the parent index. -/
  | place (h : Header) (slab kind : Nat) (rect : Rect) (job parentPresent parentIndex remnantSlab : Nat)
  | unplace (h : Header) (slab index : Nat)
  /-- ORDER as the planning station sends it; a `job` of 0 names no job (R59). -/
  | order (h : Header) (job slab index feed : Nat)
  | withdraw (h : Header) (slab index : Nat)
  | jobOpen (h : Header) (job : Nat)
  | jobLimit (h : Header) (job : Nat) (limit : Option Nat) (hold : Nat)
  | jobClose (h : Header) (job : Nat)
  | takeBill (h : Header) (job : Option Nat)
  | sawStatus (h : Header) (ready wear vibration changed kerf delta : Nat)
  | orderAck (h : Header) (slab index : Nat)
  | orderDecline (h : Header) (slab index : Nat)
  | cutReport (h : Header) (slab index outcome bladeSeconds : Nat)
  | scanRacked (h : Header) (slab rack slot saw : Nat)
  | scanStaged (h : Header) (slab rack slot saw : Nat)
  | scanUnstaged (h : Header) (slab rack slot saw : Nat)
  | scanGone (h : Header) (slab rack slot saw : Nat)
  | waterSample (h : Header) (sequence level turbidity recycled fresh : Nat)
  /-- The silence timer of the station at an address expires (R49). -/
  | silenceTimerExpiry (address : Nat)
  /-- The acknowledgement timer of a saw expires (R79, R80). -/
  | ackTimerExpiry (saw : Nat)
  /-- A presented saw is evaluated (R74, R75). -/
  | deliveryEvaluation (saw : Nat)
  deriving DecidableEq, Repr

end Sys2Proof
end

