-- ==== Sys2Proof/Machine/State.lean ====
section
/-! DEFINITION. The state of the WB-7140: every table, record, counter, flag and pin-held value the manual gives the
controller, as plain data, and its values right after a cold reset with KEEP deasserted. -/

namespace Sys2Proof.Machine

/-! ## Stock Table (Chapter 1) -/

/-- Table 1-2. -/
inductive SlabState where
  | reserved | received | racked | staged | spent | broken | scrapped
  deriving DecidableEq, Repr

/-- R6. -/
inductive LockReason where
  | hold | inspect
  deriving DecidableEq, Repr

/-- Rack and slot (Table 1-1). -/
structure RackPosition where
  rack : Nat
  slot : Nat
  deriving DecidableEq, Repr

/-- A slab record (Table 1-1). -/
structure Slab where
  id : Nat
  material : Nat
  thickness : Nat
  length : Nat
  width : Nat
  defects : List Rect
  basis : Nat
  allocated : Nat
  state : SlabState
  rack : Option RackPosition
  bed : Option Nat
  lock : Option LockReason
  parent : Option Nat
  generation : Nat
  cutMark : Bool
  deriving DecidableEq, Repr

/-! ## Plan Pool (Chapter 2) -/

inductive PlacementKind where
  | piece | mitre | cutout | remnant
  deriving DecidableEq, Repr

inductive PlacementState where
  | planned | ordered | cut
  deriving DecidableEq, Repr

/-- A placement entry (Table 2-1); `rect` is its cut rectangle. -/
structure Placement where
  slab : Nat
  index : Nat
  kind : PlacementKind
  job : Option Nat
  rect : Rect
  kerf : Option Nat
  parentIndex : Option Nat
  remnantSlab : Option Nat
  state : PlacementState
  deriving DecidableEq, Repr

/-- Table 2-3. -/
structure Constants where
  kerf : Nat
  margin : Nat
  remnantMin : Nat
  conserveFeed : Nat
  deriving DecidableEq, Repr

/-! ## Stations, saws and their queues (Chapters 3 to 5) -/

inductive StationClass where
  | planning | supervisor | panel | bridgeSaw | waterjet | recycler | scanner
  deriving DecidableEq, Repr

inductive StationState where
  | absent | attached | silent
  deriving DecidableEq, Repr

inductive Blade where
  | unknown | good | weak | worn
  deriving DecidableEq, Repr

/-- Table 5-1. -/
inductive OrderState where
  | waiting | delivered | running | inDoubt
  deriving DecidableEq, Repr

/-- An order record (Table 4-1). `deliveredKerf` is the planning kerf of the first send, which R79 makes the re-sends
repeat: state the manual implies and does not list (DEDUCED, log entry 32). -/
structure CutOrder where
  slab : Nat
  index : Nat
  saw : Nat
  job : Option Nat
  kind : PlacementKind
  requestedFeed : Nat
  deliveredFeed : Option Nat
  state : OrderState
  sends : Nat
  recycled : Nat
  fresh : Nat
  number : Nat
  deliveredKerf : Option Nat
  deriving DecidableEq, Repr

/-- The configured saw fields (Table 3-1). `kinds` has one bit per placement kind (R167). -/
structure SawConfig where
  kinds : Byte
  bedLength : Nat
  bedWidth : Nat
  maxThickness : Nat
  materials : List Nat
  feedMin : Nat
  feedMax : Nat
  sawRate : Nat
  wearRate : Nat
  patient : Bool
  deriving DecidableEq, Repr

/-- The saw part of a station entry: configuration, runtime fields (Table 3-3), queue (R58) and the delivery state of
Chapter 5. `ackTimer` is the milliseconds left, none when stopped. -/
structure Saw where
  config : SawConfig
  ready : Bool
  blade : Blade
  kerf : Option Nat
  bladeSeconds : Nat
  bed : Option Nat
  queue : List CutOrder
  lastDelivered : Option (Nat × Nat)
  ackTimer : Option Nat
  deriving DecidableEq, Repr

/-- A station entry (Tables 3-1 and 3-3). `silence` is the milliseconds left on the silence timer, none when stopped;
`saw` is present in entries of class BRIDGE_SAW and WATERJET. -/
structure Station where
  address : Nat
  side : Side
  cls : StationClass
  tier : Nat
  state : StationState
  silence : Option Nat
  saw : Option Saw
  deriving DecidableEq, Repr

/-- R71. -/
inductive LineState where
  | run | held
  deriving DecidableEq, Repr

/-! ## Water Monitor (Chapter 6) -/

inductive WaterMode where
  | unsure | normal | conserve | halt
  deriving DecidableEq, Repr

inductive Channel where
  | level | turbidity
  deriving DecidableEq, Repr

inductive Direction where
  | below | atOrAbove
  deriving DecidableEq, Repr

inductive RuleAction where
  | notice | conserve | halt
  deriving DecidableEq, Repr

/-- Table 6-3. -/
inductive RuleState where
  | clear
  | tripping (n : Nat)
  | active
  | releasing (n : Nat)
  deriving DecidableEq, Repr

/-- An excursion record (R96). -/
structure Excursion where
  trip : Nat
  worst : Nat
  samples : Nat
  deriving DecidableEq, Repr

/-- A compare rule (Table 6-2). -/
structure CompareRule where
  enabled : Bool
  channel : Channel
  direction : Direction
  trip : Nat
  release : Nat
  confirm : Nat
  action : RuleAction
  state : RuleState
  record : Option Excursion
  deriving DecidableEq, Repr

/-- Table 6-1; `rules` holds rules 0 to 3 in order. -/
structure Water where
  rules : List CompareRule
  mode : WaterMode
  share : Nat
  windowLength : Nat
  windowCount : Nat
  windowRecycled : Nat
  windowFresh : Nat
  lastSequence : Option Nat
  allowance : Nat
  used : Nat
  deriving DecidableEq, Repr

/-! ## Cost Engine (Chapter 7) -/

/-- R111. -/
structure Rates where
  recycled : Nat
  fresh : Nat
  deriving DecidableEq, Repr

/-- The shop accumulators (Table 7-1). -/
structure Shop where
  saw : Nat
  wear : Nat
  recycled : Nat
  fresh : Nat
  loss : Nat
  overflow : Nat
  deriving DecidableEq, Repr

/-! ## Job Table (Chapter 9) -/

inductive JobState where
  | opened | closing | closed
  deriving DecidableEq, Repr

/-- A job record (Table 9-1). -/
structure Job where
  id : Nat
  state : JobState
  limit : Option Nat
  hold : Bool
  overQuote : Bool
  saturated : Bool
  material : Nat
  saw : Nat
  wear : Nat
  water : Nat
  recycled : Nat
  fresh : Nat
  bladeSeconds : Nat
  piecesCut : Nat
  openOrders : Nat
  unsettled : Nat
  closeNumber : Option Nat
  deriving DecidableEq, Repr

/-! ## Fault Record (Chapter 10) -/

/-- The faults of Table 10-1, in its order; the class is the word before the stroke. -/
inductive FaultCode where
  | linkCheck | linkForm | linkUnknownKind | linkOverrun
  | stationUnknownSource | stationMismatch | stationSilence | stationStrayReport
  | deliveryNoAnswer
  | stockUnknownSlab | stockBedConflict | stockBroken
  | waterSampleGap
  | costSaturated
  deriving DecidableEq, Repr

/-- The accumulators of a job that can saturate (R116, R117). -/
inductive Accumulator where
  | material | saw | wear | water | recycled | fresh | bladeSeconds
  deriving DecidableEq, Repr

/-- The detail of a fault (Table 10-1). -/
inductive FaultDetail where
  | side (s : Side)
  | classAndSide (c : StationClass) (s : Side)
  | plantSilent
  | placement (index : Nat)
  | placementAndNumber (index number : Nat)
  | scanEvent (code : Nat)
  | bedConflict (saw : Nat) (displaced : Bool)
  | sampleGap (expected received : Nat)
  | accumulator (a : Accumulator)
  deriving DecidableEq, Repr

/-- One fault occurrence: the fields of section 10.1. -/
structure FaultRecord where
  code : FaultCode
  station : Nat
  kind : Option Nat
  slab : Option Nat
  job : Option Nat
  detail : Option FaultDetail
  deriving DecidableEq, Repr

/-- The Fault Record block. `mask` and `enables` have one bit per fault class and per event notice (R167). -/
structure FaultBlock where
  record : Option FaultRecord
  moreFaults : Bool
  count : Nat
  mask : Byte
  enables : Byte
  station : Nat
  counter : Nat
  deriving DecidableEq, Repr

/-- Why the water mode changed (R100). -/
inductive ModeCause where
  | sample | ruleLoad | allowance | renew | plantLost | lineReset
  deriving DecidableEq, Repr

/-- Why an order was returned (Table 10-3). -/
inductive ReturnCause where
  | noAnswer | brk
  deriving DecidableEq, Repr

/-- The content of a notice (R152, Table 10-3). -/
inductive Notice where
  | fault (r : FaultRecord) (filled : Bool) (count : Nat)
  | waterMode (before after : WaterMode) (cause : ModeCause) (moved : List (Nat × Bool))
  | overQuote (job limit sum : Nat) (hold : Bool)
  | billReady (job number : Nat)
  | declined (saw slab index number : Nat) (job : Option Nat) (recycled fresh : Nat)
  | orderReturned (saw slab index number : Nat) (job : Option Nat) (cause : ReturnCause)
  | placementDropped (slab index : Nat) (job : Option Nat) (cutouts : Nat)
  | slabSettled (slab : Nat) (ending : SlabState) (basis residue : Nat) (participants : Option Nat)
      (remnants removed : Nat)
  deriving DecidableEq, Repr

/-- A telegram an event has caused and that leaves after its reply (R91, R151). -/
inductive Outgoing where
  | notice (n : Notice)
  | valve (dst : Nat) (mode : WaterMode)
  deriving DecidableEq, Repr

/-! ## Link Bridge (Chapter 11) -/

inductive Disposition where
  | forward | handle | handleForward | drop
  deriving DecidableEq, Repr

/-- The capability groups. -/
inductive Group where
  | base | remnant | mitre | cutout | quote
  deriving DecidableEq, Repr

/-- An entry of the kind rule table (R159); `classes` has one bit per class (R167). -/
structure KindRule where
  disposition : Disposition
  maxTier : Nat
  classes : Byte
  group : Group
  deriving DecidableEq, Repr

/-- The four loadable group enables; BASE is always enabled (R165). -/
structure Groups where
  remnant : Bool
  mitre : Bool
  cutout : Bool
  quote : Bool
  deriving DecidableEq, Repr

/-- One segment's transmitter (R155): the telegram in transmission and those waiting behind it, oldest first. -/
structure Transmitter where
  sending : Option Telegram
  waiting : List Telegram
  deriving DecidableEq, Repr

/-- The reset report (R171). -/
inductive ResetReport where
  | withoutKeep | withKeep | keepRefused
  deriving DecidableEq, Repr

/-! ## The whole machine -/

/-- The state of the controller. The tables are kept in rising order of their keys, so that equal tables are equal
data; the manual gives them no order of their own (R1) (DESIGN CHOICE, log entry 35).

Model's own fields, which the manual does not name as state: `pending` (the commands that wait, the host's),
`presented` (the saws presented to delivery evaluation and not yet evaluated, R74), `outbox` (the notices and VALVEs
of the event in hand, empty between events, R151), `inReset` and `standbyLost` (the levels of RESET and of the
standby supply since the last cold reset, R170) (DESIGN CHOICE, log entry 33). -/
structure State where
  pending : List Instr
  inReset : Bool
  standbyLost : Bool
  address : Nat
  resetReport : ResetReport
  kindRules : List (Option KindRule)
  groups : Groups
  constants : Constants
  stations : List Station
  slabs : List Slab
  placements : List Placement
  jobs : List Job
  bills : List Nat
  closeCounter : Nat
  admissionCounter : Nat
  line : LineState
  water : Water
  rates : Rates
  shop : Shop
  faults : FaultBlock
  txA : Transmitter
  txB : Transmitter
  presented : List Nat
  outbox : List Outgoing
  deriving DecidableEq, Repr

/-- No command of this block stops it: the manual gives every telegram, pin and timer event an effect, an ANSWER, a
REJECT or a discard. There is no constructor, so no fault can be raised. -/
inductive Fault where
  deriving DecidableEq, Repr

/-- Why a command has no meaning. -/
inductive Refusal where
  /-- Raised by an arm of `exec` whose command has no meaning yet (safe: nothing is claimed of it). No arm raises it. -/
  | notModelled (mnemonic : String)
  deriving DecidableEq, Repr

/-! ## Values after a cold reset with KEEP deasserted -/

/-- All seven classes: bits 0 to 6 (R167). -/
def allClasses : Byte := 0x7F#8
/-- PLANNING and SUPERVISOR. -/
def officeClasses : Byte := 0x03#8
/-- BRIDGE_SAW and WATERJET. -/
def sawClasses : Byte := 0x18#8
def recyclerClass : Byte := 0x20#8
def scannerClass : Byte := 0x40#8

/-- The default kind rules (Table 11-2), codes 00H to 3FH in order. -/
def defaultKindRules : List (Option KindRule) :=
  [none,
   some ⟨.handle, 3, allClasses, .base⟩,
   some ⟨.handle, 3, allClasses, .base⟩,
   some ⟨.handle, 0, officeClasses, .base⟩,
   some ⟨.handle, 1, officeClasses, .base⟩,
   some ⟨.handle, 1, officeClasses, .base⟩,
   some ⟨.handle, 0, officeClasses, .base⟩,
   some ⟨.handle, 0, officeClasses, .base⟩]
  ++ List.replicate 11 (some ⟨.handle, 1, officeClasses, .base⟩)
  ++ [some ⟨.handle, 1, officeClasses, .quote⟩]
  ++ List.replicate 4 none
  ++ List.replicate 3 (some ⟨.handle, 2, sawClasses, .base⟩)
  ++ [some ⟨.handleForward, 2, sawClasses, .base⟩,
      some ⟨.handleForward, 2, scannerClass, .base⟩,
      some ⟨.handle, 2, recyclerClass, .base⟩]
  ++ List.replicate 2 none
  ++ List.replicate 4 (some ⟨.drop, 0, allClasses, .base⟩)
  ++ List.replicate 12 none
  ++ List.replicate 8 (some ⟨.drop, 3, allClasses, .base⟩)
  ++ List.replicate 8 none

/-- A compare rule after a cold reset without KEEP (Table 6-4). -/
def defaultWaterRule : CompareRule :=
  ⟨false, .level, .below, 0, 0, 1, .notice, .clear, none⟩

/-- An idle transmitter (R172). -/
def idleTransmitter : Transmitter := ⟨none, []⟩

/-- The machine right after a cold reset with KEEP deasserted: every block at the values of its chapter. The address
is latched from straps the manual does not set; 30, the value of straps 0 and 31, is taken (DESIGN CHOICE, log entry 1). -/
def State.reset : State where
  pending := []
  inReset := false
  standbyLost := false
  address := 30
  resetReport := .withoutKeep
  kindRules := defaultKindRules
  groups := ⟨false, false, false, false⟩
  constants := ⟨4, 15, 250, 800⟩
  stations := []
  slabs := []
  placements := []
  jobs := []
  bills := []
  closeCounter := 0
  admissionCounter := 0
  line := .run
  water := ⟨List.replicate 4 defaultWaterRule, .unsure, 1000, 4, 0, 0, 0, none, 0, 0⟩
  rates := ⟨0, 0⟩
  shop := ⟨0, 0, 0, 0, 0, 0⟩
  faults := ⟨none, false, 0, 0#8, 0#8, 0, 0⟩
  txA := idleTransmitter
  txB := idleTransmitter
  presented := []
  outbox := []

end Sys2Proof.Machine
end

