-- ==== Sys2Proof/Machine/Flags.lean ====
section
/-! DEFINITION. The conditions and flags the manual computes: slab state classes, blade condition (R52), rectangle
geometry (R5, R22, R26, R33), compare-rule conditions and transitions (R94 to R97), the water mode (R98), the
delivered feed (R77), and the quote and close tests of a job (R120, R141). -/

namespace Sys2Proof.Machine

open Sys2Proof

/-! ## Slab states -/

/-- RECEIVED, RACKED and STAGED are the stock states. -/
def SlabState.isStock : SlabState → Bool
  | .reserved => false
  | .received => true
  | .racked => true
  | .staged => true
  | .spent => false
  | .broken => false
  | .scrapped => false

/-- SPENT, BROKEN and SCRAPPED are the settled states. -/
def SlabState.isSettled : SlabState → Bool
  | .reserved => false
  | .received => false
  | .racked => false
  | .staged => false
  | .spent => true
  | .broken => true
  | .scrapped => true

/-- An order is active when DELIVERED, RUNNING or IN_DOUBT (section 1.2). -/
def OrderState.isActive : OrderState → Bool
  | .waiting => false
  | .delivered => true
  | .running => true
  | .inDoubt => true

/-- PIECE and MITRE: the kinds that may hold cutouts and that take material. -/
def PlacementKind.isPiece : PlacementKind → Bool
  | .piece => true
  | .mitre => true
  | .cutout => false
  | .remnant => false

def StationClass.isSaw : StationClass → Bool
  | .planning => false
  | .supervisor => false
  | .panel => false
  | .bridgeSaw => true
  | .waterjet => true
  | .recycler => false
  | .scanner => false

end Sys2Proof.Machine

/-! ## Geometry -/

namespace Sys2Proof

/-- Two half-open rectangles intersect when each starts before the other ends, on both axes (section 0.5). -/
def Rect.meets (r t : Rect) : Bool :=
  decide (r.x < t.x + t.length) && decide (t.x < r.x + r.length)
    && decide (r.y < t.y + t.width) && decide (t.y < r.y + r.width)

/-- The rectangle with a kerf skirt on its +x and +y sides (R22). -/
def Rect.skirted (r : Rect) (k : Nat) : Rect := ⟨r.x, r.y, r.length + k, r.width + k⟩

def Rect.area (r : Rect) : Nat := r.length * r.width

end Sys2Proof

namespace Sys2Proof.Machine

open Sys2Proof

/-- R5: a valid defect of a slab of the given length and width. -/
def validDefect (length width : Nat) (r : Rect) : Bool :=
  decide (1 ≤ r.length) && decide (1 ≤ r.width) && decide (r.x + r.length ≤ length)
    && decide (r.y + r.width ≤ width)

/-- R26: a reserved rectangle lies in the usable region of a slab under edge margin m. -/
def inUsable (length width m : Nat) (r : Rect) : Bool :=
  decide (m ≤ r.x) && decide (m ≤ r.y) && decide (r.x + r.length + m ≤ length)
    && decide (r.y + r.width + m ≤ width)

/-- R33 check 2: a cutout lies within its parent with 50 mm to spare on every side. -/
def insideParent (parent r : Rect) : Bool :=
  decide (parent.x + 50 ≤ r.x) && decide (parent.y + 50 ≤ r.y)
    && decide (r.x + r.length + 50 ≤ parent.x + parent.length)
    && decide (r.y + r.width + 50 ≤ parent.y + parent.width)

/-- R30: a parent's defect clipped to a cut rectangle and moved into its coordinates; none when they do not meet. -/
def clipDefect (cut d : Rect) : Option Rect :=
  if cut.meets d then
    let x := max cut.x d.x
    let y := max cut.y d.y
    some ⟨x - cut.x, y - cut.y, min (cut.x + cut.length) (d.x + d.length) - x,
      min (cut.y + cut.width) (d.y + d.width) - y⟩
  else none

/-- The reserved rectangle of a placement, with its own placed kerf (R22); none for a CUTOUT. -/
def Placement.reserved (p : Placement) : Option Rect :=
  match p.kind with
  | .cutout => none
  | .piece => some (p.rect.skirted (p.kerf.getD 0))
  | .mitre => some (p.rect.skirted (p.kerf.getD 0))
  | .remnant => some (p.rect.skirted (p.kerf.getD 0))

/-- The reserved area in square millimetres (R22); 0 for a CUTOUT, which holds no slab area. -/
def Placement.area (p : Placement) : Nat :=
  match p.reserved with
  | none => 0
  | some r => r.area

/-! ## Blade condition (Table 3-6) -/

/-- `wear` is LIMIT and `vibration` is HIGH when true. -/
def bladeCondition (wear vibration : Bool) : Blade :=
  if wear then .worn else if vibration then .weak else .good

/-! ## Compare rules -/

/-- R94, the trip condition. -/
def tripMet (r : CompareRule) (v : Nat) : Bool :=
  match r.direction with
  | .below => decide (v < r.trip)
  | .atOrAbove => decide (r.trip ≤ v)

/-- R94, the release condition. -/
def releaseMet (r : CompareRule) (v : Nat) : Bool :=
  match r.direction with
  | .below => decide (r.release ≤ v)
  | .atOrAbove => decide (v < r.release)

/-- R95 (Table 6-3): the rule state after a sample of value v. -/
def nextRuleState (r : CompareRule) (v : Nat) : RuleState :=
  match r.state with
  | .clear => if tripMet r v then (if r.confirm = 1 then .active else .tripping 1) else .clear
  | .tripping n => if tripMet r v then (if n + 1 = r.confirm then .active else .tripping (n + 1)) else .clear
  | .active => if releaseMet r v then (if r.confirm = 1 then .clear else .releasing 1) else .active
  | .releasing n => if releaseMet r v then (if n + 1 = r.confirm then .clear else .releasing (n + 1)) else .active

/-- R96: the further of two values on the tripping side. -/
def worseOf (d : Direction) (old v : Nat) : Nat :=
  match d with
  | .below => min old v
  | .atOrAbove => max old v

/-- R97: a rule holds its action while ACTIVE or RELEASING. -/
def RuleState.holds : RuleState → Bool
  | .clear => false
  | .tripping _ => false
  | .active => true
  | .releasing _ => true

/-- R96: the excursion record after a sample that moved the rule to the state `after`. -/
def nextRecord (r : CompareRule) (after : RuleState) (v : Nat) : Option Excursion :=
  match after with
  | .active =>
    if r.state.holds then
      match r.record with
      | some e => some ⟨e.trip, worseOf r.direction e.worst v, min 65535 (e.samples + 1)⟩
      | none => some ⟨v, v, 1⟩
    else some ⟨v, v, 1⟩
  | .clear => r.record
  | .tripping _ => r.record
  | .releasing _ => r.record

/-- One enabled rule takes a sample on its own channel (R94 to R96); a disabled rule tests nothing. -/
def takeSample (level turbidity : Nat) (r : CompareRule) : CompareRule :=
  if r.enabled then
    let v := match r.channel with
      | .level => level
      | .turbidity => turbidity
    { r with state := nextRuleState r v, record := nextRecord r (nextRuleState r v) v }
  else r

/-- The rules whose excursion began (true) or ended (false) between two tables, by number (R97, R100) (DEDUCED, log entry 26). -/
def movedRules (before after : List CompareRule) : List (Nat × Bool) :=
  (before.zip after).zipIdx.filterMap (fun p =>
    if p.1.1.state.holds = p.1.2.state.holds then none else some (p.2, p.1.2.state.holds))

/-! ## Water mode (R98) -/

def anyHolds (rules : List CompareRule) (a : RuleAction) : Bool :=
  rules.any (fun r => r.enabled && decide (r.action = a) && r.state.holds)

/-- The computed mode: HALT, then CONSERVE by a rule or by the allowance, then NORMAL. -/
def computedMode (w : Water) : WaterMode :=
  if anyHolds w.rules .halt then .halt
  else if anyHolds w.rules .conserve || (decide (0 < w.allowance) && decide (w.allowance ≤ w.used)) then .conserve
  else .normal

/-- The mode holds cutouts and limits feeds: CONSERVE and UNSURE act alike (Table 4-3). -/
def WaterMode.limits : WaterMode → Bool
  | .unsure => true
  | .normal => false
  | .conserve => true
  | .halt => false

/-- R77 step 1: the delivered feed under a mode. -/
def deliveredFeedUnder (m : WaterMode) (requested limit : Nat) : Nat :=
  if m.limits then min requested limit else requested

/-! ## Jobs -/

/-- The sum of the four charge accumulators (R120). -/
def Job.sum (j : Job) : Nat := j.material + j.saw + j.wear + j.water

/-- R120: a charge has brought the job to its limit and its flag is not yet set. -/
def quoteReached (quoteEnabled : Bool) (j : Job) : Bool :=
  match j.limit with
  | none => false
  | some l => quoteEnabled && decide (l ≤ j.sum) && !j.overQuote

/-- R141: a CLOSING job whose counts are both 0. -/
def readyToClose (j : Job) : Bool :=
  decide (j.state = .closing) && decide (j.openOrders = 0) && decide (j.unsettled = 0)

end Sys2Proof.Machine
end

