-- ==== Sys2Proof/WellFormed.lean ====
section
/-! DEFINITION. Which commands can occur: every field of a telegram row lies within the bytes its layout gives it
(Tables 11-1 and 11-4 to 11-6), and a pin or timer command names what exists. -/

namespace Sys2Proof

/-- A number that fits in n bytes. -/
def fits (n x : Nat) : Bool := decide (x < 256 ^ n)

/-- R157 step 3 has let the destination through, and the source and tag are bytes. -/
def Header.wf (h : Header) : Bool :=
  decide (1 ≤ h.dst) && decide (h.dst ≤ 31) && fits 1 h.src && fits 1 h.tag

def Rect.wf (r : Rect) : Bool := fits 2 r.x && fits 2 r.y && fits 2 r.length && fits 2 r.width

/-- The material count must leave the LOAD STATION payload within 48 bytes: at most 11 codes. -/
def SawFields.wf (f : SawFields) : Bool :=
  fits 1 f.kindSet && fits 2 f.bedLength && fits 2 f.bedWidth && fits 1 f.maxThickness
    && decide (f.materials.length ≤ 11) && f.materials.all (fits 2)
    && fits 2 f.feedMin && fits 2 f.feedMax && fits 4 f.sawRate && fits 4 f.wearRate && fits 1 f.patient

/-- The class codes whose LOAD STATION carries saw fields: BRIDGE_SAW 03H and WATERJET 04H (R168). -/
def isSawCode (c : Nat) : Bool := c == 3 || c == 4

/-- Well-formedness of a command. -/
def Instr.wf : Instr → Bool
  | .coldResetAssert => true
  | .coldResetRelease _ straps => decide (straps < 32)
  | .standbyRetentionLoss => true
  | .telegramReceived _ _ => true
  | .transmitComplete _ => true
  | .announce h cls work => h.wf && fits 1 cls &&
      (match work with | none => true | some w => fits 4 w.1 && fits 1 w.2)
  | .querySlabRecord h slab => h.wf && fits 4 slab
  | .querySlabDefects h slab => h.wf && fits 4 slab
  | .querySlabNext h slab => h.wf && fits 4 slab
  | .queryPlacementEntry h slab index => h.wf && fits 4 slab && fits 1 index
  | .queryPlacementSlab h slab => h.wf && fits 4 slab
  | .queryJobRecord h job => h.wf && fits 4 job
  | .queryJobNext h job => h.wf && fits 4 job
  | .queryBill h position => h.wf && fits 1 position
  | .queryStationEntry h address => h.wf && fits 1 address
  | .queryStationNext h address => h.wf && fits 1 address
  | .queryRule h code => h.wf && fits 1 code
  | .queryWater h => h.wf
  | .queryExcursion h rule => h.wf && fits 1 rule
  | .queryFault h => h.wf
  | .queryShop h => h.wf
  | .queryCapability h => h.wf
  | .loadStation h address cls stationSide tier saw =>
      h.wf && fits 1 address && fits 1 cls && cls != 7 && fits 1 stationSide && fits 1 tier &&
      (match saw with | none => !isSawCode cls | some f => isSawCode cls && f.wf)
  | .loadStationNone h address => h.wf && fits 1 address
  | .loadRule h code disposition tier classSet =>
      h.wf && fits 1 code && fits 1 disposition && fits 1 tier && fits 1 classSet
  | .loadGroup h enables => h.wf && fits 1 enables
  | .loadConstants h kerf margin remnantMin conserveFeed =>
      h.wf && fits 1 kerf && fits 1 margin && fits 2 remnantMin && fits 2 conserveFeed
  | .loadRates h recycled fresh => h.wf && fits 2 recycled && fits 2 fresh
  | .loadWaterRule h number enabled channel direction trip release confirm action =>
      h.wf && fits 1 number && fits 1 enabled && fits 1 channel && fits 1 direction && fits 2 trip
        && fits 2 release && fits 1 confirm && fits 1 action
  | .loadShareWindow h length => h.wf && fits 1 length
  | .loadAllowance h allowance => h.wf && fits 4 allowance
  | .loadNotices h station mask enables => h.wf && fits 1 station && fits 1 mask && fits 1 enables
  | .clearFault h => h.wf
  | .releaseLine h => h.wf
  | .lineReset h => h.wf
  | .renewAllowance h => h.wf
  | .slabEnter h slab material thickness length width basis defects =>
      h.wf && fits 4 slab && fits 2 material && fits 1 thickness && fits 2 length && fits 2 width
        && fits 4 basis && decide (defects.length ≤ 4) && defects.all Rect.wf
  | .slabEditLock h slab reason => h.wf && fits 4 slab && fits 1 reason
  | .slabEditUnlock h slab => h.wf && fits 4 slab
  | .slabEditSetBasis h slab value => h.wf && fits 4 slab && fits 4 value
  | .slabEditAddDefect h slab defect => h.wf && fits 4 slab && defect.wf
  | .slabRetire h slab => h.wf && fits 4 slab
  | .slabDoneFinished h slab => h.wf && fits 4 slab
  | .slabDoneScrap h slab => h.wf && fits 4 slab
  | .place h slab kind rect job parentPresent parentIndex remnantSlab =>
      h.wf && fits 4 slab && fits 1 kind && rect.wf && fits 4 job && fits 1 parentPresent
        && fits 1 parentIndex && fits 4 remnantSlab
  | .unplace h slab index => h.wf && fits 4 slab && fits 1 index
  | .order h job slab index feed => h.wf && fits 4 job && fits 4 slab && fits 1 index && fits 2 feed
  | .withdraw h slab index => h.wf && fits 4 slab && fits 1 index
  | .jobOpen h job => h.wf && fits 4 job
  | .jobLimit h job limit hold => h.wf && fits 4 job && fits 1 hold &&
      (match limit with | none => true | some l => decide (0 < l) && fits 6 l)
  | .jobClose h job => h.wf && fits 4 job
  | .takeBill h job => h.wf && (match job with | none => true | some j => fits 4 j)
  | .sawStatus h ready wear vibration changed kerf delta =>
      h.wf && fits 1 ready && fits 1 wear && fits 1 vibration && fits 1 changed && fits 1 kerf && fits 2 delta
  | .orderAck h slab index => h.wf && fits 4 slab && fits 1 index
  | .orderDecline h slab index => h.wf && fits 4 slab && fits 1 index
  | .cutReport h slab index outcome bladeSeconds =>
      h.wf && fits 4 slab && fits 1 index && fits 1 outcome && fits 2 bladeSeconds
  | .scanRacked h slab rack slot saw => h.wf && fits 4 slab && fits 1 rack && fits 1 slot && fits 1 saw
  | .scanStaged h slab rack slot saw => h.wf && fits 4 slab && fits 1 rack && fits 1 slot && fits 1 saw
  | .scanUnstaged h slab rack slot saw => h.wf && fits 4 slab && fits 1 rack && fits 1 slot && fits 1 saw
  | .scanGone h slab rack slot saw => h.wf && fits 4 slab && fits 1 rack && fits 1 slot && fits 1 saw
  | .waterSample h sequence level turbidity recycled fresh =>
      h.wf && fits 1 sequence && fits 2 level && fits 2 turbidity && fits 2 recycled && fits 2 fresh
  | .silenceTimerExpiry address => decide (1 ≤ address) && decide (address ≤ 30)
  | .ackTimerExpiry saw => decide (1 ≤ saw) && decide (saw ≤ 30)
  | .deliveryEvaluation saw => decide (1 ≤ saw) && decide (saw ≤ 30)

end Sys2Proof
end

