-- ==== Sys2Proof/Decode.lean ====
section
/-! DEFINITION. The byte forms: numbers in payloads (R156), the check word (R157), the telegram layout (Table 11-1),
and the payloads of Tables 11-4 to 11-6 in both directions, payload bytes to command and command to payload
bytes. spec/opcode_table.json gives no row any bits, so `decodeTableWord` spells no command. -/

namespace Sys2Proof

/-! ## Kind codes (Table 11-2) -/

def Kind.announce : Nat := 0x01
def Kind.query : Nat := 0x02
def Kind.load : Nat := 0x03
def Kind.clearFault : Nat := 0x04
def Kind.releaseLine : Nat := 0x05
def Kind.lineReset : Nat := 0x06
def Kind.renewAllowance : Nat := 0x07
def Kind.slabEnter : Nat := 0x08
def Kind.slabEdit : Nat := 0x09
def Kind.slabRetire : Nat := 0x0A
def Kind.slabDone : Nat := 0x0B
def Kind.place : Nat := 0x0C
def Kind.unplace : Nat := 0x0D
def Kind.order : Nat := 0x0E
def Kind.withdraw : Nat := 0x0F
def Kind.jobOpen : Nat := 0x10
def Kind.jobClose : Nat := 0x11
def Kind.takeBill : Nat := 0x12
def Kind.jobLimit : Nat := 0x13
def Kind.sawStatus : Nat := 0x18
def Kind.orderAck : Nat := 0x19
def Kind.orderDecline : Nat := 0x1A
def Kind.cutReport : Nat := 0x1B
def Kind.scan : Nat := 0x1C
def Kind.waterSample : Nat := 0x1D
def Kind.answer : Nat := 0x20
def Kind.reject : Nat := 0x21
def Kind.notice : Nat := 0x22
def Kind.valve : Nat := 0x23

/-! ## Numbers in payloads (R156) -/

/-- A number in n bytes, most significant byte first. -/
def be : Nat → Nat → List Byte
  | 0, _ => []
  | n + 1, x => BitVec.ofNat 8 (x / 256 ^ n) :: be n x

/-- The number that bytes hold, most significant byte first. -/
def readBE (p : List Byte) : Nat := p.foldl (fun acc b => acc * 256 + b.toNat) 0

/-- Takes an n-byte number from the front of a payload. -/
def num (n : Nat) (p : List Byte) : Option (Nat × List Byte) :=
  if p.length < n then none else some (readBE (p.take n), p.drop n)

/-! ## Check word (R157) -/

/-- One bit of the division by x^16 + x^12 + x^5 + 1. -/
def crcShift (r : BitVec 16) : BitVec 16 :=
  if r.msb then (r <<< 1) ^^^ 0x1021#16 else r <<< 1

def crcBits : Nat → BitVec 16 → BitVec 16
  | 0, r => r
  | n + 1, r => crcBits n (crcShift r)

/-- A byte enters the register most significant bit first. -/
def crcByte (r : BitVec 16) (b : Byte) : BitVec 16 :=
  crcBits 8 (r ^^^ (b.zeroExtend 16 <<< 8))

/-- The check word of a run of bytes: register from FFFFH, no final inversion (R157). -/
def checkWord (p : List Byte) : BitVec 16 := p.foldl crcByte 0xFFFF#16

/-! ## The telegram on the wire (Table 11-1) -/

/-- Bytes 0 to the last payload byte. -/
def Telegram.body (t : Telegram) : List Byte :=
  be 1 t.dst ++ be 1 t.src ++ be 1 t.kind ++ be 1 t.tag ++ be 1 t.payload.length ++ t.payload

/-- The whole telegram: body and check word, most significant byte first. -/
def Telegram.wire (t : Telegram) : List Byte := t.body ++ be 2 (checkWord t.body).toNat

/-- What the form test of R157 finds in a received run of bytes. -/
inductive FormResult where
  /-- Step 1 or step 3 fails: LINK/FORM. -/
  | badForm
  /-- Step 2 fails: LINK/CHECK. -/
  | badCheck
  | ok (t : Telegram)
  deriving DecidableEq, Repr

/-- The form test of R157, its three steps in order. -/
def formTest (p : List Byte) : FormResult :=
  if p.length < 7 then .badForm
  else
    let body := p.take (p.length - 2)
    if be 2 (checkWord body).toNat ≠ p.drop (p.length - 2) then .badCheck
    else match body with
      | d :: s :: k :: g :: n :: payload =>
        if 48 < n.toNat ∨ n.toNat ≠ p.length - 7 ∨ d.toNat = 0 ∨ 31 < d.toNat ∨ 63 < k.toNat then .badForm
        else .ok ⟨d.toNat, s.toNat, k.toNat, g.toNat, payload⟩
      | _ => .badForm

/-! ## Commands to telegrams (Tables 11-4 to 11-6) -/

/-- The addressing of a telegram row; none for the pin, timer and evaluation rows and for raw bytes. -/
def Instr.header? : Instr → Option Header
  | .coldResetAssert => none
  | .coldResetRelease _ _ => none
  | .standbyRetentionLoss => none
  | .telegramReceived _ _ => none
  | .transmitComplete _ => none
  | .announce h _ _ => some h
  | .querySlabRecord h _ => some h
  | .querySlabDefects h _ => some h
  | .querySlabNext h _ => some h
  | .queryPlacementEntry h _ _ => some h
  | .queryPlacementSlab h _ => some h
  | .queryJobRecord h _ => some h
  | .queryJobNext h _ => some h
  | .queryBill h _ => some h
  | .queryStationEntry h _ => some h
  | .queryStationNext h _ => some h
  | .queryRule h _ => some h
  | .queryWater h => some h
  | .queryExcursion h _ => some h
  | .queryFault h => some h
  | .queryShop h => some h
  | .queryCapability h => some h
  | .loadStation h _ _ _ _ _ => some h
  | .loadStationNone h _ => some h
  | .loadRule h _ _ _ _ => some h
  | .loadGroup h _ => some h
  | .loadConstants h _ _ _ _ => some h
  | .loadRates h _ _ => some h
  | .loadWaterRule h _ _ _ _ _ _ _ _ => some h
  | .loadShareWindow h _ => some h
  | .loadAllowance h _ => some h
  | .loadNotices h _ _ _ => some h
  | .clearFault h => some h
  | .releaseLine h => some h
  | .lineReset h => some h
  | .renewAllowance h => some h
  | .slabEnter h _ _ _ _ _ _ _ => some h
  | .slabEditLock h _ _ => some h
  | .slabEditUnlock h _ => some h
  | .slabEditSetBasis h _ _ => some h
  | .slabEditAddDefect h _ _ => some h
  | .slabRetire h _ => some h
  | .slabDoneFinished h _ => some h
  | .slabDoneScrap h _ => some h
  | .place h _ _ _ _ _ _ _ => some h
  | .unplace h _ _ => some h
  | .order h _ _ _ _ => some h
  | .withdraw h _ _ => some h
  | .jobOpen h _ => some h
  | .jobLimit h _ _ _ => some h
  | .jobClose h _ => some h
  | .takeBill h _ => some h
  | .sawStatus h _ _ _ _ _ _ => some h
  | .orderAck h _ _ => some h
  | .orderDecline h _ _ => some h
  | .cutReport h _ _ _ _ => some h
  | .scanRacked h _ _ _ _ => some h
  | .scanStaged h _ _ _ _ => some h
  | .scanUnstaged h _ _ _ _ => some h
  | .scanGone h _ _ _ _ => some h
  | .waterSample h _ _ _ _ _ => some h
  | .silenceTimerExpiry _ => none
  | .ackTimerExpiry _ => none
  | .deliveryEvaluation _ => none

/-- The kind code of a telegram row (Table 11-2); 0, which is no kind, for the other rows. -/
def Instr.kindCode : Instr → Nat
  | .coldResetAssert => 0
  | .coldResetRelease _ _ => 0
  | .standbyRetentionLoss => 0
  | .telegramReceived _ _ => 0
  | .transmitComplete _ => 0
  | .announce _ _ _ => Kind.announce
  | .querySlabRecord _ _ => Kind.query
  | .querySlabDefects _ _ => Kind.query
  | .querySlabNext _ _ => Kind.query
  | .queryPlacementEntry _ _ _ => Kind.query
  | .queryPlacementSlab _ _ => Kind.query
  | .queryJobRecord _ _ => Kind.query
  | .queryJobNext _ _ => Kind.query
  | .queryBill _ _ => Kind.query
  | .queryStationEntry _ _ => Kind.query
  | .queryStationNext _ _ => Kind.query
  | .queryRule _ _ => Kind.query
  | .queryWater _ => Kind.query
  | .queryExcursion _ _ => Kind.query
  | .queryFault _ => Kind.query
  | .queryShop _ => Kind.query
  | .queryCapability _ => Kind.query
  | .loadStation _ _ _ _ _ _ => Kind.load
  | .loadStationNone _ _ => Kind.load
  | .loadRule _ _ _ _ _ => Kind.load
  | .loadGroup _ _ => Kind.load
  | .loadConstants _ _ _ _ _ => Kind.load
  | .loadRates _ _ _ => Kind.load
  | .loadWaterRule _ _ _ _ _ _ _ _ _ => Kind.load
  | .loadShareWindow _ _ => Kind.load
  | .loadAllowance _ _ => Kind.load
  | .loadNotices _ _ _ _ => Kind.load
  | .clearFault _ => Kind.clearFault
  | .releaseLine _ => Kind.releaseLine
  | .lineReset _ => Kind.lineReset
  | .renewAllowance _ => Kind.renewAllowance
  | .slabEnter _ _ _ _ _ _ _ _ => Kind.slabEnter
  | .slabEditLock _ _ _ => Kind.slabEdit
  | .slabEditUnlock _ _ => Kind.slabEdit
  | .slabEditSetBasis _ _ _ => Kind.slabEdit
  | .slabEditAddDefect _ _ _ => Kind.slabEdit
  | .slabRetire _ _ => Kind.slabRetire
  | .slabDoneFinished _ _ => Kind.slabDone
  | .slabDoneScrap _ _ => Kind.slabDone
  | .place _ _ _ _ _ _ _ _ => Kind.place
  | .unplace _ _ _ => Kind.unplace
  | .order _ _ _ _ _ => Kind.order
  | .withdraw _ _ _ => Kind.withdraw
  | .jobOpen _ _ => Kind.jobOpen
  | .jobLimit _ _ _ _ => Kind.jobLimit
  | .jobClose _ _ => Kind.jobClose
  | .takeBill _ _ => Kind.takeBill
  | .sawStatus _ _ _ _ _ _ _ => Kind.sawStatus
  | .orderAck _ _ _ => Kind.orderAck
  | .orderDecline _ _ _ => Kind.orderDecline
  | .cutReport _ _ _ _ _ => Kind.cutReport
  | .scanRacked _ _ _ _ _ => Kind.scan
  | .scanStaged _ _ _ _ _ => Kind.scan
  | .scanUnstaged _ _ _ _ _ => Kind.scan
  | .scanGone _ _ _ _ _ => Kind.scan
  | .waterSample _ _ _ _ _ _ => Kind.waterSample
  | .silenceTimerExpiry _ => 0
  | .ackTimerExpiry _ => 0
  | .deliveryEvaluation _ => 0

def Rect.bytes (r : Rect) : List Byte := be 2 r.x ++ be 2 r.y ++ be 2 r.length ++ be 2 r.width

def SawFields.bytes (f : SawFields) : List Byte :=
  be 1 f.kindSet ++ be 2 f.bedLength ++ be 2 f.bedWidth ++ be 1 f.maxThickness
    ++ be 1 f.materials.length ++ f.materials.flatMap (be 2)
    ++ be 2 f.feedMin ++ be 2 f.feedMax ++ be 4 f.sawRate ++ be 4 f.wearRate ++ be 1 f.patient

/-- The payload of a telegram row (Tables 11-4 to 11-6; selector, item, form and sub-request codes of R167 and
R168); empty for the other rows. An absent quote limit is sent as 0 (DEDUCED, log entry 7). -/
def Instr.payload : Instr → List Byte
  | .coldResetAssert => []
  | .coldResetRelease _ _ => []
  | .standbyRetentionLoss => []
  | .telegramReceived _ _ => []
  | .transmitComplete _ => []
  | .announce _ cls work => be 1 cls ++
      (match work with | none => be 1 0 | some w => be 1 1 ++ be 4 w.1 ++ be 1 w.2)
  | .querySlabRecord _ slab => be 1 1 ++ be 1 0 ++ be 4 slab
  | .querySlabDefects _ slab => be 1 1 ++ be 1 1 ++ be 4 slab
  | .querySlabNext _ slab => be 1 1 ++ be 1 2 ++ be 4 slab
  | .queryPlacementEntry _ slab index => be 1 2 ++ be 1 0 ++ be 4 slab ++ be 1 index
  | .queryPlacementSlab _ slab => be 1 2 ++ be 1 1 ++ be 4 slab
  | .queryJobRecord _ job => be 1 3 ++ be 1 0 ++ be 4 job
  | .queryJobNext _ job => be 1 3 ++ be 1 1 ++ be 4 job
  | .queryBill _ position => be 1 4 ++ be 1 position
  | .queryStationEntry _ address => be 1 5 ++ be 1 0 ++ be 1 address
  | .queryStationNext _ address => be 1 5 ++ be 1 1 ++ be 1 address
  | .queryRule _ code => be 1 6 ++ be 1 code
  | .queryWater _ => be 1 7
  | .queryExcursion _ rule => be 1 8 ++ be 1 rule
  | .queryFault _ => be 1 9
  | .queryShop _ => be 1 0x0A
  | .queryCapability _ => be 1 0x0B
  | .loadStation _ address cls stationSide tier saw =>
      be 1 1 ++ be 1 address ++ be 1 cls ++ be 1 stationSide ++ be 1 tier ++
      (match saw with | none => [] | some f => f.bytes)
  | .loadStationNone _ address => be 1 1 ++ be 1 address ++ be 1 7
  | .loadRule _ code disposition tier classSet =>
      be 1 2 ++ be 1 code ++ be 1 disposition ++ be 1 tier ++ be 1 classSet
  | .loadGroup _ enables => be 1 3 ++ be 1 enables
  | .loadConstants _ kerf margin remnantMin conserveFeed =>
      be 1 4 ++ be 1 kerf ++ be 1 margin ++ be 2 remnantMin ++ be 2 conserveFeed
  | .loadRates _ recycled fresh => be 1 5 ++ be 2 recycled ++ be 2 fresh
  | .loadWaterRule _ number enabled channel direction trip release confirm action =>
      be 1 6 ++ be 1 number ++ be 1 enabled ++ be 1 channel ++ be 1 direction ++ be 2 trip
        ++ be 2 release ++ be 1 confirm ++ be 1 action
  | .loadShareWindow _ length => be 1 7 ++ be 1 length
  | .loadAllowance _ allowance => be 1 8 ++ be 4 allowance
  | .loadNotices _ station mask enables => be 1 9 ++ be 1 station ++ be 1 mask ++ be 1 enables
  | .clearFault _ => []
  | .releaseLine _ => []
  | .lineReset _ => []
  | .renewAllowance _ => []
  | .slabEnter _ slab material thickness length width basis defects =>
      be 4 slab ++ be 2 material ++ be 1 thickness ++ be 2 length ++ be 2 width ++ be 4 basis
        ++ be 1 defects.length ++ defects.flatMap Rect.bytes
  | .slabEditLock _ slab reason => be 4 slab ++ be 1 0 ++ be 1 reason
  | .slabEditUnlock _ slab => be 4 slab ++ be 1 1
  | .slabEditSetBasis _ slab value => be 4 slab ++ be 1 2 ++ be 4 value
  | .slabEditAddDefect _ slab defect => be 4 slab ++ be 1 3 ++ defect.bytes
  | .slabRetire _ slab => be 4 slab
  | .slabDoneFinished _ slab => be 4 slab ++ be 1 0
  | .slabDoneScrap _ slab => be 4 slab ++ be 1 1
  | .place _ slab kind rect job parentPresent parentIndex remnantSlab =>
      be 4 slab ++ be 1 kind ++ rect.bytes ++ be 4 job ++ be 1 parentPresent ++ be 1 parentIndex
        ++ be 4 remnantSlab
  | .unplace _ slab index => be 4 slab ++ be 1 index
  | .order _ job slab index feed => be 4 job ++ be 4 slab ++ be 1 index ++ be 2 feed
  | .withdraw _ slab index => be 4 slab ++ be 1 index
  | .jobOpen _ job => be 4 job
  | .jobLimit _ job limit hold => be 4 job ++ be 6 (limit.getD 0) ++ be 1 hold
  | .jobClose _ job => be 4 job
  | .takeBill _ job => (match job with | none => be 1 0 ++ be 4 0 | some j => be 1 1 ++ be 4 j)
  | .sawStatus _ ready wear vibration changed kerf delta =>
      be 1 ready ++ be 1 wear ++ be 1 vibration ++ be 1 changed ++ be 1 kerf ++ be 2 delta
  | .orderAck _ slab index => be 4 slab ++ be 1 index
  | .orderDecline _ slab index => be 4 slab ++ be 1 index
  | .cutReport _ slab index outcome bladeSeconds => be 4 slab ++ be 1 index ++ be 1 outcome ++ be 2 bladeSeconds
  | .scanRacked _ slab rack slot saw => be 4 slab ++ be 1 0 ++ be 1 rack ++ be 1 slot ++ be 1 saw
  | .scanStaged _ slab rack slot saw => be 4 slab ++ be 1 1 ++ be 1 rack ++ be 1 slot ++ be 1 saw
  | .scanUnstaged _ slab rack slot saw => be 4 slab ++ be 1 2 ++ be 1 rack ++ be 1 slot ++ be 1 saw
  | .scanGone _ slab rack slot saw => be 4 slab ++ be 1 3 ++ be 1 rack ++ be 1 slot ++ be 1 saw
  | .waterSample _ sequence level turbidity recycled fresh =>
      be 1 sequence ++ be 2 level ++ be 2 turbidity ++ be 2 recycled ++ be 2 fresh
  | .silenceTimerExpiry _ => []
  | .ackTimerExpiry _ => []
  | .deliveryEvaluation _ => []

/-- The telegram that a telegram row is, with the given addressing. -/
def Instr.telegram (i : Instr) (h : Header) : Telegram := ⟨h.dst, h.src, i.kindCode, h.tag, i.payload⟩

/-- The addressing of a telegram that arrived on a side. -/
def Telegram.header (t : Telegram) (side : Side) : Header := ⟨side, t.dst, t.src, t.tag⟩

/-! ## Telegrams to commands: payloads by length and codes (R167, R168) -/

/-- Ends a parse: the payload must be used up, so that its length matches its fields. -/
def done (i : Instr) (p : List Byte) : Option Instr := if p.isEmpty then some i else none

def rectOf (p : List Byte) : Option (Rect × List Byte) := do
  let (x, p) ← num 2 p
  let (y, p) ← num 2 p
  let (l, p) ← num 2 p
  let (w, p) ← num 2 p
  some (⟨x, y, l, w⟩, p)

def rectsOf : Nat → List Byte → Option (List Rect × List Byte)
  | 0, p => some ([], p)
  | n + 1, p => do
    let (r, p) ← rectOf p
    let (rs, p) ← rectsOf n p
    some (r :: rs, p)

def numsOf (size : Nat) : Nat → List Byte → Option (List Nat × List Byte)
  | 0, p => some ([], p)
  | n + 1, p => do
    let (x, p) ← num size p
    let (xs, p) ← numsOf size n p
    some (x :: xs, p)

def sawFieldsOf (p : List Byte) : Option (SawFields × List Byte) := do
  let (kindSet, p) ← num 1 p
  let (bedLength, p) ← num 2 p
  let (bedWidth, p) ← num 2 p
  let (maxThickness, p) ← num 1 p
  let (n, p) ← num 1 p
  let (materials, p) ← numsOf 2 n p
  let (feedMin, p) ← num 2 p
  let (feedMax, p) ← num 2 p
  let (sawRate, p) ← num 4 p
  let (wearRate, p) ← num 4 p
  let (patient, p) ← num 1 p
  some (⟨kindSet, bedLength, bedWidth, maxThickness, materials, feedMin, feedMax, sawRate, wearRate, patient⟩, p)

/-- QUERY: selector, then the fields of Table 11-5. -/
def parseQuery (h : Header) (p : List Byte) : Option Instr := do
  let (sel, p) ← num 1 p
  match sel with
  | 1 => do
    let (form, p) ← num 1 p
    let (slab, p) ← num 4 p
    match form with
    | 0 => done (.querySlabRecord h slab) p
    | 1 => done (.querySlabDefects h slab) p
    | 2 => done (.querySlabNext h slab) p
    | _ => none
  | 2 => do
    let (form, p) ← num 1 p
    let (slab, p) ← num 4 p
    match form with
    | 0 => do
      let (index, p) ← num 1 p
      done (.queryPlacementEntry h slab index) p
    | 1 => done (.queryPlacementSlab h slab) p
    | _ => none
  | 3 => do
    let (form, p) ← num 1 p
    let (job, p) ← num 4 p
    match form with
    | 0 => done (.queryJobRecord h job) p
    | 1 => done (.queryJobNext h job) p
    | _ => none
  | 4 => do
    let (position, p) ← num 1 p
    done (.queryBill h position) p
  | 5 => do
    let (form, p) ← num 1 p
    let (address, p) ← num 1 p
    match form with
    | 0 => done (.queryStationEntry h address) p
    | 1 => done (.queryStationNext h address) p
    | _ => none
  | 6 => do
    let (code, p) ← num 1 p
    done (.queryRule h code) p
  | 7 => done (.queryWater h) p
  | 8 => do
    let (rule, p) ← num 1 p
    done (.queryExcursion h rule) p
  | 9 => done (.queryFault h) p
  | 10 => done (.queryShop h) p
  | 11 => done (.queryCapability h) p
  | _ => none

/-- LOAD STATION after its address and class bytes. -/
def parseLoadStation (h : Header) (address cls : Nat) (p : List Byte) : Option Instr :=
  if cls = 7 then done (.loadStationNone h address) p
  else do
    let (side, p) ← num 1 p
    let (tier, p) ← num 1 p
    if isSawCode cls then do
      let (f, p) ← sawFieldsOf p
      done (.loadStation h address cls side tier (some f)) p
    else done (.loadStation h address cls side tier none) p

/-- LOAD: item code, then the fields of Table 11-4. -/
def parseLoad (h : Header) (p : List Byte) : Option Instr := do
  let (item, p) ← num 1 p
  match item with
  | 1 => do
    let (address, p) ← num 1 p
    let (cls, p) ← num 1 p
    parseLoadStation h address cls p
  | 2 => do
    let (code, p) ← num 1 p
    let (disposition, p) ← num 1 p
    let (tier, p) ← num 1 p
    let (classSet, p) ← num 1 p
    done (.loadRule h code disposition tier classSet) p
  | 3 => do
    let (enables, p) ← num 1 p
    done (.loadGroup h enables) p
  | 4 => do
    let (kerf, p) ← num 1 p
    let (margin, p) ← num 1 p
    let (remnantMin, p) ← num 2 p
    let (conserveFeed, p) ← num 2 p
    done (.loadConstants h kerf margin remnantMin conserveFeed) p
  | 5 => do
    let (recycled, p) ← num 2 p
    let (fresh, p) ← num 2 p
    done (.loadRates h recycled fresh) p
  | 6 => do
    let (number, p) ← num 1 p
    let (enabled, p) ← num 1 p
    let (channel, p) ← num 1 p
    let (direction, p) ← num 1 p
    let (trip, p) ← num 2 p
    let (release, p) ← num 2 p
    let (confirm, p) ← num 1 p
    let (action, p) ← num 1 p
    done (.loadWaterRule h number enabled channel direction trip release confirm action) p
  | 7 => do
    let (length, p) ← num 1 p
    done (.loadShareWindow h length) p
  | 8 => do
    let (allowance, p) ← num 4 p
    done (.loadAllowance h allowance) p
  | 9 => do
    let (station, p) ← num 1 p
    let (mask, p) ← num 1 p
    let (enables, p) ← num 1 p
    done (.loadNotices h station mask enables) p
  | _ => none

/-- SLAB EDIT: slab id, sub-request, and the fields of the sub-request. -/
def parseSlabEdit (h : Header) (p : List Byte) : Option Instr := do
  let (slab, p) ← num 4 p
  let (sub, p) ← num 1 p
  match sub with
  | 0 => do
    let (reason, p) ← num 1 p
    done (.slabEditLock h slab reason) p
  | 1 => done (.slabEditUnlock h slab) p
  | 2 => do
    let (value, p) ← num 4 p
    done (.slabEditSetBasis h slab value) p
  | 3 => do
    let (defect, p) ← rectOf p
    done (.slabEditAddDefect h slab defect) p
  | _ => none

def parseSlabEnter (h : Header) (p : List Byte) : Option Instr := do
  let (slab, p) ← num 4 p
  let (material, p) ← num 2 p
  let (thickness, p) ← num 1 p
  let (length, p) ← num 2 p
  let (width, p) ← num 2 p
  let (basis, p) ← num 4 p
  let (n, p) ← num 1 p
  let (defects, p) ← rectsOf n p
  done (.slabEnter h slab material thickness length width basis defects) p

def parseSlabDone (h : Header) (p : List Byte) : Option Instr := do
  let (slab, p) ← num 4 p
  let (ending, p) ← num 1 p
  match ending with
  | 0 => done (.slabDoneFinished h slab) p
  | 1 => done (.slabDoneScrap h slab) p
  | _ => none

def parsePlace (h : Header) (p : List Byte) : Option Instr := do
  let (slab, p) ← num 4 p
  let (kind, p) ← num 1 p
  let (rect, p) ← rectOf p
  let (job, p) ← num 4 p
  let (parentPresent, p) ← num 1 p
  let (parentIndex, p) ← num 1 p
  let (remnantSlab, p) ← num 4 p
  done (.place h slab kind rect job parentPresent parentIndex remnantSlab) p

/-- A slab id and a placement index, the payload of four kinds. -/
def parseSlabIndex (make : Nat → Nat → Instr) (p : List Byte) : Option Instr := do
  let (slab, p) ← num 4 p
  let (index, p) ← num 1 p
  done (make slab index) p

def parseOrder (h : Header) (p : List Byte) : Option Instr := do
  let (job, p) ← num 4 p
  let (slab, p) ← num 4 p
  let (index, p) ← num 1 p
  let (feed, p) ← num 2 p
  done (.order h job slab index feed) p

def parseId (make : Nat → Instr) (p : List Byte) : Option Instr := do
  let (id, p) ← num 4 p
  done (make id) p

/-- TAKE BILL: presence byte, job id "sent as 0 when the presence is 00H" and then not read. -/
def parseTakeBill (h : Header) (p : List Byte) : Option Instr := do
  let (present, p) ← num 1 p
  let (job, p) ← num 4 p
  match present with
  | 0 => done (.takeBill h none) p
  | 1 => done (.takeBill h (some job)) p
  | _ => none

def parseJobLimit (h : Header) (p : List Byte) : Option Instr := do
  let (job, p) ← num 4 p
  let (limit, p) ← num 6 p
  let (hold, p) ← num 1 p
  done (.jobLimit h job (if limit = 0 then none else some limit) hold) p

def parseSawStatus (h : Header) (p : List Byte) : Option Instr := do
  let (ready, p) ← num 1 p
  let (wear, p) ← num 1 p
  let (vibration, p) ← num 1 p
  let (changed, p) ← num 1 p
  let (kerf, p) ← num 1 p
  let (delta, p) ← num 2 p
  done (.sawStatus h ready wear vibration changed kerf delta) p

def parseCutReport (h : Header) (p : List Byte) : Option Instr := do
  let (slab, p) ← num 4 p
  let (index, p) ← num 1 p
  let (outcome, p) ← num 1 p
  let (bladeSeconds, p) ← num 2 p
  done (.cutReport h slab index outcome bladeSeconds) p

def parseScan (h : Header) (p : List Byte) : Option Instr := do
  let (slab, p) ← num 4 p
  let (event, p) ← num 1 p
  let (rack, p) ← num 1 p
  let (slot, p) ← num 1 p
  let (saw, p) ← num 1 p
  match event with
  | 0 => done (.scanRacked h slab rack slot saw) p
  | 1 => done (.scanStaged h slab rack slot saw) p
  | 2 => done (.scanUnstaged h slab rack slot saw) p
  | 3 => done (.scanGone h slab rack slot saw) p
  | _ => none

def parseWaterSample (h : Header) (p : List Byte) : Option Instr := do
  let (sequence, p) ← num 1 p
  let (level, p) ← num 2 p
  let (turbidity, p) ← num 2 p
  let (recycled, p) ← num 2 p
  let (fresh, p) ← num 2 p
  done (.waterSample h sequence level turbidity recycled fresh) p

/-- ANNOUNCE: class, presence of current work, and the work when present. -/
def parseAnnounce (h : Header) (p : List Byte) : Option Instr := do
  let (cls, p) ← num 1 p
  let (present, p) ← num 1 p
  match present with
  | 0 => done (.announce h cls none) p
  | 1 => do
    let (slab, p) ← num 4 p
    let (index, p) ← num 1 p
    done (.announce h cls (some (slab, index))) p
  | _ => none

/-- The row a telegram of a kind reaches by its payload, or none where the payload's length or codes fit no row:
such a telegram is refused with FORM by the block that owns its kind (R167, R168). -/
def parsePayload (h : Header) (kind : Nat) (p : List Byte) : Option Instr :=
  if kind = Kind.announce then parseAnnounce h p
  else if kind = Kind.query then parseQuery h p
  else if kind = Kind.load then parseLoad h p
  else if kind = Kind.clearFault then done (.clearFault h) p
  else if kind = Kind.releaseLine then done (.releaseLine h) p
  else if kind = Kind.lineReset then done (.lineReset h) p
  else if kind = Kind.renewAllowance then done (.renewAllowance h) p
  else if kind = Kind.slabEnter then parseSlabEnter h p
  else if kind = Kind.slabEdit then parseSlabEdit h p
  else if kind = Kind.slabRetire then parseId (.slabRetire h) p
  else if kind = Kind.slabDone then parseSlabDone h p
  else if kind = Kind.place then parsePlace h p
  else if kind = Kind.unplace then parseSlabIndex (.unplace h) p
  else if kind = Kind.order then parseOrder h p
  else if kind = Kind.withdraw then parseSlabIndex (.withdraw h) p
  else if kind = Kind.jobOpen then parseId (.jobOpen h) p
  else if kind = Kind.jobClose then parseId (.jobClose h) p
  else if kind = Kind.takeBill then parseTakeBill h p
  else if kind = Kind.jobLimit then parseJobLimit h p
  else if kind = Kind.sawStatus then parseSawStatus h p
  else if kind = Kind.orderAck then parseSlabIndex (.orderAck h) p
  else if kind = Kind.orderDecline then parseSlabIndex (.orderDecline h) p
  else if kind = Kind.cutReport then parseCutReport h p
  else if kind = Kind.scan then parseScan h p
  else if kind = Kind.waterSample then parseWaterSample h p
  else none

/-- The command a table word spells: none, for spec/opcode_table.json gives no row any bits. -/
def decodeTableWord (_nbits _w : Nat) : Option Instr := none

end Sys2Proof
end

