-- ==== Sys2Proof/Machine/Operands.lean ====
section
/-! DEFINITION. The byte forms of the controller's own telegrams and of enumerations (R156, R162, R167, R168): codes of
every enumeration in both directions, the items of ANSWER contents, REJECT details, NOTICEs, VALVEs and delivered
ORDERs. How items without a stated size or code are sent is said in log entries 3, 4 and 8 (DESIGN CHOICE) and 6 (DEDUCED). -/

namespace Sys2Proof.Machine

open Sys2Proof Config

/-! ## Enumeration codes (R168) -/

def sideCode : Side → Nat
  | .a => 0
  | .b => 1

def decodeSide : Nat → Option Side
  | 0 => some .a
  | 1 => some .b
  | _ => none

def classCode : StationClass → Nat
  | .planning => 0
  | .supervisor => 1
  | .panel => 2
  | .bridgeSaw => 3
  | .waterjet => 4
  | .recycler => 5
  | .scanner => 6

def decodeClass : Nat → Option StationClass
  | 0 => some .planning
  | 1 => some .supervisor
  | 2 => some .panel
  | 3 => some .bridgeSaw
  | 4 => some .waterjet
  | 5 => some .recycler
  | 6 => some .scanner
  | _ => none

def kindCode : PlacementKind → Nat
  | .piece => 0
  | .mitre => 1
  | .cutout => 2
  | .remnant => 3

def decodeKind : Nat → Option PlacementKind
  | 0 => some .piece
  | 1 => some .mitre
  | 2 => some .cutout
  | 3 => some .remnant
  | _ => none

def lockCode : LockReason → Nat
  | .hold => 0
  | .inspect => 1

def decodeLock : Nat → Option LockReason
  | 0 => some .hold
  | 1 => some .inspect
  | _ => none

def dispositionCode : Disposition → Nat
  | .forward => 0
  | .handle => 1
  | .handleForward => 2
  | .drop => 3

def decodeDisposition : Nat → Option Disposition
  | 0 => some .forward
  | 1 => some .handle
  | 2 => some .handleForward
  | 3 => some .drop
  | _ => none

def channelCode : Channel → Nat
  | .level => 0
  | .turbidity => 1

def decodeChannel : Nat → Option Channel
  | 0 => some .level
  | 1 => some .turbidity
  | _ => none

def directionCode : Direction → Nat
  | .below => 0
  | .atOrAbove => 1

def decodeDirection : Nat → Option Direction
  | 0 => some .below
  | 1 => some .atOrAbove
  | _ => none

def actionCode : RuleAction → Nat
  | .notice => 0
  | .conserve => 1
  | .halt => 2

def decodeAction : Nat → Option RuleAction
  | 0 => some .notice
  | 1 => some .conserve
  | 2 => some .halt
  | _ => none

/-- A flag byte: 00H clear, 01H set, any other a FORM error (R156). -/
def decodeFlag : Nat → Option Bool
  | 0 => some false
  | 1 => some true
  | _ => none

/-- The outcome of a cut (Table 5-3). -/
inductive Outcome3 where
  | done | abandoned | broke
  deriving DecidableEq, Repr

def decodeOutcome : Nat → Option Outcome3
  | 0 => some .done
  | 1 => some .abandoned
  | 2 => some .broke
  | _ => none

def outcomeCode : Outcome3 → Nat
  | .done => 0
  | .abandoned => 1
  | .broke => 2

def slabStateCode : SlabState → Nat
  | .reserved => 0
  | .received => 1
  | .racked => 2
  | .staged => 3
  | .spent => 4
  | .broken => 5
  | .scrapped => 6

def placementStateCode : PlacementState → Nat
  | .planned => 0
  | .ordered => 1
  | .cut => 2

def orderStateCode : OrderState → Nat
  | .waiting => 0
  | .delivered => 1
  | .running => 2
  | .inDoubt => 3

def stationStateCode : StationState → Nat
  | .absent => 0
  | .attached => 1
  | .silent => 2

def bladeCode : Blade → Nat
  | .unknown => 0
  | .good => 1
  | .weak => 2
  | .worn => 3

def jobStateCode : JobState → Nat
  | .opened => 0
  | .closing => 1
  | .closed => 2

def lineCode : LineState → Nat
  | .run => 0
  | .held => 1

def modeCode : WaterMode → Nat
  | .unsure => 0
  | .normal => 1
  | .conserve => 2
  | .halt => 3

def reportCode : ResetReport → Nat
  | .withoutKeep => 0
  | .withKeep => 1
  | .keepRefused => 2

/-- The fault class as a bit of the fault notice mask and as a byte (R167, R168). -/
def faultClassCode : FaultCode → Nat
  | .linkCheck => 0
  | .linkForm => 0
  | .linkUnknownKind => 0
  | .linkOverrun => 0
  | .stationUnknownSource => 1
  | .stationMismatch => 1
  | .stationSilence => 1
  | .stationStrayReport => 1
  | .deliveryNoAnswer => 2
  | .stockUnknownSlab => 3
  | .stockBedConflict => 3
  | .stockBroken => 3
  | .waterSampleGap => 4
  | .costSaturated => 5

/-- The code within the class, from 00H in the order of Table 10-1 (R168). -/
def faultCodeCode : FaultCode → Nat
  | .linkCheck => 0
  | .linkForm => 1
  | .linkUnknownKind => 2
  | .linkOverrun => 3
  | .stationUnknownSource => 0
  | .stationMismatch => 1
  | .stationSilence => 2
  | .stationStrayReport => 3
  | .deliveryNoAnswer => 0
  | .stockUnknownSlab => 0
  | .stockBedConflict => 1
  | .stockBroken => 2
  | .waterSampleGap => 0
  | .costSaturated => 0

/-- The class under which a fault's notice is masked (Table 10-1): the recycler's silence goes under WATER (R49). -/
def noticeClass (r : FaultRecord) : Nat :=
  if r.code = .stationSilence ∧ r.detail = some .plantSilent then 4 else faultClassCode r.code

/-- The seven event notices as bits of the event enables (Table 10-2 order, R167); none for FAULT. -/
def noticeBit : Notice → Option Nat
  | .fault _ _ _ => none
  | .waterMode _ _ _ _ => some 0
  | .overQuote _ _ _ _ => some 1
  | .billReady _ _ => some 2
  | .declined _ _ _ _ _ _ _ => some 3
  | .orderReturned _ _ _ _ _ _ => some 4
  | .placementDropped _ _ _ _ => some 5
  | .slabSettled _ _ _ _ _ _ _ => some 6

/-- Reject reasons (Table 11-3). -/
inductive Reason where
  | tier | cls | groupOff | form | noSlab | slabState | slabLocked | duplicate | tableFull | poolFull | slabFull
  | geometry | overlap | defect | defectConflict | tooSmall | generation | noParent | border | noJob | jobState
  | wrongJob | placementState | cutoutsFirst | notSaw | stationState | capability | bedSize | material | kerf
  | bladeWorn | stagedElsewhere | splitSlab | waterHalt | waterConserve | quote | queueFull | inFlight
  | basisFixed | nothingCut | inUse | bedBusy | unknownSlab | mismatch | loosen | classSide | empty
  deriving DecidableEq, Repr

def reasonCode : Reason → Nat
  | .tier => 0x01
  | .cls => 0x02
  | .groupOff => 0x03
  | .form => 0x04
  | .noSlab => 0x05
  | .slabState => 0x06
  | .slabLocked => 0x07
  | .duplicate => 0x08
  | .tableFull => 0x09
  | .poolFull => 0x0A
  | .slabFull => 0x0B
  | .geometry => 0x0C
  | .overlap => 0x0D
  | .defect => 0x0E
  | .defectConflict => 0x0F
  | .tooSmall => 0x10
  | .generation => 0x11
  | .noParent => 0x12
  | .border => 0x13
  | .noJob => 0x14
  | .jobState => 0x15
  | .wrongJob => 0x16
  | .placementState => 0x17
  | .cutoutsFirst => 0x18
  | .notSaw => 0x19
  | .stationState => 0x1A
  | .capability => 0x1B
  | .bedSize => 0x1C
  | .material => 0x1D
  | .kerf => 0x1E
  | .bladeWorn => 0x1F
  | .stagedElsewhere => 0x20
  | .splitSlab => 0x21
  | .waterHalt => 0x22
  | .waterConserve => 0x23
  | .quote => 0x24
  | .queueFull => 0x25
  | .inFlight => 0x26
  | .basisFixed => 0x27
  | .nothingCut => 0x28
  | .inUse => 0x29
  | .bedBusy => 0x2A
  | .unknownSlab => 0x2B
  | .mismatch => 0x2C
  | .loosen => 0x2D
  | .classSide => 0x2E
  | .empty => 0x2F

/-! ## Items -/

def u8 (n : Nat) : List Byte := be 1 n
def u16 (n : Nat) : List Byte := be 2 n
def u32 (n : Nat) : List Byte := be 4 n
def u48 (n : Nat) : List Byte := be 6 n
/-- An amount of cents or of tenths: eight bytes (R168), its low 64 bits (DESIGN CHOICE, log entry 44). -/
def amount (n : Nat) : List Byte := be 8 n
def flag (b : Bool) : List Byte := if b then [1#8] else [0#8]
/-- A count: one byte (R168); above 255 a free byte (DESIGN CHOICE, log entry 4). -/
def count (n : Nat) : List Byte := if n ≤ 255 then be 1 n else [wideCount n]
def code (c : Uncoded) : List Byte := [uncoded c]
/-- An item that may be absent, in an ANSWER or REJECT: presence byte, then the item (R156, R168). -/
def opt {α : Type} (f : α → List Byte) : Option α → List Byte
  | none => [0#8]
  | some x => 1#8 :: f x
/-- An optional id outside ANSWER and REJECT: 0 when absent (R156). -/
def optId (o : Option Nat) : List Byte := u32 (o.getD 0)

/-- The four group enables as a byte, bits 0 to 3 (R167). -/
def groupByte (g : Groups) : Nat :=
  (if g.remnant then 1 else 0) + (if g.mitre then 2 else 0) + (if g.cutout then 4 else 0) + (if g.quote then 8 else 0)

def groupCode : Group → Uncoded
  | .base => .groupBase
  | .remnant => .groupRemnant
  | .mitre => .groupMitre
  | .cutout => .groupCutout
  | .quote => .groupQuote

def accumulatorCode : Accumulator → Uncoded
  | .material => .satMaterial
  | .saw => .satSaw
  | .wear => .satWear
  | .water => .satWater
  | .recycled => .satRecycled
  | .fresh => .satFresh
  | .bladeSeconds => .satBladeSeconds

def causeCode : ModeCause → Uncoded
  | .sample => .causeSample
  | .ruleLoad => .causeRuleLoad
  | .allowance => .causeAllowance
  | .renew => .causeRenew
  | .plantLost => .causePlantLost
  | .lineReset => .causeLineReset

def returnCode : ReturnCause → Uncoded
  | .noAnswer => .returnedNoAnswer
  | .brk => .returnedBreak

def ruleStateCode : RuleState → Nat
  | .clear => 0
  | .tripping _ => 1
  | .active => 2
  | .releasing _ => 3

def ruleStateCount : RuleState → Option Nat
  | .clear => none
  | .tripping n => some n
  | .active => none
  | .releasing n => some n

/-- A rule state: its code, and n "in a byte of its own" where it has one (R168). -/
def ruleStateBytes (r : RuleState) : List Byte := u8 (ruleStateCode r) ++ opt u8 (ruleStateCount r)

/-- A fault's detail (Table 10-1). -/
def detailBytes : FaultDetail → List Byte
  | .side s => u8 (sideCode s)
  | .classAndSide c s => u8 (classCode c) ++ u8 (sideCode s)
  | .plantSilent => code .plantSilent
  | .placement i => u8 i
  | .placementAndNumber i n => u8 i ++ u32 n
  | .scanEvent e => u8 e
  | .bedConflict saw displaced => u8 saw ++ code (if displaced then .conflictDisplaced else .conflictRefused)
  | .sampleGap e r => u8 e ++ u8 r
  | .accumulator a => code (accumulatorCode a)

/-- A fault record's fields in the order of section 10.1, as an ANSWER carries them. -/
def faultAnswerBytes (r : FaultRecord) : List Byte :=
  u8 (faultClassCode r.code) ++ u8 (faultCodeCode r.code) ++ u8 r.station ++ opt u8 r.kind ++ opt u32 r.slab
    ++ opt u32 r.job ++ opt detailBytes r.detail

/-- A fault occurrence as a FAULT notice carries it: absent ids as 0 (R156). -/
def faultNoticeBytes (r : FaultRecord) : List Byte :=
  u8 (faultClassCode r.code) ++ u8 (faultCodeCode r.code) ++ u8 r.station ++ opt u8 r.kind ++ optId r.slab
    ++ optId r.job ++ opt detailBytes r.detail

/-- The notice type: FAULT 00H, then the order of Table 10-2 from 01H (R168). -/
def noticeType (n : Notice) : Nat :=
  match noticeBit n with
  | none => 0
  | some b => b + 1

/-- The content of a notice beyond its type and number (R152, Table 10-3). The rules of a WATER_MODE stand in rule number
order (DEDUCED, log entry 53). -/
def noticeBytes : Notice → List Byte
  | .fault r filled n => faultNoticeBytes r ++ flag filled ++ count n
  | .waterMode before after cause moved =>
      u8 (modeCode before) ++ u8 (modeCode after) ++ code (causeCode cause)
        ++ moved.flatMap (fun m => u8 m.1 ++ code (if m.2 then .excursionBegan else .excursionEnded))
  | .overQuote job limit sum hold => u32 job ++ u48 limit ++ amount sum ++ flag hold
  | .billReady job number => u32 job ++ u32 number
  | .declined saw slab index number job recycled fresh =>
      u8 saw ++ u32 slab ++ u8 index ++ u32 number ++ optId job ++ amount recycled ++ amount fresh
  | .orderReturned saw slab index number job cause =>
      u8 saw ++ u32 slab ++ u8 index ++ u32 number ++ optId job ++ code (returnCode cause)
  | .placementDropped slab index job cutouts => u32 slab ++ u8 index ++ optId job ++ count cutouts
  | .slabSettled slab ending basis residue participants remnants removed =>
      u32 slab ++ u8 (slabStateCode ending) ++ u32 basis ++ amount residue ++ opt count participants
        ++ count remnants ++ count removed

/-! ## The controller's own telegrams -/

/-- A NOTICE with its type and counter first (R151, R167). -/
def noticeTelegram (own dst counter : Nat) (n : Notice) : Telegram :=
  ⟨dst, own, Kind.notice, 0, u8 (noticeType n) ++ u8 counter ++ noticeBytes n⟩

/-- A VALVE (R101, R167). -/
def valveTelegram (own dst : Nat) (mode : WaterMode) : Telegram :=
  ⟨dst, own, Kind.valve, 0, u8 (modeCode mode)⟩

/-- A delivered ORDER (Table 5-2, R168): the tag is the admission number modulo 256. -/
def orderTelegram (own saw : Nat) (o : CutOrder) (r : Rect) (kerf feed : Nat) : Telegram :=
  ⟨saw, own, Kind.order, o.number % 256,
   u32 o.slab ++ u8 o.index ++ u8 (kindCode o.kind) ++ r.bytes ++ u8 kerf ++ u16 feed⟩

/-- The content of an ANSWER cut into parts of at most 46 bytes (R162): every part but the last is full (DESIGN CHOICE,
log entry 51). -/
def answerParts (content : List Byte) : List (List Byte) :=
  (List.range (max 1 ((content.length + (answerBytes - 1)) / answerBytes))).map
    (fun i => (content.drop (answerBytes * i)).take answerBytes)

/-- The ANSWER telegrams of given parts, in part order: kind code, part number and part count, content (R162). -/
def partTelegrams (own dst kind tag : Nat) (parts : List (List Byte)) : List Telegram :=
  parts.zipIdx.map (fun p => ⟨dst, own, Kind.answer, tag, u8 kind ++ u8 ((p.2 + 1) * 16 + parts.length) ++ p.1⟩)

/-- The ANSWER telegrams to a request whose content is cut where 46 bytes are full. -/
def answerTelegrams (own dst kind tag : Nat) (content : List Byte) : List Telegram :=
  partTelegrams own dst kind tag (answerParts content)

/-- A REJECT (R162). -/
def rejectTelegram (own dst kind tag : Nat) (r : Reason) (detail : List Byte) : Telegram :=
  ⟨dst, own, Kind.reject, tag, u8 kind ++ u8 (reasonCode r) ++ detail⟩

end Sys2Proof.Machine
end

