-- ==== Sys2Proof/Machine/Ops.lean ====
section
/-! DEFINITION. The named operations on the state: table reads and writes, faults and notices (Chapter 10), the
transmitters and replies (R155, R162), presentations (R74), timers (R48, R77), the water mode change (R100), and
the closing of a job (R141). Every command is built from these. -/

namespace Sys2Proof.Machine

open Sys2Proof Config

/-! ## Tables kept in rising order of a key -/

def insertBy {α : Type} (key : α → Nat) (x : α) : List α → List α
  | [] => [x]
  | y :: ys => if key x ≤ key y then x :: y :: ys else y :: insertBy key x ys

def findBy {α : Type} (key : α → Nat) (k : Nat) (l : List α) : Option α := l.find? (fun x => decide (key x = k))

def modifyBy {α : Type} (key : α → Nat) (k : Nat) (f : α → α) (l : List α) : List α :=
  l.map (fun x => if key x = k then f x else x)

def eraseBy {α : Type} (key : α → Nat) (k : Nat) (l : List α) : List α := l.filter (fun x => decide (key x ≠ k))

/-- The entry with the smallest key above k (the NEXT forms of QUERY). -/
def nextBy {α : Type} (key : α → Nat) (k : Nat) (l : List α) : Option α := l.find? (fun x => decide (k < key x))

/-- Addition that holds at a maximum (section 0.5). -/
def satAdd (max a b : Nat) : Nat := min max (a + b)

/-- Advance of a 32-bit counter, from 4,294,967,295 to 0 (R57, R141). -/
def advance32 (n : Nat) : Nat := (n + 1) % 4294967296

/-! ## Reading the tables -/

def State.slab? (s : State) (id : Nat) : Option Slab := findBy Slab.id id s.slabs
def State.station? (s : State) (a : Nat) : Option Station := findBy Station.address a s.stations
def State.saw? (s : State) (a : Nat) : Option Saw := (s.station? a).bind Station.saw
def State.job? (s : State) (id : Nat) : Option Job := findBy Job.id id s.jobs

/-- The place of a placement in the pool's order: by slab, then by index. -/
def Placement.key (p : Placement) : Nat := p.slab * 16 + p.index

def Placement.at (slab index : Nat) (p : Placement) : Bool := decide (p.slab = slab) && decide (p.index = index)

def State.placement? (s : State) (slab index : Nat) : Option Placement := s.placements.find? (Placement.at slab index)

/-- The placements of a slab in ascending index. -/
def State.placementsOf (s : State) (slab : Nat) : List Placement := s.placements.filter (fun p => decide (p.slab = slab))

/-- The cutouts of the PIECE or MITRE at an index: the CUTOUT placements whose parent index names it (R33). -/
def State.cutoutsOf (s : State) (slab index : Nat) : List Placement :=
  (s.placementsOf slab).filter (fun p => decide (p.kind = .cutout) && decide (p.parentIndex = some index))

/-- Every order record, saw by saw in address order, each queue oldest first. -/
def State.orders (s : State) : List CutOrder :=
  s.stations.flatMap (fun st => match st.saw with | none => [] | some w => w.queue)

/-- An order is named by its slab id and placement index (section 4.2). -/
def CutOrder.names (slab index : Nat) (o : CutOrder) : Bool := decide (o.slab = slab) && decide (o.index = index)

def State.order? (s : State) (slab index : Nat) : Option CutOrder := s.orders.find? (CutOrder.names slab index)

/-- The slab has an order that is DELIVERED, RUNNING or IN_DOUBT (section 1.2). -/
def State.hasActiveOrder (s : State) (slab : Nat) : Bool :=
  s.orders.any (fun o => decide (o.slab = slab) && o.state.isActive)

/-- A saw's active order (Chapter 5). -/
def Saw.active (w : Saw) : Option CutOrder := w.queue.find? (fun o => o.state.isActive)

def State.kindRule? (s : State) (c : Nat) : Option KindRule := (s.kindRules[c]?).join

def Groups.on (g : Groups) : Group → Bool
  | .base => true
  | .remnant => g.remnant
  | .mitre => g.mitre
  | .cutout => g.cutout
  | .quote => g.quote

/-- The capability group of a placement kind (R25 check 1). -/
def kindGroup : PlacementKind → Group
  | .piece => .base
  | .mitre => .mitre
  | .cutout => .cutout
  | .remnant => .remnant

def State.recycler? (s : State) : Option Station := s.stations.find? (fun st => decide (st.cls = .recycler))

def State.hasSupervisor (s : State) : Bool := s.stations.any (fun st => decide (st.cls = .supervisor))

/-- The addresses of the saw-class entries, ascending. -/
def State.sawAddresses (s : State) : List Nat :=
  (s.stations.filter (fun st => st.saw.isSome)).map Station.address

/-! ## Writing the tables -/

def State.addSlab (x : Slab) (s : State) : State := { s with slabs := insertBy Slab.id x s.slabs }
def State.modifySlab (id : Nat) (f : Slab → Slab) (s : State) : State := { s with slabs := modifyBy Slab.id id f s.slabs }
def State.freeSlab (id : Nat) (s : State) : State := { s with slabs := eraseBy Slab.id id s.slabs }

def State.addPlacement (p : Placement) (s : State) : State := { s with placements := insertBy Placement.key p s.placements }
def State.modifyPlacement (slab index : Nat) (f : Placement → Placement) (s : State) : State :=
  { s with placements := s.placements.map (fun p => if Placement.at slab index p then f p else p) }
def State.freePlacement (slab index : Nat) (s : State) : State :=
  { s with placements := s.placements.filter (fun p => !Placement.at slab index p) }

def State.addStation (x : Station) (s : State) : State := { s with stations := insertBy Station.address x s.stations }
def State.modifyStation (a : Nat) (f : Station → Station) (s : State) : State :=
  { s with stations := modifyBy Station.address a f s.stations }
def State.freeStation (a : Nat) (s : State) : State := { s with stations := eraseBy Station.address a s.stations }

def Station.mapSaw (f : Saw → Saw) (st : Station) : Station := { st with saw := st.saw.map f }

/-- Changes the saw part of the entry at an address; an entry without one keeps none. -/
def State.modifySaw (a : Nat) (f : Saw → Saw) (s : State) : State := s.modifyStation a (Station.mapSaw f)

def State.addJob (x : Job) (s : State) : State := { s with jobs := insertBy Job.id x s.jobs }
def State.modifyJob (id : Nat) (f : Job → Job) (s : State) : State := { s with jobs := modifyBy Job.id id f s.jobs }
def State.freeJob (id : Nat) (s : State) : State := { s with jobs := eraseBy Job.id id s.jobs }

/-- Changes an order in place on its saw's queue (R58). -/
def State.modifyOrder (saw slab index : Nat) (f : CutOrder → CutOrder) (s : State) : State :=
  s.modifySaw saw (fun w => { w with queue := w.queue.map (fun o => if CutOrder.names slab index o then f o else o) })

/-! ## Transmitters (R155) -/

def Side.opposite : Side → Side
  | .a => .b
  | .b => .a

def State.tx (s : State) : Side → Transmitter
  | .a => s.txA
  | .b => s.txB

def State.setTx (s : State) (side : Side) (t : Transmitter) : State :=
  match side with
  | .a => { s with txA := t }
  | .b => { s with txB := t }

/-- A telegram goes out at once on an idle segment, waits behind at most 63 others, or finds no place. -/
def Transmitter.push (x : Transmitter) (t : Telegram) : Option Transmitter :=
  match x.sending with
  | none => some { x with sending := some t }
  | some _ => if x.waiting.length < maxWaiting then some { x with waiting := x.waiting ++ [t] } else none

/-! ## Faults and notices (Chapter 10) -/

/-- R146: an empty record takes the occurrence, a locked one sets the flag and counts. -/
def State.recordFault (r : FaultRecord) (s : State) : State :=
  match s.faults.record with
  | none => { s with faults := { s.faults with record := some r } }
  | some _ => { s with faults := { s.faults with moreFaults := true, count := min 255 (s.faults.count + 1) } }

/-- Offers a telegram of the event in hand, to leave after its reply. -/
def State.queueOut (o : Outgoing) (s : State) : State := { s with outbox := s.outbox ++ [o] }

def State.notify (n : Notice) (s : State) : State := s.queueOut (.notice n)

/-- R146, R152: records an occurrence and offers its FAULT notice. -/
def State.raise (r : FaultRecord) (s : State) : State :=
  let filled := s.faults.record.isNone
  let s := s.recordFault r
  s.notify (.fault r filled s.faults.count)

/-- The fault of a telegram discarded for want of a place (R155). -/
def overrunFault (side : Side) (t : Telegram) : FaultRecord :=
  ⟨.linkOverrun, t.dst, some t.kind, none, none, some (.side side)⟩

/-- A telegram is produced on a segment (R155). The discard of a NOTICE is recorded and not sent as a notice (R152). -/
def State.produce (side : Side) (t : Telegram) (s : State) : State :=
  match (s.tx side).push t with
  | some x => s.setTx side x
  | none => if t.kind = Kind.notice then s.recordFault (overrunFault side t) else s.raise (overrunFault side t)

/-- R152, R153: the class or the notice is enabled. -/
def FaultBlock.enabled (f : FaultBlock) (n : Notice) : Bool :=
  match n with
  | .fault r _ _ => f.mask.getLsbD (noticeClass r)
  | .waterMode _ _ _ _ => f.enables.getLsbD 0
  | .overQuote _ _ _ _ => f.enables.getLsbD 1
  | .billReady _ _ => f.enables.getLsbD 2
  | .declined _ _ _ _ _ _ _ => f.enables.getLsbD 3
  | .orderReturned _ _ _ _ _ _ => f.enables.getLsbD 4
  | .placementDropped _ _ _ _ => f.enables.getLsbD 5
  | .slabSettled _ _ _ _ _ _ _ => f.enables.getLsbD 6

/-- R151: the notice counter advances, and the NOTICE goes out on the side of the notice station's entry. A notice
that is disabled, or has no station to go to, is not sent and does not advance the counter (DESIGN CHOICE, log entry 29).
One that R155 then discards, 64 telegrams waiting, has advanced it (DESIGN CHOICE, log entry 50). -/
def State.sendNotice (n : Notice) (s : State) : State :=
  if s.faults.station ≠ 0 ∧ s.faults.enabled n then
    match s.station? s.faults.station with
    | none => s
    | some st =>
      let c := (s.faults.counter + 1) % 256
      let s := { s with faults := { s.faults with counter := c } }
      s.produce st.side (noticeTelegram s.address st.address c n)
  else s

def State.sendOut (s : State) : Outgoing → State
  | .notice n => s.sendNotice n
  | .valve dst mode => s.produce .b (valveTelegram s.address dst mode)

/-- Sends what the outbox holds, in order. -/
def State.drain (s : State) : State := s.outbox.foldl State.sendOut { s with outbox := [] }

/-- Ends an event: the outbox is sent, and then the FAULT notices of VALVEs and replies discarded meanwhile (DESIGN CHOICE, log entry 39). -/
def State.flush (s : State) : State := s.drain.drain

/-! ## Replies (R162) -/

/-- What an owning block makes of a request: an ANSWER with its content, an ANSWER in parts its rule sets, or a REJECT
with reason and detail. -/
inductive Reply where
  | answer (content : List Byte)
  | parts (ps : List (List Byte))
  | reject (reason : Reason) (detail : List Byte)
  deriving DecidableEq, Repr

/-- An owning block's handling of a request: its reply, and the state after it. -/
abbrev Block := State → Reply × State

/-- Produces telegrams on one segment, in order. -/
def State.produceAll (side : Side) (ts : List Telegram) (s : State) : State := ts.foldl (fun s t => s.produce side t) s

/-- Sends a reply on the side its request arrived on, from the controller's address, with the request's tag. -/
def State.sendReply (h : Header) (kind : Nat) (r : Reply) (s : State) : State :=
  match r with
  | .answer content => s.produceAll h.side (answerTelegrams s.address h.src kind h.tag content)
  | .parts ps => s.produceAll h.side (partTelegrams s.address h.src kind h.tag ps)
  | .reject reason detail => s.produce h.side (rejectTelegram s.address h.src kind h.tag reason detail)

/-- Ends a request's event: the reply first, then what the event has caused (R151). -/
def conclude (h : Header) (kind : Nat) (r : Reply × State) : State := (r.2.sendReply h kind r.1).flush

/-- Refuses, leaving the state as it is. -/
def refuse (r : Reason) (s : State) : Reply × State := (.reject r [], s)

/-! ## Presentations and timers -/

/-- R74: presents a saw to delivery evaluation (DEDUCED, log entry 25). -/
def State.present (a : Nat) (s : State) : State := { s with presented := s.presented ++ [a] }

def State.presentAll (s : State) : State := { s with presented := s.presented ++ s.sawAddresses }

/-- R48: the silence timer of an ATTACHED station restarts at its full 10 seconds. -/
def State.restartSilence (a : Nat) (s : State) : State :=
  s.modifyStation a (fun st => if st.state = .attached then { st with silence := some silenceMs } else st)

/-- R49: a saw's own fields when it becomes SILENT, and R44 at a reset or LINE RESET. -/
def Saw.quiet (w : Saw) : Saw := { w with ready := false, blade := .unknown, kerf := none }

/-- R49, R80: a station becomes SILENT: its timer stops, and a saw's ready flag, blade and kerf go. -/
def Station.silenced (st : Station) : Station :=
  { st with state := .silent, silence := none, saw := st.saw.map Saw.quiet }

/-! ## Beds (R3) -/

/-- Clears the slab's bed on both sides. -/
def State.clearBed (slab : Nat) (s : State) : State :=
  match (s.slab? slab).bind Slab.bed with
  | none => s
  | some a => (s.modifySaw a (fun w => { w with bed := none })).modifySlab slab (fun x => { x with bed := none })

/-- Presents the saw a slab stands on, if any. -/
def State.presentBed (x : Slab) (s : State) : State :=
  match x.bed with
  | none => s
  | some a => s.present a

/-! ## Removals from the Plan Pool (R35) -/

/-- What a removal did: placements removed, cutouts among them, cutouts detached. -/
structure Removal where
  removed : Nat
  cutouts : Nat
  detached : Nat
  deriving DecidableEq, Repr

/-- One cutout of a removed parent: an ORDERED one is detached, a PLANNED or CUT one removed (R35). -/
def State.dropCutout (s : State) (c : Placement) : State :=
  if c.state = .ordered then s.modifyPlacement c.slab c.index (fun p => { p with parentIndex := none })
  else s.freePlacement c.slab c.index

/-- Removes a PIECE or MITRE together with its cutouts (R35). -/
def State.removePiece (slab index : Nat) (s : State) : Removal × State :=
  let cs := s.cutoutsOf slab index
  let kept := cs.countP (fun c => decide (c.state = .ordered))
  (⟨1 + (cs.length - kept), cs.length - kept, kept⟩, (cs.foldl State.dropCutout s).freePlacement slab index)

/-- The pieces, cutouts and detachments of two removals together. -/
def Removal.plus (a b : Removal) : Removal := ⟨a.removed + b.removed, a.cutouts + b.cutouts, a.detached + b.detached⟩

/-- Removes a placement by its kind: a PIECE or MITRE with its cutouts, a CUTOUT alone, a REMNANT with its RESERVED
record (R31, R34, R124). -/
def State.removePlacement (p : Placement) (s : State) : Removal × State :=
  match p.kind with
  | .piece => s.removePiece p.slab p.index
  | .mitre => s.removePiece p.slab p.index
  | .cutout => (⟨1, 0, 0⟩, s.freePlacement p.slab p.index)
  | .remnant =>
    match p.remnantSlab with
    | none => (⟨1, 0, 0⟩, s.freePlacement p.slab p.index)
    | some r => (⟨1, 0, 0⟩, (s.freePlacement p.slab p.index).freeSlab r)

/-- A placement whose order has ended without DONE: PLANNED again, or removed when it is a detached cutout (R36) (DEDUCED, log entry 31). -/
def State.returnPlacement (slab index : Nat) (s : State) : State :=
  match s.placement? slab index with
  | none => s
  | some p =>
    if p.kind = .cutout ∧ p.parentIndex = none then s.freePlacement slab index
    else s.modifyPlacement slab index (fun p => { p with state := .planned })

/-! ## Orders -/

/-- The saw's queue, last-delivered record and acknowledgement timer when an order leaves the queue (R56, R58): the
record is cleared when it names the order, the timer stops when the order was DELIVERED. -/
def Saw.removeOrder (o : CutOrder) (w : Saw) : Saw :=
  { w with
    queue := w.queue.filter (fun x => !CutOrder.names o.slab o.index x)
    lastDelivered := if w.lastDelivered = some (o.slab, o.index) then none else w.lastDelivered
    ackTimer := if o.state = .delivered then none else w.ackTimer }

/-- One order fewer for the job an order names (R135). -/
def State.dropOpenOrder (job : Option Nat) (s : State) : State :=
  match job with
  | none => s
  | some j => s.modifyJob j (fun x => { x with openOrders := x.openOrders - 1 })

/-- Removes an order from its saw's queue and lowers its job's open-order count (R56). -/
def State.removeOrder (saw : Nat) (o : CutOrder) (s : State) : State :=
  (s.modifySaw saw (Saw.removeOrder o)).dropOpenOrder o.job

/-! ## Closing jobs (R141) -/

/-- A job becomes CLOSED: it takes the next close number, joins the bill list and sends BILL_READY. -/
def State.closeJob (id : Nat) (s : State) : State :=
  let n := advance32 s.closeCounter
  (({ s with closeCounter := n, bills := s.bills ++ [id] }).modifyJob id
    (fun j => { j with state := .closed, closeNumber := some n })).notify (.billReady id n)

/-- Closes the job if it is CLOSING with both counts 0. -/
def State.closeIfReady (s : State) (id : Nat) : State :=
  match s.job? id with
  | none => s
  | some j => if readyToClose j then s.closeJob id else s

/-- Closes the job an order named, if it is ready. -/
def State.closeOf (job : Option Nat) (s : State) : State :=
  match job with
  | none => s
  | some j => s.closeIfReady j

/-- Closes every job that is ready, in ascending job id (DEDUCED, log entry 24). -/
def State.closeAllReady (s : State) : State := (s.jobs.map Job.id).foldl State.closeIfReady s

/-! ## The water mode (R98 to R101) -/

/-- A VALVE to the recycler, while it is ATTACHED (R101). -/
def State.queueValve (mode : WaterMode) (s : State) : State :=
  match s.recycler? with
  | none => s
  | some r => if r.state = .attached then s.queueOut (.valve r.address mode) else s

/-- R100: a change of mode sends VALVE to an ATTACHED recycler, the WATER_MODE notice, and presents every saw. -/
def State.changeMode (mode : WaterMode) (cause : ModeCause) (moved : List (Nat × Bool)) (s : State) : State :=
  ((({ s with water := { s.water with mode := mode } }).queueValve mode).notify
    (.waterMode s.water.mode mode cause moved)).presentAll

/-- Takes a mode: nothing when it is the mode already held. -/
def State.takeMode (mode : WaterMode) (cause : ModeCause) (moved : List (Nat × Bool)) (s : State) : State :=
  if s.water.mode = mode then s else s.changeMode mode cause moved

/-- R98, R99: the mode computed at a load or a renewal; an UNSURE mode stays. -/
def State.recomputeMode (cause : ModeCause) (moved : List (Nat × Bool)) (s : State) : State :=
  if s.water.mode = .unsure then s else s.takeMode (computedMode s.water) cause moved

/-- R106: the window is aborted; the share keeps its value. -/
def Water.abortWindow (w : Water) : Water := { w with windowCount := 0, windowRecycled := 0, windowFresh := 0 }

/-! ## The time base -/

/-- One millisecond passes: every running timer counts down, and holds at 0 until its expiry is taken. The manual
gives the timers in milliseconds of an internal time base and no command for its tick (DESIGN CHOICE, log entry 2). -/
def Saw.tick (w : Saw) : Saw := { w with ackTimer := w.ackTimer.map (· - 1) }
def Station.tick (st : Station) : Station := { st with silence := st.silence.map (· - 1), saw := st.saw.map Saw.tick }
def State.tick (s : State) : State := if s.inReset then s else { s with stations := s.stations.map Station.tick }

end Sys2Proof.Machine
end

