-- ==== Sys2Proof/Machine/Link.lean ====
section
/-! DEFINITION. The Link Bridge's taking of an arrival (R158 to R161): source, kind rule, disposition and forwarding,
around the owning block's handling. `runRow` is what every telegram row but ANNOUNCE is built from. -/

namespace Sys2Proof.Machine

open Sys2Proof Config

/-- The source byte can be no station's: 00H, 1FH or the controller's own address (R158). -/
def State.badSource (s : State) (src : Nat) : Bool :=
  decide (src = 0) || decide (src = 31) || decide (src = s.address)

/-- R43: the one telegram taken from an unknown source: while no SUPERVISOR entry exists, a LOAD STATION on side A to
the controller that loads class SUPERVISOR, side A, tier 0 at its own source address, and carries nothing else (DEDUCED,
log entry 47). -/
def State.isCommissioning (s : State) (side : Side) (t : Telegram) : Bool :=
  !s.hasSupervisor && decide (side = .a) && decide (t.dst = s.address) && decide (t.kind = Kind.load)
    && decide (t.payload = be 1 1 ++ be 1 t.src ++ be 1 1 ++ be 1 0 ++ be 1 0)

/-- R158: the class and tier a telegram is taken with, or none when it is discarded. -/
def State.source? (s : State) (side : Side) (t : Telegram) : Option (StationClass × Nat) :=
  if s.badSource t.src then none
  else match s.station? t.src with
    | some st => if st.side = side then some (st.cls, st.tier) else none
    | none => if s.isCommissioning side t then some (.supervisor, 0) else none

/-- What the kind rule and the disposition make of a telegram (R160, R161). -/
inductive Gate where
  /-- No rule: discarded with LINK/UNKNOWN_KIND. -/
  | unknownKind
  /-- A DROP rule. -/
  | dropped
  /-- A FORWARD telegram its own side has heard, or a request not addressed to the controller. -/
  | ignored
  | rejected (r : Reason)
  | forwarded
  /-- Passed to the owning block; `copy` when it is also re-sent on side A. -/
  | handled (copy : Bool)
  deriving DecidableEq, Repr

/-- The destination lies on the other side (R160 step 2, R161): a station entry there, or 1FH from side B. -/
def State.beyond (s : State) (side : Side) (dst : Nat) : Bool :=
  if dst = s.address then false
  else if dst = 31 then decide (side = .b)
  else match s.station? dst with
    | none => false
    | some st => decide (st.side ≠ side)

/-- Side-A requests: codes 02H to 13H other than ORDER (R161). -/
def isRequestKind (k : Nat) : Bool := decide (2 ≤ k) && decide (k ≤ 19) && decide (k ≠ Kind.order)

/-- R160 in its order, then R161 (DEDUCED, log entry 40). -/
def State.gate (s : State) (side : Side) (t : Telegram) (cls : StationClass) (tier : Nat) : Gate :=
  match s.kindRule? t.kind with
  | none => .unknownKind
  | some r =>
    if r.disposition = .drop then .dropped
    else if r.disposition = .forward ∧ s.beyond side t.dst = false then .ignored
    else if r.maxTier < tier then .rejected .tier
    else if r.classes.getLsbD (classCode cls) = false then .rejected .cls
    else if s.groups.on r.group = false then .rejected .groupOff
    else match r.disposition with
      | .forward => .forwarded
      | .drop => .dropped
      | .handle => if isRequestKind t.kind ∧ t.dst ≠ s.address then .ignored else .handled false
      | .handleForward => .handled (decide (side = .b))

/-- The fault of a discarded or unknown telegram: source and kind, with the side of arrival (Table 10-1). -/
def arrivalFault (c : FaultCode) (side : Side) (t : Telegram) : FaultRecord :=
  ⟨c, t.src, some t.kind, none, none, some (.side side)⟩

/-- R161: the telegram is re-sent unchanged on side A after its handling, where `copy` says so (DESIGN CHOICE, log entry 10). -/
def State.forwardCopy (copy : Bool) (t : Telegram) (s : State) : State := if copy then (s.produce .a t).flush else s

/-- Takes a telegram past its source by its gate; `handle` is the owning block's work, its reply included. -/
def State.passGate (g : Gate) (side : Side) (t : Telegram) (handle : State → State) (s : State) : State :=
  match g with
  | .unknownKind => (s.raise (arrivalFault .linkUnknownKind side t)).flush
  | .dropped => s
  | .ignored => s
  | .rejected r => conclude (t.header side) t.kind (refuse r s)
  | .forwarded => (s.produce (Side.opposite side) t).flush
  | .handled copy => (handle s).forwardCopy copy t

/-- R158 to R161 for every kind but ANNOUNCE. While RESET is asserted no arrival is taken (R170). -/
def State.arrive (side : Side) (t : Telegram) (handle : State → State) (s : State) : State :=
  if s.inReset then s
  else match s.source? side t with
    | none => (s.raise (arrivalFault .stationUnknownSource side t)).flush
    | some (cls, tier) =>
      let s := s.restartSilence t.src
      s.passGate (s.gate side t cls tier) side t handle

/-- R50: a floor report is taken only from an ATTACHED station. -/
def fromAttached (h : Header) (b : Block) : Block := fun s =>
  match s.station? h.src with
  | none => refuse .stationState s
  | some st => if st.state = .attached then b s else refuse .stationState s

/-- A telegram row other than ANNOUNCE: the Link Bridge's taking of it, around its block. -/
def runRow (i : Instr) (h : Header) (b : Block) (s : State) : State :=
  s.arrive h.side (i.telegram h) (fun s => conclude h i.kindCode (b s))

end Sys2Proof.Machine
end

