-- ==== Sys2Proof/Machine/Stock.lean ====
section
/-! DEFINITION. Slab Stock (Chapter 1): SLAB ENTER, the four SLAB EDIT sub-requests, the four scans and SLAB RETIRE. -/

namespace Sys2Proof.Machine

open Sys2Proof Config

def inRange (lo hi n : Nat) : Bool := decide (lo ≤ n) && decide (n ≤ hi)

/-- The lowest index of a slab, 0 to 11, whose placement satisfies a condition. -/
def State.lowest (s : State) (slab : Nat) (c : Placement → Bool) : Option Nat :=
  (List.range maxPerSlab).find? (fun i => match s.placement? slab i with | none => false | some p => c p)

/-! ## SLAB ENTER -/

/-- R4 check 1, with the ranges of Table 1-1. -/
def slabEnterForm (slab material thickness length width basis : Nat) (defects : List Rect) : Bool :=
  inRange 1 max32 slab && inRange 1 65535 material && inRange 10 50 thickness && inRange 600 4000 length
    && inRange 400 2200 width && decide (basis ≤ maxBasis) && decide (defects.length ≤ maxDefects)
    && defects.all (validDefect length width)

/-- The record SLAB ENTER creates (R4). -/
def enteredSlab (slab material thickness length width basis : Nat) (defects : List Rect) : Slab where
  id := slab
  material := material
  thickness := thickness
  length := length
  width := width
  defects := defects
  basis := basis
  allocated := 0
  state := .received
  rack := none
  bed := none
  lock := none
  parent := none
  generation := 0
  cutMark := false

/-- R4. -/
def slabEnter (slab material thickness length width basis : Nat) (defects : List Rect) : Block := fun s =>
  if slabEnterForm slab material thickness length width basis defects = false then refuse .form s
  else if (s.slab? slab).isSome then refuse .duplicate s
  else if maxSlabs ≤ s.slabs.length then refuse .tableFull s
  else
    let s := s.addSlab (enteredSlab slab material thickness length width basis defects)
    (.answer (u32 slab ++ count s.slabs.length), s)

/-- R4: SLAB ENTER. -/
def execSlabEnter (h : Header) (slab material thickness length width basis : Nat) (defects : List Rect)
    (s : State) : Host.Outcome State Fault Refusal :=
  .next (runRow (.slabEnter h slab material thickness length width basis defects) h
    (slabEnter slab material thickness length width basis defects) s)

/-! ## SLAB EDIT -/

/-- Section 1.4: no record is NO_SLAB, a RESERVED record SLAB_STATE. -/
def onEditable (slab : Nat) (b : Slab → Block) : Block := fun s =>
  match s.slab? slab with
  | none => refuse .noSlab s
  | some x => if x.state = .reserved then refuse .slabState s else b x s

/-- R6; a reason byte outside HOLD and INSPECT is a form error and is tested first (DESIGN CHOICE, log entry 11). -/
def slabLock (slab reason : Nat) : Block := fun s =>
  match decodeLock reason with
  | none => refuse .form s
  | some l => onEditable slab (fun x s =>
      if x.state.isStock = false then refuse .slabState s
      else (.answer (opt (fun p => u8 (lockCode p)) x.lock),
        (s.modifySlab slab (fun x => { x with lock := some l })).presentBed x)) s

/-- R6: SLAB EDIT LOCK. -/
def execSlabEditLock (h : Header) (slab reason : Nat) (s : State) : Host.Outcome State Fault Refusal :=
  .next (runRow (.slabEditLock h slab reason) h (slabLock slab reason) s)

/-- R7. -/
def slabUnlock (slab : Nat) : Block :=
  onEditable slab (fun x s =>
    (.answer (opt (fun p => u8 (lockCode p)) x.lock),
      if x.lock.isSome then (s.modifySlab slab (fun x => { x with lock := none })).presentBed x else s))

/-- R7: SLAB EDIT UNLOCK. -/
def execSlabEditUnlock (h : Header) (slab : Nat) (s : State) : Host.Outcome State Fault Refusal :=
  .next (runRow (.slabEditUnlock h slab) h (slabUnlock slab) s)

/-- R8, its three checks in order. -/
def slabSetBasis (slab value : Nat) : Block :=
  onEditable slab (fun x s =>
    if x.state.isStock = false then refuse .slabState s
    else if maxBasis < value then refuse .form s
    else if x.allocated ≠ 0 ∨ x.cutMark = true then refuse .basisFixed s
    else (.answer (u32 x.basis), s.modifySlab slab (fun x => { x with basis := value })))

/-- R8: SLAB EDIT SET BASIS. -/
def execSlabEditSetBasis (h : Header) (slab value : Nat) (s : State) : Host.Outcome State Fault Refusal :=
  .next (runRow (.slabEditSetBasis h slab value) h (slabSetBasis slab value) s)

/-- The placement's reserved rectangle meets a rectangle. -/
def Placement.meetsRect (r : Rect) (p : Placement) : Bool :=
  match p.reserved with
  | none => false
  | some q => q.meets r

/-- Committed in the sense of section 2.6: PLANNED with a cutout ORDERED or CUT. -/
def State.committed (s : State) (p : Placement) : Bool :=
  p.kind.isPiece && decide (p.state = .planned)
    && (s.cutoutsOf p.slab p.index).any (fun c => decide (c.state ≠ .planned))

/-- R9 check 4: the lowest ORDERED or CUT PIECE or MITRE a rectangle meets. -/
def State.orderedConflict (s : State) (slab : Nat) (r : Rect) : Option Nat :=
  s.lowest slab (fun p => p.kind.isPiece && decide (p.state ≠ .planned) && p.meetsRect r)

/-- R9 check 5: the lowest committed PIECE or MITRE a rectangle meets (DEDUCED, log entry 21). -/
def State.committedConflict (s : State) (slab : Nat) (r : Rect) : Option Nat :=
  s.lowest slab (fun p => s.committed p && p.meetsRect r)

/-- R10: one placement of the slab, removed with its cutouts and its notice if it is a PLANNED PIECE or MITRE the new
defect meets; the count of such removals so far goes along. -/
def dropMet (slab : Nat) (r : Rect) (acc : Nat × State) (index : Nat) : Nat × State :=
  match acc.2.placement? slab index with
  | none => acc
  | some p =>
    if p.kind.isPiece && decide (p.state = .planned) && p.meetsRect r then
      let q := acc.2.removePiece slab index
      (acc.1 + 1, q.2.notify (.placementDropped slab index p.job q.1.cutouts))
    else acc

/-- R9 and R10. -/
def slabAddDefect (slab : Nat) (r : Rect) : Block :=
  onEditable slab (fun x s =>
    if x.state.isStock = false then refuse .slabState s
    else if validDefect x.length x.width r = false then refuse .form s
    else if maxDefects ≤ x.defects.length then refuse .tableFull s
    else match s.orderedConflict slab r with
      | some i => (.reject .defectConflict (u8 i), s)
      | none => match s.committedConflict slab r with
        | some i => (.reject .defectConflict (u8 i), s)
        | none =>
          let q := (List.range maxPerSlab).foldl (dropMet slab r)
            (0, s.modifySlab slab (fun x => { x with defects := x.defects ++ [r] }))
          (.answer (u8 x.defects.length ++ count q.1), q.2))

/-- R9, R10: SLAB EDIT ADD DEFECT. -/
def execSlabEditAddDefect (h : Header) (slab : Nat) (defect : Rect) (s : State) : Host.Outcome State Fault Refusal :=
  .next (runRow (.slabEditAddDefect h slab defect) h (slabAddDefect slab defect) s)

/-! ## Scans -/

/-- The scan event codes (R168). -/
def scanRackedCode : Nat := 0
def scanStagedCode : Nat := 1
def scanUnstagedCode : Nat := 2
def scanGoneCode : Nat := 3

/-- STOCK/UNKNOWN_SLAB names the scanner, the kind SCAN, the slab id and the event (R11, R16). -/
def unknownSlabFault (src slab event : Nat) : FaultRecord :=
  ⟨.stockUnknownSlab, src, some Kind.scan, some slab, none, some (.scanEvent event)⟩

/-- R11: the common fields, then the record. -/
def onScan (h : Header) (event slab rack slot : Nat) (b : Slab → Block) : Block := fun s =>
  if slab = 0 ∨ 63 < rack ∨ 15 < slot then refuse .form s
  else match s.slab? slab with
    | none => refuse .unknownSlab (s.raise (unknownSlabFault h.src slab event))
    | some x =>
      if x.state = .reserved then refuse .unknownSlab (s.raise (unknownSlabFault h.src slab event))
      else b x s

def stateByte (st : SlabState) : List Byte := u8 (slabStateCode st)

/-- R12. No displaced slab id stands in the ANSWER (R11; DEDUCED, log entry 6). -/
def scanToRack (rack slot : Nat) (x : Slab) : Block := fun s =>
  let put := fun (s : State) => s.modifySlab x.id (fun x => { x with state := .racked, rack := some ⟨rack, slot⟩ })
  if x.state.isStock = false then refuse .slabState s
  else if x.state = .staged then
    if (s.placementsOf x.id).any (fun p => decide (p.state = .ordered)) then refuse .inFlight s
    else (.answer (stateByte .racked), (put (s.clearBed x.id)).presentBed x)
  else (.answer (stateByte .racked), put s)

/-- R11, R12: scan RACKED. -/
def execScanRacked (h : Header) (slab rack slot saw : Nat) (s : State) : Host.Outcome State Fault Refusal :=
  .next (runRow (.scanRacked h slab rack slot saw) h
    (onScan h scanRackedCode slab rack slot (scanToRack rack slot)) s)

/-- STOCK/BED_CONFLICT names the scanner, the kind SCAN and the slab on the bed (R14). -/
def bedConflictFault (src onBed saw : Nat) (displaced : Bool) : FaultRecord :=
  ⟨.stockBedConflict, src, some Kind.scan, some onBed, none, some (.bedConflict saw displaced)⟩

/-- R14: the slab on a bed is displaced: a stock slab becomes RECEIVED, a settled one keeps its state. -/
def State.displace (y : Nat) (s : State) : State :=
  (s.clearBed y).modifySlab y (fun z =>
    if z.state.isStock then { z with state := .received, rack := none } else { z with rack := none })

/-- R13, the changes: the old bed cleared, then the slab staged on S, then every saw whose bed changed presented. -/
def State.putOnBed (x : Slab) (saw : Nat) (displaced : Option Nat) (s : State) : State :=
  let s := s.clearBed x.id
  let s := match displaced with | none => s | some y => s.displace y
  let s := s.modifySlab x.id (fun x => { x with state := .staged, rack := none, bed := some saw })
  let s := s.modifySaw saw (fun w => { w with bed := some x.id })
  (s.presentBed x).present saw

/-- R13 and R14 (DEDUCED, log entry 22). -/
def scanToBed (h : Header) (saw : Nat) (x : Slab) : Block := fun s =>
  if x.state.isStock = false then refuse .slabState s
  else match s.saw? saw with
    | none => refuse .notSaw s
    | some w =>
      if x.state = .staged ∧ x.bed = some saw then (.answer (stateByte .staged ++ opt u32 none), s)
      else if x.state = .staged ∧ s.hasActiveOrder x.id = true then refuse .bedBusy s
      else match w.bed with
        | none => (.answer (stateByte .staged ++ opt u32 none), s.putOnBed x saw none)
        | some y =>
          if s.hasActiveOrder y then refuse .bedBusy (s.raise (bedConflictFault h.src y saw false))
          else (.answer (stateByte .staged ++ opt u32 (some y)),
            (s.raise (bedConflictFault h.src y saw true)).putOnBed x saw (some y))

/-- R11, R13, R14: scan STAGED. -/
def execScanStaged (h : Header) (slab rack slot saw : Nat) (s : State) : Host.Outcome State Fault Refusal :=
  .next (runRow (.scanStaged h slab rack slot saw) h
    (onScan h scanStagedCode slab rack slot (scanToBed h saw)) s)

/-- R15. No displaced slab id stands in the ANSWER (R11; DEDUCED, log entry 6). -/
def scanOffBed (x : Slab) : Block := fun s =>
  if x.state ≠ .staged then refuse .slabState s
  else if s.hasActiveOrder x.id then refuse .inFlight s
  else (.answer (stateByte .received),
    ((s.clearBed x.id).modifySlab x.id (fun x => { x with state := .received, rack := none })).presentBed x)

/-- R11, R15: scan UNSTAGED. -/
def execScanUnstaged (h : Header) (slab rack slot saw : Nat) (s : State) : Host.Outcome State Fault Refusal :=
  .next (runRow (.scanUnstaged h slab rack slot saw) h
    (onScan h scanUnstagedCode slab rack slot scanOffBed) s)

/-- R16. No displaced slab id stands in the ANSWER (R11; DEDUCED, log entry 6). -/
def scanAway (h : Header) (x : Slab) : Block := fun s =>
  if x.state.isSettled = false then refuse .slabState (s.raise (unknownSlabFault h.src x.id scanGoneCode))
  else (.answer (stateByte x.state),
    ((s.clearBed x.id).modifySlab x.id (fun x => { x with rack := none })).presentBed x)

/-- R11, R16: scan GONE. -/
def execScanGone (h : Header) (slab rack slot saw : Nat) (s : State) : Host.Outcome State Fault Refusal :=
  .next (runRow (.scanGone h slab rack slot saw) h
    (onScan h scanGoneCode slab rack slot (scanAway h)) s)

/-! ## SLAB RETIRE -/

/-- R17: the record and every placement of the slab leave their tables. -/
def slabRetire (slab : Nat) : Block := fun s =>
  match s.slab? slab with
  | none => refuse .noSlab s
  | some x =>
    if x.state.isSettled = false then refuse .slabState s
    else if x.bed.isSome then refuse .bedBusy s
    else
      let freed := (s.placementsOf slab).length
      let s := ({ s with placements := s.placements.filter (fun p => decide (p.slab ≠ slab)) }).freeSlab slab
      (.answer (count freed ++ count s.slabs.length), s)

/-- R17: SLAB RETIRE. -/
def execSlabRetire (h : Header) (slab : Nat) (s : State) : Host.Outcome State Fault Refusal :=
  .next (runRow (.slabRetire h slab) h (slabRetire slab) s)

end Sys2Proof.Machine
end

