-- ==== Sys2Proof/Machine/Plan.lean ====
section
/-! DEFINITION. Cut Plans (Chapter 2): PLACE and UNPLACE. -/

namespace Sys2Proof.Machine

open Sys2Proof Config

/-! ## Checks -/

/-- A check of a request: none when it passes, otherwise the reason and detail of the REJECT. -/
abbrev Check := Option (Reason × List Byte)

def checkThat (ok : Bool) (r : Reason) (detail : List Byte := []) : Check := if ok then none else some (r, detail)

/-- Refuses by the first failing check, or does the block's work. -/
def unlessFails (c : Check) (b : Block) : Block := fun s =>
  match c with
  | some (r, d) => (.reject r d, s)
  | none => b s

/-! ## PLACE -/

/-- A PLACE request past its form check (R24). -/
structure PlaceRequest where
  slab : Nat
  kind : PlacementKind
  rect : Rect
  job : Option Nat
  parent : Option Nat
  remnant : Option Nat
  deriving DecidableEq, Repr

/-- The sizes a PLACE may request (R22), leaving aside the remnant minimum. -/
def sizeFits : PlacementKind → Rect → Bool
  | .piece, r => inRange 100 3800 r.length && inRange 50 2000 r.width
  | .mitre, r => inRange 100 3800 r.length && inRange 50 2000 r.width
  | .remnant, r => inRange 1 4000 r.length && inRange 1 2200 r.width
  | .cutout, r => inRange 1 3700 r.length && inRange 1 1900 r.width

/-- R24: the request, or none where it is refused with FORM (DEDUCED, log entry 20). -/
def placeForm (slab kind : Nat) (rect : Rect) (job parentPresent parentIndex remnantSlab : Nat) :
    Option PlaceRequest :=
  match decodeKind kind with
  | none => none
  | some k =>
    if sizeFits k rect = false ∨ 4000 < rect.x ∨ 2200 < rect.y then none
    else match k with
      | .piece => if job = 0 then none else some ⟨slab, k, rect, some job, none, none⟩
      | .mitre => if job = 0 then none else some ⟨slab, k, rect, some job, none, none⟩
      | .cutout =>
        if job = 0 ∨ parentPresent ≠ 1 ∨ 11 < parentIndex then none
        else some ⟨slab, k, rect, some job, some parentIndex, none⟩
      | .remnant => if job ≠ 0 ∨ remnantSlab = 0 then none else some ⟨slab, k, rect, none, none, some remnantSlab⟩

/-- R25 checks 5 and 6. -/
def jobCheck (s : State) (job : Option Nat) : Check :=
  match job with
  | none => none
  | some j => match s.job? j with
    | none => some (.noJob, [])
    | some x => checkThat (decide (x.state = .opened)) .jobState

/-- R26. -/
def usableCheck (s : State) (x : Slab) (r : Rect) : Check :=
  checkThat (inUsable x.length x.width s.constants.margin (r.skirted s.constants.kerf)) .geometry

/-- R27: the lowest index among the reserved rectangles the new one meets. -/
def overlapCheck (s : State) (slab : Nat) (r : Rect) : Check :=
  match s.lowest slab (Placement.meetsRect (r.skirted s.constants.kerf)) with
  | none => none
  | some i => some (.overlap, u8 i)

/-- R28: the lowest defect index the new reserved rectangle meets. -/
def defectCheck (s : State) (x : Slab) (r : Rect) : Check :=
  match x.defects.findIdx? (Rect.meets (r.skirted s.constants.kerf)) with
  | none => none
  | some i => some (.defect, u8 i)

/-- R29, its four checks in order. -/
def remnantCheck (s : State) (x : Slab) (r : Rect) (remnant : Nat) : Check :=
  (checkThat (decide (s.constants.remnantMin ≤ r.length) && decide (s.constants.remnantMin ≤ r.width)) .tooSmall).or
  ((checkThat (decide (x.generation < 3)) .generation).or
  ((checkThat (s.slab? remnant).isNone .duplicate).or
   (checkThat (decide (s.slabs.length < maxSlabs)) .tableFull)))

/-- R33 check 1: a PLANNED PIECE or MITRE of the same job. -/
def suitableParent (job : Option Nat) (p : Placement) : Bool :=
  p.kind.isPiece && decide (p.state = .planned) && decide (p.job = job)

/-- R33, its four checks in order. -/
def cutoutCheck (s : State) (slab parent : Nat) (job : Option Nat) (r : Rect) : Check :=
  match s.placement? slab parent with
  | none => some (.noParent, [])
  | some p =>
    (checkThat (suitableParent job p) .noParent).or
    ((checkThat (insideParent p.rect r) .border).or
    ((checkThat (decide ((s.cutoutsOf slab parent).length < maxCutouts)) .slabFull).or
     (match s.lowest slab (fun c => decide (c.kind = .cutout) && decide (c.parentIndex = some parent) && c.rect.meets r) with
      | none => none
      | some i => some (.overlap, u8 i))))

/-- The geometric checks of a kind, in the order of their rules (section 2.4). -/
def geometryCheck (s : State) (x : Slab) (q : PlaceRequest) : Check :=
  match q.kind with
  | .piece => (usableCheck s x q.rect).or ((overlapCheck s q.slab q.rect).or (defectCheck s x q.rect))
  | .mitre => (usableCheck s x q.rect).or ((overlapCheck s q.slab q.rect).or (defectCheck s x q.rect))
  | .remnant => (usableCheck s x q.rect).or ((overlapCheck s q.slab q.rect).or
      (remnantCheck s x q.rect (q.remnant.getD 0)))
  | .cutout => cutoutCheck s q.slab (q.parent.getD 0) q.job q.rect

/-- R25, then the geometric checks. -/
def placeCheck (s : State) (q : PlaceRequest) : Check :=
  (checkThat (s.groups.on (kindGroup q.kind)) .groupOff).or
  (match s.slab? q.slab with
   | none => some (.noSlab, [])
   | some x =>
     (checkThat x.state.isStock .slabState).or
     ((checkThat x.lock.isNone .slabLocked).or
     ((jobCheck s q.job).or
     ((checkThat (decide ((s.placementsOf q.slab).length < maxPerSlab)) .slabFull).or
     ((checkThat (decide (s.placements.length < maxPlacements)) .poolFull).or
      (geometryCheck s x q))))))

/-- R19: the lowest index from 0 to 11 that no placement of the slab occupies. -/
def State.freeIndex (s : State) (slab : Nat) : Option Nat :=
  (List.range maxPerSlab).find? (fun i => (s.placement? slab i).isNone)

/-- The entry a PLACE creates (R32). -/
def PlaceRequest.entry (q : PlaceRequest) (index kerf : Nat) : Placement where
  slab := q.slab
  index := index
  kind := q.kind
  job := q.job
  rect := q.rect
  kerf := match q.kind with
    | .cutout => none
    | .piece => some kerf
    | .mitre => some kerf
    | .remnant => some kerf
  parentIndex := q.parent
  remnantSlab := q.remnant
  state := .planned

/-- The RESERVED record of a remnant (R30). -/
def remnantSlab (x : Slab) (id : Nat) (r : Rect) : Slab where
  id := id
  material := x.material
  thickness := x.thickness
  length := r.length
  width := r.width
  defects := x.defects.filterMap (clipDefect r)
  basis := 0
  allocated := 0
  state := .reserved
  rack := none
  bed := none
  lock := none
  parent := some x.id
  generation := x.generation + 1
  cutMark := false

/-- R30: the remnant's record, created in the same event. -/
def State.reserveRemnant (x : Slab) (q : PlaceRequest) (s : State) : State :=
  match q.remnant with
  | none => s
  | some id => s.addSlab (remnantSlab x id q.rect)

/-- The ANSWER to a PLACE (R32): index, placed kerf or its absence (R168), placements on the slab, and for REMNANT the
remnant slab id and the number of defects carried (DEDUCED, log entry 6). -/
def placeAnswer (s : State) (x : Slab) (q : PlaceRequest) (index : Nat) : List Byte :=
  u8 index ++ opt u8 (q.entry index s.constants.kerf).kerf
    ++ count ((s.placementsOf q.slab).length + 1)
    ++ (match q.remnant with
        | none => []
        | some id => u32 id ++ count (x.defects.filterMap (clipDefect q.rect)).length)

/-- R24 to R33. -/
def place (slab kind : Nat) (rect : Rect) (job parentPresent parentIndex remnantSlab : Nat) : Block := fun s =>
  match placeForm slab kind rect job parentPresent parentIndex remnantSlab with
  | none => refuse .form s
  | some q => unlessFails (placeCheck s q) (fun s =>
      match s.slab? slab, s.freeIndex slab with
      | some x, some i =>
        (.answer (placeAnswer s x q i), (s.addPlacement (q.entry i s.constants.kerf)).reserveRemnant x q)
      | _, _ => refuse .slabFull s) s

/-- R24 to R33: PLACE. -/
def execPlace (h : Header) (slab kind : Nat) (rect : Rect) (job parentPresent parentIndex remnantSlab : Nat)
    (s : State) : Host.Outcome State Fault Refusal :=
  .next (runRow (.place h slab kind rect job parentPresent parentIndex remnantSlab) h
    (place slab kind rect job parentPresent parentIndex remnantSlab) s)

/-! ## UNPLACE -/

/-- R34: the lowest-indexed cutout of a placement that is ORDERED or CUT. -/
def State.busyCutout (s : State) (slab index : Nat) : Option Nat :=
  s.lowest slab (fun c => decide (c.kind = .cutout) && decide (c.parentIndex = some index) && decide (c.state ≠ .planned))

/-- R34. -/
def unplace (slab index : Nat) : Block := fun s =>
  match s.slab? slab with
  | none => refuse .noSlab s
  | some _ => match s.placement? slab index with
    | none => refuse .placementState s
    | some p =>
      if p.state ≠ .planned then refuse .placementState s
      else if s.committed p then
        (.reject .placementState (match s.busyCutout slab index with | none => [] | some i => u8 i), s)
      else
        let q := s.removePlacement p
        (.answer (count q.1.cutouts ++ opt u32 p.remnantSlab), q.2)

/-- R34: UNPLACE. -/
def execUnplace (h : Header) (slab index : Nat) (s : State) : Host.Outcome State Fault Refusal :=
  .next (runRow (.unplace h slab index) h (unplace slab index) s)

end Sys2Proof.Machine
end

