-- ==== Sys2Proof/Machine/Stations.lean ====
section
/-! DEFINITION. Saw Stations (Chapter 3), the station table: LOAD STATION, its deletion form, and what the loss of the
recycler does to the water mode (R102). -/

namespace Sys2Proof.Machine

open Sys2Proof Config

/-! ## Loss of the recycler (R102) -/

/-- The mode becomes UNSURE; a change has cause PLANT LOST. -/
def State.plantLost (s : State) : State := s.takeMode .unsure .plantLost []

/-- A deleted or replaced entry: a RECYCLER takes the last sequence number with it, and an ATTACHED one the mode. -/
def State.recyclerGone (old : Station) (s : State) : State :=
  if old.cls = .recycler then
    let s := { s with water := { s.water with lastSequence := none } }
    if old.state = .attached then s.plantLost else s
  else s

/-! ## Form (R39) -/

/-- The address of a LOAD STATION: 1 to 30 and not the controller's own. -/
def State.addressOk (s : State) (a : Nat) : Bool := inRange 1 30 a && decide (a ≠ s.address)

/-- R39, the tier of a class: 0 for the SUPERVISOR, 1 to 3 for the others. -/
def tierOk (c : StationClass) (tier : Nat) : Bool :=
  match c with
  | .supervisor => decide (tier = 0)
  | .planning => inRange 1 3 tier
  | .panel => inRange 1 3 tier
  | .bridgeSaw => inRange 1 3 tier
  | .waterjet => inRange 1 3 tier
  | .recycler => inRange 1 3 tier
  | .scanner => inRange 1 3 tier

/-- R39, the saw fields (ranges of Table 3-1): the configuration, or none where the form is bad. A material code named
twice is stored twice, as loaded, and QUERY STATION returns it so; the list admits it once (DESIGN CHOICE, log entry 48). -/
def sawConfigOf (f : SawFields) : Option SawConfig :=
  match decodeFlag f.patient with
  | none => none
  | some patient =>
    if inRange 1 15 f.kindSet && inRange 600 4000 f.bedLength && inRange 400 2200 f.bedWidth
        && inRange 10 50 f.maxThickness && decide (f.materials.length ≤ 4)
        && f.materials.all (inRange 1 65535) && inRange 1 20000 f.feedMin && inRange 1 20000 f.feedMax
        && decide (f.feedMin ≤ f.feedMax) && decide (f.sawRate ≤ 100000) && decide (f.wearRate ≤ 100000) then
      some ⟨BitVec.ofNat 8 f.kindSet, f.bedLength, f.bedWidth, f.maxThickness, f.materials, f.feedMin, f.feedMax,
        f.sawRate, f.wearRate, patient⟩
    else none

/-- A saw part as a new entry has it (Table 3-3). -/
def newSaw (c : SawConfig) : Saw := ⟨c, false, .unknown, none, 0, none, [], none, none⟩

/-- A new entry (R41, Table 3-3): ABSENT, timer stopped. -/
def newStation (address : Nat) (side : Side) (c : StationClass) (tier : Nat) (saw : Option SawConfig) : Station :=
  ⟨address, side, c, tier, .absent, none, saw.map newSaw⟩

/-- The configured fields a LOAD STATION carries, past R39. -/
structure StationLoad where
  address : Nat
  side : Side
  cls : StationClass
  tier : Nat
  saw : Option SawConfig
  deriving DecidableEq, Repr

/-- R39: the load, or none where it is refused with FORM. -/
def stationForm (s : State) (address cls side tier : Nat) (saw : Option SawFields) : Option StationLoad :=
  if s.addressOk address = false then none
  else match decodeClass cls, decodeSide side with
    | some c, some sd =>
      if tierOk c tier = false then none
      else match saw with
        | none => if c.isSaw then none else some ⟨address, sd, c, tier, none⟩
        | some f =>
          if c.isSaw then
            match sawConfigOf f with
            | none => none
            | some g => some ⟨address, sd, c, tier, some g⟩
          else none
    | _, _ => none

/-! ## Placement rules of the classes (R40) -/

/-- Table 3-2: the sides a class may sit on. -/
def sideOk : StationClass → Side → Bool
  | .planning, sd => decide (sd = .a)
  | .supervisor, sd => decide (sd = .a)
  | .panel, _ => true
  | .bridgeSaw, sd => decide (sd = .b)
  | .waterjet, sd => decide (sd = .b)
  | .recycler, sd => decide (sd = .b)
  | .scanner, sd => decide (sd = .b)

/-- The entries other than the one at an address (R40: the entry being loaded counts in its new class alone). -/
def State.others (s : State) (a : Nat) : List Station := s.stations.filter (fun st => decide (st.address ≠ a))

/-- R40, its five checks in order. -/
def classCheck (s : State) (q : StationLoad) : Check :=
  (checkThat (sideOk q.cls q.side) .classSide).or
  ((checkThat (!q.cls.isSaw || decide ((s.others q.address).countP (fun st => st.cls.isSaw) < maxSaws)) .tableFull).or
  ((checkThat (!decide (q.cls = .recycler) || !(s.others q.address).any (fun st => decide (st.cls = .recycler))) .tableFull).or
  ((checkThat (!decide (q.cls = .supervisor) || !(s.others q.address).any (fun st => decide (st.cls = .supervisor))) .tableFull).or
   (checkThat ((s.station? q.address).isSome || decide (s.stations.length < maxStations)) .tableFull))))

/-- R42 checks 2 to 5, which also govern a replacement (R41). -/
def inUseCheck (s : State) (old : Station) : Check :=
  (checkThat (decide (old.cls ≠ .supervisor)) .inUse).or
  ((checkThat (match old.saw with | none => true | some w => w.queue.isEmpty) .inUse).or
  ((checkThat (match old.saw with | none => true | some w => w.bed.isNone) .inUse).or
   (checkThat (decide (old.address ≠ s.faults.station)) .inUse)))

/-- R41, an entry of the same class and side: configured fields replaced, runtime fields kept. -/
def Station.reload (q : StationLoad) (st : Station) : Station :=
  { st with
    tier := q.tier
    saw := match st.saw, q.saw with
      | some w, some g => some { w with config := g }
      | _, _ => st.saw }

/-- The ANSWER to a LOAD STATION: address, class, and what the load did (DESIGN CHOICE, log entry 3). -/
def loadAnswer (q : StationLoad) (c : Uncoded) : Reply := .answer (u8 q.address ++ u8 (classCode q.cls) ++ code c)

/-- R39 to R41. -/
def loadStation (address cls side tier : Nat) (saw : Option SawFields) : Block := fun s =>
  match stationForm s address cls side tier saw with
  | none => refuse .form s
  | some q => unlessFails (classCheck s q) (fun s =>
      match s.station? q.address with
      | none => (loadAnswer q .loadCreated, s.addStation (newStation q.address q.side q.cls q.tier q.saw))
      | some old =>
        if old.cls = q.cls ∧ old.side = q.side then
          (loadAnswer q .loadUpdated, s.modifyStation q.address (Station.reload q))
        else unlessFails (inUseCheck s old) (fun s =>
          (loadAnswer q .loadReplaced,
            (s.modifyStation q.address (fun _ => newStation q.address q.side q.cls q.tier q.saw)).recyclerGone old)) s) s

/-- R39 to R41, R43: LOAD STATION. -/
def execLoadStation (h : Header) (address cls stationSide tier : Nat) (saw : Option SawFields) (s : State) :
    Host.Outcome State Fault Refusal :=
  .next (runRow (.loadStation h address cls stationSide tier saw) h
    (loadStation address cls stationSide tier saw) s)

/-- R42, after the address form of R39. -/
def loadStationNone (address : Nat) : Block := fun s =>
  if s.addressOk address = false then refuse .form s
  else match s.station? address with
    | none => refuse .stationState s
    | some old => unlessFails (inUseCheck s old) (fun s =>
        let s := s.freeStation address
        (.answer (u8 address ++ count s.stations.length), s.recyclerGone old)) s

/-- R42: LOAD STATION with class NONE. -/
def execLoadStationNone (h : Header) (address : Nat) (s : State) : Host.Outcome State Fault Refusal :=
  .next (runRow (.loadStationNone h address) h (loadStationNone address) s)

end Sys2Proof.Machine
end

