-- ==== Sys2Proof/Machine/Water.lean ====
section
/-! DEFINITION. Water Recycling (Chapter 6): WATER SAMPLE, the three water loads and RENEW ALLOWANCE. -/

namespace Sys2Proof.Machine

open Sys2Proof Config

/-- A quotient rounded half up, on exact whole numbers (section 0.5, R110). -/
def roundDiv (n d : Nat) : Nat := (2 * n + d) / (2 * d)

/-! ## WATER SAMPLE -/

/-- The sequence number the Water Monitor expects next (R92), none when any number is in sequence. -/
def Water.expected (w : Water) : Option Nat := w.lastSequence.map (fun n => (n + 1) % 256)

/-- R92: a sample is in sequence. -/
def Water.inSequence (w : Water) (n : Nat) : Bool :=
  match w.expected with
  | none => true
  | some e => decide (n = e)

/-- R92: the number becomes the last; a gap aborts the window. -/
def Water.takeSequence (n : Nat) (w : Water) : Water :=
  if w.inSequence n then { w with lastSequence := some n }
  else { w.abortWindow with lastSequence := some n }

/-- R105: the share a completed window gives. -/
def windowShare (old recycled fresh : Nat) : Nat :=
  if recycled + fresh = 0 then old else roundDiv (1000 * fresh) (recycled + fresh)

/-- R105: a sample enters the share window, which completes when its count reaches its length. -/
def Water.takeWindow (recycled fresh : Nat) (w : Water) : Water :=
  if w.windowLength ≤ w.windowCount + 1 then
    { w with
      share := windowShare w.share (w.windowRecycled + recycled) (w.windowFresh + fresh)
      windowCount := 0
      windowRecycled := 0
      windowFresh := 0 }
  else
    { w with
      windowCount := w.windowCount + 1
      windowRecycled := w.windowRecycled + recycled
      windowFresh := w.windowFresh + fresh }

/-- R103: the fresh tenths count against the allowance. -/
def Water.takeUsed (fresh : Nat) (w : Water) : Water := { w with used := satAdd max32 w.used fresh }

/-- Steps 1 to 4 of R91. -/
def Water.takeSample (sequence level turbidity recycled fresh : Nat) (w : Water) : Water :=
  let w := ((w.takeSequence sequence).takeWindow recycled fresh).takeUsed fresh
  { w with rules := w.rules.map (Machine.takeSample level turbidity) }

/-- WATER/SAMPLE_GAP (R92). -/
def sampleGapFault (src expected received : Nat) : FaultRecord :=
  ⟨.waterSampleGap, src, some Kind.waterSample, none, none, some (.sampleGap expected received)⟩

/-- R91 step 1, the record of a gap. -/
def State.gapCheck (src n : Nat) (s : State) : State :=
  if s.water.inSequence n then s else s.raise (sampleGapFault src (s.water.expected.getD 0) n)

/-- R97: a rule of action NOTICE is among those that moved. -/
def noticeMoved (rules : List CompareRule) (moved : List (Nat × Bool)) : Bool :=
  moved.any (fun m => match rules[m.1]? with | none => false | some r => decide (r.action = .notice))

/-- R91 steps 5 and 6: the computed mode becomes the mode, an UNSURE period ends (R99), and a change, or a moved
NOTICE rule, is told (R100). -/
def State.modeAfterSample (moved : List (Nat × Bool)) (s : State) : State :=
  if s.water.mode ≠ computedMode s.water then s.changeMode (computedMode s.water) .sample moved
  else if noticeMoved s.water.rules moved then s.notify (.waterMode s.water.mode s.water.mode .sample moved)
  else s

/-- R90, the ranges of a sample's fields. -/
def sampleForm (sequence level turbidity recycled fresh : Nat) : Bool :=
  decide (sequence ≤ 255) && decide (level ≤ 65000) && decide (turbidity ≤ 4000) && decide (recycled ≤ 65535)
    && decide (fresh ≤ 65535)

/-- R90 and R91. The FAULT notice of a gap leaves before the VALVE and the WATER_MODE of the same sample (DEDUCED, log
entry 46). -/
def waterSample (src sequence level turbidity recycled fresh : Nat) : Block := fun s =>
  if sampleForm sequence level turbidity recycled fresh = false then refuse .form s
  else
    let before := s.water.rules
    let s := s.gapCheck src sequence
    let s := { s with water := s.water.takeSample sequence level turbidity recycled fresh }
    let s := s.modeAfterSample (movedRules before s.water.rules)
    (.answer (u8 (modeCode s.water.mode) ++ u16 s.water.share ++ u8 s.water.windowCount
      ++ u8 ((sequence + 1) % 256)), s)

/-- R50, R90, R91: WATER SAMPLE. -/
def execWaterSample (h : Header) (sequence level turbidity recycled fresh : Nat) (s : State) :
    Host.Outcome State Fault Refusal :=
  .next (runRow (.waterSample h sequence level turbidity recycled fresh) h
    (fromAttached h (waterSample h.src sequence level turbidity recycled fresh)) s)

/-! ## LOAD WATER RULE -/

/-- The greatest threshold of a channel (Table 6-2). -/
def channelMax : Channel → Nat
  | .level => 65000
  | .turbidity => 4000

/-- R93: a release threshold on the wrong side is taken as equal to the trip threshold. -/
def clampRelease (d : Direction) (trip release : Nat) : Nat :=
  match d with
  | .below => max trip release
  | .atOrAbove => min trip release

/-- R93: the configuration, in state CLEAR and without a record, or none where it is refused with FORM. -/
def waterRuleForm (number enabled channel direction trip release confirm action : Nat) : Option CompareRule :=
  match decodeFlag enabled, decodeChannel channel, decodeDirection direction, decodeAction action with
  | some en, some c, some d, some a =>
    if decide (number ≤ 3) && decide (trip ≤ channelMax c) && decide (release ≤ channelMax c) && inRange 1 8 confirm then
      some ⟨en, c, d, trip, clampRelease d trip release, confirm, a, .clear, none⟩
    else none
  | _, _, _, _ => none

/-- R93: the configuration replaced, the state CLEAR, the excursion record kept. -/
def Water.loadRule (number : Nat) (r : CompareRule) (w : Water) : Water :=
  { w with rules := w.rules.modify number (fun old => { r with record := old.record }) }

/-- R93. -/
def loadWaterRule (number enabled channel direction trip release confirm action : Nat) : Block := fun s =>
  match waterRuleForm number enabled channel direction trip release confirm action with
  | none => refuse .form s
  | some r =>
    let before := s.water.rules
    let s := { s with water := s.water.loadRule number r }
    let s := s.recomputeMode .ruleLoad (movedRules before s.water.rules)
    (.answer (u8 number ++ u16 r.release ++ flag (decide (r.release ≠ release)) ++ u8 (modeCode s.water.mode)), s)

/-- R93: LOAD WATER RULE. -/
def execLoadWaterRule (h : Header) (number enabled channel direction trip release confirm action : Nat)
    (s : State) : Host.Outcome State Fault Refusal :=
  .next (runRow (.loadWaterRule h number enabled channel direction trip release confirm action) h
    (loadWaterRule number enabled channel direction trip release confirm action) s)

/-! ## LOAD SHARE WINDOW, LOAD ALLOWANCE, RENEW ALLOWANCE -/

/-- R106. -/
def loadShareWindow (length : Nat) : Block := fun s =>
  if inRange 1 16 length = false then refuse .form s
  else (.answer (u8 s.water.windowLength ++ u8 s.water.windowCount),
    { s with water := { s.water.abortWindow with windowLength := length } })

/-- R106: LOAD SHARE WINDOW. -/
def execLoadShareWindow (h : Header) (length : Nat) (s : State) : Host.Outcome State Fault Refusal :=
  .next (runRow (.loadShareWindow h length) h (loadShareWindow length) s)

/-- R103; every four-byte allowance is in range. -/
def loadAllowance (allowance : Nat) : Block := fun s =>
  if max32 < allowance then refuse .form s
  else (.answer (u32 s.water.allowance ++ amount s.water.used),
    ({ s with water := { s.water with allowance := allowance } }).recomputeMode .allowance [])

/-- R103: LOAD ALLOWANCE. -/
def execLoadAllowance (h : Header) (allowance : Nat) (s : State) : Host.Outcome State Fault Refusal :=
  .next (runRow (.loadAllowance h allowance) h (loadAllowance allowance) s)

/-- R104. -/
def renewAllowance : Block := fun s =>
  (.answer (amount s.water.used), ({ s with water := { s.water with used := 0 } }).recomputeMode .renew [])

/-- R104: RENEW ALLOWANCE. -/
def execRenewAllowance (h : Header) (s : State) : Host.Outcome State Fault Refusal :=
  .next (runRow (.renewAllowance h) h renewAllowance s)

end Sys2Proof.Machine
end

