-- ==== Sys2Proof/Machine/Cost.lean ====
section
/-! DEFINITION. Cost Arithmetic (Chapter 7): the water split, charges to jobs with saturation and quote check, the shop
accumulators, and the charges of a completion. -/

namespace Sys2Proof.Machine

open Sys2Proof Config

/-! ## The split (R112) -/

/-- Fresh tenths of a delta at a share. -/
def freshPart (delta share : Nat) : Nat := roundDiv (delta * share) 1000
/-- Recycled tenths: the rest of the delta. -/
def recycledPart (delta share : Nat) : Nat := delta - freshPart delta share

/-! ## Amounts (R113, R115) -/

/-- Saw or wear cents: blade-seconds at a rate per blade-hour. -/
def bladeCharge (seconds rate : Nat) : Nat := roundDiv (seconds * rate) 3600
/-- Water cents of an order's totals. -/
def waterCharge (r : Rates) (recycled fresh : Nat) : Nat := roundDiv (recycled * r.recycled + fresh * r.fresh) 1000
/-- floor(B × R / A): provisional material (R115) and remnant basis (R126). -/
def areaShare (basis area slabArea : Nat) : Nat := basis * area / slabArea

/-! ## Shop accumulators (R118) -/

def State.addOverheadWater (recycled fresh : Nat) (s : State) : State :=
  { s with shop := { s.shop with
      recycled := satAdd max63 s.shop.recycled recycled
      fresh := satAdd max63 s.shop.fresh fresh } }

def State.addOverheadCents (saw wear : Nat) (s : State) : State :=
  { s with shop := { s.shop with saw := satAdd max63 s.shop.saw saw, wear := satAdd max63 s.shop.wear wear } }

def State.addLoss (cents : Nat) (s : State) : State :=
  { s with shop := { s.shop with loss := satAdd max63 s.shop.loss cents } }

def State.addOverflow (cents : Nat) (s : State) : State :=
  { s with shop := { s.shop with overflow := satAdd max63 s.shop.overflow cents } }

/-! ## Job accumulators (R116, R117) -/

def Job.held (j : Job) : Accumulator → Nat
  | .material => j.material
  | .saw => j.saw
  | .wear => j.wear
  | .water => j.water
  | .recycled => j.recycled
  | .fresh => j.fresh
  | .bladeSeconds => j.bladeSeconds

def Job.set (a : Accumulator) (n : Nat) (j : Job) : Job :=
  match a with
  | .material => { j with material := n }
  | .saw => { j with saw := n }
  | .wear => { j with wear := n }
  | .water => { j with water := n }
  | .recycled => { j with recycled := n }
  | .fresh => { j with fresh := n }
  | .bladeSeconds => { j with bladeSeconds := n }

/-- The maximum of an accumulator. -/
def accumulatorMax : Accumulator → Nat
  | .material => maxCharge
  | .saw => maxCharge
  | .wear => maxCharge
  | .water => maxCharge
  | .recycled => max48
  | .fresh => max48
  | .bladeSeconds => max32

/-- Whose telegram's handling makes a charge: its source and kind (Table 10-1). -/
structure Cause where
  src : Nat
  kind : Nat
  deriving DecidableEq, Repr

/-- COST/SATURATED (R116, Table 10-1). -/
def saturatedFault (c : Cause) (slab job : Nat) (a : Accumulator) : FaultRecord :=
  ⟨.costSaturated, c.src, some c.kind, some slab, some job, some (.accumulator a)⟩

/-- Adds to a job's accumulator, which holds at its maximum; an excess sets SATURATED and is recorded (R116, R117). -/
def State.addToJob (c : Cause) (slab job : Nat) (a : Accumulator) (n : Nat) (s : State) : State :=
  match s.job? job with
  | none => s
  | some j =>
    if j.held a + n ≤ accumulatorMax a then s.modifyJob job (Job.set a (j.held a + n))
    else (s.modifyJob job (fun x => { Job.set a (accumulatorMax a) x with saturated := true })).raise
      (saturatedFault c slab job a)

/-- The part of a charge past an accumulator's maximum (R116). -/
def excess (j : Job) (a : Accumulator) (n : Nat) : Nat := j.held a + n - accumulatorMax a

/-- R120: the quote check after a charge. -/
def State.quoteCheck (job : Nat) (s : State) : State :=
  match s.job? job with
  | none => s
  | some j =>
    if quoteReached s.groups.quote j then
      (s.modifyJob job (fun x => { x with overQuote := true })).notify
        (.overQuote job (j.limit.getD 0) j.sum j.hold)
    else s

/-- A charge in cents: the accumulator, the excess to overflow (R116), then the quote check (R120). -/
def State.charge (c : Cause) (slab job : Nat) (a : Accumulator) (cents : Nat) (s : State) : State :=
  match s.job? job with
  | none => s
  | some j => ((s.addOverflow (excess j a cents)).addToJob c slab job a cents).quoteCheck job

/-! ## Completion charges (R113 to R115, R121) -/

/-- The account of a completion (R121). -/
structure Account where
  saw : Nat
  wear : Nat
  water : Nat
  material : Nat
  overhead : Bool
  fresh : Nat
  recycled : Nat
  saturated : Bool
  overQuote : Bool
  deriving DecidableEq, Repr

/-- The material a DONE cut of a PIECE or MITRE makes: R115; 0 for anything else. -/
def State.materialOf (s : State) (o : CutOrder) (outcome : Outcome3) : Nat :=
  if o.kind.isPiece ∧ outcome = .done then
    match s.slab? o.slab, s.placement? o.slab o.index with
    | some x, some p => areaShare x.basis p.area (x.length * x.width)
    | _, _ => 0
  else 0

/-- R115: the provisional material, to the job and in full to the slab's allocated cents. -/
def State.chargeMaterial (c : Cause) (slab job cents : Nat) (s : State) : State :=
  (s.charge c slab job .material cents).modifySlab slab (fun x => { x with allocated := x.allocated + cents })

/-- R114 for a PIECE, MITRE or CUTOUT: saw, wear, water, then material where there is one, then the quantities (DESIGN CHOICE, log entry 38). -/
def State.chargeCut (c : Cause) (o : CutOrder) (job saw wear water material : Nat) (piece : Bool)
    (seconds : Nat) (s : State) : State :=
  let s := s.charge c o.slab job .saw saw
  let s := s.charge c o.slab job .wear wear
  let s := s.charge c o.slab job .water water
  let s := if piece then s.chargeMaterial c o.slab job material else s
  let s := s.addToJob c o.slab job .recycled o.recycled
  let s := s.addToJob c o.slab job .fresh o.fresh
  s.addToJob c o.slab job .bladeSeconds seconds

def State.isSaturated (s : State) (job : Nat) : Bool :=
  match s.job? job with
  | none => false
  | some j => j.saturated

def State.isOverQuote (s : State) (job : Nat) : Bool :=
  match s.job? job with
  | none => false
  | some j => j.overQuote

/-- The charges of a completion and their account (R113 to R115, R121); a REMNANT's saw and wear go to overhead and
its water is not charged (DEDUCED, log entry 23). A flag that stood before is not one the completion set (DEDUCED, log
entry 45). -/
def State.completionCharges (c : Cause) (w : SawConfig) (o : CutOrder) (outcome : Outcome3) (seconds : Nat)
    (s : State) : Account × State :=
  let saw := bladeCharge seconds w.sawRate
  let wear := bladeCharge seconds w.wearRate
  match o.job with
  | none => (⟨saw, wear, 0, 0, true, o.fresh, o.recycled, false, false⟩, s.addOverheadCents saw wear)
  | some job =>
    let water := waterCharge s.rates o.recycled o.fresh
    let material := s.materialOf o outcome
    let t := s.chargeCut c o job saw wear water material (o.kind.isPiece && decide (outcome = .done)) seconds
    (⟨saw, wear, water, material, false, o.fresh, o.recycled, t.isSaturated job && !s.isSaturated job,
      t.isOverQuote job && !s.isOverQuote job⟩, t)

/-- The account as the ANSWER to an honoured cut report carries it (R121): all four amounts, those that are 0 too, are
marked with the one place the order charges to (DEDUCED, log entry 23). -/
def Account.bytes (a : Account) : List Byte :=
  let whereTo := code (if a.overhead then .chargedToOverhead else .chargedToJob)
  amount a.saw ++ amount a.wear ++ amount a.water ++ amount a.material
    ++ whereTo ++ whereTo ++ whereTo ++ whereTo
    ++ amount a.fresh ++ amount a.recycled ++ flag a.saturated ++ flag a.overQuote

/-! ## Overhead water (R119) -/

/-- The overhead water cents, computed at the reading. -/
def State.overheadWaterCents (s : State) : Nat := waterCharge s.rates s.shop.recycled s.shop.fresh

/-! ## LOAD RATES (R111) -/

def loadRates (recycled fresh : Nat) : Block := fun s =>
  if 10000 < recycled ∨ 10000 < fresh then refuse .form s
  else (.answer (u16 s.rates.recycled ++ u16 s.rates.fresh), { s with rates := ⟨recycled, fresh⟩ })

/-- R111: LOAD RATES. -/
def execLoadRates (h : Header) (recycled fresh : Nat) (s : State) : Host.Outcome State Fault Refusal :=
  .next (runRow (.loadRates h recycled fresh) h (loadRates recycled fresh) s)

end Sys2Proof.Machine
end

