-- ==== Sys2Proof/Machine/Jobs.lean ====
section
/-! DEFINITION. Jobs and Bills (Chapter 9): JOB OPEN, JOB LIMIT, JOB CLOSE and TAKE BILL, and the two parts of a job
record as TAKE BILL and QUERY JOB return it. -/

namespace Sys2Proof.Machine

open Sys2Proof Config

/-! ## JOB OPEN -/

/-- A record as JOB OPEN creates it (Table 9-1, last column). -/
def newJob (job : Nat) : Job where
  id := job
  state := .opened
  limit := none
  hold := false
  overQuote := false
  saturated := false
  material := 0
  saw := 0
  wear := 0
  water := 0
  recycled := 0
  fresh := 0
  bladeSeconds := 0
  piecesCut := 0
  openOrders := 0
  unsettled := 0
  closeNumber := none

/-- R136, its three checks in order. -/
def jobOpen (job : Nat) : Block := fun s =>
  if job = 0 ∨ max32 < job then refuse .form s
  else if (s.job? job).isSome then refuse .duplicate s
  else if maxJobs ≤ s.jobs.length then refuse .tableFull s
  else
    let s := s.addJob (newJob job)
    (.answer (u32 job ++ count s.jobs.length), s)

/-- R136: JOB OPEN. -/
def execJobOpen (h : Header) (job : Nat) (s : State) : Host.Outcome State Fault Refusal :=
  .next (runRow (.jobOpen h job) h (jobOpen job) s)

/-! ## JOB LIMIT -/

/-- R137 check 1: a limit, where one is carried, lies from 1 to the greatest charge. -/
def limitOk (limit : Option Nat) : Bool :=
  match limit with
  | none => true
  | some l => inRange 1 maxCharge l

/-- R137. -/
def jobLimit (job : Nat) (limit : Option Nat) (hold : Nat) : Block := fun s =>
  match decodeFlag hold with
  | none => refuse .form s
  | some hd =>
    if job = 0 ∨ limitOk limit = false then refuse .form s
    else match s.job? job with
      | none => refuse .noJob s
      | some j =>
        if j.state = .closed then (.reject .jobState (u8 (jobStateCode j.state)), s)
        else (.answer (opt u48 j.limit ++ flag j.hold ++ amount j.sum ++ flag j.overQuote),
          s.modifyJob job (fun x => { x with limit := limit, hold := hd }))

/-- R137: JOB LIMIT. -/
def execJobLimit (h : Header) (job : Nat) (limit : Option Nat) (hold : Nat) (s : State) :
    Host.Outcome State Fault Refusal :=
  .next (runRow (.jobLimit h job limit hold) h (jobLimit job limit hold) s)

/-! ## JOB CLOSE -/

/-- R138: one placement of the plan, removed by its kind if it is still there and PLANNED. -/
def dropPlanned (acc : Removal × State) (p : Placement) : Removal × State :=
  match acc.2.placement? p.slab p.index with
  | none => acc
  | some q =>
    if q.state = .planned then
      let r := acc.2.removePlacement q
      (acc.1.plus r.1, r.2)
    else acc

/-- R138: every PLANNED placement naming the job is removed, by slab id and then index. -/
def State.dropPlanOf (job : Nat) (s : State) : Removal × State :=
  (s.placements.filter (fun p => decide (p.job = some job) && decide (p.state = .planned))).foldl dropPlanned
    (⟨0, 0, 0⟩, s)

/-- R139: the job becomes CLOSING, or CLOSED at once when both of its counts are 0 (R141). -/
def State.startClosing (job : Nat) (s : State) : State :=
  (s.modifyJob job (fun x => { x with state := .closing })).closeIfReady job

/-- The ANSWER of R139, of the job as the request leaves it. -/
def closeAnswer (r : Removal) (j : Job) : List Byte :=
  u8 (jobStateCode j.state) ++ count r.removed ++ count r.detached ++ count j.openOrders ++ count j.unsettled
    ++ opt u32 j.closeNumber

/-- R138 and R139. -/
def jobClose (job : Nat) : Block := fun s =>
  if job = 0 then refuse .form s
  else match s.job? job with
    | none => refuse .noJob s
    | some j =>
      if j.state ≠ .opened then (.reject .jobState (u8 (jobStateCode j.state)), s)
      else
        let q := s.dropPlanOf job
        let s := q.2.startClosing job
        (.answer (closeAnswer q.1 ((s.job? job).getD j)), s)

/-- R138, R139: JOB CLOSE. -/
def execJobClose (h : Header) (job : Nat) (s : State) : Host.Outcome State Fault Refusal :=
  .next (runRow (.jobClose h job) h (jobClose job) s)

/-! ## TAKE BILL -/

/-- Part 1 of a job record (R143). -/
def Job.partOne (j : Job) : List Byte :=
  u32 j.id ++ opt u32 j.closeNumber ++ opt u48 j.limit ++ flag j.hold ++ flag j.overQuote ++ flag j.saturated
    ++ amount j.material ++ amount j.saw ++ amount j.wear ++ amount j.water

/-- Part 2 of a job record (R143), up to the items in which TAKE BILL and QUERY JOB differ. The blade-seconds take four
bytes, which their range needs (DESIGN CHOICE, log entry 8), and the pieces cut one, as a count (DESIGN CHOICE, log
entry 4). -/
def Job.partTwo (j : Job) : List Byte :=
  u32 j.id ++ amount j.recycled ++ amount j.fresh ++ u32 j.bladeSeconds ++ count j.piecesCut ++ amount j.sum

/-- The two parts as the manual cuts them; where part 1 would pass 46 bytes (a job with a quote limit), the same
content cut where 46 bytes are full, which is two telegrams as well (R162; DEDUCED, log entry 9). -/
def twoParts (one two : List Byte) : Reply :=
  if one.length ≤ answerBytes then .parts [one, two] else .answer (one ++ two)

/-- R143 (DESIGN CHOICE, log entry 37). -/
def takeBill (job : Option Nat) : Block := fun s =>
  if job = some 0 then refuse .form s
  else match s.bills with
    | [] => refuse .empty s
    | b :: rest =>
      if job ≠ none ∧ job ≠ some b then (.reject .wrongJob (u32 b), s)
      else match s.job? b with
        | none => refuse .empty s
        | some j =>
          (twoParts j.partOne (j.partTwo ++ count rest.length), ({ s with bills := rest }).freeJob b)

/-- R143: TAKE BILL. -/
def execTakeBill (h : Header) (job : Option Nat) (s : State) : Host.Outcome State Fault Refusal :=
  .next (runRow (.takeBill h job) h (takeBill job) s)

end Sys2Proof.Machine
end

