-- ==== Sys2Proof/Machine/Settlement.lean ====
section
/-! DEFINITION. Slab Settlement (Chapter 8): the steps of Table 8-1, shared by SLAB DONE, scrap and break, and the two
endings of SLAB DONE. -/

namespace Sys2Proof.Machine

open Sys2Proof Config

/-- The three ways a slab is settled (Table 8-1). -/
inductive Ending where
  | finished | scrap | brk
  deriving DecidableEq, Repr

/-- R131: the state an ending leaves. -/
def Ending.state : Ending → SlabState
  | .finished => .spent
  | .scrap => .scrapped
  | .brk => .broken

/-! ## Step 2 (R124) -/

/-- What step 2 removed: placements, cutouts included, and Stock Table records freed. -/
structure Cleared where
  removed : Nat
  freed : Nat
  deriving DecidableEq, Repr

/-- R124: one placement, removed by its kind if it is still there and PLANNED. -/
def clearPlanned (acc : Cleared × State) (p : Placement) : Cleared × State :=
  match acc.2.placement? p.slab p.index with
  | none => acc
  | some q =>
    if q.state = .planned then
      let r := acc.2.removePlacement q
      (⟨acc.1.removed + r.1.removed, acc.1.freed + (if q.kind = .remnant then 1 else 0)⟩, r.2)
    else acc

/-- R124: the slab's PLANNED placements leave the pool, in ascending index. -/
def State.clearPlan (slab : Nat) (s : State) : Cleared × State :=
  (s.placementsOf slab).foldl clearPlanned (⟨0, 0⟩, s)

/-! ## Step 3 (R126) -/

/-- R126: one remnant enters stock with its share of the basis, which joins the parent's allocated cents. -/
def enterRemnant (x : Slab) (acc : List (Nat × Nat) × State) (p : Placement) : List (Nat × Nat) × State :=
  match p.kind, p.remnantSlab with
  | .remnant, some r =>
    let b := areaShare x.basis p.area (x.length * x.width)
    (acc.1 ++ [(r, b)],
      (acc.2.modifySlab r (fun z => { z with basis := b, state := .received })).modifySlab x.id
        (fun z => { z with allocated := z.allocated + b }))
  | _, _ => acc

/-- R126: each REMNANT of the slab, in ascending index, with the ids and bases of those that entered. -/
def State.enterRemnants (x : Slab) (s : State) : List (Nat × Nat) × State :=
  (s.placementsOf x.id).foldl (enterRemnant x) ([], s)

/-! ## Shares (R128, R129) -/

/-- A list without repeats, each member at its first place. -/
def distinct : List Nat → List Nat
  | [] => []
  | x :: xs => x :: (distinct xs).filter (fun y => decide (y ≠ x))

/-- The CUT PIECE and MITRE placements of a slab, in ascending index. -/
def State.cutPieces (s : State) (slab : Nat) : List Placement :=
  (s.placementsOf slab).filter (fun p => p.kind.isPiece && decide (p.state = .cut))

/-- R128: the jobs those placements name, each once, in ascending lowest index. -/
def participants (ps : List Placement) : List Nat := distinct (ps.filterMap Placement.job)

/-- R128: the job's area among placements. -/
def jobArea (ps : List Placement) (job : Nat) : Nat :=
  ((ps.filter (fun p => decide (p.job = some job))).map Placement.area).sum

/-- A job's part of a residue (R128). -/
structure Share where
  job : Nat
  floor : Nat
  remainder : Nat
  deriving DecidableEq, Repr

/-- R128, before the cents left over. -/
def floorShares (residue : Nat) (ps : List Placement) : List Share :=
  let total := ((participants ps).map (jobArea ps)).sum
  (participants ps).map (fun j =>
    ⟨j, residue * jobArea ps j / total, residue * jobArea ps j - residue * jobArea ps j / total * total⟩)

/-- R129: how many shares rank before the one at a place, by remainder and then by place. -/
def rankOf (shares : List Share) (i : Nat) (x : Share) : Nat :=
  shares.zipIdx.countP (fun y => decide (x.remainder < y.1.remainder) || (decide (x.remainder = y.1.remainder) && decide (y.2 < i)))

/-- R129: the cents left over after the floor shares. -/
def leftOver (residue : Nat) (shares : List Share) : Nat := residue - (shares.map Share.floor).sum

/-- R129: each job's floor share and residue share, in the order of R130. -/
def residueShares (residue : Nat) (ps : List Placement) : List (Nat × Nat × Nat) :=
  let shares := floorShares residue ps
  shares.zipIdx.map (fun y =>
    (y.1.job, y.1.floor, y.1.floor + (if rankOf shares y.2 y.1 < leftOver residue shares then 1 else 0)))

/-! ## The event (R123) -/

/-- What a settlement did, as its notice and its ANSWER tell it (R132). -/
structure Settled where
  slab : Nat
  ending : Ending
  basis : Nat
  residue : Nat
  shares : List (Nat × Nat × Nat)
  remnants : List (Nat × Nat)
  loss : Nat
  cleared : Cleared
  deriving DecidableEq, Repr

/-- The number of participating jobs, none when the residue went to shop loss (R132). -/
def Settled.participants (r : Settled) : Option Nat := if r.shares.isEmpty then none else some r.shares.length

/-- The SLAB_SETTLED notice (R132). -/
def Settled.notice (r : Settled) : Notice :=
  .slabSettled r.slab r.ending.state r.basis r.residue r.participants r.remnants.length r.cleared.removed

/-- R127: whether the residue is shared: SLAB DONE with a CUT PIECE or MITRE. -/
def sharesOf (ending : Ending) (residue : Nat) (ps : List Placement) : List (Nat × Nat × Nat) :=
  match ending with
  | .finished => residueShares residue ps
  | .scrap => []
  | .brk => []

/-- R130: the shares are charged to their jobs in order. -/
def State.chargeShares (c : Cause) (slab : Nat) (shares : List (Nat × Nat × Nat)) (s : State) : State :=
  shares.foldl (fun s x => s.charge c slab x.1 .material x.2.2) s

/-- R131: the unsettled pieces of a job fall by the number of its placements on the slab. -/
def State.lowerUnsettled (ps : List Placement) (s : State) : State :=
  (participants ps).foldl (fun s j =>
    s.modifyJob j (fun x => { x with unsettled := x.unsettled - ps.countP (fun p => decide (p.job = some j)) })) s

/-- R127, R131: the residue joins the allocated cents in full, and the slab takes its ending's state. -/
def State.closeSlab (slab residue : Nat) (ending : Ending) (s : State) : State :=
  s.modifySlab slab (fun z => { z with allocated := z.allocated + residue, state := ending.state })

/-- Steps 2 to 7 of Table 8-1, of the record `x` of the slab. -/
def State.settle (c : Cause) (ending : Ending) (x : Slab) (s : State) : Settled × State :=
  let q := s.clearPlan x.id
  let e := q.2.enterRemnants x
  let residue := match e.2.slab? x.id with
    | none => 0
    | some z => z.basis - z.allocated
  let ps := e.2.cutPieces x.id
  let shares := sharesOf ending residue ps
  let loss := if shares.isEmpty then residue else 0
  let r : Settled := ⟨x.id, ending, x.basis, residue, shares, e.1, loss, q.1⟩
  (r, ((((e.2.chargeShares c x.id shares).addLoss loss).closeSlab x.id residue ending).lowerUnsettled ps).notify r.notice)

/-- Step 8: the jobs whose unsettled pieces fell are tested in the order of R130 (R131). -/
def State.closeParticipants (ps : List Placement) (s : State) : State := (participants ps).foldl State.closeIfReady s

/-! ## SLAB DONE -/

/-- R122 check 4: the oldest order of the slab, with its saw and state. -/
def flightCheck (s : State) (slab : Nat) : Check :=
  match s.orders.find? (fun o => decide (o.slab = slab)) with
  | none => none
  | some o => some (.inFlight, u8 o.saw ++ u8 (orderStateCode o.state))

/-- R122 checks 3 to 5. -/
def doneCheck (s : State) (ending : Ending) (x : Slab) : Check :=
  (checkThat x.state.isStock .slabState (u8 (slabStateCode x.state))).or
  ((flightCheck s x.id).or
   (checkThat (decide (ending ≠ .finished) || (s.placementsOf x.id).any (fun p => decide (p.state = .cut))) .nothingCut))

/-- The ANSWER of R132: the items of the notice, the shares, the remnants, the loss, the records freed. The jobs stand in
the order in which R130 charges them, the remnants in the order in which R126 enters them (DESIGN CHOICE, log entry 52). -/
def Settled.bytes (r : Settled) : List Byte :=
  noticeBytes r.notice ++ r.shares.flatMap (fun x => u32 x.1 ++ amount x.2.1 ++ amount x.2.2)
    ++ r.remnants.flatMap (fun x => u32 x.1 ++ u32 x.2) ++ amount r.loss ++ count r.cleared.freed

/-- R122 and R123, for both endings of SLAB DONE. -/
def slabDone (src : Nat) (ending : Ending) (slab : Nat) : Block := fun s =>
  if slab = 0 then refuse .form s
  else match s.slab? slab with
    | none => refuse .noSlab s
    | some x => unlessFails (doneCheck s ending x) (fun s =>
        let r := s.settle ⟨src, Kind.slabDone⟩ ending x
        (.answer r.1.bytes, r.2.closeParticipants (r.2.cutPieces x.id))) s

/-- R122, R123: SLAB DONE with ending FINISHED. -/
def execSlabDoneFinished (h : Header) (slab : Nat) (s : State) : Host.Outcome State Fault Refusal :=
  .next (runRow (.slabDoneFinished h slab) h (slabDone h.src .finished slab) s)

/-- R122, R123: SLAB DONE with ending SCRAP. -/
def execSlabDoneScrap (h : Header) (slab : Nat) (s : State) : Host.Outcome State Fault Refusal :=
  .next (runRow (.slabDoneScrap h slab) h (slabDone h.src .scrap slab) s)

end Sys2Proof.Machine
end

