-- ==== Sys2Proof/Machine/Admission.lean ====
section
/-! DEFINITION. Order Admission (Chapter 4): ORDER with its form check and nine admission checks, and WITHDRAW. -/

namespace Sys2Proof.Machine

open Sys2Proof Config

/-! ## The admission checks (Table 4-2) -/

/-- Check 1, of the slab record (R61). -/
def slabCheck (x : Slab) : Check :=
  (checkThat (decide (x.state ≠ .reserved)) .noSlab).or
  ((checkThat x.state.isStock .slabState (u8 (slabStateCode x.state))).or
   (match x.lock with
    | none => none
    | some l => some (.slabLocked, u8 (lockCode l))))

/-- Check 2, of the placement at the index (R61). -/
def placementCheck (job : Option Nat) (p : Placement) : Check :=
  (checkThat (decide (p.state = .planned)) .placementState (opt u8 (some (placementStateCode p.state)))).or
   (checkThat (decide (p.job = job)) .wrongJob (opt u32 p.job))

/-- Check 3 (R62). -/
def jobOpenCheck (s : State) (job : Option Nat) : Check :=
  match job with
  | none => none
  | some j => match s.job? j with
    | none => some (.noJob, [])
    | some x => checkThat (decide (x.state = .opened)) .jobState (u8 (jobStateCode x.state))

/-- Check 4 (R63): the lowest cutout of the piece that is PLANNED or ORDERED. -/
def cutoutsFirstCheck (s : State) (p : Placement) : Check :=
  if p.kind.isPiece then
    match s.lowest p.slab (fun c => decide (c.kind = .cutout) && decide (c.parentIndex = some p.index) && decide (c.state ≠ .cut)) with
    | none => none
    | some i => some (.cutoutsFirst, u8 i)
  else none

/-- The saw's kind set holds a kind: bits 0 to 3 (R167). -/
def SawConfig.cuts (c : SawConfig) (k : PlacementKind) : Bool := c.kinds.getLsbD (kindCode k)

/-- The slab fits the bed as laid, and the thickness maximum (R64 part 4). -/
def SawConfig.fitsSlab (c : SawConfig) (x : Slab) : Bool :=
  decide (x.length ≤ c.bedLength) && decide (x.width ≤ c.bedWidth) && decide (x.thickness ≤ c.maxThickness)

/-- The saw admits a material (R64 part 5). -/
def SawConfig.admits (c : SawConfig) (material : Nat) : Bool := c.materials.isEmpty || c.materials.contains material

/-- The saw has a reported kerf no greater than K (R64 part 6). -/
def Saw.kerfWithin (w : Saw) (k : Nat) : Bool :=
  match w.kerf with
  | none => false
  | some r => decide (r ≤ k)

/-- Check 5, past NOT_SAW (R64). -/
def sawCheck (s : State) (st : Station) (w : Saw) (x : Slab) (p : Placement) : Check :=
  (checkThat (decide (st.state = .attached)) .stationState (u8 (stationStateCode st.state))).or
  ((checkThat (w.config.cuts p.kind) .capability).or
  ((checkThat (w.config.fitsSlab x) .bedSize).or
  ((checkThat (w.config.admits x.material) .material).or
  ((checkThat (w.kerfWithin s.constants.kerf) .kerf (opt u8 w.kerf)).or
   (checkThat (decide (w.blade ≠ .worn)) .bladeWorn)))))

/-- Check 6, the bed (R65): the slab is STAGED on another saw. -/
def stagedCheck (dst : Nat) (x : Slab) : Check :=
  if x.state = .staged then
    match x.bed with
    | none => none
    | some a => checkThat (decide (a = dst)) .stagedElsewhere (u8 a)
  else none

/-- Check 6, the queues (R65): an order of the slab stands on another saw's queue. -/
def splitCheck (s : State) (dst slab : Nat) : Check :=
  match s.orders.find? (fun o => decide (o.slab = slab) && decide (o.saw ≠ dst)) with
  | none => none
  | some o => some (.splitSlab, u8 o.saw)

/-- Check 7 (R66). -/
def waterCheck (s : State) (k : PlacementKind) : Check :=
  (checkThat (decide (s.water.mode ≠ .halt)) .waterHalt).or
   (checkThat (!(decide (k = .cutout) && s.water.mode.limits)) .waterConserve (u8 (modeCode s.water.mode)))

/-- Check 8 (R62). -/
def quoteHoldCheck (s : State) (job : Option Nat) : Check :=
  match job with
  | none => none
  | some j => match s.job? j with
    | none => none
    | some x => checkThat (!(s.groups.quote && x.overQuote && x.hold)) .quote

/-- Checks 5 to 9, in order. -/
def sawChecks (s : State) (dst : Nat) (x : Slab) (p : Placement) : Check :=
  match s.station? dst with
  | none => some (.notSaw, [])
  | some st => match st.saw with
    | none => some (.notSaw, [])
    | some w =>
      (sawCheck s st w x p).or
      ((stagedCheck dst x).or
      ((splitCheck s dst x.id).or
      ((waterCheck s p.kind).or
      ((quoteHoldCheck s p.job).or
       (checkThat (decide (w.queue.length < maxQueue)) .queueFull)))))

/-- The nine admission checks in their order (R60). -/
def admissionCheck (s : State) (dst : Nat) (job : Option Nat) (slab index : Nat) : Check :=
  match s.slab? slab with
  | none => some (.noSlab, [])
  | some x =>
    (slabCheck x).or
    (match s.placement? slab index with
     | none => some (.placementState, opt u8 none)
     | some p =>
       (placementCheck job p).or
       ((jobOpenCheck s p.job).or
       ((cutoutsFirstCheck s p).or
        (sawChecks s dst x p))))

/-! ## Admission (R67, R68) -/

/-- R67. -/
def clampFeed (c : SawConfig) (feed : Nat) : Nat := min c.feedMax (max c.feedMin feed)

/-- An order record as admission creates it (Table 4-1). -/
def newOrder (p : Placement) (saw feed number : Nat) : CutOrder where
  slab := p.slab
  index := p.index
  saw := saw
  job := p.job
  kind := p.kind
  requestedFeed := feed
  deliveredFeed := none
  state := .waiting
  sends := 0
  recycled := 0
  fresh := 0
  number := number
  deliveredKerf := none

/-- One order more for the job an order names (R135). -/
def State.raiseOpenOrder (job : Option Nat) (s : State) : State :=
  match job with
  | none => s
  | some j => s.modifyJob j (fun x => { x with openOrders := x.openOrders + 1 })

/-- R68: the counter, the queue, the placement and the job's count. -/
def State.admitOrder (p : Placement) (saw feed : Nat) (s : State) : State :=
  let n := advance32 s.admissionCounter
  ((({ s with admissionCounter := n }).modifySaw saw
      (fun w => { w with queue := w.queue ++ [newOrder p saw feed n] })).modifyPlacement p.slab p.index
    (fun p => { p with state := .ordered })).raiseOpenOrder p.job

/-- The ANSWER to an admitted ORDER (R68): saw, number, clamped feed, position, orders on the queue. -/
def admitAnswer (saw number feed position : Nat) : List Byte :=
  u8 saw ++ u32 number ++ u16 feed ++ u8 position ++ u8 position

/-- The job an ORDER names: none for 0 (R59). -/
def jobNamed (job : Nat) : Option Nat := if job = 0 then none else some job

/-- R59. -/
def orderForm (slab index feed : Nat) : Bool := decide (slab ≠ 0) && decide (index ≤ 11) && decide (feed ≠ 0)

/-- R55 to R68; `dst` is the ORDER's destination. -/
def order (dst job slab index feed : Nat) : Block := fun s =>
  if orderForm slab index feed = false then refuse .form s
  else unlessFails (admissionCheck s dst (jobNamed job) slab index) (fun s =>
    match s.placement? slab index, s.saw? dst with
    | some p, some w =>
      let f := clampFeed w.config feed
      (.answer (admitAnswer dst (advance32 s.admissionCounter) f (w.queue.length + 1)), (s.admitOrder p dst f).present dst)
    | _, _ => refuse .notSaw s) s

/-- R55 to R68: ORDER. -/
def execOrder (h : Header) (job slab index feed : Nat) (s : State) : Host.Outcome State Fault Refusal :=
  .next (runRow (.order h job slab index feed) h (order h.dst job slab index feed) s)

/-! ## WITHDRAW (R70) -/

/-- R70 check 1. -/
def withdrawSlab (s : State) (slab : Nat) : Check :=
  match s.slab? slab with
  | none => some (.noSlab, [])
  | some x => checkThat (decide (x.state ≠ .reserved)) .noSlab

/-- R70 check 2. -/
def withdrawPlacement (s : State) (slab index : Nat) : Check :=
  match s.placement? slab index with
  | none => some (.placementState, opt u8 none)
  | some p => checkThat (decide (p.state = .ordered)) .placementState (opt u8 (some (placementStateCode p.state)))

/-- R70 check 3. -/
def withdrawOrder (s : State) (slab index : Nat) : Check :=
  match s.order? slab index with
  | none => some (.placementState, opt u8 none)
  | some o => checkThat (decide (o.state = .waiting) || decide (o.state = .inDoubt)) .inFlight (u8 (orderStateCode o.state))

/-- The ANSWER to a WITHDRAW (R70). -/
def withdrawAnswer (o : CutOrder) : List Byte :=
  u8 o.saw ++ u32 o.number ++ u8 (orderStateCode o.state) ++ amount o.recycled ++ amount o.fresh

/-- R70. -/
def withdraw (slab index : Nat) : Block := fun s =>
  if slab = 0 ∨ 11 < index then refuse .form s
  else unlessFails ((withdrawSlab s slab).or ((withdrawPlacement s slab index).or (withdrawOrder s slab index)))
    (fun s => match s.order? slab index with
      | none => refuse .placementState s
      | some o => (.answer (withdrawAnswer o),
          (((s.returnPlacement slab index).removeOrder o.saw o).closeOf o.job).present o.saw)) s

/-- R70: WITHDRAW. -/
def execWithdraw (h : Header) (slab index : Nat) (s : State) : Host.Outcome State Fault Refusal :=
  .next (runRow (.withdraw h slab index) h (withdraw slab index) s)

end Sys2Proof.Machine
end

