-- ==== Sys2Proof/Machine/Delivery.lean ====
section
/-! DEFINITION. Delivery and Cut Reports (Chapter 5), with the saw status and silence of Chapter 3: SAW STATUS, ORDER
ACK, ORDER DECLINE, CUT REPORT, the two timer expiries, delivery evaluation, and the end of a transmission. -/

namespace Sys2Proof.Machine

open Sys2Proof Config

/-! ## SAW STATUS (R51, R89) -/

/-- An indicator byte: OK 00H or LIMIT, HIGH 01H (R168); any other is out of its pair. -/
def decodeIndicator : Nat → Option Bool := decodeFlag

/-- A SAW STATUS past its form check (Table 3-5). -/
structure Status where
  ready : Bool
  wear : Bool
  vibration : Bool
  changed : Bool
  kerf : Nat
  delta : Nat
  deriving DecidableEq, Repr

/-- R51, the form check; flag bytes by R156. -/
def statusForm (ready wear vibration changed kerf delta : Nat) : Option Status :=
  match decodeFlag ready, decodeIndicator wear, decodeIndicator vibration, decodeFlag changed with
  | some r, some w, some v, some c => if inRange 1 10 kerf then some ⟨r, w, v, c, kerf, delta⟩ else none
  | _, _, _, _ => none

/-- R51 steps 1 to 4. -/
def Saw.takeStatus (t : Status) (w : Saw) : Saw :=
  { w with
    bladeSeconds := if t.changed then 0 else w.bladeSeconds
    blade := bladeCondition t.wear t.vibration
    kerf := some t.kerf
    ready := t.ready }

/-- R51 step 6: the ready flag, the blade condition or the reported kerf changed. -/
def Saw.movedBy (t : Status) (w : Saw) : Bool :=
  decide (w.ready ≠ t.ready) || decide (w.blade ≠ bladeCondition t.wear t.vibration) || decide (w.kerf ≠ some t.kerf)

/-- R89: water added to an order, each part saturating at 2^48 - 1. -/
def CutOrder.addWater (recycled fresh : Nat) (o : CutOrder) : CutOrder :=
  { o with recycled := satAdd max48 o.recycled recycled, fresh := satAdd max48 o.fresh fresh }

/-- R89: the parts of a delta go by the saw's active order. -/
def State.attribute (saw : Nat) (active : Option CutOrder) (recycled fresh : Nat) (s : State) : State :=
  match active with
  | none => s.addOverheadWater recycled fresh
  | some o =>
    if o.state = .running then
      let s := s.modifyOrder saw o.slab o.index (CutOrder.addWater recycled fresh)
      if o.kind = .remnant then s.addOverheadWater recycled fresh else s
    else s.addOverheadWater recycled fresh

/-- R51 step 5, R112: the delta is split at the current share and attributed. -/
def State.drawWater (saw : Nat) (active : Option CutOrder) (delta : Nat) (s : State) : State :=
  s.attribute saw active (recycledPart delta s.water.share) (freshPart delta s.water.share)

/-- The ANSWER to a SAW STATUS (R51): blade condition, blade-seconds counter, orders on the queue. -/
def statusAnswer (t : Status) (w : Saw) : List Byte :=
  u8 (bladeCode (w.takeStatus t).blade) ++ u32 (w.takeStatus t).bladeSeconds ++ u8 w.queue.length

/-- R51. -/
def sawStatus (src ready wear vibration changed kerf delta : Nat) : Block := fun s =>
  match statusForm ready wear vibration changed kerf delta, s.saw? src with
  | some t, some w =>
    let s := (s.modifySaw src (Saw.takeStatus t)).drawWater src w.active t.delta
    (.answer (statusAnswer t w), if w.movedBy t then s.present src else s)
  | _, _ => refuse .form s

/-- R50, R51, R89: SAW STATUS. -/
def execSawStatus (h : Header) (ready wear vibration changed kerf delta : Nat) (s : State) :
    Host.Outcome State Fault Refusal :=
  .next (runRow (.sawStatus h ready wear vibration changed kerf delta) h
    (fromAttached h (sawStatus h.src ready wear vibration changed kerf delta)) s)

/-! ## ORDER ACK (R78) -/

/-- The saw's active order, when it is DELIVERED or RUNNING and named by slab and index. -/
def State.heldOrder (s : State) (saw slab index : Nat) : Option CutOrder :=
  match (s.saw? saw).bind Saw.active with
  | none => none
  | some o => if CutOrder.names slab index o && decide (o.state ≠ .inDoubt) then some o else none

/-- R78: the order becomes RUNNING and the acknowledgement timer stops. -/
def State.acknowledge (saw slab index : Nat) (s : State) : State :=
  (s.modifyOrder saw slab index (fun o => { o with state := .running })).modifySaw saw (fun w => { w with ackTimer := none })

/-- R78. -/
def orderAck (src slab index : Nat) : Block := fun s =>
  match s.heldOrder src slab index with
  | none => refuse .placementState s
  | some o => (.answer (u32 o.number ++ u8 (orderStateCode .running)),
      if o.state = .delivered then s.acknowledge src slab index else s)

/-- R50, R78: ORDER ACK. -/
def execOrderAck (h : Header) (slab index : Nat) (s : State) : Host.Outcome State Fault Refusal :=
  .next (runRow (.orderAck h slab index) h (fromAttached h (orderAck h.src slab index)) s)

/-! ## ORDER DECLINE (R82) -/

/-- The recycled and fresh tenths a decline adds to overhead (R82 step 4): a REMNANT's stand there already. -/
def declinedWater (o : CutOrder) : Nat × Nat := if o.kind = .remnant then (0, 0) else (o.recycled, o.fresh)

/-- R82 steps 1 to 6. -/
def State.decline (o : CutOrder) (s : State) : State :=
  let w := declinedWater o
  ((((s.returnPlacement o.slab o.index).removeOrder o.saw o).closeOf o.job).addOverheadWater w.1 w.2).notify
    (.declined o.saw o.slab o.index o.number o.job w.1 w.2)

/-- R82. -/
def orderDecline (src slab index : Nat) : Block := fun s =>
  match s.heldOrder src slab index with
  | none => refuse .placementState s
  | some o => (.answer (u32 o.number), (s.decline o).present src)

/-- R50, R82: ORDER DECLINE. -/
def execOrderDecline (h : Header) (slab index : Nat) (s : State) : Host.Outcome State Fault Refusal :=
  .next (runRow (.orderDecline h slab index) h (fromAttached h (orderDecline h.src slab index)) s)

/-! ## Completion (R87, R88) -/

/-- R88, R135: a DONE cut of a PIECE or MITRE raises the job's pieces cut and unsettled pieces. -/
def State.countPiece (o : CutOrder) (s : State) : State :=
  match o.job with
  | none => s
  | some j =>
    if o.kind.isPiece then
      s.modifyJob j (fun x => { x with piecesCut := satAdd 65535 x.piecesCut 1, unsettled := x.unsettled + 1 })
    else s

/-- R88: the placement of a completed order takes the state of its outcome; a CUT one sets the slab's cut mark (R20). -/
def State.placeOutcome (o : CutOrder) (outcome : Outcome3) (s : State) : State :=
  match outcome with
  | .done => ((s.modifyPlacement o.slab o.index (fun p => { p with state := .cut })).modifySlab o.slab
      (fun x => { x with cutMark := true })).countPiece o
  | .abandoned => s.returnPlacement o.slab o.index
  | .broke => s.returnPlacement o.slab o.index

/-- R125: one sibling order of a broken slab is removed, and its return is told. -/
def State.returnSibling (s : State) (o : CutOrder) : State :=
  ((s.returnPlacement o.slab o.index).removeOrder o.saw o).notify
    (.orderReturned o.saw o.slab o.index o.number o.job .brk)

/-- The orders of a slab on a saw's queue, in admission order. -/
def State.ordersOn (s : State) (saw slab : Nat) : List CutOrder :=
  match s.saw? saw with
  | none => []
  | some w => w.queue.filter (fun o => decide (o.slab = slab))

/-- STOCK/BROKEN (R88, Table 10-1). -/
def brokenFault (o : CutOrder) : FaultRecord :=
  ⟨.stockBroken, o.saw, some Kind.cutReport, some o.slab, o.job, some (.placement o.index)⟩

/-- R87 step 6 and R125: STOCK/BROKEN is recorded, the slab's other orders are removed, and the slab is settled (DEDUCED, log entry 27). -/
def State.breakSlab (c : Cause) (o : CutOrder) (s : State) : State :=
  let s := s.raise (brokenFault o)
  let s := (s.ordersOn o.saw o.slab).foldl State.returnSibling s
  match s.slab? o.slab with
  | none => s
  | some x => (s.settle c .brk x).2

/-- R53: a completion adds its blade-seconds to the saw's counter. -/
def Saw.addSeconds (n : Nat) (w : Saw) : Saw := { w with bladeSeconds := satAdd max32 w.bladeSeconds n }

/-- R87 steps 1 to 7, for a report or an abandonment; the account is that of step 2. The presentation of step 8 is
its caller's. -/
def State.complete (c : Cause) (w : SawConfig) (o : CutOrder) (outcome : Outcome3) (seconds : Nat) (s : State) :
    Account × State :=
  let q := (s.modifySaw o.saw (Saw.addSeconds seconds)).completionCharges c w o outcome seconds
  let s := (q.2.placeOutcome o outcome).removeOrder o.saw o
  (q.1, match outcome with
    | .done => s.closeOf o.job
    | .abandoned => s.closeOf o.job
    | .broke => (s.breakSlab c o).closeAllReady)

/-! ## CUT REPORT (R85, R86) -/

/-- R86: the last-delivered order of a SILENT saw, still WAITING, named by slab and index. -/
def raceOrder (st : Station) (w : Saw) (slab index : Nat) : Option CutOrder :=
  if st.state = .silent ∧ w.lastDelivered = some (slab, index) then
    match w.queue.find? (CutOrder.names slab index) with
    | none => none
    | some o => if o.state = .waiting then some o else none
  else none

/-- R86: the saw returns to ATTACHED with its silence timer restarted; its own fields stay as the silence left them. -/
def State.reattach (a : Nat) (s : State) : State :=
  s.modifyStation a (fun st => { st with state := .attached, silence := some silenceMs })

/-- STATION/STRAY_REPORT (R84, R85, Table 10-1). -/
def strayFault (saw kind slab index : Nat) : FaultRecord :=
  ⟨.stationStrayReport, saw, some kind, some slab, none, some (.placement index)⟩

/-- The ANSWER to an honoured report (R85, R121). -/
def reportAnswer (o : CutOrder) (outcome : Outcome3) (a : Account) : List Byte :=
  u32 o.number ++ u8 (outcomeCode outcome) ++ a.bytes

/-- An honoured report completes its order (R87). -/
def honour (src : Nat) (w : Saw) (o : CutOrder) (outcome : Outcome3) (seconds : Nat) (s : State) : Reply × State :=
  let q := s.complete ⟨src, Kind.cutReport⟩ w.config o outcome seconds
  (.answer (reportAnswer o outcome q.1), q.2.present src)

/-- R85: a stray report is discarded and recorded. -/
def stray (src slab index : Nat) (s : State) : Reply × State :=
  refuse .placementState (s.raise (strayFault src Kind.cutReport slab index))

/-- R85 and R86 (DEDUCED, log entry 28). -/
def cutReport (src slab index outcome seconds : Nat) : Block := fun s =>
  match decodeOutcome outcome with
  | none => refuse .form s
  | some oc =>
    if slab = 0 ∨ 11 < index then refuse .form s
    else match s.heldOrder src slab index, s.station? src, s.saw? src with
      | some o, _, some w => honour src w o oc seconds s
      | none, some st, some w => match raceOrder st w slab index with
        | some o => honour src w o oc seconds (s.reattach src)
        | none => stray src slab index s
      | _, _, _ => stray src slab index s

/-- R85 to R88: CUT REPORT. -/
def execCutReport (h : Header) (slab index outcome bladeSeconds : Nat) (s : State) :
    Host.Outcome State Fault Refusal :=
  .next (runRow (.cutReport h slab index outcome bladeSeconds) h (cutReport h.src slab index outcome bladeSeconds) s)

/-! ## Silence (R49, R83) -/

/-- An order returned to WAITING (R80, R83): sends 0, no delivered feed. -/
def CutOrder.toWaiting (o : CutOrder) : CutOrder :=
  { o with state := .waiting, sends := 0, deliveredFeed := none, deliveredKerf := none }

/-- R83: what a saw's silence makes of one order. -/
def CutOrder.silenced (o : CutOrder) : CutOrder :=
  match o.state with
  | .waiting => o
  | .delivered => o.toWaiting
  | .running => { o with state := .inDoubt }
  | .inDoubt => o

/-- R83: the saw's queue and its acknowledgement timer at its silence. -/
def Saw.silenceOrders (w : Saw) : Saw := { w with queue := w.queue.map CutOrder.silenced, ackTimer := none }

/-- STATION/SILENCE (R49), with PLANT_SILENT for the recycler. -/
def silenceFault (st : Station) : FaultRecord :=
  ⟨.stationSilence, st.address, none, none, none, if st.cls = .recycler then some .plantSilent else none⟩

/-- R49, R83, R102: the silence of an ATTACHED station whose timer runs. -/
def State.silence (st : Station) (s : State) : State :=
  let s := (s.modifyStation st.address Station.silenced).raise (silenceFault st)
  match st.cls with
  | .recycler => s.plantLost
  | .bridgeSaw => (s.modifySaw st.address Saw.silenceOrders).present st.address
  | .waterjet => (s.modifySaw st.address Saw.silenceOrders).present st.address
  | .planning => s
  | .supervisor => s
  | .panel => s
  | .scanner => s

/-- R49. The expiry is an ATTACHED station's whose timer has no milliseconds left: an arrival taken first restarts the
timer, and no silence follows (R48; DEDUCED, log entry 14). -/
def silenceExpiry (address : Nat) (s : State) : State :=
  match s.station? address with
  | none => s
  | some st => if st.state = .attached ∧ st.silence = some 0 then (s.silence st).flush else s

/-- R49, R83, R102: expiry of a silence timer. -/
def execSilenceTimerExpiry (address : Nat) (s : State) : Host.Outcome State Fault Refusal :=
  .next (silenceExpiry address s)

/-! ## Acknowledgement (R79, R80) -/

/-- The delivered ORDER of an order on its saw's queue, with the fields of its first send (R77, R79). -/
def State.orderTelegram? (s : State) (o : CutOrder) : Option Telegram :=
  match s.placement? o.slab o.index, o.deliveredKerf, o.deliveredFeed with
  | some p, some k, some f => some (orderTelegram s.address o.saw o p.rect k f)
  | _, _, _ => none

/-- Produces a telegram on side B, where there is one. -/
def State.produceB (t : Option Telegram) (s : State) : State :=
  match t with
  | none => s
  | some t => s.produce .b t

/-- R79: the telegram is sent again, sends rises and the timer restarts. -/
def State.resend (o : CutOrder) (s : State) : State :=
  ((s.modifyOrder o.saw o.slab o.index (fun x => { x with sends := x.sends + 1 })).modifySaw o.saw
    (fun w => { w with ackTimer := some ackMs })).produceB (s.orderTelegram? o)

/-- DELIVERY/NO_ANSWER (R80, Table 10-1). -/
def noAnswerFault (o : CutOrder) : FaultRecord :=
  ⟨.deliveryNoAnswer, o.saw, some Kind.order, some o.slab, o.job, some (.placementAndNumber o.index o.number)⟩

/-- R80: the delivery ends; the saw is SILENT and its order WAITING. -/
def State.endDelivery (o : CutOrder) (s : State) : State :=
  ((((s.modifyStation o.saw Station.silenced).modifyOrder o.saw o.slab o.index CutOrder.toWaiting).modifySaw o.saw
    (fun w => { w with ackTimer := none })).raise (noAnswerFault o)).notify
      (.orderReturned o.saw o.slab o.index o.number o.job .noAnswer)

/-- The saw's DELIVERED order whose acknowledgement timer has no milliseconds left (DEDUCED, log entry 14). -/
def Saw.unanswered (w : Saw) : Option CutOrder :=
  match w.ackTimer, w.active with
  | some 0, some o => if o.state = .delivered then some o else none
  | _, _ => none

/-- R79, R80. -/
def ackExpiry (saw : Nat) (s : State) : State :=
  match (s.saw? saw).bind Saw.unanswered with
  | none => s
  | some o => if o.sends < maxSends then (s.resend o).flush else ((s.endDelivery o).present saw).flush

/-- R79, R80: expiry of an acknowledgement timer. -/
def execAckTimerExpiry (saw : Nat) (s : State) : Host.Outcome State Fault Refusal :=
  .next (ackExpiry saw s)

/-! ## Delivery evaluation (R75 to R77) -/

/-- R75, its four gates. -/
def gatesOpen (line : LineState) (st : Station) (w : Saw) : Bool :=
  decide (line = .run) && decide (st.state = .attached) && w.ready && w.active.isNone

/-- R76, the bed test: the slab is STAGED on this saw. -/
def Slab.onBed (saw : Nat) (x : Slab) : Bool := decide (x.state = .staged) && decide (x.bed = some saw)

/-- R76, the water tests of an order of a kind. -/
def waterPasses (m : WaterMode) (k : PlacementKind) : Bool :=
  decide (m ≠ .halt) && !(decide (k = .cutout) && m.limits)

/-- R76, the blade tests of an order of a kind. -/
def bladePasses (b : Blade) (k : PlacementKind) : Bool :=
  match b with
  | .unknown => false
  | .good => true
  | .weak => decide (k ≠ .mitre)
  | .worn => false

/-- R76: a WAITING order passes every test. -/
def State.deliverable (s : State) (saw : Nat) (w : Saw) (o : CutOrder) : Bool :=
  decide (o.state = .waiting)
    && (match s.slab? o.slab with
        | none => false
        | some x => x.onBed saw && x.lock.isNone)
    && waterPasses s.water.mode o.kind && bladePasses w.blade o.kind

/-- R75, R76: the order an evaluation delivers, if any. -/
def State.nextDelivery (s : State) (saw : Nat) : Option CutOrder :=
  match s.station? saw with
  | none => none
  | some st => match st.saw with
    | none => none
    | some w => if gatesOpen s.line st w then w.queue.find? (s.deliverable saw w) else none

/-- R77 step 2. -/
def CutOrder.delivered (feed kerf : Nat) (o : CutOrder) : CutOrder :=
  { o with state := .delivered, sends := 1, deliveredFeed := some feed, deliveredKerf := some kerf }

/-- R77 steps 3 and 5. -/
def Saw.noteDelivery (slab index : Nat) (w : Saw) : Saw :=
  { w with
    lastDelivered := some (slab, index)
    ackTimer := if w.config.patient then none else some ackMs }

/-- R77. -/
def State.deliver (saw : Nat) (o : CutOrder) (s : State) : State :=
  let feed := deliveredFeedUnder s.water.mode o.requestedFeed s.constants.conserveFeed
  let k := s.constants.kerf
  ((s.modifyOrder saw o.slab o.index (CutOrder.delivered feed k)).modifySaw saw (Saw.noteDelivery o.slab o.index)).produceB
    (s.orderTelegram? { o.delivered feed k with saw := saw })

/-- R71, R100: the saw is presented, and no saw of a lower address that has an entry and was presented before it still
waits for its evaluation (DESIGN CHOICE, log entry 13). -/
def State.isTurnOf (s : State) (saw : Nat) : Bool :=
  s.presented.contains saw
    && (s.presented.takeWhile (fun a => decide (a ≠ saw))).all (fun a => decide (saw < a) || (s.saw? a).isNone)

/-- R74 to R77: one presentation of the saw is evaluated, in its turn. Out of its turn, and of a saw that is not
presented, nothing is evaluated (DESIGN CHOICE, log entry 13). -/
def evaluate (saw : Nat) (s : State) : State :=
  if s.isTurnOf saw then
    let s := { s with presented := s.presented.erase saw }
    match s.nextDelivery saw with
    | none => s
    | some o => (s.deliver saw o).flush
  else s

/-- R74 to R77: delivery evaluation of a presented saw. -/
def execDeliveryEvaluation (saw : Nat) (s : State) : Host.Outcome State Fault Refusal :=
  .next (evaluate saw s)

/-! ## End of a transmission (R155) -/

/-- R155: the telegram in transmission is gone, and the oldest waiting one is sent. -/
def Transmitter.advance (x : Transmitter) : Transmitter :=
  match x.waiting with
  | [] => ⟨none, []⟩
  | t :: ts => ⟨some t, ts⟩

/-- R155: a segment's transmitter finishes its telegram; an idle transmitter has none to finish. -/
def transmitDone (side : Side) (s : State) : State :=
  match (s.tx side).sending with
  | none => s
  | some _ => s.setTx side (s.tx side).advance

/-- R155: end of a transmission. -/
def execTransmitComplete (side : Side) (s : State) : Host.Outcome State Fault Refusal :=
  .next (transmitDone side s)

end Sys2Proof.Machine
end

