-- ==== Sys2Proof/Machine/Attach.lean ====
section
/-! DEFINITION. Attach by announce (R45 to R47) and the resolution of orders in doubt (R84). -/

namespace Sys2Proof.Machine

open Sys2Proof Config

/-! ## Orders in doubt (R84) -/

/-- The saw's IN_DOUBT order. -/
def Saw.inDoubt (w : Saw) : Option CutOrder := w.queue.find? (fun o => decide (o.state = .inDoubt))

/-- The saw's last-delivered order, while it is WAITING. -/
def Saw.lastWaiting (w : Saw) : Option CutOrder :=
  match w.lastDelivered with
  | none => none
  | some n => match w.queue.find? (CutOrder.names n.1 n.2) with
    | none => none
    | some o => if o.state = .waiting then some o else none

/-- R84: an order becomes RUNNING by the announce. -/
def State.resume (saw : Nat) (o : CutOrder) (s : State) : State :=
  s.modifyOrder saw o.slab o.index (fun x => { x with state := .running })

/-- R84: an order is abandoned, as if reported ABANDONED with 0 blade-seconds (DEDUCED, log entry 49). -/
def State.abandon (saw : Nat) (w : Saw) (o : CutOrder) (s : State) : State :=
  (s.complete ⟨saw, Kind.announce⟩ w.config o .abandoned 0).2

/-- R84: the announce's current work against the saw's orders. -/
def State.resolveDoubt (saw : Nat) (work : Option (Nat × Nat)) (s : State) : State :=
  match s.saw? saw with
  | none => s
  | some w => match w.inDoubt, work with
    | some o, none => s.abandon saw w o
    | some o, some n =>
      if CutOrder.names n.1 n.2 o then s.resume saw o
      else (s.raise (strayFault saw Kind.announce n.1 n.2)).abandon saw w o
    | none, none => s
    | none, some n => match w.lastWaiting with
      | none => s.raise (strayFault saw Kind.announce n.1 n.2)
      | some o =>
        if CutOrder.names n.1 n.2 o then s.resume saw o else s.raise (strayFault saw Kind.announce n.1 n.2)

/-! ## Attach (R46, R47) -/

/-- What an attach does beyond the station's own state, by its class (R46). -/
def State.onAttach (st : Station) (work : Option (Nat × Nat)) (s : State) : State :=
  match st.cls with
  | .bridgeSaw => (s.resolveDoubt st.address work).present st.address
  | .waterjet => (s.resolveDoubt st.address work).present st.address
  | .recycler => s.queueValve s.water.mode
  | .planning => s
  | .supervisor => s
  | .panel => s
  | .scanner => s

/-- R46: the station becomes ATTACHED with its silence timer at its full 10 seconds. -/
def State.attach (a : Nat) (s : State) : State :=
  s.modifyStation a (fun st => { st with state := .attached, silence := some silenceMs })

/-- The ANSWER of R46: the entry's class and tier, and the state ATTACHED. -/
def attachAnswer (st : Station) : List Byte :=
  u8 (classCode st.cls) ++ u8 st.tier ++ u8 (stationStateCode .attached)

/-- R46 and R47, for a matched announce from the entry `st`. -/
def announce (st : Station) (work : Option (Nat × Nat)) : Block := fun s =>
  (.answer (attachAnswer st),
    if st.state = .attached then s else (s.attach st.address).onAttach st work)

/-! ## Matching (R45) -/

/-- STATION/MISMATCH (R45, Table 10-1). -/
def mismatchFault (st : Station) : FaultRecord :=
  ⟨.stationMismatch, st.address, some Kind.announce, none, none, some (.classAndSide st.cls st.side)⟩

/-- R45: the entry differs from the announce in its side, or in its class where the announce carries one. A class byte
that is no class's code differs from every class (DEDUCED, log entry 19). -/
def Station.differs (st : Station) (side : Side) (cls : Option Nat) : Bool :=
  decide (st.side ≠ side) || (match cls with
    | none => false
    | some c => decide (classCode st.cls ≠ c))

/-- The announce names current work from a class that has none. -/
def strangeWork (st : Station) (work : Option (Option (Nat × Nat))) : Bool :=
  match work with
  | some (some _) => !st.cls.isSaw
  | some none => false
  | none => false

/-- An announce refused by R45 itself: replied to, and re-sent on side A where its rule says so (R161) (DEDUCED, log entry 19). -/
def State.refuseAnnounce (side : Side) (t : Telegram) (b : Block) (s : State) : State :=
  let copy := match s.kindRule? t.kind with
    | none => false
    | some r => decide (r.disposition = .handleForward) && decide (side = .b)
  s.passGate (.handled copy) side t (fun s => conclude (t.header side) t.kind (b s))

/-- The handling of a matched announce: its payload's form is checked here (R168). -/
def announceBlock (st : Station) (work : Option (Option (Nat × Nat))) : Block :=
  match work with
  | none => refuse .form
  | some w => announce st w

/-- R45, R158, R160: an announce is matched, and then taken through its kind rule. `cls` is the class byte carried,
`work` the current work, none where the payload's length or codes are bad. -/
def State.arriveAnnounce (side : Side) (t : Telegram) (cls : Option Nat) (work : Option (Option (Nat × Nat)))
    (s : State) : State :=
  if s.inReset then s
  else if s.badSource t.src then (s.raise (arrivalFault .stationUnknownSource side t)).flush
  else match s.station? t.src with
    | none => (s.raise (arrivalFault .stationUnknownSource side t)).flush
    | some st =>
      if st.differs side cls then
        s.refuseAnnounce side t (fun s => refuse .mismatch (s.raise (mismatchFault st)))
      else if strangeWork st work then s.refuseAnnounce side t (refuse .form)
      else
        let s := s.restartSilence t.src
        s.passGate (s.gate side t st.cls st.tier) side t
          (fun s => conclude (t.header side) t.kind (announceBlock st work s))

/-- R45 to R47, R84: ANNOUNCE. -/
def execAnnounce (h : Header) (cls : Nat) (work : Option (Nat × Nat)) (s : State) :
    Host.Outcome State Fault Refusal :=
  .next (s.arriveAnnounce h.side ((Instr.announce h cls work).telegram h) (some cls) (some work))

end Sys2Proof.Machine
end

