-- ==== Sys2Proof/Machine/Loads.lean ====
section
/-! DEFINITION. The loads of the Link Bridge and of the Fault Record: LOAD RULE (R163, R164), LOAD GROUP (R165), LOAD
CONSTANTS (R21) and LOAD NOTICES (R150). -/

namespace Sys2Proof.Machine

open Sys2Proof Config

/-! ## LOAD RULE -/

/-- The shop-defined codes 30H to 37H. -/
def isShopDefined (code : Nat) : Bool := inRange 0x30 0x37 code

/-- R163 check 1; a class set is one bit for each of seven classes (R167) (DEDUCED, log entry 30). -/
def ruleForm (code disposition tier classSet : Nat) : Option Disposition :=
  match decodeDisposition disposition with
  | none => none
  | some d => if decide (code ≤ 63) && decide (tier ≤ 3) && inRange 1 127 classSet then some d else none

/-- R164: the seven kinds that may move between HANDLE and HANDLE+FORWARD. -/
def mayForward (code : Nat) : Bool :=
  decide (code = Kind.announce) || decide (code = Kind.sawStatus) || decide (code = Kind.orderAck)
    || decide (code = Kind.orderDecline) || decide (code = Kind.cutReport) || decide (code = Kind.scan)
    || decide (code = Kind.waterSample)

/-- HANDLE or HANDLE+FORWARD. -/
def Disposition.isHandle : Disposition → Bool
  | .forward => false
  | .handle => true
  | .handleForward => true
  | .drop => false

/-- R164, the disposition of a built-in rule after a load. -/
def dispositionFits (code : Nat) (old new : Disposition) : Bool :=
  decide (new = old) || (mayForward code && old.isHandle && new.isHandle)

/-- R164, the tests of tightening: the tier does not rise, the class set is a subset. -/
def tightens (r : KindRule) (tier : Nat) (classes : Byte) : Bool :=
  decide (tier ≤ r.maxTier) && decide (classes &&& r.classes = classes)

/-- R164 (DEDUCED, log entry 17). -/
def ruleCheck (code : Nat) (r : KindRule) (d : Disposition) (tier : Nat) (classes : Byte) : Check :=
  if isShopDefined code then checkThat (decide (d = .forward) || decide (d = .drop)) .form
  else
    (checkThat (tightens r tier classes) .loosen).or
    ((checkThat (dispositionFits code r.disposition d) .loosen).or
     (checkThat (!decide (code = Kind.load) || classes.getLsbD (classCode .supervisor)) .inUse))

/-- A kind rule's four fields, as an ANSWER carries them. -/
def ruleBytes (r : KindRule) : List Byte :=
  u8 (dispositionCode r.disposition) ++ u8 r.maxTier ++ [r.classes] ++ code (groupCode r.group)

/-- R163: the rule's disposition, tier and class set are replaced; its group is not. -/
def State.setRule (code : Nat) (d : Disposition) (tier : Nat) (classes : Byte) (s : State) : State :=
  { s with
    kindRules := s.kindRules.modify code
      (fun r => r.map (fun r => { r with disposition := d, maxTier := tier, classes := classes })) }

/-- R163, R164. -/
def loadRule (code disposition tier classSet : Nat) : Block := fun s =>
  match ruleForm code disposition tier classSet with
  | none => refuse .form s
  | some d => match s.kindRule? code with
    | none => refuse .form s
    | some r => unlessFails (ruleCheck code r d tier (BitVec.ofNat 8 classSet))
        (fun s => (.answer (ruleBytes r), s.setRule code d tier (BitVec.ofNat 8 classSet))) s

/-- R163, R164: LOAD RULE. -/
def execLoadRule (h : Header) (code disposition tier classSet : Nat) (s : State) :
    Host.Outcome State Fault Refusal :=
  .next (runRow (.loadRule h code disposition tier classSet) h (loadRule code disposition tier classSet) s)

/-! ## LOAD GROUP -/

/-- The four enables of a byte (R167). -/
def groupsOf (enables : Nat) : Groups :=
  ⟨enables.testBit 0, enables.testBit 1, enables.testBit 2, enables.testBit 3⟩

/-- A placement of the kind exists in the pool (R165). -/
def State.hasKind (s : State) (k : PlacementKind) : Bool := s.placements.any (fun p => decide (p.kind = k))

/-- R165: the first group whose disable is refused, in the order REMNANT, MITRE, CUTOUT, QUOTE (DEDUCED, log entry 16). -/
def groupCheck (s : State) (g : Groups) : Check :=
  (checkThat (g.remnant || !s.hasKind .remnant) .inUse (code .groupRemnant)).or
  ((checkThat (g.mitre || !s.hasKind .mitre) .inUse (code .groupMitre)).or
  ((checkThat (g.cutout || !s.hasKind .cutout) .inUse (code .groupCutout)).or
   (checkThat (g.quote || !s.jobs.any (fun j => j.limit.isSome)) .inUse (code .groupQuote))))

/-- R165; a bit above the four members is a FORM error (R167). -/
def loadGroup (enables : Nat) : Block := fun s =>
  if 15 < enables then refuse .form s
  else unlessFails (groupCheck s (groupsOf enables))
    (fun s => (.answer (u8 (groupByte s.groups)), { s with groups := groupsOf enables })) s

/-- R165: LOAD GROUP. -/
def execLoadGroup (h : Header) (enables : Nat) (s : State) : Host.Outcome State Fault Refusal :=
  .next (runRow (.loadGroup h enables) h (loadGroup enables) s)

/-! ## LOAD CONSTANTS -/

/-- The ranges of Table 2-3. -/
def constantsForm (kerf margin remnantMin conserveFeed : Nat) : Bool :=
  inRange 1 10 kerf && inRange 0 60 margin && inRange 100 600 remnantMin && inRange 100 3000 conserveFeed

/-- The four constants, as an ANSWER carries them. -/
def constantBytes (c : Constants) : List Byte :=
  u8 c.kerf ++ u8 c.margin ++ u16 c.remnantMin ++ u16 c.conserveFeed

/-- R21. -/
def loadConstants (kerf margin remnantMin conserveFeed : Nat) : Block := fun s =>
  if constantsForm kerf margin remnantMin conserveFeed = false then refuse .form s
  else (.answer (constantBytes s.constants), { s with constants := ⟨kerf, margin, remnantMin, conserveFeed⟩ })

/-- R21: LOAD CONSTANTS. -/
def execLoadConstants (h : Header) (kerf margin remnantMin conserveFeed : Nat) (s : State) :
    Host.Outcome State Fault Refusal :=
  .next (runRow (.loadConstants h kerf margin remnantMin conserveFeed) h
    (loadConstants kerf margin remnantMin conserveFeed) s)

/-! ## LOAD NOTICES -/

/-- R150 check 1; mask bits 0 to 5 and enable bits 0 to 6 (R167). -/
def noticesForm (s : State) (station mask enables : Nat) : Bool :=
  decide (station ≤ 30) && decide (station ≠ s.address) && decide (mask ≤ 63) && decide (enables ≤ 127)

/-- R150. -/
def loadNotices (station mask enables : Nat) : Block := fun s =>
  if noticesForm s station mask enables = false then refuse .form s
  else if station ≠ 0 ∧ s.station? station = none then refuse .stationState s
  else (.answer (u8 s.faults.station ++ [s.faults.mask] ++ [s.faults.enables]),
    { s with faults := { s.faults with
        station := station, mask := BitVec.ofNat 8 mask, enables := BitVec.ofNat 8 enables } })

/-- R150: LOAD NOTICES. -/
def execLoadNotices (h : Header) (station mask enables : Nat) (s : State) : Host.Outcome State Fault Refusal :=
  .next (runRow (.loadNotices h station mask enables) h (loadNotices station mask enables) s)

end Sys2Proof.Machine
end

