-- ==== Sys2Proof/Machine/Faults.lean ====
section
/-! DEFINITION. The Fault Record's own request (Chapter 10): CLEAR FAULT. -/

namespace Sys2Proof.Machine

open Sys2Proof Config

/-- R147: the record, the more-faults flag and the count, as an ANSWER carries them. -/
def faultBlockBytes (f : FaultBlock) : List Byte := opt faultAnswerBytes f.record ++ flag f.moreFaults ++ count f.count

/-- R147 steps 2 to 4. -/
def FaultBlock.cleared (f : FaultBlock) : FaultBlock := { f with record := none, moreFaults := false, count := 0 }

/-- R147. -/
def clearFault : Block := fun s => (.answer (faultBlockBytes s.faults), { s with faults := s.faults.cleared })

/-- R147: CLEAR FAULT. -/
def execClearFault (h : Header) (s : State) : Host.Outcome State Fault Refusal :=
  .next (runRow (.clearFault h) h clearFault s)

end Sys2Proof.Machine
end

