-- ==== Sys2Proof/Machine/Reset.lean ====
section
/-! DEFINITION. The resets: the assertion and release of RESET with and without KEEP (R169 to R172), the standby
supply, LINE RESET (R72, R73), and RELEASE LINE (R71). -/

namespace Sys2Proof.Machine

open Sys2Proof Config

/-! ## Shedding and suspension (R73) -/

/-- R73: a WAITING order leaves its queue; its placement returns. -/
def State.shedOrder (s : State) (o : CutOrder) : State := (s.returnPlacement o.slab o.index).removeOrder o.saw o

/-- The WAITING orders of every queue. -/
def State.waitingOrders (s : State) : List CutOrder := s.orders.filter (fun o => decide (o.state = .waiting))

/-- R73: every WAITING order is shed. -/
def State.shed (s : State) : State := s.waitingOrders.foldl State.shedOrder s

/-- R73: a DELIVERED or RUNNING order becomes IN_DOUBT; sends, delivered feed and tenths are kept. -/
def CutOrder.suspended (o : CutOrder) : CutOrder :=
  match o.state with
  | .waiting => o
  | .delivered => { o with state := .inDoubt }
  | .running => { o with state := .inDoubt }
  | .inDoubt => o

/-- R73: the saw's active order, its acknowledgement timer and its last-delivered record. -/
def Saw.suspended (w : Saw) : Saw :=
  { w with queue := w.queue.map CutOrder.suspended, lastDelivered := none, ackTimer := none }

/-- R44, R73: a station is ABSENT with its timer stopped, and a saw's ready flag, blade and kerf go. -/
def Station.restarted (st : Station) : Station :=
  { st with state := .absent, silence := none, saw := st.saw.map (fun w => w.suspended.quiet) }

/-- R44, R73, of every entry. -/
def State.restartStations (s : State) : State := { s with stations := s.stations.map Station.restarted }

/-- R73, with the closings of R141: shedding, suspension, and the jobs the shedding closes. -/
def State.restartFloor (s : State) : State := s.shed.closeAllReady.restartStations

/-! ## Water (R108) -/

/-- Table 6-4, the columns of KEEP and LINE RESET. -/
def Water.restarted (w : Water) : Water :=
  { w.abortWindow with
    rules := w.rules.map (fun r => { r with state := .clear })
    mode := .unsure
    lastSequence := none }

/-! ## LINE RESET -/

/-- R100: a LINE RESET that moves the mode tells it. -/
def State.tellLineReset (before : WaterMode) (moved : List (Nat × Bool)) (s : State) : State :=
  if before = .unsure then s else s.notify (.waterMode before .unsure .lineReset moved)

/-- R72, steps 1 to 4 (DESIGN CHOICE, log entry 18). -/
def State.lineRestart (s : State) : State :=
  let t := s.restartFloor
  let w := s.water.restarted
  ({ t with water := w, line := .held }).tellLineReset s.water.mode (movedRules s.water.rules w.rules)

/-- R72: the ANSWER returns the WAITING orders shed and the orders now IN_DOUBT. -/
def lineReset : Block := fun s =>
  let t := s.lineRestart
  (.answer (count s.waitingOrders.length ++ count (t.orders.countP (fun o => decide (o.state = .inDoubt)))), t)

/-- R72, R73: LINE RESET. -/
def execLineReset (h : Header) (s : State) : Host.Outcome State Fault Refusal :=
  .next (runRow (.lineReset h) h lineReset s)

/-! ## RELEASE LINE -/

/-- R71: from HELD, the line becomes RUN and every saw is presented. -/
def releaseLine : Block := fun s =>
  (.answer (u8 (lineCode s.line)), if s.line = .held then ({ s with line := .run }).presentAll else s)

/-- R71: RELEASE LINE. -/
def execReleaseLine (h : Header) (s : State) : Host.Outcome State Fault Refusal :=
  .next (runRow (.releaseLine h) h releaseLine s)

/-! ## RESET asserted (R170, R172) -/

def Saw.stopTimer (w : Saw) : Saw := { w with ackTimer := none }
def Station.stopTimers (st : Station) : Station := { st with silence := none, saw := st.saw.map Saw.stopTimer }

/-- R170, R172: the transmitters are emptied, every timer stops, no arrival is taken, and no event is pending. -/
def State.assertReset (s : State) : State :=
  { s with
    inReset := true
    txA := idleTransmitter
    txB := idleTransmitter
    stations := s.stations.map Station.stopTimers
    presented := []
    outbox := [] }

/-- R170, R172: RESET is asserted. -/
def execColdResetAssert (s : State) : Host.Outcome State Fault Refusal := .next s.assertReset

/-! ## RESET released (R169, R170, R171) -/

/-- R169: the address of five straps; 0 and 31 are taken as 30. -/
def strapAddress (straps : Nat) : Nat := if straps % 32 = 0 ∨ straps % 32 = 31 then 30 else straps % 32

/-- A cold reset with KEEP asserted and the retained set trusted: the retained set is held and every block takes the
values its chapter gives (R44, R57, R71 to R73, R108, R134, R149, R165, R169, R171, R172). -/
def State.keepReset (s : State) : State :=
  let t := s.restartFloor
  { t with
    inReset := false
    standbyLost := false
    resetReport := .withKeep
    line := .held
    water := s.water.restarted
    faults := { t.faults with counter := 0 }
    txA := idleTransmitter
    txB := idleTransmitter
    presented := []
    outbox := [] }

/-- A cold reset without KEEP, or with KEEP refused: every block takes its values, and the straps are latched. The
queue of commands is the model's and is kept. -/
def State.plainReset (straps : Nat) (report : ResetReport) (s : State) : State :=
  { State.reset with pending := s.pending, address := strapAddress straps, resetReport := report }

/-- R170, R171: KEEP counts when the standby supply has held (DESIGN CHOICE, log entry 15). -/
def State.releaseReset (keep : Bool) (straps : Nat) (s : State) : State :=
  if keep then (if s.standbyLost then s.plainReset straps .keepRefused else s.keepReset)
  else s.plainReset straps .withoutKeep

/-- R169 to R171: RESET is released. -/
def execColdResetRelease (keep : Bool) (straps : Nat) (s : State) : Host.Outcome State Fault Refusal :=
  .next (s.releaseReset keep straps)

/-! ## The standby supply (R170) -/

/-- R170: the standby supply falls below its retention level. -/
def execStandbyRetentionLoss (s : State) : Host.Outcome State Fault Refusal := .next { s with standbyLost := true }

end Sys2Proof.Machine
end

