-- ==== Sys2Proof/Machine/Queries.lean ====
section
/-! DEFINITION. The sixteen forms of QUERY (R18, R37, R54, R109, R119, R144, R145, R148, R166): each reads and changes
nothing. The layouts of their ANSWERs follow R168 and log entries 3, 4 and 8 (DESIGN CHOICE) and 6 (DEDUCED). -/

namespace Sys2Proof.Machine

open Sys2Proof Config

/-- A query's reply: what was found, or the reason it was not. -/
def answerOr (r : Reason) (o : Option (List Byte)) : Reply :=
  match o with
  | none => .reject r []
  | some p => .answer p

/-- A request that reads and changes nothing. -/
def reading (f : State → Reply) : Block := fun s => (f s, s)

/-! ## QUERY SLAB (R18) -/

/-- Every field of Table 1-1 with the number of defects in place of the rectangles. -/
def slabBytes (x : Slab) : List Byte :=
  u32 x.id ++ u16 x.material ++ u8 x.thickness ++ u16 x.length ++ u16 x.width ++ count x.defects.length ++ u32 x.basis
    ++ amount x.allocated ++ u8 (slabStateCode x.state) ++ opt (fun p => u8 p.rack ++ u8 p.slot) x.rack ++ opt u8 x.bed
    ++ opt (fun l => u8 (lockCode l)) x.lock ++ opt u32 x.parent ++ u8 x.generation ++ flag x.cutMark

def querySlabRecord (slab : Nat) : Block := reading (fun s => answerOr .noSlab ((s.slab? slab).map slabBytes))

/-- R18: QUERY SLAB RECORD. -/
def execQuerySlabRecord (h : Header) (slab : Nat) (s : State) : Host.Outcome State Fault Refusal :=
  .next (runRow (.querySlabRecord h slab) h (querySlabRecord slab) s)

def querySlabDefects (slab : Nat) : Block :=
  reading (fun s => answerOr .noSlab ((s.slab? slab).map (fun x => u32 x.id ++ x.defects.flatMap Rect.bytes)))

/-- R18: QUERY SLAB DEFECTS. -/
def execQuerySlabDefects (h : Header) (slab : Nat) (s : State) : Host.Outcome State Fault Refusal :=
  .next (runRow (.querySlabDefects h slab) h (querySlabDefects slab) s)

def querySlabNext (slab : Nat) : Block :=
  reading (fun s => answerOr .empty ((nextBy Slab.id slab s.slabs).map slabBytes))

/-- R18: QUERY SLAB NEXT. -/
def execQuerySlabNext (h : Header) (slab : Nat) (s : State) : Host.Outcome State Fault Refusal :=
  .next (runRow (.querySlabNext h slab) h (querySlabNext slab) s)

/-! ## QUERY PLACEMENT (R37) -/

/-- The corners of a rectangle: the corner nearest the origin, then the one farthest from it (DESIGN CHOICE, log entry 41). -/
def cornerBytes (r : Rect) : List Byte := u16 r.x ++ u16 r.y ++ u16 (r.x + r.length) ++ u16 (r.y + r.width)

/-- The number of cutouts of a PIECE or MITRE (R37). -/
def State.cutoutCount (s : State) (p : Placement) : Option Nat :=
  if p.kind.isPiece then some (s.cutoutsOf p.slab p.index).length else none

/-- Every field of Table 2-1, the reserved rectangle and the number of cutouts. -/
def placementBytes (s : State) (p : Placement) : List Byte :=
  u32 p.slab ++ u8 p.index ++ u8 (kindCode p.kind) ++ opt u32 p.job ++ p.rect.bytes ++ opt u8 p.kerf
    ++ opt u8 p.parentIndex ++ opt u32 p.remnantSlab ++ u8 (placementStateCode p.state) ++ opt cornerBytes p.reserved
    ++ opt count (s.cutoutCount p)

def queryPlacementEntry (slab index : Nat) : Block := reading (fun s =>
  match s.slab? slab with
  | none => .reject .noSlab []
  | some _ => answerOr .placementState ((s.placement? slab index).map (placementBytes s)))

/-- R37: QUERY PLACEMENT ENTRY. -/
def execQueryPlacementEntry (h : Header) (slab index : Nat) (s : State) : Host.Outcome State Fault Refusal :=
  .next (runRow (.queryPlacementEntry h slab index) h (queryPlacementEntry slab index) s)

/-- For each index, whether it is occupied, and then its kind and state; then the two numbers of R37. -/
def planBytes (s : State) (slab : Nat) : List Byte :=
  (List.range maxPerSlab).flatMap (fun i =>
    opt (fun p => u8 (kindCode p.kind) ++ u8 (placementStateCode p.state)) (s.placement? slab i))
    ++ count (s.placementsOf slab).length ++ count s.placements.length

def queryPlacementSlab (slab : Nat) : Block :=
  reading (fun s => answerOr .noSlab ((s.slab? slab).map (fun _ => planBytes s slab)))

/-- R37: QUERY PLACEMENT SLAB. -/
def execQueryPlacementSlab (h : Header) (slab : Nat) (s : State) : Host.Outcome State Fault Refusal :=
  .next (runRow (.queryPlacementSlab h slab) h (queryPlacementSlab slab) s)

/-! ## QUERY JOB and QUERY BILL (R144, R145) -/

/-- The position of a CLOSED job on the bill list, from 1 (R144). -/
def State.billPosition (s : State) (j : Job) : Option Nat :=
  if j.state = .closed then (s.bills.findIdx? (fun b => decide (b = j.id))).map (· + 1) else none

/-- The RECORD form of QUERY JOB (R144). -/
def jobReply (s : State) (j : Job) : Reply :=
  twoParts j.partOne (j.partTwo ++ u8 (jobStateCode j.state) ++ count j.openOrders ++ count j.unsettled
    ++ opt count (s.billPosition j))

def queryJobRecord (job : Nat) : Block := reading (fun s =>
  match s.job? job with
  | none => .reject .noJob []
  | some j => jobReply s j)

/-- R144: QUERY JOB RECORD. -/
def execQueryJobRecord (h : Header) (job : Nat) (s : State) : Host.Outcome State Fault Refusal :=
  .next (runRow (.queryJobRecord h job) h (queryJobRecord job) s)

def queryJobNext (job : Nat) : Block := reading (fun s =>
  match nextBy Job.id job s.jobs with
  | none => .reject .empty []
  | some j => jobReply s j)

/-- R144: QUERY JOB NEXT. -/
def execQueryJobNext (h : Header) (job : Nat) (s : State) : Host.Outcome State Fault Refusal :=
  .next (runRow (.queryJobNext h job) h (queryJobNext job) s)

/-- R145: up to eight job ids from a position counted from 1. -/
def queryBill (position : Nat) : Block := reading (fun s =>
  if position = 0 then .reject .form []
  else if s.bills.length < position then .reject .empty (count s.bills.length)
  else .answer (count s.bills.length ++ ((s.bills.drop (position - 1)).take 8).flatMap u32))

/-- R145: QUERY BILL. -/
def execQueryBill (h : Header) (position : Nat) (s : State) : Host.Outcome State Fault Refusal :=
  .next (runRow (.queryBill h position) h (queryBill position) s)

/-! ## QUERY STATION (R54) -/

/-- The configured saw fields of Table 3-1. -/
def sawConfigBytes (c : SawConfig) : List Byte :=
  [c.kinds] ++ u16 c.bedLength ++ u16 c.bedWidth ++ u8 c.maxThickness ++ count c.materials.length
    ++ c.materials.flatMap u16 ++ u16 c.feedMin ++ u16 c.feedMax ++ u32 c.sawRate ++ u32 c.wearRate ++ flag c.patient

/-- An order on the queue as QUERY STATION returns it. -/
def orderBytes (o : CutOrder) : List Byte :=
  u32 o.slab ++ u8 o.index ++ u8 (kindCode o.kind) ++ opt u32 o.job ++ u8 (orderStateCode o.state) ++ u32 o.number
    ++ u8 o.sends ++ u16 o.requestedFeed ++ opt u16 o.deliveredFeed ++ amount o.recycled ++ amount o.fresh

/-- The runtime fields of a saw, its last-delivered record and its queue. -/
def sawBytes (w : Saw) : List Byte :=
  flag w.ready ++ u8 (bladeCode w.blade) ++ opt u8 w.kerf ++ u32 w.bladeSeconds ++ opt u32 w.bed ++ count w.queue.length
    ++ opt (fun n => u32 n.1 ++ u8 n.2) w.lastDelivered ++ w.queue.flatMap orderBytes

/-- The ENTRY form of QUERY STATION. -/
def stationBytes (st : Station) : List Byte :=
  u8 st.address ++ u8 (sideCode st.side) ++ u8 (classCode st.cls) ++ u8 st.tier
    ++ (match st.saw with | none => [] | some w => sawConfigBytes w.config)
    ++ u8 (stationStateCode st.state) ++ opt u16 st.silence
    ++ (match st.saw with | none => [] | some w => sawBytes w)

def queryStationEntry (address : Nat) : Block :=
  reading (fun s => answerOr .stationState ((s.station? address).map stationBytes))

/-- R54: QUERY STATION ENTRY. -/
def execQueryStationEntry (h : Header) (address : Nat) (s : State) : Host.Outcome State Fault Refusal :=
  .next (runRow (.queryStationEntry h address) h (queryStationEntry address) s)

def queryStationNext (address : Nat) : Block :=
  reading (fun s => answerOr .empty ((nextBy Station.address address s.stations).map stationBytes))

/-- R54: QUERY STATION NEXT. -/
def execQueryStationNext (h : Header) (address : Nat) (s : State) : Host.Outcome State Fault Refusal :=
  .next (runRow (.queryStationNext h address) h (queryStationNext address) s)

/-! ## QUERY RULE (R166) -/

/-- R166: shop-defined, built-in or without a rule, and then the four fields. -/
def queryRule (c : Nat) : Block := reading (fun s =>
  if 63 < c then .reject .form []
  else match s.kindRule? c with
    | none => .answer (code .ruleAbsent)
    | some r => .answer (code (if isShopDefined c then .ruleShopDefined else .ruleBuiltIn) ++ ruleBytes r))

/-- R166: QUERY RULE. -/
def execQueryRule (h : Header) (c : Nat) (s : State) : Host.Outcome State Fault Refusal :=
  .next (runRow (.queryRule h c) h (queryRule c) s)

/-! ## QUERY WATER and QUERY EXCURSION (R109) -/

/-- A rule's configuration with the stored release threshold, its state, and n. -/
def compareRuleBytes (r : CompareRule) : List Byte :=
  flag r.enabled ++ u8 (channelCode r.channel) ++ u8 (directionCode r.direction) ++ u16 r.trip ++ u16 r.release
    ++ u8 r.confirm ++ u8 (actionCode r.action) ++ ruleStateBytes r.state

/-- The items of QUERY WATER. -/
def waterBytes (w : Water) : List Byte :=
  u8 (modeCode w.mode) ++ u16 w.share ++ u8 w.windowLength ++ u8 w.windowCount ++ amount w.windowRecycled
    ++ amount w.windowFresh ++ opt u8 w.lastSequence ++ u32 w.allowance ++ amount w.used ++ w.rules.flatMap compareRuleBytes

def queryWater : Block := reading (fun s => .answer (waterBytes s.water))

/-- R109: QUERY WATER. -/
def execQueryWater (h : Header) (s : State) : Host.Outcome State Fault Refusal :=
  .next (runRow (.queryWater h) h queryWater s)

def excursionBytes (e : Excursion) : List Byte := u16 e.trip ++ u16 e.worst ++ count e.samples

def queryExcursion (rule : Nat) : Block := reading (fun s =>
  match s.water.rules[rule]? with
  | none => .reject .form []
  | some r => .answer (opt excursionBytes r.record ++ ruleStateBytes r.state))

/-- R109: QUERY EXCURSION. -/
def execQueryExcursion (h : Header) (rule : Nat) (s : State) : Host.Outcome State Fault Refusal :=
  .next (runRow (.queryExcursion h rule) h (queryExcursion rule) s)

/-! ## QUERY FAULT (R148) -/

def queryFault : Block := reading (fun s =>
  .answer (faultBlockBytes s.faults ++ [s.faults.mask] ++ [s.faults.enables] ++ u8 s.faults.station
    ++ u8 s.faults.counter))

/-- R148: QUERY FAULT. -/
def execQueryFault (h : Header) (s : State) : Host.Outcome State Fault Refusal :=
  .next (runRow (.queryFault h) h queryFault s)

/-! ## QUERY SHOP (R119) -/

/-- R119; the overhead water cents are an amount, sent modulo 2^64 (DESIGN CHOICE, log entry 44). -/
def queryShop : Block := reading (fun s =>
  .answer (amount s.shop.saw ++ amount s.shop.wear ++ amount s.shop.recycled ++ amount s.shop.fresh ++ amount s.shop.loss
    ++ amount s.shop.overflow ++ u16 s.rates.recycled ++ u16 s.rates.fresh ++ amount s.overheadWaterCents))

/-- R119: QUERY SHOP. -/
def execQueryShop (h : Header) (s : State) : Host.Outcome State Fault Refusal :=
  .next (runRow (.queryShop h) h queryShop s)

/-! ## QUERY CAPABILITY (R166) -/

/-- The capacities, each with the number in use where it varies. R166 gives capacities of 512 and 1,536, so that these
two and their numbers in use take two bytes (DESIGN CHOICE, log entry 42). -/
def capacityBytes (s : State) : List Byte :=
  u16 maxSlabs ++ u16 s.slabs.length ++ u16 maxPlacements ++ count maxPerSlab ++ u16 s.placements.length
    ++ count maxStations ++ count s.stations.length ++ count maxSaws ++ count s.sawAddresses.length ++ count maxQueue
    ++ count maxJobs ++ count s.jobs.length ++ count s.bills.length ++ count maxKindRules ++ count maxWaterRules

/-- R166; the enabled groups are five flags, BASE first and then in the order of R165 (DESIGN CHOICE, log entry 43). -/
def queryCapability : Block := reading (fun s =>
  .answer (u8 revision ++ u8 s.address ++ u8 (reportCode s.resetReport)
    ++ flag (s.groups.on .base) ++ flag s.groups.remnant ++ flag s.groups.mitre ++ flag s.groups.cutout
    ++ flag s.groups.quote ++ capacityBytes s ++ constantBytes s.constants ++ u32 s.admissionCounter
    ++ u32 s.closeCounter ++ u8 (lineCode s.line)))

/-- R166: QUERY CAPABILITY. -/
def execQueryCapability (h : Header) (s : State) : Host.Outcome State Fault Refusal :=
  .next (runRow (.queryCapability h) h queryCapability s)

end Sys2Proof.Machine
end

