-- ==== Sys2Proof/Machine/Arrival.lean ====
section
/-! DEFINITION. TELEGRAM_RECEIVED: the form test of R157 on a received run of bytes, and the taking of what passes it: as
the row its kind and payload spell, or, where they spell none, as a telegram with no row of its own (R158 to R161, R168). -/

namespace Sys2Proof.Machine

open Sys2Proof Config

/-- The byte at a place "as received" (R157), free where the telegram is too short to hold it (DESIGN CHOICE, log entry 5). -/
def byteAt (p : List Byte) (i : Nat) : Nat :=
  match p[i]? with
  | none => (missingByte i).toNat
  | some b => b.toNat

/-- A fault of the form test (R157): source and kind bytes as received, and the side of arrival. -/
def formFault (c : FaultCode) (side : Side) (p : List Byte) : FaultRecord :=
  ⟨c, byteAt p 1, some (byteAt p 2), none, none, some (.side side)⟩

/-- The refusal of a payload that fits no row of its kind (R167, R168): FORM, after the state check of R50 for the
floor reports it governs (DEDUCED, log entry 36). -/
def malformed (h : Header) (kind : Nat) : Block :=
  if kind = Kind.sawStatus ∨ kind = Kind.orderAck ∨ kind = Kind.orderDecline ∨ kind = Kind.waterSample then
    fromAttached h (refuse .form)
  else refuse .form

/-- A telegram that spells no row: an ANNOUNCE is matched by its class byte first (R168), any other is taken through the
Link Bridge, which refuses, ignores, drops or forwards it, or finds its payload malformed. -/
def State.arriveRowless (side : Side) (t : Telegram) (s : State) : State :=
  if t.kind = Kind.announce then s.arriveAnnounce side t (t.payload.head?.map BitVec.toNat) none
  else s.arrive side t (fun s => conclude (t.header side) t.kind (malformed (t.header side) t.kind s))

/-- A telegram that spells a row is that row's command. The rows that are no telegram are spelt by none. -/
def receiveRow (i : Instr) (s : State) : Host.Outcome State Fault Refusal :=
  match i with
  | .coldResetAssert => .next s
  | .coldResetRelease _ _ => .next s
  | .standbyRetentionLoss => .next s
  | .telegramReceived _ _ => .next s
  | .transmitComplete _ => .next s
  | .announce h cls work => execAnnounce h cls work s
  | .querySlabRecord h slab => execQuerySlabRecord h slab s
  | .querySlabDefects h slab => execQuerySlabDefects h slab s
  | .querySlabNext h slab => execQuerySlabNext h slab s
  | .queryPlacementEntry h slab index => execQueryPlacementEntry h slab index s
  | .queryPlacementSlab h slab => execQueryPlacementSlab h slab s
  | .queryJobRecord h job => execQueryJobRecord h job s
  | .queryJobNext h job => execQueryJobNext h job s
  | .queryBill h position => execQueryBill h position s
  | .queryStationEntry h address => execQueryStationEntry h address s
  | .queryStationNext h address => execQueryStationNext h address s
  | .queryRule h c => execQueryRule h c s
  | .queryWater h => execQueryWater h s
  | .queryExcursion h rule => execQueryExcursion h rule s
  | .queryFault h => execQueryFault h s
  | .queryShop h => execQueryShop h s
  | .queryCapability h => execQueryCapability h s
  | .loadStation h address cls stationSide tier saw => execLoadStation h address cls stationSide tier saw s
  | .loadStationNone h address => execLoadStationNone h address s
  | .loadRule h c disposition tier classSet => execLoadRule h c disposition tier classSet s
  | .loadGroup h enables => execLoadGroup h enables s
  | .loadConstants h kerf margin remnantMin conserveFeed => execLoadConstants h kerf margin remnantMin conserveFeed s
  | .loadRates h recycled fresh => execLoadRates h recycled fresh s
  | .loadWaterRule h number enabled channel direction trip release confirm action =>
      execLoadWaterRule h number enabled channel direction trip release confirm action s
  | .loadShareWindow h length => execLoadShareWindow h length s
  | .loadAllowance h allowance => execLoadAllowance h allowance s
  | .loadNotices h station mask enables => execLoadNotices h station mask enables s
  | .clearFault h => execClearFault h s
  | .releaseLine h => execReleaseLine h s
  | .lineReset h => execLineReset h s
  | .renewAllowance h => execRenewAllowance h s
  | .slabEnter h slab material thickness length width basis defects =>
      execSlabEnter h slab material thickness length width basis defects s
  | .slabEditLock h slab reason => execSlabEditLock h slab reason s
  | .slabEditUnlock h slab => execSlabEditUnlock h slab s
  | .slabEditSetBasis h slab value => execSlabEditSetBasis h slab value s
  | .slabEditAddDefect h slab defect => execSlabEditAddDefect h slab defect s
  | .slabRetire h slab => execSlabRetire h slab s
  | .slabDoneFinished h slab => execSlabDoneFinished h slab s
  | .slabDoneScrap h slab => execSlabDoneScrap h slab s
  | .place h slab kind rect job parentPresent parentIndex remnantSlab =>
      execPlace h slab kind rect job parentPresent parentIndex remnantSlab s
  | .unplace h slab index => execUnplace h slab index s
  | .order h job slab index feed => execOrder h job slab index feed s
  | .withdraw h slab index => execWithdraw h slab index s
  | .jobOpen h job => execJobOpen h job s
  | .jobLimit h job limit hold => execJobLimit h job limit hold s
  | .jobClose h job => execJobClose h job s
  | .takeBill h job => execTakeBill h job s
  | .sawStatus h ready wear vibration changed kerf delta => execSawStatus h ready wear vibration changed kerf delta s
  | .orderAck h slab index => execOrderAck h slab index s
  | .orderDecline h slab index => execOrderDecline h slab index s
  | .cutReport h slab index outcome bladeSeconds => execCutReport h slab index outcome bladeSeconds s
  | .scanRacked h slab rack slot saw => execScanRacked h slab rack slot saw s
  | .scanStaged h slab rack slot saw => execScanStaged h slab rack slot saw s
  | .scanUnstaged h slab rack slot saw => execScanUnstaged h slab rack slot saw s
  | .scanGone h slab rack slot saw => execScanGone h slab rack slot saw s
  | .waterSample h sequence level turbidity recycled fresh => execWaterSample h sequence level turbidity recycled fresh s
  | .silenceTimerExpiry _ => .next s
  | .ackTimerExpiry _ => .next s
  | .deliveryEvaluation _ => .next s

/-- A telegram past the form test (R158). -/
def receive (side : Side) (t : Telegram) (s : State) : Host.Outcome State Fault Refusal :=
  match parsePayload (t.header side) t.kind t.payload with
  | none => .next (s.arriveRowless side t)
  | some i => receiveRow i s

/-- R154, R157 to R161: a run of bytes ended by an idle line is received. While RESET is asserted no arrival is taken. -/
def execTelegramReceived (side : Side) (bytes : List Byte) (s : State) : Host.Outcome State Fault Refusal :=
  if s.inReset then .next s
  else match formTest bytes with
    | .badForm => .next (s.raise (formFault .linkForm side bytes)).flush
    | .badCheck => .next (s.raise (formFault .linkCheck side bytes)).flush
    | .ok t => receive side t s

end Sys2Proof.Machine
end

