-- ==== Sys2Proof/Machine/Dispatch.lean ====
section
/-! DEFINITION. The dispatch of commands to their meanings: one arm per constructor of Instr. -/

namespace Sys2Proof.Machine

open Sys2Proof

def exec (i : Instr) (s : State) : Host.Outcome State Fault Refusal :=
  match i with
  | .coldResetAssert => Sys2Proof.Machine.execColdResetAssert s
  | .coldResetRelease keep straps => Sys2Proof.Machine.execColdResetRelease keep straps s
  | .standbyRetentionLoss => Sys2Proof.Machine.execStandbyRetentionLoss s
  | .telegramReceived side bytes => Sys2Proof.Machine.execTelegramReceived side bytes s
  | .transmitComplete side => Sys2Proof.Machine.execTransmitComplete side s
  | .announce h cls work => Sys2Proof.Machine.execAnnounce h cls work s
  | .querySlabRecord h slab => Sys2Proof.Machine.execQuerySlabRecord h slab s
  | .querySlabDefects h slab => Sys2Proof.Machine.execQuerySlabDefects h slab s
  | .querySlabNext h slab => Sys2Proof.Machine.execQuerySlabNext h slab s
  | .queryPlacementEntry h slab index => Sys2Proof.Machine.execQueryPlacementEntry h slab index s
  | .queryPlacementSlab h slab => Sys2Proof.Machine.execQueryPlacementSlab h slab s
  | .queryJobRecord h job => Sys2Proof.Machine.execQueryJobRecord h job s
  | .queryJobNext h job => Sys2Proof.Machine.execQueryJobNext h job s
  | .queryBill h position => Sys2Proof.Machine.execQueryBill h position s
  | .queryStationEntry h address => Sys2Proof.Machine.execQueryStationEntry h address s
  | .queryStationNext h address => Sys2Proof.Machine.execQueryStationNext h address s
  | .queryRule h code => Sys2Proof.Machine.execQueryRule h code s
  | .queryWater h => Sys2Proof.Machine.execQueryWater h s
  | .queryExcursion h rule => Sys2Proof.Machine.execQueryExcursion h rule s
  | .queryFault h => Sys2Proof.Machine.execQueryFault h s
  | .queryShop h => Sys2Proof.Machine.execQueryShop h s
  | .queryCapability h => Sys2Proof.Machine.execQueryCapability h s
  | .loadStation h address cls stationSide tier saw => Sys2Proof.Machine.execLoadStation h address cls stationSide tier saw s
  | .loadStationNone h address => Sys2Proof.Machine.execLoadStationNone h address s
  | .loadRule h code disposition tier classSet => Sys2Proof.Machine.execLoadRule h code disposition tier classSet s
  | .loadGroup h enables => Sys2Proof.Machine.execLoadGroup h enables s
  | .loadConstants h kerf margin remnantMin conserveFeed => Sys2Proof.Machine.execLoadConstants h kerf margin remnantMin conserveFeed s
  | .loadRates h recycled fresh => Sys2Proof.Machine.execLoadRates h recycled fresh s
  | .loadWaterRule h number enabled channel direction trip release confirm action => Sys2Proof.Machine.execLoadWaterRule h number enabled channel direction trip release confirm action s
  | .loadShareWindow h length => Sys2Proof.Machine.execLoadShareWindow h length s
  | .loadAllowance h allowance => Sys2Proof.Machine.execLoadAllowance h allowance s
  | .loadNotices h station mask enables => Sys2Proof.Machine.execLoadNotices h station mask enables s
  | .clearFault h => Sys2Proof.Machine.execClearFault h s
  | .releaseLine h => Sys2Proof.Machine.execReleaseLine h s
  | .lineReset h => Sys2Proof.Machine.execLineReset h s
  | .renewAllowance h => Sys2Proof.Machine.execRenewAllowance h s
  | .slabEnter h slab material thickness length width basis defects => Sys2Proof.Machine.execSlabEnter h slab material thickness length width basis defects s
  | .slabEditLock h slab reason => Sys2Proof.Machine.execSlabEditLock h slab reason s
  | .slabEditUnlock h slab => Sys2Proof.Machine.execSlabEditUnlock h slab s
  | .slabEditSetBasis h slab value => Sys2Proof.Machine.execSlabEditSetBasis h slab value s
  | .slabEditAddDefect h slab defect => Sys2Proof.Machine.execSlabEditAddDefect h slab defect s
  | .slabRetire h slab => Sys2Proof.Machine.execSlabRetire h slab s
  | .slabDoneFinished h slab => Sys2Proof.Machine.execSlabDoneFinished h slab s
  | .slabDoneScrap h slab => Sys2Proof.Machine.execSlabDoneScrap h slab s
  | .place h slab kind rect job parentPresent parentIndex remnantSlab => Sys2Proof.Machine.execPlace h slab kind rect job parentPresent parentIndex remnantSlab s
  | .unplace h slab index => Sys2Proof.Machine.execUnplace h slab index s
  | .order h job slab index feed => Sys2Proof.Machine.execOrder h job slab index feed s
  | .withdraw h slab index => Sys2Proof.Machine.execWithdraw h slab index s
  | .jobOpen h job => Sys2Proof.Machine.execJobOpen h job s
  | .jobLimit h job limit hold => Sys2Proof.Machine.execJobLimit h job limit hold s
  | .jobClose h job => Sys2Proof.Machine.execJobClose h job s
  | .takeBill h job => Sys2Proof.Machine.execTakeBill h job s
  | .sawStatus h ready wear vibration changed kerf delta => Sys2Proof.Machine.execSawStatus h ready wear vibration changed kerf delta s
  | .orderAck h slab index => Sys2Proof.Machine.execOrderAck h slab index s
  | .orderDecline h slab index => Sys2Proof.Machine.execOrderDecline h slab index s
  | .cutReport h slab index outcome bladeSeconds => Sys2Proof.Machine.execCutReport h slab index outcome bladeSeconds s
  | .scanRacked h slab rack slot saw => Sys2Proof.Machine.execScanRacked h slab rack slot saw s
  | .scanStaged h slab rack slot saw => Sys2Proof.Machine.execScanStaged h slab rack slot saw s
  | .scanUnstaged h slab rack slot saw => Sys2Proof.Machine.execScanUnstaged h slab rack slot saw s
  | .scanGone h slab rack slot saw => Sys2Proof.Machine.execScanGone h slab rack slot saw s
  | .waterSample h sequence level turbidity recycled fresh => Sys2Proof.Machine.execWaterSample h sequence level turbidity recycled fresh s
  | .silenceTimerExpiry address => Sys2Proof.Machine.execSilenceTimerExpiry address s
  | .ackTimerExpiry saw => Sys2Proof.Machine.execAckTimerExpiry saw s
  | .deliveryEvaluation saw => Sys2Proof.Machine.execDeliveryEvaluation saw s

end Sys2Proof.Machine
end

