-- ==== Sys2Proof/Safety.lean ====
section
/-! DEFINITION. What claims speak of: a legal state (the bounds and unique keys of every table), the law of the orders,
the laws of beds, plans and accounts, the state without its transmitters and fault record, and the arrivals the Link Bridge passes to a block. -/

namespace Sys2Proof.Machine

open Sys2Proof Config

/-! ## Legal states -/

/-- The keys of a table rise strictly, so that no two entries share one (R1, R19, R38, R134). -/
def Rising {α : Type} (key : α → Nat) (l : List α) : Prop := l.Pairwise (fun x y => key x < key y)

/-- R1 and Table 1-1. -/
def SlabsLegal (l : List Slab) : Prop :=
  Rising Slab.id l ∧ l.length ≤ maxSlabs ∧ ∀ x ∈ l, x.defects.length ≤ maxDefects ∧ x.generation ≤ 3

/-- R19. -/
def PlacementsLegal (l : List Placement) : Prop :=
  Rising Placement.key l ∧ l.length ≤ maxPlacements ∧ ∀ p ∈ l, p.index ≤ 11

/-- Tables 3-1 and 3-3, R58: one station entry. -/
def Station.Legal (st : Station) : Prop :=
  1 ≤ st.address ∧ st.address ≤ 30 ∧ st.saw.isSome = st.cls.isSaw ∧ sideOk st.cls st.side = true
    ∧ tierOk st.cls st.tier = true ∧ (st.state ≠ .attached → st.silence = none)
    ∧ (∀ n ∈ st.silence, n ≤ silenceMs) ∧ ∀ w ∈ st.saw, w.queue.length ≤ maxQueue

/-- R38, R39: no entry carries the controller's own address. -/
def StationsLegal (own : Nat) (l : List Station) : Prop :=
  Rising Station.address l ∧ l.length ≤ maxStations ∧ ∀ st ∈ l, st.Legal ∧ st.address ≠ own

/-- Table 9-1. -/
def Job.Legal (j : Job) : Prop :=
  j.material ≤ maxCharge ∧ j.saw ≤ maxCharge ∧ j.wear ≤ maxCharge ∧ j.water ≤ maxCharge ∧ j.recycled ≤ max48
    ∧ j.fresh ≤ max48 ∧ j.bladeSeconds ≤ max32 ∧ j.piecesCut ≤ 65535

/-- R134, and R142: the bill list holds each CLOSED job once. -/
def JobsLegal (l : List Job) (bills : List Nat) : Prop :=
  Rising Job.id l ∧ l.length ≤ maxJobs ∧ (∀ j ∈ l, j.Legal)
    ∧ bills.Nodup ∧ (∀ b ∈ bills, ∃ j ∈ l, j.id = b ∧ j.state = .closed)
    ∧ ∀ j ∈ l, j.state = .closed → j.id ∈ bills

/-- Table 6-1. -/
def Water.Legal (w : Water) : Prop :=
  w.rules.length = maxWaterRules ∧ w.share ≤ 1000 ∧ 1 ≤ w.windowLength ∧ w.windowLength ≤ 16
    ∧ w.windowCount < w.windowLength ∧ w.allowance ≤ max32 ∧ w.used ≤ max32

/-- R118: each shop accumulator holds at its maximum. -/
def Shop.Legal (p : Shop) : Prop :=
  p.saw ≤ max63 ∧ p.wear ≤ max63 ∧ p.recycled ≤ max63 ∧ p.fresh ≤ max63 ∧ p.loss ≤ max63 ∧ p.overflow ≤ max63

/-- Section 10.1: an empty record has its flag clear and its count 0; the counts hold or wrap at 255. -/
def FaultBlock.Legal (f : FaultBlock) : Prop :=
  f.count ≤ 255 ∧ f.counter ≤ 255 ∧ (f.record = none → f.moreFaults = false ∧ f.count = 0)

/-- R155: at most 64 telegrams wait, and none behind an idle transmitter. -/
def Transmitter.Legal (x : Transmitter) : Prop := x.waiting.length ≤ maxWaiting ∧ (x.sending = none → x.waiting = [])

/-- R159, R163: 64 codes; the codes without a rule stay without one, and a rule's tier is at most 3. -/
def KindRulesLegal (l : List (Option KindRule)) : Prop :=
  l.map Option.isSome = defaultKindRules.map Option.isSome ∧ ∀ r, some r ∈ l → r.maxTier ≤ 3

/-- Table 2-3 and R111. -/
def Constants.Legal (c : Constants) (r : Rates) : Prop :=
  constantsForm c.kerf c.margin c.remnantMin c.conserveFeed = true ∧ r.recycled ≤ 10000 ∧ r.fresh ≤ 10000

/-- Every table within its bounds, and every key unique. -/
structure State.Bounded (s : State) : Prop where
  address : 1 ≤ s.address ∧ s.address ≤ 30
  kindRules : KindRulesLegal s.kindRules
  constants : s.constants.Legal s.rates
  stations : StationsLegal s.address s.stations
  slabs : SlabsLegal s.slabs
  placements : PlacementsLegal s.placements
  jobs : JobsLegal s.jobs s.bills
  closeCounter : s.closeCounter ≤ max32
  admissionCounter : s.admissionCounter ≤ max32
  water : s.water.Legal
  shop : s.shop.Legal
  faults : s.faults.Legal
  txA : s.txA.Legal
  txB : s.txB.Legal

/-- A legal state between events: bounded, with nothing left to send. -/
def State.Legal (s : State) : Prop := s.Bounded ∧ s.outbox = []

/-! ## The law of the orders -/

/-- Two orders name the same placement. -/
def CutOrder.same (a b : CutOrder) : Prop := a.slab = b.slab ∧ a.index = b.index

/-- Chapter 5, R58: a station's queue: every order carries its saw, at most one is active, and a station that is not
ATTACHED has no DELIVERED or RUNNING order. -/
def Station.Orderly (st : Station) : Prop :=
  ∀ w ∈ st.saw, (∀ o ∈ w.queue, o.saw = st.address) ∧ w.queue.countP (fun o => o.state.isActive) ≤ 1
    ∧ (st.state ≠ .attached → ∀ o ∈ w.queue, o.state = .waiting ∨ o.state = .inDoubt)

/-- R65, R68, R135: the orders, the placements, the slabs and the job counts agree. -/
def State.Orderly (s : State) : Prop :=
  (∀ st ∈ s.stations, st.Orderly)
    ∧ s.orders.Pairwise (fun a b => ¬ a.same b)
    ∧ (∀ a ∈ s.orders, ∀ b ∈ s.orders, a.slab = b.slab → a.saw = b.saw)
    ∧ (∀ o ∈ s.orders, ∃ p ∈ s.placements, p.slab = o.slab ∧ p.index = o.index ∧ p.state = .ordered)
    ∧ (∀ p ∈ s.placements, p.state = .ordered → ∃ o ∈ s.orders, o.slab = p.slab ∧ o.index = p.index)
    ∧ (∀ x ∈ s.slabs, x.state.isSettled = true → ∀ o ∈ s.orders, o.slab ≠ x.id)
    ∧ (∀ o ∈ s.orders, ∀ n ∈ o.job, ∃ j ∈ s.jobs, j.id = n)
    ∧ ∀ j ∈ s.jobs, j.openOrders = s.orders.countP (fun o => decide (o.job = some j.id))
        ∧ (j.state = .closed → j.openOrders = 0)

/-! ## Slabs, plans and accounts -/

/-- The slab has a record that is not settled (R131). -/
def State.unsettled (s : State) (slab : Nat) : Bool := (s.slab? slab).any (fun x => !x.state.isSettled)

/-- R19, R20, R31, R56: every placement stands on a slab with a record, never on a RESERVED one, and only CUT on a settled
one; a REMNANT names its record and no job, any other kind a job; a CUT placement has set its slab's cut mark; an order
has the kind and job of its placement. -/
def State.PlansKept (s : State) : Prop :=
  (∀ p ∈ s.placements,
    (∃ x ∈ s.slab? p.slab, x.state ≠ .reserved ∧ (x.state.isSettled = true → p.state = .cut)
      ∧ (p.state = .cut → x.cutMark = true))
    ∧ (p.kind = .remnant ↔ p.remnantSlab ≠ none) ∧ (p.kind = .remnant ↔ p.job = none))
  ∧ ∀ o ∈ s.orders, ∀ p ∈ s.placements, p.slab = o.slab → p.index = o.index → p.kind = o.kind ∧ p.job = o.job

/-- R3: a slab names the saw whose bed holds it and that bed names the slab; a STAGED slab has a bed, a RESERVED, RECEIVED
or RACKED one none; a RACKED slab has a position, a RESERVED, RECEIVED or STAGED one none. -/
def State.BedsAgree (s : State) : Prop :=
  (∀ x ∈ s.slabs, ∀ a ∈ x.bed, ∃ w ∈ s.saw? a, w.bed = some x.id)
  ∧ (∀ st ∈ s.stations, ∀ w ∈ st.saw, ∀ n ∈ w.bed, ∃ x ∈ s.slab? n, x.bed = some st.address)
  ∧ ∀ x ∈ s.slabs,
    (x.state = .staged → x.bed ≠ none ∧ x.rack = none) ∧ (x.state = .racked → x.bed = none ∧ x.rack ≠ none)
    ∧ (x.state = .received ∨ x.state = .reserved → x.bed = none ∧ x.rack = none)

/-- R31: the RESERVED records are those that the REMNANT placements of unsettled slabs name, each by one. -/
def State.RemnantsAgree (s : State) : Prop :=
  (∀ p ∈ s.placements, ∀ r ∈ p.remnantSlab, s.unsettled p.slab = true →
    (∃ z ∈ s.slab? r, z.state = .reserved)
    ∧ ∀ q ∈ s.placements, q.remnantSlab = some r → s.unsettled q.slab = true → q.slab = p.slab ∧ q.index = p.index)
  ∧ ∀ z ∈ s.slabs, z.state = .reserved →
    ∃ p ∈ s.placements, p.remnantSlab = some z.id ∧ s.unsettled p.slab = true

/-- R23: the reserved rectangles of a slab lie on it and meet neither each other nor, for a PIECE or MITRE, a defect. -/
def State.PlansFit (s : State) : Prop :=
  ∀ p ∈ s.placements, ∀ a ∈ p.reserved,
    (∀ q ∈ s.placements, q.slab = p.slab → q.index ≠ p.index → ∀ b ∈ q.reserved, a.meets b = false)
    ∧ ∀ x ∈ s.slab? p.slab, a.x + a.length ≤ x.length ∧ a.y + a.width ≤ x.width
      ∧ (p.kind.isPiece = true → ∀ d ∈ x.defects, a.meets d = false)

/-- R115, R131: the allocated cents of an unsettled slab are the provisional charges of its CUT pieces, those of a
settled one its basis; they never pass the basis. -/
def State.BasisAccounted (s : State) : Prop :=
  ∀ x ∈ s.slabs,
    x.allocated ≤ x.basis
    ∧ (x.state.isSettled = true → x.allocated = x.basis)
    ∧ (x.state.isSettled = false → x.allocated = ((s.placements.filter (fun p =>
        decide (p.slab = x.id ∧ p.kind.isPiece = true ∧ p.state = .cut))).map (fun p =>
          x.basis * p.area / (x.length * x.width))).sum)

/-- R135: a job's unsettled pieces are its CUT pieces on slabs not yet settled, each of which has a job with a record; a
CLOSED job has none. -/
def State.PiecesCounted (s : State) : Prop :=
  let counted := fun (p : Placement) => p.kind.isPiece && decide (p.state = .cut) && s.unsettled p.slab
  (∀ j ∈ s.jobs, j.unsettled = s.placements.countP (fun p => counted p && decide (p.job = some j.id))
    ∧ (j.state = .closed → j.unsettled = 0))
  ∧ ∀ p ∈ s.placements, counted p = true → ∃ j ∈ s.jobs, p.job = some j.id

/-- The tables of slabs, beds, placements, orders and jobs agree with one another. -/
structure State.Sound (s : State) : Prop where
  plans : s.PlansKept
  beds : s.BedsAgree
  remnants : s.RemnantsAgree
  fit : s.PlansFit
  basis : s.BasisAccounted
  pieces : s.PiecesCounted

/-! ## What a reply leaves alone -/

/-- The state without what sending telegrams may change: the transmitters, the outbox, and the fault record's record,
flag, count and notice counter. -/
def State.withoutLink (s : State) : State :=
  { s with
    txA := idleTransmitter
    txB := idleTransmitter
    outbox := []
    faults := { s.faults with record := none, moreFaults := false, count := 0, counter := 0 } }

/-! ## Arrivals -/

/-- R158 to R161: an arrival of a kind passes to its owning block; a copy goes to side A when `copy`. -/
def State.PassesKind (s : State) (kind : Nat) (h : Header) (copy : Bool) : Prop :=
  s.inReset = false ∧ s.badSource h.src = false
    ∧ ∃ st r, s.station? h.src = some st ∧ st.side = h.side ∧ s.kindRule? kind = some r
      ∧ st.tier ≤ r.maxTier ∧ r.classes.getLsbD (classCode st.cls) = true ∧ s.groups.on r.group = true
      ∧ ((r.disposition = .handle ∧ copy = false ∧ (isRequestKind kind = true → h.dst = s.address))
        ∨ (r.disposition = .handleForward ∧ copy = decide (h.side = .b)))

/-- The arriving row passes to its owning block. -/
def State.Passes (s : State) (i : Instr) (h : Header) (copy : Bool) : Prop := s.PassesKind i.kindCode h copy

/-- The source of a floor report is ATTACHED (R50). -/
def State.Attached (s : State) (a : Nat) : Prop := ∃ st, s.station? a = some st ∧ st.state = .attached

/-- The end of a passed row's event: the reply, the notices, and the forwarded copy. -/
def finish (i : Instr) (h : Header) (copy : Bool) (r : Reply) (s : State) : State :=
  (conclude h i.kindCode (r, s)).forwardCopy copy (i.telegram h)

end Sys2Proof.Machine
end

