-- ==== Sys2Proof/Certificates/Slice0/Obligations.lean ====
section
/-! DEFINITION. The statements for the provers. `finish i h copy r u` is the end of a passed row's event: the reply `r`,
then the notices the block offered in `u`, then the copy to side A (log entry 10); EventEndsLeaveTheRestAlone says all it
can change. Where a statement writes out the content of an ANSWER, a REJECT, a NOTICE or a telegram, the sizes and
presence bytes of its items that R156, R167 and R168 leave open are the model's (log entries 3, 4, 6 to 9). -/

open Sys2Proof Sys2Proof.Config Sys2Proof.Machine

/-! ## The queue, the time base, and every command -/

/-- A step takes the command at the front of the queue and runs it with the queue's rest. The model's choice (log entry
2): on an empty queue one millisecond passes. Outside RESET every running silence and acknowledgement timer goes down by
one and holds at 0; nothing else changes, and in RESET nothing does. -/
def Obligations.StepTakesFrontCommandOrTicks : Prop :=
  (∀ (c : Instr) (rest : List Instr) (s : State),
    step { s with pending := c :: rest } = exec c { s with pending := rest })
  ∧
  (∀ s : State, s.pending = [] →
    step s = .next (if s.inReset then s else
      { s with stations := s.stations.map (fun st =>
          { st with
            silence := st.silence.map (fun n => n - 1)
            saw := st.saw.map (fun w => { w with ackTimer := w.ackTimer.map (fun n => n - 1) }) }) }))

/-- No command faults or is refused by the model: each answers a next state, and leaves the queue of commands alone. -/
def Obligations.EveryCommandAnswersNext : Prop :=
  ∀ (i : Instr) (s : State), ∃ t, exec i s = .next t ∧ t.pending = s.pending

/-! ## Invariants -/

/-- The machine right after reset is legal (every table within its bounds, every key unique, nothing left to send), its
orders, placements and counts agree, and its slabs, beds, plans and accounts are sound. -/
def Obligations.ResetIsLegalAndOrderly : Prop := State.reset.Legal ∧ State.reset.Orderly ∧ State.reset.Sound

/-- R1, R19, R38, R134, R155, R159: from every legal state, one step gives a legal state. -/
def Obligations.EveryStepKeepsLegal : Prop :=
  ∀ s t : State, s.Legal → step s = .next t → t.Legal

/-- R56, R58, R65, R68, R70 to R87, R122, R135, R140: from every legal state whose orders, placements, slabs and job
counts agree, one step gives such a state: every order names an ORDERED placement and every ORDERED placement one order,
all orders of a slab stand on one saw, a saw has at most one active order and none it holds while it is not ATTACHED,
and a job's open orders are the orders that name it. -/
def Obligations.EveryStepKeepsOrderly : Prop :=
  ∀ s t : State, s.Legal → s.Orderly → step s = .next t → t.Orderly

/-- R3, R31, R135: from every legal state whose tables are sound, one step keeps the two-sided bed relation (a slab names
the saw whose bed holds it, and that bed the slab; a slab's state says whether it has a bed and a position), the one to
one relation of RESERVED records and the REMNANT placements of unsettled slabs, and each job's unsettled pieces as the
count of its CUT pieces on slabs not yet settled. -/
def Obligations.EveryStepKeepsBedsAndCounts : Prop :=
  ∀ s t : State, s.Legal → s.Orderly → s.Sound → step s = .next t → t.BedsAgree ∧ t.RemnantsAgree ∧ t.PiecesCounted

/-- R19, R20, R23, R56, R115, R131: from every legal state whose tables are sound, one step keeps the plans (every
placement on a slab with a record that is not RESERVED, only CUT ones on a settled slab, each order with the kind and job
of its placement), their geometry (the reserved rectangles of a slab lie on it and meet neither each other nor, for a
PIECE or MITRE, a defect), and the accounts: the allocated cents of an unsettled slab are the provisional charges of its
CUT pieces, those of a settled one its basis, and no slab's pass its basis. -/
def Obligations.EveryStepKeepsPlansAndBasis : Prop :=
  ∀ s t : State, s.Legal → s.Orderly → s.Sound → step s = .next t → t.PlansKept ∧ t.PlansFit ∧ t.BasisAccounted

/-! ## The reset pin and the standby supply (R169 to R172) -/

/-- While RESET is asserted both transmitters are empty, every timer is stopped and no event waits (the model's
choice: log entries 15 and 33); the tables stay. A loss of the standby supply is only remembered. R170: while RESET is
asserted no arrival is taken: no telegram changes anything. -/
def Obligations.ResetAssertedStopsTheLink : Prop :=
  (∀ s : State,
    exec .coldResetAssert s = .next
      { s with
        inReset := true
        txA := ⟨none, []⟩
        txB := ⟨none, []⟩
        stations := s.stations.map (fun st =>
          { st with silence := none, saw := st.saw.map (fun w => { w with ackTimer := none }) })
        presented := []
        outbox := [] }
    ∧ exec .standbyRetentionLoss s = .next { s with standbyLost := true })
  ∧
  (∀ (i : Instr) (h : Header) (side : Side) (p : List Byte) (s : State), s.inReset = true →
    (i.header? = some h → exec i s = .next s) ∧ exec (.telegramReceived side p) s = .next s)

/-- R170, R171: a cold reset with KEEP deasserted, or with KEEP refused because the standby supply was lost, leaves every
table empty and every other item of state at the value its chapter gives; the address is that of the straps, 0 and 31
taken as 30. R19, R38, R44, R73, R134: one with KEEP asserted and the standby supply held keeps the retained set. Every
station is ABSENT with its timers stopped; a saw keeps its configuration, blade-seconds and bed and loses its ready flag,
blade condition, kerf and last-delivered record; WAITING orders are shed and the others IN_DOUBT. A shed placement is
PLANNED again, or gone where it is a detached cutout; the jobs lose their shed orders, and those that are then ready close
in ascending id (log entry 24). The line is HELD, the water mode UNSURE with its window aborted and its rules CLEAR, and
the notice counter 0 (R149), while the rest of the fault block is kept. The model's choice (log entry 15): a release
acts so whether or not RESET was asserted before it. -/
def Obligations.ColdResetValues : Prop :=
  (∀ (keep : Bool) (straps : Nat) (s : State), (keep = true → s.standbyLost = true) →
    exec (.coldResetRelease keep straps) s = .next
      { pending := s.pending
        inReset := false
        standbyLost := false
        address := if straps % 32 = 0 ∨ straps % 32 = 31 then 30 else straps % 32
        resetReport := if keep then .keepRefused else .withoutKeep
        kindRules := defaultKindRules
        groups := ⟨false, false, false, false⟩
        constants := { kerf := 4, margin := 15, remnantMin := 250, conserveFeed := 800 }
        stations := []
        slabs := []
        placements := []
        jobs := []
        bills := []
        closeCounter := 0
        admissionCounter := 0
        line := .run
        water :=
          { rules := List.replicate 4 ⟨false, .level, .below, 0, 0, 1, .notice, .clear, none⟩
            mode := .unsure
            share := 1000
            windowLength := 4
            windowCount := 0
            windowRecycled := 0
            windowFresh := 0
            lastSequence := none
            allowance := 0
            used := 0 }
        rates := { recycled := 0, fresh := 0 }
        shop := ⟨0, 0, 0, 0, 0, 0⟩
        faults := ⟨none, false, 0, 0#8, 0#8, 0, 0⟩
        txA := ⟨none, []⟩
        txB := ⟨none, []⟩
        presented := []
        outbox := [] })
  ∧
  (∀ (straps : Nat) (s : State), s.Legal → s.Orderly → s.standbyLost = false →
    let shed := fun (p : Placement) => ∃ o ∈ s.orders, o.state = .waiting ∧ o.slab = p.slab ∧ o.index = p.index
    let lowered := s.jobs.map (fun j =>
      { j with openOrders := j.openOrders - s.orders.countP (fun o => decide (o.state = .waiting ∧ o.job = some j.id)) })
    let ready := (lowered.filter (fun j =>
      decide (j.state = .closing ∧ j.openOrders = 0 ∧ j.unsettled = 0))).map Job.id
    exec (.coldResetRelease true straps) s = .next
      { s with
        inReset := false
        standbyLost := false
        resetReport := .withKeep
        stations := s.stations.map (fun st =>
          { st with
            state := .absent
            silence := none
            saw := st.saw.map (fun w =>
              { w with
                ready := false
                blade := .unknown
                kerf := none
                lastDelivered := none
                ackTimer := none
                queue := (w.queue.filter (fun o => decide (o.state ≠ .waiting))).map (fun o =>
                  { o with state := .inDoubt }) }) })
        placements := (s.placements.filter (fun p =>
            decide (¬ (shed p ∧ p.kind = .cutout ∧ p.parentIndex = none)))).map (fun p =>
          if shed p then { p with state := .planned } else p)
        jobs := lowered.map (fun j => if j.id ∈ ready then
          { j with state := .closed, closeNumber := some ((s.closeCounter + ready.idxOf j.id + 1) % 4294967296) } else j)
        bills := s.bills ++ ready
        closeCounter := (s.closeCounter + ready.length) % 4294967296
        line := .held
        water := { s.water with
          rules := s.water.rules.map (fun r => { r with state := .clear })
          mode := .unsure
          windowCount := 0
          windowRecycled := 0
          windowFresh := 0
          lastSequence := none }
        faults := { s.faults with counter := 0 }
        txA := ⟨none, []⟩
        txB := ⟨none, []⟩
        presented := []
        outbox := [] })

/-! ## The floor link (Chapter 11) -/

/-- Table 11-1, R157: the form test accepts exactly the runs of bytes that are the wire form of a telegram with a
destination from 1 to 1FH, a kind from 0 to 3FH, one-byte source and tag, and at most 48 payload bytes. -/
def Obligations.FormTestAcceptsWireForms : Prop :=
  ∀ (p : List Byte) (t : Telegram),
    formTest p = .ok t ↔
      p = t.wire ∧ 1 ≤ t.dst ∧ t.dst ≤ 31 ∧ t.src ≤ 255 ∧ t.kind ≤ 63 ∧ t.tag ≤ 255 ∧ t.payload.length ≤ 48

/-- Tables 11-4 to 11-6, R156, R167, R168: the payload of every well-formed telegram row spells that row, with every
operand at every value its bytes admit. -/
def Obligations.RowPayloadsRoundTrip : Prop :=
  ∀ (i : Instr) (h : Header), i.wf = true → i.header? = some h → parsePayload h i.kindCode i.payload = some i

/-- A telegram received as its bytes does what the row it spells does. -/
def Obligations.ReceivedTelegramRunsItsRow : Prop :=
  ∀ (i : Instr) (h : Header) (s : State), i.wf = true → i.header? = some h →
    exec (.telegramReceived h.side (i.telegram h).wire) s = exec i s

/-- R157, its three steps in order: a run shorter than 7 bytes is LINK/FORM, a wrong check word LINK/CHECK, a bad
length, destination or kind byte LINK/FORM; the fault names source and kind as received with the side, and nothing else
but its notice comes of it. Bytes a run is too short to hold are free values (log entry 5). -/
def Obligations.DamagedTelegramsAreDiscarded : Prop :=
  ∀ (side : Side) (p : List Byte) (s : State), s.inReset = false →
    let fault := fun (c : FaultCode) =>
      (s.raise ⟨c, byteAt p 1, some (byteAt p 2), none, none, some (.side side)⟩).flush
    (p.length < 7 → exec (.telegramReceived side p) s = .next (fault .linkForm))
    ∧ (7 ≤ p.length → be 2 (checkWord (p.take (p.length - 2))).toNat ≠ p.drop (p.length - 2) →
        exec (.telegramReceived side p) s = .next (fault .linkCheck))
    ∧ (7 ≤ p.length → be 2 (checkWord (p.take (p.length - 2))).toNat = p.drop (p.length - 2) →
        48 < byteAt p 4 ∨ byteAt p 4 ≠ p.length - 7 ∨ byteAt p 0 = 0 ∨ 31 < byteAt p 0 ∨ 63 < byteAt p 2 →
        exec (.telegramReceived side p) s = .next (fault .linkForm))

/-- R158: a row other than ANNOUNCE and LOAD whose source can be no station's, has no entry, or is entered on the other
side is discarded, with STATION/UNKNOWN_SOURCE recorded with the side of arrival. R160 steps 3 to 5 in order: a known
source whose tier is above the rule's maximum is refused with TIER, then one whose class is not in the set with CLASS,
then a disabled group with GROUP_OFF; the source's silence timer restarts. -/
def Obligations.SourceAndGateRefuseInOrder : Prop :=
  (∀ (i : Instr) (h : Header) (s : State), s.inReset = false → i.header? = some h →
    i.kindCode ≠ Kind.announce → i.kindCode ≠ Kind.load →
    (h.src = 0 ∨ h.src = 31 ∨ h.src = s.address ∨ s.station? h.src = none
      ∨ (∃ st, s.station? h.src = some st ∧ st.side ≠ h.side)) →
    exec i s = .next
      (s.raise ⟨.stationUnknownSource, h.src, some i.kindCode, none, none, some (.side h.side)⟩).flush)
  ∧
  (∀ (i : Instr) (h : Header) (st : Station) (r : KindRule) (s : State), s.inReset = false → i.header? = some h →
    i.kindCode ≠ Kind.announce → h.src ≠ 0 → h.src ≠ 31 → h.src ≠ s.address →
    s.station? h.src = some st → st.side = h.side → s.kindRule? i.kindCode = some r →
    r.disposition = .handle ∨ r.disposition = .handleForward →
    let refused := fun (x : Reason) => Host.Outcome.next (finish i h false (.reject x []) (s.restartSilence h.src))
    (r.maxTier < st.tier → exec i s = refused .tier)
    ∧ (st.tier ≤ r.maxTier → r.classes.getLsbD (classCode st.cls) = false → exec i s = refused .cls)
    ∧ (st.tier ≤ r.maxTier → r.classes.getLsbD (classCode st.cls) = true → s.groups.on r.group = false →
        exec i s = refused .groupOff))

/-- R158, R160, R161, for telegrams that spell no row (the shop-defined codes, codes without a rule, payloads out of
form): one whose source can be no station's, has no entry, or is entered on the other side is discarded, with
STATION/UNKNOWN_SOURCE recorded; so is a LOAD from a source without an entry that holds the fields of R43 and further
bytes, which spells no LOAD STATION (log entry 47). Of a known source, a code without a rule records
LINK/UNKNOWN_KIND; a telegram under a DROP rule, and one under a FORWARD rule that its own side has heard, change
nothing but the source's silence timer; any other is refused with TIER, then CLASS, then GROUP_OFF; one under a
FORWARD rule that passes is re-sent unchanged on the other side. R161: a side-A request under a HANDLE rule that is
not addressed to the controller is ignored, whether it spells a row or not: it changes nothing but the source's
silence timer (log entry 40). -/
def Obligations.UnhandledKindsForwardedOrDropped : Prop :=
  (∀ (i : Instr) (h : Header) (st : Station) (r : KindRule) (s : State), s.inReset = false → i.header? = some h →
    0x02 ≤ i.kindCode → i.kindCode ≤ 0x13 → i.kindCode ≠ Kind.order → h.dst ≠ s.address →
    h.src ≠ 0 → h.src ≠ 31 → h.src ≠ s.address → s.station? h.src = some st → st.side = h.side →
    s.kindRule? i.kindCode = some r → r.disposition = .handle → st.tier ≤ r.maxTier →
    r.classes.getLsbD (classCode st.cls) = true → s.groups.on r.group = true →
    exec i s = .next (s.restartSilence h.src))
  ∧
  (∀ (side : Side) (t : Telegram) (s : State), s.inReset = false →
    1 ≤ t.dst → t.dst ≤ 31 → t.src ≤ 255 → t.kind ≤ 63 → t.tag ≤ 255 → t.payload.length ≤ 48 →
    parsePayload (t.header side) t.kind t.payload = none → t.kind ≠ Kind.announce →
    (t.src = 0 ∨ t.src = 31 ∨ t.src = s.address ∨ s.station? t.src = none
      ∨ (∃ st, s.station? t.src = some st ∧ st.side ≠ side)) →
    exec (.telegramReceived side t.wire) s = .next
      (s.raise ⟨.stationUnknownSource, t.src, some t.kind, none, none, some (.side side)⟩).flush)
  ∧
  ∀ (side : Side) (t : Telegram) (st : Station) (s : State), s.inReset = false →
    1 ≤ t.dst → t.dst ≤ 31 → t.src ≤ 255 → t.kind ≤ 63 → t.tag ≤ 255 → t.payload.length ≤ 48 →
    parsePayload (t.header side) t.kind t.payload = none → t.kind ≠ Kind.announce →
    t.src ≠ 0 → t.src ≠ 31 → t.src ≠ s.address → s.station? t.src = some st → st.side = side →
    let u := s.restartSilence t.src
    let own := t.dst = s.address ∨ (t.dst = 31 ∧ side = .a) ∨ (t.dst ≠ 31 ∧ s.station? t.dst = none)
      ∨ (t.dst ≠ 31 ∧ ∃ d, s.station? t.dst = some d ∧ d.side = side)
    let beyond := t.dst ≠ s.address
      ∧ ((t.dst = 31 ∧ side = .b) ∨ (t.dst ≠ 31 ∧ ∃ d, s.station? t.dst = some d ∧ d.side ≠ side))
    (s.kindRule? t.kind = none →
      exec (.telegramReceived side t.wire) s = .next
        (u.raise ⟨.linkUnknownKind, t.src, some t.kind, none, none, some (.side side)⟩).flush)
    ∧ (∀ r, s.kindRule? t.kind = some r → r.disposition = .drop →
        exec (.telegramReceived side t.wire) s = .next u)
    ∧ (∀ r, s.kindRule? t.kind = some r → r.disposition = .forward → own →
        exec (.telegramReceived side t.wire) s = .next u)
    ∧ (∀ r, s.kindRule? t.kind = some r → r.disposition ≠ .drop → (r.disposition = .forward → beyond) →
        let refused := fun (x : Reason) =>
          Host.Outcome.next (conclude (t.header side) t.kind (.reject x [], u))
        (r.maxTier < st.tier → exec (.telegramReceived side t.wire) s = refused .tier)
        ∧ (st.tier ≤ r.maxTier → r.classes.getLsbD (classCode st.cls) = false →
            exec (.telegramReceived side t.wire) s = refused .cls)
        ∧ (st.tier ≤ r.maxTier → r.classes.getLsbD (classCode st.cls) = true → s.groups.on r.group = false →
            exec (.telegramReceived side t.wire) s = refused .groupOff))
    ∧ (∀ r, s.kindRule? t.kind = some r →
        st.tier ≤ r.maxTier → r.classes.getLsbD (classCode st.cls) = true → s.groups.on r.group = true →
        (r.disposition = .forward → beyond →
          exec (.telegramReceived side t.wire) s = .next (u.produce (Side.opposite side) t).flush)
        ∧ (r.disposition = .handle → 0x02 ≤ t.kind → t.kind ≤ 0x13 → t.kind ≠ Kind.order → t.dst ≠ s.address →
          exec (.telegramReceived side t.wire) s = .next u))

/-- R155: a telegram produced on an idle segment is in transmission at once; behind one in transmission it waits last,
while fewer than 64 wait; with 64 waiting it is discarded and LINK/OVERRUN is recorded with its destination, kind and
side: in an empty record whole, at a locked one by the more-faults flag and the count, which holds at 255. The
occurrence is offered for its FAULT notice, but for that of a discarded NOTICE, which is recorded and not sent (R152).
R155: at the end of a transmission the oldest waiting telegram is sent; an idle transmitter has nothing to finish.
-/
def Obligations.TransmittersKeepOrder : Prop :=
  (∀ (side : Side) (t : Telegram) (s : State),
    ((s.tx side).sending = none →
      s.produce side t = s.setTx side { (s.tx side) with sending := some t })
    ∧ (∀ x, (s.tx side).sending = some x → (s.tx side).waiting.length < 64 →
      s.produce side t = s.setTx side { sending := some x, waiting := (s.tx side).waiting ++ [t] })
    ∧ (∀ x, (s.tx side).sending = some x → 64 ≤ (s.tx side).waiting.length →
      let fault : FaultRecord := ⟨.linkOverrun, t.dst, some t.kind, none, none, some (.side side)⟩
      let told := fun (filled : Bool) (v : State) =>
        if t.kind = Kind.notice then v else
          { v with outbox := v.outbox ++ [.notice (.fault fault filled v.faults.count)] }
      (s.faults.record = none →
        s.produce side t = told true { s with faults := { s.faults with record := some fault } })
      ∧ (∀ y, s.faults.record = some y →
        s.produce side t = told false
          { s with faults := { s.faults with moreFaults := true, count := min 255 (s.faults.count + 1) } })))
  ∧
  (∀ (side : Side) (s : State),
    ((s.tx side).sending = none → exec (.transmitComplete side) s = .next s)
    ∧ (∀ x, (s.tx side).sending = some x → (s.tx side).waiting = [] →
        exec (.transmitComplete side) s = .next (s.setTx side ⟨none, []⟩))
    ∧ (∀ x y ys, (s.tx side).sending = some x → (s.tx side).waiting = y :: ys →
        exec (.transmitComplete side) s = .next (s.setTx side ⟨some y, ys⟩)))

/-- R162: an event ends with its reply, then its notices, then its forwarded copy (the copy last: log entry 10). The
reply goes from the controller's address to the request's source, with its tag, on the side it arrived on: a REJECT of
kind 21H with the request's kind code, the reason and the detail; or an ANSWER of kind 20H, in one part or more of at
most 46 bytes, each but the last full (log entry 51, the model's choice) but where R143 sets the two parts, each
behind the request's kind code and its part number and part count. The notices and VALVEs the event offered are sent
in their order, and then what their sending offered (log entry 39). All this changes nothing but the transmitters, the
outbox, and the fault record's record, flag, count and notice counter, and leaves the outbox empty. R48: a telegram
that passes the source check restarts its ATTACHED source's silence timer at 10,000 ms and changes no other station;
of a station that is not ATTACHED it starts none. -/
def Obligations.EventEndsLeaveTheRestAlone : Prop :=
  (∀ (i : Instr) (h : Header) (copy : Bool) (r : Reply) (u : State),
    (finish i h copy r u).withoutLink = u.withoutLink ∧ (finish i h copy r u).outbox = []
    ∧ ∃ reply : List Telegram,
      (let v := (reply.foldl (fun v t => v.produce h.side t) u).flush
       finish i h copy r u = if copy then (v.produce .a (i.telegram h)).flush else v)
      ∧ (∀ reason detail, r = .reject reason detail →
          reply = [⟨h.src, u.address, 0x21, h.tag, u8 i.kindCode ++ u8 (reasonCode reason) ++ detail⟩])
      ∧ (∀ content, r = .answer content → ∃ parts : List (List Byte),
          parts.flatten = content ∧ parts ≠ [] ∧ (∀ p ∈ parts, p.length ≤ 46) ∧ (∀ p ∈ parts.dropLast, p.length = 46)
          ∧ (content ≠ [] → [] ∉ parts)
          ∧ reply = parts.zipIdx.map (fun p =>
              ⟨h.src, u.address, 0x20, h.tag, u8 i.kindCode ++ u8 ((p.2 + 1) * 16 + parts.length) ++ p.1⟩))
      ∧ (∀ parts, r = .parts parts → reply = parts.zipIdx.map (fun p =>
          ⟨h.src, u.address, 0x20, h.tag, u8 i.kindCode ++ u8 ((p.2 + 1) * 16 + parts.length) ++ p.1⟩)))
  ∧
  (∀ s : State,
    let sent := fun (v : State) (o : Outgoing) => match o with
      | .notice n => v.sendNotice n
      | .valve dst mode => v.produce .b ⟨dst, v.address, 0x23, 0, u8 (modeCode mode)⟩
    let drained := fun (v : State) => v.outbox.foldl sent { v with outbox := [] }
    s.flush = drained (drained s))
  ∧
  (∀ (a : Nat) (st : Station) (s : State), s.station? a = some st →
    (st.state = .attached → (s.restartSilence a).station? a = some { st with silence := some 10000 })
    ∧ (st.state ≠ .attached → (s.restartSilence a).station? a = some st)
    ∧ (∀ b, b ≠ a → (s.restartSilence a).station? b = s.station? b)
    ∧ { s.restartSilence a with stations := s.stations } = s)

/-- R163, R164: LOAD RULE on a built-in code tightens its tier and class set and keeps its disposition, or moves
ANNOUNCE or a floor report between HANDLE and HANDLE+FORWARD; on a shop-defined code it sets FORWARD or DROP with any
tier and classes. The ANSWER carries the rule as it stood. A LOAD RULE out of form (a class set that holds no class, or
a bit above its seven members: log entry 30), of a code without a rule, or of a shop-defined code with another
disposition is FORM. On a built-in code a higher tier, a class outside the present set, or another disposition, but for
that exception, is refused with LOOSEN; one of the LOAD code that loosens nothing and omits SUPERVISOR is refused with
IN_USE (one that does both is LOOSEN: log entry 17). No refused load changes a rule. -/
def Obligations.LoadRuleTightensOnly : Prop :=
  (∀ (h : Header) (copy : Bool) (c disposition tier classSet : Nat) (d : Disposition) (r : KindRule) (s : State),
    let i := Instr.loadRule h c disposition tier classSet
    s.Passes i h copy → c ≤ 63 → decodeDisposition disposition = some d → tier ≤ 3 → 1 ≤ classSet → classSet ≤ 127 →
    s.kindRule? c = some r →
    (0x30 ≤ c ∧ c ≤ 0x37 ∧ (d = .forward ∨ d = .drop)
      ∨ (c < 0x30 ∨ 0x37 < c) ∧ tier ≤ r.maxTier ∧ BitVec.ofNat 8 classSet &&& r.classes = BitVec.ofNat 8 classSet
        ∧ (d = r.disposition ∨ ((c = 0x01 ∨ (0x18 ≤ c ∧ c ≤ 0x1D)) ∧ (d = .handle ∨ d = .handleForward)
            ∧ (r.disposition = .handle ∨ r.disposition = .handleForward)))
        ∧ (c = Kind.load → classSet.testBit 1 = true)) →
    let u := s.restartSilence h.src
    exec i s = .next (finish i h copy
      (.answer (u8 (dispositionCode r.disposition) ++ u8 r.maxTier ++ [r.classes] ++ code (groupCode r.group)))
      { u with
        kindRules := u.kindRules.set c
          (some { r with disposition := d, maxTier := tier, classes := BitVec.ofNat 8 classSet }) }))
  ∧
  ∀ (h : Header) (copy : Bool) (c disposition tier classSet : Nat) (s : State),
    let i := Instr.loadRule h c disposition tier classSet
    s.Passes i h copy →
    let refused := fun (x : Reason) => exec i s = .next (finish i h copy (.reject x []) (s.restartSilence h.src))
    let formed := c ≤ 63 ∧ disposition ≤ 3 ∧ tier ≤ 3 ∧ 1 ≤ classSet ∧ classSet ≤ 127
    let builtIn := c < 0x30 ∨ 0x37 < c
    (¬ formed → refused .form)
    ∧ (formed → s.kindRule? c = none → refused .form)
    ∧ ∀ d r, formed → decodeDisposition disposition = some d → s.kindRule? c = some r →
      let wider := r.maxTier < tier ∨ BitVec.ofNat 8 classSet &&& r.classes ≠ BitVec.ofNat 8 classSet
      let kept := d = r.disposition ∨ (c = 0x01 ∨ (0x18 ≤ c ∧ c ≤ 0x1D)) ∧ (d = .handle ∨ d = .handleForward)
        ∧ (r.disposition = .handle ∨ r.disposition = .handleForward)
      (¬ builtIn → d ≠ .forward → d ≠ .drop → refused .form)
      ∧ (builtIn → wider → refused .loosen)
      ∧ (builtIn → ¬ wider → ¬ kept → refused .loosen)
      ∧ (builtIn → ¬ wider → kept → c = Kind.load → classSet.testBit 1 = false → refused .inUse)

/-- R167, R168: a passing telegram of a handled kind other than ANNOUNCE whose payload spells no row is refused with
FORM before anything it names is looked up (log entry 36: a SLAB EDIT of a sub-request with no row too); of the floor
reports of R50, only after the state check of R50. R50: SAW STATUS, ORDER ACK, ORDER DECLINE and
WATER SAMPLE from a station that is not ATTACHED are refused with STATION_STATE, and change nothing. -/
def Obligations.MalformedAndUnattachedAreRefused : Prop :=
  (∀ (side : Side) (t : Telegram) (copy : Bool) (s : State),
    1 ≤ t.dst → t.dst ≤ 31 → t.src ≤ 255 → t.kind ≤ 63 → t.tag ≤ 255 → t.payload.length ≤ 48 →
    t.kind ≠ Kind.announce → parsePayload (t.header side) t.kind t.payload = none →
    s.PassesKind t.kind (t.header side) copy →
    let report := t.kind = Kind.sawStatus ∨ t.kind = Kind.orderAck ∨ t.kind = Kind.orderDecline
      ∨ t.kind = Kind.waterSample
    let refused := fun (r : Reason) => Host.Outcome.next
      ((conclude (t.header side) t.kind (.reject r [], s.restartSilence t.src)).forwardCopy copy t)
    (¬ report ∨ s.Attached t.src → exec (.telegramReceived side t.wire) s = refused .form)
    ∧ (report → ¬ s.Attached t.src → exec (.telegramReceived side t.wire) s = refused .stationState))
  ∧
  (∀ (i : Instr) (h : Header) (copy : Bool) (st : Station) (s : State), i.header? = some h → s.Passes i h copy →
    i.kindCode = Kind.sawStatus ∨ i.kindCode = Kind.orderAck ∨ i.kindCode = Kind.orderDecline
      ∨ i.kindCode = Kind.waterSample →
    s.station? h.src = some st → st.state ≠ .attached →
    exec i s = .next (finish i h copy (.reject .stationState []) (s.restartSilence h.src)))

/-! ## Reading (the sixteen forms of QUERY) -/

/-- R18, R37: the slab and placement forms answer what the tables hold, item by item in the order listed there, refuse
what is not there, and change nothing. RECORD carries every field of Table 1-1 with the number of defects in place of
their rectangles, DEFECTS the slab id and the rectangles. NEXT answers the RECORD form of the record with the smallest
slab id greater than the one asked, and is EMPTY where there is none. ENTRY carries every field of Table 2-1, the
corners of the reserved rectangle where the kind has one (the nearest and the farthest, the model's choice: log entry
41), and for a PIECE or MITRE the number of its cutouts; SLAB each index's kind and state, or its absence, and the
numbers of placements on the slab and in the pool. R168 and log entries 4, 6 and 8 give the items their sizes and
presence bytes. -/
def Obligations.StockAndPlanQueriesAnswer : Prop :=
  ∀ (h : Header) (copy : Bool) (slab index : Nat) (s : State),
    let u := s.restartSilence h.src
    let found := fun (i : Instr) (r : Reply) => s.Passes i h copy → exec i s = .next (finish i h copy r u)
    let rect := fun (r : Rect) => u16 r.x ++ u16 r.y ++ u16 r.length ++ u16 r.width
    let record := fun (x : Slab) =>
      u32 x.id ++ u16 x.material ++ u8 x.thickness ++ u16 x.length ++ u16 x.width ++ count x.defects.length
        ++ u32 x.basis ++ amount x.allocated ++ u8 (slabStateCode x.state)
        ++ opt (fun p => u8 p.rack ++ u8 p.slot) x.rack ++ opt u8 x.bed ++ opt (fun l => u8 (lockCode l)) x.lock
        ++ opt u32 x.parent ++ u8 x.generation ++ flag x.cutMark
    let cutouts := fun (p : Placement) => s.placements.filter
      (fun c => decide (c.slab = p.slab ∧ c.kind = .cutout ∧ c.parentIndex = some p.index))
    let entry := fun (p : Placement) =>
      u32 p.slab ++ u8 p.index ++ u8 (kindCode p.kind) ++ opt u32 p.job ++ rect p.rect ++ opt u8 p.kerf
        ++ opt u8 p.parentIndex ++ opt u32 p.remnantSlab ++ u8 (placementStateCode p.state)
        ++ opt (fun k => u16 p.rect.x ++ u16 p.rect.y ++ u16 (p.rect.x + p.rect.length + k)
            ++ u16 (p.rect.y + p.rect.width + k)) (if p.kind = .cutout then none else some (p.kerf.getD 0))
        ++ opt count (if p.kind = .piece ∨ p.kind = .mitre then some (cutouts p).length else none)
    let plan := (List.range 12).flatMap (fun k =>
        opt (fun p => u8 (kindCode p.kind) ++ u8 (placementStateCode p.state)) (s.placement? slab k))
      ++ count (s.placements.filter (fun p => decide (p.slab = slab))).length ++ count s.placements.length
    (∀ x, s.slab? slab = some x →
      found (.querySlabRecord h slab) (.answer (record x))
      ∧ found (.querySlabDefects h slab) (.answer (u32 x.id ++ x.defects.flatMap rect))
      ∧ found (.queryPlacementSlab h slab) (.answer plan)
      ∧ (∀ p, s.placement? slab index = some p → found (.queryPlacementEntry h slab index) (.answer (entry p)))
      ∧ (s.placement? slab index = none →
          found (.queryPlacementEntry h slab index) (.reject .placementState [])))
    ∧ (s.slab? slab = none →
      found (.querySlabRecord h slab) (.reject .noSlab [])
      ∧ found (.querySlabDefects h slab) (.reject .noSlab [])
      ∧ found (.queryPlacementSlab h slab) (.reject .noSlab [])
      ∧ found (.queryPlacementEntry h slab index) (.reject .noSlab []))
    ∧ (∀ x ∈ s.slabs, s.Bounded → slab < x.id → (∀ y ∈ s.slabs, slab < y.id → x.id ≤ y.id) →
        found (.querySlabNext h slab) (.answer (record x)))
    ∧ ((∀ y ∈ s.slabs, y.id ≤ slab) → found (.querySlabNext h slab) (.reject .empty []))

/-- R54, R144, R145: the station, job and bill forms answer what the tables hold, item by item in the order listed
there, refuse what is not there, and change nothing. A station's entry carries every configured field of Table 3-1
(the saw fields for a saw alone: log entry 6; the material list as it was loaded: log entry 48), its state and the
silence time left, and for a saw its runtime fields, its last-delivered record and each order in queue order. A job's
record carries the two parts of R143 with the state, the two counts and, for a CLOSED job, its position on the bill
list in place of the bills left; where part 1 would pass 46 bytes the same content is cut there (log entry 9). NEXT
answers the entry with the smallest address or id greater than the one asked, and is EMPTY where there is none. R145:
the length of the bill list and up to eight of its ids. R168 and log entries 4, 6 and 8 give the items their sizes and
presence bytes. -/
def Obligations.StationJobAndBillQueriesAnswer : Prop :=
  ∀ (h : Header) (copy : Bool) (n : Nat) (s : State),
    let u := s.restartSilence h.src
    let found := fun (i : Instr) (r : Reply) => s.Passes i h copy → exec i s = .next (finish i h copy r u)
    let configured := fun (c : SawConfig) =>
      [c.kinds] ++ u16 c.bedLength ++ u16 c.bedWidth ++ u8 c.maxThickness ++ count c.materials.length
        ++ c.materials.flatMap u16 ++ u16 c.feedMin ++ u16 c.feedMax ++ u32 c.sawRate ++ u32 c.wearRate
        ++ flag c.patient
    let order := fun (o : CutOrder) =>
      u32 o.slab ++ u8 o.index ++ u8 (kindCode o.kind) ++ opt u32 o.job ++ u8 (orderStateCode o.state)
        ++ u32 o.number ++ u8 o.sends ++ u16 o.requestedFeed ++ opt u16 o.deliveredFeed ++ amount o.recycled
        ++ amount o.fresh
    let running := fun (w : Saw) =>
      flag w.ready ++ u8 (bladeCode w.blade) ++ opt u8 w.kerf ++ u32 w.bladeSeconds ++ opt u32 w.bed
        ++ count w.queue.length ++ opt (fun d => u32 d.1 ++ u8 d.2) w.lastDelivered ++ w.queue.flatMap order
    let entry := fun (st : Station) =>
      u8 st.address ++ u8 (sideCode st.side) ++ u8 (classCode st.cls) ++ u8 st.tier
        ++ st.saw.elim [] (fun w => configured w.config)
        ++ u8 (stationStateCode st.state) ++ opt u16 st.silence ++ st.saw.elim [] running
    let one := fun (j : Job) =>
      u32 j.id ++ opt u32 j.closeNumber ++ opt u48 j.limit ++ flag j.hold ++ flag j.overQuote ++ flag j.saturated
        ++ amount j.material ++ amount j.saw ++ amount j.wear ++ amount j.water
    let two := fun (j : Job) =>
      u32 j.id ++ amount j.recycled ++ amount j.fresh ++ u32 j.bladeSeconds ++ count j.piecesCut
        ++ amount (j.material + j.saw + j.wear + j.water) ++ u8 (jobStateCode j.state) ++ count j.openOrders
        ++ count j.unsettled
        ++ opt count (if j.state = .closed then (s.bills.findIdx? (fun b => decide (b = j.id))).map (· + 1) else none)
    let record := fun (j : Job) =>
      if (one j).length ≤ 46 then Reply.parts [one j, two j] else .answer (one j ++ two j)
    (∀ st, u.station? n = some st → found (.queryStationEntry h n) (.answer (entry st)))
    ∧ (u.station? n = none → found (.queryStationEntry h n) (.reject .stationState []))
    ∧ (∀ st ∈ u.stations, s.Bounded → n < st.address → (∀ x ∈ u.stations, n < x.address → st.address ≤ x.address) →
        found (.queryStationNext h n) (.answer (entry st)))
    ∧ ((∀ x ∈ u.stations, x.address ≤ n) → found (.queryStationNext h n) (.reject .empty []))
    ∧ (∀ j, s.job? n = some j → found (.queryJobRecord h n) (record j))
    ∧ (s.job? n = none → found (.queryJobRecord h n) (.reject .noJob []))
    ∧ (∀ j ∈ s.jobs, s.Bounded → n < j.id → (∀ y ∈ s.jobs, n < y.id → j.id ≤ y.id) →
        found (.queryJobNext h n) (record j))
    ∧ ((∀ y ∈ s.jobs, y.id ≤ n) → found (.queryJobNext h n) (.reject .empty []))
    ∧ (n = 0 → found (.queryBill h n) (.reject .form []))
    ∧ (n ≠ 0 → s.bills.length < n → found (.queryBill h n) (.reject .empty (count s.bills.length)))
    ∧ (n ≠ 0 → n ≤ s.bills.length →
        found (.queryBill h n)
          (.answer (count s.bills.length ++ ((s.bills.drop (n - 1)).take 8).flatMap u32)))

/-- R109, R119, R148, R166: the forms that read the link, the water monitor, the fault record, the shop and the part
answer what they hold, item by item in the order listed there, and change nothing. RULE: absent, shop-defined or
built-in (bytes that are free values, as the group's is: log entry 3), and the rule's four fields. WATER: the mode, the
share, the window, the last sequence number, the allowance and the used count, and each rule's configuration, state
and n. EXCURSION: the record or its absence and the rule's state; a rule number above 3 is FORM. FAULT: the record,
its fields in the order of section 10.1, or its absence, the flag, the count, the two enable sets, the notice station
and the notice counter. R168 and log entries 4, 6 and 8 give the items their sizes and presence bytes. The model's
choices of layout are these: in CAPABILITY two bytes each for the capacities of 512 and 1,536 and the numbers in use
of those tables (log entry 42), and five flag bytes for the enabled groups, BASE first (log entry 43); in SHOP an
amount past eight bytes as its low 64 bits (log entry 44). -/
def Obligations.RuleWaterFaultShopQueriesAnswer : Prop :=
  ∀ (h : Header) (copy : Bool) (n : Nat) (s : State),
    let u := s.restartSilence h.src
    let found := fun (i : Instr) (r : Reply) => s.Passes i h copy → exec i s = .next (finish i h copy r u)
    let ruleState := fun (r : RuleState) => match r with
      | .clear => u8 0 ++ [0x00#8]
      | .tripping k => u8 1 ++ 0x01#8 :: u8 k
      | .active => u8 2 ++ [0x00#8]
      | .releasing k => u8 3 ++ 0x01#8 :: u8 k
    let compareRule := fun (r : CompareRule) =>
      flag r.enabled ++ u8 (channelCode r.channel) ++ u8 (directionCode r.direction) ++ u16 r.trip ++ u16 r.release
        ++ u8 r.confirm ++ u8 (actionCode r.action) ++ ruleState r.state
    let w := s.water
    let detail := fun (d : FaultDetail) => match d with
      | .side d => u8 (sideCode d)
      | .classAndSide c d => u8 (classCode c) ++ u8 (sideCode d)
      | .plantSilent => code .plantSilent
      | .placement k => u8 k
      | .placementAndNumber k m => u8 k ++ u32 m
      | .scanEvent e => u8 e
      | .bedConflict saw displaced => u8 saw ++ code (if displaced then .conflictDisplaced else .conflictRefused)
      | .sampleGap expected received => u8 expected ++ u8 received
      | .accumulator x => code (accumulatorCode x)
    let fault := fun (r : FaultRecord) =>
      u8 (faultClassCode r.code) ++ u8 (faultCodeCode r.code) ++ u8 r.station ++ opt u8 r.kind ++ opt u32 r.slab
        ++ opt u32 r.job ++ opt detail r.detail
    (63 < n → found (.queryRule h n) (.reject .form []))
    ∧ (n ≤ 63 → s.kindRule? n = none → found (.queryRule h n) (.answer (code .ruleAbsent)))
    ∧ (∀ r, n ≤ 63 → s.kindRule? n = some r →
        found (.queryRule h n)
          (.answer (code (if 0x30 ≤ n ∧ n ≤ 0x37 then .ruleShopDefined else .ruleBuiltIn)
            ++ (u8 (dispositionCode r.disposition) ++ u8 r.maxTier ++ [r.classes] ++ code (groupCode r.group)))))
    ∧ (∀ r, w.rules[n]? = some r →
        found (.queryExcursion h n)
          (.answer (opt (fun (e : Excursion) => u16 e.trip ++ u16 e.worst ++ count e.samples) r.record
            ++ ruleState r.state)))
    ∧ (w.rules[n]? = none → found (.queryExcursion h n) (.reject .form []))
    ∧ found (.queryWater h)
        (.answer (u8 (modeCode w.mode) ++ u16 w.share ++ u8 w.windowLength ++ u8 w.windowCount
          ++ amount w.windowRecycled ++ amount w.windowFresh ++ opt u8 w.lastSequence ++ u32 w.allowance
          ++ amount w.used ++ w.rules.flatMap compareRule))
    ∧ found (.queryFault h)
        (.answer (opt fault s.faults.record ++ flag s.faults.moreFaults ++ count s.faults.count
          ++ [s.faults.mask] ++ [s.faults.enables] ++ u8 s.faults.station ++ u8 s.faults.counter))
    ∧ found (.queryShop h)
        (.answer (amount s.shop.saw ++ amount s.shop.wear ++ amount s.shop.recycled ++ amount s.shop.fresh
          ++ amount s.shop.loss ++ amount s.shop.overflow ++ u16 s.rates.recycled ++ u16 s.rates.fresh
          ++ amount ((2 * (s.shop.recycled * s.rates.recycled + s.shop.fresh * s.rates.fresh) + 1000) / 2000)))
    ∧ found (.queryCapability h)
        (.answer (u8 3 ++ u8 s.address ++ u8 (reportCode s.resetReport)
          ++ flag true ++ flag s.groups.remnant ++ flag s.groups.mitre ++ flag s.groups.cutout ++ flag s.groups.quote
          ++ (u16 512 ++ u16 s.slabs.length ++ u16 1536 ++ count 12 ++ u16 s.placements.length
            ++ count 24 ++ count u.stations.length ++ count 8
            ++ count (u.stations.filter (fun st => st.saw.isSome)).length ++ count 6
            ++ count 128 ++ count s.jobs.length ++ count s.bills.length ++ count 64 ++ count 4)
          ++ (u8 s.constants.kerf ++ u8 s.constants.margin ++ u16 s.constants.remnantMin
            ++ u16 s.constants.conserveFeed)
          ++ u32 s.admissionCounter ++ u32 s.closeCounter ++ u8 (lineCode s.line)))

/-! ## Slab Stock (Chapter 1) -/

/-- R4, its checks in order, then the record it creates. The number of records in the ANSWER is one byte (R168); above
255 that byte is a free value (log entry 4). -/
def Obligations.SlabEnterCreatesRecord : Prop :=
  ∀ (h : Header) (copy : Bool) (slab material thickness length width basis : Nat) (defects : List Rect) (s : State),
    let i := Instr.slabEnter h slab material thickness length width basis defects
    i.wf = true → s.Passes i h copy →
    let u := s.restartSilence h.src
    let formed := slab ≠ 0 ∧ material ≠ 0 ∧ 10 ≤ thickness ∧ thickness ≤ 50 ∧ 600 ≤ length ∧ length ≤ 4000
      ∧ 400 ≤ width ∧ width ≤ 2200 ∧ basis ≤ 10000000
      ∧ ∀ d ∈ defects, 1 ≤ d.length ∧ 1 ≤ d.width ∧ d.x + d.length ≤ length ∧ d.y + d.width ≤ width
    (¬ formed → exec i s = .next (finish i h copy (.reject .form []) u))
    ∧ (formed → s.slab? slab ≠ none → exec i s = .next (finish i h copy (.reject .duplicate []) u))
    ∧ (formed → s.slab? slab = none → 512 ≤ s.slabs.length →
        exec i s = .next (finish i h copy (.reject .tableFull []) u))
    ∧ (formed → s.slab? slab = none → s.slabs.length < 512 →
        exec i s = .next (finish i h copy (.answer (u32 slab ++ count (s.slabs.length + 1)))
          (u.addSlab
            { id := slab, material := material, thickness := thickness, length := length, width := width,
              defects := defects, basis := basis, allocated := 0, state := .received, rack := none, bed := none,
              lock := none, parent := none, generation := 0, cutMark := false })))

/-- R6, R7: LOCK takes its reason on a slab in a stock state and returns the reason it replaced; a reason outside HOLD
and INSPECT is FORM (tested first: log entry 11); LOCK, UNLOCK and SET BASIS of a slab without a record are NO_SLAB;
UNLOCK removes a lock and returns it, or changes nothing; the saw whose bed holds the slab is presented where a lock
was set or removed. R8, its three checks in order: the basis of a stock slab takes the value while nothing is
allocated and nothing cut. -/
def Obligations.SlabEditsLockAndBasis : Prop :=
  (∀ (h : Header) (copy : Bool) (slab reason : Nat) (x : Slab) (s : State), s.slab? slab = some x →
    let lock := Instr.slabEditLock h slab reason
    let unlock := Instr.slabEditUnlock h slab
    let u := s.restartSilence h.src
    let set := fun (l : Option LockReason) =>
      { u.modifySlab slab (fun y => { y with lock := l }) with presented := u.presented ++ x.bed.toList }
    let prior := fun (l : Option LockReason) => opt (fun p => u8 (lockCode p)) l
    (∀ l, s.Passes lock h copy → decodeLock reason = some l → x.state.isStock = true →
        exec lock s = .next (finish lock h copy (.answer (prior x.lock)) (set (some l))))
    ∧ (∀ l, s.Passes lock h copy → decodeLock reason = some l → x.state.isStock = false →
        exec lock s = .next (finish lock h copy (.reject .slabState []) u))
    ∧ (∀ l, s.Passes unlock h copy → x.state ≠ .reserved → x.lock = some l →
        exec unlock s = .next (finish unlock h copy (.answer (prior (some l))) (set none)))
    ∧ (s.Passes unlock h copy → x.state ≠ .reserved → x.lock = none →
        exec unlock s = .next (finish unlock h copy (.answer (prior none)) u))
    ∧ (s.Passes unlock h copy → x.state = .reserved →
        exec unlock s = .next (finish unlock h copy (.reject .slabState []) u)))
  ∧
  (∀ (h : Header) (copy : Bool) (slab reason value : Nat) (i : Instr) (s : State), s.Passes i h copy →
    let refused := fun (x : Reason) => exec i s = .next (finish i h copy (.reject x []) (s.restartSilence h.src))
    (i = .slabEditLock h slab reason → reason ≠ 0 → reason ≠ 1 → refused .form)
    ∧ (i = .slabEditLock h slab reason → reason = 0 ∨ reason = 1 → s.slab? slab = none → refused .noSlab)
    ∧ (i = .slabEditUnlock h slab ∨ i = .slabEditSetBasis h slab value → s.slab? slab = none → refused .noSlab))
  ∧
  (∀ (h : Header) (copy : Bool) (slab value : Nat) (x : Slab) (s : State),
    let i := Instr.slabEditSetBasis h slab value
    s.Passes i h copy → s.slab? slab = some x →
    let u := s.restartSilence h.src
    (x.state.isStock = false → exec i s = .next (finish i h copy (.reject .slabState []) u))
    ∧ (x.state.isStock = true → 10000000 < value → exec i s = .next (finish i h copy (.reject .form []) u))
    ∧ (x.state.isStock = true → value ≤ 10000000 → x.allocated ≠ 0 ∨ x.cutMark = true →
        exec i s = .next (finish i h copy (.reject .basisFixed []) u))
    ∧ (x.state.isStock = true → value ≤ 10000000 → x.allocated = 0 → x.cutMark = false →
        exec i s = .next (finish i h copy (.answer (u32 x.basis)) (u.modifySlab slab (fun y => { y with basis := value })))))

/-- R9, R10: ADD DEFECT is refused by the first of its checks that fails: no record is NO_SLAB, a slab in no stock state
SLAB_STATE, a rectangle that is not valid for the slab FORM, a fifth defect TABLE_FULL, and one that meets an ORDERED or
CUT piece or mitre, or else a PLANNED one with a cutout ORDERED or CUT, DEFECT_CONFLICT with the lowest such index (log
entry 21: the index is the lowest of the check that fails). Otherwise the defect is appended, and the PLANNED pieces and
mitres it meets are removed with their cutouts, each with its PLACEMENT_DROPPED in ascending index; the ANSWER carries the
defect's index and the number of pieces removed. R34: UNPLACE of a slab without a record is NO_SLAB; of an index without a
placement, or whose placement is not PLANNED, PLACEMENT_STATE; of a committed piece or mitre PLACEMENT_STATE with the
lowest index of its cutouts that are ORDERED or CUT. Any other removes the placement: a piece or mitre with its cutouts, a
cutout alone, a remnant with its RESERVED record. -/
def Obligations.AddDefectAndUnplaceRemovePlans : Prop :=
  (∀ (h : Header) (copy : Bool) (slab : Nat) (r : Rect) (s : State),
    let i := Instr.slabEditAddDefect h slab r
    s.Bounded → s.Passes i h copy →
    let u := s.restartSilence h.src
    let refused := fun (x : Reason) (d : List Byte) => exec i s = .next (finish i h copy (.reject x d) u)
    let met := fun (p : Placement) => p.slab = slab ∧ p.kind.isPiece = true ∧ p.meetsRect r = true
    let under := fun (p c : Placement) => c.slab = slab ∧ c.kind = .cutout ∧ c.parentIndex = some p.index
    let busy := fun (p : Placement) => met p ∧ p.state ≠ .planned
    let committed := fun (p : Placement) => met p ∧ p.state = .planned
      ∧ ∃ c ∈ s.placements, under p c ∧ c.state ≠ .planned
    (s.slab? slab = none → refused .noSlab [])
    ∧ ∀ x, s.slab? slab = some x →
      let valid := 1 ≤ r.length ∧ 1 ≤ r.width ∧ r.x + r.length ≤ x.length ∧ r.y + r.width ≤ x.width
      (x.state.isStock = false → refused .slabState [])
      ∧ (x.state.isStock = true → ¬ valid → refused .form [])
      ∧ (x.state.isStock = true → valid → 4 ≤ x.defects.length → refused .tableFull [])
      ∧ (∀ p ∈ s.placements, x.state.isStock = true → valid → x.defects.length < 4 →
          busy p → (∀ q ∈ s.placements, busy q → p.index ≤ q.index) → refused .defectConflict (u8 p.index))
      ∧ (∀ p ∈ s.placements, x.state.isStock = true → valid → x.defects.length < 4 → (∀ q ∈ s.placements, ¬ busy q) →
          committed p → (∀ q ∈ s.placements, committed q → p.index ≤ q.index) → refused .defectConflict (u8 p.index))
      ∧ (x.state.isStock = true → valid → x.defects.length < 4 → (∀ q ∈ s.placements, ¬ busy q ∧ ¬ committed q) →
          let dropped := s.placements.filter (fun p => decide (met p))
          exec i s = .next (finish i h copy (.answer (u8 x.defects.length ++ count dropped.length))
            { u with
              slabs := s.slabs.map (fun y => if y.id = slab then { y with defects := y.defects ++ [r] } else y)
              placements := s.placements.filter (fun p =>
                decide (¬ met p ∧ ¬ ∃ q ∈ s.placements, met q ∧ under q p))
              outbox := s.outbox ++ dropped.map (fun p =>
                .notice (.placementDropped slab p.index p.job (s.placements.countP (fun c => decide (under p c))))) })))
  ∧
  (∀ (h : Header) (copy : Bool) (slab index : Nat) (s : State),
    let i := Instr.unplace h slab index
    s.Bounded → s.Passes i h copy →
    let u := s.restartSilence h.src
    let refused := fun (x : Reason) (d : List Byte) => exec i s = .next (finish i h copy (.reject x d) u)
    let mine := fun (c : Placement) => c.slab = slab ∧ c.kind = .cutout ∧ c.parentIndex = some index
    (s.slab? slab = none → refused .noSlab [])
    ∧ (s.slab? slab ≠ none → s.placement? slab index = none → refused .placementState [])
    ∧ ∀ p, s.slab? slab ≠ none → s.placement? slab index = some p →
      let left := s.placements.filter (fun q => decide (¬ (q.slab = slab ∧ q.index = index)))
      (p.state ≠ .planned → refused .placementState [])
      ∧ (∀ c ∈ s.placements, p.state = .planned → p.kind.isPiece = true → mine c → c.state ≠ .planned →
          (∀ d ∈ s.placements, mine d → d.state ≠ .planned → c.index ≤ d.index) → refused .placementState (u8 c.index))
      ∧ (p.state = .planned → p.kind.isPiece = true → (∀ c ∈ s.placements, mine c → c.state = .planned) →
          exec i s = .next (finish i h copy
            (.answer (count (s.placements.countP (fun c => decide (mine c))) ++ opt u32 p.remnantSlab))
            { u with placements := left.filter (fun q => decide (¬ mine q)) }))
      ∧ (p.state = .planned → p.kind = .cutout →
          exec i s = .next (finish i h copy (.answer (count 0 ++ opt u32 p.remnantSlab)) { u with placements := left }))
      ∧ (∀ n, p.state = .planned → p.kind = .remnant → p.remnantSlab = some n →
          exec i s = .next (finish i h copy (.answer (count 0 ++ opt u32 (some n)))
            { u with placements := left, slabs := s.slabs.filter (fun y => decide (y.id ≠ n)) })))

/-- R12: a received or racked slab is racked at the position given; a staged one with no ORDERED placement also leaves
its bed, and its saw is presented; with one, the scan is refused with IN_FLIGHT; a settled slab is refused. -/
def Obligations.ScanRackedMovesSlab : Prop :=
  ∀ (h : Header) (copy : Bool) (slab rack slot saw : Nat) (x : Slab) (s : State),
    let i := Instr.scanRacked h slab rack slot saw
    s.Passes i h copy → slab ≠ 0 → rack ≤ 63 → slot ≤ 15 → s.slab? slab = some x →
    let u := s.restartSilence h.src
    let put := fun (v : State) => v.modifySlab slab (fun y => { y with state := .racked, rack := some ⟨rack, slot⟩ })
    let ordered := ∃ p ∈ s.placements, p.slab = slab ∧ p.state = .ordered
    (x.state = .received ∨ x.state = .racked →
        exec i s = .next (finish i h copy (.answer (u8 (slabStateCode .racked))) (put u)))
    ∧ (x.state = .staged → ¬ ordered →
        exec i s = .next (finish i h copy (.answer (u8 (slabStateCode .racked)))
          { put (u.clearBed slab) with presented := u.presented ++ x.bed.toList }))
    ∧ (x.state = .staged → ordered → exec i s = .next (finish i h copy (.reject .inFlight []) u))
    ∧ (x.state.isSettled = true → exec i s = .next (finish i h copy (.reject .slabState []) u))

/-- R13: a stock slab without an active order is staged on a saw whose bed is free: its old bed is cleared, its rack
position goes, bed and slab name each other, and every saw whose bed changed is presented. A slab already there changes
nothing; a destination that is no saw is NOT_SAW; a slab cut on another saw is BED_BUSY, with no bed conflict recorded,
whatever the destination's bed holds (log entry 22). R14: a stage onto a bed that holds another slab y records
STOCK/BED_CONFLICT naming y; with an active order of y it is refused with BED_BUSY, otherwise y leaves the bed (a stock
slab becomes RECEIVED, a settled one keeps its state) and the scanned slab takes it. -/
def Obligations.ScanStagedPutsSlabOnBed : Prop :=
  (∀ (h : Header) (copy : Bool) (slab rack slot saw : Nat) (x : Slab) (s : State),
    let i := Instr.scanStaged h slab rack slot saw
    s.Passes i h copy → slab ≠ 0 → rack ≤ 63 → slot ≤ 15 → s.slab? slab = some x → x.state.isStock = true →
    let u := s.restartSilence h.src
    let active := ∃ o ∈ s.orders, o.slab = slab ∧ o.state ≠ .waiting
    (s.saw? saw = none → exec i s = .next (finish i h copy (.reject .notSaw []) u))
    ∧ (∀ w, s.saw? saw = some w → x.state = .staged → x.bed = some saw →
        exec i s = .next (finish i h copy (.answer (u8 (slabStateCode .staged) ++ [0#8])) u))
    ∧ (∀ w, s.saw? saw = some w → x.state = .staged → x.bed ≠ some saw → active →
        exec i s = .next (finish i h copy (.reject .bedBusy []) u))
    ∧ (∀ w, s.saw? saw = some w → w.bed = none → ¬ (x.state = .staged ∧ (x.bed = some saw ∨ active)) →
        exec i s = .next (finish i h copy (.answer (u8 (slabStateCode .staged) ++ [0#8]))
          { ((u.clearBed slab).modifySlab slab (fun y => { y with state := .staged, rack := none, bed := some saw })).modifySaw
              saw (fun v => { v with bed := some slab }) with
            presented := u.presented ++ x.bed.toList ++ [saw] })))
  ∧
  (∀ (h : Header) (copy : Bool) (slab rack slot saw y : Nat) (x : Slab) (w : Saw) (s : State),
    let i := Instr.scanStaged h slab rack slot saw
    s.Passes i h copy → slab ≠ 0 → rack ≤ 63 → slot ≤ 15 → s.slab? slab = some x → x.state.isStock = true →
    s.saw? saw = some w → w.bed = some y → ¬ (x.state = .staged ∧ x.bed = some saw) →
    ¬ (x.state = .staged ∧ ∃ o ∈ s.orders, o.slab = slab ∧ o.state ≠ .waiting) →
    let u := s.restartSilence h.src
    let active := ∃ o ∈ s.orders, o.slab = y ∧ o.state ≠ .waiting
    let conflict := fun (displaced : Bool) =>
      u.raise ⟨.stockBedConflict, h.src, some Kind.scan, some y, none, some (.bedConflict saw displaced)⟩
    (active → exec i s = .next (finish i h copy (.reject .bedBusy []) (conflict false)))
    ∧ (¬ active →
        let v := ((conflict true).clearBed slab).clearBed y
        let moved := v.modifySlab y
          (fun z => if z.state.isStock then { z with state := .received, rack := none } else { z with rack := none })
        exec i s = .next (finish i h copy (.answer (u8 (slabStateCode .staged) ++ [1#8] ++ u32 y))
          { (moved.modifySlab slab (fun z => { z with state := .staged, rack := none, bed := some saw })).modifySaw
              saw (fun z => { z with bed := some slab }) with
            presented := u.presented ++ x.bed.toList ++ [saw] })))

/-- R11: any of the four scans with a slab id of 0, a rack above 63 or a slot above 15 is refused with FORM; one of a
slab without a record, or with a RESERVED one, with UNKNOWN_SLAB, and STOCK/UNKNOWN_SLAB is recorded with the scanner,
the slab and the event. R13: STAGED of a settled slab is SLAB_STATE. R15: a staged slab without an active order leaves
its bed and is RECEIVED with no position, and its saw is presented; with one the scan is IN_FLIGHT; in any other state
SLAB_STATE. R16: GONE of a settled slab removes its position and clears its bed on both sides, and presents the saw; of
a stock slab it is refused with SLAB_STATE and recorded as STOCK/UNKNOWN_SLAB. -/
def Obligations.ScanUnstagedAndGone : Prop :=
  (∀ (h : Header) (copy : Bool) (slab rack slot saw : Nat) (s : State),
    let u := s.restartSilence h.src
    let scans : List (Nat × Instr) :=
      [(0, .scanRacked h slab rack slot saw), (1, .scanStaged h slab rack slot saw),
        (2, .scanUnstaged h slab rack slot saw), (3, .scanGone h slab rack slot saw)]
    (∀ event i, (event, i) ∈ scans → s.Passes i h copy →
      (slab = 0 ∨ 63 < rack ∨ 15 < slot → exec i s = .next (finish i h copy (.reject .form []) u))
      ∧ (slab ≠ 0 → rack ≤ 63 → slot ≤ 15 → (∀ x, s.slab? slab = some x → x.state = .reserved) →
          exec i s = .next (finish i h copy (.reject .unknownSlab [])
            (u.raise ⟨.stockUnknownSlab, h.src, some Kind.scan, some slab, none, some (.scanEvent event)⟩))))
    ∧ (∀ x, let i := Instr.scanStaged h slab rack slot saw
        s.Passes i h copy → slab ≠ 0 → rack ≤ 63 → slot ≤ 15 → s.slab? slab = some x → x.state.isSettled = true →
        exec i s = .next (finish i h copy (.reject .slabState []) u)))
  ∧
  (∀ (h : Header) (copy : Bool) (slab rack slot saw : Nat) (x : Slab) (s : State),
    let i := Instr.scanUnstaged h slab rack slot saw
    s.Passes i h copy → slab ≠ 0 → rack ≤ 63 → slot ≤ 15 → s.slab? slab = some x → x.state ≠ .reserved →
    let u := s.restartSilence h.src
    let active := ∃ o ∈ s.orders, o.slab = slab ∧ o.state ≠ .waiting
    (x.state = .staged → ¬ active →
        exec i s = .next (finish i h copy (.answer (u8 (slabStateCode .received)))
          { (u.clearBed slab).modifySlab slab (fun y => { y with state := .received, rack := none }) with
            presented := u.presented ++ x.bed.toList }))
    ∧ (x.state = .staged → active → exec i s = .next (finish i h copy (.reject .inFlight []) u))
    ∧ (x.state ≠ .staged → exec i s = .next (finish i h copy (.reject .slabState []) u)))
  ∧
  (∀ (h : Header) (copy : Bool) (slab rack slot saw : Nat) (x : Slab) (s : State),
    let i := Instr.scanGone h slab rack slot saw
    s.Passes i h copy → slab ≠ 0 → rack ≤ 63 → slot ≤ 15 → s.slab? slab = some x → x.state ≠ .reserved →
    let u := s.restartSilence h.src
    (x.state.isSettled = true →
        exec i s = .next (finish i h copy (.answer (u8 (slabStateCode x.state)))
          { (u.clearBed slab).modifySlab slab (fun y => { y with rack := none }) with
            presented := u.presented ++ x.bed.toList }))
    ∧ (x.state.isSettled = false →
        exec i s = .next (finish i h copy (.reject .slabState [])
          (u.raise ⟨.stockUnknownSlab, h.src, some Kind.scan, some slab, none, some (.scanEvent 3)⟩))))

/-- R17: SLAB RETIRE frees the record of a settled slab without a bed, and every placement of the slab. The number of
records left is one byte of the ANSWER (R168); above 255 that byte is a free value (log entry 4). -/
def Obligations.SlabRetireFreesRecord : Prop :=
  ∀ (h : Header) (copy : Bool) (slab : Nat) (s : State),
    let i := Instr.slabRetire h slab
    s.Passes i h copy →
    let u := s.restartSilence h.src
    (s.slab? slab = none → exec i s = .next (finish i h copy (.reject .noSlab []) u))
    ∧ (∀ x, s.slab? slab = some x → x.state.isSettled = false →
        exec i s = .next (finish i h copy (.reject .slabState []) u))
    ∧ (∀ x, s.slab? slab = some x → x.state.isSettled = true → x.bed ≠ none →
        exec i s = .next (finish i h copy (.reject .bedBusy []) u))
    ∧ (∀ x, s.slab? slab = some x → x.state.isSettled = true → x.bed = none →
        let left := s.slabs.filter (fun y => decide (y.id ≠ slab))
        exec i s = .next (finish i h copy
          (.answer (count (s.placements.countP (fun p => decide (p.slab = slab))) ++ count left.length))
          { u with
            slabs := left
            placements := s.placements.filter (fun p => decide (p.slab ≠ slab)) }))

/-! ## Cut Plans (Chapter 2) -/

/-- R24 to R29, R33: a PLACE out of form is FORM, of a kind whose group is disabled GROUP_OFF, of a slab without a
record NO_SLAB; otherwise the first part of the checks of R25 and then of its kind's geometric checks that fails refuses
it with its reason, and with the lowest index met where it is OVERLAP or DEFECT. R19, R22, R25 to R32: a PIECE or MITRE
whose skirted rectangle lies in the usable region, meets no other reserved rectangle and no defect, on a stock slab
without a lock, for an OPEN job, takes the lowest free index as a PLANNED placement with the current kerf. What a kind
does not use (the parent bytes and the remnant slab id of a PIECE or MITRE) is not read, at any value, and a CUTOUT whose
presence byte is not 01H is FORM (log entry 20, from R156 and R168). -/
def Obligations.PlacePieceTakesLowestIndex : Prop :=
  (∀ (h : Header) (copy : Bool) (slab kind : Nat) (rect : Rect) (job pp pi rs : Nat) (s : State),
    let i := Instr.place h slab kind rect job pp pi rs
    s.Passes i h copy →
    let u := s.restartSilence h.src
    let refused := fun (x : Reason) (d : List Byte) => exec i s = .next (finish i h copy (.reject x d) u)
    let sized := fun (l l' w w' : Nat) => l ≤ rect.length ∧ rect.length ≤ l' ∧ w ≤ rect.width ∧ rect.width ≤ w'
    let formed := rect.x ≤ 4000 ∧ rect.y ≤ 2200
      ∧ ((kind = 0 ∨ kind = 1) ∧ job ≠ 0 ∧ sized 100 3800 50 2000
        ∨ kind = 2 ∧ job ≠ 0 ∧ pp = 1 ∧ pi ≤ 11 ∧ sized 1 3700 1 1900
        ∨ kind = 3 ∧ job = 0 ∧ rs ≠ 0 ∧ sized 1 4000 1 2200)
    let enabled := (kind = 1 → s.groups.mitre = true) ∧ (kind = 2 → s.groups.cutout = true)
      ∧ (kind = 3 → s.groups.remnant = true)
    (¬ formed → refused .form [])
    ∧ (formed → ¬ enabled → refused .groupOff [])
    ∧ (formed → enabled → s.slab? slab = none → refused .noSlab [])
    ∧ ∀ x, formed → enabled → s.slab? slab = some x →
      let reserved : Rect := ⟨rect.x, rect.y, rect.length + s.constants.kerf, rect.width + s.constants.kerf⟩
      let hit := fun (n : Nat) => (s.placement? slab n).any (fun p => p.reserved.any (fun q => q.meets reserved))
      let sibling := fun (n : Nat) => (s.placement? slab n).any (fun c =>
        decide (c.kind = .cutout ∧ c.parentIndex = some pi) && c.rect.meets rect)
      let first := fun (c : Nat → Bool) => ((List.range 12).find? c).toList.flatMap u8
      let common : List (Prop × Reason × List Byte) :=
        [ (x.state.isStock = true, .slabState, []),
          (x.lock = none, .slabLocked, []),
          (kind = 3 ∨ s.job? job ≠ none, .noJob, []),
          (kind = 3 ∨ ∀ j, s.job? job = some j → j.state = .opened, .jobState, []),
          ((s.placementsOf slab).length < 12, .slabFull, []),
          (s.placements.length < 1536, .poolFull, []) ]
      let onSlab : List (Prop × Reason × List Byte) :=
        [ (s.constants.margin ≤ rect.x ∧ s.constants.margin ≤ rect.y
            ∧ rect.x + rect.length + s.constants.kerf + s.constants.margin ≤ x.length
            ∧ rect.y + rect.width + s.constants.kerf + s.constants.margin ≤ x.width, .geometry, []),
          (∀ n < 12, hit n = false, .overlap, first hit) ]
      let ofKind : List (Prop × Reason × List Byte) :=
        if kind = 2 then
          [ (∃ p, s.placement? slab pi = some p ∧ p.kind.isPiece = true ∧ p.state = .planned ∧ p.job = some job,
              .noParent, []),
            (∀ p, s.placement? slab pi = some p → p.rect.x + 50 ≤ rect.x ∧ p.rect.y + 50 ≤ rect.y
              ∧ rect.x + rect.length + 50 ≤ p.rect.x + p.rect.length
              ∧ rect.y + rect.width + 50 ≤ p.rect.y + p.rect.width, .border, []),
            ((s.cutoutsOf slab pi).length < 3, .slabFull, []),
            (∀ n < 12, sibling n = false, .overlap, first sibling) ]
        else if kind = 3 then onSlab ++
          [ (s.constants.remnantMin ≤ rect.length ∧ s.constants.remnantMin ≤ rect.width, .tooSmall, []),
            (x.generation < 3, .generation, []),
            (s.slab? rs = none, .duplicate, []),
            (s.slabs.length < 512, .tableFull, []) ]
        else onSlab ++
          [ (∀ d ∈ x.defects, reserved.meets d = false, .defect,
              (x.defects.findIdx? (fun d => reserved.meets d)).toList.flatMap u8) ]
      let parts := common ++ ofKind
      ∀ (n : Nat) (Q : Prop) (reason : Reason) (detail : List Byte), parts[n]? = some (Q, reason, detail) →
        (∀ (m : Nat) (Q' : Prop) (y : Reason × List Byte), m < n → parts[m]? = some (Q', y) → Q') → ¬ Q →
        refused reason detail)
  ∧
  ∀ (h : Header) (copy : Bool) (slab kind : Nat) (rect : Rect) (job pp pi rs index : Nat) (k : PlacementKind)
    (x : Slab) (j : Job) (s : State),
    let i := Instr.place h slab kind rect job pp pi rs
    let reserved : Rect := ⟨rect.x, rect.y, rect.length + s.constants.kerf, rect.width + s.constants.kerf⟩
    s.Passes i h copy → decodeKind kind = some k → (k = .piece ∨ (k = .mitre ∧ s.groups.mitre = true)) → job ≠ 0 →
    100 ≤ rect.length → rect.length ≤ 3800 → 50 ≤ rect.width → rect.width ≤ 2000 → rect.x ≤ 4000 → rect.y ≤ 2200 →
    s.slab? slab = some x → x.state.isStock = true → x.lock = none →
    s.job? job = some j → j.state = .opened →
    s.placements.length < 1536 → (s.placementsOf slab).length < 12 →
    s.constants.margin ≤ rect.x → s.constants.margin ≤ rect.y →
    rect.x + rect.length + s.constants.kerf + s.constants.margin ≤ x.length →
    rect.y + rect.width + s.constants.kerf + s.constants.margin ≤ x.width →
    (∀ n < 12, ∀ p, s.placement? slab n = some p → ∀ q, p.reserved = some q → reserved.meets q = false) →
    (∀ d ∈ x.defects, reserved.meets d = false) →
    index < 12 → s.placement? slab index = none → (∀ m < index, s.placement? slab m ≠ none) →
    exec i s = .next (finish i h copy
      (.answer (u8 index ++ [1#8] ++ u8 s.constants.kerf ++ count ((s.placementsOf slab).length + 1)))
      ((s.restartSilence h.src).addPlacement
        { slab := slab, index := index, kind := k, job := some job, rect := rect, kerf := some s.constants.kerf,
          parentIndex := none, remnantSlab := none, state := .planned }))

/-- R29 to R32: a REMNANT on such a place, at least the remnant minimum on both sides, of a slab of generation below 3
and under a free slab id, is planned, and its RESERVED record is created in the same event with the slab's defects
clipped and moved into it. Its parent bytes are not read, at any value, and its job is 0 (log entry 20, from R156 and
R168). -/
def Obligations.PlaceRemnantReservesRecord : Prop :=
  ∀ (h : Header) (copy : Bool) (slab : Nat) (rect : Rect) (pp pi rs index : Nat) (x : Slab) (s : State),
    let i := Instr.place h slab 3 rect 0 pp pi rs
    let reserved : Rect := ⟨rect.x, rect.y, rect.length + s.constants.kerf, rect.width + s.constants.kerf⟩
    s.Passes i h copy → s.groups.remnant = true → rs ≠ 0 →
    1 ≤ rect.length → rect.length ≤ 4000 → 1 ≤ rect.width → rect.width ≤ 2200 → rect.x ≤ 4000 → rect.y ≤ 2200 →
    s.slab? slab = some x → x.state.isStock = true → x.lock = none →
    s.placements.length < 1536 → (s.placementsOf slab).length < 12 →
    s.constants.margin ≤ rect.x → s.constants.margin ≤ rect.y →
    rect.x + rect.length + s.constants.kerf + s.constants.margin ≤ x.length →
    rect.y + rect.width + s.constants.kerf + s.constants.margin ≤ x.width →
    (∀ n < 12, ∀ p, s.placement? slab n = some p → ∀ q, p.reserved = some q → reserved.meets q = false) →
    s.constants.remnantMin ≤ rect.length → s.constants.remnantMin ≤ rect.width → x.generation < 3 →
    s.slab? rs = none → s.slabs.length < 512 →
    index < 12 → s.placement? slab index = none → (∀ m < index, s.placement? slab m ≠ none) →
    exec i s = .next (finish i h copy
      (.answer (u8 index ++ [1#8] ++ u8 s.constants.kerf ++ count ((s.placementsOf slab).length + 1) ++ u32 rs
        ++ count (x.defects.filterMap (clipDefect rect)).length))
      (((s.restartSilence h.src).addPlacement
        { slab := slab, index := index, kind := .remnant, job := none, rect := rect, kerf := some s.constants.kerf,
          parentIndex := none, remnantSlab := some rs, state := .planned }).addSlab
        { id := rs, material := x.material, thickness := x.thickness, length := rect.length, width := rect.width,
          defects := x.defects.filterMap (clipDefect rect), basis := 0, allocated := 0, state := .reserved, rack := none,
          bed := none, lock := none, parent := some slab, generation := x.generation + 1, cutMark := false }))

/-- R32, R33: a CUTOUT at least 50 mm within a PLANNED piece or mitre of its own job that has fewer than three cutouts,
none of which it meets, is planned without a kerf of its own. Its presence byte is 01H, and its remnant slab id is not
read, at any value (log entry 20, from R156 and R168). -/
def Obligations.PlaceCutoutWithinParent : Prop :=
  ∀ (h : Header) (copy : Bool) (slab : Nat) (rect : Rect) (job pi rs index : Nat) (x : Slab) (j : Job) (p : Placement)
    (s : State),
    let i := Instr.place h slab 2 rect job 1 pi rs
    s.Passes i h copy → s.groups.cutout = true → job ≠ 0 → pi ≤ 11 →
    1 ≤ rect.length → rect.length ≤ 3700 → 1 ≤ rect.width → rect.width ≤ 1900 → rect.x ≤ 4000 → rect.y ≤ 2200 →
    s.slab? slab = some x → x.state.isStock = true → x.lock = none →
    s.job? job = some j → j.state = .opened →
    s.placements.length < 1536 → (s.placementsOf slab).length < 12 →
    s.placement? slab pi = some p → p.kind.isPiece = true → p.state = .planned → p.job = some job →
    p.rect.x + 50 ≤ rect.x → p.rect.y + 50 ≤ rect.y →
    rect.x + rect.length + 50 ≤ p.rect.x + p.rect.length → rect.y + rect.width + 50 ≤ p.rect.y + p.rect.width →
    (s.cutoutsOf slab pi).length < 3 →
    (∀ n < 12, ∀ c, s.placement? slab n = some c → c.kind = .cutout → c.parentIndex = some pi →
      c.rect.meets rect = false) →
    index < 12 → s.placement? slab index = none → (∀ m < index, s.placement? slab m ≠ none) →
    exec i s = .next (finish i h copy
      (.answer (u8 index ++ [0#8] ++ count ((s.placementsOf slab).length + 1)))
      ((s.restartSilence h.src).addPlacement
        { slab := slab, index := index, kind := .cutout, job := some job, rect := rect, kerf := none,
          parentIndex := some pi, remnantSlab := none, state := .planned }))

/-! ## Saw Stations and Blades (Chapter 3) -/

/-- R39, R40: a LOAD STATION out of form is FORM; one that breaks a placement rule of the classes is refused by the
first it breaks, CLASS_SIDE or TABLE_FULL. R39 to R41, R102: one in form, on its class's side and within the limits of
its class, creates a new entry where its address has none; replaces the configured fields, keeping every runtime field,
where the entry is of the same class and side; and otherwise puts a new entry in the place of the old, or is refused
with IN_USE while that is the SUPERVISOR, the notice station, or a saw with an order or a slab. A RECYCLER so replaced
takes the last sequence number with it and, where it was ATTACHED, the water mode. R43, R158: while there is no
SUPERVISOR, a station with no entry on side A may load itself as SUPERVISOR, side A, tier 0; any other LOAD from an
unknown source is discarded, with STATION/UNKNOWN_SOURCE recorded. -/
def Obligations.LoadStationCreatesOrUpdates : Prop :=
  (∀ (h : Header) (copy : Bool) (address cls stationSide tier : Nat) (saw : Option SawFields) (s : State),
    let i := Instr.loadStation h address cls stationSide tier saw
    s.Passes i h copy →
    let u := s.restartSilence h.src
    let refused := fun (x : Reason) => exec i s = .next (finish i h copy (.reject x []) u)
    let sawFormed := fun (f : SawFields) => 1 ≤ f.kindSet ∧ f.kindSet ≤ 15 ∧ 600 ≤ f.bedLength ∧ f.bedLength ≤ 4000
      ∧ 400 ≤ f.bedWidth ∧ f.bedWidth ≤ 2200 ∧ 10 ≤ f.maxThickness ∧ f.maxThickness ≤ 50 ∧ f.materials.length ≤ 4
      ∧ (∀ m ∈ f.materials, 1 ≤ m ∧ m ≤ 65535) ∧ 1 ≤ f.feedMin ∧ f.feedMin ≤ f.feedMax ∧ f.feedMax ≤ 20000
      ∧ f.sawRate ≤ 100000 ∧ f.wearRate ≤ 100000 ∧ f.patient ≤ 1
    let formed := 1 ≤ address ∧ address ≤ 30 ∧ address ≠ s.address ∧ cls ≤ 6 ∧ stationSide ≤ 1
      ∧ (cls = 1 ∧ tier = 0 ∨ cls ≠ 1 ∧ 1 ≤ tier ∧ tier ≤ 3)
      ∧ (cls ≠ 3 ∧ cls ≠ 4 ∧ saw = none ∨ (cls = 3 ∨ cls = 4) ∧ ∃ f, saw = some f ∧ sawFormed f)
    (¬ formed → refused .form)
    ∧ ∀ c, formed → decodeClass cls = some c →
      let others := s.stations.filter (fun st => decide (st.address ≠ address))
      let parts : List (Prop × Reason) :=
        [ (c = .panel ∨ ((c = .planning ∨ c = .supervisor) ↔ stationSide = 0), .classSide),
          (c.isSaw = true → others.countP (fun st => st.cls.isSaw) < 8, .tableFull),
          (c = .recycler → ∀ st ∈ others, st.cls ≠ .recycler, .tableFull),
          (c = .supervisor → ∀ st ∈ others, st.cls ≠ .supervisor, .tableFull),
          (s.station? address = none → s.stations.length < 24, .tableFull) ]
      ∀ (n : Nat) (Q : Prop) (reason : Reason), parts[n]? = some (Q, reason) →
        (∀ (m : Nat) (Q' : Prop) (y : Reason), m < n → parts[m]? = some (Q', y) → Q') → ¬ Q → refused reason)
  ∧
  (∀ (h : Header) (r : KindRule) (s : State),
    let i := Instr.loadStation h h.src 1 0 0 none
    s.inReset = false → h.side = .a → h.dst = s.address → 1 ≤ h.src → h.src ≤ 30 → h.src ≠ s.address →
    s.station? h.src = none → (∀ st ∈ s.stations, st.cls ≠ .supervisor) →
    s.kindRule? Kind.load = some r → r.disposition = .handle → r.classes.getLsbD 1 = true → s.groups.on r.group = true →
    (24 ≤ s.stations.length → exec i s = .next (finish i h false (.reject .tableFull []) s))
    ∧ (s.stations.length < 24 → exec i s = .next (finish i h false (.answer (u8 h.src ++ u8 1 ++ code .loadCreated))
        (s.addStation ⟨h.src, .a, .supervisor, 0, .absent, none, none⟩))))
  ∧
  (∀ (i : Instr) (h : Header) (s : State), i.wf = true → i.header? = some h → i.kindCode = Kind.load →
    s.inReset = false →
    (h.src = 0 ∨ h.src = 31 ∨ h.src = s.address ∨ (∃ st, s.station? h.src = some st ∧ st.side ≠ h.side)
      ∨ s.station? h.src = none ∧ ((∃ st ∈ s.stations, st.cls = .supervisor) ∨ h.side = .b ∨ h.dst ≠ s.address
        ∨ i ≠ .loadStation h h.src 1 0 0 none)) →
    exec i s = .next
      (s.raise ⟨.stationUnknownSource, h.src, some Kind.load, none, none, some (.side h.side)⟩).flush)
  ∧
  ∀ (h : Header) (copy : Bool) (address cls stationSide tier : Nat) (saw : Option SawFields) (c : StationClass)
    (sd : Side) (cfg : Option SawConfig) (s : State),
    let i := Instr.loadStation h address cls stationSide tier saw
    s.Passes i h copy → 1 ≤ address → address ≤ 30 → address ≠ s.address →
    decodeClass cls = some c → decodeSide stationSide = some sd → sideOk c sd = true →
    (c = .supervisor ∧ tier = 0 ∨ c ≠ .supervisor ∧ 1 ≤ tier ∧ tier ≤ 3) →
    (saw = none ∧ c.isSaw = false ∧ cfg = none
      ∨ ∃ f g, saw = some f ∧ c.isSaw = true ∧ sawConfigOf f = some g ∧ cfg = some g) →
    let others := s.stations.filter (fun st => decide (st.address ≠ address))
    (c.isSaw = true → others.countP (fun st => st.cls.isSaw) < 8) →
    (c = .recycler → ∀ st ∈ others, st.cls ≠ .recycler) → (c = .supervisor → ∀ st ∈ others, st.cls ≠ .supervisor) →
    let u := s.restartSilence h.src
    (s.station? address = none → s.stations.length < 24 →
      exec i s = .next (finish i h copy
        (.answer (u8 address ++ u8 (classCode c) ++ code .loadCreated))
        (u.addStation
          { address := address, side := sd, cls := c, tier := tier, state := .absent, silence := none,
            saw := cfg.map (fun g =>
              { config := g, ready := false, blade := .unknown, kerf := none, bladeSeconds := 0, bed := none,
                queue := [], lastDelivered := none, ackTimer := none }) })))
    ∧ (∀ old, u.station? address = some old → old.cls = c → old.side = sd → old.saw.isSome = c.isSaw →
      ∃ t, exec i s = .next (finish i h copy
          (.answer (u8 address ++ u8 (classCode c) ++ code .loadUpdated)) t)
        ∧ t.station? address = some { old with
            tier := tier
            saw := old.saw.map (fun w => { w with config := cfg.getD w.config }) }
        ∧ (∀ a, a ≠ address → t.station? a = u.station? a)
        ∧ { t with stations := s.stations } = s)
    ∧ (∀ old, u.station? address = some old → ¬ (old.cls = c ∧ old.side = sd) →
      let used := old.cls = .supervisor ∨ (∃ w, old.saw = some w ∧ (w.queue ≠ [] ∨ w.bed ≠ none))
        ∨ address = s.faults.station
      let replaced : State := { u with stations := u.stations.map (fun st => if st.address = address then
        { address := address, side := sd, cls := c, tier := tier, state := .absent, silence := none,
          saw := cfg.map (fun g =>
            { config := g, ready := false, blade := .unknown, kerf := none, bladeSeconds := 0, bed := none,
              queue := [], lastDelivered := none, ackTimer := none }) } else st) }
      let forgotten : State := { replaced with water := { s.water with lastSequence := none } }
      (used → exec i s = .next (finish i h copy (.reject .inUse []) u))
      ∧ (¬ used → exec i s = .next (finish i h copy
          (.answer (u8 address ++ u8 (classCode c) ++ code .loadReplaced))
          (if old.cls = .recycler then
            (if old.state = .attached ∧ s.water.mode ≠ .unsure then forgotten.changeMode .unsure .plantLost []
              else forgotten)
            else replaced))))

/-- R39, R42: a LOAD STATION of class NONE for an address of 0, above 30 or the controller's own is FORM, for one without
an entry STATION_STATE. R41, R42: otherwise it frees the entry at its address; the SUPERVISOR, a saw with an order or a
slab, and the notice station are refused with IN_USE. R102: the deletion of the RECYCLER forgets the last sequence number
and, where it was ATTACHED, makes the water mode UNSURE; a mode that so changes is told with cause PLANT LOST. -/
def Obligations.LoadStationNoneFreesEntry : Prop :=
  ∀ (h : Header) (copy : Bool) (address : Nat) (s : State),
    let i := Instr.loadStationNone h address
    s.Passes i h copy →
    let u := s.restartSilence h.src
    let formed := 1 ≤ address ∧ address ≤ 30 ∧ address ≠ s.address
    (¬ formed → exec i s = .next (finish i h copy (.reject .form []) u))
    ∧ (formed → s.station? address = none → exec i s = .next (finish i h copy (.reject .stationState []) u))
    ∧ ∀ old, formed → s.station? address = some old →
      let used := old.cls = .supervisor ∨ (∃ w, old.saw = some w ∧ (w.queue ≠ [] ∨ w.bed ≠ none))
        ∨ address = s.faults.station
      let freed : State := { u with stations := u.stations.filter (fun st => decide (st.address ≠ address)) }
      let forgotten : State := { freed with water := { s.water with lastSequence := none } }
      let answer := Reply.answer (u8 address ++ count freed.stations.length)
      (used → exec i s = .next (finish i h copy (.reject .inUse []) u))
      ∧ (¬ used → exec i s = .next (finish i h copy answer
          (if old.cls = .recycler then
            (if old.state = .attached ∧ s.water.mode ≠ .unsure then forgotten.changeMode .unsure .plantLost []
              else forgotten)
            else freed)))

/-- R158: an ANNOUNCE whose source can be no station's or has no entry is discarded, with STATION/UNKNOWN_SOURCE
recorded, whether it spells its row or not. R45: one whose class is not its entry's (a byte that is no class's code is
none: log entry 19), or from the other side, is refused with MISMATCH and recorded with the entry's class and side;
the entry, its silence timer included, stays; this comes before the kind rule, whose disposition HANDLE+FORWARD copies
it to side A all the same (log entry 19). Then one of a class that is no saw's that names current work is FORM, and
changes nothing (R45; log entry 19); R160: one above the rule's tier is TIER, of a class not in its set CLASS, of a
disabled group GROUP_OFF; and of what passes, one whose payload is out of form is FORM (R168; it matches where it
carries no class byte), the silence timer of its source restarted. R46, R47, R84: a matching ANNOUNCE attaches an
ABSENT or SILENT station with its silence timer at 10,000 ms and answers its class, its tier and ATTACHED; the
recycler is sent the current mode by VALVE; a saw is presented once (log entry 25), and its orders are resolved first:
an IN_DOUBT order that it names is RUNNING again; one that it does not name is abandoned, as if reported ABANDONED
with 0 blade-seconds (log entry 49; the quantities added after the charges: log entry 38; its placement stays PLANNED,
or goes where it is a detached cutout, and its job closes where it is left with no counts); without one, the
last-delivered order that it names is RUNNING where it is WAITING. Any other work it names is recorded as
STATION/STRAY_REPORT. An ATTACHED station only stays so. -/
def Obligations.AnnounceIsMatchedThenAttaches : Prop :=
  (∀ (h : Header) (cls : Nat) (work : Option (Nat × Nat)) (s : State), s.inReset = false →
    (h.src = 0 ∨ h.src = 31 ∨ h.src = s.address ∨ s.station? h.src = none) →
    exec (.announce h cls work) s = .next
      (s.raise ⟨.stationUnknownSource, h.src, some Kind.announce, none, none, some (.side h.side)⟩).flush)
  ∧
  (∀ (h : Header) (cls : Nat) (work : Option (Nat × Nat)) (st : Station) (r : KindRule) (s : State),
    let i := Instr.announce h cls work
    s.inReset = false → s.badSource h.src = false → s.station? h.src = some st → s.kindRule? Kind.announce = some r →
    (st.side ≠ h.side ∨ classCode st.cls ≠ cls) →
    exec i s = .next (finish i h (decide (r.disposition = .handleForward ∧ h.side = .b)) (.reject .mismatch [])
      (s.raise ⟨.stationMismatch, st.address, some Kind.announce, none, none,
        some (.classAndSide st.cls st.side)⟩)))
  ∧
  (∀ (h : Header) (cls : Nat) (work : Nat × Nat) (st : Station) (r : KindRule) (s : State),
    let i := Instr.announce h cls (some work)
    s.inReset = false → s.badSource h.src = false → s.station? h.src = some st → s.kindRule? Kind.announce = some r →
    st.side = h.side → classCode st.cls = cls → st.cls.isSaw = false →
    exec i s = .next (finish i h (decide (r.disposition = .handleForward ∧ h.side = .b)) (.reject .form []) s))
  ∧
  (∀ (h : Header) (cls : Nat) (work : Option (Nat × Nat)) (st : Station) (r : KindRule) (s : State),
    let i := Instr.announce h cls work
    s.inReset = false → s.badSource h.src = false → s.station? h.src = some st → s.kindRule? Kind.announce = some r →
    st.side = h.side → classCode st.cls = cls → (work ≠ none → st.cls.isSaw = true) →
    r.disposition = .handle ∨ r.disposition = .handleForward →
    let refused := fun (x : Reason) => exec i s = .next (finish i h false (.reject x []) (s.restartSilence h.src))
    (r.maxTier < st.tier → refused .tier)
    ∧ (st.tier ≤ r.maxTier → r.classes.getLsbD (classCode st.cls) = false → refused .cls)
    ∧ (st.tier ≤ r.maxTier → r.classes.getLsbD (classCode st.cls) = true → s.groups.on r.group = false →
        refused .groupOff))
  ∧
  (∀ (side : Side) (t : Telegram) (s : State), s.inReset = false →
    1 ≤ t.dst → t.dst ≤ 31 → t.src ≤ 255 → t.kind = Kind.announce → t.tag ≤ 255 → t.payload.length ≤ 48 →
    parsePayload (t.header side) t.kind t.payload = none →
    let received := exec (.telegramReceived side t.wire) s
    let refused := fun (x : Reason) (copy : Bool) (v : State) =>
      Host.Outcome.next ((conclude (t.header side) t.kind (.reject x [], v)).forwardCopy copy t)
    (t.src = 0 ∨ t.src = 31 ∨ t.src = s.address ∨ s.station? t.src = none →
      received = .next (s.raise ⟨.stationUnknownSource, t.src, some t.kind, none, none, some (.side side)⟩).flush)
    ∧ ∀ st r, s.badSource t.src = false → s.station? t.src = some st → s.kindRule? t.kind = some r →
      let differs := st.side ≠ side ∨ ∃ b, t.payload.head? = some b ∧ classCode st.cls ≠ b.toNat
      let u := s.restartSilence t.src
      (differs → received = refused .mismatch (decide (r.disposition = .handleForward ∧ side = .b))
        (s.raise ⟨.stationMismatch, st.address, some Kind.announce, none, none, some (.classAndSide st.cls st.side)⟩))
      ∧ (¬ differs → r.disposition = .handle ∨ r.disposition = .handleForward →
        (r.maxTier < st.tier → received = refused .tier false u)
        ∧ (st.tier ≤ r.maxTier → r.classes.getLsbD (classCode st.cls) = false → received = refused .cls false u)
        ∧ (st.tier ≤ r.maxTier → r.classes.getLsbD (classCode st.cls) = true → s.groups.on r.group = false →
            received = refused .groupOff false u)
        ∧ (∀ copy, s.PassesKind t.kind (t.header side) copy → received = refused .form copy u)))
  ∧
  (∀ (h : Header) (copy : Bool) (cls : Nat) (work : Option (Nat × Nat)) (st : Station) (s : State),
    let i := Instr.announce h cls work
    s.Passes i h copy → s.station? h.src = some st → classCode st.cls = cls → (work ≠ none → st.cls.isSaw = true) →
    let u := s.restartSilence h.src
    let answer := Reply.answer (u8 (classCode st.cls) ++ u8 st.tier ++ u8 1)
    let attached := u.modifyStation h.src (fun x => { x with state := .attached, silence := some 10000 })
    (st.state = .attached → exec i s = .next (finish i h copy answer u))
    ∧ (st.state ≠ .attached → st.cls.isSaw = false → st.cls ≠ .recycler →
        exec i s = .next (finish i h copy answer attached))
    ∧ (st.state ≠ .attached → st.cls = .recycler → s.recycler? = some st →
        exec i s = .next (finish i h copy answer
          { attached with outbox := s.outbox ++ [.valve h.src s.water.mode] }))
    ∧ (∀ w, st.state ≠ .attached → st.cls.isSaw = true → st.saw = some w → (∀ o ∈ w.queue, o.state ≠ .inDoubt) →
        work = none →
        exec i s = .next (finish i h copy answer { attached with presented := s.presented ++ [h.src] }))
    ∧ (∀ w o, st.state ≠ .attached → st.cls.isSaw = true → st.saw = some w →
        w.queue.find? (fun x => decide (x.state = .inDoubt)) = some o → work = some (o.slab, o.index) →
        exec i s = .next (finish i h copy answer
          { attached.modifyOrder h.src o.slab o.index (fun x => { x with state := .running }) with
            presented := s.presented ++ [h.src] }))
    ∧ (∀ w n, st.state ≠ .attached → st.cls.isSaw = true → st.saw = some w → (∀ o ∈ w.queue, o.state ≠ .inDoubt) →
        work = some n →
        let last := fun (o : CutOrder) => w.lastDelivered = some n ∧ o.state = .waiting
          ∧ w.queue.find? (fun x => decide (x.slab = n.1 ∧ x.index = n.2)) = some o
        let stray : FaultRecord :=
          ⟨.stationStrayReport, h.src, some Kind.announce, some n.1, none, some (.placement n.2)⟩
        (∀ o, last o → exec i s = .next (finish i h copy answer
          { attached.modifyOrder h.src n.1 n.2 (fun x => { x with state := .running }) with
            presented := s.presented ++ [h.src] }))
        ∧ ((∀ o, ¬ last o) → exec i s = .next (finish i h copy answer
            { attached.raise stray with presented := s.presented ++ [h.src] })))
    ∧ (∀ w o, s.Legal → s.Orderly → st.state ≠ .attached → st.cls.isSaw = true → st.saw = some w →
        w.queue.find? (fun x => decide (x.state = .inDoubt)) = some o → work ≠ some (o.slab, o.index) →
        let water := (2 * (o.recycled * s.rates.recycled + o.fresh * s.rates.fresh) + 1000) / 2000
        let named := fun (p : Placement) => p.slab = o.slab ∧ p.index = o.index
        let cause : Cause := ⟨h.src, Kind.announce⟩
        let met : State := match work with
          | none => s
          | some n => s.raise ⟨.stationStrayReport, h.src, some Kind.announce, some n.1, none, some (.placement n.2)⟩
        let v : State := match o.job with
          | none => met
          | some job =>
            let v := ((met.charge cause o.slab job .saw 0).charge cause o.slab job .wear 0).charge
              cause o.slab job .water water
            ((v.addToJob cause o.slab job .recycled o.recycled).addToJob cause o.slab job .fresh o.fresh).addToJob
              cause o.slab job .bladeSeconds 0
        let closing := (s.jobs.filter (fun j => decide (o.job = some j.id ∧ j.state = .closing ∧ j.openOrders = 1
          ∧ j.unsettled = 0))).map Job.id
        let number := (s.closeCounter + 1) % 4294967296
        ∃ t, exec i s = .next (finish i h copy answer t)
          ∧ (∃ st' v, t.station? h.src = some st' ∧ st'.state = .attached ∧ st'.silence = some 10000
              ∧ st'.saw = some v ∧ v.bladeSeconds = min 4294967295 w.bladeSeconds
              ∧ v.lastDelivered ≠ some (o.slab, o.index)
              ∧ v.queue = w.queue.filter (fun y => decide (¬ (y.slab = o.slab ∧ y.index = o.index))))
          ∧ (∀ p ∈ t.placements, p.slab = o.slab → p.index = o.index → p.state = .planned)
          ∧ t.placements = (s.placements.filter (fun p =>
              decide (¬ (named p ∧ p.kind = .cutout ∧ p.parentIndex = none)))).map (fun p =>
                if named p then { p with state := .planned } else p)
          ∧ t.jobs = v.jobs.map (fun y => if o.job = some y.id then
              { y with
                openOrders := y.openOrders - 1
                state := if y.id ∈ closing then .closed else y.state
                closeNumber := if y.id ∈ closing then some number else y.closeNumber } else y)
          ∧ t.bills = s.bills ++ closing ∧ t.closeCounter = (if closing = [] then s.closeCounter else number)
          ∧ t.shop = v.shop ∧ t.faults = v.faults
          ∧ t.outbox = v.outbox ++ closing.map (fun n => .notice (.billReady n number))
          ∧ (∀ job j, o.job = some job → s.job? job = some j → ∃ j', t.job? job = some j'
              ∧ j'.water = min 999999999999 (j.water + water)
              ∧ j'.recycled = min 281474976710655 (j.recycled + o.recycled)
              ∧ j'.fresh = min 281474976710655 (j.fresh + o.fresh)
              ∧ j'.saw = j.saw ∧ j'.wear = j.wear ∧ j'.material = j.material ∧ j'.bladeSeconds = j.bladeSeconds
              ∧ j'.openOrders + 1 = j.openOrders)
          ∧ t.slabs = s.slabs ∧ t.water = s.water ∧ t.line = s.line ∧ t.presented = s.presented ++ [h.src]
          ∧ (∀ n, work = some n → ∃ filled k, Outgoing.notice (.fault
              ⟨.stationStrayReport, h.src, some Kind.announce, some n.1, none, some (.placement n.2)⟩ filled k)
              ∈ t.outbox)))

/-- R49, R83, R102: at the expiry of its silence timer an ATTACHED station is SILENT with its timer stopped, and
STATION/SILENCE is recorded with its address and no kind. A saw loses its ready flag, blade condition and kerf, its
DELIVERED order waits again with no sends, its RUNNING order is IN_DOUBT, and it is presented; the recycler's fault says
PLANT_SILENT, and an UNSURE mode takes the place of another. A timer has expired where no milliseconds are left (log
entry 14): the expiry of any other, a stopped one or that of a station that is not ATTACHED, does nothing. R48: an
arrival that is taken first restarts the timer, and no silence follows. -/
def Obligations.SilenceMakesStationSilent : Prop :=
  ∀ (a : Nat) (s : State),
    (∀ st, s.station? a = some st → st.state = .attached → st.silence = some 0 →
      let silent := fun (f : Saw → Saw) => s.modifyStation a (fun x =>
        { x with state := .silent, silence := none, saw := x.saw.map f })
      let quiet := fun (w : Saw) => { w with ready := false, blade := .unknown, kerf := none }
      let fault := fun (d : Option FaultDetail) => FaultRecord.mk .stationSilence a none none none d
      (st.cls.isSaw = false → st.cls ≠ .recycler →
        exec (.silenceTimerExpiry a) s = .next ((silent quiet).raise (fault none)).flush)
      ∧ (st.cls.isSaw = true →
        exec (.silenceTimerExpiry a) s = .next
          (((silent (fun w =>
            { w with
              ready := false
              blade := .unknown
              kerf := none
              ackTimer := none
              queue := w.queue.map (fun o =>
                match o.state with
                | .delivered =>
                  { o with state := .waiting, sends := 0, deliveredFeed := none, deliveredKerf := none }
                | .running => { o with state := .inDoubt }
                | .waiting => o
                | .inDoubt => o) })).raise (fault none)).present a).flush)
      ∧ (st.cls = .recycler → s.water.mode = .unsure →
        exec (.silenceTimerExpiry a) s = .next ((silent quiet).raise (fault (some .plantSilent))).flush)
      ∧ (st.cls = .recycler → s.water.mode ≠ .unsure →
        exec (.silenceTimerExpiry a) s = .next
          (((silent quiet).raise (fault (some .plantSilent))).changeMode .unsure .plantLost []).flush))
    ∧ ((∀ st, s.station? a = some st → st.state ≠ .attached ∨ st.silence ≠ some 0) →
      exec (.silenceTimerExpiry a) s = .next s)
    ∧ exec (.silenceTimerExpiry a) (s.restartSilence a) = .next (s.restartSilence a)

/-- R51: a SAW STATUS with a kerf outside 1 to 10, or an indicator or flag byte above 1, is refused with FORM and
changes nothing more. R51, R52, R89, R112: any other from an ATTACHED saw sets its blade-seconds to 0 where the blade
was changed, its blade condition from the two indicators, its kerf and its ready flag; its water delta, split at the
current share, goes to its RUNNING order, also to overhead where that is a REMNANT's, or to overhead alone where none
runs; the saw is presented where its ready flag, condition or kerf changed. -/
def Obligations.SawStatusSetsBladeAndWater : Prop :=
  ∀ (h : Header) (copy : Bool) (ready wear vibration changed kerf delta : Nat) (st : Station) (w : Saw) (s : State),
    let i := Instr.sawStatus h ready wear vibration changed kerf delta
    s.Passes i h copy → s.station? h.src = some st → st.state = .attached → st.saw = some w →
    let u := s.restartSilence h.src
    let formed := ready ≤ 1 ∧ wear ≤ 1 ∧ vibration ≤ 1 ∧ changed ≤ 1 ∧ 1 ≤ kerf ∧ kerf ≤ 10
    let blade := if wear = 1 then Blade.worn else if vibration = 1 then Blade.weak else Blade.good
    let seconds := if changed = 1 then 0 else w.bladeSeconds
    let answer := Reply.answer (u8 (bladeCode blade) ++ u32 seconds ++ u8 w.queue.length)
    let taken := u.modifySaw h.src (fun v =>
      { v with
        bladeSeconds := if changed = 1 then 0 else v.bladeSeconds
        blade := blade
        kerf := some kerf
        ready := decide (ready = 1) })
    let fresh := (2 * (delta * s.water.share) + 1000) / 2000
    let recycled := delta - fresh
    let overhead := fun (v : State) => { v with shop := { s.shop with
      recycled := satAdd max63 s.shop.recycled recycled
      fresh := satAdd max63 s.shop.fresh fresh } }
    let toOrder := fun (o : CutOrder) => taken.modifyOrder h.src o.slab o.index (fun x =>
      { x with recycled := satAdd max48 x.recycled recycled, fresh := satAdd max48 x.fresh fresh })
    let told := fun (v : State) =>
      if w.ready ≠ decide (ready = 1) ∨ w.blade ≠ blade ∨ w.kerf ≠ some kerf then
        { v with presented := s.presented ++ [h.src] } else v
    (¬ formed → exec i s = .next (finish i h copy (.reject .form []) u))
    ∧ (formed → (∀ o, w.active = some o → o.state ≠ .running) →
      exec i s = .next (finish i h copy answer (told (overhead taken))))
    ∧ (∀ o, formed → w.active = some o → o.state = .running → o.kind ≠ .remnant →
      exec i s = .next (finish i h copy answer (told (toOrder o))))
    ∧ (∀ o, formed → w.active = some o → o.state = .running → o.kind = .remnant →
      exec i s = .next (finish i h copy answer (told (overhead (toOrder o)))))

/-! ## Order Admission (Chapter 4) -/

/-- R55 to R68, Table 4-2: an ORDER out of form is refused with FORM, one of a slab without a record with NO_SLAB. Any
other is refused by the first part of the nine checks that fails, with its reason and detail: an index without a
placement is PLACEMENT_STATE with none, after the parts on the slab (R61), and a destination that is no saw's is NOT_SAW,
after those on slab, placement, job and cutouts (R64). Where all hold it is admitted: the counter advances, the clamped
order is WAITING at the tail of the saw's queue, the placement is ORDERED, the job's open orders rise by one, and the saw
is presented. -/
def Obligations.OrderIsCheckedThenAdmitted : Prop :=
  ∀ (h : Header) (copy : Bool) (job slab index feed : Nat) (s : State),
    let i := Instr.order h job slab index feed
    s.Passes i h copy →
    let u := s.restartSilence h.src
    let formed := slab ≠ 0 ∧ index ≤ 11 ∧ feed ≠ 0
    let refusedBy := fun (parts : List (Prop × Reason × List Byte)) =>
      ∀ (n : Nat) (Q : Prop) (reason : Reason) (detail : List Byte), parts[n]? = some (Q, reason, detail) →
        (∀ (m : Nat) (Q' : Prop) (y : Reason × List Byte), m < n → parts[m]? = some (Q', y) → Q') → ¬ Q →
        exec i s = .next (finish i h copy (.reject reason detail) u)
    (¬ formed → exec i s = .next (finish i h copy (.reject .form []) u))
    ∧ (formed → s.slab? slab = none → exec i s = .next (finish i h copy (.reject .noSlab []) u))
    ∧ ∀ (x : Slab), formed → s.slab? slab = some x →
      let slabParts : List (Prop × Reason × List Byte) :=
        [ (x.state ≠ .reserved, .noSlab, []),
          (x.state.isStock = true, .slabState, u8 (slabStateCode x.state)),
          (x.lock = none, .slabLocked, x.lock.toList.flatMap (fun l => u8 (lockCode l))) ]
      (s.placement? slab index = none → refusedBy (slabParts ++ [(False, .placementState, opt u8 none)]))
      ∧ ∀ (p : Placement), s.placement? slab index = some p →
        let jobOf := p.job.bind s.job?
        let open? := fun (n : Nat) => (s.placement? slab n).any (fun c =>
          decide (c.kind = .cutout ∧ c.parentIndex = some index ∧ c.state ≠ .cut))
        let planParts : List (Prop × Reason × List Byte) :=
          [ (p.state = .planned, .placementState, opt u8 (some (placementStateCode p.state))),
            (p.job = (if job = 0 then none else some job), .wrongJob, opt u32 p.job),
            (p.job = none ∨ jobOf ≠ none, .noJob, []),
            (∀ j ∈ jobOf, j.state = .opened, .jobState, jobOf.toList.flatMap (fun j => u8 (jobStateCode j.state))),
            (p.kind.isPiece = true → ∀ n < 12, open? n = false, .cutoutsFirst,
              ((List.range 12).find? open?).toList.flatMap u8) ]
        (s.saw? h.dst = none → refusedBy (slabParts ++ planParts ++ [(False, .notSaw, [])]))
        ∧ ∀ (st : Station) (w : Saw), s.station? h.dst = some st → st.saw = some w →
          let sawParts : List (Prop × Reason × List Byte) :=
            [ (st.state = .attached, .stationState, u8 (stationStateCode st.state)),
              (w.config.kinds.getLsbD (kindCode p.kind) = true, .capability, []),
              (x.length ≤ w.config.bedLength ∧ x.width ≤ w.config.bedWidth ∧ x.thickness ≤ w.config.maxThickness,
                .bedSize, []),
              (w.config.materials = [] ∨ x.material ∈ w.config.materials, .material, []),
              (∃ k, w.kerf = some k ∧ k ≤ s.constants.kerf, .kerf, opt u8 w.kerf),
              (w.blade ≠ .worn, .bladeWorn, []),
              (x.state = .staged → ∀ a ∈ x.bed, a = h.dst, .stagedElsewhere, x.bed.toList.flatMap u8),
              (∀ o ∈ s.orders, o.slab = slab → o.saw = h.dst, .splitSlab,
                (s.orders.find? (fun o => decide (o.slab = slab ∧ o.saw ≠ h.dst))).toList.flatMap (fun o => u8 o.saw)),
              (s.water.mode ≠ .halt, .waterHalt, []),
              (p.kind = .cutout → s.water.mode ≠ .conserve ∧ s.water.mode ≠ .unsure, .waterConserve,
                u8 (modeCode s.water.mode)),
              (∀ j ∈ jobOf, ¬ (s.groups.quote = true ∧ j.overQuote = true ∧ j.hold = true), .quote, []),
              (w.queue.length < 6, .queueFull, []) ]
          let parts := slabParts ++ planParts ++ sawParts
          refusedBy parts
          ∧ ((∀ q ∈ parts, q.1) →
            let number := (s.admissionCounter + 1) % 4294967296
            let clamped := min w.config.feedMax (max w.config.feedMin feed)
            let new : CutOrder :=
              { slab := slab, index := index, saw := h.dst, job := p.job, kind := p.kind, requestedFeed := clamped,
                deliveredFeed := none, state := .waiting, sends := 0, recycled := 0, fresh := 0, number := number,
                deliveredKerf := none }
            exec i s = .next (finish i h copy
              (.answer (u8 h.dst ++ u32 number ++ u16 clamped ++ u8 (w.queue.length + 1) ++ u8 (w.queue.length + 1)))
              { u with
                admissionCounter := number
                stations := u.stations.map (fun t =>
                  if t.address = h.dst then
                    { t with saw := t.saw.map (fun v => { v with queue := v.queue ++ [new] }) } else t)
                placements := s.placements.map (fun q =>
                  if q.slab = slab ∧ q.index = index then { q with state := .ordered } else q)
                jobs := s.jobs.map (fun j => if p.job = some j.id then { j with openOrders := j.openOrders + 1 } else j)
                presented := s.presented ++ [h.dst] }))

/-- R70, R36, R141: a WITHDRAW of a slab id of 0 or an index above 11 is FORM; of a slab without a record, or with a
RESERVED one, NO_SLAB; of an index without a placement PLACEMENT_STATE with none, and of a placement that is not ORDERED
with its state. One of a WAITING or IN_DOUBT order takes the order from its queue, clears the last-delivered
record that names it, returns the placement to PLANNED or removes a detached cutout, lowers the job's open orders,
discards the water, closes a CLOSING job left with no counts, and presents the saw; an order the saw holds is IN_FLIGHT.
-/
def Obligations.WithdrawTakesOrderBack : Prop :=
  (∀ (h : Header) (copy : Bool) (slab index : Nat) (s : State),
    let i := Instr.withdraw h slab index
    s.Passes i h copy →
    let refused := fun (x : Reason) (d : List Byte) =>
      exec i s = .next (finish i h copy (.reject x d) (s.restartSilence h.src))
    (slab = 0 ∨ 11 < index → refused .form [])
    ∧ (slab ≠ 0 → index ≤ 11 → (∀ x, s.slab? slab = some x → x.state = .reserved) → refused .noSlab [])
    ∧ ∀ x, slab ≠ 0 → index ≤ 11 → s.slab? slab = some x → x.state ≠ .reserved →
      (s.placement? slab index = none → refused .placementState (opt u8 none))
      ∧ ∀ p, s.placement? slab index = some p → p.state ≠ .ordered →
        refused .placementState (opt u8 (some (placementStateCode p.state))))
  ∧
  ∀ (h : Header) (copy : Bool) (slab index : Nat) (x : Slab) (p : Placement) (o : CutOrder) (s : State),
    let i := Instr.withdraw h slab index
    s.Passes i h copy → slab ≠ 0 → index ≤ 11 → s.slab? slab = some x → x.state ≠ .reserved →
    s.placement? slab index = some p → p.state = .ordered → s.order? slab index = some o →
    let u := s.restartSilence h.src
    (o.state = .delivered ∨ o.state = .running →
      exec i s = .next (finish i h copy (.reject .inFlight (u8 (orderStateCode o.state))) u))
    ∧ (o.state = .waiting ∨ o.state = .inDoubt →
      let removed : State :=
        { u with
          placements :=
            if p.kind = .cutout ∧ p.parentIndex = none then
              s.placements.filter (fun q => decide (¬ (q.slab = slab ∧ q.index = index)))
            else s.placements.map (fun q => if q.slab = slab ∧ q.index = index then { q with state := .planned } else q)
          stations := u.stations.map (fun t =>
            if t.address = o.saw then
              { t with saw := t.saw.map (fun w =>
                { w with
                  queue := w.queue.filter (fun y => decide (¬ (y.slab = slab ∧ y.index = index)))
                  lastDelivered := if w.lastDelivered = some (slab, index) then none else w.lastDelivered }) }
            else t)
          jobs := s.jobs.map (fun j => if o.job = some j.id then { j with openOrders := j.openOrders - 1 } else j) }
      exec i s = .next (finish i h copy
        (.answer (u8 o.saw ++ u32 o.number ++ u8 (orderStateCode o.state) ++ amount o.recycled ++ amount o.fresh))
        ((removed.closeOf o.job).present o.saw)))

/-! ## Delivery and Cut Reports (Chapter 5) -/

/-- R71: RELEASE LINE answers the line state before it; from HELD the line is RUN and every saw is presented in
ascending address order; on a RUN line it changes nothing. R44, R72, R73, R108: a LINE RESET sheds every WAITING order
and leaves the others IN_DOUBT. A shed placement is PLANNED again, or gone where it is a detached cutout; the jobs lose
their shed orders and keep their charges, and those that are then ready close in ascending id, each with its BILL_READY
(R141; log entry 24). Every station is ABSENT with its timers stopped and its saw fields gone; the line is HELD, the
water mode UNSURE with its rules CLEAR, its window aborted and no last sequence number. A mode that so changes is told by
WATER_MODE with cause LINE RESET, after the BILL_READYs (the model's choice: log entry 18) and with the rules whose
excursion ended (log entry 26). No saw is presented, and the rest stays. -/
def Obligations.LineIsReleasedAndReset : Prop :=
  (∀ (h : Header) (copy : Bool) (s : State),
    let i := Instr.releaseLine h
    s.Passes i h copy →
    let u := s.restartSilence h.src
    (s.line = .run → exec i s = .next (finish i h copy (.answer (u8 (lineCode .run))) u))
    ∧ (s.line = .held → exec i s = .next (finish i h copy (.answer (u8 (lineCode .held)))
        { u with
          line := .run
          presented := s.presented ++ (u.stations.filter (fun st => st.saw.isSome)).map Station.address })))
  ∧
  ∀ (h : Header) (copy : Bool) (s : State),
    let i := Instr.lineReset h
    s.Legal → s.Orderly → s.Passes i h copy →
    let shed := fun (p : Placement) => ∃ o ∈ s.orders, o.state = .waiting ∧ o.slab = p.slab ∧ o.index = p.index
    let lowered := s.jobs.map (fun j =>
      { j with openOrders := j.openOrders - s.orders.countP (fun o => decide (o.state = .waiting ∧ o.job = some j.id)) })
    let ready := (lowered.filter (fun j =>
      decide (j.state = .closing ∧ j.openOrders = 0 ∧ j.unsettled = 0))).map Job.id
    let number := fun (n : Nat) => (s.closeCounter + n + 1) % 4294967296
    let holds := fun (r : CompareRule) => r.state ≠ .clear ∧ ∀ n, r.state ≠ .tripping n
    ∃ ended : List (Nat × Bool),
      (∀ n b, (n, b) ∈ ended ↔ b = false ∧ ∃ r, s.water.rules[n]? = some r ∧ holds r)
      ∧ ended.Pairwise (fun x y => x.1 < y.1)
      ∧ exec i s = .next (finish i h copy
        (.answer (count (s.orders.countP (fun o => decide (o.state = .waiting)))
          ++ count (s.orders.countP (fun o => decide (o.state ≠ .waiting)))))
        { s with
          stations := s.stations.map (fun st =>
            { st with
              state := .absent
              silence := none
              saw := st.saw.map (fun w =>
                { w with
                  ready := false
                  blade := .unknown
                  kerf := none
                  lastDelivered := none
                  ackTimer := none
                  queue := (w.queue.filter (fun o => decide (o.state ≠ .waiting))).map (fun o =>
                    { o with state := .inDoubt }) }) })
          placements := (s.placements.filter (fun p =>
              decide (¬ (shed p ∧ p.kind = .cutout ∧ p.parentIndex = none)))).map (fun p =>
            if shed p then { p with state := .planned } else p)
          jobs := lowered.map (fun j => if j.id ∈ ready then
            { j with state := .closed, closeNumber := some (number (ready.idxOf j.id)) } else j)
          bills := s.bills ++ ready
          closeCounter := (s.closeCounter + ready.length) % 4294967296
          line := .held
          water := { s.water with
            rules := s.water.rules.map (fun r => { r with state := .clear })
            mode := .unsure
            windowCount := 0
            windowRecycled := 0
            windowFresh := 0
            lastSequence := none }
          outbox := s.outbox ++ ready.map (fun j => .notice (.billReady j (number (ready.idxOf j))))
            ++ (if s.water.mode = .unsure then [] else [.notice (.waterMode s.water.mode .unsure .lineReset ended)]) })

/-- R71, R100: an evaluation is in its turn where the saw is presented and no saw of a lower address that was presented
before it still waits; out of its turn nothing happens (log entry 13). R74 to R77, R81: in its turn, of a saw that is
ATTACHED and ready, on a RUN line and without an active order, the first WAITING order whose slab is STAGED on it
without a lock, and that the water mode and the blade let pass, is delivered: it is DELIVERED with its feed and one
send, it is the last-delivered order, the acknowledgement timer runs unless the saw is patient, and the ORDER of Table
5-2 is produced on side B. Otherwise nothing but the presentation is used up. -/
def Obligations.EvaluationDeliversFirstOrder : Prop :=
  (∀ (saw : Nat) (s : State),
    saw ∉ s.presented ∨ (∃ a ∈ s.presented.takeWhile (fun a => decide (a ≠ saw)), a < saw ∧ s.saw? a ≠ none) →
    exec (.deliveryEvaluation saw) s = .next s)
  ∧
  ∀ (saw : Nat) (st : Station) (w : Saw) (s : State),
    saw ∈ s.presented → (∀ a ∈ s.presented.takeWhile (fun a => decide (a ≠ saw)), a < saw → s.saw? a = none) →
    s.station? saw = some st → st.saw = some w →
    let gates := s.line = .run ∧ st.state = .attached ∧ w.ready = true ∧ ∀ o ∈ w.queue, o.state = .waiting
    let limited := s.water.mode = .conserve ∨ s.water.mode = .unsure
    let passes := fun (o : CutOrder) =>
      (∃ x, s.slab? o.slab = some x ∧ x.state = .staged ∧ x.bed = some saw ∧ x.lock = none)
      ∧ s.water.mode ≠ .halt ∧ ¬ (o.kind = .cutout ∧ limited)
      ∧ (w.blade = .good ∨ (w.blade = .weak ∧ o.kind ≠ .mitre))
    let used : State := { s with presented := s.presented.erase saw }
    (¬ gates ∨ (∀ o ∈ w.queue, ¬ passes o) → exec (.deliveryEvaluation saw) s = .next used)
    ∧ (∀ front o rest p feed, gates → w.queue = front ++ o :: rest → (∀ y ∈ front, ¬ passes y) → passes o →
        s.placement? o.slab o.index = some p →
        (limited → feed = min o.requestedFeed s.constants.conserveFeed) → (¬ limited → feed = o.requestedFeed) →
        let telegram : Telegram :=
          { dst := saw, src := s.address, kind := Kind.order, tag := o.number % 256,
            payload := u32 o.slab ++ u8 o.index ++ u8 (kindCode o.kind) ++ u16 p.rect.x ++ u16 p.rect.y ++ u16 p.rect.length
              ++ u16 p.rect.width ++ u8 s.constants.kerf ++ u16 feed }
        let delivered : State := { used with
          stations := s.stations.map (fun t =>
            if t.address = saw then
              { t with saw := t.saw.map (fun v =>
                { v with
                  queue := v.queue.map (fun y =>
                    if y.slab = o.slab ∧ y.index = o.index then
                      { y with
                        state := .delivered
                        sends := 1
                        deliveredFeed := some feed
                        deliveredKerf := some s.constants.kerf }
                    else y)
                  lastDelivered := some (o.slab, o.index)
                  ackTimer := if v.config.patient then none else some 400 }) }
            else t) }
        exec (.deliveryEvaluation saw) s = .next (delivered.produce .b telegram).flush)

/-- R76: no order passes from WAITING to DELIVERED while the line is HELD, the water mode is HALT, or its slab is
locked. An order that is DELIVERED after a command was DELIVERED on the same saw before it, with the same feed, or the
command is a delivery evaluation on a RUN line, with the mode not HALT and the slab STAGED without a lock. -/
def Obligations.OnlyEvaluationDelivers : Prop :=
  ∀ (c : Instr) (s t : State) (o : CutOrder), exec c s = .next t → o ∈ t.orders → o.state = .delivered →
    (∃ p ∈ s.orders, p.slab = o.slab ∧ p.index = o.index ∧ p.saw = o.saw ∧ p.number = o.number
      ∧ p.deliveredFeed = o.deliveredFeed ∧ p.state = .delivered)
    ∨ (∃ saw x, c = .deliveryEvaluation saw ∧ s.line = .run ∧ s.water.mode ≠ .halt
      ∧ s.slab? o.slab = some x ∧ x.state = .staged ∧ x.lock = none)

/-- R78: an ORDER ACK of the saw's DELIVERED order makes it RUNNING and stops the timer; one of its RUNNING order
changes nothing and is answered alike; one that names anything else is refused with PLACEMENT_STATE. -/
def Obligations.OrderAckStartsTheCut : Prop :=
  ∀ (h : Header) (copy : Bool) (slab index : Nat) (st : Station) (w : Saw) (s : State),
    let i := Instr.orderAck h slab index
    s.Passes i h copy → s.station? h.src = some st → st.state = .attached → st.saw = some w →
    let u := s.restartSilence h.src
    (∀ o, w.active = some o → o.slab = slab → o.index = index → o.state = .delivered →
      exec i s = .next (finish i h copy (.answer (u32 o.number ++ u8 2))
        (u.modifySaw h.src (fun v =>
          { v with
            queue := v.queue.map (fun y => if y.slab = slab ∧ y.index = index then { y with state := .running } else y)
            ackTimer := none }))))
    ∧ (∀ o, w.active = some o → o.slab = slab → o.index = index → o.state = .running →
      exec i s = .next (finish i h copy (.answer (u32 o.number ++ u8 2)) u))
    ∧ ((∀ o, w.active = some o → o.slab ≠ slab ∨ o.index ≠ index ∨ o.state = .inDoubt) →
      exec i s = .next (finish i h copy (.reject .placementState []) u))

/-- R82, R36, R141: an ORDER DECLINE of the saw's DELIVERED or RUNNING order returns its placement, takes it from the
queue and from its job's count, closes a job left ready, adds its water to overhead unless it is a REMNANT's, offers
DECLINED (after the BILL_READY of that closing: the model's choice, log entry 18) and presents the saw; of anything else
it is refused with PLACEMENT_STATE. -/
def Obligations.OrderDeclineEndsTheOrder : Prop :=
  ∀ (h : Header) (copy : Bool) (slab index : Nat) (st : Station) (w : Saw) (s : State),
    let i := Instr.orderDecline h slab index
    s.Passes i h copy → s.station? h.src = some st → st.state = .attached → st.saw = some w →
    let u := s.restartSilence h.src
    (∀ o, w.active = some o → o.slab = slab → o.index = index → o.saw = h.src → o.state = .delivered ∨ o.state = .running →
      ∀ p, s.placement? slab index = some p →
      let left : State := State.closeOf o.job
        { u with
          placements :=
            if p.kind = .cutout ∧ p.parentIndex = none then
              s.placements.filter (fun q => decide (¬ (q.slab = slab ∧ q.index = index)))
            else s.placements.map (fun q => if q.slab = slab ∧ q.index = index then { q with state := .planned } else q)
          stations := u.stations.map (fun t =>
            if t.address = h.src then
              { t with saw := t.saw.map (fun v =>
                { v with
                  queue := v.queue.filter (fun y => decide (¬ (y.slab = slab ∧ y.index = index)))
                  lastDelivered := if v.lastDelivered = some (slab, index) then none else v.lastDelivered
                  ackTimer := if o.state = .delivered then none else v.ackTimer }) }
            else t)
          jobs := s.jobs.map (fun j => if o.job = some j.id then { j with openOrders := j.openOrders - 1 } else j) }
      let recycled := if o.kind = .remnant then 0 else o.recycled
      let fresh := if o.kind = .remnant then 0 else o.fresh
      exec i s = .next (finish i h copy (.answer (u32 o.number))
        { left with
          shop := { s.shop with
            recycled := min 9223372036854775807 (s.shop.recycled + recycled)
            fresh := min 9223372036854775807 (s.shop.fresh + fresh) }
          outbox := left.outbox ++ [.notice (.declined h.src slab index o.number o.job recycled fresh)]
          presented := s.presented ++ [h.src] }))
    ∧ ((∀ o, w.active = some o → o.slab ≠ slab ∨ o.index ≠ index ∨ o.state = .inDoubt) →
      exec i s = .next (finish i h copy (.reject .placementState []) u))

/-- R79, R80: at the expiry of an acknowledgement timer the DELIVERED order is sent again with the fields of its first
send while it was sent fewer than four times; at four the saw is SILENT, the order waits again, DELIVERY/NO_ANSWER is
recorded, ORDER_RETURNED is offered and the saw is presented (log entry 25). A timer has expired where no milliseconds
are left (log entry 14); without that, or without a DELIVERED order, nothing happens. -/
def Obligations.AckTimerResendsOrEnds : Prop :=
  ∀ (saw : Nat) (st : Station) (w : Saw) (s : State), s.station? saw = some st → st.saw = some w →
    (∀ o p feed kerf, w.ackTimer = some 0 → w.active = some o → o.state = .delivered → o.saw = saw → o.sends < 4 →
      s.placement? o.slab o.index = some p → o.deliveredFeed = some feed → o.deliveredKerf = some kerf →
      exec (.ackTimerExpiry saw) s = .next
        (((s.modifySaw saw (fun v =>
            { v with
              queue := v.queue.map (fun y =>
                if y.slab = o.slab ∧ y.index = o.index then { y with sends := y.sends + 1 } else y)
              ackTimer := some 400 })).produce .b
          { dst := saw, src := s.address, kind := Kind.order, tag := o.number % 256,
            payload := u32 o.slab ++ u8 o.index ++ u8 (kindCode o.kind) ++ u16 p.rect.x ++ u16 p.rect.y ++ u16 p.rect.length
              ++ u16 p.rect.width ++ u8 kerf ++ u16 feed }).flush))
    ∧ (∀ o, w.ackTimer = some 0 → w.active = some o → o.state = .delivered → o.saw = saw → 4 ≤ o.sends →
      exec (.ackTimerExpiry saw) s = .next
        ((((s.modifyStation saw (fun t =>
            { t with
              state := .silent
              silence := none
              saw := t.saw.map (fun v =>
                { v with
                  ready := false
                  blade := .unknown
                  kerf := none
                  ackTimer := none
                  queue := v.queue.map (fun y =>
                    if y.slab = o.slab ∧ y.index = o.index then
                      { y with state := .waiting, sends := 0, deliveredFeed := none, deliveredKerf := none }
                    else y) }) })).raise
            ⟨.deliveryNoAnswer, saw, some Kind.order, some o.slab, o.job,
              some (.placementAndNumber o.index o.number)⟩).notify
            (.orderReturned saw o.slab o.index o.number o.job .noAnswer)).present saw).flush)
    ∧ (w.ackTimer ≠ some 0 ∨ (∀ o, w.active = some o → o.state ≠ .delivered) → exec (.ackTimerExpiry saw) s = .next s)

/-- R85, R86: a CUT REPORT out of form is refused with FORM; one that names no order the saw holds, but for a SILENT
saw's last-delivered order still WAITING (one that is IN_DOUBT is none), is stray: refused with PLACEMENT_STATE and
recorded as STATION/STRAY_REPORT, and nothing else comes of it. -/
def Obligations.StrayReportsAreDiscarded : Prop :=
  ∀ (h : Header) (copy : Bool) (slab index outcome seconds : Nat) (st : Station) (w : Saw) (s : State),
    let i := Instr.cutReport h slab index outcome seconds
    s.Passes i h copy → s.station? h.src = some st → st.saw = some w →
    let u := s.restartSilence h.src
    (slab = 0 ∨ 11 < index ∨ 2 < outcome → exec i s = .next (finish i h copy (.reject .form []) u))
    ∧ (slab ≠ 0 → index ≤ 11 → outcome ≤ 2 →
        (∀ o, w.active = some o → o.slab ≠ slab ∨ o.index ≠ index ∨ o.state = .inDoubt) →
        ¬ (st.state = .silent ∧ w.lastDelivered = some (slab, index)
          ∧ ∃ o ∈ w.queue, o.slab = slab ∧ o.index = index ∧ o.state = .waiting) →
        exec i s = .next (finish i h copy (.reject .placementState [])
          (u.raise ⟨.stationStrayReport, h.src, some Kind.cutReport, some slab, none, some (.placement index)⟩)))

/-- R85 to R88, R113 to R115, R121: a DONE report of a PIECE or MITRE the saw holds, on a slab and for a job with
records and with room in every accumulator, charges the job saw, wear, water and provisional material, adds the material
to the slab's allocated cents, the seconds to the saw's counter, makes the placement CUT and sets the slab's cut mark,
takes the order away, counts the piece, marks the job over its quote where its sum reached the limit, and presents the
saw. R120: where it marks the job, and only there, OVER_QUOTE is offered with the limit, the sum of the four charges
after the first charge that reached it (saw, wear, water, material in their order: log entry 38), and the hold flag. -/
def Obligations.DonePieceIsCharged : Prop :=
  ∀ (h : Header) (copy : Bool) (slab index seconds job : Nat) (st : Station) (w : Saw) (o : CutOrder) (x : Slab)
    (p : Placement) (j : Job) (s : State),
    let i := Instr.cutReport h slab index 0 seconds
    s.Bounded → s.Passes i h copy → s.station? h.src = some st → st.saw = some w → slab ≠ 0 → index ≤ 11 →
    w.active = some o → o.slab = slab → o.index = index → o.saw = h.src → o.state = .delivered ∨ o.state = .running →
    o.kind.isPiece = true → o.job = some job → s.slab? slab = some x → s.placement? slab index = some p →
    p.kind = o.kind → s.job? job = some j →
    let saw := (2 * (seconds * w.config.sawRate) + 3600) / 7200
    let wear := (2 * (seconds * w.config.wearRate) + 3600) / 7200
    let water := (2 * (o.recycled * s.rates.recycled + o.fresh * s.rates.fresh) + 1000) / 2000
    let material := x.basis * ((p.rect.length + p.kerf.getD 0) * (p.rect.width + p.kerf.getD 0)) / (x.length * x.width)
    j.saw + saw ≤ 999999999999 → j.wear + wear ≤ 999999999999 → j.water + water ≤ 999999999999 →
    j.material + material ≤ 999999999999 → j.recycled + o.recycled ≤ 281474976710655 →
    j.fresh + o.fresh ≤ 281474976710655 → j.bladeSeconds + seconds ≤ 4294967295 →
    let sum := j.material + j.saw + j.wear + j.water + saw + wear + water + material
    let marked := decide (s.groups.quote = true ∧ j.overQuote = false ∧ ∃ l, j.limit = some l ∧ l ≤ sum)
    ∃ t, exec i s = .next (finish i h copy
        (.answer (u32 o.number ++ u8 0 ++ amount saw ++ amount wear ++ amount water ++ amount material
          ++ code .chargedToJob ++ code .chargedToJob ++ code .chargedToJob ++ code .chargedToJob
          ++ amount o.fresh ++ amount o.recycled ++ flag false ++ flag marked)) t)
      ∧ t.job? job = some { j with
          saw := j.saw + saw
          wear := j.wear + wear
          water := j.water + water
          material := j.material + material
          recycled := j.recycled + o.recycled
          fresh := j.fresh + o.fresh
          bladeSeconds := j.bladeSeconds + seconds
          overQuote := j.overQuote || marked
          piecesCut := min 65535 (j.piecesCut + 1)
          unsettled := j.unsettled + 1
          openOrders := j.openOrders - 1 }
      ∧ (∀ n, n ≠ job → t.job? n = s.job? n)
      ∧ t.slabs = s.slabs.map (fun y =>
          if y.id = slab then { y with allocated := y.allocated + material, cutMark := true } else y)
      ∧ t.placements = s.placements.map (fun q =>
          if q.slab = slab ∧ q.index = index then { q with state := .cut } else q)
      ∧ t.stations = ((s.restartSilence h.src).modifySaw h.src (fun v =>
          { v with
            bladeSeconds := min 4294967295 (v.bladeSeconds + seconds)
            queue := v.queue.filter (fun y => decide (¬ (y.slab = slab ∧ y.index = index)))
            lastDelivered := if v.lastDelivered = some (slab, index) then none else v.lastDelivered
            ackTimer := if o.state = .delivered then none else v.ackTimer })).stations
      ∧ t.shop = s.shop ∧ t.water = s.water ∧ t.bills = s.bills ∧ t.line = s.line ∧ t.faults = s.faults
      ∧ t.presented = s.presented ++ [h.src]
      ∧ (marked = false → t.outbox = s.outbox)
      ∧ (∀ l n, marked = true → j.limit = some l →
          let before := j.material + j.saw + j.wear + j.water
          [before + saw, before + saw + wear, before + saw + wear + water, sum].find? (fun m => decide (l ≤ m)) = some n →
          t.outbox = s.outbox ++ [.notice (.overQuote job l n j.hold)])

/-- R116, R117: an addition to a job's accumulator that fits changes that accumulator alone; one past its greatest
value leaves it there, sets the job's SATURATED flag, and records COST/SATURATED with the telegram's source and kind,
the slab, the job and the accumulator. R116, R120: a charge in cents also puts the excess into the shop overflow, and
then, with QUOTE enabled, a job whose sum has reached its limit, and that is not marked yet, is marked and OVER_QUOTE
is offered. R36, R53, R85 to R88, R114, R121, R125 to R127, R131, R132, R141: whatever its outcome, a report of the
order the saw holds, or from a SILENT saw of its last-delivered order still WAITING, is answered with its account (its
marks and flags: log entries 23 and 45) and completes the order: the saw is ATTACHED with its silence timer at 10,000
ms and the seconds in its counter, and is presented, once, after a BROKE that takes its other orders away or an
honoured race report too (log entry 25); the charges are made so in the order of log entry 38, for a job, or saw and
wear to overhead where the order names none; the order is gone. DONE leaves the placement CUT; ABANDONED leaves it
PLANNED, or gone where it is a detached cutout; no outcome but DONE charges material. BROKE, in a sound state, records
STOCK/BROKEN (first: log entry 27), takes the slab's other orders away with ORDER_RETURNED of cause BREAK each in
queue order, and settles the slab: only its CUT placements stay, its CUT remnants enter stock with their share of the
basis, the RESERVED records of the others are freed, the residue goes to shop loss, the slab is BROKEN, and
SLAB_SETTLED is offered. The CLOSING jobs so left with no counts are CLOSED: the order's, or after BROKE every one in
ascending id (log entry 24), each with its BILL_READY. Nothing else changes. -/
def Obligations.ReportedOrdersAreCompleted : Prop :=
  (∀ (c : Cause) (slab job n : Nat) (a : Accumulator) (j : Job) (s : State), s.job? job = some j →
    let change := fun (f : Job → Job) (v : State) =>
      { v with jobs := v.jobs.map (fun y => if y.id = job then f y else y) }
    let held := match a with
      | .material => j.material
      | .saw => j.saw
      | .wear => j.wear
      | .water => j.water
      | .recycled => j.recycled
      | .fresh => j.fresh
      | .bladeSeconds => j.bladeSeconds
    let greatest := match a with
      | .material | .saw | .wear | .water => 999999999999
      | .recycled | .fresh => 281474976710655
      | .bladeSeconds => 4294967295
    let put := fun (m : Nat) (y : Job) => match a with
      | .material => { y with material := m }
      | .saw => { y with saw := m }
      | .wear => { y with wear := m }
      | .water => { y with water := m }
      | .recycled => { y with recycled := m }
      | .fresh => { y with fresh := m }
      | .bladeSeconds => { y with bladeSeconds := m }
    let fault : FaultRecord := ⟨.costSaturated, c.src, some c.kind, some slab, some job, some (.accumulator a)⟩
    (held + n ≤ greatest → s.addToJob c slab job a n = change (put (held + n)) s)
    ∧ (greatest < held + n →
        s.addToJob c slab job a n = (change (fun y => { put greatest y with saturated := true }) s).raise fault)
    ∧ (let spilt := min 9223372036854775807 (s.shop.overflow + (held + n - greatest))
      let v := ({ s with shop := { s.shop with overflow := spilt } }).addToJob c slab job a n
      ∀ y, v.job? job = some y →
        let sum := y.material + y.saw + y.wear + y.water
        (∀ l, s.groups.quote = true → y.overQuote = false → y.limit = some l → l ≤ sum →
          s.charge c slab job a n =
            { change (fun y => { y with overQuote := true }) v with
              outbox := v.outbox ++ [.notice (.overQuote job l sum y.hold)] })
        ∧ (s.groups.quote = false ∨ y.overQuote = true ∨ (∀ l, y.limit = some l → sum < l) →
          s.charge c slab job a n = v)))
  ∧
  ∀ (h : Header) (copy : Bool) (slab index outcome seconds : Nat) (st : Station) (w : Saw) (o : CutOrder) (s : State),
    let i := Instr.cutReport h slab index outcome seconds
    s.Legal → s.Orderly → s.Passes i h copy → s.station? h.src = some st → st.saw = some w →
    slab ≠ 0 → index ≤ 11 → outcome ≤ 2 → o ∈ w.queue → o.slab = slab → o.index = index →
    (∀ p ∈ s.placements, p.slab = slab → p.remnantSlab ≠ some slab) →
    (o.state = .delivered ∨ o.state = .running
      ∨ (o.state = .waiting ∧ st.state = .silent ∧ w.lastDelivered = some (slab, index))) →
    let saw := (2 * (seconds * w.config.sawRate) + 3600) / 7200
    let wear := (2 * (seconds * w.config.wearRate) + 3600) / 7200
    let water := (2 * (o.recycled * s.rates.recycled + o.fresh * s.rates.fresh) + 1000) / 2000
    -- the charges, and the account of them
    let piece := outcome = 0 ∧ o.kind.isPiece = true
    let basisOf := fun (x : Slab) (p : Placement) => x.basis * p.area / (x.length * x.width)
    let material := if piece ∧ o.job ≠ none then
      ((s.slab? slab).bind (fun x => (s.placement? slab index).map (basisOf x))).getD 0 else 0
    let cause : Cause := ⟨h.src, Kind.cutReport⟩
    let v : State := match o.job with
      | none =>
        { s with shop := { s.shop with
            saw := min 9223372036854775807 (s.shop.saw + saw)
            wear := min 9223372036854775807 (s.shop.wear + wear) } }
      | some job =>
        let v := ((s.charge cause slab job .saw saw).charge cause slab job .wear wear).charge cause slab job .water water
        let v := if piece then v.charge cause slab job .material material else v
        ((v.addToJob cause slab job .recycled o.recycled).addToJob cause slab job .fresh o.fresh).addToJob
          cause slab job .bladeSeconds seconds
    let newly := fun (f : Job → Bool) => o.job.any (fun n => (v.job? n).any f && !(s.job? n).any f)
    let place := code (if o.job = none then .chargedToOverhead else .chargedToJob)
    let account := amount saw ++ amount wear ++ amount (if o.job = none then 0 else water) ++ amount material
      ++ place ++ place ++ place ++ place ++ amount o.fresh ++ amount o.recycled
      ++ flag (newly Job.saturated) ++ flag (newly Job.overQuote)
    -- the orders and pieces that a job loses, and the jobs that close
    let named := fun (p : Placement) => p.slab = slab ∧ p.index = index
    let gone := fun (y : CutOrder) => y.slab = slab ∧ (outcome = 2 ∨ y.index = index)
    let fallen := fun (n : Nat) => s.orders.countP (fun y => decide (gone y ∧ y.job = some n))
    let counted := fun (n : Nat) => if piece ∧ o.job = some n then 1 else 0
    let settled := fun (n : Nat) => if outcome = 2 then s.placements.countP (fun p =>
      decide (p.slab = slab ∧ p.kind.isPiece = true ∧ p.state = .cut ∧ p.job = some n)) else 0
    let closing := (s.jobs.filter (fun j => decide ((outcome = 2 ∨ o.job = some j.id) ∧ j.state = .closing
      ∧ j.openOrders = fallen j.id ∧ j.unsettled + counted j.id = settled j.id))).map Job.id
    let number := fun (n : Nat) => (s.closeCounter + closing.idxOf n + 1) % 4294967296
    let bills := closing.map (fun n => Outgoing.notice (.billReady n (number n)))
    ∃ content t, exec i s = .next (finish i h copy (.answer (u32 o.number ++ u8 outcome ++ content)) t)
      ∧ (∃ st' v, t.station? h.src = some st' ∧ st'.state = .attached ∧ st'.saw = some v
          ∧ v.bladeSeconds = min 4294967295 (w.bladeSeconds + seconds) ∧ v.ready = w.ready ∧ v.blade = w.blade)
      ∧ (∀ job j, o.job = some job → s.job? job = some j → ∃ j', t.job? job = some j'
          ∧ j'.saw = min 999999999999 (j.saw + saw) ∧ j'.wear = min 999999999999 (j.wear + wear)
          ∧ j'.water = min 999999999999 (j.water + water) ∧ j'.openOrders < j.openOrders
          ∧ j'.recycled = min 281474976710655 (j.recycled + o.recycled)
          ∧ j'.fresh = min 281474976710655 (j.fresh + o.fresh)
          ∧ j'.bladeSeconds = min 4294967295 (j.bladeSeconds + seconds)
          ∧ j'.material = min 999999999999 (j.material + material)
          ∧ (outcome ≠ 0 → j'.material = j.material))
      ∧ (o.job = none → t.shop.saw = min 9223372036854775807 (s.shop.saw + saw)
          ∧ t.shop.wear = min 9223372036854775807 (s.shop.wear + wear) ∧ t.shop.recycled = s.shop.recycled)
      ∧ (∀ y ∈ t.orders, ¬ (y.slab = slab ∧ y.index = index))
      ∧ (outcome = 0 → ∃ p, t.placement? slab index = some p ∧ p.state = .cut)
      ∧ (outcome = 1 → ∀ p ∈ t.placements, p.slab = slab → p.index = index → p.state = .planned)
      ∧ (outcome = 2 → (∀ y ∈ t.orders, y.slab ≠ slab) ∧ (∀ p ∈ t.placements, p.slab = slab → p.state = .cut)
          ∧ (∀ x, s.slab? slab = some x → ∃ x', t.slab? slab = some x' ∧ x'.state = .broken)
          ∧ ∃ filled n, Outgoing.notice (.fault
              ⟨.stockBroken, h.src, some Kind.cutReport, some slab, o.job, some (.placement index)⟩ filled n) ∈ t.outbox)
      ∧ content = account
      ∧ t.presented = s.presented ++ [h.src]
      ∧ t.stations = s.stations.map (fun y => if y.address = h.src then
          { y with
            state := .attached
            silence := some 10000
            saw := y.saw.map (fun q =>
              { q with
                bladeSeconds := min 4294967295 (q.bladeSeconds + seconds)
                queue := q.queue.filter (fun z => decide (¬ gone z))
                lastDelivered := if ∃ z ∈ q.queue, gone z ∧ q.lastDelivered = some (z.slab, z.index) then none
                  else q.lastDelivered
                ackTimer := if o.state = .delivered then none else q.ackTimer }) } else y)
      ∧ ((outcome = 2 → s.Sound) →
        t.jobs = v.jobs.map (fun y =>
          { y with
            openOrders := y.openOrders - fallen y.id
            unsettled := y.unsettled + counted y.id - settled y.id
            piecesCut := if counted y.id = 1 then min 65535 (y.piecesCut + 1) else y.piecesCut
            state := if y.id ∈ closing then .closed else y.state
            closeNumber := if y.id ∈ closing then some (number y.id) else y.closeNumber })
        ∧ t.bills = s.bills ++ closing ∧ t.closeCounter = (s.closeCounter + closing.length) % 4294967296
        ∧ { t with
            stations := s.stations, slabs := s.slabs, placements := s.placements, jobs := s.jobs, bills := s.bills,
            closeCounter := s.closeCounter, shop := s.shop, faults := s.faults, presented := s.presented,
            outbox := s.outbox } = s)
      ∧ (outcome = 0 → t.shop = v.shop ∧ t.faults = v.faults ∧ t.outbox = v.outbox ++ bills
          ∧ t.placements = s.placements.map (fun p => if named p then { p with state := .cut } else p)
          ∧ t.slabs = s.slabs.map (fun x =>
              if x.id = slab then { x with allocated := x.allocated + material, cutMark := true } else x))
      ∧ (outcome = 1 → t.shop = v.shop ∧ t.faults = v.faults ∧ t.outbox = v.outbox ++ bills ∧ t.slabs = s.slabs
          ∧ t.placements = (s.placements.filter (fun p =>
              decide (¬ (named p ∧ p.kind = .cutout ∧ p.parentIndex = none)))).map (fun p =>
                if named p then { p with state := .planned } else p))
      ∧ (∀ x, outcome = 2 → s.Sound → s.slab? slab = some x →
        let remnants := s.placements.filter (fun p => decide (p.slab = slab ∧ p.kind = .remnant))
        let entered := remnants.filter (fun p => decide (p.state = .cut))
        let residue := x.basis - (x.allocated + (entered.map (basisOf x)).sum)
        let detached := s.placements.countP (fun p =>
          decide (p.slab = slab ∧ p.state = .ordered ∧ p.kind = .cutout ∧ p.parentIndex = none))
        let told := v.raise ⟨.stockBroken, h.src, some Kind.cutReport, some slab, o.job, some (.placement index)⟩
        t.placements = s.placements.filter (fun p => decide (p.slab = slab → p.state = .cut
          ∧ ¬ (p.kind = .cutout ∧ ∃ q ∈ s.placements, q.slab = slab ∧ q.kind.isPiece = true ∧ q.state ≠ .cut
            ∧ p.parentIndex = some q.index)))
        ∧ t.slabs = (s.slabs.filter (fun y => decide (∀ p ∈ remnants, p.state ≠ .cut → p.remnantSlab ≠ some y.id))).map
            (fun y =>
              if y.id = slab then { y with allocated := x.basis, state := .broken }
              else match entered.find? (fun p => decide (p.remnantSlab = some y.id)) with
                | some p => { y with basis := basisOf x p, state := .received }
                | none => y)
        ∧ t.shop = { v.shop with loss := min 9223372036854775807 (s.shop.loss + residue) }
        ∧ t.faults = told.faults
        ∧ t.outbox = told.outbox
          ++ (w.queue.filter (fun y => decide (y.slab = slab ∧ y.index ≠ index))).map (fun y =>
            .notice (.orderReturned h.src slab y.index y.number y.job .brk))
          ++ [.notice (.slabSettled slab .broken x.basis residue none entered.length
            (s.placements.length - t.placements.length - detached))]
          ++ bills)

/-! ## Water Recycling (Chapter 6) -/

/-- R90: a WATER SAMPLE with a level above 65,000 or a turbidity above 4,000 (or another field past its bytes) is
refused with FORM and changes no water state. R90 to R100, R103, R105: one in range from the ATTACHED recycler: its
number becomes the last, and one out of sequence is recorded as WATER/SAMPLE_GAP and begins a new window; its tenths
enter the window, which gives the share where it is full; its fresh tenths enter the fresh used count; every enabled
rule takes it; the mode is the computed one; a change of mode sends VALVE and WATER_MODE and presents every saw, and
otherwise a moved NOTICE rule sends WATER_MODE. That the FAULT notice of WATER/SAMPLE_GAP stands before the VALVE and
the WATER_MODE of the sample is the model's choice (log entry 46), as is that WATER_MODE lists the rules in the order
in which R91 takes them (log entry 53). -/
def Obligations.WaterSampleIsTakenWhole : Prop :=
  (∀ (h : Header) (copy : Bool) (sequence level turbidity recycled fresh : Nat) (st : Station) (s : State),
    let i := Instr.waterSample h sequence level turbidity recycled fresh
    s.Passes i h copy → s.station? h.src = some st → st.state = .attached →
    (255 < sequence ∨ 65000 < level ∨ 4000 < turbidity ∨ 65535 < recycled ∨ 65535 < fresh) →
    exec i s = .next (finish i h copy (.reject .form []) (s.restartSilence h.src)))
  ∧
  ∀ (h : Header) (copy : Bool) (sequence level turbidity recycled fresh : Nat) (st : Station) (mode : WaterMode) (s : State),
    let i := Instr.waterSample h sequence level turbidity recycled fresh
    s.Passes i h copy → s.station? h.src = some st → st.state = .attached →
    sequence ≤ 255 → level ≤ 65000 → turbidity ≤ 4000 → recycled ≤ 65535 → fresh ≤ 65535 →
    let w := s.water
    let known := w.lastSequence = none ∨ ∃ n, w.lastSequence = some n ∧ sequence = (n + 1) % 256
    ∀ (count sumRecycled sumFresh : Nat),
    (known → count = w.windowCount + 1 ∧ sumRecycled = w.windowRecycled + recycled ∧ sumFresh = w.windowFresh + fresh) →
    (¬ known → count = 1 ∧ sumRecycled = recycled ∧ sumFresh = fresh) →
    let full := w.windowLength ≤ count
    let rules := w.rules.map (takeSample level turbidity)
    let used := min 4294967295 (w.used + fresh)
    let holds := fun (a : RuleAction) => ∃ r ∈ rules, r.enabled = true ∧ r.action = a ∧ r.state.holds = true
    (mode = .halt ↔ holds .halt) →
    (mode = .conserve ↔ ¬ holds .halt ∧ (holds .conserve ∨ (0 < w.allowance ∧ w.allowance ≤ used))) →
    mode ≠ .unsure →
    let share := if full ∧ sumRecycled + sumFresh ≠ 0 then
      (2 * (1000 * sumFresh) + (sumRecycled + sumFresh)) / (2 * (sumRecycled + sumFresh)) else w.share
    let taken : Water := { w with
      lastSequence := some sequence
      windowCount := if full then 0 else count
      windowRecycled := if full then 0 else sumRecycled
      windowFresh := if full then 0 else sumFresh
      share := share
      used := used
      rules := rules }
    let u := s.restartSilence h.src
    let answer := Reply.answer (u8 (modeCode mode) ++ u16 share ++ u8 taken.windowCount ++ u8 ((sequence + 1) % 256))
    let moved := movedRules w.rules rules
    ∃ v, (known → v = { u with water := taken })
      ∧ (∀ n, w.lastSequence = some n → ¬ known →
          v = { u.raise ⟨.waterSampleGap, h.src, some Kind.waterSample, none, none,
                  some (.sampleGap ((n + 1) % 256) sequence)⟩ with water := taken })
      ∧ (mode ≠ w.mode → exec i s = .next (finish i h copy answer (v.changeMode mode .sample moved)))
      ∧ (mode = w.mode → (∃ n b r, (n, b) ∈ moved ∧ rules[n]? = some r ∧ r.action = .notice) →
          exec i s = .next (finish i h copy answer (v.notify (.waterMode mode mode .sample moved))))
      ∧ (mode = w.mode → ¬ (∃ n b r, (n, b) ∈ moved ∧ rules[n]? = some r ∧ r.action = .notice) →
          exec i s = .next (finish i h copy answer v))

/-- R94 to R96, Table 6-3, of an enabled rule with confirm count c, over consecutive samples of level and turbidity, each
taken on the rule's own channel. From CLEAR, or TRIPPING(n), a run of samples that all meet the trip condition counts up,
and the c-th makes the rule ACTIVE with a new excursion record of its own value. From ACTIVE, or RELEASING(n), a run that
all meet the release condition counts up and leaves the record, and the c-th makes it CLEAR. A sample that does not meet
the condition of its state throws the run away: a tripping rule is CLEAR with its record as it was; a rule that is ACTIVE,
or returns to it from RELEASING, is ACTIVE with the worst value and the count of its record updated by each such sample.
-/
def Obligations.RuleConfirmsByCounting : Prop :=
  ∀ (r : CompareRule) (samples : List (Nat × Nat)), r.enabled = true → 1 ≤ r.confirm → samples ≠ [] →
    let value := fun (x : Nat × Nat) => match r.channel with
      | .level => x.1
      | .turbidity => x.2
    let trips := fun (v : Nat) => match r.direction with
      | .below => v < r.trip
      | .atOrAbove => r.trip ≤ v
    let releases := fun (v : Nat) => match r.direction with
      | .below => r.release ≤ v
      | .atOrAbove => v < r.release
    let worst := fun (old : Nat) => match r.direction with
      | .below => (samples.map value).foldl min old
      | .atOrAbove => (samples.map value).foldl max old
    let after := samples.foldl (fun q x => takeSample x.1 x.2 q) r
    (∀ n, r.state = .clear ∧ n = 0 ∨ r.state = .tripping n → (∀ x ∈ samples, trips (value x)) →
      (n + samples.length < r.confirm → after = { r with state := .tripping (n + samples.length) })
      ∧ (∀ x, n + samples.length = r.confirm → samples.getLast? = some x →
          after = { r with state := .active, record := some ⟨value x, value x, 1⟩ }))
    ∧ (∀ n, r.state = .active ∧ n = 0 ∨ r.state = .releasing n → (∀ x ∈ samples, releases (value x)) →
      (n + samples.length < r.confirm → after = { r with state := .releasing (n + samples.length) })
      ∧ (n + samples.length = r.confirm → after = { r with state := .clear }))
    ∧ (r.state = .clear ∨ (∃ n, r.state = .tripping n) → (∀ x ∈ samples, ¬ trips (value x)) →
        after = { r with state := .clear })
    ∧ (∀ e, r.state = .active ∨ (∃ n, r.state = .releasing n) → r.record = some e →
        (∀ x ∈ samples, ¬ releases (value x)) →
        after = { r with
          state := .active
          record := some ⟨e.trip, worst e.worst, min 65535 (e.samples + samples.length)⟩ })

/-- R74, R100, R101: a change of mode sets the mode, offers a VALVE with it to an ATTACHED recycler and then the
WATER_MODE notice, and presents every saw in ascending address order. R93: a LOAD WATER RULE with a rule number above 3,
a flag, channel, direction or action outside its codes, a threshold above its channel's range or a confirm count outside
1 to 8 is refused with FORM. R93, R98, R99, R103, R104: LOAD WATER RULE in form
replaces a rule's configuration with its release clamped, its state CLEAR and its record kept; LOAD ALLOWANCE and RENEW
ALLOWANCE set the allowance and the count. The mode is then the computed one unless it is UNSURE, and a change of mode
carries the request's cause, and the rule that a load of it cleared as one whose excursion ended (log entry 26). -/
def Obligations.WaterLoadsRecomputeTheMode : Prop :=
  (∀ (mode : WaterMode) (cause : ModeCause) (moved : List (Nat × Bool)) (s : State),
    let notice := Outgoing.notice (.waterMode s.water.mode mode cause moved)
    let changed := fun (valve : List Outgoing) => { s with
      water := { s.water with mode := mode }
      outbox := s.outbox ++ valve ++ [notice]
      presented := s.presented ++ (s.stations.filter (fun st => st.saw.isSome)).map Station.address }
    (∀ r, s.recycler? = some r → r.state = .attached →
      s.changeMode mode cause moved = changed [.valve r.address mode])
    ∧ ((∀ r, s.recycler? = some r → r.state ≠ .attached) → s.changeMode mode cause moved = changed []))
  ∧
  ∀ (h : Header) (copy : Bool) (s : State),
    let u := s.restartSilence h.src
    let computed := fun (w : Water) (m : WaterMode) =>
      let holds := fun (a : RuleAction) => ∃ r ∈ w.rules, r.enabled = true ∧ r.action = a ∧ r.state.holds = true
      (m = .halt ↔ holds .halt) ∧ m ≠ .unsure
      ∧ (m = .conserve ↔ ¬ holds .halt ∧ (holds .conserve ∨ (0 < w.allowance ∧ w.allowance ≤ w.used)))
    let settled := fun (i : Instr) (answer : WaterMode → List Byte) (w : Water) (cause : ModeCause) (moved : List (Nat × Bool)) =>
      (s.water.mode = .unsure → exec i s = .next (finish i h copy (.answer (answer .unsure)) { u with water := w }))
      ∧ (∀ m, s.water.mode ≠ .unsure → computed w m → m = s.water.mode →
          exec i s = .next (finish i h copy (.answer (answer m)) { u with water := w }))
      ∧ (∀ m, s.water.mode ≠ .unsure → computed w m → m ≠ s.water.mode →
          exec i s = .next (finish i h copy (.answer (answer m)) (({ u with water := w }).changeMode m cause moved)))
    (∀ number enabled channel direction trip release confirm action,
      let i := Instr.loadWaterRule h number enabled channel direction trip release confirm action
      s.Passes i h copy →
      let greatest := if channel = 0 then 65000 else 4000
      ¬ (number ≤ 3 ∧ enabled ≤ 1 ∧ channel ≤ 1 ∧ direction ≤ 1 ∧ action ≤ 2 ∧ trip ≤ greatest ∧ release ≤ greatest
        ∧ 1 ≤ confirm ∧ confirm ≤ 8) →
      exec i s = .next (finish i h copy (.reject .form []) u))
    ∧ (∀ number enabled channel direction trip release confirm action en c d a old,
      let i := Instr.loadWaterRule h number enabled channel direction trip release confirm action
      s.Passes i h copy → s.water.rules[number]? = some old → number ≤ 3 → decodeFlag enabled = some en →
      decodeChannel channel = some c → decodeDirection direction = some d → decodeAction action = some a →
      (c = .level → trip ≤ 65000 ∧ release ≤ 65000) → (c = .turbidity → trip ≤ 4000 ∧ release ≤ 4000) →
      1 ≤ confirm → confirm ≤ 8 →
      let stored := if d = .below then max trip release else min trip release
      let rules := s.water.rules.set number ⟨en, c, d, trip, stored, confirm, a, .clear, old.record⟩
      settled i (fun m => u8 number ++ u16 stored ++ flag (decide (stored ≠ release)) ++ u8 (modeCode m))
        { s.water with rules := rules } .ruleLoad (movedRules s.water.rules rules))
    ∧ (∀ allowance, let i := Instr.loadAllowance h allowance
      s.Passes i h copy → allowance ≤ 4294967295 →
      settled i (fun _ => u32 s.water.allowance ++ amount s.water.used) { s.water with allowance := allowance } .allowance [])
    ∧ (let i := Instr.renewAllowance h
      s.Passes i h copy → settled i (fun _ => amount s.water.used) { s.water with used := 0 } .renew [])

/-! ## Plain loads and CLEAR FAULT -/

/-- R21, R106, R111, R147, R150: LOAD CONSTANTS, LOAD RATES, LOAD SHARE WINDOW and LOAD NOTICES set all their values in
one event and answer the previous ones, or are refused whole; a window load also aborts the window; CLEAR FAULT answers
the record, flag and count, and empties them. R165: LOAD GROUP sets all four enables in one event and answers the previous
four; it is refused with IN_USE and the first group, in the order REMNANT, MITRE, CUTOUT, QUOTE, that it would leave
disabled (log entry 16: disabled before or not) while a placement of that kind is in the pool, or for QUOTE a job has a
limit. A bit above the four enables of LOAD GROUP, the six of a notice mask or the seven of its enables is FORM (the
model's choice: log entry 30). -/
def Obligations.PlainLoadsReplaceAllValues : Prop :=
  ∀ (h : Header) (copy : Bool) (s : State),
    let u := s.restartSilence h.src
    (∀ kerf margin remnantMin conserveFeed, let i := Instr.loadConstants h kerf margin remnantMin conserveFeed
      s.Passes i h copy →
      let ok := 1 ≤ kerf ∧ kerf ≤ 10 ∧ margin ≤ 60 ∧ 100 ≤ remnantMin ∧ remnantMin ≤ 600 ∧ 100 ≤ conserveFeed
        ∧ conserveFeed ≤ 3000
      (ok → exec i s = .next (finish i h copy
          (.answer (u8 s.constants.kerf ++ u8 s.constants.margin ++ u16 s.constants.remnantMin
            ++ u16 s.constants.conserveFeed))
          { u with constants := ⟨kerf, margin, remnantMin, conserveFeed⟩ }))
      ∧ (¬ ok → exec i s = .next (finish i h copy (.reject .form []) u)))
    ∧ (∀ recycled fresh, let i := Instr.loadRates h recycled fresh
      s.Passes i h copy →
      (recycled ≤ 10000 ∧ fresh ≤ 10000 → exec i s = .next (finish i h copy
          (.answer (u16 s.rates.recycled ++ u16 s.rates.fresh)) { u with rates := ⟨recycled, fresh⟩ }))
      ∧ (10000 < recycled ∨ 10000 < fresh → exec i s = .next (finish i h copy (.reject .form []) u)))
    ∧ (∀ length, let i := Instr.loadShareWindow h length
      s.Passes i h copy →
      (1 ≤ length ∧ length ≤ 16 → exec i s = .next (finish i h copy
          (.answer (u8 s.water.windowLength ++ u8 s.water.windowCount))
          { u with water := { s.water with
              windowLength := length
              windowCount := 0
              windowRecycled := 0
              windowFresh := 0 } }))
      ∧ (length = 0 ∨ 16 < length → exec i s = .next (finish i h copy (.reject .form []) u)))
    ∧ (∀ station mask enables, let i := Instr.loadNotices h station mask enables
      s.Passes i h copy →
      let formed := station ≤ 30 ∧ station ≠ s.address ∧ mask ≤ 63 ∧ enables ≤ 127
      (formed → station = 0 ∨ s.station? station ≠ none →
        exec i s = .next (finish i h copy (.answer (u8 s.faults.station ++ [s.faults.mask] ++ [s.faults.enables]))
          { u with faults := { s.faults with
              station := station, mask := BitVec.ofNat 8 mask, enables := BitVec.ofNat 8 enables } }))
      ∧ (¬ formed → exec i s = .next (finish i h copy (.reject .form []) u))
      ∧ (formed → station ≠ 0 → s.station? station = none →
        exec i s = .next (finish i h copy (.reject .stationState []) u)))
    ∧ (∀ enables, let i := Instr.loadGroup h enables
      s.Passes i h copy →
      let free := fun (k : PlacementKind) => ∀ p ∈ s.placements, p.kind ≠ k
      let refused := fun (x : Reason) (d : List Byte) => exec i s = .next (finish i h copy (.reject x d) u)
      let remnant := enables.testBit 0 = true ∨ free .remnant
      let mitre := enables.testBit 1 = true ∨ free .mitre
      let cutout := enables.testBit 2 = true ∨ free .cutout
      let quote := enables.testBit 3 = true ∨ ∀ j ∈ s.jobs, j.limit = none
      (15 < enables → refused .form [])
      ∧ (enables ≤ 15 → ¬ remnant → refused .inUse (code .groupRemnant))
      ∧ (enables ≤ 15 → remnant → ¬ mitre → refused .inUse (code .groupMitre))
      ∧ (enables ≤ 15 → remnant → mitre → ¬ cutout → refused .inUse (code .groupCutout))
      ∧ (enables ≤ 15 → remnant → mitre → cutout → ¬ quote → refused .inUse (code .groupQuote))
      ∧ (enables ≤ 15 → remnant → mitre → cutout → quote →
          exec i s = .next (finish i h copy (.answer (u8 (groupByte s.groups)))
            { u with groups :=
                { remnant := enables.testBit 0, mitre := enables.testBit 1, cutout := enables.testBit 2,
                  quote := enables.testBit 3 } })))
    ∧ (let i := Instr.clearFault h
      s.Passes i h copy → exec i s = .next (finish i h copy
        (.answer (opt faultAnswerBytes s.faults.record ++ flag s.faults.moreFaults ++ count s.faults.count))
        { u with faults := { s.faults with record := none, moreFaults := false, count := 0 } }))

/-! ## Cost Arithmetic (Chapter 7) -/

/-- R112: For every water delta split, fresh tenths plus recycled tenths equal the delta; the fresh tenths are d × s /
1000 rounded half up, and lie between 0 and d. -/
def Obligations.SplitPartsEqualTheDelta : Prop :=
  ∀ (delta share : Nat), share ≤ 1000 →
    freshPart delta share + recycledPart delta share = delta
    ∧ freshPart delta share ≤ delta
    ∧ 2 * (delta * share) < 1000 * (2 * freshPart delta share + 1)
    ∧ 1000 * (2 * freshPart delta share) ≤ 2 * (delta * share) + 1000

/-! ## Slab Settlement (Chapter 8) -/

/-- R129, with the shares and remainders of R128, over placements in ascending index: the residue shares sum to the
residue exactly; each participating job, once each, in the order of its lowest-indexed piece, gets the floor of
residue × area / total area and at most one cent more; no job gets that cent before one with a larger remainder, nor,
of two with equal remainders, before the one whose lowest-indexed piece has the lower index. -/
def Obligations.ResidueSharesSumToResidue : Prop :=
  ∀ (residue : Nat) (ps : List Placement), (∀ p ∈ ps, p.job ≠ none ∧ 0 < p.area) → ps ≠ [] →
    ps.Pairwise (fun p q => p.index < q.index) →
    let shares := residueShares residue ps
    let areaOf := fun (job : Nat) => ((ps.filter (fun p => decide (p.job = some job))).map Placement.area).sum
    let total := (ps.map Placement.area).sum
    let before := fun (a b : Nat) => ∃ p ∈ ps, p.job = some a ∧ ∀ q ∈ ps, q.job = some b → p.index < q.index
    (shares.map (fun x => x.2.2)).sum = residue
    ∧ shares.Pairwise (fun x y => x.1 ≠ y.1 ∧ before x.1 y.1)
    ∧ (∀ job, job ∈ shares.map Prod.fst ↔ ∃ p ∈ ps, p.job = some job)
    ∧ (∀ job fl share, (job, fl, share) ∈ shares →
        fl = residue * areaOf job / total ∧ (share = fl ∨ share = fl + 1))
    ∧ (∀ job fl job' fl', (job, fl, fl) ∈ shares → (job', fl', fl' + 1) ∈ shares →
        residue * areaOf job % total ≤ residue * areaOf job' % total
        ∧ (residue * areaOf job % total = residue * areaOf job' % total → before job' job))

/-- R122: SLAB DONE is refused by the first of its checks that fails: a slab id of 0 is FORM, no record NO_SLAB, a
slab in no stock state SLAB_STATE with the state, one with an order IN_FLIGHT with the saw and the state of its
oldest, and for FINISHED one with nothing CUT NOTHING_CUT. R122 to R132, R141: a SLAB DONE of a stock slab without an
order, and for FINISHED with a CUT placement, settles it: the slab is SPENT or SCRAPPED with its allocated cents equal
to its basis; only its CUT placements stay; its CUT remnants enter stock with their share of the basis; scrap puts the
residue into shop loss, FINISHED shares it among the jobs of the CUT pieces; the unsettled pieces of those jobs fall;
SLAB_SETTLED is offered after the notices of the charges; and the CLOSING jobs among them left with no counts are
CLOSED, in the order of their lowest-indexed piece, each with the next close number, at the tail of the bill list, and
with its BILL_READY offered. R116, R120, R130: each share is charged in that order as ReportedOrdersAreCompleted says,
so that a job is marked SATURATED where its material passes its greatest value, and OVER_QUOTE where its sum reaches
its limit. R124: the RESERVED records of its uncut remnants are freed; every other slab stays. R132: the ANSWER
carries the items of SLAB_SETTLED, each job's floor share and residue share, each remnant's id and basis, the cents
that went to shop loss, and the number of records freed; the jobs stand in it in R130's order and the remnants in
R126's (the model's choice: log entry 52). -/
def Obligations.SlabDoneSettlesTheSlab : Prop :=
  (∀ (h : Header) (copy : Bool) (slab : Nat) (scrap : Bool) (s : State),
    let i := if scrap then Instr.slabDoneScrap h slab else Instr.slabDoneFinished h slab
    s.Passes i h copy →
    let u := s.restartSilence h.src
    let refused := fun (x : Reason) (d : List Byte) => exec i s = .next (finish i h copy (.reject x d) u)
    (slab = 0 → refused .form [])
    ∧ (slab ≠ 0 → s.slab? slab = none → refused .noSlab [])
    ∧ ∀ x, slab ≠ 0 → s.slab? slab = some x →
      (x.state.isStock = false → refused .slabState (u8 (slabStateCode x.state)))
      ∧ (∀ a w o, s.Legal → s.Orderly → x.state.isStock = true → s.saw? a = some w →
          w.queue.find? (fun o => decide (o.slab = slab)) = some o →
          refused .inFlight (u8 a ++ u8 (orderStateCode o.state)))
      ∧ (x.state.isStock = true → (∀ o ∈ s.orders, o.slab ≠ slab) → scrap = false →
          (∀ p ∈ s.placements, p.slab = slab → p.state ≠ .cut) → refused .nothingCut []))
  ∧
  ∀ (h : Header) (copy : Bool) (slab : Nat) (scrap : Bool) (x : Slab) (s : State),
    let i := if scrap then Instr.slabDoneScrap h slab else Instr.slabDoneFinished h slab
    s.Bounded → s.Passes i h copy → slab ≠ 0 → s.slab? slab = some x → x.state.isStock = true →
    (∀ o ∈ s.orders, o.slab ≠ slab) → (∀ p ∈ s.placements, p.slab = slab → p.state ≠ .ordered) →
    (∀ p ∈ s.placements, p.slab = slab → p.kind = .remnant → ∀ r ∈ p.remnantSlab, r ≠ slab ∧
      ∀ q ∈ s.placements, q.slab = slab → q.remnantSlab = some r → q = p) →
    (scrap = false → ∃ p ∈ s.placements, p.slab = slab ∧ p.state = .cut) →
    let cutOf := fun (p : Placement) => p.slab = slab ∧ p.state = .cut
    let basisOf := fun (p : Placement) => x.basis * p.area / (x.length * x.width)
    let entered := ((s.placements.filter (fun p =>
      decide (cutOf p ∧ p.kind = .remnant ∧ p.remnantSlab ≠ none))).map basisOf).sum
    let pieces := s.placements.filter (fun p => decide (cutOf p ∧ p.kind.isPiece = true))
    x.allocated + entered ≤ x.basis →
    let residue := x.basis - (x.allocated + entered)
    let lost := if scrap ∨ pieces.filterMap Placement.job = [] then residue else 0
    let shareOf := fun (job : Nat) => if scrap then 0 else
      (((residueShares residue pieces).filter (fun y => decide (y.1 = job))).map (fun y => y.2.2)).sum
    let jobs := (pieces.filterMap Placement.job).eraseDups
    let fallen := fun (n : Nat) => pieces.countP (fun p => decide (p.job = some n))
    let closing := jobs.filter (fun n => (s.job? n).any (fun j =>
      decide (j.state = .closing ∧ j.openOrders = 0 ∧ j.unsettled ≤ fallen n)))
    let number := fun (n : Nat) => (s.closeCounter + closing.idxOf n + 1) % 4294967296
    let shares := if scrap then [] else residueShares residue pieces
    let charges := shares.foldl (fun (v : State) y => v.charge ⟨h.src, Kind.slabDone⟩ slab y.1 .material y.2.2) s
    let remnants := s.placements.filter (fun p => decide (p.slab = slab ∧ p.kind = .remnant))
    let taken := remnants.filter (fun p => decide (p.state = .cut ∧ p.remnantSlab ≠ none))
    let ending : SlabState := if scrap then .scrapped else .spent
    let participants := if scrap ∨ jobs = [] then none else some jobs.length
    ∃ content t, exec i s = .next (finish i h copy (.answer content) t)
      ∧ content = u32 slab ++ u8 (slabStateCode ending) ++ u32 x.basis ++ amount residue ++ opt count participants
          ++ count taken.length ++ count (s.placements.length - t.placements.length)
          ++ shares.flatMap (fun y => u32 y.1 ++ amount y.2.1 ++ amount y.2.2)
          ++ taken.flatMap (fun p => p.remnantSlab.toList.flatMap u32 ++ u32 (basisOf p))
          ++ amount lost ++ count (remnants.countP (fun p => decide (p.state ≠ .cut)))
      ∧ t.slabs = (s.slabs.filter (fun y => decide (∀ p ∈ remnants, p.state ≠ .cut → p.remnantSlab ≠ some y.id))).map
          (fun y =>
            if y.id = slab then { y with allocated := x.basis, state := ending }
            else match taken.find? (fun p => decide (p.remnantSlab = some y.id)) with
              | some p => { y with basis := basisOf p, state := .received }
              | none => y)
      ∧ t.slab? slab = some { x with allocated := x.basis, state := if scrap then .scrapped else .spent }
      ∧ (∀ p, p ∈ t.placements ↔ p ∈ s.placements ∧ (p.slab = slab → p.state = .cut
          ∧ ¬ (p.kind = .cutout ∧ ∃ q ∈ s.placements, q.slab = slab ∧ q.kind.isPiece = true ∧ q.state = .planned
            ∧ p.parentIndex = some q.index)))
      ∧ (∀ p ∈ s.placements, cutOf p → p.kind = .remnant → ∀ r z, p.remnantSlab = some r → s.slab? r = some z →
          t.slab? r = some { z with basis := basisOf p, state := .received })
      ∧ t.shop.loss = min 9223372036854775807 (s.shop.loss + lost)
      ∧ (∀ n j, s.job? n = some j → ∃ j', t.job? n = some j'
          ∧ j'.material = min 999999999999 (j.material + shareOf n)
          ∧ j'.unsettled = j.unsettled - fallen n
          ∧ j'.openOrders = j.openOrders ∧ j'.saw = j.saw ∧ j'.wear = j.wear ∧ j'.water = j.water
          ∧ j'.saturated = (j.saturated || decide (999999999999 < j.material + shareOf n))
          ∧ j'.overQuote = (j.overQuote || decide (s.groups.quote = true ∧ scrap = false ∧ n ∈ jobs
              ∧ ∃ l, j.limit = some l ∧ l ≤ j'.material + j.saw + j.wear + j.water))
          ∧ (n ∈ closing → j'.state = .closed ∧ j'.closeNumber = some (number n))
          ∧ (n ∉ closing → j'.state = j.state ∧ j'.closeNumber = j.closeNumber))
      ∧ t.shop = { charges.shop with loss := t.shop.loss } ∧ t.faults = charges.faults
      ∧ t.bills = s.bills ++ closing ∧ t.closeCounter = (s.closeCounter + closing.length) % 4294967296
      ∧ t.outbox = charges.outbox
          ++ [.notice (.slabSettled slab ending x.basis residue participants taken.length
            (s.placements.length - t.placements.length))]
          ++ closing.map (fun n => .notice (.billReady n (number n)))
      ∧ (∃ charged, charges.outbox = s.outbox ++ charged ∧ ∀ o ∈ charged, (∃ job limit sum hold, o = .notice (.overQuote job limit sum hold))
          ∨ ∃ job filled k, o = .notice (.fault
              ⟨.costSaturated, h.src, some Kind.slabDone, some slab, some job, some (.accumulator .material)⟩ filled k))
      ∧ t.stations = (s.restartSilence h.src).stations ∧ t.water = s.water ∧ t.presented = s.presented

/-! ## Jobs and Bills (Chapter 9) -/

/-- R136, its checks in order, then the record it creates. -/
def Obligations.JobOpenCreatesRecord : Prop :=
  ∀ (h : Header) (copy : Bool) (job : Nat) (s : State),
    let i := Instr.jobOpen h job
    i.wf = true → s.Passes i h copy →
    let u := s.restartSilence h.src
    (job = 0 → exec i s = .next (finish i h copy (.reject .form []) u))
    ∧ (job ≠ 0 → s.job? job ≠ none → exec i s = .next (finish i h copy (.reject .duplicate []) u))
    ∧ (job ≠ 0 → s.job? job = none → 128 ≤ s.jobs.length →
        exec i s = .next (finish i h copy (.reject .tableFull []) u))
    ∧ (job ≠ 0 → s.job? job = none → s.jobs.length < 128 →
        exec i s = .next (finish i h copy (.answer (u32 job ++ count (s.jobs.length + 1)))
          (u.addJob
            { id := job, state := .opened, limit := none, hold := false, overQuote := false, saturated := false,
              material := 0, saw := 0, wear := 0, water := 0, recycled := 0, fresh := 0, bladeSeconds := 0,
              piecesCut := 0, openOrders := 0, unsettled := 0, closeNumber := none })))

/-- R137: JOB LIMIT of an OPEN or CLOSING job sets limit and hold flag in one event and answers the previous limit and
flag, the sum of the charges and the OVER_QUOTE flag; its checks in order refuse the rest. -/
def Obligations.JobLimitSetsLimitAndHold : Prop :=
  ∀ (h : Header) (copy : Bool) (job : Nat) (limit : Option Nat) (hold : Nat) (s : State),
    let i := Instr.jobLimit h job limit hold
    s.Passes i h copy →
    let u := s.restartSilence h.src
    let formed := hold ≤ 1 ∧ job ≠ 0 ∧ ∀ l ∈ limit, 1 ≤ l ∧ l ≤ 999999999999
    (¬ formed → exec i s = .next (finish i h copy (.reject .form []) u))
    ∧ (formed → s.job? job = none → exec i s = .next (finish i h copy (.reject .noJob []) u))
    ∧ (∀ j, formed → s.job? job = some j → j.state = .closed →
        exec i s = .next (finish i h copy (.reject .jobState (u8 2)) u))
    ∧ (∀ j, formed → s.job? job = some j → j.state ≠ .closed →
        exec i s = .next (finish i h copy
          (.answer (opt u48 j.limit ++ flag j.hold ++ amount (j.material + j.saw + j.wear + j.water) ++ flag j.overQuote))
          { u with jobs := s.jobs.map (fun y =>
              if y.id = job then { y with limit := limit, hold := decide (hold = 1) } else y) }))

/-- R138: JOB CLOSE of job id 0 is FORM, of a job without a record NO_JOB, of one that is not OPEN JOB_STATE with the
state. R138, R139, R35: JOB CLOSE of an OPEN job removes every PLANNED placement that names it, a piece or mitre with its
cutouts, of which an ORDERED one is detached; the job is CLOSED at once where both counts are 0, and CLOSING otherwise.
The ANSWER gives the number of placements removed, cutouts with their parents, and the number of cutouts detached. -/
def Obligations.JobCloseWithdrawsThePlan : Prop :=
  (∀ (h : Header) (copy : Bool) (job : Nat) (s : State),
    let i := Instr.jobClose h job
    s.Passes i h copy →
    let refused := fun (x : Reason) => exec i s = .next (finish i h copy (.reject x []) (s.restartSilence h.src))
    (job = 0 → refused .form) ∧ (job ≠ 0 → s.job? job = none → refused .noJob))
  ∧
  ∀ (h : Header) (copy : Bool) (job : Nat) (j : Job) (s : State),
    let i := Instr.jobClose h job
    s.Bounded → s.Passes i h copy → job ≠ 0 → s.job? job = some j →
    let u := s.restartSilence h.src
    (j.state ≠ .opened → exec i s = .next (finish i h copy (.reject .jobState (u8 (jobStateCode j.state))) u))
    ∧ (j.state = .opened → (∀ p ∈ s.placements, p.job = some job → p.kind ≠ .remnant) →
      let dropped := fun (p : Placement) => p.job = some job ∧ p.state = .planned
      let under := fun (c : Placement) => c.kind = .cutout ∧ ∃ p ∈ s.placements, dropped p ∧ p.kind.isPiece = true
        ∧ p.slab = c.slab ∧ c.parentIndex = some p.index
      let number := (s.closeCounter + 1) % 4294967296
      let now := j.openOrders = 0 ∧ j.unsettled = 0
      ∃ t removed detached, exec i s = .next (finish i h copy
          (.answer (u8 (if now then 2 else 1) ++ count removed ++ count detached ++ count j.openOrders
            ++ count j.unsettled ++ opt u32 (if now then some number else j.closeNumber))) t)
        ∧ (∀ q, q ∈ t.placements ↔ (q ∈ s.placements ∧ ¬ dropped q ∧ ¬ under q)
            ∨ ∃ c ∈ s.placements, under c ∧ c.state = .ordered ∧ q = { c with parentIndex := none })
        ∧ removed + t.placements.length = s.placements.length
        ∧ detached = s.placements.countP (fun c => decide (under c ∧ c.state = .ordered))
        ∧ t.jobs = s.jobs.map (fun y => if y.id = job then
            (if now then { y with state := .closed, closeNumber := some number } else { y with state := .closing }) else y)
        ∧ t.bills = (if now then s.bills ++ [job] else s.bills)
        ∧ t.closeCounter = (if now then number else s.closeCounter)
        ∧ t.outbox = s.outbox ++ (if now then [.notice (.billReady job number)] else [])
        ∧ t.slabs = s.slabs ∧ t.stations = u.stations ∧ t.shop = s.shop ∧ t.presented = s.presented)

/-- R141: a CLOSING job with both counts 0 is CLOSED under the advanced close counter, at the tail of the bill list,
and its BILL_READY is offered; any other job is left as it is. R143: TAKE BILL answers the oldest bill in its two
parts and frees its record (a part 1 past the 46 bytes of R162 is not sent so: the content is then cut where 46 bytes
are full, the model's reading: log entry 9); an empty list is EMPTY, and a job id that is not the head's is WRONG_JOB
with the head's. -/
def Obligations.BillsJoinTheTailAndLeaveTheHead : Prop :=
  (∀ (job : Nat) (s : State),
    (∀ j, s.job? job = some j → j.state = .closing → j.openOrders = 0 → j.unsettled = 0 →
      let number := (s.closeCounter + 1) % 4294967296
      s.closeOf (some job) =
        { s with
          closeCounter := number
          bills := s.bills ++ [job]
          jobs := s.jobs.map (fun y => if y.id = job then { y with state := .closed, closeNumber := some number } else y)
          outbox := s.outbox ++ [.notice (.billReady job number)] })
    ∧ ((∀ j, s.job? job = some j → j.state ≠ .closing ∨ j.openOrders ≠ 0 ∨ j.unsettled ≠ 0) →
      s.closeOf (some job) = s))
  ∧
  ∀ (h : Header) (copy : Bool) (job : Option Nat) (s : State),
    let i := Instr.takeBill h job
    s.Passes i h copy →
    let u := s.restartSilence h.src
    (job = some 0 → exec i s = .next (finish i h copy (.reject .form []) u))
    ∧ (job ≠ some 0 → s.bills = [] → exec i s = .next (finish i h copy (.reject .empty []) u))
    ∧ (∀ b rest, job ≠ some 0 → s.bills = b :: rest → job ≠ none → job ≠ some b →
        exec i s = .next (finish i h copy (.reject .wrongJob (u32 b)) u))
    ∧ (∀ b rest j, job = none ∨ job = some b → job ≠ some 0 → s.bills = b :: rest → s.job? b = some j →
        let one := u32 j.id ++ opt u32 j.closeNumber ++ opt u48 j.limit ++ flag j.hold ++ flag j.overQuote
          ++ flag j.saturated ++ amount j.material ++ amount j.saw ++ amount j.wear ++ amount j.water
        let two := u32 j.id ++ amount j.recycled ++ amount j.fresh ++ u32 j.bladeSeconds ++ count j.piecesCut
          ++ amount (j.material + j.saw + j.wear + j.water) ++ count rest.length
        exec i s = .next (finish i h copy (if one.length ≤ 46 then .parts [one, two] else .answer (one ++ two))
          { u with bills := rest, jobs := s.jobs.filter (fun y => decide (y.id ≠ b)) }))

/-! ## Faults and Notices (Chapter 10) -/

/-- R146: an empty record takes the first fault whole, with the flag clear; a locked one stays, the more-faults flag
is set and the count rises to at most 255. Nothing else changes, but that the occurrence is offered for its notice.
R151 to R153: a notice whose class or enable is set, with a notice station that has an entry, is sent to it on its
side, whatever its state, under the advanced notice counter, with tag 0; one that is disabled, or a station of 0,
sends nothing and leaves the counter. One that R155 discards, 64 telegrams waiting, has advanced the counter all the
same (the model's choice: log entry 50). -/
def Obligations.FaultsAreKeptAndNoticesSent : Prop :=
  (∀ (r : FaultRecord) (s : State),
    (s.faults.record = none → s.raise r =
      { s with
        faults := { s.faults with record := some r }
        outbox := s.outbox ++ [.notice (.fault r true s.faults.count)] })
    ∧ (∀ x, s.faults.record = some x → s.raise r =
      { s with
        faults := { s.faults with moreFaults := true, count := min 255 (s.faults.count + 1) }
        outbox := s.outbox ++ [.notice (.fault r false (min 255 (s.faults.count + 1)))] }))
  ∧
  ∀ (n : Notice) (s : State),
    let on := match n with
      | .fault r _ _ => s.faults.mask.getLsbD
          (if r.code = .stationSilence ∧ r.detail = some .plantSilent then 4 else faultClassCode r.code) = true
      | .waterMode _ _ _ _ => s.faults.enables.getLsbD 0 = true
      | .overQuote _ _ _ _ => s.faults.enables.getLsbD 1 = true
      | .billReady _ _ => s.faults.enables.getLsbD 2 = true
      | .declined _ _ _ _ _ _ _ => s.faults.enables.getLsbD 3 = true
      | .orderReturned _ _ _ _ _ _ => s.faults.enables.getLsbD 4 = true
      | .placementDropped _ _ _ _ => s.faults.enables.getLsbD 5 = true
      | .slabSettled _ _ _ _ _ _ _ => s.faults.enables.getLsbD 6 = true
    (∀ st, s.faults.station ≠ 0 → s.station? s.faults.station = some st → on →
      let c := (s.faults.counter + 1) % 256
      s.sendNotice n = ({ s with faults := { s.faults with counter := c } }).produce st.side
        { dst := s.faults.station, src := s.address, kind := Kind.notice, tag := 0,
          payload := u8 (noticeType n) ++ u8 c ++ noticeBytes n })
    ∧ (s.faults.station = 0 ∨ ¬ on → s.sendNotice n = s)
end

