-- ==== Sys2Proof/Laws/State.lean ====
section
/-! SUPPORT. One lemma per field per named update of the state: what an update does not touch stays. -/

namespace Sys2Proof.Machine

open Sys2Proof

variable (s : State)

/-! ## addSlab -/

@[simp] theorem State.addSlab_pending (x : Slab) : (s.addSlab x).pending = s.pending := rfl
@[simp] theorem State.addSlab_inReset (x : Slab) : (s.addSlab x).inReset = s.inReset := rfl
@[simp] theorem State.addSlab_standbyLost (x : Slab) : (s.addSlab x).standbyLost = s.standbyLost := rfl
@[simp] theorem State.addSlab_address (x : Slab) : (s.addSlab x).address = s.address := rfl
@[simp] theorem State.addSlab_resetReport (x : Slab) : (s.addSlab x).resetReport = s.resetReport := rfl
@[simp] theorem State.addSlab_kindRules (x : Slab) : (s.addSlab x).kindRules = s.kindRules := rfl
@[simp] theorem State.addSlab_groups (x : Slab) : (s.addSlab x).groups = s.groups := rfl
@[simp] theorem State.addSlab_constants (x : Slab) : (s.addSlab x).constants = s.constants := rfl
@[simp] theorem State.addSlab_stations (x : Slab) : (s.addSlab x).stations = s.stations := rfl
@[simp] theorem State.addSlab_placements (x : Slab) : (s.addSlab x).placements = s.placements := rfl
@[simp] theorem State.addSlab_jobs (x : Slab) : (s.addSlab x).jobs = s.jobs := rfl
@[simp] theorem State.addSlab_bills (x : Slab) : (s.addSlab x).bills = s.bills := rfl
@[simp] theorem State.addSlab_closeCounter (x : Slab) : (s.addSlab x).closeCounter = s.closeCounter := rfl
@[simp] theorem State.addSlab_admissionCounter (x : Slab) : (s.addSlab x).admissionCounter = s.admissionCounter := rfl
@[simp] theorem State.addSlab_line (x : Slab) : (s.addSlab x).line = s.line := rfl
@[simp] theorem State.addSlab_water (x : Slab) : (s.addSlab x).water = s.water := rfl
@[simp] theorem State.addSlab_rates (x : Slab) : (s.addSlab x).rates = s.rates := rfl
@[simp] theorem State.addSlab_shop (x : Slab) : (s.addSlab x).shop = s.shop := rfl
@[simp] theorem State.addSlab_faults (x : Slab) : (s.addSlab x).faults = s.faults := rfl
@[simp] theorem State.addSlab_txA (x : Slab) : (s.addSlab x).txA = s.txA := rfl
@[simp] theorem State.addSlab_txB (x : Slab) : (s.addSlab x).txB = s.txB := rfl
@[simp] theorem State.addSlab_presented (x : Slab) : (s.addSlab x).presented = s.presented := rfl
@[simp] theorem State.addSlab_outbox (x : Slab) : (s.addSlab x).outbox = s.outbox := rfl

/-! ## modifySlab -/

@[simp] theorem State.modifySlab_pending (a : Nat) (f : Slab → Slab) : (s.modifySlab a f).pending = s.pending := rfl
@[simp] theorem State.modifySlab_inReset (a : Nat) (f : Slab → Slab) : (s.modifySlab a f).inReset = s.inReset := rfl
@[simp] theorem State.modifySlab_standbyLost (a : Nat) (f : Slab → Slab) : (s.modifySlab a f).standbyLost = s.standbyLost := rfl
@[simp] theorem State.modifySlab_address (a : Nat) (f : Slab → Slab) : (s.modifySlab a f).address = s.address := rfl
@[simp] theorem State.modifySlab_resetReport (a : Nat) (f : Slab → Slab) : (s.modifySlab a f).resetReport = s.resetReport := rfl
@[simp] theorem State.modifySlab_kindRules (a : Nat) (f : Slab → Slab) : (s.modifySlab a f).kindRules = s.kindRules := rfl
@[simp] theorem State.modifySlab_groups (a : Nat) (f : Slab → Slab) : (s.modifySlab a f).groups = s.groups := rfl
@[simp] theorem State.modifySlab_constants (a : Nat) (f : Slab → Slab) : (s.modifySlab a f).constants = s.constants := rfl
@[simp] theorem State.modifySlab_stations (a : Nat) (f : Slab → Slab) : (s.modifySlab a f).stations = s.stations := rfl
@[simp] theorem State.modifySlab_placements (a : Nat) (f : Slab → Slab) : (s.modifySlab a f).placements = s.placements := rfl
@[simp] theorem State.modifySlab_jobs (a : Nat) (f : Slab → Slab) : (s.modifySlab a f).jobs = s.jobs := rfl
@[simp] theorem State.modifySlab_bills (a : Nat) (f : Slab → Slab) : (s.modifySlab a f).bills = s.bills := rfl
@[simp] theorem State.modifySlab_closeCounter (a : Nat) (f : Slab → Slab) : (s.modifySlab a f).closeCounter = s.closeCounter := rfl
@[simp] theorem State.modifySlab_admissionCounter (a : Nat) (f : Slab → Slab) : (s.modifySlab a f).admissionCounter = s.admissionCounter := rfl
@[simp] theorem State.modifySlab_line (a : Nat) (f : Slab → Slab) : (s.modifySlab a f).line = s.line := rfl
@[simp] theorem State.modifySlab_water (a : Nat) (f : Slab → Slab) : (s.modifySlab a f).water = s.water := rfl
@[simp] theorem State.modifySlab_rates (a : Nat) (f : Slab → Slab) : (s.modifySlab a f).rates = s.rates := rfl
@[simp] theorem State.modifySlab_shop (a : Nat) (f : Slab → Slab) : (s.modifySlab a f).shop = s.shop := rfl
@[simp] theorem State.modifySlab_faults (a : Nat) (f : Slab → Slab) : (s.modifySlab a f).faults = s.faults := rfl
@[simp] theorem State.modifySlab_txA (a : Nat) (f : Slab → Slab) : (s.modifySlab a f).txA = s.txA := rfl
@[simp] theorem State.modifySlab_txB (a : Nat) (f : Slab → Slab) : (s.modifySlab a f).txB = s.txB := rfl
@[simp] theorem State.modifySlab_presented (a : Nat) (f : Slab → Slab) : (s.modifySlab a f).presented = s.presented := rfl
@[simp] theorem State.modifySlab_outbox (a : Nat) (f : Slab → Slab) : (s.modifySlab a f).outbox = s.outbox := rfl

/-! ## freeSlab -/

@[simp] theorem State.freeSlab_pending (a : Nat) : (s.freeSlab a).pending = s.pending := rfl
@[simp] theorem State.freeSlab_inReset (a : Nat) : (s.freeSlab a).inReset = s.inReset := rfl
@[simp] theorem State.freeSlab_standbyLost (a : Nat) : (s.freeSlab a).standbyLost = s.standbyLost := rfl
@[simp] theorem State.freeSlab_address (a : Nat) : (s.freeSlab a).address = s.address := rfl
@[simp] theorem State.freeSlab_resetReport (a : Nat) : (s.freeSlab a).resetReport = s.resetReport := rfl
@[simp] theorem State.freeSlab_kindRules (a : Nat) : (s.freeSlab a).kindRules = s.kindRules := rfl
@[simp] theorem State.freeSlab_groups (a : Nat) : (s.freeSlab a).groups = s.groups := rfl
@[simp] theorem State.freeSlab_constants (a : Nat) : (s.freeSlab a).constants = s.constants := rfl
@[simp] theorem State.freeSlab_stations (a : Nat) : (s.freeSlab a).stations = s.stations := rfl
@[simp] theorem State.freeSlab_placements (a : Nat) : (s.freeSlab a).placements = s.placements := rfl
@[simp] theorem State.freeSlab_jobs (a : Nat) : (s.freeSlab a).jobs = s.jobs := rfl
@[simp] theorem State.freeSlab_bills (a : Nat) : (s.freeSlab a).bills = s.bills := rfl
@[simp] theorem State.freeSlab_closeCounter (a : Nat) : (s.freeSlab a).closeCounter = s.closeCounter := rfl
@[simp] theorem State.freeSlab_admissionCounter (a : Nat) : (s.freeSlab a).admissionCounter = s.admissionCounter := rfl
@[simp] theorem State.freeSlab_line (a : Nat) : (s.freeSlab a).line = s.line := rfl
@[simp] theorem State.freeSlab_water (a : Nat) : (s.freeSlab a).water = s.water := rfl
@[simp] theorem State.freeSlab_rates (a : Nat) : (s.freeSlab a).rates = s.rates := rfl
@[simp] theorem State.freeSlab_shop (a : Nat) : (s.freeSlab a).shop = s.shop := rfl
@[simp] theorem State.freeSlab_faults (a : Nat) : (s.freeSlab a).faults = s.faults := rfl
@[simp] theorem State.freeSlab_txA (a : Nat) : (s.freeSlab a).txA = s.txA := rfl
@[simp] theorem State.freeSlab_txB (a : Nat) : (s.freeSlab a).txB = s.txB := rfl
@[simp] theorem State.freeSlab_presented (a : Nat) : (s.freeSlab a).presented = s.presented := rfl
@[simp] theorem State.freeSlab_outbox (a : Nat) : (s.freeSlab a).outbox = s.outbox := rfl

/-! ## addPlacement -/

@[simp] theorem State.addPlacement_pending (p : Placement) : (s.addPlacement p).pending = s.pending := rfl
@[simp] theorem State.addPlacement_inReset (p : Placement) : (s.addPlacement p).inReset = s.inReset := rfl
@[simp] theorem State.addPlacement_standbyLost (p : Placement) : (s.addPlacement p).standbyLost = s.standbyLost := rfl
@[simp] theorem State.addPlacement_address (p : Placement) : (s.addPlacement p).address = s.address := rfl
@[simp] theorem State.addPlacement_resetReport (p : Placement) : (s.addPlacement p).resetReport = s.resetReport := rfl
@[simp] theorem State.addPlacement_kindRules (p : Placement) : (s.addPlacement p).kindRules = s.kindRules := rfl
@[simp] theorem State.addPlacement_groups (p : Placement) : (s.addPlacement p).groups = s.groups := rfl
@[simp] theorem State.addPlacement_constants (p : Placement) : (s.addPlacement p).constants = s.constants := rfl
@[simp] theorem State.addPlacement_stations (p : Placement) : (s.addPlacement p).stations = s.stations := rfl
@[simp] theorem State.addPlacement_slabs (p : Placement) : (s.addPlacement p).slabs = s.slabs := rfl
@[simp] theorem State.addPlacement_jobs (p : Placement) : (s.addPlacement p).jobs = s.jobs := rfl
@[simp] theorem State.addPlacement_bills (p : Placement) : (s.addPlacement p).bills = s.bills := rfl
@[simp] theorem State.addPlacement_closeCounter (p : Placement) : (s.addPlacement p).closeCounter = s.closeCounter := rfl
@[simp] theorem State.addPlacement_admissionCounter (p : Placement) : (s.addPlacement p).admissionCounter = s.admissionCounter := rfl
@[simp] theorem State.addPlacement_line (p : Placement) : (s.addPlacement p).line = s.line := rfl
@[simp] theorem State.addPlacement_water (p : Placement) : (s.addPlacement p).water = s.water := rfl
@[simp] theorem State.addPlacement_rates (p : Placement) : (s.addPlacement p).rates = s.rates := rfl
@[simp] theorem State.addPlacement_shop (p : Placement) : (s.addPlacement p).shop = s.shop := rfl
@[simp] theorem State.addPlacement_faults (p : Placement) : (s.addPlacement p).faults = s.faults := rfl
@[simp] theorem State.addPlacement_txA (p : Placement) : (s.addPlacement p).txA = s.txA := rfl
@[simp] theorem State.addPlacement_txB (p : Placement) : (s.addPlacement p).txB = s.txB := rfl
@[simp] theorem State.addPlacement_presented (p : Placement) : (s.addPlacement p).presented = s.presented := rfl
@[simp] theorem State.addPlacement_outbox (p : Placement) : (s.addPlacement p).outbox = s.outbox := rfl

/-! ## modifyPlacement -/

@[simp] theorem State.modifyPlacement_pending (a i : Nat) (f : Placement → Placement) : (s.modifyPlacement a i f).pending = s.pending := rfl
@[simp] theorem State.modifyPlacement_inReset (a i : Nat) (f : Placement → Placement) : (s.modifyPlacement a i f).inReset = s.inReset := rfl
@[simp] theorem State.modifyPlacement_standbyLost (a i : Nat) (f : Placement → Placement) : (s.modifyPlacement a i f).standbyLost = s.standbyLost := rfl
@[simp] theorem State.modifyPlacement_address (a i : Nat) (f : Placement → Placement) : (s.modifyPlacement a i f).address = s.address := rfl
@[simp] theorem State.modifyPlacement_resetReport (a i : Nat) (f : Placement → Placement) : (s.modifyPlacement a i f).resetReport = s.resetReport := rfl
@[simp] theorem State.modifyPlacement_kindRules (a i : Nat) (f : Placement → Placement) : (s.modifyPlacement a i f).kindRules = s.kindRules := rfl
@[simp] theorem State.modifyPlacement_groups (a i : Nat) (f : Placement → Placement) : (s.modifyPlacement a i f).groups = s.groups := rfl
@[simp] theorem State.modifyPlacement_constants (a i : Nat) (f : Placement → Placement) : (s.modifyPlacement a i f).constants = s.constants := rfl
@[simp] theorem State.modifyPlacement_stations (a i : Nat) (f : Placement → Placement) : (s.modifyPlacement a i f).stations = s.stations := rfl
@[simp] theorem State.modifyPlacement_slabs (a i : Nat) (f : Placement → Placement) : (s.modifyPlacement a i f).slabs = s.slabs := rfl
@[simp] theorem State.modifyPlacement_jobs (a i : Nat) (f : Placement → Placement) : (s.modifyPlacement a i f).jobs = s.jobs := rfl
@[simp] theorem State.modifyPlacement_bills (a i : Nat) (f : Placement → Placement) : (s.modifyPlacement a i f).bills = s.bills := rfl
@[simp] theorem State.modifyPlacement_closeCounter (a i : Nat) (f : Placement → Placement) : (s.modifyPlacement a i f).closeCounter = s.closeCounter := rfl
@[simp] theorem State.modifyPlacement_admissionCounter (a i : Nat) (f : Placement → Placement) : (s.modifyPlacement a i f).admissionCounter = s.admissionCounter := rfl
@[simp] theorem State.modifyPlacement_line (a i : Nat) (f : Placement → Placement) : (s.modifyPlacement a i f).line = s.line := rfl
@[simp] theorem State.modifyPlacement_water (a i : Nat) (f : Placement → Placement) : (s.modifyPlacement a i f).water = s.water := rfl
@[simp] theorem State.modifyPlacement_rates (a i : Nat) (f : Placement → Placement) : (s.modifyPlacement a i f).rates = s.rates := rfl
@[simp] theorem State.modifyPlacement_shop (a i : Nat) (f : Placement → Placement) : (s.modifyPlacement a i f).shop = s.shop := rfl
@[simp] theorem State.modifyPlacement_faults (a i : Nat) (f : Placement → Placement) : (s.modifyPlacement a i f).faults = s.faults := rfl
@[simp] theorem State.modifyPlacement_txA (a i : Nat) (f : Placement → Placement) : (s.modifyPlacement a i f).txA = s.txA := rfl
@[simp] theorem State.modifyPlacement_txB (a i : Nat) (f : Placement → Placement) : (s.modifyPlacement a i f).txB = s.txB := rfl
@[simp] theorem State.modifyPlacement_presented (a i : Nat) (f : Placement → Placement) : (s.modifyPlacement a i f).presented = s.presented := rfl
@[simp] theorem State.modifyPlacement_outbox (a i : Nat) (f : Placement → Placement) : (s.modifyPlacement a i f).outbox = s.outbox := rfl

/-! ## freePlacement -/

@[simp] theorem State.freePlacement_pending (a i : Nat) : (s.freePlacement a i).pending = s.pending := rfl
@[simp] theorem State.freePlacement_inReset (a i : Nat) : (s.freePlacement a i).inReset = s.inReset := rfl
@[simp] theorem State.freePlacement_standbyLost (a i : Nat) : (s.freePlacement a i).standbyLost = s.standbyLost := rfl
@[simp] theorem State.freePlacement_address (a i : Nat) : (s.freePlacement a i).address = s.address := rfl
@[simp] theorem State.freePlacement_resetReport (a i : Nat) : (s.freePlacement a i).resetReport = s.resetReport := rfl
@[simp] theorem State.freePlacement_kindRules (a i : Nat) : (s.freePlacement a i).kindRules = s.kindRules := rfl
@[simp] theorem State.freePlacement_groups (a i : Nat) : (s.freePlacement a i).groups = s.groups := rfl
@[simp] theorem State.freePlacement_constants (a i : Nat) : (s.freePlacement a i).constants = s.constants := rfl
@[simp] theorem State.freePlacement_stations (a i : Nat) : (s.freePlacement a i).stations = s.stations := rfl
@[simp] theorem State.freePlacement_slabs (a i : Nat) : (s.freePlacement a i).slabs = s.slabs := rfl
@[simp] theorem State.freePlacement_jobs (a i : Nat) : (s.freePlacement a i).jobs = s.jobs := rfl
@[simp] theorem State.freePlacement_bills (a i : Nat) : (s.freePlacement a i).bills = s.bills := rfl
@[simp] theorem State.freePlacement_closeCounter (a i : Nat) : (s.freePlacement a i).closeCounter = s.closeCounter := rfl
@[simp] theorem State.freePlacement_admissionCounter (a i : Nat) : (s.freePlacement a i).admissionCounter = s.admissionCounter := rfl
@[simp] theorem State.freePlacement_line (a i : Nat) : (s.freePlacement a i).line = s.line := rfl
@[simp] theorem State.freePlacement_water (a i : Nat) : (s.freePlacement a i).water = s.water := rfl
@[simp] theorem State.freePlacement_rates (a i : Nat) : (s.freePlacement a i).rates = s.rates := rfl
@[simp] theorem State.freePlacement_shop (a i : Nat) : (s.freePlacement a i).shop = s.shop := rfl
@[simp] theorem State.freePlacement_faults (a i : Nat) : (s.freePlacement a i).faults = s.faults := rfl
@[simp] theorem State.freePlacement_txA (a i : Nat) : (s.freePlacement a i).txA = s.txA := rfl
@[simp] theorem State.freePlacement_txB (a i : Nat) : (s.freePlacement a i).txB = s.txB := rfl
@[simp] theorem State.freePlacement_presented (a i : Nat) : (s.freePlacement a i).presented = s.presented := rfl
@[simp] theorem State.freePlacement_outbox (a i : Nat) : (s.freePlacement a i).outbox = s.outbox := rfl

/-! ## addStation -/

@[simp] theorem State.addStation_pending (x : Station) : (s.addStation x).pending = s.pending := rfl
@[simp] theorem State.addStation_inReset (x : Station) : (s.addStation x).inReset = s.inReset := rfl
@[simp] theorem State.addStation_standbyLost (x : Station) : (s.addStation x).standbyLost = s.standbyLost := rfl
@[simp] theorem State.addStation_address (x : Station) : (s.addStation x).address = s.address := rfl
@[simp] theorem State.addStation_resetReport (x : Station) : (s.addStation x).resetReport = s.resetReport := rfl
@[simp] theorem State.addStation_kindRules (x : Station) : (s.addStation x).kindRules = s.kindRules := rfl
@[simp] theorem State.addStation_groups (x : Station) : (s.addStation x).groups = s.groups := rfl
@[simp] theorem State.addStation_constants (x : Station) : (s.addStation x).constants = s.constants := rfl
@[simp] theorem State.addStation_slabs (x : Station) : (s.addStation x).slabs = s.slabs := rfl
@[simp] theorem State.addStation_placements (x : Station) : (s.addStation x).placements = s.placements := rfl
@[simp] theorem State.addStation_jobs (x : Station) : (s.addStation x).jobs = s.jobs := rfl
@[simp] theorem State.addStation_bills (x : Station) : (s.addStation x).bills = s.bills := rfl
@[simp] theorem State.addStation_closeCounter (x : Station) : (s.addStation x).closeCounter = s.closeCounter := rfl
@[simp] theorem State.addStation_admissionCounter (x : Station) : (s.addStation x).admissionCounter = s.admissionCounter := rfl
@[simp] theorem State.addStation_line (x : Station) : (s.addStation x).line = s.line := rfl
@[simp] theorem State.addStation_water (x : Station) : (s.addStation x).water = s.water := rfl
@[simp] theorem State.addStation_rates (x : Station) : (s.addStation x).rates = s.rates := rfl
@[simp] theorem State.addStation_shop (x : Station) : (s.addStation x).shop = s.shop := rfl
@[simp] theorem State.addStation_faults (x : Station) : (s.addStation x).faults = s.faults := rfl
@[simp] theorem State.addStation_txA (x : Station) : (s.addStation x).txA = s.txA := rfl
@[simp] theorem State.addStation_txB (x : Station) : (s.addStation x).txB = s.txB := rfl
@[simp] theorem State.addStation_presented (x : Station) : (s.addStation x).presented = s.presented := rfl
@[simp] theorem State.addStation_outbox (x : Station) : (s.addStation x).outbox = s.outbox := rfl

/-! ## modifyStation -/

@[simp] theorem State.modifyStation_pending (a : Nat) (f : Station → Station) : (s.modifyStation a f).pending = s.pending := rfl
@[simp] theorem State.modifyStation_inReset (a : Nat) (f : Station → Station) : (s.modifyStation a f).inReset = s.inReset := rfl
@[simp] theorem State.modifyStation_standbyLost (a : Nat) (f : Station → Station) : (s.modifyStation a f).standbyLost = s.standbyLost := rfl
@[simp] theorem State.modifyStation_address (a : Nat) (f : Station → Station) : (s.modifyStation a f).address = s.address := rfl
@[simp] theorem State.modifyStation_resetReport (a : Nat) (f : Station → Station) : (s.modifyStation a f).resetReport = s.resetReport := rfl
@[simp] theorem State.modifyStation_kindRules (a : Nat) (f : Station → Station) : (s.modifyStation a f).kindRules = s.kindRules := rfl
@[simp] theorem State.modifyStation_groups (a : Nat) (f : Station → Station) : (s.modifyStation a f).groups = s.groups := rfl
@[simp] theorem State.modifyStation_constants (a : Nat) (f : Station → Station) : (s.modifyStation a f).constants = s.constants := rfl
@[simp] theorem State.modifyStation_slabs (a : Nat) (f : Station → Station) : (s.modifyStation a f).slabs = s.slabs := rfl
@[simp] theorem State.modifyStation_placements (a : Nat) (f : Station → Station) : (s.modifyStation a f).placements = s.placements := rfl
@[simp] theorem State.modifyStation_jobs (a : Nat) (f : Station → Station) : (s.modifyStation a f).jobs = s.jobs := rfl
@[simp] theorem State.modifyStation_bills (a : Nat) (f : Station → Station) : (s.modifyStation a f).bills = s.bills := rfl
@[simp] theorem State.modifyStation_closeCounter (a : Nat) (f : Station → Station) : (s.modifyStation a f).closeCounter = s.closeCounter := rfl
@[simp] theorem State.modifyStation_admissionCounter (a : Nat) (f : Station → Station) : (s.modifyStation a f).admissionCounter = s.admissionCounter := rfl
@[simp] theorem State.modifyStation_line (a : Nat) (f : Station → Station) : (s.modifyStation a f).line = s.line := rfl
@[simp] theorem State.modifyStation_water (a : Nat) (f : Station → Station) : (s.modifyStation a f).water = s.water := rfl
@[simp] theorem State.modifyStation_rates (a : Nat) (f : Station → Station) : (s.modifyStation a f).rates = s.rates := rfl
@[simp] theorem State.modifyStation_shop (a : Nat) (f : Station → Station) : (s.modifyStation a f).shop = s.shop := rfl
@[simp] theorem State.modifyStation_faults (a : Nat) (f : Station → Station) : (s.modifyStation a f).faults = s.faults := rfl
@[simp] theorem State.modifyStation_txA (a : Nat) (f : Station → Station) : (s.modifyStation a f).txA = s.txA := rfl
@[simp] theorem State.modifyStation_txB (a : Nat) (f : Station → Station) : (s.modifyStation a f).txB = s.txB := rfl
@[simp] theorem State.modifyStation_presented (a : Nat) (f : Station → Station) : (s.modifyStation a f).presented = s.presented := rfl
@[simp] theorem State.modifyStation_outbox (a : Nat) (f : Station → Station) : (s.modifyStation a f).outbox = s.outbox := rfl

/-! ## freeStation -/

@[simp] theorem State.freeStation_pending (a : Nat) : (s.freeStation a).pending = s.pending := rfl
@[simp] theorem State.freeStation_inReset (a : Nat) : (s.freeStation a).inReset = s.inReset := rfl
@[simp] theorem State.freeStation_standbyLost (a : Nat) : (s.freeStation a).standbyLost = s.standbyLost := rfl
@[simp] theorem State.freeStation_address (a : Nat) : (s.freeStation a).address = s.address := rfl
@[simp] theorem State.freeStation_resetReport (a : Nat) : (s.freeStation a).resetReport = s.resetReport := rfl
@[simp] theorem State.freeStation_kindRules (a : Nat) : (s.freeStation a).kindRules = s.kindRules := rfl
@[simp] theorem State.freeStation_groups (a : Nat) : (s.freeStation a).groups = s.groups := rfl
@[simp] theorem State.freeStation_constants (a : Nat) : (s.freeStation a).constants = s.constants := rfl
@[simp] theorem State.freeStation_slabs (a : Nat) : (s.freeStation a).slabs = s.slabs := rfl
@[simp] theorem State.freeStation_placements (a : Nat) : (s.freeStation a).placements = s.placements := rfl
@[simp] theorem State.freeStation_jobs (a : Nat) : (s.freeStation a).jobs = s.jobs := rfl
@[simp] theorem State.freeStation_bills (a : Nat) : (s.freeStation a).bills = s.bills := rfl
@[simp] theorem State.freeStation_closeCounter (a : Nat) : (s.freeStation a).closeCounter = s.closeCounter := rfl
@[simp] theorem State.freeStation_admissionCounter (a : Nat) : (s.freeStation a).admissionCounter = s.admissionCounter := rfl
@[simp] theorem State.freeStation_line (a : Nat) : (s.freeStation a).line = s.line := rfl
@[simp] theorem State.freeStation_water (a : Nat) : (s.freeStation a).water = s.water := rfl
@[simp] theorem State.freeStation_rates (a : Nat) : (s.freeStation a).rates = s.rates := rfl
@[simp] theorem State.freeStation_shop (a : Nat) : (s.freeStation a).shop = s.shop := rfl
@[simp] theorem State.freeStation_faults (a : Nat) : (s.freeStation a).faults = s.faults := rfl
@[simp] theorem State.freeStation_txA (a : Nat) : (s.freeStation a).txA = s.txA := rfl
@[simp] theorem State.freeStation_txB (a : Nat) : (s.freeStation a).txB = s.txB := rfl
@[simp] theorem State.freeStation_presented (a : Nat) : (s.freeStation a).presented = s.presented := rfl
@[simp] theorem State.freeStation_outbox (a : Nat) : (s.freeStation a).outbox = s.outbox := rfl

/-! ## modifySaw -/

@[simp] theorem State.modifySaw_pending (a : Nat) (f : Saw → Saw) : (s.modifySaw a f).pending = s.pending := rfl
@[simp] theorem State.modifySaw_inReset (a : Nat) (f : Saw → Saw) : (s.modifySaw a f).inReset = s.inReset := rfl
@[simp] theorem State.modifySaw_standbyLost (a : Nat) (f : Saw → Saw) : (s.modifySaw a f).standbyLost = s.standbyLost := rfl
@[simp] theorem State.modifySaw_address (a : Nat) (f : Saw → Saw) : (s.modifySaw a f).address = s.address := rfl
@[simp] theorem State.modifySaw_resetReport (a : Nat) (f : Saw → Saw) : (s.modifySaw a f).resetReport = s.resetReport := rfl
@[simp] theorem State.modifySaw_kindRules (a : Nat) (f : Saw → Saw) : (s.modifySaw a f).kindRules = s.kindRules := rfl
@[simp] theorem State.modifySaw_groups (a : Nat) (f : Saw → Saw) : (s.modifySaw a f).groups = s.groups := rfl
@[simp] theorem State.modifySaw_constants (a : Nat) (f : Saw → Saw) : (s.modifySaw a f).constants = s.constants := rfl
@[simp] theorem State.modifySaw_slabs (a : Nat) (f : Saw → Saw) : (s.modifySaw a f).slabs = s.slabs := rfl
@[simp] theorem State.modifySaw_placements (a : Nat) (f : Saw → Saw) : (s.modifySaw a f).placements = s.placements := rfl
@[simp] theorem State.modifySaw_jobs (a : Nat) (f : Saw → Saw) : (s.modifySaw a f).jobs = s.jobs := rfl
@[simp] theorem State.modifySaw_bills (a : Nat) (f : Saw → Saw) : (s.modifySaw a f).bills = s.bills := rfl
@[simp] theorem State.modifySaw_closeCounter (a : Nat) (f : Saw → Saw) : (s.modifySaw a f).closeCounter = s.closeCounter := rfl
@[simp] theorem State.modifySaw_admissionCounter (a : Nat) (f : Saw → Saw) : (s.modifySaw a f).admissionCounter = s.admissionCounter := rfl
@[simp] theorem State.modifySaw_line (a : Nat) (f : Saw → Saw) : (s.modifySaw a f).line = s.line := rfl
@[simp] theorem State.modifySaw_water (a : Nat) (f : Saw → Saw) : (s.modifySaw a f).water = s.water := rfl
@[simp] theorem State.modifySaw_rates (a : Nat) (f : Saw → Saw) : (s.modifySaw a f).rates = s.rates := rfl
@[simp] theorem State.modifySaw_shop (a : Nat) (f : Saw → Saw) : (s.modifySaw a f).shop = s.shop := rfl
@[simp] theorem State.modifySaw_faults (a : Nat) (f : Saw → Saw) : (s.modifySaw a f).faults = s.faults := rfl
@[simp] theorem State.modifySaw_txA (a : Nat) (f : Saw → Saw) : (s.modifySaw a f).txA = s.txA := rfl
@[simp] theorem State.modifySaw_txB (a : Nat) (f : Saw → Saw) : (s.modifySaw a f).txB = s.txB := rfl
@[simp] theorem State.modifySaw_presented (a : Nat) (f : Saw → Saw) : (s.modifySaw a f).presented = s.presented := rfl
@[simp] theorem State.modifySaw_outbox (a : Nat) (f : Saw → Saw) : (s.modifySaw a f).outbox = s.outbox := rfl

/-! ## modifyOrder -/

@[simp] theorem State.modifyOrder_pending (a b i : Nat) (f : CutOrder → CutOrder) : (s.modifyOrder a b i f).pending = s.pending := rfl
@[simp] theorem State.modifyOrder_inReset (a b i : Nat) (f : CutOrder → CutOrder) : (s.modifyOrder a b i f).inReset = s.inReset := rfl
@[simp] theorem State.modifyOrder_standbyLost (a b i : Nat) (f : CutOrder → CutOrder) : (s.modifyOrder a b i f).standbyLost = s.standbyLost := rfl
@[simp] theorem State.modifyOrder_address (a b i : Nat) (f : CutOrder → CutOrder) : (s.modifyOrder a b i f).address = s.address := rfl
@[simp] theorem State.modifyOrder_resetReport (a b i : Nat) (f : CutOrder → CutOrder) : (s.modifyOrder a b i f).resetReport = s.resetReport := rfl
@[simp] theorem State.modifyOrder_kindRules (a b i : Nat) (f : CutOrder → CutOrder) : (s.modifyOrder a b i f).kindRules = s.kindRules := rfl
@[simp] theorem State.modifyOrder_groups (a b i : Nat) (f : CutOrder → CutOrder) : (s.modifyOrder a b i f).groups = s.groups := rfl
@[simp] theorem State.modifyOrder_constants (a b i : Nat) (f : CutOrder → CutOrder) : (s.modifyOrder a b i f).constants = s.constants := rfl
@[simp] theorem State.modifyOrder_slabs (a b i : Nat) (f : CutOrder → CutOrder) : (s.modifyOrder a b i f).slabs = s.slabs := rfl
@[simp] theorem State.modifyOrder_placements (a b i : Nat) (f : CutOrder → CutOrder) : (s.modifyOrder a b i f).placements = s.placements := rfl
@[simp] theorem State.modifyOrder_jobs (a b i : Nat) (f : CutOrder → CutOrder) : (s.modifyOrder a b i f).jobs = s.jobs := rfl
@[simp] theorem State.modifyOrder_bills (a b i : Nat) (f : CutOrder → CutOrder) : (s.modifyOrder a b i f).bills = s.bills := rfl
@[simp] theorem State.modifyOrder_closeCounter (a b i : Nat) (f : CutOrder → CutOrder) : (s.modifyOrder a b i f).closeCounter = s.closeCounter := rfl
@[simp] theorem State.modifyOrder_admissionCounter (a b i : Nat) (f : CutOrder → CutOrder) : (s.modifyOrder a b i f).admissionCounter = s.admissionCounter := rfl
@[simp] theorem State.modifyOrder_line (a b i : Nat) (f : CutOrder → CutOrder) : (s.modifyOrder a b i f).line = s.line := rfl
@[simp] theorem State.modifyOrder_water (a b i : Nat) (f : CutOrder → CutOrder) : (s.modifyOrder a b i f).water = s.water := rfl
@[simp] theorem State.modifyOrder_rates (a b i : Nat) (f : CutOrder → CutOrder) : (s.modifyOrder a b i f).rates = s.rates := rfl
@[simp] theorem State.modifyOrder_shop (a b i : Nat) (f : CutOrder → CutOrder) : (s.modifyOrder a b i f).shop = s.shop := rfl
@[simp] theorem State.modifyOrder_faults (a b i : Nat) (f : CutOrder → CutOrder) : (s.modifyOrder a b i f).faults = s.faults := rfl
@[simp] theorem State.modifyOrder_txA (a b i : Nat) (f : CutOrder → CutOrder) : (s.modifyOrder a b i f).txA = s.txA := rfl
@[simp] theorem State.modifyOrder_txB (a b i : Nat) (f : CutOrder → CutOrder) : (s.modifyOrder a b i f).txB = s.txB := rfl
@[simp] theorem State.modifyOrder_presented (a b i : Nat) (f : CutOrder → CutOrder) : (s.modifyOrder a b i f).presented = s.presented := rfl
@[simp] theorem State.modifyOrder_outbox (a b i : Nat) (f : CutOrder → CutOrder) : (s.modifyOrder a b i f).outbox = s.outbox := rfl

/-! ## restartSilence -/

@[simp] theorem State.restartSilence_pending (a : Nat) : (s.restartSilence a).pending = s.pending := rfl
@[simp] theorem State.restartSilence_inReset (a : Nat) : (s.restartSilence a).inReset = s.inReset := rfl
@[simp] theorem State.restartSilence_standbyLost (a : Nat) : (s.restartSilence a).standbyLost = s.standbyLost := rfl
@[simp] theorem State.restartSilence_address (a : Nat) : (s.restartSilence a).address = s.address := rfl
@[simp] theorem State.restartSilence_resetReport (a : Nat) : (s.restartSilence a).resetReport = s.resetReport := rfl
@[simp] theorem State.restartSilence_kindRules (a : Nat) : (s.restartSilence a).kindRules = s.kindRules := rfl
@[simp] theorem State.restartSilence_groups (a : Nat) : (s.restartSilence a).groups = s.groups := rfl
@[simp] theorem State.restartSilence_constants (a : Nat) : (s.restartSilence a).constants = s.constants := rfl
@[simp] theorem State.restartSilence_slabs (a : Nat) : (s.restartSilence a).slabs = s.slabs := rfl
@[simp] theorem State.restartSilence_placements (a : Nat) : (s.restartSilence a).placements = s.placements := rfl
@[simp] theorem State.restartSilence_jobs (a : Nat) : (s.restartSilence a).jobs = s.jobs := rfl
@[simp] theorem State.restartSilence_bills (a : Nat) : (s.restartSilence a).bills = s.bills := rfl
@[simp] theorem State.restartSilence_closeCounter (a : Nat) : (s.restartSilence a).closeCounter = s.closeCounter := rfl
@[simp] theorem State.restartSilence_admissionCounter (a : Nat) : (s.restartSilence a).admissionCounter = s.admissionCounter := rfl
@[simp] theorem State.restartSilence_line (a : Nat) : (s.restartSilence a).line = s.line := rfl
@[simp] theorem State.restartSilence_water (a : Nat) : (s.restartSilence a).water = s.water := rfl
@[simp] theorem State.restartSilence_rates (a : Nat) : (s.restartSilence a).rates = s.rates := rfl
@[simp] theorem State.restartSilence_shop (a : Nat) : (s.restartSilence a).shop = s.shop := rfl
@[simp] theorem State.restartSilence_faults (a : Nat) : (s.restartSilence a).faults = s.faults := rfl
@[simp] theorem State.restartSilence_txA (a : Nat) : (s.restartSilence a).txA = s.txA := rfl
@[simp] theorem State.restartSilence_txB (a : Nat) : (s.restartSilence a).txB = s.txB := rfl
@[simp] theorem State.restartSilence_presented (a : Nat) : (s.restartSilence a).presented = s.presented := rfl
@[simp] theorem State.restartSilence_outbox (a : Nat) : (s.restartSilence a).outbox = s.outbox := rfl

/-! ## attach -/

@[simp] theorem State.attach_pending (a : Nat) : (s.attach a).pending = s.pending := rfl
@[simp] theorem State.attach_inReset (a : Nat) : (s.attach a).inReset = s.inReset := rfl
@[simp] theorem State.attach_standbyLost (a : Nat) : (s.attach a).standbyLost = s.standbyLost := rfl
@[simp] theorem State.attach_address (a : Nat) : (s.attach a).address = s.address := rfl
@[simp] theorem State.attach_resetReport (a : Nat) : (s.attach a).resetReport = s.resetReport := rfl
@[simp] theorem State.attach_kindRules (a : Nat) : (s.attach a).kindRules = s.kindRules := rfl
@[simp] theorem State.attach_groups (a : Nat) : (s.attach a).groups = s.groups := rfl
@[simp] theorem State.attach_constants (a : Nat) : (s.attach a).constants = s.constants := rfl
@[simp] theorem State.attach_slabs (a : Nat) : (s.attach a).slabs = s.slabs := rfl
@[simp] theorem State.attach_placements (a : Nat) : (s.attach a).placements = s.placements := rfl
@[simp] theorem State.attach_jobs (a : Nat) : (s.attach a).jobs = s.jobs := rfl
@[simp] theorem State.attach_bills (a : Nat) : (s.attach a).bills = s.bills := rfl
@[simp] theorem State.attach_closeCounter (a : Nat) : (s.attach a).closeCounter = s.closeCounter := rfl
@[simp] theorem State.attach_admissionCounter (a : Nat) : (s.attach a).admissionCounter = s.admissionCounter := rfl
@[simp] theorem State.attach_line (a : Nat) : (s.attach a).line = s.line := rfl
@[simp] theorem State.attach_water (a : Nat) : (s.attach a).water = s.water := rfl
@[simp] theorem State.attach_rates (a : Nat) : (s.attach a).rates = s.rates := rfl
@[simp] theorem State.attach_shop (a : Nat) : (s.attach a).shop = s.shop := rfl
@[simp] theorem State.attach_faults (a : Nat) : (s.attach a).faults = s.faults := rfl
@[simp] theorem State.attach_txA (a : Nat) : (s.attach a).txA = s.txA := rfl
@[simp] theorem State.attach_txB (a : Nat) : (s.attach a).txB = s.txB := rfl
@[simp] theorem State.attach_presented (a : Nat) : (s.attach a).presented = s.presented := rfl
@[simp] theorem State.attach_outbox (a : Nat) : (s.attach a).outbox = s.outbox := rfl

/-! ## reattach -/

@[simp] theorem State.reattach_pending (a : Nat) : (s.reattach a).pending = s.pending := rfl
@[simp] theorem State.reattach_inReset (a : Nat) : (s.reattach a).inReset = s.inReset := rfl
@[simp] theorem State.reattach_standbyLost (a : Nat) : (s.reattach a).standbyLost = s.standbyLost := rfl
@[simp] theorem State.reattach_address (a : Nat) : (s.reattach a).address = s.address := rfl
@[simp] theorem State.reattach_resetReport (a : Nat) : (s.reattach a).resetReport = s.resetReport := rfl
@[simp] theorem State.reattach_kindRules (a : Nat) : (s.reattach a).kindRules = s.kindRules := rfl
@[simp] theorem State.reattach_groups (a : Nat) : (s.reattach a).groups = s.groups := rfl
@[simp] theorem State.reattach_constants (a : Nat) : (s.reattach a).constants = s.constants := rfl
@[simp] theorem State.reattach_slabs (a : Nat) : (s.reattach a).slabs = s.slabs := rfl
@[simp] theorem State.reattach_placements (a : Nat) : (s.reattach a).placements = s.placements := rfl
@[simp] theorem State.reattach_jobs (a : Nat) : (s.reattach a).jobs = s.jobs := rfl
@[simp] theorem State.reattach_bills (a : Nat) : (s.reattach a).bills = s.bills := rfl
@[simp] theorem State.reattach_closeCounter (a : Nat) : (s.reattach a).closeCounter = s.closeCounter := rfl
@[simp] theorem State.reattach_admissionCounter (a : Nat) : (s.reattach a).admissionCounter = s.admissionCounter := rfl
@[simp] theorem State.reattach_line (a : Nat) : (s.reattach a).line = s.line := rfl
@[simp] theorem State.reattach_water (a : Nat) : (s.reattach a).water = s.water := rfl
@[simp] theorem State.reattach_rates (a : Nat) : (s.reattach a).rates = s.rates := rfl
@[simp] theorem State.reattach_shop (a : Nat) : (s.reattach a).shop = s.shop := rfl
@[simp] theorem State.reattach_faults (a : Nat) : (s.reattach a).faults = s.faults := rfl
@[simp] theorem State.reattach_txA (a : Nat) : (s.reattach a).txA = s.txA := rfl
@[simp] theorem State.reattach_txB (a : Nat) : (s.reattach a).txB = s.txB := rfl
@[simp] theorem State.reattach_presented (a : Nat) : (s.reattach a).presented = s.presented := rfl
@[simp] theorem State.reattach_outbox (a : Nat) : (s.reattach a).outbox = s.outbox := rfl

/-! ## acknowledge -/

@[simp] theorem State.acknowledge_pending (a b i : Nat) : (s.acknowledge a b i).pending = s.pending := rfl
@[simp] theorem State.acknowledge_inReset (a b i : Nat) : (s.acknowledge a b i).inReset = s.inReset := rfl
@[simp] theorem State.acknowledge_standbyLost (a b i : Nat) : (s.acknowledge a b i).standbyLost = s.standbyLost := rfl
@[simp] theorem State.acknowledge_address (a b i : Nat) : (s.acknowledge a b i).address = s.address := rfl
@[simp] theorem State.acknowledge_resetReport (a b i : Nat) : (s.acknowledge a b i).resetReport = s.resetReport := rfl
@[simp] theorem State.acknowledge_kindRules (a b i : Nat) : (s.acknowledge a b i).kindRules = s.kindRules := rfl
@[simp] theorem State.acknowledge_groups (a b i : Nat) : (s.acknowledge a b i).groups = s.groups := rfl
@[simp] theorem State.acknowledge_constants (a b i : Nat) : (s.acknowledge a b i).constants = s.constants := rfl
@[simp] theorem State.acknowledge_slabs (a b i : Nat) : (s.acknowledge a b i).slabs = s.slabs := rfl
@[simp] theorem State.acknowledge_placements (a b i : Nat) : (s.acknowledge a b i).placements = s.placements := rfl
@[simp] theorem State.acknowledge_jobs (a b i : Nat) : (s.acknowledge a b i).jobs = s.jobs := rfl
@[simp] theorem State.acknowledge_bills (a b i : Nat) : (s.acknowledge a b i).bills = s.bills := rfl
@[simp] theorem State.acknowledge_closeCounter (a b i : Nat) : (s.acknowledge a b i).closeCounter = s.closeCounter := rfl
@[simp] theorem State.acknowledge_admissionCounter (a b i : Nat) : (s.acknowledge a b i).admissionCounter = s.admissionCounter := rfl
@[simp] theorem State.acknowledge_line (a b i : Nat) : (s.acknowledge a b i).line = s.line := rfl
@[simp] theorem State.acknowledge_water (a b i : Nat) : (s.acknowledge a b i).water = s.water := rfl
@[simp] theorem State.acknowledge_rates (a b i : Nat) : (s.acknowledge a b i).rates = s.rates := rfl
@[simp] theorem State.acknowledge_shop (a b i : Nat) : (s.acknowledge a b i).shop = s.shop := rfl
@[simp] theorem State.acknowledge_faults (a b i : Nat) : (s.acknowledge a b i).faults = s.faults := rfl
@[simp] theorem State.acknowledge_txA (a b i : Nat) : (s.acknowledge a b i).txA = s.txA := rfl
@[simp] theorem State.acknowledge_txB (a b i : Nat) : (s.acknowledge a b i).txB = s.txB := rfl
@[simp] theorem State.acknowledge_presented (a b i : Nat) : (s.acknowledge a b i).presented = s.presented := rfl
@[simp] theorem State.acknowledge_outbox (a b i : Nat) : (s.acknowledge a b i).outbox = s.outbox := rfl

/-! ## restartStations -/

@[simp] theorem State.restartStations_pending : (s.restartStations).pending = s.pending := rfl
@[simp] theorem State.restartStations_inReset : (s.restartStations).inReset = s.inReset := rfl
@[simp] theorem State.restartStations_standbyLost : (s.restartStations).standbyLost = s.standbyLost := rfl
@[simp] theorem State.restartStations_address : (s.restartStations).address = s.address := rfl
@[simp] theorem State.restartStations_resetReport : (s.restartStations).resetReport = s.resetReport := rfl
@[simp] theorem State.restartStations_kindRules : (s.restartStations).kindRules = s.kindRules := rfl
@[simp] theorem State.restartStations_groups : (s.restartStations).groups = s.groups := rfl
@[simp] theorem State.restartStations_constants : (s.restartStations).constants = s.constants := rfl
@[simp] theorem State.restartStations_slabs : (s.restartStations).slabs = s.slabs := rfl
@[simp] theorem State.restartStations_placements : (s.restartStations).placements = s.placements := rfl
@[simp] theorem State.restartStations_jobs : (s.restartStations).jobs = s.jobs := rfl
@[simp] theorem State.restartStations_bills : (s.restartStations).bills = s.bills := rfl
@[simp] theorem State.restartStations_closeCounter : (s.restartStations).closeCounter = s.closeCounter := rfl
@[simp] theorem State.restartStations_admissionCounter : (s.restartStations).admissionCounter = s.admissionCounter := rfl
@[simp] theorem State.restartStations_line : (s.restartStations).line = s.line := rfl
@[simp] theorem State.restartStations_water : (s.restartStations).water = s.water := rfl
@[simp] theorem State.restartStations_rates : (s.restartStations).rates = s.rates := rfl
@[simp] theorem State.restartStations_shop : (s.restartStations).shop = s.shop := rfl
@[simp] theorem State.restartStations_faults : (s.restartStations).faults = s.faults := rfl
@[simp] theorem State.restartStations_txA : (s.restartStations).txA = s.txA := rfl
@[simp] theorem State.restartStations_txB : (s.restartStations).txB = s.txB := rfl
@[simp] theorem State.restartStations_presented : (s.restartStations).presented = s.presented := rfl
@[simp] theorem State.restartStations_outbox : (s.restartStations).outbox = s.outbox := rfl

/-! ## addJob -/

@[simp] theorem State.addJob_pending (x : Job) : (s.addJob x).pending = s.pending := rfl
@[simp] theorem State.addJob_inReset (x : Job) : (s.addJob x).inReset = s.inReset := rfl
@[simp] theorem State.addJob_standbyLost (x : Job) : (s.addJob x).standbyLost = s.standbyLost := rfl
@[simp] theorem State.addJob_address (x : Job) : (s.addJob x).address = s.address := rfl
@[simp] theorem State.addJob_resetReport (x : Job) : (s.addJob x).resetReport = s.resetReport := rfl
@[simp] theorem State.addJob_kindRules (x : Job) : (s.addJob x).kindRules = s.kindRules := rfl
@[simp] theorem State.addJob_groups (x : Job) : (s.addJob x).groups = s.groups := rfl
@[simp] theorem State.addJob_constants (x : Job) : (s.addJob x).constants = s.constants := rfl
@[simp] theorem State.addJob_stations (x : Job) : (s.addJob x).stations = s.stations := rfl
@[simp] theorem State.addJob_slabs (x : Job) : (s.addJob x).slabs = s.slabs := rfl
@[simp] theorem State.addJob_placements (x : Job) : (s.addJob x).placements = s.placements := rfl
@[simp] theorem State.addJob_bills (x : Job) : (s.addJob x).bills = s.bills := rfl
@[simp] theorem State.addJob_closeCounter (x : Job) : (s.addJob x).closeCounter = s.closeCounter := rfl
@[simp] theorem State.addJob_admissionCounter (x : Job) : (s.addJob x).admissionCounter = s.admissionCounter := rfl
@[simp] theorem State.addJob_line (x : Job) : (s.addJob x).line = s.line := rfl
@[simp] theorem State.addJob_water (x : Job) : (s.addJob x).water = s.water := rfl
@[simp] theorem State.addJob_rates (x : Job) : (s.addJob x).rates = s.rates := rfl
@[simp] theorem State.addJob_shop (x : Job) : (s.addJob x).shop = s.shop := rfl
@[simp] theorem State.addJob_faults (x : Job) : (s.addJob x).faults = s.faults := rfl
@[simp] theorem State.addJob_txA (x : Job) : (s.addJob x).txA = s.txA := rfl
@[simp] theorem State.addJob_txB (x : Job) : (s.addJob x).txB = s.txB := rfl
@[simp] theorem State.addJob_presented (x : Job) : (s.addJob x).presented = s.presented := rfl
@[simp] theorem State.addJob_outbox (x : Job) : (s.addJob x).outbox = s.outbox := rfl

/-! ## modifyJob -/

@[simp] theorem State.modifyJob_pending (a : Nat) (f : Job → Job) : (s.modifyJob a f).pending = s.pending := rfl
@[simp] theorem State.modifyJob_inReset (a : Nat) (f : Job → Job) : (s.modifyJob a f).inReset = s.inReset := rfl
@[simp] theorem State.modifyJob_standbyLost (a : Nat) (f : Job → Job) : (s.modifyJob a f).standbyLost = s.standbyLost := rfl
@[simp] theorem State.modifyJob_address (a : Nat) (f : Job → Job) : (s.modifyJob a f).address = s.address := rfl
@[simp] theorem State.modifyJob_resetReport (a : Nat) (f : Job → Job) : (s.modifyJob a f).resetReport = s.resetReport := rfl
@[simp] theorem State.modifyJob_kindRules (a : Nat) (f : Job → Job) : (s.modifyJob a f).kindRules = s.kindRules := rfl
@[simp] theorem State.modifyJob_groups (a : Nat) (f : Job → Job) : (s.modifyJob a f).groups = s.groups := rfl
@[simp] theorem State.modifyJob_constants (a : Nat) (f : Job → Job) : (s.modifyJob a f).constants = s.constants := rfl
@[simp] theorem State.modifyJob_stations (a : Nat) (f : Job → Job) : (s.modifyJob a f).stations = s.stations := rfl
@[simp] theorem State.modifyJob_slabs (a : Nat) (f : Job → Job) : (s.modifyJob a f).slabs = s.slabs := rfl
@[simp] theorem State.modifyJob_placements (a : Nat) (f : Job → Job) : (s.modifyJob a f).placements = s.placements := rfl
@[simp] theorem State.modifyJob_bills (a : Nat) (f : Job → Job) : (s.modifyJob a f).bills = s.bills := rfl
@[simp] theorem State.modifyJob_closeCounter (a : Nat) (f : Job → Job) : (s.modifyJob a f).closeCounter = s.closeCounter := rfl
@[simp] theorem State.modifyJob_admissionCounter (a : Nat) (f : Job → Job) : (s.modifyJob a f).admissionCounter = s.admissionCounter := rfl
@[simp] theorem State.modifyJob_line (a : Nat) (f : Job → Job) : (s.modifyJob a f).line = s.line := rfl
@[simp] theorem State.modifyJob_water (a : Nat) (f : Job → Job) : (s.modifyJob a f).water = s.water := rfl
@[simp] theorem State.modifyJob_rates (a : Nat) (f : Job → Job) : (s.modifyJob a f).rates = s.rates := rfl
@[simp] theorem State.modifyJob_shop (a : Nat) (f : Job → Job) : (s.modifyJob a f).shop = s.shop := rfl
@[simp] theorem State.modifyJob_faults (a : Nat) (f : Job → Job) : (s.modifyJob a f).faults = s.faults := rfl
@[simp] theorem State.modifyJob_txA (a : Nat) (f : Job → Job) : (s.modifyJob a f).txA = s.txA := rfl
@[simp] theorem State.modifyJob_txB (a : Nat) (f : Job → Job) : (s.modifyJob a f).txB = s.txB := rfl
@[simp] theorem State.modifyJob_presented (a : Nat) (f : Job → Job) : (s.modifyJob a f).presented = s.presented := rfl
@[simp] theorem State.modifyJob_outbox (a : Nat) (f : Job → Job) : (s.modifyJob a f).outbox = s.outbox := rfl

/-! ## freeJob -/

@[simp] theorem State.freeJob_pending (a : Nat) : (s.freeJob a).pending = s.pending := rfl
@[simp] theorem State.freeJob_inReset (a : Nat) : (s.freeJob a).inReset = s.inReset := rfl
@[simp] theorem State.freeJob_standbyLost (a : Nat) : (s.freeJob a).standbyLost = s.standbyLost := rfl
@[simp] theorem State.freeJob_address (a : Nat) : (s.freeJob a).address = s.address := rfl
@[simp] theorem State.freeJob_resetReport (a : Nat) : (s.freeJob a).resetReport = s.resetReport := rfl
@[simp] theorem State.freeJob_kindRules (a : Nat) : (s.freeJob a).kindRules = s.kindRules := rfl
@[simp] theorem State.freeJob_groups (a : Nat) : (s.freeJob a).groups = s.groups := rfl
@[simp] theorem State.freeJob_constants (a : Nat) : (s.freeJob a).constants = s.constants := rfl
@[simp] theorem State.freeJob_stations (a : Nat) : (s.freeJob a).stations = s.stations := rfl
@[simp] theorem State.freeJob_slabs (a : Nat) : (s.freeJob a).slabs = s.slabs := rfl
@[simp] theorem State.freeJob_placements (a : Nat) : (s.freeJob a).placements = s.placements := rfl
@[simp] theorem State.freeJob_bills (a : Nat) : (s.freeJob a).bills = s.bills := rfl
@[simp] theorem State.freeJob_closeCounter (a : Nat) : (s.freeJob a).closeCounter = s.closeCounter := rfl
@[simp] theorem State.freeJob_admissionCounter (a : Nat) : (s.freeJob a).admissionCounter = s.admissionCounter := rfl
@[simp] theorem State.freeJob_line (a : Nat) : (s.freeJob a).line = s.line := rfl
@[simp] theorem State.freeJob_water (a : Nat) : (s.freeJob a).water = s.water := rfl
@[simp] theorem State.freeJob_rates (a : Nat) : (s.freeJob a).rates = s.rates := rfl
@[simp] theorem State.freeJob_shop (a : Nat) : (s.freeJob a).shop = s.shop := rfl
@[simp] theorem State.freeJob_faults (a : Nat) : (s.freeJob a).faults = s.faults := rfl
@[simp] theorem State.freeJob_txA (a : Nat) : (s.freeJob a).txA = s.txA := rfl
@[simp] theorem State.freeJob_txB (a : Nat) : (s.freeJob a).txB = s.txB := rfl
@[simp] theorem State.freeJob_presented (a : Nat) : (s.freeJob a).presented = s.presented := rfl
@[simp] theorem State.freeJob_outbox (a : Nat) : (s.freeJob a).outbox = s.outbox := rfl

/-! ## setRule -/

@[simp] theorem State.setRule_pending (c : Nat) (d : Disposition) (t : Nat) (k : Byte) : (s.setRule c d t k).pending = s.pending := rfl
@[simp] theorem State.setRule_inReset (c : Nat) (d : Disposition) (t : Nat) (k : Byte) : (s.setRule c d t k).inReset = s.inReset := rfl
@[simp] theorem State.setRule_standbyLost (c : Nat) (d : Disposition) (t : Nat) (k : Byte) : (s.setRule c d t k).standbyLost = s.standbyLost := rfl
@[simp] theorem State.setRule_address (c : Nat) (d : Disposition) (t : Nat) (k : Byte) : (s.setRule c d t k).address = s.address := rfl
@[simp] theorem State.setRule_resetReport (c : Nat) (d : Disposition) (t : Nat) (k : Byte) : (s.setRule c d t k).resetReport = s.resetReport := rfl
@[simp] theorem State.setRule_groups (c : Nat) (d : Disposition) (t : Nat) (k : Byte) : (s.setRule c d t k).groups = s.groups := rfl
@[simp] theorem State.setRule_constants (c : Nat) (d : Disposition) (t : Nat) (k : Byte) : (s.setRule c d t k).constants = s.constants := rfl
@[simp] theorem State.setRule_stations (c : Nat) (d : Disposition) (t : Nat) (k : Byte) : (s.setRule c d t k).stations = s.stations := rfl
@[simp] theorem State.setRule_slabs (c : Nat) (d : Disposition) (t : Nat) (k : Byte) : (s.setRule c d t k).slabs = s.slabs := rfl
@[simp] theorem State.setRule_placements (c : Nat) (d : Disposition) (t : Nat) (k : Byte) : (s.setRule c d t k).placements = s.placements := rfl
@[simp] theorem State.setRule_jobs (c : Nat) (d : Disposition) (t : Nat) (k : Byte) : (s.setRule c d t k).jobs = s.jobs := rfl
@[simp] theorem State.setRule_bills (c : Nat) (d : Disposition) (t : Nat) (k : Byte) : (s.setRule c d t k).bills = s.bills := rfl
@[simp] theorem State.setRule_closeCounter (c : Nat) (d : Disposition) (t : Nat) (k : Byte) : (s.setRule c d t k).closeCounter = s.closeCounter := rfl
@[simp] theorem State.setRule_admissionCounter (c : Nat) (d : Disposition) (t : Nat) (k : Byte) : (s.setRule c d t k).admissionCounter = s.admissionCounter := rfl
@[simp] theorem State.setRule_line (c : Nat) (d : Disposition) (t : Nat) (k : Byte) : (s.setRule c d t k).line = s.line := rfl
@[simp] theorem State.setRule_water (c : Nat) (d : Disposition) (t : Nat) (k : Byte) : (s.setRule c d t k).water = s.water := rfl
@[simp] theorem State.setRule_rates (c : Nat) (d : Disposition) (t : Nat) (k : Byte) : (s.setRule c d t k).rates = s.rates := rfl
@[simp] theorem State.setRule_shop (c : Nat) (d : Disposition) (t : Nat) (k : Byte) : (s.setRule c d t k).shop = s.shop := rfl
@[simp] theorem State.setRule_faults (c : Nat) (d : Disposition) (t : Nat) (k : Byte) : (s.setRule c d t k).faults = s.faults := rfl
@[simp] theorem State.setRule_txA (c : Nat) (d : Disposition) (t : Nat) (k : Byte) : (s.setRule c d t k).txA = s.txA := rfl
@[simp] theorem State.setRule_txB (c : Nat) (d : Disposition) (t : Nat) (k : Byte) : (s.setRule c d t k).txB = s.txB := rfl
@[simp] theorem State.setRule_presented (c : Nat) (d : Disposition) (t : Nat) (k : Byte) : (s.setRule c d t k).presented = s.presented := rfl
@[simp] theorem State.setRule_outbox (c : Nat) (d : Disposition) (t : Nat) (k : Byte) : (s.setRule c d t k).outbox = s.outbox := rfl

/-! ## addOverheadWater -/

@[simp] theorem State.addOverheadWater_pending (a b : Nat) : (s.addOverheadWater a b).pending = s.pending := rfl
@[simp] theorem State.addOverheadWater_inReset (a b : Nat) : (s.addOverheadWater a b).inReset = s.inReset := rfl
@[simp] theorem State.addOverheadWater_standbyLost (a b : Nat) : (s.addOverheadWater a b).standbyLost = s.standbyLost := rfl
@[simp] theorem State.addOverheadWater_address (a b : Nat) : (s.addOverheadWater a b).address = s.address := rfl
@[simp] theorem State.addOverheadWater_resetReport (a b : Nat) : (s.addOverheadWater a b).resetReport = s.resetReport := rfl
@[simp] theorem State.addOverheadWater_kindRules (a b : Nat) : (s.addOverheadWater a b).kindRules = s.kindRules := rfl
@[simp] theorem State.addOverheadWater_groups (a b : Nat) : (s.addOverheadWater a b).groups = s.groups := rfl
@[simp] theorem State.addOverheadWater_constants (a b : Nat) : (s.addOverheadWater a b).constants = s.constants := rfl
@[simp] theorem State.addOverheadWater_stations (a b : Nat) : (s.addOverheadWater a b).stations = s.stations := rfl
@[simp] theorem State.addOverheadWater_slabs (a b : Nat) : (s.addOverheadWater a b).slabs = s.slabs := rfl
@[simp] theorem State.addOverheadWater_placements (a b : Nat) : (s.addOverheadWater a b).placements = s.placements := rfl
@[simp] theorem State.addOverheadWater_jobs (a b : Nat) : (s.addOverheadWater a b).jobs = s.jobs := rfl
@[simp] theorem State.addOverheadWater_bills (a b : Nat) : (s.addOverheadWater a b).bills = s.bills := rfl
@[simp] theorem State.addOverheadWater_closeCounter (a b : Nat) : (s.addOverheadWater a b).closeCounter = s.closeCounter := rfl
@[simp] theorem State.addOverheadWater_admissionCounter (a b : Nat) : (s.addOverheadWater a b).admissionCounter = s.admissionCounter := rfl
@[simp] theorem State.addOverheadWater_line (a b : Nat) : (s.addOverheadWater a b).line = s.line := rfl
@[simp] theorem State.addOverheadWater_water (a b : Nat) : (s.addOverheadWater a b).water = s.water := rfl
@[simp] theorem State.addOverheadWater_rates (a b : Nat) : (s.addOverheadWater a b).rates = s.rates := rfl
@[simp] theorem State.addOverheadWater_faults (a b : Nat) : (s.addOverheadWater a b).faults = s.faults := rfl
@[simp] theorem State.addOverheadWater_txA (a b : Nat) : (s.addOverheadWater a b).txA = s.txA := rfl
@[simp] theorem State.addOverheadWater_txB (a b : Nat) : (s.addOverheadWater a b).txB = s.txB := rfl
@[simp] theorem State.addOverheadWater_presented (a b : Nat) : (s.addOverheadWater a b).presented = s.presented := rfl
@[simp] theorem State.addOverheadWater_outbox (a b : Nat) : (s.addOverheadWater a b).outbox = s.outbox := rfl

/-! ## addOverheadCents -/

@[simp] theorem State.addOverheadCents_pending (a b : Nat) : (s.addOverheadCents a b).pending = s.pending := rfl
@[simp] theorem State.addOverheadCents_inReset (a b : Nat) : (s.addOverheadCents a b).inReset = s.inReset := rfl
@[simp] theorem State.addOverheadCents_standbyLost (a b : Nat) : (s.addOverheadCents a b).standbyLost = s.standbyLost := rfl
@[simp] theorem State.addOverheadCents_address (a b : Nat) : (s.addOverheadCents a b).address = s.address := rfl
@[simp] theorem State.addOverheadCents_resetReport (a b : Nat) : (s.addOverheadCents a b).resetReport = s.resetReport := rfl
@[simp] theorem State.addOverheadCents_kindRules (a b : Nat) : (s.addOverheadCents a b).kindRules = s.kindRules := rfl
@[simp] theorem State.addOverheadCents_groups (a b : Nat) : (s.addOverheadCents a b).groups = s.groups := rfl
@[simp] theorem State.addOverheadCents_constants (a b : Nat) : (s.addOverheadCents a b).constants = s.constants := rfl
@[simp] theorem State.addOverheadCents_stations (a b : Nat) : (s.addOverheadCents a b).stations = s.stations := rfl
@[simp] theorem State.addOverheadCents_slabs (a b : Nat) : (s.addOverheadCents a b).slabs = s.slabs := rfl
@[simp] theorem State.addOverheadCents_placements (a b : Nat) : (s.addOverheadCents a b).placements = s.placements := rfl
@[simp] theorem State.addOverheadCents_jobs (a b : Nat) : (s.addOverheadCents a b).jobs = s.jobs := rfl
@[simp] theorem State.addOverheadCents_bills (a b : Nat) : (s.addOverheadCents a b).bills = s.bills := rfl
@[simp] theorem State.addOverheadCents_closeCounter (a b : Nat) : (s.addOverheadCents a b).closeCounter = s.closeCounter := rfl
@[simp] theorem State.addOverheadCents_admissionCounter (a b : Nat) : (s.addOverheadCents a b).admissionCounter = s.admissionCounter := rfl
@[simp] theorem State.addOverheadCents_line (a b : Nat) : (s.addOverheadCents a b).line = s.line := rfl
@[simp] theorem State.addOverheadCents_water (a b : Nat) : (s.addOverheadCents a b).water = s.water := rfl
@[simp] theorem State.addOverheadCents_rates (a b : Nat) : (s.addOverheadCents a b).rates = s.rates := rfl
@[simp] theorem State.addOverheadCents_faults (a b : Nat) : (s.addOverheadCents a b).faults = s.faults := rfl
@[simp] theorem State.addOverheadCents_txA (a b : Nat) : (s.addOverheadCents a b).txA = s.txA := rfl
@[simp] theorem State.addOverheadCents_txB (a b : Nat) : (s.addOverheadCents a b).txB = s.txB := rfl
@[simp] theorem State.addOverheadCents_presented (a b : Nat) : (s.addOverheadCents a b).presented = s.presented := rfl
@[simp] theorem State.addOverheadCents_outbox (a b : Nat) : (s.addOverheadCents a b).outbox = s.outbox := rfl

/-! ## addLoss -/

@[simp] theorem State.addLoss_pending (a : Nat) : (s.addLoss a).pending = s.pending := rfl
@[simp] theorem State.addLoss_inReset (a : Nat) : (s.addLoss a).inReset = s.inReset := rfl
@[simp] theorem State.addLoss_standbyLost (a : Nat) : (s.addLoss a).standbyLost = s.standbyLost := rfl
@[simp] theorem State.addLoss_address (a : Nat) : (s.addLoss a).address = s.address := rfl
@[simp] theorem State.addLoss_resetReport (a : Nat) : (s.addLoss a).resetReport = s.resetReport := rfl
@[simp] theorem State.addLoss_kindRules (a : Nat) : (s.addLoss a).kindRules = s.kindRules := rfl
@[simp] theorem State.addLoss_groups (a : Nat) : (s.addLoss a).groups = s.groups := rfl
@[simp] theorem State.addLoss_constants (a : Nat) : (s.addLoss a).constants = s.constants := rfl
@[simp] theorem State.addLoss_stations (a : Nat) : (s.addLoss a).stations = s.stations := rfl
@[simp] theorem State.addLoss_slabs (a : Nat) : (s.addLoss a).slabs = s.slabs := rfl
@[simp] theorem State.addLoss_placements (a : Nat) : (s.addLoss a).placements = s.placements := rfl
@[simp] theorem State.addLoss_jobs (a : Nat) : (s.addLoss a).jobs = s.jobs := rfl
@[simp] theorem State.addLoss_bills (a : Nat) : (s.addLoss a).bills = s.bills := rfl
@[simp] theorem State.addLoss_closeCounter (a : Nat) : (s.addLoss a).closeCounter = s.closeCounter := rfl
@[simp] theorem State.addLoss_admissionCounter (a : Nat) : (s.addLoss a).admissionCounter = s.admissionCounter := rfl
@[simp] theorem State.addLoss_line (a : Nat) : (s.addLoss a).line = s.line := rfl
@[simp] theorem State.addLoss_water (a : Nat) : (s.addLoss a).water = s.water := rfl
@[simp] theorem State.addLoss_rates (a : Nat) : (s.addLoss a).rates = s.rates := rfl
@[simp] theorem State.addLoss_faults (a : Nat) : (s.addLoss a).faults = s.faults := rfl
@[simp] theorem State.addLoss_txA (a : Nat) : (s.addLoss a).txA = s.txA := rfl
@[simp] theorem State.addLoss_txB (a : Nat) : (s.addLoss a).txB = s.txB := rfl
@[simp] theorem State.addLoss_presented (a : Nat) : (s.addLoss a).presented = s.presented := rfl
@[simp] theorem State.addLoss_outbox (a : Nat) : (s.addLoss a).outbox = s.outbox := rfl

/-! ## addOverflow -/

@[simp] theorem State.addOverflow_pending (a : Nat) : (s.addOverflow a).pending = s.pending := rfl
@[simp] theorem State.addOverflow_inReset (a : Nat) : (s.addOverflow a).inReset = s.inReset := rfl
@[simp] theorem State.addOverflow_standbyLost (a : Nat) : (s.addOverflow a).standbyLost = s.standbyLost := rfl
@[simp] theorem State.addOverflow_address (a : Nat) : (s.addOverflow a).address = s.address := rfl
@[simp] theorem State.addOverflow_resetReport (a : Nat) : (s.addOverflow a).resetReport = s.resetReport := rfl
@[simp] theorem State.addOverflow_kindRules (a : Nat) : (s.addOverflow a).kindRules = s.kindRules := rfl
@[simp] theorem State.addOverflow_groups (a : Nat) : (s.addOverflow a).groups = s.groups := rfl
@[simp] theorem State.addOverflow_constants (a : Nat) : (s.addOverflow a).constants = s.constants := rfl
@[simp] theorem State.addOverflow_stations (a : Nat) : (s.addOverflow a).stations = s.stations := rfl
@[simp] theorem State.addOverflow_slabs (a : Nat) : (s.addOverflow a).slabs = s.slabs := rfl
@[simp] theorem State.addOverflow_placements (a : Nat) : (s.addOverflow a).placements = s.placements := rfl
@[simp] theorem State.addOverflow_jobs (a : Nat) : (s.addOverflow a).jobs = s.jobs := rfl
@[simp] theorem State.addOverflow_bills (a : Nat) : (s.addOverflow a).bills = s.bills := rfl
@[simp] theorem State.addOverflow_closeCounter (a : Nat) : (s.addOverflow a).closeCounter = s.closeCounter := rfl
@[simp] theorem State.addOverflow_admissionCounter (a : Nat) : (s.addOverflow a).admissionCounter = s.admissionCounter := rfl
@[simp] theorem State.addOverflow_line (a : Nat) : (s.addOverflow a).line = s.line := rfl
@[simp] theorem State.addOverflow_water (a : Nat) : (s.addOverflow a).water = s.water := rfl
@[simp] theorem State.addOverflow_rates (a : Nat) : (s.addOverflow a).rates = s.rates := rfl
@[simp] theorem State.addOverflow_faults (a : Nat) : (s.addOverflow a).faults = s.faults := rfl
@[simp] theorem State.addOverflow_txA (a : Nat) : (s.addOverflow a).txA = s.txA := rfl
@[simp] theorem State.addOverflow_txB (a : Nat) : (s.addOverflow a).txB = s.txB := rfl
@[simp] theorem State.addOverflow_presented (a : Nat) : (s.addOverflow a).presented = s.presented := rfl
@[simp] theorem State.addOverflow_outbox (a : Nat) : (s.addOverflow a).outbox = s.outbox := rfl

/-! ## queueOut -/

@[simp] theorem State.queueOut_pending (o : Outgoing) : (s.queueOut o).pending = s.pending := rfl
@[simp] theorem State.queueOut_inReset (o : Outgoing) : (s.queueOut o).inReset = s.inReset := rfl
@[simp] theorem State.queueOut_standbyLost (o : Outgoing) : (s.queueOut o).standbyLost = s.standbyLost := rfl
@[simp] theorem State.queueOut_address (o : Outgoing) : (s.queueOut o).address = s.address := rfl
@[simp] theorem State.queueOut_resetReport (o : Outgoing) : (s.queueOut o).resetReport = s.resetReport := rfl
@[simp] theorem State.queueOut_kindRules (o : Outgoing) : (s.queueOut o).kindRules = s.kindRules := rfl
@[simp] theorem State.queueOut_groups (o : Outgoing) : (s.queueOut o).groups = s.groups := rfl
@[simp] theorem State.queueOut_constants (o : Outgoing) : (s.queueOut o).constants = s.constants := rfl
@[simp] theorem State.queueOut_stations (o : Outgoing) : (s.queueOut o).stations = s.stations := rfl
@[simp] theorem State.queueOut_slabs (o : Outgoing) : (s.queueOut o).slabs = s.slabs := rfl
@[simp] theorem State.queueOut_placements (o : Outgoing) : (s.queueOut o).placements = s.placements := rfl
@[simp] theorem State.queueOut_jobs (o : Outgoing) : (s.queueOut o).jobs = s.jobs := rfl
@[simp] theorem State.queueOut_bills (o : Outgoing) : (s.queueOut o).bills = s.bills := rfl
@[simp] theorem State.queueOut_closeCounter (o : Outgoing) : (s.queueOut o).closeCounter = s.closeCounter := rfl
@[simp] theorem State.queueOut_admissionCounter (o : Outgoing) : (s.queueOut o).admissionCounter = s.admissionCounter := rfl
@[simp] theorem State.queueOut_line (o : Outgoing) : (s.queueOut o).line = s.line := rfl
@[simp] theorem State.queueOut_water (o : Outgoing) : (s.queueOut o).water = s.water := rfl
@[simp] theorem State.queueOut_rates (o : Outgoing) : (s.queueOut o).rates = s.rates := rfl
@[simp] theorem State.queueOut_shop (o : Outgoing) : (s.queueOut o).shop = s.shop := rfl
@[simp] theorem State.queueOut_faults (o : Outgoing) : (s.queueOut o).faults = s.faults := rfl
@[simp] theorem State.queueOut_txA (o : Outgoing) : (s.queueOut o).txA = s.txA := rfl
@[simp] theorem State.queueOut_txB (o : Outgoing) : (s.queueOut o).txB = s.txB := rfl
@[simp] theorem State.queueOut_presented (o : Outgoing) : (s.queueOut o).presented = s.presented := rfl

/-! ## notify -/

@[simp] theorem State.notify_pending (n : Notice) : (s.notify n).pending = s.pending := rfl
@[simp] theorem State.notify_inReset (n : Notice) : (s.notify n).inReset = s.inReset := rfl
@[simp] theorem State.notify_standbyLost (n : Notice) : (s.notify n).standbyLost = s.standbyLost := rfl
@[simp] theorem State.notify_address (n : Notice) : (s.notify n).address = s.address := rfl
@[simp] theorem State.notify_resetReport (n : Notice) : (s.notify n).resetReport = s.resetReport := rfl
@[simp] theorem State.notify_kindRules (n : Notice) : (s.notify n).kindRules = s.kindRules := rfl
@[simp] theorem State.notify_groups (n : Notice) : (s.notify n).groups = s.groups := rfl
@[simp] theorem State.notify_constants (n : Notice) : (s.notify n).constants = s.constants := rfl
@[simp] theorem State.notify_stations (n : Notice) : (s.notify n).stations = s.stations := rfl
@[simp] theorem State.notify_slabs (n : Notice) : (s.notify n).slabs = s.slabs := rfl
@[simp] theorem State.notify_placements (n : Notice) : (s.notify n).placements = s.placements := rfl
@[simp] theorem State.notify_jobs (n : Notice) : (s.notify n).jobs = s.jobs := rfl
@[simp] theorem State.notify_bills (n : Notice) : (s.notify n).bills = s.bills := rfl
@[simp] theorem State.notify_closeCounter (n : Notice) : (s.notify n).closeCounter = s.closeCounter := rfl
@[simp] theorem State.notify_admissionCounter (n : Notice) : (s.notify n).admissionCounter = s.admissionCounter := rfl
@[simp] theorem State.notify_line (n : Notice) : (s.notify n).line = s.line := rfl
@[simp] theorem State.notify_water (n : Notice) : (s.notify n).water = s.water := rfl
@[simp] theorem State.notify_rates (n : Notice) : (s.notify n).rates = s.rates := rfl
@[simp] theorem State.notify_shop (n : Notice) : (s.notify n).shop = s.shop := rfl
@[simp] theorem State.notify_faults (n : Notice) : (s.notify n).faults = s.faults := rfl
@[simp] theorem State.notify_txA (n : Notice) : (s.notify n).txA = s.txA := rfl
@[simp] theorem State.notify_txB (n : Notice) : (s.notify n).txB = s.txB := rfl
@[simp] theorem State.notify_presented (n : Notice) : (s.notify n).presented = s.presented := rfl

/-! ## present -/

@[simp] theorem State.present_pending (a : Nat) : (s.present a).pending = s.pending := rfl
@[simp] theorem State.present_inReset (a : Nat) : (s.present a).inReset = s.inReset := rfl
@[simp] theorem State.present_standbyLost (a : Nat) : (s.present a).standbyLost = s.standbyLost := rfl
@[simp] theorem State.present_address (a : Nat) : (s.present a).address = s.address := rfl
@[simp] theorem State.present_resetReport (a : Nat) : (s.present a).resetReport = s.resetReport := rfl
@[simp] theorem State.present_kindRules (a : Nat) : (s.present a).kindRules = s.kindRules := rfl
@[simp] theorem State.present_groups (a : Nat) : (s.present a).groups = s.groups := rfl
@[simp] theorem State.present_constants (a : Nat) : (s.present a).constants = s.constants := rfl
@[simp] theorem State.present_stations (a : Nat) : (s.present a).stations = s.stations := rfl
@[simp] theorem State.present_slabs (a : Nat) : (s.present a).slabs = s.slabs := rfl
@[simp] theorem State.present_placements (a : Nat) : (s.present a).placements = s.placements := rfl
@[simp] theorem State.present_jobs (a : Nat) : (s.present a).jobs = s.jobs := rfl
@[simp] theorem State.present_bills (a : Nat) : (s.present a).bills = s.bills := rfl
@[simp] theorem State.present_closeCounter (a : Nat) : (s.present a).closeCounter = s.closeCounter := rfl
@[simp] theorem State.present_admissionCounter (a : Nat) : (s.present a).admissionCounter = s.admissionCounter := rfl
@[simp] theorem State.present_line (a : Nat) : (s.present a).line = s.line := rfl
@[simp] theorem State.present_water (a : Nat) : (s.present a).water = s.water := rfl
@[simp] theorem State.present_rates (a : Nat) : (s.present a).rates = s.rates := rfl
@[simp] theorem State.present_shop (a : Nat) : (s.present a).shop = s.shop := rfl
@[simp] theorem State.present_faults (a : Nat) : (s.present a).faults = s.faults := rfl
@[simp] theorem State.present_txA (a : Nat) : (s.present a).txA = s.txA := rfl
@[simp] theorem State.present_txB (a : Nat) : (s.present a).txB = s.txB := rfl
@[simp] theorem State.present_outbox (a : Nat) : (s.present a).outbox = s.outbox := rfl

/-! ## presentAll -/

@[simp] theorem State.presentAll_pending : (s.presentAll).pending = s.pending := rfl
@[simp] theorem State.presentAll_inReset : (s.presentAll).inReset = s.inReset := rfl
@[simp] theorem State.presentAll_standbyLost : (s.presentAll).standbyLost = s.standbyLost := rfl
@[simp] theorem State.presentAll_address : (s.presentAll).address = s.address := rfl
@[simp] theorem State.presentAll_resetReport : (s.presentAll).resetReport = s.resetReport := rfl
@[simp] theorem State.presentAll_kindRules : (s.presentAll).kindRules = s.kindRules := rfl
@[simp] theorem State.presentAll_groups : (s.presentAll).groups = s.groups := rfl
@[simp] theorem State.presentAll_constants : (s.presentAll).constants = s.constants := rfl
@[simp] theorem State.presentAll_stations : (s.presentAll).stations = s.stations := rfl
@[simp] theorem State.presentAll_slabs : (s.presentAll).slabs = s.slabs := rfl
@[simp] theorem State.presentAll_placements : (s.presentAll).placements = s.placements := rfl
@[simp] theorem State.presentAll_jobs : (s.presentAll).jobs = s.jobs := rfl
@[simp] theorem State.presentAll_bills : (s.presentAll).bills = s.bills := rfl
@[simp] theorem State.presentAll_closeCounter : (s.presentAll).closeCounter = s.closeCounter := rfl
@[simp] theorem State.presentAll_admissionCounter : (s.presentAll).admissionCounter = s.admissionCounter := rfl
@[simp] theorem State.presentAll_line : (s.presentAll).line = s.line := rfl
@[simp] theorem State.presentAll_water : (s.presentAll).water = s.water := rfl
@[simp] theorem State.presentAll_rates : (s.presentAll).rates = s.rates := rfl
@[simp] theorem State.presentAll_shop : (s.presentAll).shop = s.shop := rfl
@[simp] theorem State.presentAll_faults : (s.presentAll).faults = s.faults := rfl
@[simp] theorem State.presentAll_txA : (s.presentAll).txA = s.txA := rfl
@[simp] theorem State.presentAll_txB : (s.presentAll).txB = s.txB := rfl
@[simp] theorem State.presentAll_outbox : (s.presentAll).outbox = s.outbox := rfl

/-! ## recordFault -/

@[simp] theorem State.recordFault_pending (r : FaultRecord) : (s.recordFault r).pending = s.pending := by unfold State.recordFault; split <;> rfl
@[simp] theorem State.recordFault_inReset (r : FaultRecord) : (s.recordFault r).inReset = s.inReset := by unfold State.recordFault; split <;> rfl
@[simp] theorem State.recordFault_standbyLost (r : FaultRecord) : (s.recordFault r).standbyLost = s.standbyLost := by unfold State.recordFault; split <;> rfl
@[simp] theorem State.recordFault_address (r : FaultRecord) : (s.recordFault r).address = s.address := by unfold State.recordFault; split <;> rfl
@[simp] theorem State.recordFault_resetReport (r : FaultRecord) : (s.recordFault r).resetReport = s.resetReport := by unfold State.recordFault; split <;> rfl
@[simp] theorem State.recordFault_kindRules (r : FaultRecord) : (s.recordFault r).kindRules = s.kindRules := by unfold State.recordFault; split <;> rfl
@[simp] theorem State.recordFault_groups (r : FaultRecord) : (s.recordFault r).groups = s.groups := by unfold State.recordFault; split <;> rfl
@[simp] theorem State.recordFault_constants (r : FaultRecord) : (s.recordFault r).constants = s.constants := by unfold State.recordFault; split <;> rfl
@[simp] theorem State.recordFault_stations (r : FaultRecord) : (s.recordFault r).stations = s.stations := by unfold State.recordFault; split <;> rfl
@[simp] theorem State.recordFault_slabs (r : FaultRecord) : (s.recordFault r).slabs = s.slabs := by unfold State.recordFault; split <;> rfl
@[simp] theorem State.recordFault_placements (r : FaultRecord) : (s.recordFault r).placements = s.placements := by unfold State.recordFault; split <;> rfl
@[simp] theorem State.recordFault_jobs (r : FaultRecord) : (s.recordFault r).jobs = s.jobs := by unfold State.recordFault; split <;> rfl
@[simp] theorem State.recordFault_bills (r : FaultRecord) : (s.recordFault r).bills = s.bills := by unfold State.recordFault; split <;> rfl
@[simp] theorem State.recordFault_closeCounter (r : FaultRecord) : (s.recordFault r).closeCounter = s.closeCounter := by unfold State.recordFault; split <;> rfl
@[simp] theorem State.recordFault_admissionCounter (r : FaultRecord) : (s.recordFault r).admissionCounter = s.admissionCounter := by unfold State.recordFault; split <;> rfl
@[simp] theorem State.recordFault_line (r : FaultRecord) : (s.recordFault r).line = s.line := by unfold State.recordFault; split <;> rfl
@[simp] theorem State.recordFault_water (r : FaultRecord) : (s.recordFault r).water = s.water := by unfold State.recordFault; split <;> rfl
@[simp] theorem State.recordFault_rates (r : FaultRecord) : (s.recordFault r).rates = s.rates := by unfold State.recordFault; split <;> rfl
@[simp] theorem State.recordFault_shop (r : FaultRecord) : (s.recordFault r).shop = s.shop := by unfold State.recordFault; split <;> rfl
@[simp] theorem State.recordFault_txA (r : FaultRecord) : (s.recordFault r).txA = s.txA := by unfold State.recordFault; split <;> rfl
@[simp] theorem State.recordFault_txB (r : FaultRecord) : (s.recordFault r).txB = s.txB := by unfold State.recordFault; split <;> rfl
@[simp] theorem State.recordFault_presented (r : FaultRecord) : (s.recordFault r).presented = s.presented := by unfold State.recordFault; split <;> rfl
@[simp] theorem State.recordFault_outbox (r : FaultRecord) : (s.recordFault r).outbox = s.outbox := by unfold State.recordFault; split <;> rfl

/-! ## raise -/

@[simp] theorem State.raise_pending (r : FaultRecord) : (s.raise r).pending = s.pending := State.recordFault_pending s r
@[simp] theorem State.raise_inReset (r : FaultRecord) : (s.raise r).inReset = s.inReset := State.recordFault_inReset s r
@[simp] theorem State.raise_standbyLost (r : FaultRecord) : (s.raise r).standbyLost = s.standbyLost := State.recordFault_standbyLost s r
@[simp] theorem State.raise_address (r : FaultRecord) : (s.raise r).address = s.address := State.recordFault_address s r
@[simp] theorem State.raise_resetReport (r : FaultRecord) : (s.raise r).resetReport = s.resetReport := State.recordFault_resetReport s r
@[simp] theorem State.raise_kindRules (r : FaultRecord) : (s.raise r).kindRules = s.kindRules := State.recordFault_kindRules s r
@[simp] theorem State.raise_groups (r : FaultRecord) : (s.raise r).groups = s.groups := State.recordFault_groups s r
@[simp] theorem State.raise_constants (r : FaultRecord) : (s.raise r).constants = s.constants := State.recordFault_constants s r
@[simp] theorem State.raise_stations (r : FaultRecord) : (s.raise r).stations = s.stations := State.recordFault_stations s r
@[simp] theorem State.raise_slabs (r : FaultRecord) : (s.raise r).slabs = s.slabs := State.recordFault_slabs s r
@[simp] theorem State.raise_placements (r : FaultRecord) : (s.raise r).placements = s.placements := State.recordFault_placements s r
@[simp] theorem State.raise_jobs (r : FaultRecord) : (s.raise r).jobs = s.jobs := State.recordFault_jobs s r
@[simp] theorem State.raise_bills (r : FaultRecord) : (s.raise r).bills = s.bills := State.recordFault_bills s r
@[simp] theorem State.raise_closeCounter (r : FaultRecord) : (s.raise r).closeCounter = s.closeCounter := State.recordFault_closeCounter s r
@[simp] theorem State.raise_admissionCounter (r : FaultRecord) : (s.raise r).admissionCounter = s.admissionCounter := State.recordFault_admissionCounter s r
@[simp] theorem State.raise_line (r : FaultRecord) : (s.raise r).line = s.line := State.recordFault_line s r
@[simp] theorem State.raise_water (r : FaultRecord) : (s.raise r).water = s.water := State.recordFault_water s r
@[simp] theorem State.raise_rates (r : FaultRecord) : (s.raise r).rates = s.rates := State.recordFault_rates s r
@[simp] theorem State.raise_shop (r : FaultRecord) : (s.raise r).shop = s.shop := State.recordFault_shop s r
@[simp] theorem State.raise_txA (r : FaultRecord) : (s.raise r).txA = s.txA := State.recordFault_txA s r
@[simp] theorem State.raise_txB (r : FaultRecord) : (s.raise r).txB = s.txB := State.recordFault_txB s r
@[simp] theorem State.raise_presented (r : FaultRecord) : (s.raise r).presented = s.presented := State.recordFault_presented s r

/-! ## setTx -/

@[simp] theorem State.setTx_pending (d : Side) (x : Transmitter) : (s.setTx d x).pending = s.pending := by cases d <;> rfl
@[simp] theorem State.setTx_inReset (d : Side) (x : Transmitter) : (s.setTx d x).inReset = s.inReset := by cases d <;> rfl
@[simp] theorem State.setTx_standbyLost (d : Side) (x : Transmitter) : (s.setTx d x).standbyLost = s.standbyLost := by cases d <;> rfl
@[simp] theorem State.setTx_address (d : Side) (x : Transmitter) : (s.setTx d x).address = s.address := by cases d <;> rfl
@[simp] theorem State.setTx_resetReport (d : Side) (x : Transmitter) : (s.setTx d x).resetReport = s.resetReport := by cases d <;> rfl
@[simp] theorem State.setTx_kindRules (d : Side) (x : Transmitter) : (s.setTx d x).kindRules = s.kindRules := by cases d <;> rfl
@[simp] theorem State.setTx_groups (d : Side) (x : Transmitter) : (s.setTx d x).groups = s.groups := by cases d <;> rfl
@[simp] theorem State.setTx_constants (d : Side) (x : Transmitter) : (s.setTx d x).constants = s.constants := by cases d <;> rfl
@[simp] theorem State.setTx_stations (d : Side) (x : Transmitter) : (s.setTx d x).stations = s.stations := by cases d <;> rfl
@[simp] theorem State.setTx_slabs (d : Side) (x : Transmitter) : (s.setTx d x).slabs = s.slabs := by cases d <;> rfl
@[simp] theorem State.setTx_placements (d : Side) (x : Transmitter) : (s.setTx d x).placements = s.placements := by cases d <;> rfl
@[simp] theorem State.setTx_jobs (d : Side) (x : Transmitter) : (s.setTx d x).jobs = s.jobs := by cases d <;> rfl
@[simp] theorem State.setTx_bills (d : Side) (x : Transmitter) : (s.setTx d x).bills = s.bills := by cases d <;> rfl
@[simp] theorem State.setTx_closeCounter (d : Side) (x : Transmitter) : (s.setTx d x).closeCounter = s.closeCounter := by cases d <;> rfl
@[simp] theorem State.setTx_admissionCounter (d : Side) (x : Transmitter) : (s.setTx d x).admissionCounter = s.admissionCounter := by cases d <;> rfl
@[simp] theorem State.setTx_line (d : Side) (x : Transmitter) : (s.setTx d x).line = s.line := by cases d <;> rfl
@[simp] theorem State.setTx_water (d : Side) (x : Transmitter) : (s.setTx d x).water = s.water := by cases d <;> rfl
@[simp] theorem State.setTx_rates (d : Side) (x : Transmitter) : (s.setTx d x).rates = s.rates := by cases d <;> rfl
@[simp] theorem State.setTx_shop (d : Side) (x : Transmitter) : (s.setTx d x).shop = s.shop := by cases d <;> rfl
@[simp] theorem State.setTx_faults (d : Side) (x : Transmitter) : (s.setTx d x).faults = s.faults := by cases d <;> rfl
@[simp] theorem State.setTx_presented (d : Side) (x : Transmitter) : (s.setTx d x).presented = s.presented := by cases d <;> rfl
@[simp] theorem State.setTx_outbox (d : Side) (x : Transmitter) : (s.setTx d x).outbox = s.outbox := by cases d <;> rfl

/-! ## The updated fields -/

@[simp] theorem State.addSlab_slabs (x : Slab) : (s.addSlab x).slabs = insertBy Slab.id x s.slabs := rfl
@[simp] theorem State.modifySlab_slabs (a : Nat) (f : Slab → Slab) :
    (s.modifySlab a f).slabs = modifyBy Slab.id a f s.slabs := rfl
@[simp] theorem State.freeSlab_slabs (a : Nat) : (s.freeSlab a).slabs = eraseBy Slab.id a s.slabs := rfl
@[simp] theorem State.addPlacement_placements (p : Placement) :
    (s.addPlacement p).placements = insertBy Placement.key p s.placements := rfl
@[simp] theorem State.modifyPlacement_placements (a i : Nat) (f : Placement → Placement) :
    (s.modifyPlacement a i f).placements = s.placements.map (fun p => if Placement.at a i p then f p else p) := rfl
@[simp] theorem State.freePlacement_placements (a i : Nat) :
    (s.freePlacement a i).placements = s.placements.filter (fun p => !Placement.at a i p) := rfl
@[simp] theorem State.addStation_stations (x : Station) :
    (s.addStation x).stations = insertBy Station.address x s.stations := rfl
@[simp] theorem State.modifyStation_stations (a : Nat) (f : Station → Station) :
    (s.modifyStation a f).stations = modifyBy Station.address a f s.stations := rfl
@[simp] theorem State.freeStation_stations (a : Nat) :
    (s.freeStation a).stations = eraseBy Station.address a s.stations := rfl
@[simp] theorem State.addJob_jobs (x : Job) : (s.addJob x).jobs = insertBy Job.id x s.jobs := rfl
@[simp] theorem State.modifyJob_jobs (a : Nat) (f : Job → Job) : (s.modifyJob a f).jobs = modifyBy Job.id a f s.jobs := rfl
@[simp] theorem State.freeJob_jobs (a : Nat) : (s.freeJob a).jobs = eraseBy Job.id a s.jobs := rfl
@[simp] theorem State.queueOut_outbox (o : Outgoing) : (s.queueOut o).outbox = s.outbox ++ [o] := rfl
@[simp] theorem State.notify_outbox (n : Notice) : (s.notify n).outbox = s.outbox ++ [.notice n] := rfl
@[simp] theorem State.present_presented (a : Nat) : (s.present a).presented = s.presented ++ [a] := rfl
@[simp] theorem State.setTx_tx (d : Side) (x : Transmitter) : (s.setTx d x).tx d = x := by cases d <;> rfl
@[simp] theorem State.setTx_tx_opposite (d : Side) (x : Transmitter) : (s.setTx d x).tx (Side.opposite d) = s.tx (Side.opposite d) := by
  cases d <;> rfl

end Sys2Proof.Machine
end

