-- ==== Sys2Proof/Laws/Tables.lean ====
section
/-! SUPPORT. The table operations on lists: membership, length, and that keys stay rising. -/

namespace Sys2Proof.Machine

open Sys2Proof

variable {α : Type} (key : α → Nat)

theorem mem_insertBy (x y : α) (l : List α) : y ∈ insertBy key x l ↔ y = x ∨ y ∈ l := by
  induction l with
  | nil => simp [insertBy]
  | cons z zs ih =>
    simp only [insertBy]
    split
    · simp
    · simp [ih, or_left_comm]

theorem length_insertBy (x : α) (l : List α) : (insertBy key x l).length = l.length + 1 := by
  induction l with
  | nil => rfl
  | cons z zs ih =>
    simp only [insertBy]
    split <;> simp [ih]

theorem rising_insertBy {x : α} {l : List α} (h : Rising key l) (hx : ∀ y ∈ l, key y ≠ key x) :
    Rising key (insertBy key x l) := by
  induction l with
  | nil => simp [insertBy, Rising]
  | cons z zs ih =>
    rw [Rising, List.pairwise_cons] at h
    have hz := hx z (by simp)
    simp only [insertBy]
    split
    · rename_i hle
      rw [Rising, List.pairwise_cons]
      refine ⟨fun y hy => ?_, List.pairwise_cons.2 h⟩
      rcases List.mem_cons.1 hy with rfl | hy
      · omega
      · have := h.1 y hy; omega
    · rename_i hle
      rw [Rising, List.pairwise_cons]
      refine ⟨fun y hy => ?_, ih h.2 (fun y hy => hx y (by simp [hy]))⟩
      rcases (mem_insertBy key x y zs).1 hy with rfl | hy
      · omega
      · exact h.1 y hy

theorem rising_map {f : α → α} {l : List α} (h : Rising key l) (hf : ∀ x, key (f x) = key x) : Rising key (l.map f) := by
  rw [Rising, List.pairwise_map]
  exact h.imp (fun hab => by rw [hf, hf]; exact hab)

theorem rising_filter {l : List α} (h : Rising key l) (c : α → Bool) : Rising key (l.filter c) := List.Pairwise.filter c h

theorem rising_modifyBy {k : Nat} {f : α → α} {l : List α} (h : Rising key l)
    (hf : ∀ x, key x = k → key (f x) = key x) : Rising key (modifyBy key k f l) :=
  rising_map key h (fun x => by split <;> simp_all)

theorem rising_eraseBy {k : Nat} {l : List α} (h : Rising key l) : Rising key (eraseBy key k l) := rising_filter key h _

theorem mem_modifyBy {k : Nat} {f : α → α} {l : List α} {y : α} :
    y ∈ modifyBy key k f l ↔ ∃ x ∈ l, (if key x = k then f x else x) = y := by
  simp [modifyBy]

theorem mem_eraseBy {k : Nat} {l : List α} {y : α} : y ∈ eraseBy key k l ↔ y ∈ l ∧ key y ≠ k := by
  simp [eraseBy]

@[simp] theorem length_modifyBy (k : Nat) (f : α → α) (l : List α) : (modifyBy key k f l).length = l.length := by
  simp [modifyBy]

theorem length_eraseBy_le (k : Nat) (l : List α) : (eraseBy key k l).length ≤ l.length := List.length_filter_le _ _

theorem findBy_some {k : Nat} {l : List α} {x : α} (h : findBy key k l = some x) : x ∈ l ∧ key x = k :=
  ⟨List.mem_of_find?_eq_some h, by simpa using List.find?_some h⟩

theorem findBy_none {k : Nat} {l : List α} (h : findBy key k l = none) : ∀ x ∈ l, key x ≠ k := by
  simpa [findBy] using h

/-- An entry of a table with rising keys is the one its key finds. -/
theorem findBy_eq {l : List α} (h : Rising key l) {x : α} (hx : x ∈ l) : findBy key (key x) l = some x := by
  induction l with
  | nil => simp at hx
  | cons z zs ih =>
    rw [Rising, List.pairwise_cons] at h
    unfold findBy at ih ⊢
    rcases List.mem_cons.1 hx with rfl | hx
    · simp
    · have hlt := h.1 x hx
      rw [List.find?_cons_of_neg (by simp; omega)]
      exact ih h.2 hx

/-- Keys of a rising table are unique. -/
theorem rising_unique {l : List α} (h : Rising key l) {x y : α} (hx : x ∈ l) (hy : y ∈ l) (e : key x = key y) : x = y := by
  have h1 := findBy_eq key h hx
  rw [e, findBy_eq key h hy] at h1
  exact (Option.some.inj h1).symm

/-- What a table holds at a key after a change of the entry at k. -/
theorem findBy_modifyBy {f : α → α} (k : Nat) (hf : ∀ x, key x = k → key (f x) = key x) (m : Nat) (l : List α) :
    findBy key m (modifyBy key k f l) = (findBy key m l).map (fun x => if key x = k then f x else x) := by
  induction l with
  | nil => rfl
  | cons z zs ih =>
    have hz : key (if key z = k then f z else z) = key z := by split <;> simp_all
    unfold findBy modifyBy at ih ⊢
    rw [List.map_cons, List.find?_cons, List.find?_cons, hz]
    by_cases e : key z = m
    · simp [e]
    · simpa [e] using ih

theorem findBy_eraseBy (k m : Nat) (l : List α) :
    findBy key m (eraseBy key k l) = if m = k then none else findBy key m l := by
  induction l with
  | nil => simp [findBy, eraseBy]
  | cons z zs ih =>
    by_cases e : key z = k
    · have : eraseBy key k (z :: zs) = eraseBy key k zs := by simp [eraseBy, e]
      rw [this, ih]
      by_cases hm : m = k
      · simp [hm]
      · have : key z ≠ m := fun c => hm (c ▸ e)
        simp [hm, findBy, this]
    · have : eraseBy key k (z :: zs) = z :: eraseBy key k zs := by simp [eraseBy, e]
      rw [this]
      by_cases hm : key z = m
      · have : m ≠ k := fun c => e (hm.trans c)
        simp [findBy, hm, this]
      · simpa [findBy, List.find?_cons, hm] using ih

theorem findBy_insertBy {x : α} {l : List α} (hx : ∀ y ∈ l, key y ≠ key x) (m : Nat) :
    findBy key m (insertBy key x l) = if key x = m then some x else findBy key m l := by
  induction l with
  | nil => simp [findBy, insertBy, List.find?_cons]; split <;> simp_all
  | cons z zs ih =>
    have hz := hx z (by simp)
    have ih := ih (fun y hy => hx y (by simp [hy]))
    simp only [insertBy]
    split
    · by_cases e : key x = m
      · simp [findBy, e]
      · simp [findBy, List.find?_cons, e]
    · by_cases e : key z = m
      · have : key x ≠ m := fun c => hz (e.trans c.symm)
        simp [findBy, e, this]
      · by_cases e2 : key x = m
        · simpa [findBy, List.find?_cons, e, e2] using ih
        · simpa [findBy, List.find?_cons, e, e2] using ih

/-! ## Reads after writes of the state's tables -/

variable {s : State}

theorem station?_modifyStation {a : Nat} {f : Station → Station} (hf : ∀ st, st.address = a → (f st).address = st.address)
    (b : Nat) : (s.modifyStation a f).station? b = (s.station? b).map (fun st => if st.address = a then f st else st) :=
  findBy_modifyBy _ a hf b s.stations

theorem station?_modifySaw (a : Nat) (f : Saw → Saw) (b : Nat) :
    (s.modifySaw a f).station? b = (s.station? b).map (fun st => if st.address = a then st.mapSaw f else st) :=
  station?_modifyStation (f := Station.mapSaw f) (fun _ _ => rfl) b

theorem slab?_modifySlab {a : Nat} {f : Slab → Slab} (hf : ∀ x, x.id = a → (f x).id = x.id) (b : Nat) :
    (s.modifySlab a f).slab? b = (s.slab? b).map (fun x => if x.id = a then f x else x) :=
  findBy_modifyBy _ a hf b s.slabs

theorem slab?_freeSlab (a b : Nat) : (s.freeSlab a).slab? b = if b = a then none else s.slab? b :=
  findBy_eraseBy _ a b s.slabs

theorem job?_modifyJob {a : Nat} {f : Job → Job} (hf : ∀ x, x.id = a → (f x).id = x.id) (b : Nat) :
    (s.modifyJob a f).job? b = (s.job? b).map (fun x => if x.id = a then f x else x) :=
  findBy_modifyBy _ a hf b s.jobs

theorem job?_freeJob (a b : Nat) : (s.freeJob a).job? b = if b = a then none else s.job? b :=
  findBy_eraseBy _ a b s.jobs

/-- What a table holds at a key is the key's entry. -/
theorem station?_address {a : Nat} {st : Station} (h : s.station? a = some st) : st.address = a := (findBy_some _ h).2
theorem slab?_id {a : Nat} {x : Slab} (h : s.slab? a = some x) : x.id = a := (findBy_some _ h).2
theorem job?_id {a : Nat} {j : Job} (h : s.job? a = some j) : j.id = a := (findBy_some _ h).2

end Sys2Proof.Machine
end

