-- ==== Sys2Proof/Laws/Arrival.lean ====
section
/-! SUPPORT. What an arrival that passes the Link Bridge does: its block's work on the state with the source's silence
timer restarted, and then its reply, its notices and its copy. -/

namespace Sys2Proof.Machine

open Sys2Proof Config

variable {s : State}

/-- A passing telegram is handled, with its copy. -/
theorem gate_passes {i : Instr} {h : Header} {copy : Bool} {st : Station} {r : KindRule}
    (hr : s.kindRule? i.kindCode = some r) (ht : st.tier ≤ r.maxTier)
    (hc : r.classes.getLsbD (classCode st.cls) = true) (hg : s.groups.on r.group = true)
    (hd : (r.disposition = .handle ∧ copy = false ∧ (isRequestKind i.kindCode = true → h.dst = s.address))
      ∨ (r.disposition = .handleForward ∧ copy = decide (h.side = .b))) :
    s.gate h.side (i.telegram h) st.cls st.tier = .handled copy := by
  have e : (i.telegram h).kind = i.kindCode := rfl
  have e2 : (i.telegram h).dst = h.dst := rfl
  unfold State.gate
  rw [e, hr]
  rcases hd with ⟨h1, h2, h3⟩ | ⟨h1, h2⟩
  · have : ¬ (isRequestKind i.kindCode = true ∧ h.dst ≠ s.address) := fun c => c.2 (h3 c.1)
    have ht' : ¬ r.maxTier < st.tier := by omega
    simp [h1, h2, ht', hc, hg, e2, this]
  · have ht' : ¬ r.maxTier < st.tier := by omega
    simp [h1, h2, ht', hc, hg]

/-- The taking of the silence restart leaves what the gate reads. -/
theorem gate_restartSilence (side : Side) (t : Telegram) (c : StationClass) (n a : Nat) :
    (s.restartSilence a).gate side t c n = s.gate side t c n := by
  have hb : (s.restartSilence a).beyond side t.dst = s.beyond side t.dst := by
    unfold State.beyond State.restartSilence
    rw [station?_modifyStation (fun st _ => by split <;> rfl)]
    simp only [State.modifyStation_address]
    cases s.station? t.dst with
    | none => rfl
    | some st =>
      have : (if st.address = a then
          (if st.state = .attached then { st with silence := some silenceMs } else st) else st).side = st.side := by
        split
        · split <;> rfl
        · rfl
      simp [this]
  unfold State.gate
  rw [hb]
  rfl

theorem source?_passes {side : Side} {t : Telegram} {st : Station} (hb : s.badSource t.src = false)
    (hst : s.station? t.src = some st) (hs : st.side = side) : s.source? side t = some (st.cls, st.tier) := by
  simp [State.source?, hb, hst, hs]

/-- R158 to R161: a passing row ends as its block's work, with its reply, notices and copy. -/
theorem runRow_passes {i : Instr} {h : Header} {copy : Bool} (b : Block) (hp : s.Passes i h copy) :
    runRow i h b s = finish i h copy (b (s.restartSilence h.src)).1 (b (s.restartSilence h.src)).2 := by
  obtain ⟨hr, hb, st, r, hst, hsd, hrule, ht, hc, hg, hd⟩ := hp
  have hsrc : s.source? h.side (i.telegram h) = some (st.cls, st.tier) := source?_passes hb hst hsd
  unfold runRow State.arrive
  rw [hr, hsrc]
  simp only [Bool.false_eq_true, if_false]
  rw [gate_restartSilence, gate_passes hrule ht hc hg hd]
  rfl

end Sys2Proof.Machine
end

