-- ==== Sys2Proof/Laws/Bytes.lean ====
section
/-! SUPPORT. Numbers in payloads: their length, and that taking a number back from the front of a payload gives it. -/

namespace Sys2Proof

@[simp] theorem length_be (n x : Nat) : (be n x).length = n := by
  induction n with
  | zero => rfl
  | succ n ih => simp [be, ih]

theorem readBE_foldl (p : List Byte) (a : Nat) :
    p.foldl (fun acc b => acc * 256 + b.toNat) a = a * 256 ^ p.length + readBE p := by
  unfold readBE
  induction p generalizing a with
  | nil => simp
  | cons b p ih =>
    rw [List.foldl_cons, List.foldl_cons, ih, ih (0 * 256 + b.toNat), List.length_cons, Nat.pow_succ]
    rw [Nat.add_mul, Nat.zero_mul, Nat.zero_add, Nat.mul_assoc, Nat.mul_comm 256]
    omega

/-- The bytes of a number hold it modulo their range. -/
theorem readBE_be (n x : Nat) : readBE (be n x) = x % 256 ^ n := by
  induction n with
  | zero => simp [be, readBE, Nat.mod_one]
  | succ n ih =>
    have h : readBE (BitVec.ofNat 8 (x / 256 ^ n) :: be n x)
        = (BitVec.ofNat 8 (x / 256 ^ n)).toNat * 256 ^ n + readBE (be n x) := by
      rw [readBE, List.foldl_cons, readBE_foldl, length_be, Nat.zero_mul, Nat.zero_add]
    have hm := Nat.mod_mul (x := x) (a := 256 ^ n) (b := 256)
    rw [be, h, ih, BitVec.toNat_ofNat, show 256 ^ (n + 1) = 256 ^ n * 256 from rfl, hm, Nat.add_comm, Nat.mul_comm]

theorem fits_iff {n x : Nat} : fits n x = true ↔ x < 256 ^ n := by simp [fits]

/-- A number that fits its bytes is taken back from the front of a payload. -/
theorem num_be {n x : Nat} (h : fits n x = true) (p : List Byte) : num n (be n x ++ p) = some (x, p) := by
  have hl : ¬ (be n x ++ p).length < n := by simp
  unfold num
  rw [if_neg hl, List.take_left' (length_be n x), List.drop_left' (length_be n x), readBE_be,
    Nat.mod_eq_of_lt (fits_iff.1 h)]

theorem num_be_nil {n x : Nat} (h : fits n x = true) : num n (be n x) = some (x, []) := by
  have := num_be h []
  rwa [List.append_nil] at this

theorem rectOf_bytes {r : Rect} (h : r.wf = true) (p : List Byte) : rectOf (r.bytes ++ p) = some (r, p) := by
  simp only [Rect.wf, Bool.and_eq_true] at h
  obtain ⟨⟨⟨h1, h2⟩, h3⟩, h4⟩ := h
  simp [rectOf, Rect.bytes, num_be h1, num_be h2, num_be h3, num_be h4]

theorem rectsOf_bytes (l : List Rect) (h : l.all Rect.wf = true) (p : List Byte) :
    rectsOf l.length (l.flatMap Rect.bytes ++ p) = some (l, p) := by
  induction l with
  | nil => rfl
  | cons r l ih =>
    simp only [List.all_cons, Bool.and_eq_true] at h
    simp [rectsOf, List.append_assoc, rectOf_bytes h.1, ih h.2]

theorem numsOf_bytes (n : Nat) (l : List Nat) (h : l.all (fits n) = true) (p : List Byte) :
    numsOf n l.length (l.flatMap (be n) ++ p) = some (l, p) := by
  induction l with
  | nil => rfl
  | cons x l ih =>
    simp only [List.all_cons, Bool.and_eq_true] at h
    simp [numsOf, List.append_assoc, num_be h.1, ih h.2]

@[simp] theorem length_rectBytes (r : Rect) : r.bytes.length = 8 := by simp [Rect.bytes]

theorem length_rects (l : List Rect) : (l.flatMap Rect.bytes).length = 8 * l.length := by
  induction l with
  | nil => rfl
  | cons r l ih => simp only [List.flatMap_cons, List.length_append, length_rectBytes, ih, List.length_cons]; omega

theorem length_nums (n : Nat) (l : List Nat) : (l.flatMap (be n)).length = n * l.length := by
  induction l with
  | nil => rfl
  | cons r l ih => simp only [List.flatMap_cons, List.length_append, length_be, ih, List.length_cons, Nat.mul_add]; omega

theorem length_sawFields (f : SawFields) : f.bytes.length = 20 + 2 * f.materials.length := by
  simp only [SawFields.bytes, List.length_append, length_be, length_nums]; omega

end Sys2Proof
end

