-- ==== Sys2Proof/Laws/Keeps.lean ====
section
/-! SUPPORT. Every named operation leaves the queue of commands as it is and keeps a bounded state bounded. -/

namespace Sys2Proof.Machine

open Sys2Proof Config

/-- The queue of commands stays, and bounds stay kept. -/
def Keeps (s t : State) : Prop := t.pending = s.pending ∧ (s.Bounded → t.Bounded)

theorem Keeps.refl (s : State) : Keeps s s := ⟨rfl, id⟩

theorem Keeps.trans {s t u : State} (h : Keeps s t) (k : Keeps t u) : Keeps s u :=
  ⟨k.1.trans h.1, fun b => k.2 (h.2 b)⟩

theorem Keeps.foldl {α : Type} {f : State → α → State} (h : ∀ s x, Keeps s (f s x)) (l : List α) (s : State) :
    Keeps s (l.foldl f s) := by
  induction l generalizing s with
  | nil => exact Keeps.refl s
  | cons x xs ih => exact (h s x).trans (ih (f s x))

/-- A fold that also carries a result. -/
theorem Keeps.foldl_snd {α β : Type} {f : β × State → α → β × State} (h : ∀ b x, Keeps b.2 (f b x).2) (l : List α)
    (b : β × State) : Keeps b.2 (l.foldl f b).2 := by
  induction l generalizing b with
  | nil => exact Keeps.refl b.2
  | cons x xs ih => exact (h b x).trans (ih (f b x))

variable {s : State}

/-! ## One field at a time -/

theorem keeps_presented (l : List Nat) : Keeps s { s with presented := l } := ⟨rfl, fun b =>
  ⟨b.address, b.kindRules, b.constants, b.stations, b.slabs, b.placements, b.jobs, b.closeCounter, b.admissionCounter,
    b.water, b.shop, b.faults, b.txA, b.txB⟩⟩

theorem keeps_outbox (l : List Outgoing) : Keeps s { s with outbox := l } := ⟨rfl, fun b =>
  ⟨b.address, b.kindRules, b.constants, b.stations, b.slabs, b.placements, b.jobs, b.closeCounter, b.admissionCounter,
    b.water, b.shop, b.faults, b.txA, b.txB⟩⟩

theorem keeps_stations (l : List Station) (h : StationsLegal s.address s.stations → StationsLegal s.address l) :
    Keeps s { s with stations := l } := ⟨rfl, fun b =>
  ⟨b.address, b.kindRules, b.constants, h b.stations, b.slabs, b.placements, b.jobs, b.closeCounter, b.admissionCounter,
    b.water, b.shop, b.faults, b.txA, b.txB⟩⟩

theorem keeps_slabs (l : List Slab) (h : SlabsLegal s.slabs → SlabsLegal l) : Keeps s { s with slabs := l } :=
  ⟨rfl, fun b =>
  ⟨b.address, b.kindRules, b.constants, b.stations, h b.slabs, b.placements, b.jobs, b.closeCounter, b.admissionCounter,
    b.water, b.shop, b.faults, b.txA, b.txB⟩⟩

theorem keeps_placements (l : List Placement) (h : PlacementsLegal s.placements → PlacementsLegal l) :
    Keeps s { s with placements := l } := ⟨rfl, fun b =>
  ⟨b.address, b.kindRules, b.constants, b.stations, b.slabs, h b.placements, b.jobs, b.closeCounter, b.admissionCounter,
    b.water, b.shop, b.faults, b.txA, b.txB⟩⟩

theorem keeps_jobs (l : List Job) (h : JobsLegal s.jobs s.bills → JobsLegal l s.bills) : Keeps s { s with jobs := l } :=
  ⟨rfl, fun b =>
  ⟨b.address, b.kindRules, b.constants, b.stations, b.slabs, b.placements, h b.jobs, b.closeCounter, b.admissionCounter,
    b.water, b.shop, b.faults, b.txA, b.txB⟩⟩

theorem keeps_bills (l : List Job) (m : List Nat) (c : Nat) (h : JobsLegal s.jobs s.bills → JobsLegal l m)
    (hc : s.closeCounter ≤ max32 → c ≤ max32) : Keeps s { s with jobs := l, bills := m, closeCounter := c } :=
  ⟨rfl, fun b =>
  ⟨b.address, b.kindRules, b.constants, b.stations, b.slabs, b.placements, h b.jobs, hc b.closeCounter,
    b.admissionCounter, b.water, b.shop, b.faults, b.txA, b.txB⟩⟩

theorem keeps_water (w : Water) (h : s.water.Legal → w.Legal) : Keeps s { s with water := w } := ⟨rfl, fun b =>
  ⟨b.address, b.kindRules, b.constants, b.stations, b.slabs, b.placements, b.jobs, b.closeCounter, b.admissionCounter,
    h b.water, b.shop, b.faults, b.txA, b.txB⟩⟩

theorem keeps_shop (p : Shop) (h : s.shop.Legal → p.Legal) : Keeps s { s with shop := p } := ⟨rfl, fun b =>
  ⟨b.address, b.kindRules, b.constants, b.stations, b.slabs, b.placements, b.jobs, b.closeCounter, b.admissionCounter,
    b.water, h b.shop, b.faults, b.txA, b.txB⟩⟩

theorem keeps_faults (f : FaultBlock) (h : s.faults.Legal → f.Legal) : Keeps s { s with faults := f } := ⟨rfl, fun b =>
  ⟨b.address, b.kindRules, b.constants, b.stations, b.slabs, b.placements, b.jobs, b.closeCounter, b.admissionCounter,
    b.water, b.shop, h b.faults, b.txA, b.txB⟩⟩

theorem keeps_groups (g : Groups) : Keeps s { s with groups := g } := ⟨rfl, fun b =>
  ⟨b.address, b.kindRules, b.constants, b.stations, b.slabs, b.placements, b.jobs, b.closeCounter, b.admissionCounter,
    b.water, b.shop, b.faults, b.txA, b.txB⟩⟩

theorem keeps_line (l : LineState) : Keeps s { s with line := l } := ⟨rfl, fun b =>
  ⟨b.address, b.kindRules, b.constants, b.stations, b.slabs, b.placements, b.jobs, b.closeCounter, b.admissionCounter,
    b.water, b.shop, b.faults, b.txA, b.txB⟩⟩

theorem keeps_constants (c : Constants) (r : Rates) (h : s.constants.Legal s.rates → c.Legal r) :
    Keeps s { s with constants := c, rates := r } := ⟨rfl, fun b =>
  ⟨b.address, b.kindRules, h b.constants, b.stations, b.slabs, b.placements, b.jobs, b.closeCounter, b.admissionCounter,
    b.water, b.shop, b.faults, b.txA, b.txB⟩⟩

theorem keeps_kindRules (l : List (Option KindRule)) (h : KindRulesLegal s.kindRules → KindRulesLegal l) :
    Keeps s { s with kindRules := l } := ⟨rfl, fun b =>
  ⟨b.address, h b.kindRules, b.constants, b.stations, b.slabs, b.placements, b.jobs, b.closeCounter, b.admissionCounter,
    b.water, b.shop, b.faults, b.txA, b.txB⟩⟩

theorem keeps_admissionCounter (n : Nat) (h : n ≤ max32) : Keeps s { s with admissionCounter := n } := ⟨rfl, fun b =>
  ⟨b.address, b.kindRules, b.constants, b.stations, b.slabs, b.placements, b.jobs, b.closeCounter, h,
    b.water, b.shop, b.faults, b.txA, b.txB⟩⟩

theorem keeps_setTx (d : Side) (x : Transmitter) (h : (s.tx d).Legal → x.Legal) : Keeps s (s.setTx d x) := by
  refine ⟨by simp, fun b => ?_⟩
  cases d
  · exact ⟨b.address, b.kindRules, b.constants, b.stations, b.slabs, b.placements, b.jobs, b.closeCounter,
      b.admissionCounter, b.water, b.shop, b.faults, h b.txA, b.txB⟩
  · exact ⟨b.address, b.kindRules, b.constants, b.stations, b.slabs, b.placements, b.jobs, b.closeCounter,
      b.admissionCounter, b.water, b.shop, b.faults, b.txA, h b.txB⟩

/-! ## Faults, notices, transmitters, replies -/

theorem keeps_recordFault (r : FaultRecord) : Keeps s (s.recordFault r) := by
  unfold State.recordFault
  split
  · exact keeps_faults _ (fun h => ⟨h.1, h.2.1, by simp⟩)
  · rename_i x hx
    exact keeps_faults _ (fun h => ⟨by simp, h.2.1, by simp [hx]⟩)

theorem keeps_queueOut (o : Outgoing) : Keeps s (s.queueOut o) := keeps_outbox _
theorem keeps_notify (n : Notice) : Keeps s (s.notify n) := keeps_outbox _
theorem keeps_raise (r : FaultRecord) : Keeps s (s.raise r) := (keeps_recordFault r).trans (keeps_notify _)
theorem keeps_present (a : Nat) : Keeps s (s.present a) := keeps_presented _
theorem keeps_presentAll : Keeps s s.presentAll := keeps_presented _
theorem keeps_presentBed (x : Slab) : Keeps s (s.presentBed x) := by
  unfold State.presentBed; split
  · exact Keeps.refl s
  · exact keeps_present _

/-- R155: a push waits behind at most 63 others. -/
theorem Transmitter.push_legal {x y : Transmitter} {t : Telegram} (h : x.Legal) (e : x.push t = some y) : y.Legal := by
  unfold Transmitter.push at e
  split at e
  · rename_i hs
    cases e
    exact ⟨h.1, by simp⟩
  · rename_i u hs
    split at e
    · rename_i hl
      cases e
      exact ⟨by simp only [List.length_append, List.length_cons, List.length_nil]; omega, by simp [hs]⟩
    · cases e

theorem keeps_produce (d : Side) (t : Telegram) : Keeps s (s.produce d t) := by
  unfold State.produce
  split
  · rename_i x hx
    exact keeps_setTx d x (fun h => Transmitter.push_legal h hx)
  · split
    · exact keeps_recordFault _
    · exact keeps_raise _

theorem keeps_produceAll (d : Side) (ts : List Telegram) : Keeps s (s.produceAll d ts) :=
  Keeps.foldl (fun _ _ => keeps_produce d _) ts s

theorem keeps_sendNotice (n : Notice) : Keeps s (s.sendNotice n) := by
  unfold State.sendNotice
  split
  · split
    · exact Keeps.refl s
    · exact (keeps_faults { s.faults with counter := (s.faults.counter + 1) % 256 }
        (fun h => ⟨h.1, by simp only; omega, h.2.2⟩)).trans (keeps_produce _ _)
  · exact Keeps.refl s

theorem keeps_sendOut (o : Outgoing) : Keeps s (s.sendOut o) := by
  cases o
  · exact keeps_sendNotice _
  · exact keeps_produce _ _

theorem keeps_drain : Keeps s s.drain := (keeps_outbox []).trans (Keeps.foldl (fun _ _ => keeps_sendOut _) _ _)
theorem keeps_flush : Keeps s s.flush := keeps_drain.trans keeps_drain

theorem keeps_sendReply (h : Header) (k : Nat) (r : Reply) : Keeps s (s.sendReply h k r) := by
  cases r
  · exact keeps_produceAll _ _
  · exact keeps_produceAll _ _
  · exact keeps_produce _ _

theorem keeps_conclude (h : Header) (k : Nat) (r : Reply × State) : Keeps r.2 (conclude h k r) :=
  (keeps_sendReply h k r.1).trans keeps_flush

theorem keeps_forwardCopy (c : Bool) (t : Telegram) : Keeps s (s.forwardCopy c t) := by
  unfold State.forwardCopy; split
  · exact (keeps_produce _ _).trans keeps_flush
  · exact Keeps.refl s

/-! ## The tables -/

theorem keeps_addSlab {x : Slab} (hn : s.slab? x.id = none) (hl : s.slabs.length < maxSlabs)
    (hd : x.defects.length ≤ maxDefects) (hg : x.generation ≤ 3) : Keeps s (s.addSlab x) := by
  refine keeps_slabs _ (fun h => ⟨rising_insertBy _ h.1 (findBy_none _ hn), ?_, ?_⟩)
  · rw [length_insertBy]; omega
  · intro y hy
    rcases (mem_insertBy _ _ _ _).1 hy with rfl | hy
    · exact ⟨hd, hg⟩
    · exact h.2.2 y hy

theorem keeps_modifySlab (a : Nat) (f : Slab → Slab) (hf : ∀ x, (f x).id = x.id)
    (hd : SlabsLegal s.slabs → ∀ x ∈ s.slabs, x.id = a → (f x).defects.length ≤ maxDefects)
    (hg : ∀ x, (f x).generation = x.generation) : Keeps s (s.modifySlab a f) := by
  refine keeps_slabs _ (fun h => ⟨rising_modifyBy _ h.1 (fun x _ => hf x), by rw [length_modifyBy]; exact h.2.1, ?_⟩)
  intro y hy
  obtain ⟨x, hx, rfl⟩ := (mem_modifyBy _).1 hy
  have := h.2.2 x hx
  split
  · rename_i e
    exact ⟨hd h x hx e, by rw [hg]; exact this.2⟩
  · exact this

/-- A change of a slab that leaves its id, defects and generation. -/
theorem keeps_editSlab (a : Nat) (f : Slab → Slab) (hf : ∀ x, (f x).id = x.id) (hd : ∀ x, (f x).defects = x.defects)
    (hg : ∀ x, (f x).generation = x.generation) : Keeps s (s.modifySlab a f) :=
  keeps_modifySlab a f hf (fun h x hx _ => by rw [hd]; exact (h.2.2 x hx).1) hg

theorem keeps_freeSlab (a : Nat) : Keeps s (s.freeSlab a) :=
  keeps_slabs _ (fun h => ⟨rising_eraseBy _ h.1, (length_eraseBy_le _ _ _).trans h.2.1,
    fun y hy => h.2.2 y ((mem_eraseBy _).1 hy).1⟩)

/-- A placement of a bounded pool at a key is at that slab and index. -/
theorem placement_key_ne {l : List Placement} (h : PlacementsLegal l) {p : Placement} (hi : p.index ≤ 11)
    (hn : ∀ q ∈ l, Placement.at p.slab p.index q = false) : ∀ q ∈ l, q.key ≠ p.key := by
  intro q hq e
  have h1 := h.2.2 q hq
  have h2 := hn q hq
  simp only [Placement.key] at e
  simp only [Placement.at, Bool.and_eq_false_iff, decide_eq_false_iff_not] at h2
  omega

theorem placement?_none {slab index : Nat} (h : s.placement? slab index = none) :
    ∀ q ∈ s.placements, Placement.at slab index q = false := by
  simpa [State.placement?] using h

theorem keeps_addPlacement {p : Placement} (hn : s.placement? p.slab p.index = none)
    (hl : s.placements.length < maxPlacements) (hi : p.index ≤ 11) : Keeps s (s.addPlacement p) := by
  refine keeps_placements _ (fun h => ⟨rising_insertBy _ h.1 (placement_key_ne h hi (placement?_none hn)), ?_, ?_⟩)
  · rw [length_insertBy]; omega
  · intro y hy
    rcases (mem_insertBy _ _ _ _).1 hy with rfl | hy
    · exact hi
    · exact h.2.2 y hy

theorem keeps_modifyPlacement (a i : Nat) (f : Placement → Placement) (hs : ∀ p, (f p).slab = p.slab)
    (hi : ∀ p, (f p).index = p.index) : Keeps s (s.modifyPlacement a i f) := by
  refine keeps_placements _ (fun h => ⟨rising_map _ h.1 (fun p => ?_), by simpa using h.2.1, ?_⟩)
  · split <;> simp [Placement.key, hs, hi]
  · intro y hy
    obtain ⟨p, hp, rfl⟩ := List.mem_map.1 hy
    have := h.2.2 p hp
    split <;> simp [hi, this]

theorem keeps_filterPlacements (c : Placement → Bool) : Keeps s { s with placements := s.placements.filter c } :=
  keeps_placements _ (fun h => ⟨rising_filter _ h.1 _, (List.length_filter_le _ _).trans h.2.1,
    fun y hy => h.2.2 y (List.mem_filter.1 hy).1⟩)

theorem keeps_freePlacement (a i : Nat) : Keeps s (s.freePlacement a i) := keeps_filterPlacements _

theorem keeps_modifyStation (a : Nat) (f : Station → Station)
    (hf : ∀ st ∈ s.stations, st.Legal → st.address = a → (f st).Legal ∧ (f st).address = st.address) :
    Keeps s (s.modifyStation a f) := by
  refine keeps_stations _ (fun h => ?_)
  have hr : Rising Station.address (modifyBy Station.address a f s.stations) := by
    have e : modifyBy Station.address a f s.stations
        = modifyBy Station.address a (fun st => if (f st).address = st.address then f st else st) s.stations := by
      refine List.map_congr_left (fun st hst => ?_)
      by_cases ea : st.address = a
      · have := (hf st hst (h.2.2 st hst).1 ea).2
        simp [this]
      · simp [ea]
    rw [e]
    exact rising_modifyBy _ h.1 (fun st _ => by split <;> simp_all)
  refine ⟨hr, by rw [length_modifyBy]; exact h.2.1, fun y hy => ?_⟩
  obtain ⟨st, hst, rfl⟩ := (mem_modifyBy _).1 hy
  have hl := h.2.2 st hst
  split
  · rename_i ea
    have := hf st hst hl.1 ea
    exact ⟨this.1, by rw [this.2]; exact hl.2⟩
  · exact hl

/-- A station whose runtime state or saw part changes within its bounds stays legal. -/
theorem Station.legal_runtime {st : Station} (h : st.Legal) (state : StationState) (silence : Option Nat)
    (saw : Option Saw) (hs : state ≠ .attached → silence = none) (hn : ∀ n ∈ silence, n ≤ silenceMs)
    (hw : saw.isSome = st.saw.isSome) (hq : ∀ w ∈ saw, w.queue.length ≤ maxQueue) :
    ({ st with state := state, silence := silence, saw := saw } : Station).Legal :=
  ⟨h.1, h.2.1, hw.trans h.2.2.1, h.2.2.2.1, h.2.2.2.2.1, hs, hn, hq⟩

theorem keeps_modifySaw (a : Nat) (f : Saw → Saw) (hf : ∀ w, w.queue.length ≤ maxQueue → (f w).queue.length ≤ maxQueue) :
    Keeps s (s.modifySaw a f) := by
  refine keeps_modifyStation a _ (fun st _ h _ => ⟨?_, rfl⟩)
  refine Station.legal_runtime h st.state st.silence _ h.2.2.2.2.2.1 h.2.2.2.2.2.2.1 (by simp) ?_
  intro w hw
  obtain ⟨v, hv, rfl⟩ := Option.map_eq_some_iff.1 hw
  exact hf v (h.2.2.2.2.2.2.2 v hv)

theorem keeps_modifyOrder (a b i : Nat) (f : CutOrder → CutOrder) : Keeps s (s.modifyOrder a b i f) :=
  keeps_modifySaw a _ (fun w h => by simpa using h)

theorem keeps_freeStation (a : Nat) : Keeps s (s.freeStation a) :=
  keeps_stations _ (fun h => ⟨rising_eraseBy _ h.1, (length_eraseBy_le _ _ _).trans h.2.1,
    fun y hy => h.2.2 y ((mem_eraseBy _).1 hy).1⟩)

theorem keeps_addStation {x : Station} (hn : s.station? x.address = none) (hl : s.stations.length < maxStations)
    (hx : x.Legal) (ho : x.address ≠ s.address) : Keeps s (s.addStation x) := by
  refine keeps_stations _ (fun h => ⟨rising_insertBy _ h.1 (findBy_none _ hn), ?_, ?_⟩)
  · rw [length_insertBy]; omega
  · intro y hy
    rcases (mem_insertBy _ _ _ _).1 hy with rfl | hy
    · exact ⟨hx, ho⟩
    · exact h.2.2 y hy

theorem keeps_mapStations (f : Station → Station) (hf : ∀ st, st.Legal → (f st).Legal ∧ (f st).address = st.address)
    (ha : ∀ st, (f st).address = st.address) : Keeps s { s with stations := s.stations.map f } :=
  keeps_stations _ (fun h => ⟨rising_map _ h.1 ha, by simpa using h.2.1, fun y hy => by
    obtain ⟨st, hst, rfl⟩ := List.mem_map.1 hy
    have := h.2.2 st hst
    exact ⟨(hf st this.1).1, by rw [ha]; exact this.2⟩⟩)

theorem keeps_restartSilence (a : Nat) : Keeps s (s.restartSilence a) :=
  keeps_modifyStation a _ (fun st _ h _ => by
    split
    · rename_i e
      exact ⟨Station.legal_runtime h st.state (some silenceMs) st.saw (fun c => absurd e c) (by simp) rfl
        h.2.2.2.2.2.2.2, rfl⟩
    · exact ⟨h, rfl⟩)

theorem keeps_silenced (a : Nat) : Keeps s (s.modifyStation a Station.silenced) :=
  keeps_modifyStation a _ (fun st _ h _ => ⟨by
    refine Station.legal_runtime h .silent none _ (fun _ => rfl) (by simp) (by simp) ?_
    intro w hw
    obtain ⟨v, hv, rfl⟩ := Option.map_eq_some_iff.1 hw
    exact h.2.2.2.2.2.2.2 v hv, rfl⟩)

theorem keeps_attach (a : Nat) : Keeps s (s.attach a) :=
  keeps_modifyStation a _ (fun st _ h _ =>
    ⟨Station.legal_runtime h .attached (some silenceMs) st.saw (fun c => absurd rfl c) (by simp) rfl h.2.2.2.2.2.2.2, rfl⟩)

theorem keeps_reattach (a : Nat) : Keeps s (s.reattach a) := keeps_attach a

/-! ## Jobs and bills -/

theorem keeps_addJob {x : Job} (hn : s.job? x.id = none) (hl : s.jobs.length < maxJobs) (hx : x.Legal)
    (hc : x.state ≠ .closed) : Keeps s (s.addJob x) := by
  refine keeps_jobs _ (fun h => ⟨rising_insertBy _ h.1 (findBy_none _ hn), ?_, ?_, h.2.2.2.1, ?_, ?_⟩)
  · rw [length_insertBy]; omega
  · intro y hy
    rcases (mem_insertBy _ _ _ _).1 hy with rfl | hy
    · exact hx
    · exact h.2.2.1 y hy
  · intro b hb
    obtain ⟨j, hj, e⟩ := h.2.2.2.2.1 b hb
    exact ⟨j, (mem_insertBy _ _ _ _).2 (.inr hj), e⟩
  · intro y hy e
    rcases (mem_insertBy _ _ _ _).1 hy with rfl | hy
    · exact absurd e hc
    · exact h.2.2.2.2.2 y hy e

theorem keeps_modifyJob (a : Nat) (f : Job → Job) (hi : ∀ j, (f j).id = j.id) (hf : ∀ j, j.Legal → (f j).Legal)
    (hc : ∀ j ∈ s.jobs, j.id = a → ((f j).state = .closed ↔ j.state = .closed)) : Keeps s (s.modifyJob a f) := by
  refine keeps_jobs _ (fun h => ⟨rising_modifyBy _ h.1 (fun j _ => hi j), by rw [length_modifyBy]; exact h.2.1, ?_,
    h.2.2.2.1, ?_, ?_⟩)
  · intro y hy
    obtain ⟨j, hj, rfl⟩ := (mem_modifyBy _).1 hy
    have := h.2.2.1 j hj
    split
    · exact hf j this
    · exact this
  · intro b hb
    obtain ⟨j, hj, e, c⟩ := h.2.2.2.2.1 b hb
    refine ⟨_, (mem_modifyBy _).2 ⟨j, hj, rfl⟩, ?_⟩
    split
    · rename_i ea
      exact ⟨by rw [hi, e], (hc j hj ea).2 c⟩
    · exact ⟨e, c⟩
  · intro y hy e
    obtain ⟨j, hj, rfl⟩ := (mem_modifyBy _).1 hy
    by_cases ea : j.id = a
    · rw [if_pos ea] at e ⊢
      rw [hi]
      exact h.2.2.2.2.2 j hj ((hc j hj ea).1 e)
    · rw [if_neg ea] at e ⊢
      exact h.2.2.2.2.2 j hj e

/-- R143: the head of the bill list leaves with its record. -/
theorem keeps_takeBill {b : Nat} {rest : List Nat} (hb : s.bills = b :: rest) :
    Keeps s (({ s with bills := rest }).freeJob b) := by
  have := keeps_bills (s := s) (eraseBy Job.id b s.jobs) rest s.closeCounter (fun h => ?_) id
  · exact this
  · rw [hb] at h
    have hnd := List.nodup_cons.1 h.2.2.2.1
    refine ⟨rising_eraseBy _ h.1, (length_eraseBy_le _ _ _).trans h.2.1, fun y hy => h.2.2.1 y ((mem_eraseBy _).1 hy).1,
      hnd.2, ?_, ?_⟩
    · intro c hc
      obtain ⟨j, hj, e, k⟩ := h.2.2.2.2.1 c (List.mem_cons_of_mem _ hc)
      refine ⟨j, (mem_eraseBy _).2 ⟨hj, ?_⟩, e, k⟩
      intro e2
      exact hnd.1 (by rw [← e2, e]; exact hc)
    · intro j hj e
      obtain ⟨h1, h2⟩ := (mem_eraseBy _).1 hj
      rcases List.mem_cons.1 (h.2.2.2.2.2 j h1 e) with h3 | h3
      · exact absurd h3 h2
      · exact h3

theorem advance32_le (n : Nat) : advance32 n ≤ max32 := by
  unfold advance32 max32; omega

/-- R141: a CLOSING job closes and joins the tail of the bill list. -/
theorem keeps_closeJob {id : Nat} {j : Job} (hj : s.job? id = some j) (hc : j.state = .closing) :
    Keeps s (s.closeJob id) := by
  unfold State.closeJob
  refine Keeps.trans ?_ (keeps_notify _)
  have hmem := findBy_some _ hj
  have hid : j.id = id := hmem.2
  have := keeps_bills (s := s)
    (modifyBy Job.id id (fun j => { j with state := .closed, closeNumber := some (advance32 s.closeCounter) }) s.jobs)
    (s.bills ++ [id]) (advance32 s.closeCounter) (fun h => ?_) (fun _ => advance32_le _)
  · exact this
  · have hnot : id ∉ s.bills := by
      intro hin
      obtain ⟨k, hk, e, c⟩ := h.2.2.2.2.1 id hin
      have : k = j := rising_unique _ h.1 hk hmem.1 (e.trans hid.symm)
      rw [this, hc] at c
      cases c
    refine ⟨rising_modifyBy _ h.1 (fun _ _ => rfl), by rw [length_modifyBy]; exact h.2.1, ?_, ?_, ?_, ?_⟩
    · intro y hy
      obtain ⟨k, hk, rfl⟩ := (mem_modifyBy _).1 hy
      have := h.2.2.1 k hk
      split <;> exact this
    · rw [List.nodup_append]
      refine ⟨h.2.2.2.1, by simp, ?_⟩
      intro a ha b hb
      simp only [List.mem_singleton] at hb
      subst hb
      exact fun e => hnot (e ▸ ha)
    · intro b hb
      rcases List.mem_append.1 hb with hb | hb
      · obtain ⟨k, hk, e, c⟩ := h.2.2.2.2.1 b hb
        refine ⟨_, (mem_modifyBy _).2 ⟨k, hk, rfl⟩, ?_⟩
        split
        · exact ⟨e, rfl⟩
        · exact ⟨e, c⟩
      · simp only [List.mem_singleton] at hb
        subst hb
        refine ⟨_, (mem_modifyBy _).2 ⟨j, hmem.1, rfl⟩, ?_⟩
        rw [if_pos hid]
        exact ⟨hid, rfl⟩
    · intro y hy e
      obtain ⟨k, hk, rfl⟩ := (mem_modifyBy _).1 hy
      by_cases ek : k.id = id
      · rw [if_pos ek]
        exact List.mem_append.2 (.inr (by simp [ek]))
      · rw [if_neg ek] at e ⊢
        exact List.mem_append.2 (.inl (h.2.2.2.2.2 k hk e))

theorem keeps_closeIfReady (id : Nat) : Keeps s (s.closeIfReady id) := by
  unfold State.closeIfReady
  split
  · exact Keeps.refl s
  · rename_i j hj
    split
    · rename_i hr
      simp only [readyToClose, Bool.and_eq_true, decide_eq_true_eq] at hr
      exact keeps_closeJob hj hr.1.1
    · exact Keeps.refl s

theorem keeps_closeOf (j : Option Nat) : Keeps s (s.closeOf j) := by
  cases j
  · exact Keeps.refl s
  · exact keeps_closeIfReady _

theorem keeps_closeAllReady : Keeps s s.closeAllReady := Keeps.foldl (fun _ _ => keeps_closeIfReady _) _ _

end Sys2Proof.Machine
end

