-- ==== Sys2Proof/Laws/KeepsBlocks.lean ====
section
/-! SUPPORT. Every owning block's handling leaves the queue of commands and keeps a bounded state bounded. -/

namespace Sys2Proof.Machine

open Sys2Proof Config

/-- A block whose state after is kept. -/
def BlockKeeps (b : Block) : Prop := ∀ s, Keeps s (b s).2

variable {s : State}

theorem keeps_refuse (r : Reason) : Keeps s (refuse r s).2 := Keeps.refl s

theorem blockKeeps_refuse (r : Reason) : BlockKeeps (refuse r) := fun s => Keeps.refl s

theorem keeps_unlessFails (c : Check) (b : Block) (h : c = none → Keeps s (b s).2) : Keeps s (unlessFails c b s).2 := by
  unfold unlessFails
  split
  · exact Keeps.refl s
  · exact h rfl

theorem blockKeeps_fromAttached (h : Header) {b : Block} (hb : BlockKeeps b) : BlockKeeps (fromAttached h b) := by
  intro s
  unfold fromAttached
  split
  · exact Keeps.refl s
  · split
    · exact hb s
    · exact Keeps.refl s

theorem blockKeeps_reading (f : State → Reply) : BlockKeeps (reading f) := fun s => Keeps.refl s

theorem keeps_passGate (g : Gate) (side : Side) (t : Telegram) {f : State → State} (hf : ∀ s, Keeps s (f s)) :
    Keeps s (s.passGate g side t f) := by
  unfold State.passGate
  split
  · exact (keeps_raise _).trans keeps_flush
  · exact Keeps.refl s
  · exact Keeps.refl s
  · exact keeps_conclude _ _ _
  · exact (keeps_produce _ _).trans keeps_flush
  · exact (hf s).trans (keeps_forwardCopy _ _)

theorem keeps_arrive (side : Side) (t : Telegram) {f : State → State} (hf : ∀ s, Keeps s (f s)) :
    Keeps s (s.arrive side t f) := by
  unfold State.arrive
  split
  · exact Keeps.refl s
  · split
    · exact (keeps_raise _).trans keeps_flush
    · exact (keeps_restartSilence _).trans (keeps_passGate _ _ _ hf)

theorem keeps_runRow (i : Instr) (h : Header) {b : Block} (hb : BlockKeeps b) : Keeps s (runRow i h b s) :=
  keeps_arrive _ _ (fun s => (hb s).trans (keeps_conclude h _ (b s)))

/-! ## Beds and removals -/

theorem keeps_clearBed (a : Nat) : Keeps s (s.clearBed a) := by
  unfold State.clearBed
  split
  · exact Keeps.refl s
  · refine Keeps.trans ?_ (keeps_editSlab _ _ (fun _ => rfl) (fun _ => rfl) (fun _ => rfl))
    exact keeps_modifySaw _ _ (fun w h => h)

theorem keeps_dropCutout (c : Placement) : Keeps s (s.dropCutout c) := by
  unfold State.dropCutout
  split
  · exact keeps_modifyPlacement _ _ _ (fun _ => rfl) (fun _ => rfl)
  · exact keeps_freePlacement _ _

theorem keeps_removePiece (a i : Nat) : Keeps s (s.removePiece a i).2 :=
  (Keeps.foldl (fun _ _ => keeps_dropCutout _) _ s).trans (keeps_freePlacement _ _)

theorem keeps_removePlacement (p : Placement) : Keeps s (s.removePlacement p).2 := by
  unfold State.removePlacement
  split
  · exact keeps_removePiece _ _
  · exact keeps_removePiece _ _
  · exact keeps_freePlacement _ _
  · split
    · exact keeps_freePlacement _ _
    · exact (keeps_freePlacement _ _).trans (keeps_freeSlab _)

theorem keeps_returnPlacement (a i : Nat) : Keeps s (s.returnPlacement a i) := by
  unfold State.returnPlacement
  split
  · exact Keeps.refl s
  · split
    · exact keeps_freePlacement _ _
    · exact keeps_modifyPlacement _ _ _ (fun _ => rfl) (fun _ => rfl)

/-- A change of a job's counts keeps it. -/
theorem keeps_dropOpenOrder (j : Option Nat) : Keeps s (s.dropOpenOrder j) := by
  cases j
  · exact Keeps.refl s
  · exact keeps_modifyJob _ _ (fun _ => rfl) (fun _ h => h) (fun _ _ _ => Iff.rfl)

theorem keeps_raiseOpenOrder (j : Option Nat) : Keeps s (s.raiseOpenOrder j) := by
  cases j
  · exact Keeps.refl s
  · exact keeps_modifyJob _ _ (fun _ => rfl) (fun _ h => h) (fun _ _ _ => Iff.rfl)

theorem Saw.removeOrder_length (o : CutOrder) (w : Saw) : (w.removeOrder o).queue.length ≤ w.queue.length :=
  List.length_filter_le _ _

theorem keeps_removeOrder (a : Nat) (o : CutOrder) : Keeps s (s.removeOrder a o) :=
  (keeps_modifySaw _ _ (fun w h => (Saw.removeOrder_length o w).trans h)).trans (keeps_dropOpenOrder _)

/-! ## Slab Stock -/

theorem blockKeeps_slabEnter (a m t l w b : Nat) (ds : List Rect) : BlockKeeps (slabEnter a m t l w b ds) := by
  intro s
  unfold slabEnter
  split
  · exact Keeps.refl s
  · rename_i hf
    split
    · exact Keeps.refl s
    · rename_i hn
      split
      · exact Keeps.refl s
      · rename_i hl
        refine keeps_addSlab ?_ (by omega) ?_ (by simp [enteredSlab])
        · simpa [enteredSlab] using hn
        · simp only [slabEnterForm, Bool.and_eq_true, decide_eq_true_eq, Bool.not_eq_false] at hf
          simpa [enteredSlab] using hf.1.2

theorem blockKeeps_onEditable (a : Nat) {b : Slab → Block} (hb : ∀ x s, s.slab? a = some x → Keeps s (b x s).2) :
    BlockKeeps (onEditable a b) := by
  intro s
  unfold onEditable
  split
  · exact Keeps.refl s
  · split
    · exact Keeps.refl s
    · rename_i x hx _
      exact hb x s hx

theorem blockKeeps_slabLock (a r : Nat) : BlockKeeps (slabLock a r) := by
  intro s
  unfold slabLock
  split
  · exact Keeps.refl s
  · refine blockKeeps_onEditable a (fun x s _ => ?_) s
    split
    · exact Keeps.refl s
    · refine Keeps.trans ?_ (keeps_presentBed _)
      exact keeps_editSlab _ _ (fun _ => rfl) (fun _ => rfl) (fun _ => rfl)

theorem blockKeeps_slabUnlock (a : Nat) : BlockKeeps (slabUnlock a) := by
  refine blockKeeps_onEditable a (fun x s _ => ?_)
  dsimp only
  split
  · refine Keeps.trans ?_ (keeps_presentBed _)
    exact keeps_editSlab _ _ (fun _ => rfl) (fun _ => rfl) (fun _ => rfl)
  · exact Keeps.refl s

theorem blockKeeps_slabSetBasis (a v : Nat) : BlockKeeps (slabSetBasis a v) := by
  refine blockKeeps_onEditable a (fun x s _ => ?_)
  split
  · exact Keeps.refl s
  · split
    · exact Keeps.refl s
    · split
      · exact Keeps.refl s
      · exact keeps_editSlab _ _ (fun _ => rfl) (fun _ => rfl) (fun _ => rfl)

theorem keeps_dropMet (a : Nat) (r : Rect) (b : Nat × State) (i : Nat) : Keeps b.2 (dropMet a r b i).2 := by
  unfold dropMet
  split
  · exact Keeps.refl _
  · split
    · exact (keeps_removePiece _ _).trans (keeps_notify _)
    · exact Keeps.refl _

theorem blockKeeps_slabAddDefect (a : Nat) (r : Rect) : BlockKeeps (slabAddDefect a r) := by
  refine blockKeeps_onEditable a (fun x s hx => ?_)
  split
  · exact Keeps.refl s
  · split
    · exact Keeps.refl s
    · split
      · exact Keeps.refl s
      · rename_i hlen
        split
        · exact Keeps.refl s
        · split
          · exact Keeps.refl s
          · have hf : Keeps (s.modifySlab a (fun x => { x with defects := x.defects ++ [r] })) _ :=
              Keeps.foldl_snd (f := dropMet a r) (fun b i => keeps_dropMet a r b i) (List.range maxPerSlab)
                (0, s.modifySlab a (fun x => { x with defects := x.defects ++ [r] }))
            generalize List.range maxPerSlab = l at hf ⊢
            refine Keeps.trans ?_ hf
            refine keeps_modifySlab _ _ (fun _ => rfl) (fun h y hy e => ?_) (fun _ => rfl)
            have hm := findBy_some _ hx
            have : y = x := rising_unique _ h.1 hy hm.1 (e.trans hm.2.symm)
            subst this
            simp only [List.length_append, List.length_cons, List.length_nil]
            omega

/-! ## Scans -/

theorem blockKeeps_onScan (h : Header) (e a rk sl : Nat) {b : Slab → Block} (hb : ∀ x, BlockKeeps (b x)) :
    BlockKeeps (onScan h e a rk sl b) := by
  intro s
  unfold onScan
  split
  · exact Keeps.refl s
  · split
    · exact keeps_raise _
    · split
      · exact keeps_raise _
      · exact hb _ s

theorem blockKeeps_scanToRack (rk sl : Nat) (x : Slab) : BlockKeeps (scanToRack rk sl x) := by
  intro s
  unfold scanToRack
  dsimp only
  split
  · exact Keeps.refl s
  · split
    · split
      · exact Keeps.refl s
      · refine Keeps.trans ?_ (keeps_presentBed _)
        refine Keeps.trans ?_ (keeps_editSlab _ _ (fun _ => rfl) (fun _ => rfl) (fun _ => rfl))
        exact keeps_clearBed _
    · exact keeps_editSlab _ _ (fun _ => rfl) (fun _ => rfl) (fun _ => rfl)

theorem keeps_displace (a : Nat) : Keeps s (s.displace a) := by
  unfold State.displace
  refine Keeps.trans (keeps_clearBed a) ?_
  refine keeps_editSlab _ _ (fun x => ?_) (fun x => ?_) (fun x => ?_) <;> split <;> rfl

theorem keeps_putOnBed (x : Slab) (w : Nat) (d : Option Nat) : Keeps s (s.putOnBed x w d) := by
  unfold State.putOnBed
  refine Keeps.trans ?_ (keeps_present _)
  refine Keeps.trans ?_ (keeps_presentBed _)
  refine Keeps.trans ?_ (keeps_modifySaw _ _ (fun w h => h))
  refine Keeps.trans ?_ (keeps_editSlab _ _ (fun _ => rfl) (fun _ => rfl) (fun _ => rfl))
  refine Keeps.trans (t := s.clearBed x.id) (keeps_clearBed _) ?_
  cases d
  · exact Keeps.refl _
  · exact keeps_displace _

theorem blockKeeps_scanToBed (h : Header) (w : Nat) (x : Slab) : BlockKeeps (scanToBed h w x) := by
  intro s
  unfold scanToBed
  split
  · exact Keeps.refl s
  · split
    · exact Keeps.refl s
    · split
      · exact Keeps.refl s
      · split
        · exact Keeps.refl s
        · split
          · exact keeps_putOnBed _ _ _
          · split
            · exact keeps_raise _
            · exact (keeps_raise _).trans (keeps_putOnBed _ _ _)

theorem blockKeeps_scanOffBed (x : Slab) : BlockKeeps (scanOffBed x) := by
  intro s
  unfold scanOffBed
  split
  · exact Keeps.refl s
  · split
    · exact Keeps.refl s
    · refine Keeps.trans ?_ (keeps_presentBed _)
      refine Keeps.trans ?_ (keeps_editSlab _ _ (fun _ => rfl) (fun _ => rfl) (fun _ => rfl))
      exact keeps_clearBed _

theorem blockKeeps_scanAway (h : Header) (x : Slab) : BlockKeeps (scanAway h x) := by
  intro s
  unfold scanAway
  split
  · exact keeps_raise _
  · refine Keeps.trans ?_ (keeps_presentBed _)
    refine Keeps.trans ?_ (keeps_editSlab _ _ (fun _ => rfl) (fun _ => rfl) (fun _ => rfl))
    exact keeps_clearBed _

theorem blockKeeps_slabRetire (a : Nat) : BlockKeeps (slabRetire a) := by
  intro s
  unfold slabRetire
  split
  · exact Keeps.refl s
  · split
    · exact Keeps.refl s
    · split
      · exact Keeps.refl s
      · exact (keeps_filterPlacements _).trans (keeps_freeSlab _)

/-! ## Cut Plans -/

theorem checkThat_none {ok : Bool} {r : Reason} {d : List Byte} (h : checkThat ok r d = none) : ok = true := by
  unfold checkThat at h
  split at h
  · assumption
  · cases h

theorem or_none {a b : Check} (h : a.or b = none) : a = none ∧ b = none := by
  cases a <;> simp_all

theorem find?_range_some {n i : Nat} {c : Nat → Bool} (h : (List.range n).find? c = some i) : i < n ∧ c i = true :=
  ⟨List.mem_range.1 (List.mem_of_find?_eq_some h), List.find?_some h⟩

theorem freeIndex_some {a i : Nat} (h : s.freeIndex a = some i) : i ≤ 11 ∧ s.placement? a i = none := by
  have := find?_range_some h
  refine ⟨?_, by simpa using this.2⟩
  have := this.1
  unfold maxPerSlab at this
  omega

/-- What the passed checks of a REMNANT say of the stock (R29). -/
theorem remnantCheck_none {x : Slab} {r : Rect} {m : Nat} (h : remnantCheck s x r m = none) :
    x.generation < 3 ∧ s.slab? m = none ∧ s.slabs.length < maxSlabs := by
  unfold remnantCheck at h
  have h1 := or_none h
  have h2 := or_none h1.2
  have h3 := or_none h2.2
  exact ⟨by simpa using checkThat_none h2.1, by simpa using checkThat_none h3.1, by simpa using checkThat_none h3.2⟩

theorem clipped_length (r : Rect) (l : List Rect) : (l.filterMap (clipDefect r)).length ≤ l.length :=
  List.length_filterMap_le _ _

/-- A request that is taken where a condition of its form does not hold is the one built there. -/
theorem taken_request {c : Prop} [Decidable c] {p q : PlaceRequest} (h : (if c then none else some p) = some q) : q = p :=
  (Option.some.inj ((if_neg (fun hc : c => by simp [hc] at h)).symm.trans h)).symm

/-- A request past its form is for the slab it names, and names a remnant record only where it is a REMNANT (R24). -/
theorem placeForm_remnant {a k : Nat} {r : Rect} {j pp pi rs : Nat} {q : PlaceRequest}
    (h : placeForm a k r j pp pi rs = some q) : q.slab = a ∧ (q.remnant ≠ none → q.kind = .remnant) := by
  rcases hk : decodeKind k with _ | kind
  · simp [placeForm, hk] at h
  · by_cases bad : sizeFits kind r = false ∨ 4000 < r.x ∨ 2200 < r.y
    · simp [placeForm, hk, bad] at h
    · simp only [placeForm, hk, if_neg bad] at h
      cases kind <;> simp [taken_request h]

theorem placeCheck_none {q : PlaceRequest} {x : Slab} (hx : s.slab? q.slab = some x) (h : placeCheck s q = none) :
    s.placements.length < maxPlacements ∧ geometryCheck s x q = none := by
  unfold placeCheck at h
  rw [hx] at h
  have h1 := (or_none (or_none (or_none (or_none (or_none h).2).2).2).2).2
  exact ⟨by simpa using checkThat_none (or_none h1).1, (or_none h1).2⟩

theorem keeps_reserveRemnant {x : Slab} {q : PlaceRequest} (hx : x ∈ s.slabs)
    (h : ∀ m, q.remnant = some m → x.generation < 3 ∧ s.slab? m = none ∧ s.slabs.length < maxSlabs) :
    Keeps s (s.reserveRemnant x q) := by
  unfold State.reserveRemnant
  split
  · exact Keeps.refl s
  · rename_i m hm
    obtain ⟨h1, h2, h3⟩ := h m hm
    refine ⟨rfl, fun b => (keeps_addSlab (s := s) ?_ h3 ?_ ?_).2 b⟩
    · exact h2
    · exact (clipped_length _ _).trans (b.slabs.2.2 x hx).1
    · simp only [remnantSlab]; omega

theorem blockKeeps_place (a k : Nat) (r : Rect) (j pp pi rs : Nat) : BlockKeeps (place a k r j pp pi rs) := by
  intro s
  unfold place
  split
  · exact Keeps.refl s
  · rename_i q hq
    obtain ⟨hqa, hqr⟩ := placeForm_remnant hq
    refine keeps_unlessFails _ _ (fun hc => ?_)
    split
    · rename_i x i hx hi
      have hpc := placeCheck_none (hqa ▸ hx) hc
      obtain ⟨hi1, hi2⟩ := freeIndex_some hi
      refine Keeps.trans (keeps_addPlacement (p := q.entry i s.constants.kerf) ?_ hpc.1 hi1) ?_
      · simpa [PlaceRequest.entry, hqa] using hi2
      · refine keeps_reserveRemnant (by simpa using (findBy_some _ hx).1) (fun m hm => ?_)
        have hk := hqr (by simp [hm])
        have hg := hpc.2
        simp only [geometryCheck, hk] at hg
        have := remnantCheck_none (or_none (or_none hg).2).2
        simpa [hm, State.slab?] using this
    · exact Keeps.refl s

theorem blockKeeps_unplace (a i : Nat) : BlockKeeps (unplace a i) := by
  intro s
  unfold unplace
  split
  · exact Keeps.refl s
  · split
    · exact Keeps.refl s
    · split
      · exact Keeps.refl s
      · split
        · exact Keeps.refl s
        · exact keeps_removePlacement _

end Sys2Proof.Machine
end

