-- ==== Sys2Proof/Laws/KeepsRest.lean ====
section
/-! SUPPORT. The blocks of stations, water, cost, jobs and settlement leave the queue of commands and keep a bounded
state bounded. -/

namespace Sys2Proof.Machine

open Sys2Proof Config

variable {s : State}

/-! ## Water mode -/

theorem keeps_queueValve (m : WaterMode) : Keeps s (s.queueValve m) := by
  unfold State.queueValve
  split
  · exact Keeps.refl s
  · split
    · exact keeps_queueOut _
    · exact Keeps.refl s

theorem keeps_changeMode (m : WaterMode) (c : ModeCause) (l : List (Nat × Bool)) : Keeps s (s.changeMode m c l) := by
  unfold State.changeMode
  refine Keeps.trans ?_ keeps_presentAll
  refine Keeps.trans ?_ (keeps_notify _)
  refine Keeps.trans ?_ (keeps_queueValve _)
  exact keeps_water _ (fun h => h)

theorem keeps_takeMode (m : WaterMode) (c : ModeCause) (l : List (Nat × Bool)) : Keeps s (s.takeMode m c l) := by
  unfold State.takeMode
  split
  · exact Keeps.refl s
  · exact keeps_changeMode _ _ _

theorem keeps_plantLost : Keeps s s.plantLost := keeps_takeMode _ _ _

theorem keeps_recomputeMode (c : ModeCause) (l : List (Nat × Bool)) : Keeps s (s.recomputeMode c l) := by
  unfold State.recomputeMode
  split
  · exact Keeps.refl s
  · exact keeps_takeMode _ _ _

/-! ## Stations -/

theorem keeps_recyclerGone (old : Station) : Keeps s (s.recyclerGone old) := by
  unfold State.recyclerGone
  split
  · dsimp only
    have hw : Keeps s { s with water := { s.water with lastSequence := none } } := keeps_water _ (fun h => h)
    split
    · exact hw.trans keeps_plantLost
    · exact hw
  · exact Keeps.refl s

/-- What a load past its form has (R39). -/
theorem stationForm_some {a c d t : Nat} {f : Option SawFields} {q : StationLoad} (h : stationForm s a c d t f = some q) :
    1 ≤ q.address ∧ q.address ≤ 30 ∧ q.address ≠ s.address ∧ tierOk q.cls q.tier = true
      ∧ q.saw.isSome = q.cls.isSaw := by
  have ha : s.addressOk a = true := by
    by_contra hn
    simp [stationForm, hn] at h
  have hb : 1 ≤ a ∧ a ≤ 30 ∧ a ≠ s.address := by simpa [State.addressOk, inRange, and_assoc] using ha
  rcases hk : decodeClass c with _ | k
  · simp [stationForm, ha, hk] at h
  · rcases hd : decodeSide d with _ | e
    · simp [stationForm, ha, hk, hd] at h
    · cases ht : tierOk k t <;> cases hw : k.isSaw <;> cases f <;> simp [stationForm, ha, hk, hd, ht, hw] at h
      · exact h ▸ ⟨hb.1, hb.2.1, hb.2.2, ht, by simp [hw]⟩
      · rename_i g
        rcases hg : sawConfigOf g with _ | w <;> simp [hg] at h
        exact h ▸ ⟨hb.1, hb.2.1, hb.2.2, ht, by simp [hw]⟩

/-- What the passed checks of R40 say. -/
theorem classCheck_none {q : StationLoad} (h : classCheck s q = none) :
    sideOk q.cls q.side = true ∧ (s.station? q.address = none → s.stations.length < maxStations) := by
  unfold classCheck at h
  have h1 := or_none h
  have h5 := checkThat_none (or_none (or_none (or_none h1.2).2).2).2
  refine ⟨checkThat_none h1.1, fun hn => ?_⟩
  simpa [hn] using h5

/-- A new entry is legal. -/
theorem newStation_legal {q : StationLoad} (h1 : 1 ≤ q.address) (h2 : q.address ≤ 30)
    (ht : tierOk q.cls q.tier = true) (hw : q.saw.isSome = q.cls.isSaw) (hs : sideOk q.cls q.side = true) :
    (newStation q.address q.side q.cls q.tier q.saw).Legal := by
  refine ⟨h1, h2, by simpa [newStation] using hw, hs, ht, fun _ => rfl, by simp [newStation], ?_⟩
  intro w hw
  obtain ⟨c, _, rfl⟩ := Option.map_eq_some_iff.1 hw
  simp [newSaw]

theorem blockKeeps_loadStation (a c d t : Nat) (f : Option SawFields) : BlockKeeps (loadStation a c d t f) := by
  intro s
  unfold loadStation
  split
  · exact Keeps.refl s
  · rename_i q hq
    obtain ⟨h1, h2, h3, h4, h5⟩ := stationForm_some hq
    refine keeps_unlessFails _ _ (fun hc => ?_)
    obtain ⟨h6, h7⟩ := classCheck_none hc
    have hl := newStation_legal h1 h2 h4 h5 h6
    split
    · rename_i hn
      exact keeps_addStation hn (h7 hn) hl h3
    · rename_i old ho
      split
      · rename_i e
        refine ⟨rfl, fun b => (keeps_modifyStation (s := s) _ _ (fun st hst hs ha => ?_)).2 b⟩
        have hm := findBy_some _ ho
        have heq : st = old := rising_unique _ b.stations.1 hst hm.1 (ha.trans hm.2.symm)
        refine ⟨?_, rfl⟩
        refine ⟨hs.1, hs.2.1, ?_, hs.2.2.2.1, ?_, hs.2.2.2.2.2.1, hs.2.2.2.2.2.2.1, ?_⟩
        · simp only [Station.reload]
          rw [← hs.2.2.1]
          split <;> simp_all
        · simpa [Station.reload, heq, e.1] using h4
        · intro w hw
          simp only [Station.reload] at hw
          split at hw
          · rename_i v g hv hg
            cases hw
            exact hs.2.2.2.2.2.2.2 v hv
          · exact hs.2.2.2.2.2.2.2 w hw
      · refine keeps_unlessFails _ _ (fun _ => ?_)
        refine Keeps.trans ?_ (keeps_recyclerGone _)
        refine keeps_modifyStation _ _ (fun st hst hs ha => ⟨hl, ha.symm⟩)

theorem blockKeeps_loadStationNone (a : Nat) : BlockKeeps (loadStationNone a) := by
  intro s
  unfold loadStationNone
  split
  · exact Keeps.refl s
  · split
    · exact Keeps.refl s
    · refine keeps_unlessFails _ _ (fun _ => ?_)
      exact (keeps_freeStation _).trans (keeps_recyclerGone _)

/-! ## Water -/

theorem roundDiv_le {n d k : Nat} (hd : 0 < d) (h : n ≤ k * d) : roundDiv n d ≤ k := by
  unfold roundDiv
  rw [← Nat.lt_succ_iff, Nat.div_lt_iff_lt_mul (by omega)]
  have : (k + 1) * (2 * d) = 2 * (k * d) + 2 * d := by
    rw [Nat.add_mul, Nat.mul_left_comm]; omega
  rw [this]
  omega

theorem windowShare_le {old r f : Nat} (h : old ≤ 1000) : windowShare old r f ≤ 1000 := by
  unfold windowShare
  split
  · exact h
  · exact roundDiv_le (by omega) (Nat.mul_le_mul_left _ (by omega))

theorem Water.takeSequence_legal {w : Water} (n : Nat) (h : w.Legal) : (w.takeSequence n).Legal := by
  unfold Water.takeSequence
  split
  · exact h
  · exact ⟨h.1, h.2.1, h.2.2.1, h.2.2.2.1, h.2.2.1, h.2.2.2.2.2⟩

theorem Water.takeWindow_legal {w : Water} (r f : Nat) (h : w.Legal) : (w.takeWindow r f).Legal := by
  unfold Water.takeWindow
  split
  · exact ⟨h.1, windowShare_le h.2.1, h.2.2.1, h.2.2.2.1, h.2.2.1, h.2.2.2.2.2⟩
  · exact ⟨h.1, h.2.1, h.2.2.1, h.2.2.2.1, by simp only; omega, h.2.2.2.2.2⟩

theorem satAdd_le (m a b : Nat) : satAdd m a b ≤ m := Nat.min_le_left _ _

theorem Water.takeSample_legal {w : Water} (n l t r f : Nat) (h : w.Legal) : (w.takeSample n l t r f).Legal := by
  unfold Water.takeSample Water.takeUsed
  have := Water.takeWindow_legal r f (Water.takeSequence_legal n h)
  exact ⟨by simpa using this.1, this.2.1, this.2.2.1, this.2.2.2.1, this.2.2.2.2.1, this.2.2.2.2.2.1, satAdd_le _ _ _⟩

theorem keeps_modeAfterSample (l : List (Nat × Bool)) : Keeps s (s.modeAfterSample l) := by
  unfold State.modeAfterSample
  split
  · exact keeps_changeMode _ _ _
  · split
    · exact keeps_notify _
    · exact Keeps.refl s

theorem keeps_gapCheck (a n : Nat) : Keeps s (s.gapCheck a n) := by
  unfold State.gapCheck
  split
  · exact Keeps.refl s
  · exact keeps_raise _

theorem blockKeeps_waterSample (a n l t r f : Nat) : BlockKeeps (waterSample a n l t r f) := by
  intro s
  unfold waterSample
  split
  · exact Keeps.refl s
  · refine Keeps.trans ?_ (keeps_modeAfterSample _)
    refine Keeps.trans (keeps_gapCheck a n) ?_
    exact keeps_water _ (Water.takeSample_legal n l t r f)

theorem blockKeeps_loadWaterRule (a b c d e f g i : Nat) : BlockKeeps (loadWaterRule a b c d e f g i) := by
  intro s
  unfold loadWaterRule
  split
  · exact Keeps.refl s
  · refine Keeps.trans ?_ (keeps_recomputeMode _ _)
    refine keeps_water _ (fun h => ⟨?_, h.2⟩)
    simpa [Water.loadRule] using h.1

theorem blockKeeps_loadShareWindow (n : Nat) : BlockKeeps (loadShareWindow n) := by
  intro s
  unfold loadShareWindow
  split
  · exact Keeps.refl s
  · rename_i hn
    simp only [inRange, Bool.and_eq_true, decide_eq_true_eq, Bool.not_eq_false] at hn
    exact keeps_water _ (fun h => ⟨h.1, h.2.1, hn.1, hn.2, hn.1, h.2.2.2.2.2⟩)

theorem blockKeeps_loadAllowance (n : Nat) : BlockKeeps (loadAllowance n) := by
  intro s
  unfold loadAllowance
  split
  · exact Keeps.refl s
  · refine Keeps.trans ?_ (keeps_recomputeMode _ _)
    exact keeps_water _ (fun h => ⟨h.1, h.2.1, h.2.2.1, h.2.2.2.1, h.2.2.2.2.1, by simp only; omega, h.2.2.2.2.2.2⟩)

theorem blockKeeps_renewAllowance : BlockKeeps renewAllowance := by
  intro s
  unfold renewAllowance
  refine Keeps.trans ?_ (keeps_recomputeMode _ _)
  exact keeps_water _ (fun h => ⟨h.1, h.2.1, h.2.2.1, h.2.2.2.1, h.2.2.2.2.1, h.2.2.2.2.2.1, Nat.zero_le _⟩)

/-! ## Cost -/

theorem keeps_addOverheadWater (r f : Nat) : Keeps s (s.addOverheadWater r f) :=
  keeps_shop _ (fun h => ⟨h.1, h.2.1, satAdd_le _ _ _, satAdd_le _ _ _, h.2.2.2.2⟩)

theorem keeps_addOverheadCents (r f : Nat) : Keeps s (s.addOverheadCents r f) :=
  keeps_shop _ (fun h => ⟨satAdd_le _ _ _, satAdd_le _ _ _, h.2.2⟩)

theorem keeps_addLoss (n : Nat) : Keeps s (s.addLoss n) :=
  keeps_shop _ (fun h => ⟨h.1, h.2.1, h.2.2.1, h.2.2.2.1, satAdd_le _ _ _, h.2.2.2.2.2⟩)

theorem keeps_addOverflow (n : Nat) : Keeps s (s.addOverflow n) :=
  keeps_shop _ (fun h => ⟨h.1, h.2.1, h.2.2.1, h.2.2.2.1, h.2.2.2.2.1, satAdd_le _ _ _⟩)

theorem Job.set_legal {j : Job} {a : Accumulator} {n : Nat} (h : j.Legal) (hn : n ≤ accumulatorMax a) :
    (Job.set a n j).Legal := by
  obtain ⟨h1, h2, h3, h4, h5, h6, h7, h8⟩ := h
  cases a <;> simp only [accumulatorMax] at hn <;> simp only [Job.set] <;>
    exact ⟨by assumption, by assumption, by assumption, by assumption, by assumption, by assumption, by assumption,
      by assumption⟩

@[simp] theorem Job.set_id (a : Accumulator) (n : Nat) (j : Job) : (Job.set a n j).id = j.id := by cases a <;> rfl
@[simp] theorem Job.set_state (a : Accumulator) (n : Nat) (j : Job) : (Job.set a n j).state = j.state := by cases a <;> rfl

theorem keeps_addToJob (c : Cause) (b i : Nat) (a : Accumulator) (n : Nat) : Keeps s (s.addToJob c b i a n) := by
  unfold State.addToJob
  split
  · exact Keeps.refl s
  · split
    · rename_i h
      exact keeps_modifyJob _ _ (fun j => Job.set_id _ _ j) (fun j hj => Job.set_legal hj h) (fun j _ _ => by simp)
    · refine Keeps.trans ?_ (keeps_raise _)
      exact keeps_modifyJob _ _ (fun j => Job.set_id a _ j) (fun j hj => Job.set_legal hj (Nat.le_refl _))
        (fun j _ _ => by simp)

theorem keeps_quoteCheck (i : Nat) : Keeps s (s.quoteCheck i) := by
  unfold State.quoteCheck
  split
  · exact Keeps.refl s
  · split
    · refine Keeps.trans ?_ (keeps_notify _)
      exact keeps_modifyJob _ _ (fun _ => rfl) (fun _ h => h) (fun _ _ _ => Iff.rfl)
    · exact Keeps.refl s

theorem keeps_charge (c : Cause) (b i : Nat) (a : Accumulator) (n : Nat) : Keeps s (s.charge c b i a n) := by
  unfold State.charge
  split
  · exact Keeps.refl s
  · refine Keeps.trans ?_ (keeps_quoteCheck _)
    refine Keeps.trans ?_ (keeps_addToJob _ _ _ _ _)
    exact keeps_addOverflow _

theorem keeps_chargeMaterial (c : Cause) (b i n : Nat) : Keeps s (s.chargeMaterial c b i n) :=
  (keeps_charge _ _ _ _ _).trans (keeps_editSlab _ _ (fun _ => rfl) (fun _ => rfl) (fun _ => rfl))

theorem keeps_chargeCut (c : Cause) (o : CutOrder) (i a b d m : Nat) (p : Bool) (n : Nat) :
    Keeps s (s.chargeCut c o i a b d m p n) := by
  unfold State.chargeCut
  dsimp only
  refine Keeps.trans ?_ (keeps_addToJob _ _ _ _ _)
  refine Keeps.trans ?_ (keeps_addToJob _ _ _ _ _)
  refine Keeps.trans ?_ (keeps_addToJob _ _ _ _ _)
  have h3 := ((keeps_charge (s := s) c o.slab i .saw a).trans (keeps_charge c o.slab i .wear b)).trans
    (keeps_charge c o.slab i .water d)
  split
  · exact h3.trans (keeps_chargeMaterial _ _ _ _)
  · exact h3

theorem keeps_completionCharges (c : Cause) (w : SawConfig) (o : CutOrder) (oc : Outcome3) (n : Nat) :
    Keeps s (s.completionCharges c w o oc n).2 := by
  unfold State.completionCharges
  dsimp only
  split
  · exact keeps_addOverheadCents _ _
  · exact keeps_chargeCut _ _ _ _ _ _ _ _ _

theorem blockKeeps_loadRates (r f : Nat) : BlockKeeps (loadRates r f) := by
  intro s
  unfold loadRates
  split
  · exact Keeps.refl s
  · exact keeps_constants s.constants ⟨r, f⟩ (fun h => ⟨h.1, by simp only; omega, by simp only; omega⟩)

/-! ## Jobs -/

theorem blockKeeps_jobOpen (i : Nat) : BlockKeeps (jobOpen i) := by
  intro s
  unfold jobOpen
  split
  · exact Keeps.refl s
  · split
    · exact Keeps.refl s
    · rename_i hn
      split
      · exact Keeps.refl s
      · exact keeps_addJob (by simpa [newJob] using hn) (by omega) (by simp [Job.Legal, newJob]) (by simp [newJob])

theorem blockKeeps_jobLimit (i : Nat) (l : Option Nat) (n : Nat) : BlockKeeps (jobLimit i l n) := by
  intro s
  unfold jobLimit
  split
  · exact Keeps.refl s
  · split
    · exact Keeps.refl s
    · split
      · exact Keeps.refl s
      · split
        · exact Keeps.refl s
        · exact keeps_modifyJob _ _ (fun _ => rfl) (fun _ h => h) (fun _ _ _ => Iff.rfl)

theorem keeps_dropPlanned (b : Removal × State) (p : Placement) : Keeps b.2 (dropPlanned b p).2 := by
  unfold dropPlanned
  split
  · exact Keeps.refl _
  · split
    · exact keeps_removePlacement _
    · exact Keeps.refl _

theorem keeps_dropPlanOf (i : Nat) : Keeps s (s.dropPlanOf i).2 :=
  Keeps.foldl_snd keeps_dropPlanned _ (_, s)

theorem keeps_startClosing {i : Nat} (h : ∀ j ∈ s.jobs, j.id = i → j.state ≠ .closed) : Keeps s (s.startClosing i) := by
  unfold State.startClosing
  refine Keeps.trans ?_ (keeps_closeIfReady _)
  exact keeps_modifyJob _ _ (fun _ => rfl) (fun _ h => h) (fun j hj e => by simp [h j hj e])

theorem startClosing_pending (i : Nat) : (s.startClosing i).pending = s.pending := by
  unfold State.startClosing
  rw [(keeps_closeIfReady i).1]
  rfl

theorem removePlacement_jobs (p : Placement) : (s.removePlacement p).2.jobs = s.jobs := by
  unfold State.removePlacement State.removePiece
  have hf : ∀ (l : List Placement) (s : State), (l.foldl State.dropCutout s).jobs = s.jobs := by
    intro l
    induction l with
    | nil => intro s; rfl
    | cons c l ih => intro s; rw [List.foldl_cons, ih]; unfold State.dropCutout; split <;> rfl
  split
  · exact hf _ _
  · exact hf _ _
  · rfl
  · split <;> rfl

theorem dropPlanOf_jobs (i : Nat) : (s.dropPlanOf i).2.jobs = s.jobs := by
  unfold State.dropPlanOf
  have hf : ∀ (l : List Placement) (b : Removal × State), (l.foldl dropPlanned b).2.jobs = b.2.jobs := by
    intro l
    induction l with
    | nil => intro b; rfl
    | cons c l ih =>
      intro b
      rw [List.foldl_cons, ih]
      unfold dropPlanned
      split
      · rfl
      · split
        · exact removePlacement_jobs _
        · rfl
  exact hf _ _

theorem blockKeeps_jobClose (i : Nat) : BlockKeeps (jobClose i) := by
  intro s
  unfold jobClose
  split
  · exact Keeps.refl s
  · split
    · exact Keeps.refl s
    · rename_i j hj
      split
      · exact Keeps.refl s
      · rename_i ho
        have hk : s.Bounded → Keeps s ((s.dropPlanOf i).2.startClosing i) := fun b => by
          refine (keeps_dropPlanOf i).trans (keeps_startClosing (fun k hk e => ?_))
          rw [dropPlanOf_jobs] at hk
          have hm := findBy_some _ hj
          have : k = j := rising_unique _ b.jobs.1 hk hm.1 (e.trans hm.2.symm)
          subst this
          intro c
          exact ho (by simp [c])
        refine ⟨?_, fun b => (hk b).2 b⟩
        show ((s.dropPlanOf i).2.startClosing i).pending = s.pending
        rw [startClosing_pending, (keeps_dropPlanOf i).1]

theorem blockKeeps_takeBill (i : Option Nat) : BlockKeeps (takeBill i) := by
  intro s
  unfold takeBill
  split
  · exact Keeps.refl s
  · split
    · exact Keeps.refl s
    · rename_i b rest hb
      split
      · exact Keeps.refl s
      · split
        · exact Keeps.refl s
        · exact keeps_takeBill hb

end Sys2Proof.Machine
end

