-- ==== Sys2Proof/Laws/KeepsFloor.lean ====
section
/-! SUPPORT. Settlement, admission, delivery, attach, loads and resets leave the queue of commands and keep a bounded
state bounded. -/

namespace Sys2Proof.Machine

open Sys2Proof Config

variable {s : State}

/-! ## Settlement -/

theorem keeps_clearPlanned (b : Cleared × State) (p : Placement) : Keeps b.2 (clearPlanned b p).2 := by
  unfold clearPlanned
  split
  · exact Keeps.refl _
  · split
    · exact keeps_removePlacement _
    · exact Keeps.refl _

theorem keeps_clearPlan (a : Nat) : Keeps s (s.clearPlan a).2 := Keeps.foldl_snd keeps_clearPlanned _ (_, s)

theorem keeps_enterRemnant (x : Slab) (b : List (Nat × Nat) × State) (p : Placement) :
    Keeps b.2 (enterRemnant x b p).2 := by
  unfold enterRemnant
  split
  · refine Keeps.trans ?_ (keeps_editSlab _ _ (fun _ => rfl) (fun _ => rfl) (fun _ => rfl))
    exact keeps_editSlab _ _ (fun _ => rfl) (fun _ => rfl) (fun _ => rfl)
  · exact Keeps.refl _

theorem keeps_enterRemnants (x : Slab) : Keeps s (s.enterRemnants x).2 :=
  Keeps.foldl_snd (keeps_enterRemnant x) _ (_, s)

theorem keeps_chargeShares (c : Cause) (a : Nat) (l : List (Nat × Nat × Nat)) : Keeps s (s.chargeShares c a l) :=
  Keeps.foldl (fun _ _ => keeps_charge _ _ _ _ _) l s

theorem keeps_lowerUnsettled (ps : List Placement) : Keeps s (s.lowerUnsettled ps) := by
  unfold State.lowerUnsettled
  refine Keeps.foldl (fun t j => ?_) _ s
  exact keeps_modifyJob _ _ (fun _ => rfl) (fun _ h => h) (fun _ _ _ => Iff.rfl)

theorem keeps_settle (c : Cause) (e : Ending) (x : Slab) : Keeps s (s.settle c e x).2 := by
  unfold State.settle
  dsimp only
  refine Keeps.trans ?_ (keeps_notify _)
  refine Keeps.trans ?_ (keeps_lowerUnsettled _)
  refine Keeps.trans ?_ (keeps_editSlab _ _ (fun _ => rfl) (fun _ => rfl) (fun _ => rfl))
  refine Keeps.trans ?_ (keeps_addLoss _)
  refine Keeps.trans ?_ (keeps_chargeShares _ _ _)
  exact (keeps_clearPlan _).trans (keeps_enterRemnants _)

theorem keeps_closeParticipants (ps : List Placement) : Keeps s (s.closeParticipants ps) :=
  Keeps.foldl (fun _ _ => keeps_closeIfReady _) _ s

theorem blockKeeps_slabDone (a : Nat) (e : Ending) (b : Nat) : BlockKeeps (slabDone a e b) := by
  intro s
  unfold slabDone
  split
  · exact Keeps.refl s
  · split
    · exact Keeps.refl s
    · exact keeps_unlessFails _ _ (fun _ => (keeps_settle _ _ _).trans (keeps_closeParticipants _))

/-! ## Admission -/

/-- What the passed admission checks say of the destination's queue (R60 check 9). -/
theorem admissionCheck_queue {d a i : Nat} {j : Option Nat} {w : Saw} (h : admissionCheck s d j a i = none)
    (hw : s.saw? d = some w) : w.queue.length < maxQueue := by
  unfold admissionCheck at h
  split at h
  · cases h
  · have h1 := (or_none h).2
    split at h1
    · cases h1
    · have h2 := (or_none (or_none (or_none h1).2).2).2
      unfold sawChecks at h2
      split at h2
      · cases h2
      · rename_i st hst
        split at h2
        · cases h2
        · rename_i v hv
          have hwv : w = v := by
            simp only [State.saw?, hst, Option.bind_some, hv] at hw
            exact (Option.some.inj hw).symm
          subst hwv
          exact of_decide_eq_true
            (checkThat_none (or_none (or_none (or_none (or_none (or_none h2).2).2).2).2).2)

theorem keeps_admit {d : Nat} {w : Saw} (p : Placement) (f : Nat) (hw : s.saw? d = some w)
    (hq : w.queue.length < maxQueue) : Keeps s (s.admitOrder p d f) := by
  unfold State.admitOrder
  dsimp only
  refine Keeps.trans ?_ (keeps_raiseOpenOrder _)
  refine Keeps.trans ?_ (keeps_modifyPlacement _ _ _ (fun _ => rfl) (fun _ => rfl))
  refine Keeps.trans (t := { s with admissionCounter := advance32 s.admissionCounter })
    (keeps_admissionCounter _ (advance32_le _)) ?_
  refine ⟨rfl, fun b => (keeps_modifyStation d
    (Station.mapSaw (fun w => { w with queue := w.queue ++ [newOrder p d f (advance32 s.admissionCounter)] }))
    (fun st hst hs ha => ⟨?_, rfl⟩)).2 b⟩
  refine Station.legal_runtime hs st.state st.silence _ hs.2.2.2.2.2.1 hs.2.2.2.2.2.2.1 (by simp) ?_
  intro v hv
  obtain ⟨u, hu, rfl⟩ := Option.map_eq_some_iff.1 hv
  have : u = w := by
    unfold State.saw? at hw
    obtain ⟨st', h1, h2⟩ := Option.bind_eq_some_iff.1 hw
    have hm := findBy_some _ h1
    have : st = st' := rising_unique _ b.stations.1 hst hm.1 (ha.trans hm.2.symm)
    subst this
    rw [hu] at h2
    exact Option.some.inj h2
  subst this
  simp only [List.length_append, List.length_cons, List.length_nil]
  omega

theorem blockKeeps_order (d j a i f : Nat) : BlockKeeps (order d j a i f) := by
  intro s
  unfold order
  split
  · exact Keeps.refl s
  · refine keeps_unlessFails _ _ (fun hc => ?_)
    split
    · rename_i p w hp hw
      exact (keeps_admit p _ hw (admissionCheck_queue hc hw)).trans (keeps_present _)
    · exact Keeps.refl s

theorem blockKeeps_withdraw (a i : Nat) : BlockKeeps (withdraw a i) := by
  intro s
  unfold withdraw
  split
  · exact Keeps.refl s
  · refine keeps_unlessFails _ _ (fun _ => ?_)
    split
    · exact Keeps.refl s
    · refine Keeps.trans ?_ (keeps_present _)
      refine Keeps.trans ?_ (keeps_closeOf _)
      exact (keeps_returnPlacement _ _).trans (keeps_removeOrder _ _)

/-! ## Delivery and reports -/

theorem keeps_drawWater (a : Nat) (o : Option CutOrder) (d : Nat) : Keeps s (s.drawWater a o d) := by
  unfold State.drawWater State.attribute
  split
  · exact keeps_addOverheadWater _ _
  · split
    · dsimp only
      split
      · exact (keeps_modifyOrder _ _ _ _).trans (keeps_addOverheadWater _ _)
      · exact keeps_modifyOrder _ _ _ _
    · exact keeps_addOverheadWater _ _

theorem blockKeeps_sawStatus (a b c d e f g : Nat) : BlockKeeps (sawStatus a b c d e f g) := by
  intro s
  unfold sawStatus
  split
  · rename_i t w _ _
    have h : Keeps s ((s.modifySaw a (Saw.takeStatus t)).drawWater a w.active t.delta) :=
      (keeps_modifySaw a (Saw.takeStatus t) (fun w h => h)).trans (keeps_drawWater _ _ _)
    dsimp only
    split
    · exact h.trans (keeps_present _)
    · exact h
  · exact Keeps.refl s

theorem blockKeeps_orderAck (a b i : Nat) : BlockKeeps (orderAck a b i) := by
  intro s
  unfold orderAck
  split
  · exact Keeps.refl s
  · dsimp only
    split
    · exact (keeps_modifyOrder _ _ _ _).trans (keeps_modifySaw _ _ (fun w h => h))
    · exact Keeps.refl s

theorem keeps_decline (o : CutOrder) : Keeps s (s.decline o) := by
  unfold State.decline
  dsimp only
  refine Keeps.trans ?_ (keeps_notify _)
  refine Keeps.trans ?_ (keeps_addOverheadWater _ _)
  refine Keeps.trans ?_ (keeps_closeOf _)
  exact (keeps_returnPlacement _ _).trans (keeps_removeOrder _ _)

theorem blockKeeps_orderDecline (a b i : Nat) : BlockKeeps (orderDecline a b i) := by
  intro s
  unfold orderDecline
  split
  · exact Keeps.refl s
  · exact (keeps_decline _).trans (keeps_present _)

theorem keeps_countPiece (o : CutOrder) : Keeps s (s.countPiece o) := by
  unfold State.countPiece
  split
  · exact Keeps.refl s
  · split
    · exact keeps_modifyJob _ _ (fun _ => rfl)
        (fun _ h => ⟨h.1, h.2.1, h.2.2.1, h.2.2.2.1, h.2.2.2.2.1, h.2.2.2.2.2.1, h.2.2.2.2.2.2.1, satAdd_le _ _ _⟩)
        (fun _ _ _ => Iff.rfl)
    · exact Keeps.refl s

theorem keeps_placeOutcome (o : CutOrder) (c : Outcome3) : Keeps s (s.placeOutcome o c) := by
  cases c
  · refine Keeps.trans ?_ (keeps_countPiece _)
    refine Keeps.trans ?_ (keeps_editSlab _ _ (fun _ => rfl) (fun _ => rfl) (fun _ => rfl))
    exact keeps_modifyPlacement _ _ _ (fun _ => rfl) (fun _ => rfl)
  · exact keeps_returnPlacement _ _
  · exact keeps_returnPlacement _ _

theorem keeps_returnSibling (o : CutOrder) : Keeps s (s.returnSibling o) := by
  refine Keeps.trans ?_ (keeps_notify _)
  exact (keeps_returnPlacement _ _).trans (keeps_removeOrder _ _)

theorem keeps_breakSlab (c : Cause) (o : CutOrder) : Keeps s (s.breakSlab c o) := by
  unfold State.breakSlab
  dsimp only
  have h : Keeps s (((s.raise (brokenFault o)).ordersOn o.saw o.slab).foldl State.returnSibling
      (s.raise (brokenFault o))) :=
    (keeps_raise _).trans (Keeps.foldl (fun _ _ => keeps_returnSibling _) _ _)
  split
  · exact h
  · exact h.trans (keeps_settle _ _ _)

theorem keeps_complete (c : Cause) (w : SawConfig) (o : CutOrder) (oc : Outcome3) (n : Nat) :
    Keeps s (s.complete c w o oc n).2 := by
  unfold State.complete
  dsimp only
  have h : Keeps s ((((s.modifySaw o.saw (Saw.addSeconds n)).completionCharges c w o oc n).2.placeOutcome o
      oc).removeOrder o.saw o) := by
    refine Keeps.trans ?_ (keeps_removeOrder _ _)
    refine Keeps.trans ?_ (keeps_placeOutcome _ _)
    exact (keeps_modifySaw o.saw (Saw.addSeconds n) (fun w h => h)).trans (keeps_completionCharges _ _ _ _ _)
  cases oc
  · exact h.trans (keeps_closeOf _)
  · exact h.trans (keeps_closeOf _)
  · exact (h.trans (keeps_breakSlab _ _)).trans keeps_closeAllReady

theorem keeps_honour (a : Nat) (w : Saw) (o : CutOrder) (oc : Outcome3) (n : Nat) : Keeps s (honour a w o oc n s).2 :=
  (keeps_complete _ _ _ _ _).trans (keeps_present _)

theorem blockKeeps_cutReport (a b i oc n : Nat) : BlockKeeps (cutReport a b i oc n) := by
  intro s
  unfold cutReport
  split
  · exact Keeps.refl s
  · split
    · exact Keeps.refl s
    · split
      · exact keeps_honour _ _ _ _ _
      · split
        · exact (keeps_reattach _).trans (keeps_honour _ _ _ _ _)
        · exact keeps_raise _
      · exact keeps_raise _

theorem keeps_silenceOrders (a : Nat) : Keeps s (s.modifySaw a Saw.silenceOrders) :=
  keeps_modifySaw _ _ (fun w h => by simpa [Saw.silenceOrders] using h)

theorem keeps_silence (st : Station) : Keeps s (s.silence st) := by
  unfold State.silence
  dsimp only
  have h : Keeps s ((s.modifyStation st.address Station.silenced).raise (silenceFault st)) :=
    (keeps_silenced _).trans (keeps_raise _)
  split
  · exact h.trans keeps_plantLost
  · exact h.trans ((keeps_silenceOrders _).trans (keeps_present _))
  · exact h.trans ((keeps_silenceOrders _).trans (keeps_present _))
  · exact h
  · exact h
  · exact h
  · exact h

theorem keeps_silenceExpiry (a : Nat) : Keeps s (silenceExpiry a s) := by
  unfold silenceExpiry
  split
  · exact Keeps.refl s
  · split
    · exact (keeps_silence _).trans keeps_flush
    · exact Keeps.refl s

theorem keeps_produceB (t : Option Telegram) : Keeps s (s.produceB t) := by
  cases t
  · exact Keeps.refl s
  · exact keeps_produce _ _

theorem keeps_ackExpiry (a : Nat) : Keeps s (ackExpiry a s) := by
  unfold ackExpiry
  split
  · exact Keeps.refl s
  · split
    · refine Keeps.trans ?_ keeps_flush
      unfold State.resend
      refine Keeps.trans ?_ (keeps_produceB _)
      exact (keeps_modifyOrder _ _ _ _).trans (keeps_modifySaw _ _ (fun w h => h))
    · refine Keeps.trans ?_ keeps_flush
      refine Keeps.trans ?_ (keeps_present _)
      unfold State.endDelivery
      refine Keeps.trans ?_ (keeps_notify _)
      refine Keeps.trans ?_ (keeps_raise _)
      refine Keeps.trans ?_ (keeps_modifySaw _ _ (fun w h => h))
      exact (keeps_silenced _).trans (keeps_modifyOrder _ _ _ _)

theorem keeps_deliver (a : Nat) (o : CutOrder) : Keeps s (s.deliver a o) := by
  unfold State.deliver
  dsimp only
  refine Keeps.trans ?_ (keeps_produceB _)
  exact (keeps_modifyOrder _ _ _ _).trans (keeps_modifySaw _ _ (fun w h => h))

theorem keeps_evaluate (a : Nat) : Keeps s (evaluate a s) := by
  unfold evaluate
  split
  · dsimp only
    split
    · exact keeps_presented _
    · exact (keeps_presented _).trans ((keeps_deliver _ _).trans keeps_flush)
  · exact Keeps.refl s

theorem Transmitter.advance_legal {x : Transmitter} (h : x.Legal) : x.advance.Legal := by
  unfold Transmitter.advance
  split
  · exact ⟨Nat.zero_le _, fun _ => rfl⟩
  · rename_i t ts hw
    refine ⟨?_, fun e => by cases e⟩
    have := h.1
    rw [hw, List.length_cons] at this
    exact Nat.le_of_succ_le this

theorem keeps_transmitDone (d : Side) : Keeps s (transmitDone d s) := by
  unfold transmitDone
  split
  · exact Keeps.refl s
  · exact keeps_setTx _ _ Transmitter.advance_legal

/-! ## Attach -/

theorem keeps_resolveDoubt (a : Nat) (l : Option (Nat × Nat)) : Keeps s (s.resolveDoubt a l) := by
  unfold State.resolveDoubt
  split
  · exact Keeps.refl s
  · split
    · exact keeps_complete _ _ _ _ _
    · split
      · exact keeps_modifyOrder _ _ _ _
      · exact (keeps_raise _).trans (keeps_complete _ _ _ _ _)
    · exact Keeps.refl s
    · split
      · exact keeps_raise _
      · split
        · exact keeps_modifyOrder _ _ _ _
        · exact keeps_raise _

theorem keeps_onAttach (st : Station) (l : Option (Nat × Nat)) : Keeps s (s.onAttach st l) := by
  unfold State.onAttach
  split
  · exact (keeps_resolveDoubt _ _).trans (keeps_present _)
  · exact (keeps_resolveDoubt _ _).trans (keeps_present _)
  · exact keeps_queueValve _
  · exact Keeps.refl s
  · exact Keeps.refl s
  · exact Keeps.refl s
  · exact Keeps.refl s

theorem blockKeeps_announce (st : Station) (l : Option (Nat × Nat)) : BlockKeeps (announce st l) := by
  intro s
  unfold announce
  dsimp only
  split
  · exact Keeps.refl s
  · exact (keeps_attach _).trans (keeps_onAttach _ _)

theorem keeps_refuseAnnounce (d : Side) (t : Telegram) {b : Block} (hb : BlockKeeps b) :
    Keeps s (s.refuseAnnounce d t b) :=
  keeps_passGate _ _ _ (fun s => (hb s).trans (keeps_conclude _ _ _))

theorem blockKeeps_announceBlock (st : Station) (l : Option (Option (Nat × Nat))) : BlockKeeps (announceBlock st l) := by
  cases l
  · exact blockKeeps_refuse _
  · exact blockKeeps_announce _ _

theorem keeps_arriveAnnounce (d : Side) (t : Telegram) (c : Option Nat) (l : Option (Option (Nat × Nat))) :
    Keeps s (s.arriveAnnounce d t c l) := by
  unfold State.arriveAnnounce
  split
  · exact Keeps.refl s
  · split
    · exact (keeps_raise _).trans keeps_flush
    · split
      · exact (keeps_raise _).trans keeps_flush
      · split
        · exact keeps_refuseAnnounce _ _ (fun s => keeps_raise _)
        · split
          · exact keeps_refuseAnnounce _ _ (blockKeeps_refuse _)
          · exact (keeps_restartSilence _).trans
              (keeps_passGate _ _ _ (fun s => (blockKeeps_announceBlock _ _ s).trans (keeps_conclude _ _ _)))

/-! ## Loads, faults, resets -/

theorem modify_map_isSome (l : List (Option KindRule)) (c : Nat) (f : KindRule → KindRule) :
    (l.modify c (fun r => r.map f)).map Option.isSome = l.map Option.isSome := by
  apply List.ext_getElem?
  intro i
  simp only [List.getElem?_map, List.getElem?_modify]
  split
  · cases l[i]? <;> simp
  · cases l[i]? <;> simp

theorem keeps_setRule (c : Nat) (d : Disposition) (t : Nat) (k : Byte) (ht : t ≤ 3) : Keeps s (s.setRule c d t k) := by
  refine keeps_kindRules _ (fun h => ⟨by rw [modify_map_isSome]; exact h.1, fun r hr => ?_⟩)
  obtain ⟨i, hi⟩ := List.mem_iff_getElem?.1 hr
  rw [List.getElem?_modify] at hi
  obtain ⟨o, ho, e⟩ := Option.map_eq_some_iff.1 hi
  split at e
  · cases o with
    | none => simp at e
    | some q =>
      simp only [Option.map_some, Option.some.injEq] at e
      subst e
      exact ht
  · exact h.2 r (by rw [← e]; exact List.mem_iff_getElem?.2 ⟨i, ho⟩)

theorem ruleForm_tier {c d t k : Nat} {x : Disposition} (h : ruleForm c d t k = some x) : t ≤ 3 := by
  unfold ruleForm at h
  split at h
  · cases h
  · split at h
    · rename_i hf
      simp only [Bool.and_eq_true, decide_eq_true_eq] at hf
      exact hf.1.2
    · cases h

theorem blockKeeps_loadRule (c d t k : Nat) : BlockKeeps (loadRule c d t k) := by
  intro s
  unfold loadRule
  split
  · exact Keeps.refl s
  · rename_i x hx
    split
    · exact Keeps.refl s
    · exact keeps_unlessFails _ _ (fun _ => keeps_setRule _ _ _ _ (ruleForm_tier hx))

theorem blockKeeps_loadGroup (n : Nat) : BlockKeeps (loadGroup n) := by
  intro s
  unfold loadGroup
  split
  · exact Keeps.refl s
  · exact keeps_unlessFails _ _ (fun _ => keeps_groups _)

theorem blockKeeps_loadConstants (a b c d : Nat) : BlockKeeps (loadConstants a b c d) := by
  intro s
  unfold loadConstants
  split
  · exact Keeps.refl s
  · rename_i h
    exact keeps_constants _ s.rates (fun k => ⟨by simpa using h, k.2⟩)

theorem blockKeeps_loadNotices (a b c : Nat) : BlockKeeps (loadNotices a b c) := by
  intro s
  unfold loadNotices
  split
  · exact Keeps.refl s
  · split
    · exact Keeps.refl s
    · exact keeps_faults _ (fun h => h)

theorem blockKeeps_clearFault : BlockKeeps clearFault := fun _ =>
  keeps_faults _ (fun h => ⟨Nat.zero_le _, h.2.1, fun _ => ⟨rfl, rfl⟩⟩)

theorem keeps_shedOrder (o : CutOrder) : Keeps s (s.shedOrder o) :=
  (keeps_returnPlacement _ _).trans (keeps_removeOrder _ _)

theorem keeps_restartStations : Keeps s s.restartStations := by
  refine keeps_mapStations _ (fun st h => ⟨?_, rfl⟩) (fun _ => rfl)
  refine Station.legal_runtime h .absent none _ (fun _ => rfl) (by simp) (by simp) ?_
  intro w hw
  obtain ⟨v, hv, rfl⟩ := Option.map_eq_some_iff.1 hw
  simpa [Saw.quiet, Saw.suspended] using h.2.2.2.2.2.2.2 v hv

theorem keeps_restartFloor : Keeps s s.restartFloor := by
  unfold State.restartFloor State.shed
  refine Keeps.trans ?_ keeps_restartStations
  refine Keeps.trans ?_ keeps_closeAllReady
  exact Keeps.foldl (fun _ _ => keeps_shedOrder _) _ s

theorem Water.restarted_legal {w : Water} (h : w.Legal) : w.restarted.Legal :=
  ⟨by simpa [Water.restarted, Water.abortWindow] using h.1, h.2.1, h.2.2.1, h.2.2.2.1, h.2.2.1, h.2.2.2.2.2⟩

theorem keeps_tellLineReset (m : WaterMode) (l : List (Nat × Bool)) : Keeps s (s.tellLineReset m l) := by
  unfold State.tellLineReset
  split
  · exact Keeps.refl s
  · exact keeps_notify _

theorem keeps_lineRestart : Keeps s s.lineRestart := by
  unfold State.lineRestart
  dsimp only
  refine Keeps.trans ?_ (keeps_tellLineReset _ _)
  refine ⟨keeps_restartFloor.1, fun b => ?_⟩
  have t := keeps_restartFloor.2 b
  exact ⟨t.address, t.kindRules, t.constants, t.stations, t.slabs, t.placements, t.jobs, t.closeCounter,
    t.admissionCounter, Water.restarted_legal b.water, t.shop, t.faults, t.txA, t.txB⟩

theorem blockKeeps_lineReset : BlockKeeps lineReset := fun _ => keeps_lineRestart

theorem blockKeeps_releaseLine : BlockKeeps releaseLine := by
  intro s
  unfold releaseLine
  dsimp only
  split
  · exact (keeps_line _).trans keeps_presentAll
  · exact Keeps.refl s

theorem idleTransmitter_legal : idleTransmitter.Legal := ⟨Nat.zero_le _, fun _ => rfl⟩

theorem keeps_assertReset : Keeps s s.assertReset := by
  refine ⟨rfl, fun b => ?_⟩
  have h : Keeps s { s with stations := s.stations.map Station.stopTimers } := by
    refine keeps_mapStations _ (fun st h => ⟨?_, rfl⟩) (fun _ => rfl)
    refine Station.legal_runtime h st.state none _ (fun _ => rfl) (by simp) (by simp) ?_
    intro w hw
    obtain ⟨v, hv, rfl⟩ := Option.map_eq_some_iff.1 hw
    exact h.2.2.2.2.2.2.2 v hv
  exact ⟨b.address, b.kindRules, b.constants, (h.2 b).stations, b.slabs, b.placements, b.jobs, b.closeCounter,
    b.admissionCounter, b.water, b.shop, b.faults, idleTransmitter_legal, idleTransmitter_legal⟩

theorem keeps_keepReset : Keeps s s.keepReset := by
  refine ⟨keeps_restartFloor.1, fun b => ?_⟩
  have t := keeps_restartFloor.2 b
  exact ⟨t.address, t.kindRules, t.constants, t.stations, t.slabs, t.placements, t.jobs, t.closeCounter,
    t.admissionCounter, Water.restarted_legal b.water, t.shop, ⟨t.faults.1, Nat.zero_le _, t.faults.2.2⟩,
    idleTransmitter_legal, idleTransmitter_legal⟩

theorem strapAddress_range (n : Nat) : 1 ≤ strapAddress n ∧ strapAddress n ≤ 30 := by
  unfold strapAddress
  split <;> omega

theorem defaultKindRules_tier : ∀ o ∈ defaultKindRules, ∀ r ∈ o, r.maxTier ≤ 3 := by decide

theorem defaultKindRules_legal : KindRulesLegal defaultKindRules :=
  ⟨rfl, fun r h => defaultKindRules_tier _ h r rfl⟩

theorem reset_constants : State.reset.constants.Legal State.reset.rates := by unfold Constants.Legal; decide
theorem reset_water : State.reset.water.Legal := by unfold Water.Legal; decide
theorem reset_shop : State.reset.shop.Legal := by unfold Shop.Legal; decide

/-- R44, R57, R108, R118, R134, R149: the values of a cold reset without KEEP are within their bounds. -/
theorem plainReset_bounded (n : Nat) (r : ResetReport) : (s.plainReset n r).Bounded where
  address := strapAddress_range n
  kindRules := defaultKindRules_legal
  constants := reset_constants
  stations := ⟨List.Pairwise.nil, Nat.zero_le _, by intro st h; cases h⟩
  slabs := ⟨List.Pairwise.nil, Nat.zero_le _, by intro st h; cases h⟩
  placements := ⟨List.Pairwise.nil, Nat.zero_le _, by intro st h; cases h⟩
  jobs := ⟨List.Pairwise.nil, Nat.zero_le _, (by intro st h; cases h), List.Pairwise.nil,
    (by intro st h; cases h), by intro st h; cases h⟩
  closeCounter := Nat.zero_le _
  admissionCounter := Nat.zero_le _
  water := reset_water
  shop := reset_shop
  faults := ⟨Nat.zero_le _, Nat.zero_le _, fun _ => ⟨rfl, rfl⟩⟩
  txA := idleTransmitter_legal
  txB := idleTransmitter_legal

theorem keeps_releaseReset (k : Bool) (n : Nat) : Keeps s (s.releaseReset k n) := by
  unfold State.releaseReset
  split
  · split
    · exact ⟨rfl, fun _ => plainReset_bounded _ _⟩
    · exact keeps_keepReset
  · exact ⟨rfl, fun _ => plainReset_bounded _ _⟩

theorem keeps_tick : Keeps s s.tick := by
  unfold State.tick
  split
  · exact Keeps.refl s
  · refine keeps_mapStations _ (fun st h => ⟨?_, rfl⟩) (fun _ => rfl)
    refine Station.legal_runtime h st.state _ _ (fun e => ?_) ?_ (by simp) ?_
    · rw [h.2.2.2.2.2.1 e]; rfl
    · intro n hn
      obtain ⟨v, hv, rfl⟩ := Option.map_eq_some_iff.1 hn
      have := h.2.2.2.2.2.2.1 v hv
      omega
    · intro w hw
      obtain ⟨v, hv, rfl⟩ := Option.map_eq_some_iff.1 hw
      exact h.2.2.2.2.2.2.2 v hv

end Sys2Proof.Machine
end

