-- ==== Sys2Proof/Laws/Ends.lean ====
section
/-! SUPPORT. Every command answers a next state, leaves the queue of commands, keeps a bounded state bounded, and leaves
nothing to send. -/

namespace Sys2Proof.Machine

open Sys2Proof Config

variable {s : State}

/-! ## The outbox between events -/

def Outgoing.isNotice : Outgoing → Bool
  | .notice _ => true
  | .valve _ _ => false

/-- The outbox holds notices only. -/
def NoticesOnly (s : State) : Prop := ∀ o ∈ s.outbox, o.isNotice = true

@[simp] theorem setTx_outbox (d : Side) (x : Transmitter) : (s.setTx d x).outbox = s.outbox := by cases d <;> rfl

@[simp] theorem recordFault_outbox (r : FaultRecord) : (s.recordFault r).outbox = s.outbox := by
  unfold State.recordFault; split <;> rfl

theorem raise_outbox (r : FaultRecord) : ∃ n, (s.raise r).outbox = s.outbox ++ [.notice n] :=
  ⟨_, by simp [State.raise, State.notify, State.queueOut]; rfl⟩

theorem noticesOnly_produce (d : Side) (t : Telegram) (h : NoticesOnly s) : NoticesOnly (s.produce d t) := by
  unfold State.produce
  split
  · simpa [NoticesOnly] using h
  · split
    · simpa [NoticesOnly] using h
    · intro o ho
      obtain ⟨n, hn⟩ := raise_outbox (s := s) (overrunFault d t)
      rw [hn] at ho
      rcases List.mem_append.1 ho with ho | ho
      · exact h o ho
      · rw [List.mem_singleton.1 ho]; rfl

theorem produce_notice_outbox (d : Side) (t : Telegram) (h : t.kind = Kind.notice) :
    (s.produce d t).outbox = s.outbox := by
  unfold State.produce
  split
  · simp
  · simp [h]

theorem noticesOnly_sendOut (o : Outgoing) (h : NoticesOnly s) : NoticesOnly (s.sendOut o) := by
  cases o
  · unfold State.sendOut State.sendNotice
    dsimp only
    split
    · split
      · exact h
      · exact noticesOnly_produce _ _ h
    · exact h
  · exact noticesOnly_produce _ _ h

theorem sendNotice_outbox (n : Notice) : (s.sendNotice n).outbox = s.outbox := by
  unfold State.sendNotice
  split
  · split
    · rfl
    · exact produce_notice_outbox _ _ rfl
  · rfl

theorem noticesOnly_foldl (l : List Outgoing) (h : NoticesOnly s) : NoticesOnly (l.foldl State.sendOut s) := by
  induction l generalizing s with
  | nil => exact h
  | cons o l ih => exact ih (noticesOnly_sendOut o h)

theorem noticesOnly_drain : NoticesOnly s.drain := noticesOnly_foldl _ (by intro o h; cases h)

theorem foldl_outbox (l : List Outgoing) (h : ∀ o ∈ l, o.isNotice = true) :
    (l.foldl State.sendOut s).outbox = s.outbox := by
  induction l generalizing s with
  | nil => rfl
  | cons o l ih =>
    rw [List.foldl_cons, ih (fun x hx => h x (List.mem_cons_of_mem _ hx))]
    cases o with
    | notice n => exact sendNotice_outbox n
    | valve d m => exact absurd (h _ (List.mem_cons_self ..)) (by simp [Outgoing.isNotice])

/-- R151, R152: an event ends with nothing left to send. -/
@[simp] theorem flush_outbox : s.flush.outbox = [] := by
  unfold State.flush
  rw [State.drain, foldl_outbox _ noticesOnly_drain]

@[simp] theorem conclude_outbox (h : Header) (k : Nat) (r : Reply × State) : (conclude h k r).outbox = [] := flush_outbox

@[simp] theorem forwardCopy_outbox (c : Bool) (t : Telegram) (h : s.outbox = []) : (s.forwardCopy c t).outbox = [] := by
  unfold State.forwardCopy
  split
  · exact flush_outbox
  · exact h

theorem passGate_outbox (g : Gate) (d : Side) (t : Telegram) {f : State → State} (h : s.outbox = [])
    (hf : (f s).outbox = []) : (s.passGate g d t f).outbox = [] := by
  unfold State.passGate
  split
  · exact flush_outbox
  · exact h
  · exact h
  · exact flush_outbox
  · exact flush_outbox
  · exact forwardCopy_outbox _ _ hf

theorem restartSilence_outbox (a : Nat) : (s.restartSilence a).outbox = s.outbox := rfl

theorem arrive_outbox (d : Side) (t : Telegram) {f : State → State} (h : s.outbox = []) (hf : ∀ u, (f u).outbox = []) :
    (s.arrive d t f).outbox = [] := by
  unfold State.arrive
  split
  · exact h
  · split
    · exact flush_outbox
    · exact passGate_outbox _ _ _ h (hf _)

theorem arriveAnnounce_outbox (d : Side) (t : Telegram) (c : Option Nat) (l : Option (Option (Nat × Nat)))
    (h : s.outbox = []) : (s.arriveAnnounce d t c l).outbox = [] := by
  unfold State.arriveAnnounce
  split
  · exact h
  · split
    · exact flush_outbox
    · split
      · exact flush_outbox
      · split
        · exact passGate_outbox _ _ _ h (conclude_outbox _ _ _)
        · split
          · exact passGate_outbox _ _ _ h (conclude_outbox _ _ _)
          · exact passGate_outbox _ _ _ h (conclude_outbox _ _ _)

/-! ## The end of an event -/

/-- The outcome of a command's event: a next state, with the queue and the bounds kept and nothing left to send. -/
def Ends (s : State) (o : Host.Outcome State Fault Refusal) : Prop :=
  ∃ t, o = .next t ∧ Keeps s t ∧ (s.outbox = [] → t.outbox = [])

theorem ends_next {t : State} (h : Keeps s t) (e : s.outbox = [] → t.outbox = []) : Ends s (.next t) := ⟨t, rfl, h, e⟩

theorem ends_same : Ends s (.next s) := ends_next (Keeps.refl s) id

theorem ends_runRow (i : Instr) (h : Header) {b : Block} (hb : BlockKeeps b) : Ends s (.next (runRow i h b s)) :=
  ends_next (keeps_runRow i h hb) (fun e => arrive_outbox _ _ e (fun _ => conclude_outbox _ _ _))

theorem ends_announce (h : Header) (c : Nat) (w : Option (Nat × Nat)) : Ends s (execAnnounce h c w s) :=
  ends_next (keeps_arriveAnnounce _ _ _ _) (arriveAnnounce_outbox _ _ _ _)

theorem blockKeeps_malformed (h : Header) (k : Nat) : BlockKeeps (malformed h k) := by
  unfold malformed
  split
  · exact blockKeeps_fromAttached _ (blockKeeps_refuse _)
  · exact blockKeeps_refuse _

theorem ends_rowless (d : Side) (t : Telegram) : Ends s (.next (s.arriveRowless d t)) := by
  unfold State.arriveRowless
  split
  · exact ends_next (keeps_arriveAnnounce _ _ _ _) (arriveAnnounce_outbox _ _ _ _)
  · exact ends_next (keeps_arrive _ _ (fun s => (blockKeeps_malformed _ _ s).trans (keeps_conclude _ _ _)))
      (fun e => arrive_outbox _ _ e (fun _ => conclude_outbox _ _ _))

theorem ends_receiveRow (i : Instr) : Ends s (receiveRow i s) := by
  cases i with
  | announce h c w => exact ends_announce h c w
  | querySlabRecord => exact ends_runRow _ _ (blockKeeps_reading _)
  | querySlabDefects => exact ends_runRow _ _ (blockKeeps_reading _)
  | querySlabNext => exact ends_runRow _ _ (blockKeeps_reading _)
  | queryPlacementEntry => exact ends_runRow _ _ (blockKeeps_reading _)
  | queryPlacementSlab => exact ends_runRow _ _ (blockKeeps_reading _)
  | queryJobRecord => exact ends_runRow _ _ (blockKeeps_reading _)
  | queryJobNext => exact ends_runRow _ _ (blockKeeps_reading _)
  | queryBill => exact ends_runRow _ _ (blockKeeps_reading _)
  | queryStationEntry => exact ends_runRow _ _ (blockKeeps_reading _)
  | queryStationNext => exact ends_runRow _ _ (blockKeeps_reading _)
  | queryRule => exact ends_runRow _ _ (blockKeeps_reading _)
  | queryWater => exact ends_runRow _ _ (blockKeeps_reading _)
  | queryExcursion => exact ends_runRow _ _ (blockKeeps_reading _)
  | queryFault => exact ends_runRow _ _ (blockKeeps_reading _)
  | queryShop => exact ends_runRow _ _ (blockKeeps_reading _)
  | queryCapability => exact ends_runRow _ _ (blockKeeps_reading _)
  | loadStation => exact ends_runRow _ _ (blockKeeps_loadStation _ _ _ _ _)
  | loadStationNone => exact ends_runRow _ _ (blockKeeps_loadStationNone _)
  | loadRule => exact ends_runRow _ _ (blockKeeps_loadRule _ _ _ _)
  | loadGroup => exact ends_runRow _ _ (blockKeeps_loadGroup _)
  | loadConstants => exact ends_runRow _ _ (blockKeeps_loadConstants _ _ _ _)
  | loadRates => exact ends_runRow _ _ (blockKeeps_loadRates _ _)
  | loadWaterRule => exact ends_runRow _ _ (blockKeeps_loadWaterRule _ _ _ _ _ _ _ _)
  | loadShareWindow => exact ends_runRow _ _ (blockKeeps_loadShareWindow _)
  | loadAllowance => exact ends_runRow _ _ (blockKeeps_loadAllowance _)
  | loadNotices => exact ends_runRow _ _ (blockKeeps_loadNotices _ _ _)
  | clearFault => exact ends_runRow _ _ blockKeeps_clearFault
  | releaseLine => exact ends_runRow _ _ blockKeeps_releaseLine
  | lineReset => exact ends_runRow _ _ blockKeeps_lineReset
  | renewAllowance => exact ends_runRow _ _ blockKeeps_renewAllowance
  | slabEnter => exact ends_runRow _ _ (blockKeeps_slabEnter _ _ _ _ _ _ _)
  | slabEditLock => exact ends_runRow _ _ (blockKeeps_slabLock _ _)
  | slabEditUnlock => exact ends_runRow _ _ (blockKeeps_slabUnlock _)
  | slabEditSetBasis => exact ends_runRow _ _ (blockKeeps_slabSetBasis _ _)
  | slabEditAddDefect => exact ends_runRow _ _ (blockKeeps_slabAddDefect _ _)
  | slabRetire => exact ends_runRow _ _ (blockKeeps_slabRetire _)
  | slabDoneFinished => exact ends_runRow _ _ (blockKeeps_slabDone _ _ _)
  | slabDoneScrap => exact ends_runRow _ _ (blockKeeps_slabDone _ _ _)
  | place => exact ends_runRow _ _ (blockKeeps_place _ _ _ _ _ _ _)
  | unplace => exact ends_runRow _ _ (blockKeeps_unplace _ _)
  | order => exact ends_runRow _ _ (blockKeeps_order _ _ _ _ _)
  | withdraw => exact ends_runRow _ _ (blockKeeps_withdraw _ _)
  | jobOpen => exact ends_runRow _ _ (blockKeeps_jobOpen _)
  | jobLimit => exact ends_runRow _ _ (blockKeeps_jobLimit _ _ _)
  | jobClose => exact ends_runRow _ _ (blockKeeps_jobClose _)
  | takeBill => exact ends_runRow _ _ (blockKeeps_takeBill _)
  | sawStatus => exact ends_runRow _ _ (blockKeeps_fromAttached _ (blockKeeps_sawStatus _ _ _ _ _ _ _))
  | orderAck => exact ends_runRow _ _ (blockKeeps_fromAttached _ (blockKeeps_orderAck _ _ _))
  | orderDecline => exact ends_runRow _ _ (blockKeeps_fromAttached _ (blockKeeps_orderDecline _ _ _))
  | cutReport => exact ends_runRow _ _ (blockKeeps_cutReport _ _ _ _ _)
  | scanRacked => exact ends_runRow _ _ (blockKeeps_onScan _ _ _ _ _ (blockKeeps_scanToRack _ _))
  | scanStaged => exact ends_runRow _ _ (blockKeeps_onScan _ _ _ _ _ (blockKeeps_scanToBed _ _))
  | scanUnstaged => exact ends_runRow _ _ (blockKeeps_onScan _ _ _ _ _ blockKeeps_scanOffBed)
  | scanGone => exact ends_runRow _ _ (blockKeeps_onScan _ _ _ _ _ (blockKeeps_scanAway _))
  | waterSample => exact ends_runRow _ _ (blockKeeps_fromAttached _ (blockKeeps_waterSample _ _ _ _ _ _))
  | coldResetAssert => exact ends_same
  | coldResetRelease k n => exact ends_same
  | standbyRetentionLoss => exact ends_same
  | telegramReceived d p => exact ends_same
  | transmitComplete d => exact ends_same
  | silenceTimerExpiry a => exact ends_same
  | ackTimerExpiry a => exact ends_same
  | deliveryEvaluation a => exact ends_same

theorem ends_telegramReceived (d : Side) (p : List Byte) : Ends s (execTelegramReceived d p s) := by
  unfold execTelegramReceived
  split
  · exact ends_same
  · split
    · exact ends_next ((keeps_raise _).trans keeps_flush) (fun _ => flush_outbox)
    · exact ends_next ((keeps_raise _).trans keeps_flush) (fun _ => flush_outbox)
    · unfold receive
      split
      · exact ends_rowless _ _
      · exact ends_receiveRow _

theorem restart_outbox (k : Bool) (n : Nat) : (s.releaseReset k n).outbox = [] := by
  unfold State.releaseReset
  split
  · split <;> rfl
  · rfl

theorem ends_silenceExpiry (a : Nat) : Ends s (.next (silenceExpiry a s)) := by
  refine ends_next (keeps_silenceExpiry a) (fun e => ?_)
  unfold silenceExpiry
  split
  · exact e
  · split
    · exact flush_outbox
    · exact e

theorem ends_ackExpiry (a : Nat) : Ends s (.next (ackExpiry a s)) := by
  refine ends_next (keeps_ackExpiry a) (fun e => ?_)
  unfold ackExpiry
  split
  · exact e
  · split <;> exact flush_outbox

theorem ends_evaluate (a : Nat) : Ends s (.next (evaluate a s)) := by
  refine ends_next (keeps_evaluate a) (fun e => ?_)
  unfold evaluate
  split
  · dsimp only
    split
    · exact e
    · exact flush_outbox
  · exact e

theorem ends_transmitDone (d : Side) : Ends s (.next (transmitDone d s)) := by
  refine ends_next (keeps_transmitDone d) (fun e => ?_)
  unfold transmitDone
  split
  · exact e
  · simpa using e

end Sys2Proof.Machine
end

