-- ==== Sys2Proof/Laws/PerInstr.lean ====
section
/-! SUPPORT. Statements made for every command, one lemma per constructor. PayloadFits: the payload of a well-formed row
has at most the 48 bytes that Table 11-1 admits. -/

namespace Sys2Proof.Laws

open Sys2Proof

/-- Table 11-1: a payload is at most 48 bytes long. -/
def PayloadFits.Statement (i : Instr) : Prop := i.wf = true → i.payload.length ≤ 48

theorem payload_fits (i : Instr) : PayloadFits.Statement i := by
  intro w
  cases i with
  | announce h cls work => cases work <;> simp [Instr.payload]
  | takeBill h job => cases job <;> simp [Instr.payload]
  | loadStation h address cls stationSide tier saw =>
    cases saw with
    | none => simp [Instr.payload]
    | some f =>
      simp only [Instr.wf, SawFields.wf, Bool.and_eq_true, decide_eq_true_eq] at w
      simp only [Instr.payload, List.length_append, length_be, length_sawFields]
      omega
  | slabEnter h slab material thickness length width basis defects =>
    simp only [Instr.wf, Bool.and_eq_true, decide_eq_true_eq] at w
    simp only [Instr.payload, List.length_append, length_be, length_rects]
    omega
  | _ => simp [Instr.payload]

theorem PayloadFits.coldResetAssert :
    PayloadFits.Statement (.coldResetAssert) :=
  payload_fits _

theorem PayloadFits.coldResetRelease (keep : Bool) (straps : Nat) :
    PayloadFits.Statement (.coldResetRelease keep straps) :=
  payload_fits _

theorem PayloadFits.standbyRetentionLoss :
    PayloadFits.Statement (.standbyRetentionLoss) :=
  payload_fits _

theorem PayloadFits.telegramReceived (side : Side) (bytes : List Byte) :
    PayloadFits.Statement (.telegramReceived side bytes) :=
  payload_fits _

theorem PayloadFits.transmitComplete (side : Side) :
    PayloadFits.Statement (.transmitComplete side) :=
  payload_fits _

theorem PayloadFits.announce (h : Header) (cls : Nat) (work : Option (Nat × Nat)) :
    PayloadFits.Statement (.announce h cls work) :=
  payload_fits _

theorem PayloadFits.querySlabRecord (h : Header) (slab : Nat) :
    PayloadFits.Statement (.querySlabRecord h slab) :=
  payload_fits _

theorem PayloadFits.querySlabDefects (h : Header) (slab : Nat) :
    PayloadFits.Statement (.querySlabDefects h slab) :=
  payload_fits _

theorem PayloadFits.querySlabNext (h : Header) (slab : Nat) :
    PayloadFits.Statement (.querySlabNext h slab) :=
  payload_fits _

theorem PayloadFits.queryPlacementEntry (h : Header) (slab index : Nat) :
    PayloadFits.Statement (.queryPlacementEntry h slab index) :=
  payload_fits _

theorem PayloadFits.queryPlacementSlab (h : Header) (slab : Nat) :
    PayloadFits.Statement (.queryPlacementSlab h slab) :=
  payload_fits _

theorem PayloadFits.queryJobRecord (h : Header) (job : Nat) :
    PayloadFits.Statement (.queryJobRecord h job) :=
  payload_fits _

theorem PayloadFits.queryJobNext (h : Header) (job : Nat) :
    PayloadFits.Statement (.queryJobNext h job) :=
  payload_fits _

theorem PayloadFits.queryBill (h : Header) (position : Nat) :
    PayloadFits.Statement (.queryBill h position) :=
  payload_fits _

theorem PayloadFits.queryStationEntry (h : Header) (address : Nat) :
    PayloadFits.Statement (.queryStationEntry h address) :=
  payload_fits _

theorem PayloadFits.queryStationNext (h : Header) (address : Nat) :
    PayloadFits.Statement (.queryStationNext h address) :=
  payload_fits _

theorem PayloadFits.queryRule (h : Header) (code : Nat) :
    PayloadFits.Statement (.queryRule h code) :=
  payload_fits _

theorem PayloadFits.queryWater (h : Header) :
    PayloadFits.Statement (.queryWater h) :=
  payload_fits _

theorem PayloadFits.queryExcursion (h : Header) (rule : Nat) :
    PayloadFits.Statement (.queryExcursion h rule) :=
  payload_fits _

theorem PayloadFits.queryFault (h : Header) :
    PayloadFits.Statement (.queryFault h) :=
  payload_fits _

theorem PayloadFits.queryShop (h : Header) :
    PayloadFits.Statement (.queryShop h) :=
  payload_fits _

theorem PayloadFits.queryCapability (h : Header) :
    PayloadFits.Statement (.queryCapability h) :=
  payload_fits _

theorem PayloadFits.loadStation (h : Header) (address cls stationSide tier : Nat) (saw : Option SawFields) :
    PayloadFits.Statement (.loadStation h address cls stationSide tier saw) :=
  payload_fits _

theorem PayloadFits.loadStationNone (h : Header) (address : Nat) :
    PayloadFits.Statement (.loadStationNone h address) :=
  payload_fits _

theorem PayloadFits.loadRule (h : Header) (code disposition tier classSet : Nat) :
    PayloadFits.Statement (.loadRule h code disposition tier classSet) :=
  payload_fits _

theorem PayloadFits.loadGroup (h : Header) (enables : Nat) :
    PayloadFits.Statement (.loadGroup h enables) :=
  payload_fits _

theorem PayloadFits.loadConstants (h : Header) (kerf margin remnantMin conserveFeed : Nat) :
    PayloadFits.Statement (.loadConstants h kerf margin remnantMin conserveFeed) :=
  payload_fits _

theorem PayloadFits.loadRates (h : Header) (recycled fresh : Nat) :
    PayloadFits.Statement (.loadRates h recycled fresh) :=
  payload_fits _

theorem PayloadFits.loadWaterRule (h : Header) (number enabled channel direction trip release confirm action : Nat) :
    PayloadFits.Statement (.loadWaterRule h number enabled channel direction trip release confirm action) :=
  payload_fits _

theorem PayloadFits.loadShareWindow (h : Header) (length : Nat) :
    PayloadFits.Statement (.loadShareWindow h length) :=
  payload_fits _

theorem PayloadFits.loadAllowance (h : Header) (allowance : Nat) :
    PayloadFits.Statement (.loadAllowance h allowance) :=
  payload_fits _

theorem PayloadFits.loadNotices (h : Header) (station mask enables : Nat) :
    PayloadFits.Statement (.loadNotices h station mask enables) :=
  payload_fits _

theorem PayloadFits.clearFault (h : Header) :
    PayloadFits.Statement (.clearFault h) :=
  payload_fits _

theorem PayloadFits.releaseLine (h : Header) :
    PayloadFits.Statement (.releaseLine h) :=
  payload_fits _

theorem PayloadFits.lineReset (h : Header) :
    PayloadFits.Statement (.lineReset h) :=
  payload_fits _

theorem PayloadFits.renewAllowance (h : Header) :
    PayloadFits.Statement (.renewAllowance h) :=
  payload_fits _

theorem PayloadFits.slabEnter (h : Header) (slab material thickness length width basis : Nat) (defects : List Rect) :
    PayloadFits.Statement (.slabEnter h slab material thickness length width basis defects) :=
  payload_fits _

theorem PayloadFits.slabEditLock (h : Header) (slab reason : Nat) :
    PayloadFits.Statement (.slabEditLock h slab reason) :=
  payload_fits _

theorem PayloadFits.slabEditUnlock (h : Header) (slab : Nat) :
    PayloadFits.Statement (.slabEditUnlock h slab) :=
  payload_fits _

theorem PayloadFits.slabEditSetBasis (h : Header) (slab value : Nat) :
    PayloadFits.Statement (.slabEditSetBasis h slab value) :=
  payload_fits _

theorem PayloadFits.slabEditAddDefect (h : Header) (slab : Nat) (defect : Rect) :
    PayloadFits.Statement (.slabEditAddDefect h slab defect) :=
  payload_fits _

theorem PayloadFits.slabRetire (h : Header) (slab : Nat) :
    PayloadFits.Statement (.slabRetire h slab) :=
  payload_fits _

theorem PayloadFits.slabDoneFinished (h : Header) (slab : Nat) :
    PayloadFits.Statement (.slabDoneFinished h slab) :=
  payload_fits _

theorem PayloadFits.slabDoneScrap (h : Header) (slab : Nat) :
    PayloadFits.Statement (.slabDoneScrap h slab) :=
  payload_fits _

theorem PayloadFits.place (h : Header) (slab kind : Nat) (rect : Rect) (job parentPresent parentIndex remnantSlab : Nat) :
    PayloadFits.Statement (.place h slab kind rect job parentPresent parentIndex remnantSlab) :=
  payload_fits _

theorem PayloadFits.unplace (h : Header) (slab index : Nat) :
    PayloadFits.Statement (.unplace h slab index) :=
  payload_fits _

theorem PayloadFits.order (h : Header) (job slab index feed : Nat) :
    PayloadFits.Statement (.order h job slab index feed) :=
  payload_fits _

theorem PayloadFits.withdraw (h : Header) (slab index : Nat) :
    PayloadFits.Statement (.withdraw h slab index) :=
  payload_fits _

theorem PayloadFits.jobOpen (h : Header) (job : Nat) :
    PayloadFits.Statement (.jobOpen h job) :=
  payload_fits _

theorem PayloadFits.jobLimit (h : Header) (job : Nat) (limit : Option Nat) (hold : Nat) :
    PayloadFits.Statement (.jobLimit h job limit hold) :=
  payload_fits _

theorem PayloadFits.jobClose (h : Header) (job : Nat) :
    PayloadFits.Statement (.jobClose h job) :=
  payload_fits _

theorem PayloadFits.takeBill (h : Header) (job : Option Nat) :
    PayloadFits.Statement (.takeBill h job) :=
  payload_fits _

theorem PayloadFits.sawStatus (h : Header) (ready wear vibration changed kerf delta : Nat) :
    PayloadFits.Statement (.sawStatus h ready wear vibration changed kerf delta) :=
  payload_fits _

theorem PayloadFits.orderAck (h : Header) (slab index : Nat) :
    PayloadFits.Statement (.orderAck h slab index) :=
  payload_fits _

theorem PayloadFits.orderDecline (h : Header) (slab index : Nat) :
    PayloadFits.Statement (.orderDecline h slab index) :=
  payload_fits _

theorem PayloadFits.cutReport (h : Header) (slab index outcome bladeSeconds : Nat) :
    PayloadFits.Statement (.cutReport h slab index outcome bladeSeconds) :=
  payload_fits _

theorem PayloadFits.scanRacked (h : Header) (slab rack slot saw : Nat) :
    PayloadFits.Statement (.scanRacked h slab rack slot saw) :=
  payload_fits _

theorem PayloadFits.scanStaged (h : Header) (slab rack slot saw : Nat) :
    PayloadFits.Statement (.scanStaged h slab rack slot saw) :=
  payload_fits _

theorem PayloadFits.scanUnstaged (h : Header) (slab rack slot saw : Nat) :
    PayloadFits.Statement (.scanUnstaged h slab rack slot saw) :=
  payload_fits _

theorem PayloadFits.scanGone (h : Header) (slab rack slot saw : Nat) :
    PayloadFits.Statement (.scanGone h slab rack slot saw) :=
  payload_fits _

theorem PayloadFits.waterSample (h : Header) (sequence level turbidity recycled fresh : Nat) :
    PayloadFits.Statement (.waterSample h sequence level turbidity recycled fresh) :=
  payload_fits _

theorem PayloadFits.silenceTimerExpiry (address : Nat) :
    PayloadFits.Statement (.silenceTimerExpiry address) :=
  payload_fits _

theorem PayloadFits.ackTimerExpiry (saw : Nat) :
    PayloadFits.Statement (.ackTimerExpiry saw) :=
  payload_fits _

theorem PayloadFits.deliveryEvaluation (saw : Nat) :
    PayloadFits.Statement (.deliveryEvaluation saw) :=
  payload_fits _

end Sys2Proof.Laws
end

