-- ==== Sys2Proof/Laws/Sending.lean ====
section
/-! SUPPORT. What sending a telegram, a notice or a reply leaves alone: everything but the transmitters, the outbox, and
the fault record's record, flag, count and notice counter. -/

namespace Sys2Proof.Machine

open Sys2Proof Config

variable {s : State}

theorem withoutLink_setTx (d : Side) (x : Transmitter) : (s.setTx d x).withoutLink = s.withoutLink := by cases d <;> rfl

theorem withoutLink_recordFault (r : FaultRecord) : (s.recordFault r).withoutLink = s.withoutLink := by
  unfold State.recordFault; split <;> rfl

theorem withoutLink_queueOut (o : Outgoing) : (s.queueOut o).withoutLink = s.withoutLink := rfl

theorem withoutLink_raise (r : FaultRecord) : (s.raise r).withoutLink = s.withoutLink := withoutLink_recordFault r

theorem withoutLink_produce (d : Side) (t : Telegram) : (s.produce d t).withoutLink = s.withoutLink := by
  unfold State.produce
  split
  · exact withoutLink_setTx _ _
  · split
    · exact withoutLink_recordFault _
    · exact withoutLink_raise _

theorem withoutLink_produceAll (d : Side) (ts : List Telegram) : (s.produceAll d ts).withoutLink = s.withoutLink := by
  unfold State.produceAll
  induction ts generalizing s with
  | nil => rfl
  | cons t ts ih => rw [List.foldl_cons, ih, withoutLink_produce]

theorem withoutLink_sendOut (o : Outgoing) : (s.sendOut o).withoutLink = s.withoutLink := by
  cases o with
  | notice n =>
    unfold State.sendOut State.sendNotice
    dsimp only
    split
    · split
      · rfl
      · rw [withoutLink_produce]; rfl
    · rfl
  | valve d m => exact withoutLink_produce _ _

theorem withoutLink_drain : s.drain.withoutLink = s.withoutLink := by
  have h : ∀ (l : List Outgoing) (s : State), (l.foldl State.sendOut s).withoutLink = s.withoutLink := by
    intro l
    induction l with
    | nil => intro s; rfl
    | cons o l ih => intro s; rw [List.foldl_cons, ih, withoutLink_sendOut]
  unfold State.drain
  rw [h]
  rfl

theorem withoutLink_flush : s.flush.withoutLink = s.withoutLink := by
  unfold State.flush
  rw [withoutLink_drain, withoutLink_drain]

theorem withoutLink_sendReply (h : Header) (k : Nat) (r : Reply) : (s.sendReply h k r).withoutLink = s.withoutLink := by
  cases r
  · exact withoutLink_produceAll _ _
  · exact withoutLink_produceAll _ _
  · exact withoutLink_produce _ _

end Sys2Proof.Machine
end

