-- ==== Sys2Proof/Tests/Slice0.lean ====
section
/-! SUPPORT. The row's own tests: ill-formed commands that WellFormed refuses, byte forms the manual gives, one or two
steps of each command on the shop of the manual's worked examples, and, under Witnesses, states and operands that meet the
hypotheses of each obligation. Expected values come from the section named beside each test. -/

namespace Sys2Proof.Tests

set_option Elab.async false

open Sys2Proof Config Machine

/-! ## The demonstration shop: slab 70215 of sections 2.9, 4.8 and 8.8 on saw 11 -/

/-- The state after a command. -/
def after (i : Instr) (s : State) : State :=
  match exec i s with
  | .next t => t
  | .fault _ => s
  | .refused _ => s

/-- Every timer of a station run down to 0. -/
def lapsed (a : Nat) (s : State) : State :=
  s.modifyStation a (fun st =>
    { st with
      silence := st.silence.map (fun _ => 0)
      saw := st.saw.map (fun w => { w with ackTimer := w.ackTimer.map (fun _ => 0) }) })

/-- The expiry of a station's silence timer, and of a saw's acknowledgement timer. -/
def silenced (a : Nat) (s : State) : State := after (.silenceTimerExpiry a) (lapsed a s)
def unanswered (a : Nat) (s : State) : State := after (.ackTimerExpiry a) (lapsed a s)

/-- The header of a request of the supervisor, and of a report of the station at an address of side B. -/
def req : Header := ⟨.a, 30, 2, 7⟩
def report (src : Nat) : Header := ⟨.b, 30, src, 7⟩

/-- A queue entry of slab 70215 on saw 11. -/
def orderOf (index job number : Nat) (k : PlacementKind) (st : OrderState) : CutOrder :=
  ⟨70215, index, 11, some job, k, 2000, none, st, 0, 0, 0, number, none⟩

/-- P0's order while it runs: 500 tenths fresh and 1,350 recycled drawn (section 7.7). -/
def runningP0 : CutOrder := ⟨70215, 0, 11, some 41, .piece, 2000, some 2000, .running, 1, 1350, 500, 1018, some 4⟩

def cutPiece (index job : Nat) (r : Rect) (st : PlacementState) : Placement :=
  ⟨70215, index, .piece, some job, r, some 4, none, none, st⟩

def sawConfig : SawConfig := ⟨0x0B#8, 3400, 2000, 40, [], 300, 2400, 9000, 600, false⟩

def sawWith (queue : List CutOrder) : Saw :=
  ⟨sawConfig, true, .good, some 4, 0, some 70215, queue, none, none⟩

def sawStation (w : Saw) : Station := ⟨11, .b, .bridgeSaw, 2, .attached, some 10000, some w⟩

def slabOf (id : Nat) (st : SlabState) (bed : Option Nat) : Slab :=
  ⟨id, 1207, 30, 3200, 1800, [], 148000, 0, st, none, bed, none, none, 0, false⟩

def jobOf (id openOrders unsettled : Nat) : Job :=
  ⟨id, .opened, none, false, false, false, 0, 0, 0, 0, 0, 0, 0, 0, openOrders, unsettled, none⟩

/-- The saw with a queue, the planning station 1, the supervisor 2, the recycler 20 and the scanner 21. -/
def stationsWith (w : Saw) : List Station :=
  [⟨1, .a, .planning, 1, .attached, some 10000, none⟩, ⟨2, .a, .supervisor, 0, .attached, some 10000, none⟩,
   sawStation w, ⟨20, .b, .recycler, 2, .attached, some 10000, none⟩, ⟨21, .b, .scanner, 2, .attached, some 10000, none⟩]

/-- Pieces P0 and P1 of job 41 and P2 of job 57 (section 2.9). -/
def plan (a b c : PlacementState) : List Placement :=
  [cutPiece 0 41 ⟨20, 20, 2440, 640⟩ a, cutPiece 1 41 ⟨1524, 664, 1200, 640⟩ b, cutPiece 2 57 ⟨20, 664, 1500, 900⟩ c]

/-- The shop with nothing ordered: the pieces are planned, the remnant is not yet placed. -/
def demo : State :=
  { State.reset with
    groups := ⟨true, true, true, true⟩
    constants := ⟨4, 20, 250, 800⟩
    stations := stationsWith (sawWith [])
    slabs := [slabOf 70215 .staged (some 11), slabOf 70300 .received none]
    placements := plan .planned .planned .planned
    jobs := [jobOf 41 0 0, jobOf 57 0 0]
    rates := ⟨40, 310⟩
    water := { State.reset.water with mode := .normal } }

/-- P0 is RUNNING on saw 11 with its water drawn, P1 and P2 wait behind it (section 4.8). -/
def busy : State :=
  { demo with
    stations := stationsWith (sawWith
      [runningP0, orderOf 1 41 1019 .piece .waiting, orderOf 2 57 1020 .piece .waiting])
    placements := plan .ordered .ordered .ordered
    jobs := [jobOf 41 2 0, jobOf 57 1 0]
    admissionCounter := 1020 }

/-- The kind and payload of the telegram in transmission on a side. -/
def sentOn (side : Side) (s : State) : Option (Nat × List Byte) := (s.tx side).sending.map (fun t => (t.kind, t.payload))

/-- The reason and detail of the REJECT a request gets, on the side it came from. -/
def refusal (i : Instr) (h : Header) (s : State) : Option (List Byte) :=
  match sentOn h.side (after i s) with
  | some (0x21, _ :: r) => some r
  | _ => none

/-- The content of the one-part ANSWER a request gets. -/
def content (i : Instr) (h : Header) (s : State) : Option (List Byte) :=
  match sentOn h.side (after i s) with
  | some (0x20, _ :: 0x11#8 :: r) => some r
  | _ => none

/-- A telegram that State.Passes to its block, as a Bool. -/
def passesB (s : State) (i : Instr) (h : Header) (copy : Bool) : Bool :=
  !s.inReset && !s.badSource h.src &&
    match s.station? h.src, s.kindRule? i.kindCode with
    | some st, some r =>
      decide (st.side = h.side) && decide (st.tier ≤ r.maxTier) && r.classes.getLsbD (classCode st.cls)
        && s.groups.on r.group
        && (match r.disposition with
          | .handle => decide (copy = false) && decide (isRequestKind i.kindCode = true → h.dst = s.address)
          | .handleForward => decide (copy = decide (h.side = .b))
          | .forward => false
          | .drop => false)
    | _, _ => false

theorem passes_of {s : State} {i : Instr} {h : Header} {copy : Bool} (p : passesB s i h copy = true) :
    s.Passes i h copy := by
  unfold passesB at p
  simp only [Bool.and_eq_true, Bool.not_eq_true'] at p
  obtain ⟨⟨h1, h2⟩, p⟩ := p
  refine ⟨h1, h2, ?_⟩
  split at p
  · rename_i st r hs hr
    simp only [Bool.and_eq_true, decide_eq_true_eq] at p
    obtain ⟨⟨⟨⟨a, b⟩, c⟩, d⟩, e⟩ := p
    refine ⟨st, r, hs, a, hr, b, c, d, ?_⟩
    split at e
    · rename_i hd
      simp only [Bool.and_eq_true, decide_eq_true_eq] at e
      exact .inl ⟨hd, e.1, e.2⟩
    · rename_i hd
      simp only [decide_eq_true_eq] at e
      exact .inr ⟨hd, e⟩
    · exact absurd e (by decide)
    · exact absurd e (by decide)
  · exact absurd p (by decide)

theorem all_pass {s : State} {l : List Instr} {h : Header} {copy : Bool}
    (p : l.all (fun i => passesB s i h copy) = true) : ∀ i ∈ l, s.Passes i h copy :=
  fun i hi => passes_of (List.all_eq_true.1 p i hi)

theorem pass_all {ss : List State} {l : List Instr} {h : Header} {copy : Bool}
    (p : ss.all (fun s => l.all (fun i => passesB s i h copy)) = true) : ∀ s ∈ ss, ∀ i ∈ l, s.Passes i h copy :=
  fun s hs => all_pass (List.all_eq_true.1 p s hs)

theorem legal_rules : KindRulesLegal defaultKindRules := by
  refine ⟨rfl, fun r hr => ?_⟩
  have : defaultKindRules.all (fun o => o.all (fun q => decide (q.maxTier ≤ 3))) = true := by decide +kernel
  simpa using List.all_eq_true.1 this _ hr

/-- The clauses of State.Bounded written out, so that evaluation decides each. -/
theorem bounded_of {s : State} (rules : s.kindRules = defaultKindRules)
    (fixed : (1 ≤ s.address ∧ s.address ≤ 30)
      ∧ (constantsForm s.constants.kerf s.constants.margin s.constants.remnantMin s.constants.conserveFeed = true
        ∧ s.rates.recycled ≤ 10000 ∧ s.rates.fresh ≤ 10000)
      ∧ s.closeCounter ≤ max32 ∧ s.admissionCounter ≤ max32 := by decide +kernel)
    (stations : s.stations.Pairwise (fun x y => x.address < y.address) ∧ s.stations.length ≤ maxStations
      ∧ ∀ st ∈ s.stations, (1 ≤ st.address ∧ st.address ≤ 30 ∧ st.saw.isSome = st.cls.isSaw
        ∧ sideOk st.cls st.side = true ∧ tierOk st.cls st.tier = true ∧ (st.state ≠ .attached → st.silence = none)
        ∧ (∀ n ∈ st.silence, n ≤ silenceMs) ∧ ∀ w ∈ st.saw, w.queue.length ≤ maxQueue) ∧ st.address ≠ s.address := by decide +kernel)
    (plans : (s.slabs.Pairwise (fun x y => x.id < y.id) ∧ s.slabs.length ≤ maxSlabs
        ∧ ∀ x ∈ s.slabs, x.defects.length ≤ maxDefects ∧ x.generation ≤ 3)
      ∧ s.placements.Pairwise (fun x y => x.key < y.key) ∧ s.placements.length ≤ maxPlacements
        ∧ ∀ p ∈ s.placements, p.index ≤ 11 := by decide +kernel)
    (jobs : s.jobs.Pairwise (fun x y => x.id < y.id) ∧ s.jobs.length ≤ maxJobs
      ∧ (∀ j ∈ s.jobs, j.material ≤ maxCharge ∧ j.saw ≤ maxCharge ∧ j.wear ≤ maxCharge ∧ j.water ≤ maxCharge
        ∧ j.recycled ≤ max48 ∧ j.fresh ≤ max48 ∧ j.bladeSeconds ≤ max32 ∧ j.piecesCut ≤ 65535)
      ∧ s.bills.Nodup ∧ (∀ b ∈ s.bills, ∃ j ∈ s.jobs, j.id = b ∧ j.state = .closed)
      ∧ ∀ j ∈ s.jobs, j.state = .closed → j.id ∈ s.bills := by decide +kernel)
    (water : s.water.rules.length = maxWaterRules ∧ s.water.share ≤ 1000 ∧ 1 ≤ s.water.windowLength
      ∧ s.water.windowLength ≤ 16 ∧ s.water.windowCount < s.water.windowLength ∧ s.water.allowance ≤ max32
      ∧ s.water.used ≤ max32 := by decide +kernel)
    (shop : s.shop.saw ≤ max63 ∧ s.shop.wear ≤ max63 ∧ s.shop.recycled ≤ max63 ∧ s.shop.fresh ≤ max63
      ∧ s.shop.loss ≤ max63 ∧ s.shop.overflow ≤ max63 := by decide +kernel)
    (link : (s.faults.count ≤ 255 ∧ s.faults.counter ≤ 255
        ∧ (s.faults.record = none → s.faults.moreFaults = false ∧ s.faults.count = 0))
      ∧ (s.txA.waiting.length ≤ maxWaiting ∧ (s.txA.sending = none → s.txA.waiting = []))
      ∧ s.txB.waiting.length ≤ maxWaiting ∧ (s.txB.sending = none → s.txB.waiting = []) := by decide +kernel) : s.Bounded :=
  ⟨fixed.1, rules ▸ legal_rules, fixed.2.1, stations, plans.1, plans.2, jobs, fixed.2.2.1, fixed.2.2.2, water, shop,
    link.1, link.2.1, link.2.2⟩

theorem demo_bounded : demo.Bounded := bounded_of rfl

theorem busy_bounded : busy.Bounded := bounded_of rfl

theorem busy_orderly : busy.Orderly := by
  unfold State.Orderly
  simp only [Station.Orderly, CutOrder.same]
  decide +kernel

theorem busy_sound : busy.Sound := by
  constructor
  case plans => unfold State.PlansKept; decide +kernel
  case beds => unfold State.BedsAgree; decide +kernel
  case remnants => unfold State.RemnantsAgree; decide +kernel
  case fit => unfold State.PlansFit; decide +kernel
  case basis => unfold State.BasisAccounted; decide +kernel
  case pieces => unfold State.PiecesCounted; decide +kernel

/-- Every case is passed to its block, and its request is refused with the reason and detail beside it. -/
def allRefused (h : Header) (copy : Bool) (cases : List (State × Instr × List Byte)) : Bool :=
  cases.all (fun c => passesB c.1 c.2.1 h copy && decide (refusal c.2.1 h c.1 = some c.2.2))

/-! ## Ill-formed commands, one for each check of WellFormed -/

def noHeader : Header := ⟨.a, 0, 2, 7⟩
def goodFields : SawFields := ⟨0x0B, 3400, 2000, 40, [1207], 300, 2400, 9000, 600, 0⟩

theorem test_wf_accepts : ([.coldResetRelease true 31, .announce req 255 (some (70215, 11)),
    .loadStation req 11 3 1 2 (some goodFields), .loadStation req 1 1 0 0 none, .jobLimit req 41 (some 44000) 1,
    .silenceTimerExpiry 30] : List Instr).all Instr.wf = true := by decide +kernel

theorem test_wf_header : ([⟨.a, 0, 2, 7⟩, ⟨.a, 32, 2, 7⟩, ⟨.a, 30, 256, 7⟩, ⟨.a, 30, 2, 256⟩] : List Header).all
    (fun h => !Header.wf h) = true := by decide +kernel

theorem test_wf_rect : ([⟨65536, 0, 1, 1⟩, ⟨0, 65536, 1, 1⟩, ⟨0, 0, 65536, 1⟩, ⟨0, 0, 1, 65536⟩] : List Rect).all
    (fun r => !Rect.wf r) = true := by decide +kernel

theorem test_wf_saw_fields : ([{ goodFields with kindSet := 256 }, { goodFields with bedLength := 65536 },
    { goodFields with bedWidth := 65536 }, { goodFields with maxThickness := 256 },
    { goodFields with materials := List.replicate 12 1 }, { goodFields with materials := [65536] },
    { goodFields with feedMin := 65536 }, { goodFields with feedMax := 65536 },
    { goodFields with sawRate := 4294967296 }, { goodFields with wearRate := 4294967296 },
    { goodFields with patient := 256 }] : List SawFields).all (fun f => !SawFields.wf f) = true := by decide +kernel

theorem test_wf_pins_and_timers : ([.coldResetRelease false 32, .silenceTimerExpiry 0, .silenceTimerExpiry 31,
    .ackTimerExpiry 0, .ackTimerExpiry 31, .deliveryEvaluation 0, .deliveryEvaluation 31] : List Instr).all
    (fun i => !i.wf) = true := by decide +kernel

theorem test_wf_queries : ([.announce req 256 none, .announce req 3 (some (4294967296, 0)), .announce req 3 (some (1, 256)),
    .announce noHeader 3 none, .querySlabRecord req 4294967296, .querySlabDefects req 4294967296,
    .querySlabNext req 4294967296, .queryPlacementEntry req 4294967296 0, .queryPlacementEntry req 1 256,
    .queryPlacementSlab req 4294967296, .queryJobRecord req 4294967296, .queryJobNext req 4294967296, .queryBill req 256,
    .queryStationEntry req 256, .queryStationNext req 256, .queryRule req 256, .queryExcursion req 256,
    .querySlabRecord noHeader 1, .querySlabDefects noHeader 1, .querySlabNext noHeader 1,
    .queryPlacementEntry noHeader 1 0, .queryPlacementSlab noHeader 1, .queryJobRecord noHeader 1,
    .queryJobNext noHeader 1, .queryBill noHeader 1, .queryStationEntry noHeader 1, .queryStationNext noHeader 1,
    .queryRule noHeader 1, .queryWater noHeader, .queryExcursion noHeader 1, .queryFault noHeader, .queryShop noHeader,
    .queryCapability noHeader] : List Instr).all (fun i => !i.wf) = true := by decide +kernel

theorem test_wf_loads : ([.loadStation noHeader 1 1 0 0 none, .loadStation req 256 1 0 0 none,
    .loadStation req 1 256 0 0 none, .loadStation req 1 7 0 0 none, .loadStation req 1 1 256 0 none,
    .loadStation req 1 1 0 256 none, .loadStation req 11 3 1 2 none, .loadStation req 1 1 0 0 (some goodFields),
    .loadStation req 11 3 1 2 (some { goodFields with patient := 256 }), .loadStationNone noHeader 1,
    .loadStationNone req 256, .loadRule noHeader 1 1 1 1, .loadRule req 256 1 1 1, .loadRule req 1 256 1 1,
    .loadRule req 1 1 256 1, .loadRule req 1 1 1 256, .loadGroup noHeader 0, .loadGroup req 256,
    .loadConstants noHeader 4 15 250 800, .loadConstants req 256 15 250 800, .loadConstants req 4 256 250 800,
    .loadConstants req 4 15 65536 800, .loadConstants req 4 15 250 65536, .loadRates noHeader 0 0,
    .loadRates req 65536 0, .loadRates req 0 65536, .loadWaterRule noHeader 0 1 1 1 1 1 1 1,
    .loadWaterRule req 256 1 1 1 1 1 1 1, .loadWaterRule req 0 256 1 1 1 1 1 1, .loadWaterRule req 0 1 256 1 1 1 1 1,
    .loadWaterRule req 0 1 1 256 1 1 1 1, .loadWaterRule req 0 1 1 1 65536 1 1 1, .loadWaterRule req 0 1 1 1 1 65536 1 1,
    .loadWaterRule req 0 1 1 1 1 1 256 1, .loadWaterRule req 0 1 1 1 1 1 1 256, .loadShareWindow noHeader 4,
    .loadShareWindow req 256, .loadAllowance noHeader 1, .loadAllowance req 4294967296, .loadNotices noHeader 1 1 1,
    .loadNotices req 256 1 1, .loadNotices req 1 256 1, .loadNotices req 1 1 256, .clearFault noHeader,
    .releaseLine noHeader, .lineReset noHeader, .renewAllowance noHeader] : List Instr).all
    (fun i => !i.wf) = true := by decide +kernel

theorem test_wf_stock : ([.slabEnter noHeader 1 1 30 3200 1800 0 [], .slabEnter req 4294967296 1 30 3200 1800 0 [],
    .slabEnter req 1 65536 30 3200 1800 0 [], .slabEnter req 1 1 256 3200 1800 0 [], .slabEnter req 1 1 30 65536 1800 0 [],
    .slabEnter req 1 1 30 3200 65536 0 [], .slabEnter req 1 1 30 3200 1800 4294967296 [],
    .slabEnter req 1 1 30 3200 1800 0 (List.replicate 5 ⟨0, 0, 1, 1⟩),
    .slabEnter req 1 1 30 3200 1800 0 [⟨65536, 0, 1, 1⟩], .slabEditLock noHeader 1 0, .slabEditLock req 4294967296 0,
    .slabEditLock req 1 256, .slabEditUnlock noHeader 1, .slabEditUnlock req 4294967296, .slabEditSetBasis noHeader 1 1,
    .slabEditSetBasis req 4294967296 1, .slabEditSetBasis req 1 4294967296, .slabEditAddDefect noHeader 1 ⟨0, 0, 1, 1⟩,
    .slabEditAddDefect req 4294967296 ⟨0, 0, 1, 1⟩, .slabEditAddDefect req 1 ⟨65536, 0, 1, 1⟩, .slabRetire noHeader 1,
    .slabRetire req 4294967296, .slabDoneFinished noHeader 1, .slabDoneFinished req 4294967296, .slabDoneScrap noHeader 1,
    .slabDoneScrap req 4294967296] : List Instr).all (fun i => !i.wf) = true := by decide +kernel

theorem test_wf_plans_and_jobs : ([.place noHeader 1 0 ⟨0, 0, 1, 1⟩ 1 0 0 0, .place req 4294967296 0 ⟨0, 0, 1, 1⟩ 1 0 0 0,
    .place req 1 256 ⟨0, 0, 1, 1⟩ 1 0 0 0, .place req 1 0 ⟨65536, 0, 1, 1⟩ 1 0 0 0,
    .place req 1 0 ⟨0, 0, 1, 1⟩ 4294967296 0 0 0, .place req 1 0 ⟨0, 0, 1, 1⟩ 1 256 0 0,
    .place req 1 0 ⟨0, 0, 1, 1⟩ 1 0 256 0, .place req 1 0 ⟨0, 0, 1, 1⟩ 1 0 0 4294967296, .unplace noHeader 1 0,
    .unplace req 4294967296 0, .unplace req 1 256, .order noHeader 1 1 1 1, .order req 4294967296 1 1 1,
    .order req 1 4294967296 1 1, .order req 1 1 256 1, .order req 1 1 1 65536, .withdraw noHeader 1 1,
    .withdraw req 4294967296 1, .withdraw req 1 256, .jobOpen noHeader 1, .jobOpen req 4294967296,
    .jobLimit noHeader 1 none 0, .jobLimit req 4294967296 none 0, .jobLimit req 1 none 256, .jobLimit req 1 (some 0) 0,
    .jobLimit req 1 (some 281474976710656) 0, .jobClose noHeader 1, .jobClose req 4294967296, .takeBill noHeader none,
    .takeBill req (some 4294967296)] : List Instr).all (fun i => !i.wf) = true := by decide +kernel

theorem test_wf_reports : ([.sawStatus noHeader 1 0 0 0 4 0, .sawStatus req 256 0 0 0 4 0, .sawStatus req 1 256 0 0 4 0,
    .sawStatus req 1 0 256 0 4 0, .sawStatus req 1 0 0 256 4 0, .sawStatus req 1 0 0 0 256 0, .sawStatus req 1 0 0 0 4 65536,
    .orderAck noHeader 1 0, .orderAck req 4294967296 0, .orderAck req 1 256, .orderDecline noHeader 1 0,
    .orderDecline req 4294967296 0, .orderDecline req 1 256, .cutReport noHeader 1 0 0 0, .cutReport req 4294967296 0 0 0,
    .cutReport req 1 256 0 0, .cutReport req 1 0 256 0, .cutReport req 1 0 0 65536, .scanRacked noHeader 1 1 1 0,
    .scanRacked req 4294967296 1 1 0, .scanRacked req 1 256 1 0, .scanRacked req 1 1 256 0, .scanRacked req 1 1 1 256,
    .scanStaged noHeader 1 0 0 1, .scanStaged req 4294967296 0 0 1, .scanStaged req 1 256 0 1, .scanStaged req 1 0 256 1,
    .scanStaged req 1 0 0 256, .scanUnstaged noHeader 1 0 0 0, .scanUnstaged req 4294967296 0 0 0,
    .scanUnstaged req 1 256 0 0, .scanUnstaged req 1 0 256 0, .scanUnstaged req 1 0 0 256, .scanGone noHeader 1 0 0 0,
    .scanGone req 4294967296 0 0 0, .scanGone req 1 256 0 0, .scanGone req 1 0 256 0, .scanGone req 1 0 0 256,
    .waterSample noHeader 1 1 1 1 1, .waterSample req 256 1 1 1 1, .waterSample req 1 65536 1 1 1,
    .waterSample req 1 1 65536 1 1, .waterSample req 1 1 1 65536 1, .waterSample req 1 1 1 1 65536] : List Instr).all
    (fun i => !i.wf) = true := by decide +kernel

/-! ## The link -/

/-- R157: the nine bytes 31H to 39H give 29B1H. -/
theorem test_check_word : checkWord [0x31#8, 0x32#8, 0x33#8, 0x34#8, 0x35#8, 0x36#8, 0x37#8, 0x38#8, 0x39#8] = 0x29B1#16 := by
  decide +kernel

/-- JOB OPEN of job 63 written out by Tables 11-1 and 11-4; its check word was divided out apart from the model. -/
def jobOpenWire : List Byte :=
  [0x1E#8, 0x02#8, 0x10#8, 0x07#8, 0x04#8, 0x00#8, 0x00#8, 0x00#8, 0x3F#8, 0x06#8, 0xDD#8]

theorem test_telegram_runs_its_row : after (.telegramReceived .a jobOpenWire) demo = after (.jobOpen req 63) demo := by
  decide +kernel

/-- R157 step 2: one wrong bit is LINK/CHECK. -/
theorem test_damaged_telegram : (after (.telegramReceived .a (jobOpenWire.set 8 0x3E#8)) demo).faults.record
    = some ⟨.linkCheck, 2, some 0x10, none, none, some (.side .a)⟩ := by decide +kernel

theorem test_no_row_has_bits : decodeTableWord 16 0x0E10 = none := by decide

/-- R155: the oldest waiting telegram goes out next. -/
theorem test_transmitter_advances :
    (after (.transmitComplete .a) (after (.queryBill req 0) (after (.jobOpen req 41) demo))).txA
      = ⟨some ⟨2, 30, 0x21, 7, [0x02#8, 0x04#8]⟩, []⟩ := by decide +kernel

/-- R158: 5 is no station's address. -/
theorem test_unknown_source : (after (.jobOpen ⟨.a, 30, 5, 7⟩ 63) demo).jobs = demo.jobs := by decide +kernel

/-- Table 11-2: the planning station's tier 1 is above LOAD's 0. -/
theorem test_tier_refused : refusal (.loadGroup ⟨.a, 30, 1, 7⟩ 15) ⟨.a, 30, 1, 7⟩ demo = some [0x01#8] := by decide +kernel

theorem test_default_rules : defaultKindRules.length = 64 ∧ defaultKindRules[0x13]? = some (some ⟨.handle, 1, 0x03#8, .quote⟩)
    ∧ defaultKindRules[0x1B]? = some (some ⟨.handleForward, 2, 0x18#8, .base⟩) := by decide +kernel

/-! ## Reset (R169 to R172) -/

theorem test_reset_assert : (after .coldResetAssert busy).inReset = true ∧ (after .coldResetAssert busy).slabs = busy.slabs := by
  decide +kernel

theorem test_reset_address : (after (.coldResetRelease false 31) busy).address = 30
    ∧ (after (.coldResetRelease false 5) busy).address = 5 := by decide +kernel

theorem test_keep_holds_and_reports : (after (.coldResetRelease true 5) busy).slabs = busy.slabs
    ∧ (after (.coldResetRelease true 5) busy).resetReport = .withKeep := by decide +kernel

theorem test_lost_supply_refuses_keep :
    (after (.coldResetRelease true 5) (after .standbyRetentionLoss busy)).resetReport = .keepRefused := by decide +kernel

/-! ## Reading -/

/-- R162: every answer begins with the request's kind and part 1 of its parts. -/
theorem test_queries_are_answered : ([.querySlabRecord req 70215, .querySlabDefects req 70215, .querySlabNext req 0,
    .queryPlacementEntry req 70215 2, .queryPlacementSlab req 70215, .queryJobRecord req 41, .queryJobNext req 41,
    .queryStationEntry req 11, .queryStationNext req 11, .queryRule req 2, .queryWater req, .queryExcursion req 0,
    .queryFault req, .queryShop req, .queryCapability req] : List Instr).all (fun i =>
      match sentOn .a (after i demo) with
      | some (k, a :: b :: _) => decide (k = 0x20) && decide (a = 0x02#8) && decide (b.toNat / 16 = 1)
      | _ => false) = true := by decide +kernel

/-- R145, R144: an empty bill list, and a job that is not there. -/
theorem test_queries_refused : refusal (.queryBill req 1) req demo = some [0x2F#8, 0x00#8]
    ∧ refusal (.queryJobRecord req 63) req demo = some [0x14#8] := by decide +kernel

/-- R119, section 7.7: 12,340 recycled and 4,115 fresh tenths at 40 and 310 are 1,769 cents. -/
theorem test_query_shop : (after (.queryShop req) { demo with shop := ⟨0, 0, 12340, 4115, 0, 0⟩ }).txA.waiting.map
    (fun t => t.payload.drop 8) = [[0x00#8, 0x00#8, 0x00#8, 0x00#8, 0x00#8, 0x00#8, 0x06#8, 0xE9#8]] := by decide +kernel

/-! ## Stock and plans -/

theorem test_slab_enter : (after (.slabEnter req 70216 1207 30 3000 1600 9000 [⟨2850, 600, 150, 200⟩]) demo).slab? 70216
    = some ⟨70216, 1207, 30, 3000, 1600, [⟨2850, 600, 150, 200⟩], 9000, 0, .received, none, none, none, none, 0, false⟩ := by
  decide +kernel

/-- R5: the defect reaches past the far edge. -/
theorem test_slab_enter_form : refusal (.slabEnter req 70216 1207 30 3000 1600 9000 [⟨2851, 600, 150, 200⟩]) req demo
    = some [0x04#8] := by decide +kernel

theorem test_lock_presents : ((after (.slabEditLock req 70215 0) demo).slab? 70215).map Slab.lock = some (some .hold)
    ∧ (after (.slabEditLock req 70215 0) demo).presented = [11] := by decide +kernel

theorem test_unlock_returns_reason :
    content (.slabEditUnlock req 70215) req { demo with slabs := [{ slabOf 70215 .staged (some 11) with lock := some .inspect }] }
      = some [0x01#8, 0x01#8] := by decide +kernel

/-- R8 check 3. -/
theorem test_basis_fixed : refusal (.slabEditSetBasis req 70215 1) req
    { demo with slabs := [{ slabOf 70215 .staged (some 11) with cutMark := true }] } = some [0x27#8] := by decide +kernel

/-- R10: a defect at (2000, 700) meets P1 alone. -/
theorem test_add_defect : content (.slabEditAddDefect req 70215 ⟨2000, 700, 10, 10⟩) req demo = some [0x00#8, 0x01#8]
    ∧ (after (.slabEditAddDefect req 70215 ⟨2000, 700, 10, 10⟩) demo).placement? 70215 1 = none := by decide +kernel

theorem test_retire_bed_busy : refusal (.slabRetire req 70215) req { demo with slabs := [slabOf 70215 .spent (some 11)] }
    = some [0x2A#8] := by decide +kernel

/-- Section 2.9, events 2 and 5. -/
theorem test_place_refused : refusal (.place req 70215 0 ⟨1500, 600, 1200, 640⟩ 41 0 0 0) req
      { demo with placements := [cutPiece 0 41 ⟨20, 20, 2440, 640⟩ .planned] } = some [0x0D#8, 0x00#8]
    ∧ refusal (.place req 70215 3 ⟨2728, 664, 460, 1100⟩ 0 0 0 70216) req demo = some [0x0C#8] := by decide +kernel

/-- Section 2.9, event 6. -/
theorem test_place_remnant : (after (.place req 70215 3 ⟨2728, 664, 440, 1100⟩ 0 0 0 70216) demo).slab? 70216
    = some ⟨70216, 1207, 30, 440, 1100, [], 0, 0, .reserved, none, none, none, some 70215, 1, false⟩ := by decide +kernel

theorem test_unplace : (after (.unplace req 70215 1) demo).placements = [cutPiece 0 41 ⟨20, 20, 2440, 640⟩ .planned,
    cutPiece 2 57 ⟨20, 664, 1500, 900⟩ .planned] := by decide +kernel

/-- Section 2.10, event 4: D0 clipped and moved. -/
theorem test_clipped_defect : clipDefect ⟨2500, 100, 450, 600⟩ ⟨2850, 600, 150, 200⟩ = some ⟨350, 500, 100, 100⟩ := by decide

/-- Section 2.10, events 2 and 3. -/
theorem test_cutout_border : insideParent ⟨100, 100, 2200, 650⟩ ⟨600, 300, 760, 440⟩ = false
    ∧ insideParent ⟨100, 100, 2200, 650⟩ ⟨600, 300, 760, 400⟩ = true := by decide

/-! ## Stations and blades -/

theorem test_load_station : ((after (.loadStation req 12 4 1 2 (some goodFields)) demo).station? 12).map Station.state
    = some .absent := by decide +kernel

theorem test_load_station_none : refusal (.loadStationNone req 2) req demo = some [0x29#8]
    ∧ (after (.loadStationNone req 21) demo).station? 21 = none := by decide +kernel

/-- R45: class 4 announced from a BRIDGE_SAW entry. -/
theorem test_announce_mismatch : refusal (.announce (report 11) 4 none) (report 11) demo = some [0x2C#8] := by decide +kernel

theorem test_announce_attaches : (after (.announce (report 21) 6 none) (silenced 21 demo)).station? 21 = some ⟨21, .b, .scanner, 2, .attached, some 10000, none⟩ := by
  decide +kernel

/-- R48: the expiry that meets a timer restarted by an arrival makes no silence. -/
theorem test_arrival_before_expiry : ((after (.silenceTimerExpiry 21) ((lapsed 21 demo).restartSilence 21)).station? 21).map
    (fun st => (st.state, st.silence)) = some (.attached, some 10000) := by decide +kernel

theorem test_silence : ((silenced 11 busy).saw? 11).map (fun w => (w.ready, w.blade, w.queue.map CutOrder.state))
    = some (false, .unknown, [.inDoubt, .waiting, .waiting]) := by decide +kernel

/-- R51, R52: a changed blade with high vibration is WEAK and its counter 0. -/
theorem test_saw_status_blade : ((after (.sawStatus (report 11) 1 0 1 1 4 0) demo).saw? 11).map
    (fun w => (w.blade, w.bladeSeconds)) = some (.weak, 0) := by decide +kernel

/-- Section 7.7: 40 tenths at share 238 are 10 fresh and 30 recycled. -/
theorem test_saw_status_water : ((after (.sawStatus (report 11) 1 0 0 0 4 40)
    { busy with water := { busy.water with share := 238 } }).order? 70215 0).map (fun o => (o.fresh, o.recycled))
      = some (510, 1380) := by decide +kernel

/-! ## Orders -/

/-- Section 4.8, event 1: feed 2,800 is clamped to 2,400, number 1,018, position 1 of 1. -/
theorem test_order_admitted : content (.order ⟨.a, 11, 2, 7⟩ 41 70215 0 2800) ⟨.a, 11, 2, 7⟩ { demo with admissionCounter := 1017 }
    = some [0x0B#8, 0x00#8, 0x00#8, 0x03#8, 0xFA#8, 0x09#8, 0x60#8, 0x01#8, 0x01#8] := by decide +kernel

/-- Section 4.8, events 3 and 7. -/
theorem test_order_refused :
    refusal (.order ⟨.a, 11, 2, 7⟩ 41 70215 2 1800) ⟨.a, 11, 2, 7⟩ demo = some [0x16#8, 0x01#8, 0x00#8, 0x00#8, 0x00#8, 0x39#8]
    ∧ refusal (.order ⟨.a, 11, 2, 7⟩ 41 70215 1 2000) ⟨.a, 11, 2, 7⟩ busy = some [0x17#8, 0x01#8, 0x01#8] := by decide +kernel

/-- Section 4.8, event 8. -/
theorem test_withdraw : (after (.withdraw req 70215 2) busy).placement? 70215 2 = some (cutPiece 2 57 ⟨20, 664, 1500, 900⟩ .planned)
    ∧ ((after (.withdraw req 70215 2) busy).job? 57).map Job.openOrders = some 0 := by decide +kernel

/-- Section 5.7, event 1: P0 goes to saw 11 with tag 1,018 modulo 256 = 250. -/
theorem test_delivery : (after (.deliveryEvaluation 11) (after (.order ⟨.a, 11, 2, 7⟩ 41 70215 0 2800)
    { demo with admissionCounter := 1017 })).txB = ⟨some ⟨11, 30, 0x0E, 250, [0x00#8, 0x01#8, 0x12#8, 0x47#8, 0x00#8, 0x00#8,
      0x00#8, 0x14#8, 0x00#8, 0x14#8, 0x09#8, 0x88#8, 0x02#8, 0x80#8, 0x04#8, 0x09#8, 0x60#8]⟩, []⟩ := by decide +kernel

/-- The shop after the admission of P0, saw 11 presented, and after its delivery. -/
def admitted : State := after (.order ⟨.a, 11, 2, 7⟩ 41 70215 0 2800) demo
def waiting : State := after (.deliveryEvaluation 11) admitted

theorem test_order_ack : ((after (.orderAck (report 11) 70215 0) waiting).order? 70215 0).map CutOrder.state = some .running := by
  decide +kernel

theorem test_order_decline : (after (.orderDecline (report 11) 70215 0) busy).shop = ⟨0, 0, 1350, 500, 0, 0⟩ := by decide +kernel

/-- R79, R80: a re-send, and the fourth expiry. -/
theorem test_ack_timer : ((unanswered 11 waiting).order? 70215 0).map CutOrder.sends = some 2
    ∧ after (.ackTimerExpiry 11) waiting = waiting
    ∧ ((unanswered 11 (unanswered 11 (unanswered 11 (unanswered 11 waiting)))).station? 11).map Station.state
      = some .silent := by decide +kernel

theorem test_line_reset : ((after (.lineReset req) busy).saw? 11).map (fun w => w.queue.map CutOrder.state) = some [.inDoubt]
    ∧ (after (.lineReset req) busy).line = .held := by decide +kernel

theorem test_release_line : (after (.releaseLine req) { demo with line := .held }).presented = [11] := by decide +kernel

/-! ## Cut reports and charges -/

/-- Section 7.7: P0 DONE with 1,260 blade-seconds, under a limit of 44,000. -/
theorem test_cut_done : ((after (.cutReport (report 11) 70215 0 0 1260)
    { busy with jobs := [{ jobOf 41 2 0 with limit := some 44000 }, jobOf 57 1 0] }).job? 41)
      = some ⟨41, .opened, some 44000, false, true, false, 40441, 3150, 210, 209, 1350, 500, 1260, 1, 1, 1, none⟩ := by
  decide +kernel

/-- Section 7.7: a saw accumulator at 999,999,999,500 takes 3,150. -/
theorem test_cut_saturates : (after (.cutReport (report 11) 70215 0 0 1260)
    { busy with jobs := [{ jobOf 41 2 0 with saw := 999999999500 }, jobOf 57 1 0] }).shop.overflow = 2651 := by decide +kernel

/-- Section 7.7: all four pieces of slab 70215 are CUT, P3 a remnant that names 70216. -/
def allCut : State :=
  { demo with
    slabs := [{ slabOf 70215 .staged (some 11) with allocated := 95297, cutMark := true },
      ⟨70216, 1207, 30, 440, 1100, [], 0, 0, .reserved, none, none, none, some 70215, 1, false⟩]
    placements := plan .cut .cut .cut
      ++ [⟨70215, 3, .remnant, none, ⟨2728, 664, 440, 1100⟩, some 4, none, some 70216, .cut⟩]
    jobs := [{ jobOf 41 0 2 with material := 60363 }, { jobOf 57 0 1 with material := 34934 }] }

/-- Section 8.8, Table 8-4. -/
theorem test_slab_done : (after (.slabDoneFinished req 70215) allCut).jobs.map (fun j => (j.material, j.unsettled))
      = [(85769, 0), (49637, 0)]
    ∧ ((after (.slabDoneFinished req 70215) allCut).slab? 70216).map (fun x => (x.basis, x.state)) = some (12594, .received) := by
  decide +kernel

theorem test_slab_scrap : (after (.slabDoneScrap req 70215) allCut).shop.loss = 40109
    ∧ ((after (.slabDoneScrap req 70215) allCut).slab? 70215).map Slab.state = some .scrapped := by decide +kernel

/-! ## Scans -/

theorem test_scan_racked : (after (.scanRacked (report 21) 70300 12 4 0) demo).slab? 70300
    = some { slabOf 70300 .racked none with rack := some ⟨12, 4⟩ } := by decide +kernel

/-- R14: 70300 staged onto the bed of 70215, which has no active order. -/
theorem test_scan_staged_conflict : ((after (.scanStaged (report 21) 70300 0 0 11) demo).slab? 70215).map
      (fun x => (x.state, x.bed)) = some (.received, none)
    ∧ ((after (.scanStaged (report 21) 70300 0 0 11) demo).saw? 11).map Saw.bed = some (some 70300) := by decide +kernel

theorem test_scan_unstaged : refusal (.scanUnstaged (report 21) 70215 0 0 0) (report 21) busy = some [0x26#8]
    ∧ ((after (.scanUnstaged (report 21) 70215 0 0 0) demo).saw? 11).map Saw.bed = some none := by decide +kernel

theorem test_scan_gone : (after (.scanGone (report 21) 70215 0 0 0) demo).faults.record
    = some ⟨.stockUnknownSlab, 21, some 0x1C, some 70215, none, some (.scanEvent 3)⟩ := by decide +kernel

/-! ## Water -/

/-- Rule 0 of section 6.8: turbidity at or above 350, released below 250, confirmed by 3. -/
def turbidityRule : CompareRule := ⟨true, .turbidity, .atOrAbove, 350, 250, 3, .conserve, .clear, none⟩

/-- Section 6.8, samples 18 to 23: the run of 365 is lost at 340; 372, 380 and 401 make the excursion. -/
theorem test_excursion : ([365, 340, 372, 380, 401].foldl (fun r v => takeSample 9000 v r) turbidityRule).record
      = some ⟨401, 401, 1⟩
    ∧ (takeSample 9000 340 (takeSample 9000 365 turbidityRule)).state = .clear := by decide

/-- Section 6.8, sample 20: the window of 9,600 recycled and 3,000 fresh gives share 238. -/
theorem test_water_sample : (after (.waterSample (report 20) 20 9000 300 2500 800)
    { demo with water := ⟨demo.water.rules, .normal, 250, 4, 3, 7100, 2200, some 19, 0, 0⟩ }).water.share = 238 := by decide +kernel

theorem test_load_water_rule : (after (.loadWaterRule req 0 1 1 1 350 400 3 1) demo).water.rules[0]?
    = some { turbidityRule with release := 350 } := by decide +kernel

/-- Section 12.3: an allowance already used up restricts at once; its renewal lifts the restriction. -/
theorem test_allowance : (after (.loadAllowance req 400000) { demo with water := { demo.water with used := 400300 } }).water.mode
      = .conserve
    ∧ (after (.renewAllowance req) { demo with water := { demo.water with used := 400300, mode := .conserve } }).water.mode
      = .normal := by decide +kernel

theorem test_load_share_window : (after (.loadShareWindow req 4) { demo with water := { demo.water with windowCount := 3 } }).water.windowCount
    = 0 ∧ refusal (.loadShareWindow req 17) req demo = some [0x04#8] := by decide +kernel

/-! ## Loads -/

/-- R164: ANNOUNCE may be copied; a higher tier loosens. -/
theorem test_load_rule : (after (.loadRule req 0x18 2 2 0x08) demo).kindRule? 0x18 = some ⟨.handleForward, 2, 0x08#8, .base⟩
    ∧ refusal (.loadRule req 0x18 1 3 0x08) req demo = some [0x2D#8] := by decide +kernel

theorem test_load_group : (after (.loadGroup req 0) demo).groups = ⟨false, false, false, false⟩
    ∧ (after (.loadGroup req 0) { demo with jobs := [{ jobOf 41 0 0 with limit := some 5 }] }).groups = demo.groups := by
  decide +kernel

theorem test_load_constants : (after (.loadConstants req 5 60 600 3000) demo).constants = ⟨5, 60, 600, 3000⟩
    ∧ refusal (.loadConstants req 11 60 600 3000) req demo = some [0x04#8] := by decide +kernel

theorem test_load_rates : (after (.loadRates req 10000 0) demo).rates = ⟨10000, 0⟩
    ∧ refusal (.loadRates req 10001 0) req demo = some [0x04#8] := by decide +kernel

theorem test_load_notices : (after (.loadNotices req 2 0x3F 0x7F) demo).faults.station = 2
    ∧ refusal (.loadNotices req 5 0x3F 0x7F) req demo = some [0x1A#8] := by decide +kernel

/-- R146, R151: the second fault only sets the flag; a notice of it goes to the notice station. -/
theorem test_faults : (after (.scanGone (report 21) 70300 0 0 0) (after (.scanGone (report 21) 70215 0 0 0) demo)).faults.count = 1
    ∧ (sentOn .a (after (.scanGone (report 21) 70215 0 0 0) (after (.transmitComplete .a)
      (after (.loadNotices req 2 0x08 0) demo)))).map Prod.fst = some 0x22 := by decide +kernel

theorem test_clear_fault : (after (.clearFault req) (after (.scanGone (report 21) 70215 0 0 0) demo)).faults.record = none := by
  decide +kernel

/-! ## Jobs and bills -/

theorem test_job_open : (after (.jobOpen req 63) demo).job? 63 = some (jobOf 63 0 0)
    ∧ refusal (.jobOpen req 41) req demo = some [0x08#8] := by decide +kernel

theorem test_job_limit : ((after (.jobLimit req 41 (some 44000) 1) demo).job? 41).map (fun j => (j.limit, j.hold))
    = some (some 44000, true) := by decide +kernel

/-- R138, R141: with no orders and no unsettled pieces the job is CLOSED at once under number 1, and its plan is gone. -/
theorem test_job_close : ((after (.jobClose req 57) demo).job? 57).map (fun j => (j.state, j.closeNumber)) = some (.closed, some 1)
    ∧ (after (.jobClose req 57) demo).placement? 70215 2 = none := by decide +kernel

theorem test_take_bill : (after (.takeBill req none) (after (.jobClose req 57) demo)).job? 57 = none
    ∧ refusal (.takeBill req none) req demo = some [0x2F#8] := by decide +kernel

/-! ## Witnesses: states and operands that meet the hypotheses of each obligation, clause by clause -/

theorem busy_legal : busy.Legal := ⟨busy_bounded, rfl⟩

/-- A state with one command waiting. -/
def queued (i : Instr) (s : State) : State := { s with pending := [i] }

theorem queued_legal (i : Instr) : (queued i busy).Legal :=
  ⟨⟨busy_bounded.1, busy_bounded.2, busy_bounded.3, busy_bounded.4, busy_bounded.5, busy_bounded.6, busy_bounded.7,
    busy_bounded.8, busy_bounded.9, busy_bounded.10, busy_bounded.11, busy_bounded.12, busy_bounded.13,
    busy_bounded.14⟩, rfl⟩

theorem witness_StepTakesFrontCommandOrTicks : demo.pending = [] ∧ demo.inReset = false
    ∧ (queued (.jobOpen req 63) demo).pending = [.jobOpen req 63] := by decide +kernel

theorem witness_EveryStepKeepsLegal : (queued (.lineReset req) busy).Legal
    ∧ step (queued (.lineReset req) busy) = .next (after (.lineReset req) busy) := ⟨queued_legal _, rfl⟩

theorem witness_EveryStepKeepsOrderly : (queued (.lineReset req) busy).Legal ∧ (queued (.lineReset req) busy).Orderly
    ∧ step (queued (.lineReset req) busy) = .next (after (.lineReset req) busy) := ⟨queued_legal _, busy_orderly, rfl⟩

theorem queued_sound (i : Instr) : (queued i busy).Sound :=
  ⟨busy_sound.1, busy_sound.2, busy_sound.3, busy_sound.4, busy_sound.5, busy_sound.6⟩

/-- P0 is reported DONE and counts as an unsettled piece of job 41. -/
theorem witness_EveryStepKeepsBedsAndCounts :
    let s := queued (.cutReport (report 11) 70215 0 0 1260) busy
    s.Legal ∧ s.Orderly ∧ s.Sound ∧ step s = .next (after (.cutReport (report 11) 70215 0 0 1260) busy)
    ∧ ((after (.cutReport (report 11) 70215 0 0 1260) busy).job? 41).map Job.unsettled = some 1 :=
  ⟨queued_legal _, busy_orderly, queued_sound _, rfl, by decide +kernel⟩

/-- The same report charges the slab's basis with 40,441 cents (section 7.7). -/
theorem witness_EveryStepKeepsPlansAndBasis :
    let s := queued (.cutReport (report 11) 70215 0 0 1260) busy
    s.Legal ∧ s.Orderly ∧ s.Sound ∧ step s = .next (after (.cutReport (report 11) 70215 0 0 1260) busy)
    ∧ ((after (.cutReport (report 11) 70215 0 0 1260) busy).slab? 70215).map Slab.allocated = some 40441 :=
  ⟨queued_legal _, busy_orderly, queued_sound _, rfl, by decide +kernel⟩

theorem witness_ResetAssertedStopsTheLink : (after .coldResetAssert busy).inReset = true
    ∧ (Instr.jobOpen req 63).header? = some req := by decide +kernel

/-- The busy shop with job 57 CLOSING: the shedding of its one waiting order closes it. -/
def windingDown : State := { busy with jobs := [jobOf 41 2 0, { jobOf 57 1 0 with state := .closing }] }

theorem windingDown_orderly : windingDown.Orderly := by
  unfold State.Orderly
  simp only [Station.Orderly, CutOrder.same]
  decide +kernel

theorem witness_ColdResetValues : (false = true → busy.standbyLost = true) ∧ busy.standbyLost = false
    ∧ (after .standbyRetentionLoss busy).standbyLost = true
    ∧ windingDown.Legal ∧ windingDown.Orderly ∧ windingDown.standbyLost = false
    ∧ (∃ o ∈ windingDown.orders, o.state = .waiting ∧ o.job = some 57)
    ∧ (after (.coldResetRelease true 5) windingDown).bills = [57] :=
  ⟨by decide, by decide +kernel, by decide +kernel, ⟨bounded_of rfl, rfl⟩, windingDown_orderly,
    by decide +kernel⟩

theorem witness_FormTestAcceptsWireForms : formTest jobOpenWire = .ok ⟨30, 2, 0x10, 7, [0x00#8, 0x00#8, 0x00#8, 0x3F#8]⟩
    ∧ formTest (⟨31, 255, 63, 255, List.replicate 48 0xFF#8⟩ : Telegram).wire
      = .ok ⟨31, 255, 63, 255, List.replicate 48 0xFF#8⟩ := by decide +kernel

theorem witness_RowPayloadsRoundTrip : (Instr.order ⟨.b, 31, 255, 255⟩ 4294967295 4294967295 255 65535).wf = true
    ∧ (Instr.order ⟨.b, 31, 255, 255⟩ 4294967295 4294967295 255 65535).header? = some ⟨.b, 31, 255, 255⟩ := by decide +kernel

theorem witness_ReceivedTelegramRunsItsRow : (Instr.jobOpen req 63).wf = true
    ∧ (Instr.jobOpen req 63).header? = some req := by decide +kernel

/-- The damaged runs of R157: each disjunct of its third step has its own. -/
def badBytes : List (List Byte) :=
  [(⟨0, 2, 0x10, 7, []⟩ : Telegram).wire, (⟨32, 2, 0x10, 7, []⟩ : Telegram).wire, (⟨30, 2, 64, 7, []⟩ : Telegram).wire,
   (⟨30, 2, 0x10, 7, List.replicate 49 0#8⟩ : Telegram).wire,
   [0x1E#8, 0x02#8, 0x10#8, 0x07#8, 0x01#8] ++ be 2 (checkWord [0x1E#8, 0x02#8, 0x10#8, 0x07#8, 0x01#8]).toNat]

theorem witness_DamagedTelegramsAreDiscarded : demo.inReset = false ∧ [0x1E#8, 0x02#8, 0x10#8].length < 7
    ∧ (7 ≤ (jobOpenWire.set 8 0x3E#8).length
      ∧ be 2 (checkWord ((jobOpenWire.set 8 0x3E#8).take 9)).toNat ≠ (jobOpenWire.set 8 0x3E#8).drop 9)
    ∧ ∀ p ∈ badBytes, 7 ≤ p.length ∧ be 2 (checkWord (p.take (p.length - 2))).toNat = p.drop (p.length - 2)
      ∧ (48 < byteAt p 4 ∨ byteAt p 4 ≠ p.length - 7 ∨ byteAt p 0 = 0 ∨ 31 < byteAt p 0 ∨ 63 < byteAt p 2) := by
  decide +kernel

/-- The sources that R158 discards: 00H, 1FH, the controller's own, one without an entry, one entered on side B. -/
theorem witness_SourceAndGateRefuseInOrder : demo.inReset = false
    ∧ (Instr.jobOpen req 63).kindCode ≠ Kind.announce ∧ (Instr.jobOpen req 63).kindCode ≠ Kind.load
    ∧ demo.address = 30 ∧ demo.station? 5 = none
    ∧ (demo.station? 11).map Station.side = some .b ∧ (Side.b ≠ Side.a)
    ∧ (demo.station? 1).map Station.tier = some 1
    ∧ demo.kindRule? Kind.load = some ⟨.handle, 0, 0x03#8, .base⟩
    ∧ (demo.station? 21).map (fun st => (st.tier, st.side, classCode st.cls)) = some (2, .b, 6)
    ∧ demo.kindRule? Kind.sawStatus = some ⟨.handle, 2, 0x18#8, .base⟩ ∧ (0x18#8).getLsbD 6 = false
    ∧ demo.kindRule? Kind.jobLimit = some ⟨.handle, 1, 0x03#8, .quote⟩ ∧ (0x03#8).getLsbD 0 = true
    ∧ State.reset.groups.on .quote = false := by decide +kernel

/-- A shop-defined telegram from the scanner to the planning station, with its code under FORWARD. -/
def shopTelegram (dst : Nat) : Telegram := ⟨dst, 21, 0x30, 7, [0xAA#8]⟩
def forwarding : State := { demo with kindRules := demo.kindRules.set 0x30 (some ⟨.forward, 3, 0x7F#8, .base⟩) }

/-- Rules of the shop-defined code that refuse the scanner, each with the code of its reason (Table 11-3). -/
def shopRules : List (KindRule × Byte) :=
  [(⟨.forward, 1, 0x7F#8, .base⟩, 0x01#8), (⟨.forward, 3, 0x3F#8, .base⟩, 0x02#8), (⟨.forward, 3, 0x7F#8, .mitre⟩, 0x03#8)]

theorem witness_UnhandledKindsForwardedOrDropped : demo.inReset = false
    ∧ (Instr.jobOpen ⟨.a, 29, 2, 7⟩ 63).kindCode = 0x10 ∧ (29 : Nat) ≠ demo.address
    ∧ demo.kindRule? 0x10 = some ⟨.handle, 1, 0x03#8, .base⟩
    ∧ (demo.station? 2).map (fun st => (st.side, st.tier, (0x03#8).getLsbD (classCode st.cls))) = some (.a, 0, true)
    ∧ (∀ d ∈ [1, 31, 30, 20], (1 ≤ (shopTelegram d).dst ∧ (shopTelegram d).dst ≤ 31
      ∧ parsePayload ((shopTelegram d).header .b) 0x30 [0xAA#8] = none))
    ∧ (demo.station? 21).map Station.side = some .b
    ∧ demo.kindRule? 0x00 = none ∧ parsePayload ((shopTelegram 1).header .b) 0x00 [0xAA#8] = none
    ∧ demo.kindRule? 0x30 = some ⟨.drop, 3, 0x7F#8, .base⟩
    ∧ forwarding.kindRule? 0x30 = some ⟨.forward, 3, 0x7F#8, .base⟩
    ∧ forwarding.station? 5 = none ∧ (forwarding.station? 20).map Station.side = some .b
    ∧ (forwarding.station? 1).map Station.side = some .a
    ∧ (forwarding.station? 21).map (fun st => (decide (st.tier ≤ 3), (0x7F#8).getLsbD (classCode st.cls))) = some (true, true)
    ∧ forwarding.groups.on .base = true
    ∧ (∀ c ∈ shopRules, ((forwarding.kindRules.set 0x30 (some c.1))[0x30]?).join = some c.1
      ∧ sentOn .b (after (.telegramReceived .b (shopTelegram 1).wire)
        { forwarding with kindRules := forwarding.kindRules.set 0x30 (some c.1), groups := ⟨true, false, true, true⟩ })
        = some (0x21, [0x30#8, c.2]))
    ∧ (after (.telegramReceived .a (shopTelegram 1).wire) demo).faults.record
      = some ⟨.stationUnknownSource, 21, some 0x30, none, none, some (.side .a)⟩
    ∧ parsePayload ⟨.a, 29, 2, 7⟩ 0x10 [] = none := by decide +kernel

/-- A locked fault record, and notices to the supervisor. -/
def faulted : State := { demo with faults := ⟨some (brokenFault runningP0), true, 255, 0x3F#8, 0x7F#8, 2, 255⟩ }

/-- A transmitter with n telegrams waiting. -/
def loaded (n : Nat) : State := { demo with txA := ⟨some (shopTelegram 1), List.replicate n (shopTelegram 2)⟩ }

theorem witness_TransmittersKeepOrder : (demo.tx .a).sending = none ∧ ((loaded 0).tx .a).sending = some (shopTelegram 1)
    ∧ ((loaded 0).tx .a).waiting = [] ∧ ((loaded 63).tx .a).waiting.length < 64
    ∧ 64 ≤ ((loaded 64).tx .a).waiting.length ∧ (loaded 64).faults.record = none
    ∧ ((loaded 1).tx .a).waiting = shopTelegram 2 :: []
    ∧ ({ loaded 64 with faults := faulted.faults } : State).faults.record = some (brokenFault runningP0)
    ∧ (({ loaded 64 with faults := faulted.faults } : State).produce .a (shopTelegram 3)).outbox.length = 1
    ∧ ((loaded 64).produce .a { shopTelegram 3 with kind := Kind.notice }).faults.record
      = some ⟨.linkOverrun, 3, some Kind.notice, none, none, some (.side .a)⟩
    ∧ ((loaded 64).produce .a { shopTelegram 3 with kind := Kind.notice }).outbox = [] := by decide +kernel

/-- The shop with the scanner, the recycler and the saw silent. -/
def hushed : State := silenced 21 (silenced 20 (silenced 11 demo))

/-- An ANSWER of no byte, of one part and of two, the two named parts of a bill, and a REJECT with a detail. -/
theorem witness_EventEndsLeaveTheRestAlone : (demo.station? 21).map Station.state = some .attached
    ∧ (hushed.station? 21).map Station.state = some .silent ∧ (20 : Nat) ≠ 21
    ∧ ([Reply.answer [], .answer [0x01#8], .answer (List.replicate 47 0x01#8), .parts [[0x01#8], [0x02#8]],
        .reject .wrongJob [0x01#8]].map (fun r =>
          ((finish (.takeBill req none) req false r demo).txA.sending.toList
            ++ (finish (.takeBill req none) req false r demo).txA.waiting).map (fun t => (t.kind, t.payload.take 2, t.payload.length))))
      = [[(0x20, [0x12#8, 0x11#8], 2)], [(0x20, [0x12#8, 0x11#8], 3)],
         [(0x20, [0x12#8, 0x12#8], 48), (0x20, [0x12#8, 0x22#8], 3)],
         [(0x20, [0x12#8, 0x12#8], 3), (0x20, [0x12#8, 0x22#8], 3)], [(0x21, [0x12#8, 0x16#8], 3)]] := by decide +kernel

theorem witness_LoadRuleTightensOnly :
    (∀ i ∈ [Instr.loadRule req 0x30 0 3 0x7F, .loadRule req 0x18 2 2 0x18, .loadRule req 0x03 1 0 0x02,
      .loadRule req 0x18 1 3 0x18, .loadRule req 0x18 1 2 0x7F, .loadRule req 64 1 0 1, .loadRule req 0x38 1 0 1,
      .loadRule req 0x30 1 3 0x7F, .loadRule req 0x18 3 2 0x18, .loadRule req 0x03 1 0 0x01], demo.Passes i req false)
    ∧ [Instr.loadRule req 64 1 0 1, .loadRule req 0x38 1 0 1, .loadRule req 0x30 1 3 0x7F, .loadRule req 0x18 3 2 0x18,
      .loadRule req 0x03 1 0 0x01].map (fun i => refusal i req demo)
      = [some [0x04#8], some [0x04#8], some [0x04#8], some [0x2D#8],
        some [0x29#8]]
    ∧ decodeDisposition 0 = some .forward ∧ decodeDisposition 2 = some .handleForward ∧ decodeDisposition 1 = some .handle
    ∧ demo.kindRule? 0x30 = some ⟨.drop, 3, 0x7F#8, .base⟩ ∧ demo.kindRule? 0x18 = some ⟨.handle, 2, 0x18#8, .base⟩
    ∧ demo.kindRule? 0x03 = some ⟨.handle, 0, 0x03#8, .base⟩ ∧ (0x02 : Nat).testBit 1 = true
    ∧ BitVec.ofNat 8 0x02 &&& 0x03#8 = BitVec.ofNat 8 0x02 ∧ BitVec.ofNat 8 0x7F &&& 0x18#8 ≠ BitVec.ofNat 8 0x7F :=
  ⟨all_pass (by decide +kernel), by decide +kernel⟩

/-- The shop with P1 a MITRE and the remnant placed. -/
def mixed : State :=
  { allCut with placements := allCut.placements.map (fun p => if p.index = 1 then { p with kind := .mitre } else p) }

theorem witness_MalformedAndUnattachedAreRefused :
    demo.PassesKind 0x10 req false ∧ demo.PassesKind 0x18 (report 11) false ∧ hushed.PassesKind 0x18 (report 11) false
    ∧ parsePayload req 0x10 [] = none ∧ parsePayload (report 11) 0x18 [] = none
    ∧ (demo.station? 11).map Station.state = some .attached ∧ (hushed.station? 11).map Station.state = some .silent
    ∧ hushed.Passes (.orderAck (report 11) 70215 0) (report 11) false
    ∧ (Instr.orderAck (report 11) 70215 0).header? = some (report 11)
    ∧ (Instr.orderAck (report 11) 70215 0).kindCode = Kind.orderAck :=
  ⟨passes_of (i := .jobOpen req 63) (by decide +kernel), passes_of (i := .sawStatus (report 11) 1 0 0 0 4 0) (by decide +kernel),
    passes_of (i := .sawStatus (report 11) 1 0 0 0 4 0) (by decide +kernel), by decide +kernel, by decide +kernel,
    by decide +kernel, by decide +kernel, passes_of (by decide +kernel), by decide +kernel⟩

theorem witness_StockAndPlanQueriesAnswer :
    (∀ i ∈ [Instr.querySlabRecord req 70215, .querySlabDefects req 70215, .queryPlacementSlab req 70215,
      .queryPlacementEntry req 70215 2, .queryPlacementEntry req 70215 3, .querySlabNext req 0,
      .querySlabNext req 70300, .querySlabRecord req 5], demo.Passes i req false)
    ∧ demo.slab? 70215 = some (slabOf 70215 .staged (some 11)) ∧ demo.slab? 5 = none
    ∧ demo.placement? 70215 2 = some (cutPiece 2 57 ⟨20, 664, 1500, 900⟩ .planned) ∧ demo.placement? 70215 3 = none
    ∧ demo.Bounded ∧ (slabOf 70215 .staged (some 11) ∈ demo.slabs ∧ ∀ y ∈ demo.slabs, 0 < y.id → 70215 ≤ y.id)
    ∧ (∀ y ∈ demo.slabs, y.id ≤ 70300) :=
  ⟨all_pass (by decide +kernel), by decide +kernel, by decide +kernel, by decide +kernel, by decide +kernel, demo_bounded,
    by decide +kernel, by decide +kernel⟩

theorem witness_StationJobAndBillQueriesAnswer :
    (∀ i ∈ [Instr.queryStationEntry req 11, .queryStationEntry req 5, .queryStationNext req 0, .queryStationNext req 21,
      .queryJobRecord req 41, .queryJobRecord req 5, .queryJobNext req 0, .queryJobNext req 57, .queryBill req 0,
      .queryBill req 1], demo.Passes i req false)
    ∧ (after (.jobClose req 57) demo).Passes (.queryBill req 1) req false ∧ demo.Bounded
    ∧ ((demo.restartSilence 2).station? 11).isSome = true ∧ (demo.restartSilence 2).station? 5 = none
    ∧ (∃ st ∈ (demo.restartSilence 2).stations, 0 < st.address
      ∧ ∀ x ∈ (demo.restartSilence 2).stations, 0 < x.address → st.address ≤ x.address)
    ∧ (∀ x ∈ (demo.restartSilence 2).stations, x.address ≤ 21)
    ∧ demo.job? 41 = some (jobOf 41 0 0) ∧ demo.job? 5 = none
    ∧ (∃ j ∈ demo.jobs, 0 < j.id ∧ ∀ y ∈ demo.jobs, 0 < y.id → j.id ≤ y.id) ∧ (∀ y ∈ demo.jobs, y.id ≤ 57)
    ∧ demo.bills.length < 1 ∧ 1 ≤ (after (.jobClose req 57) demo).bills.length :=
  ⟨all_pass (by decide +kernel), passes_of (by decide +kernel), demo_bounded, by decide +kernel⟩

theorem witness_RuleWaterFaultShopQueriesAnswer :
    (∀ i ∈ [Instr.queryRule req 64, .queryRule req 63, .queryRule req 0, .queryRule req 0x30, .queryRule req 0x2F,
      .queryRule req 0x23, .queryExcursion req 3, .queryExcursion req 4, .queryWater req, .queryFault req, .queryShop req,
      .queryCapability req], demo.Passes i req false)
    ∧ demo.kindRule? 63 = none ∧ demo.kindRule? 0 = none ∧ (demo.kindRule? 0x30).isSome = true
    ∧ (demo.kindRule? 0x23).isSome = true ∧ (demo.water.rules[3]?).isSome = true ∧ demo.water.rules[4]? = none :=
  ⟨all_pass (by decide +kernel), by decide +kernel⟩

/-- A Stock Table of n records, and a Job Table of n. -/
def stocked (n : Nat) : State := { demo with slabs := (List.range n).map (fun k => slabOf (k + 1) .received none) }
def crowded (n : Nat) : State := { demo with jobs := (List.range n).map (fun k => jobOf (k + 1) 0 0) }

/-- SLAB ENTER with an id of 0, of a slab that is there, with every field at its greatest, and 9 mm thick. -/
def enterRows : List Instr :=
  [.slabEnter req 0 1 10 600 400 0 [], .slabEnter req 70215 1 10 600 400 0 [],
   .slabEnter req 4294967295 65535 50 4000 2200 10000000 [⟨3999, 2199, 1, 1⟩], .slabEnter req 1 1 9 600 400 0 []]

theorem witness_SlabEnterCreatesRecord : (∀ s ∈ [demo, stocked 512, stocked 511], ∀ i ∈ enterRows, s.Passes i req false)
    ∧ (∀ i ∈ enterRows, i.wf = true)
    ∧ demo.slab? 70215 ≠ none ∧ demo.slab? 4294967295 = none ∧ demo.slabs.length < 512
    ∧ (stocked 512).slab? 70215 = none ∧ 512 ≤ (stocked 512).slabs.length
    ∧ (stocked 511).slab? 70215 = none ∧ (stocked 511).slabs.length < 512 :=
  ⟨pass_all (by decide +kernel), by decide +kernel⟩

/-- The shop with one slab of a state, lock, allocated cents and cut mark, on no bed. -/
def oneSlab (st : SlabState) (lock : Option LockReason) (allocated : Nat) (mark : Bool) : State :=
  { demo with slabs := [{ slabOf 70215 st none with lock := lock, allocated := allocated, cutMark := mark }] }

theorem witness_SlabEditsLockAndBasis :
    (∀ s ∈ [demo, oneSlab .spent none 0 false, oneSlab .received (some .hold) 1 false, oneSlab .received none 0 true,
        oneSlab .reserved none 0 false],
      ∀ i ∈ [Instr.slabEditLock req 70215 0, .slabEditLock req 70215 1, .slabEditLock req 70215 2,
        .slabEditUnlock req 70215, .slabEditSetBasis req 70215 10000000, .slabEditSetBasis req 70215 10000001,
        .slabEditLock req 5 1, .slabEditUnlock req 5, .slabEditSetBasis req 5 1],
      s.Passes i req false)
    ∧ demo.slab? 5 = none
    ∧ decodeLock 0 = some .hold ∧ decodeLock 2 = none
    ∧ (demo.slab? 70215).map (fun x => (x.state.isStock, x.lock, x.allocated, x.cutMark)) = some (true, none, 0, false)
    ∧ ((oneSlab .spent none 0 false).slab? 70215).map (fun x => x.state.isStock) = some false
    ∧ ((oneSlab .received (some .hold) 1 false).slab? 70215).map (fun x => (x.lock, x.allocated)) = some (some .hold, 1)
    ∧ ((oneSlab .received none 0 true).slab? 70215).map Slab.cutMark = some true
    ∧ ((oneSlab .reserved none 0 false).slab? 70215).map Slab.state = some .reserved :=
  ⟨pass_all (by decide +kernel), by decide +kernel⟩

theorem witness_ScanRackedMovesSlab :
    (∀ s ∈ [demo, busy, oneSlab .spent none 0 false],
      ∀ i ∈ [Instr.scanRacked (report 21) 70215 63 15 0, .scanRacked (report 21) 70300 0 0 0], s.Passes i (report 21) true)
    ∧ (demo.slab? 70215).map Slab.state = some .staged ∧ (demo.slab? 70300).map Slab.state = some .received
    ∧ (∀ p ∈ demo.placements, ¬ (p.slab = 70215 ∧ p.state = .ordered))
    ∧ (∃ p ∈ busy.placements, p.slab = 70215 ∧ p.state = .ordered) :=
  ⟨pass_all (by decide +kernel), by decide +kernel⟩

/-- The bed of saw 11 free, 70215 on no bed. -/
def bedFree : State := { demo with stations := stationsWith { sawWith [] with bed := none }, slabs := [slabOf 70215 .received none] }

/-- The busy shop with a second saw at 12, its bed free. -/
def twoSaws : State :=
  { busy with stations := (busy.stations.take 3) ++ [{ sawStation { sawWith [] with bed := none } with address := 12 }]
      ++ busy.stations.drop 3 }

theorem witness_ScanStagedPutsSlabOnBed :
    (∀ s ∈ [demo, busy, bedFree, twoSaws],
      ∀ i ∈ [Instr.scanStaged (report 21) 70215 63 15 21, .scanStaged (report 21) 70215 0 0 11,
        .scanStaged (report 21) 70300 0 0 11, .scanStaged (report 21) 70215 0 0 12], s.Passes i (report 21) true)
    ∧ demo.saw? 21 = none ∧ (demo.slab? 70215).map Slab.bed = some (some 11) ∧ (demo.saw? 11).map Saw.bed = some (some 70215)
    ∧ (∃ o ∈ busy.orders, o.slab = 70215 ∧ o.state ≠ .waiting) ∧ (∀ o ∈ demo.orders, o.slab ≠ 70215)
    ∧ (bedFree.saw? 11).map Saw.bed = some none ∧ (bedFree.slab? 70215).map Slab.state = some .received
    ∧ (busy.slab? 70300).map Slab.state = some .received
    ∧ (twoSaws.saw? 12).isSome = true ∧ (∃ o ∈ twoSaws.orders, o.slab = 70215 ∧ o.state ≠ .waiting) :=
  ⟨pass_all (by decide +kernel), by decide +kernel⟩

/-- The four scans of a slab at a rack and slot. -/
def scans (slab rack slot : Nat) : List Instr :=
  [.scanRacked (report 21) slab rack slot 11, .scanStaged (report 21) slab rack slot 11,
   .scanUnstaged (report 21) slab rack slot 11, .scanGone (report 21) slab rack slot 11]

theorem witness_ScanUnstagedAndGone :
    (∀ s ∈ [demo, busy, oneSlab .spent none 0 false],
      ∀ i ∈ [Instr.scanUnstaged (report 21) 70215 63 15 0, .scanUnstaged (report 21) 70300 0 0 0,
        .scanGone (report 21) 70215 0 0 0], s.Passes i (report 21) true)
    ∧ allRefused (report 21) true ((scans 0 63 15 ++ scans 70215 64 15 ++ scans 70215 63 16).map (fun i => (demo, i, [0x04#8]))
      ++ (scans 5 63 15).map (fun i => (demo, i, [0x2B#8]))
      ++ (scans 70215 0 0).map (fun i => (oneSlab .reserved none 0 false, i, [0x2B#8]))
      ++ [(oneSlab .spent none 0 false, .scanStaged (report 21) 70215 0 0 11, [0x06#8])]) = true
    ∧ (demo.slab? 70215).map Slab.state = some .staged ∧ (demo.slab? 70300).map Slab.state = some .received
    ∧ (∀ o ∈ demo.orders, ¬ (o.slab = 70215 ∧ o.state ≠ .waiting)) ∧ (∃ o ∈ busy.orders, o.slab = 70215 ∧ o.state ≠ .waiting)
    ∧ ((oneSlab .spent none 0 false).slab? 70215).map (fun x => x.state.isSettled) = some true
    ∧ (demo.slab? 70215).map (fun x => x.state.isSettled) = some false :=
  ⟨pass_all (by decide +kernel), by decide +kernel, by decide +kernel⟩

/-- 70215 SPENT and still on saw 11. -/
def spentOnBed : State := { demo with slabs := [slabOf 70215 .spent (some 11)] }

theorem witness_SlabRetireFreesRecord :
    (∀ s ∈ [demo, oneSlab .spent none 0 false, spentOnBed], ∀ i ∈ [Instr.slabRetire req 70215, .slabRetire req 5],
      s.Passes i req false)
    ∧ demo.slab? 5 = none ∧ (demo.slab? 70215).map (fun x => x.state.isSettled) = some false
    ∧ (spentOnBed.slab? 70215).map (fun x => (x.state.isSettled, x.bed)) = some (true, some 11)
    ∧ ((oneSlab .spent none 0 false).slab? 70215).map (fun x => (x.state.isSettled, x.bed)) = some (true, none) :=
  ⟨pass_all (by decide +kernel), by decide +kernel⟩

/-- Pieces P0 and P2 of section 2.9: index 1 is free. -/
def holed : State := { demo with placements := [cutPiece 0 41 ⟨20, 20, 2440, 640⟩ .planned, cutPiece 2 57 ⟨20, 664, 1500, 900⟩ .planned] }

/-- The planned pieces with a cutout of P0 and the remnant. -/
def fullPlan : State :=
  { demo with
    slabs := allCut.slabs
    placements := demo.placements ++ [⟨70215, 3, .remnant, none, ⟨2728, 664, 440, 1100⟩, some 4, none, some 70216, .planned⟩,
      ⟨70215, 4, .cutout, some 41, ⟨70, 70, 2340, 540⟩, none, some 0, none, .planned⟩] }

/-- The demonstration shop with slab 70215 changed. -/
def withSlab (f : Slab → Slab) : State := { demo with slabs := [f (slabOf 70215 .staged (some 11)), slabOf 70300 .received none] }

/-- A PLACE of a piece, a cutout of the placement at an index, and a remnant. -/
def pieceAt (r : Rect) : Instr := .place req 70215 0 r 41 0 0 0
def cutoutAt (job parent : Nat) (r : Rect) : Instr := .place req 70215 2 r job 1 parent 0
def remnantAt (id : Nat) (r : Rect) : Instr := .place req 70215 3 r 0 0 0 id

/-- P1 of section 2.9. -/
def p1 : Rect := ⟨1524, 664, 1200, 640⟩

/-- For each check of PLACE, a shop in which it is the first to fail, the request, and the reason and detail of the REJECT by
Table 11-3. -/
def placeCases : List (State × Instr × List Byte) :=
  [(holed, pieceAt { p1 with length := 99 }, [0x04#8]), (holed, pieceAt { p1 with x := 4001 }, [0x04#8]),
   (holed, .place req 70215 4 p1 41 0 0 0, [0x04#8]), (holed, .place req 70215 1 p1 0 0 0 0, [0x04#8]),
   (holed, .place req 70215 2 ⟨70, 70, 10, 10⟩ 41 0 0 0, [0x04#8]), (holed, cutoutAt 41 12 ⟨70, 70, 10, 10⟩, [0x04#8]),
   (holed, remnantAt 0 p1, [0x04#8]), (holed, .place req 70215 3 p1 41 0 0 9, [0x04#8]),
   ({ holed with groups := ⟨true, false, true, true⟩ }, .place req 70215 1 p1 41 0 0 0, [0x03#8]),
   ({ holed with groups := ⟨true, true, false, true⟩ }, cutoutAt 41 0 ⟨70, 70, 10, 10⟩, [0x03#8]),
   ({ holed with groups := ⟨false, true, true, true⟩ }, remnantAt 9 p1, [0x03#8]),
   (holed, .place req 5 0 p1 41 0 0 0, [0x05#8]), (oneSlab .reserved none 0 false, pieceAt p1, [0x06#8]),
   (oneSlab .received (some .hold) 0 false, pieceAt p1, [0x07#8]), ({ holed with jobs := [] }, pieceAt p1, [0x14#8]),
   ({ holed with jobs := [{ jobOf 41 0 0 with state := .closing }] }, pieceAt p1, [0x15#8]),
   ({ demo with placements := (List.range 12).map (fun n => cutPiece n 41 ⟨20, 20, 100, 50⟩ .planned) }, pieceAt p1, [0x0B#8]),
   ({ demo with placements := (List.range 1536).map (fun n => { cutPiece (n % 12) 41 p1 .planned with slab := n / 12 + 1 }) },
     pieceAt p1, [0x0A#8]),
   (holed, pieceAt { p1 with x := 19 }, [0x0C#8]), (holed, pieceAt { p1 with length := 1653 }, [0x0C#8]),
   (holed, remnantAt 9 { p1 with width := 1113 }, [0x0C#8]), (holed, pieceAt ⟨1500, 600, 1200, 640⟩, [0x0D#8, 0x00#8]),
   (withSlab (fun x => { x with defects := [⟨0, 0, 1, 1⟩, ⟨2727, 1307, 1, 1⟩] }), .place req 70215 1 ⟨2724, 664, 100, 640⟩ 57 0 0 0,
     [0x0D#8, 0x01#8]),
   ({ holed with slabs := [{ slabOf 70215 .staged (some 11) with defects := [⟨0, 0, 1, 1⟩, ⟨2727, 1307, 1, 1⟩] }] }, pieceAt p1,
     [0x0E#8, 0x01#8]),
   (demo, cutoutAt 41 3 ⟨70, 70, 10, 10⟩, [0x12#8]), (demo, cutoutAt 57 0 ⟨70, 70, 10, 10⟩, [0x12#8]),
   (busy, cutoutAt 41 0 ⟨70, 70, 10, 10⟩, [0x12#8]), (demo, cutoutAt 41 0 ⟨69, 70, 2340, 540⟩, [0x13#8]),
   (demo, cutoutAt 41 0 ⟨70, 70, 2341, 540⟩, [0x13#8]),
   ({ demo with placements := demo.placements ++ [3, 4, 5].map (fun n =>
       ⟨70215, n, .cutout, some 41, ⟨70, 70, 10, 10⟩, none, some 0, none, .cut⟩) }, cutoutAt 41 0 ⟨70, 70, 10, 10⟩, [0x0B#8]),
   (fullPlan, cutoutAt 41 0 ⟨2400, 600, 10, 10⟩, [0x0D#8, 0x04#8]), (demo, remnantAt 9 ⟨2728, 664, 249, 1100⟩, [0x10#8]),
   (withSlab (fun x => { x with generation := 3 }), remnantAt 9 ⟨2728, 664, 440, 1100⟩, [0x11#8]),
   (demo, remnantAt 70300 ⟨2728, 664, 440, 1100⟩, [0x08#8]),
   ({ demo with slabs := demo.slabs ++ (List.range 510).map (fun k => slabOf (k + 80000) .received none) },
     remnantAt 9 ⟨2728, 664, 440, 1100⟩, [0x09#8])]

/-- P1 of section 2.9 touches P0 on y and P2 on x; index 1 is the lowest free one. -/
theorem witness_PlacePieceTakesLowestIndex :
    (∀ k ∈ [0, 1], holed.Passes (.place req 70215 k p1 41 0 0 0) req false) ∧ allRefused req false placeCases = true
    ∧ decodeKind 0 = some .piece ∧ decodeKind 1 = some .mitre ∧ holed.groups.mitre = true
    ∧ holed.slab? 70215 = some (slabOf 70215 .staged (some 11)) ∧ holed.job? 41 = some (jobOf 41 0 0)
    ∧ holed.placements.length < 1536 ∧ (holed.placementsOf 70215).length < 12
    ∧ 20 ≤ 1524 ∧ 20 ≤ 664 ∧ 1524 + 1200 + 4 + 20 ≤ 3200 ∧ 664 + 640 + 4 + 20 ≤ 1800
    ∧ (∀ n < 12, ∀ p ∈ holed.placement? 70215 n, ∀ q ∈ p.reserved, (⟨1524, 664, 1204, 644⟩ : Rect).meets q = false)
    ∧ holed.placement? 70215 1 = none ∧ (∀ m < 1, holed.placement? 70215 m ≠ none) :=
  ⟨fun k hk => by
    have : k = 0 ∨ k = 1 := by simpa using hk
    rcases this with rfl | rfl <;> exact passes_of (by decide +kernel), by decide +kernel, by decide +kernel⟩

/-- P3 of section 2.9. -/
theorem witness_PlaceRemnantReservesRecord :
    demo.Passes (.place req 70215 3 ⟨2728, 664, 440, 1100⟩ 0 0 0 70216) req false ∧ demo.groups.remnant = true
    ∧ demo.slab? 70215 = some (slabOf 70215 .staged (some 11)) ∧ (slabOf 70215 .staged (some 11)).generation < 3
    ∧ demo.placements.length < 1536 ∧ (demo.placementsOf 70215).length < 12
    ∧ 20 ≤ 2728 ∧ 20 ≤ 664 ∧ 2728 + 440 + 4 + 20 ≤ 3200 ∧ 664 + 1100 + 4 + 20 ≤ 1800
    ∧ (∀ n < 12, ∀ p ∈ demo.placement? 70215 n, ∀ q ∈ p.reserved, (⟨2728, 664, 444, 1104⟩ : Rect).meets q = false)
    ∧ 250 ≤ 440 ∧ demo.slab? 70216 = none ∧ demo.slabs.length < 512
    ∧ demo.placement? 70215 3 = none ∧ (∀ m < 3, demo.placement? 70215 m ≠ none) :=
  ⟨passes_of (by decide +kernel), by decide +kernel⟩

/-- A cutout with exactly 50 mm to spare on every side of P0. -/
theorem witness_PlaceCutoutWithinParent :
    demo.Passes (.place req 70215 2 ⟨70, 70, 2340, 540⟩ 41 1 0 0) req false ∧ demo.groups.cutout = true
    ∧ demo.slab? 70215 = some (slabOf 70215 .staged (some 11)) ∧ demo.job? 41 = some (jobOf 41 0 0)
    ∧ demo.placement? 70215 0 = some (cutPiece 0 41 ⟨20, 20, 2440, 640⟩ .planned)
    ∧ 20 + 50 ≤ 70 ∧ 70 + 2340 + 50 ≤ 20 + 2440 ∧ 70 + 540 + 50 ≤ 20 + 640 ∧ (demo.cutoutsOf 70215 0).length < 3
    ∧ (∀ n < 12, ∀ c ∈ demo.placement? 70215 n, c.kind ≠ .cutout)
    ∧ demo.placement? 70215 3 = none ∧ (∀ m < 3, demo.placement? 70215 m ≠ none) :=
  ⟨passes_of (by decide +kernel), by decide +kernel⟩

/-- P0 is committed: its cutout at index 4 is CUT. -/
def committed : State :=
  { fullPlan with placements := fullPlan.placements.map (fun p => if p.index = 4 then { p with state := .cut } else p) }

/-- For each check of ADD DEFECT and UNPLACE, a shop in which it is the first to fail, the request, and the REJECT. -/
def removalCases : List (State × Instr × List Byte) :=
  [(demo, .slabEditAddDefect req 5 ⟨0, 0, 1, 1⟩, [0x05#8]),
   (oneSlab .spent none 0 false, .slabEditAddDefect req 70215 ⟨0, 0, 1, 1⟩, [0x06#8]),
   (oneSlab .reserved none 0 false, .slabEditAddDefect req 70215 ⟨0, 0, 1, 1⟩, [0x06#8]),
   (demo, .slabEditAddDefect req 70215 ⟨3199, 1799, 2, 1⟩, [0x04#8]),
   (demo, .slabEditAddDefect req 70215 ⟨3199, 1799, 1, 0⟩, [0x04#8]),
   (withSlab (fun x => { x with defects := List.replicate 4 ⟨0, 0, 1, 1⟩ }), .slabEditAddDefect req 70215 ⟨0, 0, 1, 1⟩, [0x09#8]),
   (busy, .slabEditAddDefect req 70215 ⟨1523, 663, 2, 2⟩, [0x0F#8, 0x00#8]),
   (committed, .slabEditAddDefect req 70215 ⟨20, 20, 1, 1⟩, [0x0F#8, 0x00#8]),
   (fullPlan, .unplace req 5 0, [0x05#8]), (fullPlan, .unplace req 70215 9, [0x17#8]), (busy, .unplace req 70215 0, [0x17#8]),
   (committed, .unplace req 70215 0, [0x17#8, 0x04#8])]

theorem witness_AddDefectAndUnplaceRemovePlans :
    demo.Bounded ∧ busy.Bounded ∧ fullPlan.Bounded ∧ committed.Bounded ∧ allRefused req false removalCases = true
    ∧ (∀ i ∈ [Instr.slabEditAddDefect req 70215 ⟨3199, 1799, 1, 1⟩, .slabEditAddDefect req 70215 ⟨2000, 700, 10, 10⟩],
      demo.Passes i req false)
    ∧ demo.slab? 70215 = some (slabOf 70215 .staged (some 11)) ∧ (∀ p ∈ demo.placements, p.state = .planned)
    ∧ (∃ p ∈ demo.placements, p.meetsRect ⟨2000, 700, 10, 10⟩ = true)
    ∧ (∀ i ∈ [Instr.slabEditAddDefect req 70215 ⟨20, 20, 1, 1⟩, .unplace req 70215 0, .unplace req 70215 3,
      .unplace req 70215 4], fullPlan.Passes i req false)
    ∧ (after (.slabEditAddDefect req 70215 ⟨20, 20, 1, 1⟩) fullPlan).placements.map Placement.index = [1, 2, 3]
    ∧ (fullPlan.placement? 70215 4).map Placement.kind = some .cutout
    ∧ (fullPlan.placement? 70215 3).map (fun p => (p.kind, p.remnantSlab)) = some (.remnant, some 70216)
    ∧ (fullPlan.placement? 70215 0).map (fun p => p.kind.isPiece) = some true
    ∧ (∀ c ∈ fullPlan.cutoutsOf 70215 0, c.state = .planned) ∧ (fullPlan.cutoutsOf 70215 0).length = 1
    ∧ (fullPlan.slab? 70215).isSome = true :=
  ⟨demo_bounded, busy_bounded, bounded_of rfl, bounded_of rfl, by decide +kernel,
    all_pass (by decide +kernel), by decide +kernel, by decide +kernel, by decide +kernel, all_pass (by decide +kernel),
    by decide +kernel⟩

/-- The shop with another saw part at 11. -/
def withSaw (w : Saw) : State := { demo with stations := stationsWith w }

/-- A LOAD STATION of a bridge saw at 12. -/
def sawLoad (f : SawFields) : Instr := .loadStation req 12 3 1 2 (some f)

/-- A station table of the supervisor and n entries after it. -/
def tableOf (n : Nat) (f : Nat → Station) : State :=
  { demo with stations := ⟨2, .a, .supervisor, 0, .attached, some 10000, none⟩ :: (List.range n).map (fun k => f (k + 3)) }

/-- Loads out of form, and loads that break one placement rule of the classes, in the order of R40. -/
def loadCases : List (State × Instr × List Byte) :=
  ([.loadStation req 0 6 1 2 none, .loadStation req 31 6 1 2 none, .loadStation req 30 6 1 2 none,
    .loadStation req 12 7 1 2 none, .loadStation req 12 6 2 2 none, .loadStation req 12 6 1 4 none,
    .loadStation req 12 6 1 0 none, .loadStation req 2 1 0 1 none, .loadStation req 12 6 1 2 (some goodFields),
    .loadStation req 12 3 1 2 none, sawLoad { goodFields with kindSet := 0 }, sawLoad { goodFields with kindSet := 16 },
    sawLoad { goodFields with bedLength := 599 }, sawLoad { goodFields with bedWidth := 2201 },
    sawLoad { goodFields with maxThickness := 51 }, sawLoad { goodFields with materials := [1, 2, 3, 4, 5] },
    sawLoad { goodFields with materials := [0] }, sawLoad { goodFields with feedMin := 0 },
    sawLoad { goodFields with feedMin := 2401 }, sawLoad { goodFields with feedMax := 20001 },
    sawLoad { goodFields with sawRate := 100001 }, sawLoad { goodFields with wearRate := 100001 },
    sawLoad { goodFields with patient := 2 }] : List Instr).map (fun i => (demo, i, [0x04#8]))
  ++ [(demo, .loadStation req 12 6 0 2 none, [0x2E#8]), (demo, .loadStation req 12 0 1 2 none, [0x2E#8]),
    (tableOf 8 (fun a => { sawStation (sawWith []) with address := a }), sawLoad goodFields, [0x09#8]),
    (demo, .loadStation req 12 5 1 2 none, [0x09#8]), (demo, .loadStation req 12 1 0 0 none, [0x09#8]),
    (tableOf 23 (fun a => ⟨a, .b, .scanner, 2, .absent, none, none⟩), .loadStation req 26 6 1 2 none, [0x09#8]),
    (demo, .loadStation req 2 2 0 2 none, [0x29#8]), (demo, .loadStation req 11 4 1 2 (some goodFields), [0x29#8]),
    ({ demo with faults := { demo.faults with station := 21 } }, .loadStation req 21 2 1 2 none, [0x29#8])]

/-- The commissioning load of R43, from the station at 2, and a table full without a SUPERVISOR. -/
def commissioning : Instr := .loadStation req 2 1 0 0 none
def headless : State :=
  { demo with stations := (List.range 24).map (fun k => ⟨k + 3, .b, .scanner, 2, .absent, none, none⟩) }

/-- Entries created at 29 and 12, and entries 11 and 21 loaded again, and entries 21 and 20 replaced. -/
theorem witness_LoadStationCreatesOrUpdates :
    allRefused req false loadCases = true
    ∧ (∀ s ∈ [State.reset, headless], s.inReset = false ∧ s.address = 30 ∧ s.station? 2 = none
      ∧ (∀ st ∈ s.stations, st.cls ≠ .supervisor) ∧ s.kindRule? Kind.load = some ⟨.handle, 0, 0x03#8, .base⟩
      ∧ s.groups.on .base = true)
    ∧ (0x03#8).getLsbD 1 = true ∧ 24 ≤ headless.stations.length ∧ State.reset.stations.length < 24
    ∧ ((after commissioning State.reset).station? 2).map Station.cls = some .supervisor
    ∧ (∀ i ∈ [Instr.loadGroup req 15, .loadStation req 3 1 0 0 none, .loadStation ⟨.b, 30, 2, 7⟩ 2 1 0 0 none,
        .loadStation ⟨.a, 29, 2, 7⟩ 2 1 0 0 none], i.wf = true ∧ i.kindCode = Kind.load
      ∧ (after i State.reset).stations = [] ∧ (after i State.reset).faults.record.isSome = true)
    ∧ (∀ i ∈ [Instr.loadStation req 29 2 0 3 none, .loadStation req 12 3 1 2 (some goodFields),
      .loadStation req 11 3 1 1 (some goodFields), .loadStation req 21 6 1 3 none, .loadStation req 21 2 1 3 none,
      .loadStation req 20 2 1 3 none], demo.Passes i req false)
    ∧ hushed.Passes (.loadStation req 20 2 1 3 none) req false
    ∧ decodeClass 2 = some .panel ∧ sideOk .panel .a = true ∧ sideOk .panel .b = true ∧ decodeClass 3 = some .bridgeSaw
    ∧ sideOk .bridgeSaw .b = true ∧ decodeClass 6 = some .scanner ∧ sideOk .scanner .b = true
    ∧ sawConfigOf goodFields = some ⟨0x0B#8, 3400, 2000, 40, [1207], 300, 2400, 9000, 600, false⟩
    ∧ (demo.stations.filter (fun st => decide (st.address ≠ 12))).countP (fun st => st.cls.isSaw) < 8
    ∧ demo.station? 29 = none ∧ demo.station? 12 = none ∧ demo.stations.length < 24
    ∧ ((demo.restartSilence 2).station? 11).map (fun st => (st.cls, st.side, st.saw.isSome)) = some (.bridgeSaw, .b, true)
    ∧ ((demo.restartSilence 2).station? 21).map (fun st => (st.cls, st.side, st.saw.isSome)) = some (.scanner, .b, false)
    ∧ ((demo.restartSilence 2).station? 20).map (fun st => (st.cls, st.state)) = some (.recycler, .attached)
    ∧ ((hushed.restartSilence 2).station? 20).map (fun st => (st.cls, st.state)) = some (.recycler, .silent)
    ∧ demo.water.mode = .normal ∧ (after (.loadStation req 20 2 1 3 none) demo).water.mode = .unsure :=
  ⟨by decide +kernel, by decide +kernel, by decide +kernel, by decide +kernel, by decide +kernel, by decide +kernel,
    by decide +kernel, all_pass (by decide +kernel), passes_of (by decide +kernel), by decide +kernel⟩

theorem witness_LoadStationNoneFreesEntry :
    (∀ s ∈ [demo, hushed, { demo with faults := { demo.faults with station := 21 } }],
      ∀ i ∈ [Instr.loadStationNone req 2, .loadStationNone req 11, .loadStationNone req 20, .loadStationNone req 21,
        .loadStationNone req 0, .loadStationNone req 30, .loadStationNone req 31, .loadStationNone req 29],
      s.Passes i req false)
    ∧ allRefused req false [(demo, .loadStationNone req 0, [0x04#8]), (demo, .loadStationNone req 30, [0x04#8]),
      (demo, .loadStationNone req 31, [0x04#8]), (demo, .loadStationNone req 29, [0x1A#8])] = true ∧ demo.station? 29 = none
    ∧ (demo.station? 2).map Station.cls = some .supervisor ∧ (demo.saw? 11).map Saw.bed = some (some 70215)
    ∧ (demo.station? 21).map (fun st => (st.cls, st.saw)) = some (.scanner, none) ∧ demo.faults.station = 0
    ∧ (demo.station? 20).map (fun st => (st.cls, st.saw, st.state)) = some (.recycler, none, .attached)
    ∧ (hushed.station? 20).map Station.state = some .silent :=
  ⟨pass_all (by decide +kernel), by decide +kernel⟩

/-- Saw 11 silent after its fourth expiry, P0 waiting again and still its last-delivered order. -/
def returned : State :=
  { busy with
    stations := stationsWith (sawWith []) |>.map (fun st => if st.address = 11 then { st with
      state := .silent
      silence := none
      saw := some { sawWith [orderOf 0 41 1018 .piece .waiting] with ready := false, blade := .unknown, kerf := none, lastDelivered := some (70215, 0) } } else st)
    placements := plan .ordered .planned .planned
    jobs := [jobOf 41 1 0, jobOf 57 0 0] }

theorem returned_legal : returned.Legal := ⟨bounded_of rfl, rfl⟩

theorem returned_orderly : returned.Orderly := by
  unfold State.Orderly
  simp only [Station.Orderly, CutOrder.same]
  decide +kernel

/-- P0 was running when saw 11 fell silent. -/
def doubtful : State := silenced 11 busy

theorem doubtful_orderly : doubtful.Orderly := by
  unfold State.Orderly
  simp only [Station.Orderly, CutOrder.same]
  decide +kernel

/-- Rules of ANNOUNCE that refuse the scanner, each with its reason. -/
def announceRules : List (State × Option (List Byte)) :=
  [(⟨.handle, 1, 0x7F#8, .base⟩, 0x01#8), (⟨.handleForward, 3, 0x3F#8, .base⟩, 0x02#8),
    (⟨.handle, 3, 0x7F#8, .mitre⟩, 0x03#8)].map (fun (c : KindRule × Byte) =>
      ({ demo with kindRules := demo.kindRules.set 1 (some c.1), groups := ⟨true, false, true, true⟩ }, some [c.2]))

/-- P0 IN_DOUBT is named, or abandoned where the saw names nothing or P1; a silent saw names its last-delivered order, or
work it was never given. -/
theorem witness_AnnounceIsMatchedThenAttaches :
    demo.inReset = false ∧ demo.station? 5 = none
    ∧ demo.badSource 11 = false ∧ (demo.station? 11).map (fun st => (st.side, classCode st.cls)) = some (.b, 3)
    ∧ demo.kindRule? Kind.announce = some ⟨.handle, 3, 0x7F#8, .base⟩
    ∧ refusal (.announce (report 11) 7 none) (report 11) demo = some [0x2C#8]
    ∧ demo.Passes (.announce (report 21) 6 none) (report 21) false
    ∧ hushed.Passes (.announce (report 21) 6 none) (report 21) false
    ∧ hushed.Passes (.announce (report 20) 5 none) (report 20) false
    ∧ (∀ s ∈ [hushed, doubtful, returned], ∀ i ∈ [Instr.announce (report 11) 3 none, .announce (report 11) 3 (some (70215, 0)),
      .announce (report 11) 3 (some (70215, 1))], s.Passes i (report 11) false)
    ∧ doubtful.Legal ∧ doubtful.Orderly
    ∧ refusal (.announce (report 21) 6 (some (70215, 0))) (report 21) demo = some [0x04#8]
    ∧ (announceRules.map (fun c => refusal (.announce (report 21) 6 none) (report 21) c.1)) = announceRules.map Prod.snd
    ∧ (∀ l ∈ [[], [0x06#8], [0x03#8]], parsePayload (report 21) Kind.announce l = none)
    ∧ ([[], [0x06#8], [0x03#8]].map (fun l => sentOn .b (after (.telegramReceived .b
        (Telegram.mk 30 21 Kind.announce 7 l).wire) demo))) = [0x04#8, 0x04#8, 0x2C#8].map (fun r => some (0x21, [0x01#8, r]))
    ∧ hushed.recycler? = hushed.station? 20 ∧ (hushed.station? 20).map Station.state = some .silent
    ∧ (hushed.saw? 11).map (fun w => (w.queue, w.lastDelivered)) = some ([], none)
    ∧ (returned.saw? 11).map (fun w => (w.queue.map CutOrder.state, w.lastDelivered)) = some ([.waiting], some (70215, 0))
    ∧ (doubtful.saw? 11).map (fun w => (w.queue.find? (fun x => decide (x.state = .inDoubt))).map (fun o => (o.slab, o.index)))
      = some (some (70215, 0)) :=
  ⟨by decide +kernel, by decide +kernel, by decide +kernel, by decide +kernel, by decide +kernel, by decide +kernel,
    passes_of (by decide +kernel), passes_of (by decide +kernel), passes_of (by decide +kernel), pass_all (by decide +kernel),
    ⟨bounded_of rfl, rfl⟩, doubtful_orderly, by decide +kernel⟩

theorem witness_SilenceMakesStationSilent :
    (∀ a ∈ [11, 20, 21], ((lapsed a demo).station? a).map (fun st => (st.state, st.silence)) = some (.attached, some 0))
    ∧ (demo.station? 21).map (fun st => (st.state, st.silence)) = some (.attached, some 10000)
    ∧ (demo.station? 11).map (fun st => st.cls.isSaw) = some true ∧ (demo.station? 20).map Station.cls = some .recycler
    ∧ demo.water.mode = .normal ∧ ({ demo with water := State.reset.water } : State).water.mode = .unsure
    ∧ (hushed.station? 21).map (fun st => (st.state, st.silence)) = some (.silent, none) := by decide +kernel

/-- P0's running order as a REMNANT's. -/
def remnantRuns : State := withSaw (sawWith [{ runningP0 with kind := .remnant, job := none }])

theorem witness_SawStatusSetsBladeAndWater :
    (∀ s ∈ [demo, busy, remnantRuns], ∀ i ∈ [Instr.sawStatus (report 11) 0 0 1 1 1 0, .sawStatus (report 11) 1 1 0 0 10 65535,
      .sawStatus (report 11) 2 0 0 0 4 0, .sawStatus (report 11) 1 0 0 0 0 0, .sawStatus (report 11) 1 0 0 0 11 0],
      s.Passes i (report 11) false)
    ∧ (demo.station? 11).map Station.state = some .attached ∧ (demo.saw? 11).bind Saw.active = none
    ∧ (busy.saw? 11).bind Saw.active = some runningP0 ∧ runningP0.kind ≠ .remnant
    ∧ ((remnantRuns.saw? 11).bind Saw.active).map (fun o => (o.state, o.kind)) = some (.running, .remnant) :=
  ⟨pass_all (by decide +kernel), by decide +kernel⟩

/-- ORDER of index 0 for job 41 to saw 11, and to a second saw at 12. -/
def toSaw (a job index : Nat) : Instr := .order ⟨.a, a, 2, 7⟩ job 70215 index 2000

/-- A second saw at 12 that holds an order of P1, the slab not staged. -/
def split : State :=
  { demo with
    stations := demo.stations.take 3 ++ [{ sawStation { sawWith [{ orderOf 1 41 7 .piece .waiting with saw := 12 }] with bed := none }
      with address := 12 }] ++ demo.stations.drop 3
    slabs := [slabOf 70215 .received none] }

/-- A saw that takes cutouts, under CONSERVE. -/
def cutoutsHeld : State :=
  { fullPlan with
    stations := stationsWith { sawWith [] with config := { sawConfig with kinds := 0x0F#8 } }
    water := { demo.water with mode := .conserve } }

/-- For each part of the nine checks, a shop in which it is the first to fail, the order, and the reason and detail of the
REJECT by Table 4-2. -/
def orderCases : List (State × Instr × List Byte) :=
  [(oneSlab .reserved none 0 false, toSaw 11 41 0, [0x05#8]), (oneSlab .spent none 0 false, toSaw 11 41 0, [0x06#8, 0x04#8]),
   (oneSlab .received (some .hold) 0 false, toSaw 11 41 0, [0x07#8, 0x00#8]), (busy, toSaw 11 41 0, [0x17#8, 0x01#8, 0x01#8]),
   (demo, toSaw 11 57 0, [0x16#8, 0x01#8, 0x00#8, 0x00#8, 0x00#8, 0x29#8]), ({ demo with jobs := [] }, toSaw 11 41 0, [0x14#8]),
   ({ demo with jobs := [{ jobOf 41 0 0 with state := .closing }] }, toSaw 11 41 0, [0x15#8, 0x01#8]),
   (fullPlan, toSaw 11 41 0, [0x18#8, 0x04#8]), (hushed, toSaw 11 41 0, [0x1A#8, 0x02#8]),
   (withSaw { sawWith [] with config := { sawConfig with kinds := 0x08#8 } }, toSaw 11 41 0, [0x1B#8]),
   (withSaw { sawWith [] with config := { sawConfig with bedLength := 3199 } }, toSaw 11 41 0, [0x1C#8]),
   (withSaw { sawWith [] with config := { sawConfig with materials := [1208] } }, toSaw 11 41 0, [0x1D#8]),
   (withSaw { sawWith [] with kerf := some 5 }, toSaw 11 41 0, [0x1E#8, 0x01#8, 0x05#8]),
   (withSaw { sawWith [] with blade := .worn }, toSaw 11 41 0, [0x1F#8]),
   ({ demo with slabs := [slabOf 70215 .staged (some 12)] }, toSaw 11 41 0, [0x20#8, 0x0C#8]),
   (split, toSaw 11 41 0, [0x21#8, 0x0C#8]),
   ({ demo with water := { demo.water with mode := .halt } }, toSaw 11 41 0, [0x22#8]),
   (cutoutsHeld, toSaw 11 41 4, [0x23#8, 0x02#8]),
   ({ demo with jobs := [{ jobOf 41 0 0 with overQuote := true, hold := true }] }, toSaw 11 41 0, [0x24#8]),
   (withSaw (sawWith (List.replicate 6 { orderOf 0 57 1 .piece .waiting with slab := 9 })), toSaw 11 41 0, [0x25#8])]

theorem witness_OrderIsCheckedThenAdmitted :
    (∀ s ∈ demo :: orderCases.map Prod.fst, ∀ i ∈ [toSaw 11 41 0, .order ⟨.a, 11, 2, 7⟩ 41 0 0 2000,
      .order ⟨.a, 11, 2, 7⟩ 41 70215 12 2000, .order ⟨.a, 11, 2, 7⟩ 41 70215 0 0, .order ⟨.a, 11, 2, 7⟩ 41 5 11 1],
      s.Passes i ⟨.a, 11, 2, 7⟩ false)
    ∧ orderCases.all (fun c => decide (refusal c.2.1 ⟨.a, 11, 2, 7⟩ c.1 = some c.2.2)) = true ∧ orderCases.length = 20
    ∧ refusal (toSaw 11 41 7) ⟨.a, 11, 2, 7⟩ demo = some [0x17#8, 0x00#8] ∧ demo.placement? 70215 7 = none
    ∧ refusal (toSaw 20 41 0) ⟨.a, 20, 2, 7⟩ demo = some [0x19#8] ∧ demo.saw? 20 = none
    ∧ demo.slab? 5 = none ∧ (demo.station? 11).isSome = true
    ∧ ((after (toSaw 11 41 0) demo).saw? 11).map (fun w => w.queue.length) = some 1 :=
  ⟨pass_all (by decide +kernel), by decide +kernel, by decide +kernel⟩

theorem witness_WithdrawTakesOrderBack :
    (∀ s ∈ [busy, doubtful], ∀ i ∈ [Instr.withdraw req 70215 0, .withdraw req 70215 1], s.Passes i req false)
    ∧ allRefused req false [(busy, .withdraw req 0 0, [0x04#8]), (busy, .withdraw req 70215 12, [0x04#8]),
      (busy, .withdraw req 5 11, [0x05#8]), (oneSlab .reserved none 0 false, .withdraw req 70215 0, [0x05#8]),
      (busy, .withdraw req 70215 11, [0x17#8, 0x00#8]), (demo, .withdraw req 70215 0, [0x17#8, 0x01#8, 0x00#8])] = true
    ∧ (busy.slab? 70215).map Slab.state = some .staged ∧ (busy.placement? 70215 0).map Placement.state = some .ordered
    ∧ (busy.order? 70215 0).map CutOrder.state = some .running ∧ (busy.order? 70215 1).map CutOrder.state = some .waiting
    ∧ (doubtful.order? 70215 0).map CutOrder.state = some .inDoubt :=
  ⟨pass_all (by decide +kernel), by decide +kernel⟩

theorem witness_LineIsReleasedAndReset :
    (∀ s ∈ [demo, { demo with line := .held }], s.Passes (.releaseLine req) req false) ∧ demo.line = .run
    ∧ windingDown.Legal ∧ windingDown.Orderly ∧ windingDown.Passes (.lineReset req) req false
    ∧ (∃ o ∈ windingDown.orders, o.state = .waiting ∧ o.job = some 57) ∧ windingDown.water.mode = .normal
    ∧ (after (.lineReset req) windingDown).bills = [57] :=
  ⟨fun s hs => pass_all (l := [.releaseLine req]) (by decide +kernel) s hs _ (by decide), by decide +kernel,
    ⟨bounded_of rfl, rfl⟩, windingDown_orderly, passes_of (by decide +kernel), by decide +kernel⟩

/-- P0 admitted under CONSERVE. -/
def conserving : State := { admitted with water := { demo.water with mode := .conserve } }

/-- P0 is admitted, and saws 11 and 12 were presented by one event: 12 waits for 11. -/
def inTurn : State := { twoSaws with presented := [11, 12] }

theorem witness_EvaluationDeliversFirstOrder :
    11 ∈ admitted.presented ∧ 11 ∈ conserving.presented ∧ conserving.water.mode = .conserve ∧ 11 ∉ demo.presented
    ∧ inTurn.presented.takeWhile (fun a => decide (a ≠ 12)) = [11] ∧ inTurn.saw? 11 ≠ none
    ∧ after (.deliveryEvaluation 12) inTurn = inTurn ∧ (after (.deliveryEvaluation 11) inTurn).presented = [12]
    ∧ admitted.presented.takeWhile (fun a => decide (a ≠ 11)) = []
    ∧ (admitted.line = .run ∧ (admitted.station? 11).map Station.state = some .attached
      ∧ (admitted.saw? 11).map (fun w => (w.ready, w.blade, w.queue.map CutOrder.state)) = some (true, .good, [.waiting]))
    ∧ (admitted.slab? 70215).map (fun x => (x.state, x.bed, x.lock)) = some (.staged, some 11, none)
    ∧ (admitted.placement? 70215 0).isSome = true
    ∧ ({ admitted with line := .held } : State).line ≠ .run
    ∧ (({ admitted with slabs := [slabOf 70215 .received none] } : State).slab? 70215).map Slab.state = some .received := by
  decide +kernel

theorem witness_OnlyEvaluationDelivers :
    exec (.deliveryEvaluation 11) admitted = .next waiting
    ∧ (∃ o ∈ waiting.orders, o.state = .delivered ∧ ¬ ∃ p ∈ admitted.orders, p.state = .delivered)
    ∧ exec (.jobOpen req 63) waiting = .next (after (.jobOpen req 63) waiting)
    ∧ (∃ o ∈ (after (.jobOpen req 63) waiting).orders, o.state = .delivered) :=
  ⟨rfl, by decide +kernel, rfl, by decide +kernel⟩

theorem witness_OrderAckStartsTheCut :
    (∀ s ∈ [waiting, busy, demo], ∀ i ∈ [Instr.orderAck (report 11) 70215 0, .orderAck (report 11) 70215 1],
      s.Passes i (report 11) false)
    ∧ (waiting.station? 11).map Station.state = some .attached
    ∧ ((waiting.saw? 11).bind Saw.active).map (fun o => (o.slab, o.index, o.state)) = some (70215, 0, .delivered)
    ∧ ((busy.saw? 11).bind Saw.active).map (fun o => (o.slab, o.index, o.state)) = some (70215, 0, .running)
    ∧ (demo.saw? 11).bind Saw.active = none :=
  ⟨pass_all (by decide +kernel), by decide +kernel⟩

theorem witness_OrderDeclineEndsTheOrder :
    (∀ s ∈ [waiting, busy, demo], ∀ i ∈ [Instr.orderDecline (report 11) 70215 0, .orderDecline (report 11) 70215 1],
      s.Passes i (report 11) false)
    ∧ ((waiting.saw? 11).bind Saw.active).map (fun o => (o.slab, o.index, o.saw, o.state)) = some (70215, 0, 11, .delivered)
    ∧ ((busy.saw? 11).bind Saw.active).map (fun o => (o.slab, o.index, o.saw, o.state)) = some (70215, 0, 11, .running)
    ∧ (busy.placement? 70215 0).isSome = true ∧ (demo.saw? 11).bind Saw.active = none :=
  ⟨pass_all (by decide +kernel), by decide +kernel⟩

/-- P0 delivered four times. -/
def fourSends : State := unanswered 11 (unanswered 11 (unanswered 11 waiting))

theorem witness_AckTimerResendsOrEnds :
    ((lapsed 11 waiting).saw? 11).map Saw.ackTimer = some (some 0)
    ∧ (waiting.saw? 11).map Saw.ackTimer = some (some 400)
    ∧ (((lapsed 11 waiting).saw? 11).bind Saw.active).map (fun o => (o.state, o.saw, o.sends, o.deliveredFeed, o.deliveredKerf))
      = some (.delivered, 11, 1, some 2400, some 4)
    ∧ (waiting.placement? 70215 0).isSome = true
    ∧ (((lapsed 11 fourSends).saw? 11).bind Saw.active).map (fun o => (o.state, o.saw, o.sends)) = some (.delivered, 11, 4)
    ∧ ((lapsed 11 fourSends).saw? 11).map Saw.ackTimer = some (some 0) ∧ (busy.saw? 11).map Saw.ackTimer = some none := by
  decide +kernel

/-- The silent saw's last-delivered order is IN_DOUBT. -/
def doubtedLast : State :=
  { returned with stations := returned.stations.map (fun st => { st with
      saw := st.saw.map (fun w => { w with queue := w.queue.map (fun o => { o with state := .inDoubt }) }) }) }

theorem witness_StrayReportsAreDiscarded :
    (∀ i ∈ [Instr.cutReport (report 11) 0 0 0 0, .cutReport (report 11) 70215 12 0 0, .cutReport (report 11) 70215 0 3 0,
      .cutReport (report 11) 70215 11 2 65535], busy.Passes i (report 11) true)
    ∧ (busy.saw? 11).bind Saw.active = some runningP0 ∧ runningP0.index ≠ 11
    ∧ (busy.station? 11).map Station.state = some .attached
    ∧ allRefused (report 11) true [(busy, .cutReport (report 11) 70215 11 2 65535, [0x17#8]),
      (doubtedLast, .cutReport (report 11) 70215 0 0 1, [0x17#8])] = true
    ∧ (doubtedLast.station? 11).map Station.state = some .silent
    ∧ (doubtedLast.saw? 11).map (fun w => (w.lastDelivered, w.queue.map CutOrder.state)) = some (some (70215, 0), [.inDoubt]) :=
  ⟨all_pass (by decide +kernel), by decide +kernel⟩

/-- Job 41 with a quote limit that the wear charge of 210 cents after the saw charge of 3,150 brings it to. -/
def limited : State := { busy with jobs := [{ jobOf 41 2 0 with limit := some 3300, hold := true }, jobOf 57 1 0] }

theorem witness_DonePieceIsCharged :
    busy.Bounded ∧ busy.Passes (.cutReport (report 11) 70215 0 0 1260) (report 11) true
    ∧ (busy.saw? 11).bind Saw.active = some runningP0 ∧ runningP0.kind.isPiece = true
    ∧ busy.slab? 70215 = some (slabOf 70215 .staged (some 11))
    ∧ busy.placement? 70215 0 = some (cutPiece 0 41 ⟨20, 20, 2440, 640⟩ .ordered) ∧ busy.job? 41 = some (jobOf 41 2 0)
    ∧ limited.Bounded ∧ limited.Passes (.cutReport (report 11) 70215 0 0 1260) (report 11) true
    ∧ (limited.job? 41).map (fun j => (j.limit, j.overQuote)) = some (some 3300, false)
    ∧ limited.groups.quote = true ∧ [3150, 3360].find? (fun m => decide (3300 ≤ m)) = some 3360
    ∧ busy.Passes (.cutReport (report 11) 70215 0 0 65535) (report 11) true :=
  ⟨busy_bounded, passes_of (by decide +kernel), by decide +kernel, by decide +kernel, by decide +kernel, by decide +kernel,
    by decide +kernel, bounded_of rfl, passes_of (by decide +kernel), by decide +kernel, by decide +kernel,
    by decide +kernel, passes_of (by decide +kernel)⟩

/-- P2 and the remnant are cut and job 57 is CLOSING; P0 runs and P1 waits behind it. -/
def breaking : State :=
  { busy with
    stations := stationsWith (sawWith [runningP0, orderOf 1 41 1019 .piece .waiting])
    slabs := [{ slabOf 70215 .staged (some 11) with allocated := 34934, cutMark := true },
      ⟨70216, 1207, 30, 440, 1100, [], 0, 0, .reserved, none, none, none, some 70215, 1, false⟩]
    placements := plan .ordered .ordered .cut
      ++ [⟨70215, 3, .remnant, none, ⟨2728, 664, 440, 1100⟩, some 4, none, some 70216, .cut⟩]
    jobs := [jobOf 41 2 0, { jobOf 57 0 1 with material := 34934, state := .closing }] }

theorem breaking_orderly : breaking.Orderly := by
  unfold State.Orderly
  simp only [Station.Orderly, CutOrder.same]
  decide +kernel

theorem breaking_sound : breaking.Sound := by
  constructor
  case plans => unfold State.PlansKept; decide +kernel
  case beds => unfold State.BedsAgree; decide +kernel
  case remnants => unfold State.RemnantsAgree; decide +kernel
  case fit => unfold State.PlansFit; decide +kernel
  case basis => unfold State.BasisAccounted; decide +kernel
  case pieces => unfold State.PiecesCounted; decide +kernel

/-- Every part of a BROKE report's settlement occurs in `breaking`, as R125 to R127, R131 and R141 have it. -/
theorem witness_ReportedOrdersAreCompleted :
    (∀ a ∈ [Accumulator.material, .saw, .wear, .water, .recycled, .fresh, .bladeSeconds],
      (State.addToJob ⟨11, Kind.cutReport⟩ 70215 41 a 281474976710656 limited).outbox.length = 1)
    ∧ (limited.job? 41).map (fun j => (j.limit, j.overQuote)) = some (some 3300, false)
    ∧ (State.charge ⟨11, Kind.cutReport⟩ 70215 41 .saw 3299 limited).outbox = []
    ∧ (State.charge ⟨11, Kind.cutReport⟩ 70215 41 .saw 1000000000009 limited).shop.overflow = 10
    ∧ breaking.Legal ∧ breaking.Orderly ∧ breaking.Sound
    ∧ breaking.Passes (.cutReport (report 11) 70215 0 2 0) (report 11) true
    ∧ (∀ p ∈ breaking.placements, p.remnantSlab ≠ some 70215)
    ∧ (after (.cutReport (report 11) 70215 0 2 0) breaking).placements.map Placement.index = [2, 3]
    ∧ (after (.cutReport (report 11) 70215 0 2 0) breaking).slabs.map (fun x => (x.basis, x.state))
      = [(148000, .broken), (12594, .received)]
    ∧ (after (.cutReport (report 11) 70215 0 2 0) breaking).shop.loss = 100472
    ∧ (after (.cutReport (report 11) 70215 0 2 0) breaking).bills = [57]
    ∧ busy.Legal ∧ busy.Orderly ∧ returned.Legal ∧ returned.Orderly
    ∧ (∀ s ∈ [busy, returned], ∀ i ∈ [Instr.cutReport (report 11) 70215 0 0 0, .cutReport (report 11) 70215 0 1 1260,
      .cutReport (report 11) 70215 0 2 65535], s.Passes i (report 11) true)
    ∧ (∃ w, busy.saw? 11 = some w ∧ runningP0 ∈ w.queue) ∧ (∀ p ∈ busy.placements, p.remnantSlab ≠ some 70215)
    ∧ (returned.station? 11).map Station.state = some .silent
    ∧ (returned.saw? 11).map Saw.lastDelivered = some (some (70215, 0))
    ∧ (∃ w, returned.saw? 11 = some w ∧ orderOf 0 41 1018 .piece .waiting ∈ w.queue) :=
  ⟨by decide +kernel, by decide +kernel, by decide +kernel, by decide +kernel, ⟨bounded_of rfl, rfl⟩, breaking_orderly,
    breaking_sound, passes_of (by decide +kernel), by decide +kernel, by decide +kernel, by decide +kernel, by decide +kernel,
    by decide +kernel, busy_legal, busy_orderly, returned_legal, returned_orderly, pass_all (by decide +kernel),
    ⟨_, rfl, by decide +kernel⟩, by decide +kernel, by decide +kernel, by decide +kernel, ⟨_, rfl, by decide +kernel⟩⟩

/-- The water monitor with a window of 4, a last number, and rules. -/
def watered (last : Option Nat) (rules : List CompareRule) : State :=
  { demo with water := ⟨rules, .normal, 1000, 4, 3, 7100, 2200, last, 0, 0⟩ }

/-- One sample of turbidity 400 makes the first act and the second only tell. -/
def actingRule : CompareRule := { turbidityRule with confirm := 1 }
def tellingRule : CompareRule := { turbidityRule with confirm := 1, action := .notice }

theorem witness_WaterSampleIsTakenWhole :
    (∀ s ∈ [watered none [], watered (some 255) [actingRule], watered (some 5) [tellingRule]],
      ∀ i ∈ [Instr.waterSample (report 20) 0 65000 400 0 65535, .waterSample (report 20) 255 0 4000 65535 0],
      s.Passes i (report 20) false)
    ∧ allRefused (report 20) false [(demo, .waterSample (report 20) 0 65001 0 0 0, [0x04#8]),
      (demo, .waterSample (report 20) 0 0 4001 0 0, [0x04#8])] = true
    ∧ ((watered none []).station? 20).map Station.state = some .attached
    ∧ (0 : Nat) = (255 + 1) % 256 ∧ (0 : Nat) ≠ (5 + 1) % 256 ∧ 4 ≤ 3 + 1
    ∧ (takeSample 65000 400 actingRule).state.holds = true ∧ (takeSample 65000 400 actingRule).action = .conserve
    ∧ movedRules [tellingRule] [takeSample 65000 400 tellingRule] = [(0, true)] ∧ (takeSample 65000 400 tellingRule).action = .notice
    ∧ movedRules [] [] = [] :=
  ⟨pass_all (by decide +kernel), by decide +kernel⟩

/-- A rule in a state, with a record of two samples. -/
def ruleIn (st : RuleState) : CompareRule := { turbidityRule with state := st, record := some ⟨401, 410, 2⟩ }

/-- Each clause has its samples, at the thresholds 350 and 250 of rule 0 and its confirm count 3. -/
theorem witness_RuleConfirmsByCounting :
    turbidityRule.enabled = true ∧ 1 ≤ turbidityRule.confirm ∧ turbidityRule.state = .clear
    ∧ (∀ x ∈ [(9000, 350), (9000, 400)], 350 ≤ x.2) ∧ 0 + [(9000, 350), (9000, 400)].length < turbidityRule.confirm
    ∧ 2 + [(9000, 350)].length = (ruleIn (.tripping 2)).confirm
    ∧ (takeSample 9000 350 (ruleIn (.tripping 2))).record = some ⟨350, 350, 1⟩
    ∧ (∀ x ∈ [(9000, 249), (9000, 0)], x.2 < 250) ∧ 0 + [(9000, 249), (9000, 0)].length < (ruleIn .active).confirm
    ∧ 1 + [(9000, 249), (9000, 0)].length = (ruleIn (.releasing 1)).confirm
    ∧ (takeSample 9000 0 (takeSample 9000 249 (ruleIn (.releasing 1)))).state = .clear
    ∧ (∀ x ∈ [(9000, 349)], ¬ 350 ≤ x.2) ∧ (∀ x ∈ [(9000, 250), (9000, 420)], ¬ x.2 < 250)
    ∧ (takeSample 9000 420 (takeSample 9000 250 (ruleIn (.releasing 2)))).record = some ⟨401, 420, 4⟩ := by decide

theorem witness_WaterLoadsRecomputeTheMode :
    demo.recycler? = some ⟨20, .b, .recycler, 2, .attached, some 10000, none⟩ ∧ State.reset.recycler? = none
    ∧ (hushed.recycler?).map Station.state = some .silent
    ∧ (∀ s ∈ [demo, { demo with water := State.reset.water }], ∀ i ∈ [Instr.loadWaterRule req 0 1 0 0 0 65000 1 0,
      .loadWaterRule req 3 0 1 1 4000 0 8 2, .loadAllowance req 0, .loadAllowance req 4294967295, .renewAllowance req],
      s.Passes i req false)
    ∧ allRefused req false ([.loadWaterRule req 4 1 0 0 0 0 1 0, .loadWaterRule req 0 2 0 0 0 0 1 0,
      .loadWaterRule req 0 1 2 0 0 0 1 0, .loadWaterRule req 0 1 0 2 0 0 1 0, .loadWaterRule req 0 1 0 0 65001 0 1 0,
      .loadWaterRule req 0 1 1 0 0 4001 1 0, .loadWaterRule req 0 1 0 0 0 0 0 0, .loadWaterRule req 0 1 0 0 0 0 9 0,
      .loadWaterRule req 0 1 0 0 0 0 1 3].map (fun i => (demo, i, [0x04#8]))) = true
    ∧ (demo.water.rules[0]?).isSome = true ∧ (demo.water.rules[3]?).isSome = true ∧ demo.water.mode = .normal
    ∧ decodeFlag 1 = some true ∧ decodeChannel 0 = some .level ∧ decodeDirection 0 = some .below ∧ decodeAction 0 = some .notice
    ∧ decodeFlag 0 = some false ∧ decodeChannel 1 = some .turbidity ∧ decodeDirection 1 = some .atOrAbove
    ∧ decodeAction 2 = some .halt :=
  ⟨by decide +kernel, by decide +kernel, by decide +kernel, pass_all (by decide +kernel), by decide +kernel,
    by decide +kernel⟩

theorem witness_PlainLoadsReplaceAllValues :
    (∀ i ∈ [Instr.loadConstants req 1 0 100 100, .loadConstants req 10 60 600 3000, .loadConstants req 0 60 600 3000,
      .loadRates req 10000 10000, .loadRates req 0 10001, .loadShareWindow req 1, .loadShareWindow req 16,
      .loadShareWindow req 0, .loadShareWindow req 17, .loadNotices req 0 63 127, .loadNotices req 21 0 0,
      .loadNotices req 31 63 127, .loadNotices req 30 63 127, .loadNotices req 29 63 127, .loadNotices req 0 64 127,
      .loadNotices req 0 63 128, .clearFault req,
      .loadGroup req 0, .loadGroup req 15, .loadGroup req 16], demo.Passes i req false)
    ∧ demo.address = 30 ∧ demo.station? 21 ≠ none ∧ demo.station? 29 = none
    ∧ (∀ s ∈ [mixed, fullPlan, { demo with jobs := [{ jobOf 41 0 0 with limit := some 5 }] }],
      ∀ i ∈ [Instr.loadGroup req 0, .loadGroup req 1, .loadGroup req 3, .loadGroup req 7], s.Passes i req false)
    ∧ (∀ p ∈ demo.placements, p.kind = .piece) ∧ (∀ j ∈ demo.jobs, j.limit = none)
    ∧ (∃ p ∈ mixed.placements, p.kind = .remnant) ∧ (∃ p ∈ mixed.placements, p.kind = .mitre)
    ∧ (∃ p ∈ fullPlan.placements, p.kind = .cutout) ∧ (∀ p ∈ fullPlan.placements, p.kind ≠ .mitre)
    ∧ (0 : Nat).testBit 0 = false ∧ (1 : Nat).testBit 0 = true ∧ (1 : Nat).testBit 1 = false ∧ (7 : Nat).testBit 3 = false
    ∧ ([(mixed, 0), (mixed, 1), (fullPlan, 1), ({ demo with jobs := [{ jobOf 41 0 0 with limit := some 5 }] }, 7)].map
        (fun c => (refusal (.loadGroup req c.2) req c.1).map (List.take 1))) = List.replicate 4 (some [0x29#8])
    ∧ refusal (.loadGroup req 16) req demo = some [0x04#8] :=
  ⟨all_pass (by decide +kernel), by decide +kernel, by decide +kernel, by decide +kernel, pass_all (by decide +kernel),
    by decide +kernel⟩

theorem witness_SplitPartsEqualTheDelta : freshPart 5 300 = 2 ∧ recycledPart 5 300 = 3 ∧ 300 ≤ 1000 := by decide

/-- The shares of section 8.8, and two jobs with equal areas: of equal remainders the one that stands first gets the cent. -/
theorem witness_ResidueSharesSumToResidue :
    (∀ p ∈ plan .cut .cut .cut, p.job ≠ none ∧ 0 < p.area) ∧ plan .cut .cut .cut ≠ []
    ∧ (plan .cut .cut .cut).Pairwise (fun p q => p.index < q.index)
    ∧ residueShares 40109 (plan .cut .cut .cut) = [(41, 25405, 25406), (57, 14703, 14703)]
    ∧ residueShares 5 [cutPiece 0 57 ⟨20, 20, 100, 50⟩ .cut, cutPiece 1 41 ⟨200, 20, 100, 50⟩ .cut] = [(57, 2, 3), (41, 2, 2)] := by
  decide +kernel

theorem allCut_bounded : allCut.Bounded := bounded_of rfl

/-- The same shop with job 41 CLOSING and its last two pieces on the slab. -/
def lastPieces : State :=
  { allCut with jobs := [{ jobOf 41 0 2 with material := 60363, state := .closing }, { jobOf 57 0 1 with material := 34934 }] }

/-- Job 41's material is full and it has a limit. -/
def fullJobs : State :=
  { allCut with jobs := [{ jobOf 41 0 2 with material := 999999999999, limit := some 5 }, { jobOf 57 0 1 with material := 34934 }] }

theorem witness_SlabDoneSettlesTheSlab :
    allCut.Bounded ∧ lastPieces.Bounded ∧ busy.Legal ∧ busy.Orderly
    ∧ (∀ s ∈ [allCut, lastPieces], ∀ i ∈ [Instr.slabDoneFinished req 70215, .slabDoneScrap req 70215], s.Passes i req false)
    ∧ allRefused req false [(demo, .slabDoneFinished req 0, [0x04#8]), (demo, .slabDoneScrap req 5, [0x05#8]),
      (oneSlab .spent none 0 false, .slabDoneScrap req 70215, [0x06#8, 0x04#8]),
      (busy, .slabDoneScrap req 70215, [0x26#8, 0x0B#8, 0x02#8]), (demo, .slabDoneFinished req 70215, [0x28#8])] = true
    ∧ (busy.saw? 11).map (fun w => w.queue.find? (fun o => decide (o.slab = 70215))) = some (some runningP0)
    ∧ (allCut.slab? 70215).map (fun x => (x.state, x.allocated, x.basis)) = some (.staged, 95297, 148000)
    ∧ (∀ s ∈ [allCut, lastPieces], (∀ o ∈ s.orders, o.slab ≠ 70215) ∧ (∀ p ∈ s.placements, p.state = .cut)
      ∧ (∀ p ∈ s.placements, p.kind = .remnant → p.remnantSlab = some 70216 ∧ p.index = 3))
    ∧ 95297 + 148000 * 490176 / 5760000 ≤ 148000
    ∧ (after (.slabDoneFinished req 70215) lastPieces).bills = [41]
    ∧ fullJobs.Bounded ∧ fullJobs.Passes (.slabDoneFinished req 70215) req false
    ∧ (after (.slabDoneFinished req 70215) fullJobs).jobs.map (fun j => (j.saturated, j.overQuote)) = [(true, true), (false, false)]
    ∧ (after (.slabDoneFinished req 70215) fullJobs).shop.overflow = 25406 :=
  ⟨allCut_bounded, bounded_of rfl, busy_legal, busy_orderly, pass_all (by decide +kernel),
    by decide +kernel, by decide +kernel, by decide +kernel, by decide +kernel, by decide +kernel, by decide +kernel,
    bounded_of rfl, passes_of (by decide +kernel), by decide +kernel⟩

theorem witness_JobOpenCreatesRecord :
    (∀ s ∈ [demo, crowded 128, crowded 127], ∀ i ∈ [Instr.jobOpen req 0, .jobOpen req 41, .jobOpen req 4294967295],
      s.Passes i req false)
    ∧ (Instr.jobOpen req 4294967295).wf = true ∧ demo.job? 41 ≠ none ∧ demo.job? 4294967295 = none
    ∧ (crowded 128).job? 4294967295 = none ∧ 128 ≤ (crowded 128).jobs.length ∧ (crowded 127).jobs.length < 128 :=
  ⟨pass_all (by decide +kernel), by decide +kernel⟩

/-- Job 57 in a state, with its counts. -/
def jobIn (st : JobState) (openOrders : Nat) : State :=
  { demo with jobs := [jobOf 41 0 0, { jobOf 57 openOrders 0 with state := st }] }

theorem witness_JobLimitSetsLimitAndHold :
    (∀ s ∈ [demo, jobIn .closing 1, jobIn .closed 0], ∀ i ∈ [Instr.jobLimit req 57 (some 1) 0,
      .jobLimit req 57 (some 999999999999) 1, .jobLimit req 57 (some 1000000000000) 0, .jobLimit req 57 none 2,
      .jobLimit req 0 none 0, .jobLimit req 5 none 0], s.Passes i req false)
    ∧ demo.job? 5 = none ∧ demo.job? 57 = some (jobOf 57 0 0) ∧ ((jobIn .closed 0).job? 57).map Job.state = some .closed :=
  ⟨pass_all (by decide +kernel), by decide +kernel⟩

/-- A cutout of the planned P2 is already ordered. -/
def opening : State :=
  { demo with placements := demo.placements
      ++ [{ cutPiece 3 57 ⟨600, 700, 100, 100⟩ .ordered with kind := .cutout, parentIndex := some 2 }] }

/-- The ANSWER of the last clause: CLOSED, one placement removed, one cutout detached, no open order or unsettled piece,
close number 1. -/
theorem witness_JobCloseWithdrawsThePlan :
    opening.Bounded ∧ opening.Passes (.jobClose req 57) req false
    ∧ content (.jobClose req 57) req opening
      = some [0x02#8, 0x01#8, 0x01#8, 0x00#8, 0x00#8, 0x01#8, 0x00#8, 0x00#8, 0x00#8, 0x01#8]
    ∧ demo.Bounded ∧ busy.Bounded ∧ (∀ s ∈ [demo, busy, jobIn .closing 1], s.Passes (.jobClose req 57) req false)
    ∧ allRefused req false [(demo, .jobClose req 0, [0x04#8]), (demo, .jobClose req 5, [0x14#8])] = true
    ∧ (demo.job? 57).map (fun j => (j.state, j.openOrders, j.unsettled)) = some (.opened, 0, 0)
    ∧ (busy.job? 57).map (fun j => (j.state, j.openOrders)) = some (.opened, 1)
    ∧ ((jobIn .closing 1).job? 57).map Job.state = some .closing
    ∧ (∀ p ∈ demo.placements, p.kind ≠ .remnant) ∧ (∃ p ∈ demo.placements, p.job = some 57 ∧ p.state = .planned) :=
  ⟨bounded_of rfl, passes_of (by decide +kernel), by decide +kernel, demo_bounded, busy_bounded,
    fun s hs => pass_all (l := [.jobClose req 57]) (by decide +kernel) s hs _ (by decide),
    by decide +kernel⟩

/-- Job 57 closed and on the bill list. -/
def billed : State := after (.jobClose req 57) demo

theorem witness_BillsJoinTheTailAndLeaveTheHead :
    ((jobIn .closing 0).job? 57).map (fun j => (j.state, j.openOrders, j.unsettled)) = some (.closing, 0, 0)
    ∧ ((jobIn .closing 1).job? 57).map Job.openOrders = some 1
    ∧ (∀ s ∈ [demo, billed], ∀ i ∈ [Instr.takeBill req none, .takeBill req (some 0), .takeBill req (some 57),
      .takeBill req (some 41)], s.Passes i req false)
    ∧ demo.bills = [] ∧ billed.bills = [57] ∧ (billed.job? 57).isSome = true :=
  ⟨by decide +kernel, by decide +kernel, pass_all (by decide +kernel), by decide +kernel⟩

theorem witness_FaultsAreKeptAndNoticesSent :
    demo.faults.record = none ∧ faulted.faults.record = some (brokenFault runningP0) ∧ faulted.faults.station ≠ 0
    ∧ (faulted.station? faulted.faults.station).isSome = true ∧ demo.faults.station = 0
    ∧ (0x3F#8).getLsbD (faultClassCode FaultCode.costSaturated) = true ∧ (0x7F#8).getLsbD 6 = true
    ∧ demo.faults.enables.getLsbD 0 = false := by decide +kernel

end Sys2Proof.Tests
end

section
/-! SUPPORT. The shares of a residue (R128 to R130): who takes part and in which order, the floor shares and what they
leave over, and the largest-remainder rule that hands the cents left over to the shares of the lowest ranks. -/

namespace Sys2Proof.Proofs

open Sys2Proof Sys2Proof.Machine

/-! ## The participating jobs -/

@[simp] theorem distinct_nil : distinct [] = [] := rfl

@[simp] theorem distinct_cons (x : Nat) (xs : List Nat) :
    distinct (x :: xs) = x :: (distinct xs).filter (fun y => decide (y ≠ x)) := rfl

@[simp] theorem mem_distinct {x : Nat} {xs : List Nat} : x ∈ distinct xs ↔ x ∈ xs := by
  induction xs with
  | nil => simp
  | cons y ys ih => by_cases h : x = y <;> simp [h, ih]

theorem nodup_distinct (xs : List Nat) : (distinct xs).Nodup := by
  induction xs with
  | nil => simp
  | cons x xs ih => simpa using ih.filter _

theorem participants_cons_of_job {p : Placement} {j : Nat} (h : p.job = some j) (ps : List Placement) :
    participants (p :: ps) = j :: (participants ps).filter (fun y => decide (y ≠ j)) := by
  simp [participants, h]

@[simp] theorem mem_participants {ps : List Placement} {j : Nat} :
    j ∈ participants ps ↔ ∃ p ∈ ps, p.job = some j := by
  simp [participants]

/-- R130: the lowest-indexed piece of job `a` has a lower index than every piece of job `b`. -/
def FirstBefore (ps : List Placement) (a b : Nat) : Prop :=
  ∃ p ∈ ps, p.job = some a ∧ ∀ q ∈ ps, q.job = some b → p.index < q.index

theorem FirstBefore.cons {ps : List Placement} {a b : Nat} {p : Placement} (h : FirstBefore ps a b)
    (hb : p.job ≠ some b) : FirstBefore (p :: ps) a b := by
  obtain ⟨q, hq, hqa, hlt⟩ := h
  refine ⟨q, List.mem_cons_of_mem p hq, hqa, ?_⟩
  rintro r (_ | ⟨_, hr⟩) hrb
  · exact absurd hrb hb
  · exact hlt r hr hrb

theorem firstBefore_head {ps : List Placement} {a b : Nat} {p : Placement} (ha : p.job = some a) (hne : b ≠ a)
    (hp : ∀ q ∈ ps, p.index < q.index) : FirstBefore (p :: ps) a b := by
  refine ⟨p, List.mem_cons_self, ha, ?_⟩
  rintro q (_ | ⟨_, hq⟩) hqb
  · exact absurd (Option.some.inj (hqb.symm.trans ha)) hne
  · exact hp q hq

/-- R130: over placements in ascending index the jobs stand in the order of their lowest-indexed pieces. -/
theorem participants_pairwise_firstBefore {ps : List Placement} (hjob : ∀ p ∈ ps, p.job ≠ none)
    (hidx : ps.Pairwise (fun p q => p.index < q.index)) : (participants ps).Pairwise (FirstBefore ps) := by
  induction ps with
  | nil => exact List.Pairwise.nil
  | cons p ps ih =>
    obtain ⟨hp, hps⟩ := List.pairwise_cons.1 hidx
    obtain ⟨j, hj⟩ := Option.ne_none_iff_exists'.1 (hjob p List.mem_cons_self)
    rw [participants_cons_of_job hj]
    refine List.Pairwise.cons ?_ ?_
    · intro b hb
      exact firstBefore_head hj (by simpa using (List.mem_filter.1 hb).2) hp
    · refine List.Pairwise.imp_of_mem (fun {a b} _ hb hab => hab.cons ?_)
        ((ih (fun q hq => hjob q (List.mem_cons_of_mem p hq)) hps).filter _)
      have hbj : b ≠ j := by simpa using (List.mem_filter.1 hb).2
      rw [hj]
      exact fun h => hbj (Option.some.inj h).symm

/-! ## Areas and floor shares -/

/-- The area of all participating pieces (R128). -/
def totalArea (ps : List Placement) : Nat := (ps.map Placement.area).sum

theorem jobArea_cons (p : Placement) (ps : List Placement) (j : Nat) :
    jobArea (p :: ps) j = (if p.job = some j then p.area else 0) + jobArea ps j := by
  by_cases h : p.job = some j <;> simp [jobArea, h]

/-- Every placement's area counts for exactly one job, so the areas of the jobs sum to the whole. -/
theorem sum_jobArea {ps : List Placement} {js : List Nat} (hnodup : js.Nodup)
    (hjob : ∀ p ∈ ps, ∃ j ∈ js, p.job = some j) : (js.map (jobArea ps)).sum = totalArea ps := by
  induction ps with
  | nil =>
    have hnil : jobArea [] = fun _ => 0 := rfl
    simp [hnil, totalArea]
  | cons p ps ih =>
    obtain ⟨j, hj, hpj⟩ := hjob p List.mem_cons_self
    have hhead : (js.map (fun i => if p.job = some i then p.area else 0)).sum = p.area := by
      rw [List.sum_map_eq_nsmul_single j _ (fun i hi _ => if_neg (by simpa [hpj] using hi.symm)),
        List.count_eq_one_of_mem hnodup hj]
      simp [hpj]
    calc (js.map (jobArea (p :: ps))).sum
        = p.area + totalArea ps := by
          rw [funext (jobArea_cons p ps), List.sum_map_add, hhead, ih (fun q hq => hjob q (List.mem_cons_of_mem p hq))]
      _ = totalArea (p :: ps) := by simp [totalArea]

theorem sum_jobArea_participants {ps : List Placement} (hjob : ∀ p ∈ ps, p.job ≠ none) :
    ((participants ps).map (jobArea ps)).sum = totalArea ps := by
  refine sum_jobArea (nodup_distinct _) (fun p hp => ?_)
  obtain ⟨j, hj⟩ := Option.ne_none_iff_exists'.1 (hjob p hp)
  exact ⟨j, mem_participants.2 ⟨p, hp, hj⟩, hj⟩

theorem totalArea_pos {ps : List Placement} (harea : ∀ p ∈ ps, 0 < p.area) (hne : ps ≠ []) : 0 < totalArea ps :=
  List.sum_pos _ (by simpa using harea) (by simpa using hne)

/-- A job's floor share and remainder as quotient and remainder of one division (R128). -/
def shareOf (residue : Nat) (ps : List Placement) (job : Nat) : Share :=
  ⟨job, residue * jobArea ps job / totalArea ps, residue * jobArea ps job % totalArea ps⟩

theorem floorShares_eq_map_shareOf {ps : List Placement} (residue : Nat) (hjob : ∀ p ∈ ps, p.job ≠ none) :
    floorShares residue ps = (participants ps).map (shareOf residue ps) := by
  simp only [floorShares, sum_jobArea_participants hjob]
  exact List.map_congr_left (fun j _ => by simp only [shareOf, Nat.mod_eq_sub_div_mul])

theorem sum_div_mul_add_sum_mod (t : Nat) (xs : List Nat) :
    (xs.map (· / t)).sum * t + (xs.map (· % t)).sum = xs.sum := by
  induction xs with
  | nil => simp
  | cons x xs ih =>
    simp only [List.map_cons, List.sum_cons, Nat.add_mul]
    have := Nat.div_add_mod' x t
    omega

/-- The products that the floor shares divide. -/
theorem sum_residue_mul_jobArea {ps : List Placement} (residue : Nat) (hjob : ∀ p ∈ ps, p.job ≠ none) :
    ((participants ps).map (fun j => residue * jobArea ps j)).sum = residue * totalArea ps := by
  rw [List.sum_map_mul_left, sum_jobArea_participants hjob]

/-- The floor shares and the remainders account for the whole residue. -/
theorem sum_floor_mul_add_sum_remainder {ps : List Placement} (residue : Nat) (hjob : ∀ p ∈ ps, p.job ≠ none) :
    ((floorShares residue ps).map Share.floor).sum * totalArea ps + ((floorShares residue ps).map Share.remainder).sum
      = residue * totalArea ps := by
  rw [← sum_residue_mul_jobArea residue hjob, floorShares_eq_map_shareOf residue hjob,
    ← sum_div_mul_add_sum_mod (totalArea ps) ((participants ps).map (fun j => residue * jobArea ps j))]
  simp [Function.comp_def, shareOf]

theorem sum_floor_le {ps : List Placement} {residue : Nat} (hjob : ∀ p ∈ ps, p.job ≠ none) (htotal : 0 < totalArea ps) :
    ((floorShares residue ps).map Share.floor).sum ≤ residue :=
  Nat.le_of_mul_le_mul_right (Nat.le.intro (sum_floor_mul_add_sum_remainder residue hjob)) htotal

theorem sum_remainder_le {ps : List Placement} {residue : Nat} (hjob : ∀ p ∈ ps, p.job ≠ none)
    (htotal : 0 < totalArea ps) :
    ((floorShares residue ps).map Share.remainder).sum ≤ (floorShares residue ps).length * totalArea ps := by
  have hle : ∀ r ∈ (floorShares residue ps).map Share.remainder, r ≤ totalArea ps := by
    rw [floorShares_eq_map_shareOf residue hjob, List.map_map]
    exact List.forall_mem_map.2 (fun j _ => (Nat.mod_lt (residue * jobArea ps j) htotal).le)
  simpa using List.sum_le_card_nsmul _ _ hle

/-- The cents left over are at most one for each share. -/
theorem leftOver_le_length {ps : List Placement} {residue : Nat} (hjob : ∀ p ∈ ps, p.job ≠ none)
    (htotal : 0 < totalArea ps) : leftOver residue (floorShares residue ps) ≤ (floorShares residue ps).length := by
  refine Nat.le_of_mul_le_mul_right ?_ htotal
  have hsum := sum_floor_mul_add_sum_remainder residue hjob
  have hrem := sum_remainder_le (residue := residue) hjob htotal
  rw [leftOver, Nat.sub_mul]
  omega

/-! ## Ranks by remainder and place (R129) -/

/-- Whether one share, with its place, ranks before another: by remainder, then by place. -/
def outranks (y x : Share × Nat) : Bool :=
  decide (x.1.remainder < y.1.remainder) || (decide (x.1.remainder = y.1.remainder) && decide (y.2 < x.2))

theorem outranks_iff {y x : Share × Nat} : outranks y x = true ↔
    x.1.remainder < y.1.remainder ∨ x.1.remainder = y.1.remainder ∧ y.2 < x.2 := by
  simp [outranks]

theorem rankOf_eq_countP (shares : List Share) (x : Share × Nat) :
    rankOf shares x.2 x.1 = shares.zipIdx.countP (fun y => outranks y x) := rfl

@[simp] theorem outranks_self (x : Share × Nat) : outranks x x = false := by simp [outranks]

theorem outranks_trans {x y z : Share × Nat} (hxy : outranks x y = true) (hyz : outranks y z = true) :
    outranks x z = true := by
  rw [outranks_iff] at *
  omega

theorem outranks_total {x y : Share × Nat} (h : x.2 ≠ y.2) : outranks x y = true ∨ outranks y x = true := by
  simp only [outranks_iff]
  omega

theorem rankOf_lt_length {shares : List Share} {x : Share × Nat} (hx : x ∈ shares.zipIdx) :
    rankOf shares x.2 x.1 < shares.length := by
  rw [rankOf_eq_countP, ← List.length_zipIdx (l := shares) (i := 0)]
  exact List.countP_lt_length_iff.2 ⟨x, hx, outranks_self x⟩

/-- All that ranks before `x` ranks before `y`, and `x` itself besides. -/
theorem rankOf_lt_rankOf {shares : List Share} {x y : Share × Nat} (hx : x ∈ shares.zipIdx)
    (h : outranks x y = true) : rankOf shares x.2 x.1 < rankOf shares y.2 y.1 := by
  have hsub : shares.zipIdx.countP (fun z => outranks z x)
      = (shares.zipIdx.filter (fun z => outranks z y)).countP (fun z => outranks z x) := by
    rw [List.countP_filter]
    exact List.countP_congr (fun z _ => by simpa using fun hz => outranks_trans hz h)
  rw [rankOf_eq_countP, rankOf_eq_countP, hsub, List.countP_eq_length_filter (p := fun z => outranks z y)]
  exact List.countP_lt_length_iff.2 ⟨x, List.mem_filter.2 ⟨hx, h⟩, outranks_self x⟩

theorem rankOf_ne_rankOf {shares : List Share} {x y : Share × Nat} (hx : x ∈ shares.zipIdx) (hy : y ∈ shares.zipIdx)
    (h : x.2 ≠ y.2) : rankOf shares x.2 x.1 ≠ rankOf shares y.2 y.1 := by
  obtain hxy | hyx := outranks_total h
  · exact (rankOf_lt_rankOf hx hxy).ne
  · exact (rankOf_lt_rankOf hy hyx).ne'

theorem zipIdx_pairwise_snd_ne (shares : List Share) : shares.zipIdx.Pairwise (fun x y => x.2 ≠ y.2) := by
  have h : (shares.zipIdx.map Prod.snd).Nodup := by simpa using List.nodup_range'
  exact List.pairwise_map.1 h

/-- The ranks are 0, 1, 2 and so on, each once. -/
theorem ranks_perm_range (shares : List Share) :
    (shares.zipIdx.map (fun x => rankOf shares x.2 x.1)).Perm (List.range shares.length) := by
  have hnodup : (shares.zipIdx.map (fun x => rankOf shares x.2 x.1)).Nodup :=
    List.pairwise_map.2 ((zipIdx_pairwise_snd_ne shares).imp_of_mem rankOf_ne_rankOf)
  have hsub : shares.zipIdx.map (fun x => rankOf shares x.2 x.1) ⊆ List.range shares.length := by
    intro r hr
    obtain ⟨x, hx, rfl⟩ := List.mem_map.1 hr
    exact List.mem_range.2 (rankOf_lt_length hx)
  exact (hnodup.subperm hsub).perm_of_length_le (by simp)

theorem sum_range_ite_lt {k n : Nat} (h : k ≤ n) :
    ((List.range n).map (fun r => if r < k then 1 else 0)).sum = k := by
  induction n, h using Nat.le_induction with
  | base =>
    rw [List.map_congr_left (fun r hr => if_pos (List.mem_range.1 hr))]
    simp
  | succ n hkn ih => simp [List.range_succ, ih, Nat.not_lt.2 hkn]

/-- Of `n` shares exactly `k` have a rank below `k`. -/
theorem sum_ite_rankOf_lt {shares : List Share} {k : Nat} (h : k ≤ shares.length) :
    (shares.zipIdx.map (fun x => if rankOf shares x.2 x.1 < k then 1 else 0)).sum = k := by
  have hperm := (ranks_perm_range shares).map (fun r => if r < k then 1 else 0)
  rw [List.map_map] at hperm
  exact hperm.sum_eq.trans (sum_range_ite_lt h)

/-! ## The residue shares -/

theorem map_zipIdx_of_fst {α β : Type} (f : α → β) (xs : List α) : xs.zipIdx.map (fun y => f y.1) = xs.map f := by
  rw [← Function.comp_def, ← List.map_map, List.zipIdx_map_fst]

theorem residueShares_map_fst {ps : List Placement} (residue : Nat) (hjob : ∀ p ∈ ps, p.job ≠ none) :
    (residueShares residue ps).map Prod.fst = participants ps := by
  calc (residueShares residue ps).map Prod.fst
      = (floorShares residue ps).map Share.job := by
        rw [residueShares, List.map_map]
        exact map_zipIdx_of_fst Share.job _
    _ = participants ps := by
      rw [floorShares_eq_map_shareOf residue hjob, List.map_map]
      exact List.map_id _

/-- The floor shares leave over as many cents as there are ranks that get one. -/
theorem sum_residueShares {ps : List Placement} (residue : Nat) (hjob : ∀ p ∈ ps, p.job ≠ none)
    (htotal : 0 < totalArea ps) : ((residueShares residue ps).map (fun x => x.2.2)).sum = residue := by
  simp only [residueShares, List.map_map, Function.comp_def]
  rw [List.sum_map_add, map_zipIdx_of_fst Share.floor, sum_ite_rankOf_lt (leftOver_le_length hjob htotal), leftOver]
  exact Nat.add_sub_of_le (sum_floor_le hjob htotal)

/-- A residue share, read off the place of its job among the participants. -/
theorem exists_place_of_mem_residueShares {ps : List Placement} {residue job fl share : Nat}
    (hjob : ∀ p ∈ ps, p.job ≠ none) (h : (job, fl, share) ∈ residueShares residue ps) :
    ∃ i, (participants ps)[i]? = some job ∧ (shareOf residue ps job, i) ∈ (floorShares residue ps).zipIdx
      ∧ fl = residue * jobArea ps job / totalArea ps
      ∧ share = fl + if rankOf (floorShares residue ps) i (shareOf residue ps job)
          < leftOver residue (floorShares residue ps) then 1 else 0 := by
  obtain ⟨⟨x, i⟩, hx, heq⟩ := List.mem_map.1 h
  obtain ⟨rfl, rfl, rfl⟩ : x.job = job ∧ x.floor = fl ∧ _ = share := by simpa only [Prod.mk.injEq] using heq
  have hget := List.mk_mem_zipIdx_iff_getElem?.1 hx
  rw [floorShares_eq_map_shareOf residue hjob, List.getElem?_map, Option.map_eq_some_iff] at hget
  obtain ⟨j, hj, rfl⟩ := hget
  exact ⟨i, hj, hx, rfl, rfl⟩

/-- R129: a job without an extra cent has no larger remainder than one with it, and comes later when they are equal. -/
theorem remainder_le_of_extra_cent {ps : List Placement} {residue job fl job' fl' : Nat}
    (hjob : ∀ p ∈ ps, p.job ≠ none) (hidx : ps.Pairwise (fun p q => p.index < q.index))
    (h : (job, fl, fl) ∈ residueShares residue ps) (h' : (job', fl', fl' + 1) ∈ residueShares residue ps) :
    (shareOf residue ps job).remainder ≤ (shareOf residue ps job').remainder
    ∧ ((shareOf residue ps job).remainder = (shareOf residue ps job').remainder → FirstBefore ps job' job) := by
  obtain ⟨i, hi, hmem, -, hshare⟩ := exists_place_of_mem_residueShares hjob h
  obtain ⟨i', hi', -, -, hshare'⟩ := exists_place_of_mem_residueShares hjob h'
  have hrank : leftOver residue (floorShares residue ps)
      ≤ rankOf (floorShares residue ps) i (shareOf residue ps job) := by
    by_contra hlt
    simp [Nat.not_le.1 hlt] at hshare
  have hrank' : rankOf (floorShares residue ps) i' (shareOf residue ps job')
      < leftOver residue (floorShares residue ps) := by
    by_contra hge
    simp [hge] at hshare'
  have hnot : ¬ outranks (shareOf residue ps job, i) (shareOf residue ps job', i') = true := fun hout =>
    (rankOf_lt_rankOf hmem hout).not_gt (hrank'.trans_le hrank)
  simp only [outranks_iff, not_or, not_and, Nat.not_lt] at hnot
  obtain ⟨hrem, hplace⟩ := hnot
  refine ⟨hrem, fun heq => ?_⟩
  have hne : i ≠ i' := by
    rintro rfl
    obtain rfl : job = job' := Option.some.inj (hi.symm.trans hi')
    exact absurd hrank' (Nat.not_lt.2 hrank)
  obtain ⟨hlen, rfl⟩ := List.getElem?_eq_some_iff.1 hi
  obtain ⟨hlen', rfl⟩ := List.getElem?_eq_some_iff.1 hi'
  exact List.pairwise_iff_getElem.1 (participants_pairwise_firstBefore hjob hidx) i' i hlen' hlen
    (lt_of_le_of_ne (hplace heq.symm) hne.symm)

/-- Settles O54. R129: the floor shares leave over at most one cent for each job, and the ranks are a permutation of the
places, so exactly the cents left over are given out. -/
theorem residueSharesSumToResidue : Obligations.ResidueSharesSumToResidue := by
  intro residue ps hps hne hidx
  have hjob : ∀ p ∈ ps, p.job ≠ none := fun p hp => (hps p hp).1
  have htotal : 0 < totalArea ps := totalArea_pos (fun p hp => (hps p hp).2) hne
  refine ⟨sum_residueShares residue hjob htotal, ?order, fun job => ?jobs, ?shares, ?ranks⟩
  case order =>
    refine List.pairwise_map (f := Prod.fst) (R := fun a b => a ≠ b ∧ FirstBefore ps a b) |>.1 ?_
    rw [residueShares_map_fst residue hjob]
    exact (nodup_distinct _).and (participants_pairwise_firstBefore hjob hidx)
  case jobs => rw [residueShares_map_fst residue hjob, mem_participants]
  case shares =>
    intro job fl share h
    obtain ⟨i, -, -, hfl, hshare⟩ := exists_place_of_mem_residueShares hjob h
    refine ⟨hfl, ?_⟩
    split at hshare
    · exact Or.inr hshare
    · exact Or.inl hshare
  case ranks => exact fun job fl job' fl' => remainder_le_of_extra_cent hjob hidx

end Sys2Proof.Proofs
end

section
/-! SUPPORT. JOB OPEN (R136): what a passing row runs on, and one equation for each outcome of its block. -/

namespace Sys2Proof.Proofs

open Sys2Proof Sys2Proof.Config Sys2Proof.Machine

/-! ## The silence restart and the Job Table -/

@[simp] theorem restartSilence_jobs (a : Nat) (s : State) : (s.restartSilence a).jobs = s.jobs := rfl

@[simp] theorem job?_restartSilence (a job : Nat) (s : State) : (s.restartSilence a).job? job = s.job? job := rfl

/-! ## The block's outcomes -/

/-- The id of a well-formed row is never above what its four bytes hold, so the form check is left with job 0. -/
theorem jobOpen_id_le_max32 {h : Header} {job : Nat} (hwf : (Instr.jobOpen h job).wf = true) : job ≤ max32 := by
  have hfits : fits 4 job = true := (Bool.and_eq_true_iff.1 hwf).2
  exact Nat.le_of_lt_succ (fits_iff.1 hfits)

theorem jobOpen_zero (s : State) : jobOpen 0 s = (.reject .form [], s) := if_pos (Or.inl rfl)

/-- R136: past the form check, the Job Table decides. -/
theorem jobOpen_formed {job : Nat} {s : State} (hne : job ≠ 0) (hle : job ≤ max32) :
    jobOpen job s = if (s.job? job).isSome then refuse .duplicate s
      else if maxJobs ≤ s.jobs.length then refuse .tableFull s
      else (.answer (u32 job ++ count (s.addJob (newJob job)).jobs.length), s.addJob (newJob job)) :=
  if_neg (not_or.2 ⟨hne, Nat.not_lt.2 hle⟩)

theorem jobOpen_duplicate {job : Nat} {s : State} (hne : job ≠ 0) (hle : job ≤ max32) (hdup : s.job? job ≠ none) :
    jobOpen job s = (.reject .duplicate [], s) := by
  rw [jobOpen_formed hne hle, if_pos (Option.isSome_iff_ne_none.2 hdup), refuse]

theorem jobOpen_tableFull {job : Nat} {s : State} (hne : job ≠ 0) (hle : job ≤ max32) (hnew : s.job? job = none)
    (hfull : maxJobs ≤ s.jobs.length) : jobOpen job s = (.reject .tableFull [], s) := by
  rw [jobOpen_formed hne hle, if_neg (by simp [hnew]), if_pos hfull, refuse]

/-- R136: the record is created, and the answer counts it. -/
theorem jobOpen_created {job : Nat} {s : State} (hne : job ≠ 0) (hle : job ≤ max32) (hnew : s.job? job = none)
    (hroom : s.jobs.length < maxJobs) :
    jobOpen job s = (.answer (u32 job ++ count (s.jobs.length + 1)), s.addJob (newJob job)) := by
  rw [jobOpen_formed hne hle, if_neg (by simp [hnew]), if_neg (Nat.not_le.2 hroom), State.addJob_jobs, length_insertBy]

/-! ## The command -/

/-- A passing JOB OPEN ends with whatever its block answers on the state with the silence timer restarted. -/
theorem exec_jobOpen_of_block {h : Header} {copy : Bool} {job : Nat} {s t : State} {r : Reply}
    (hp : s.Passes (.jobOpen h job) h copy) (hblock : jobOpen job (s.restartSilence h.src) = (r, t)) :
    exec (.jobOpen h job) s = .next (finish (.jobOpen h job) h copy r t) := by
  calc exec (.jobOpen h job) s
      = .next (runRow (.jobOpen h job) h (jobOpen job) s) := rfl
    _ = .next (finish (.jobOpen h job) h copy r t) := by rw [runRow_passes _ hp, hblock]

/-- Settles O56. R136: each clause is one outcome of the block, whose checks read the Job Table, which the silence
restart leaves alone. -/
theorem jobOpenCreatesRecord : Obligations.JobOpenCreatesRecord := by
  intro h copy job s i hwf hp u
  have hle : job ≤ max32 := jobOpen_id_le_max32 hwf
  rw [← job?_restartSilence h.src job s, ← restartSilence_jobs h.src s]
  refine ⟨?form, ?duplicate, ?full, ?created⟩
  case form =>
    rintro rfl
    exact exec_jobOpen_of_block hp (jobOpen_zero u)
  case duplicate =>
    intro hne hdup
    exact exec_jobOpen_of_block hp (jobOpen_duplicate hne hle hdup)
  case full =>
    intro hne hnew hfull
    exact exec_jobOpen_of_block hp (jobOpen_tableFull hne hle hnew hfull)
  case created =>
    intro hne hnew hroom
    exact exec_jobOpen_of_block hp (jobOpen_created hne hle hnew hroom)

end Sys2Proof.Proofs
end

