-- ==== Sys2Proof/Proofs/Rows.lean ====
section
/-! SUPPORT. The telegram rows: the block each row but ANNOUNCE hands its request to, and what that makes of `exec`. With
it, a fact about every command is a fact about every block, the ANNOUNCE row, and the pins, timers and evaluations. -/

namespace Sys2Proof.Proofs

open Sys2Proof Sys2Proof.Config Sys2Proof.Machine

/-- The owning block's work for a telegram row; none for ANNOUNCE, which is taken by its entry, and for the rows that are
no telegram. -/
def rowBlock : Instr → Option Block
  | .coldResetAssert => none
  | .coldResetRelease _ _ => none
  | .standbyRetentionLoss => none
  | .telegramReceived _ _ => none
  | .transmitComplete _ => none
  | .announce _ _ _ => none
  | .querySlabRecord _ slab => some (querySlabRecord slab)
  | .querySlabDefects _ slab => some (querySlabDefects slab)
  | .querySlabNext _ slab => some (querySlabNext slab)
  | .queryPlacementEntry _ slab index => some (queryPlacementEntry slab index)
  | .queryPlacementSlab _ slab => some (queryPlacementSlab slab)
  | .queryJobRecord _ job => some (queryJobRecord job)
  | .queryJobNext _ job => some (queryJobNext job)
  | .queryBill _ position => some (queryBill position)
  | .queryStationEntry _ address => some (queryStationEntry address)
  | .queryStationNext _ address => some (queryStationNext address)
  | .queryRule _ c => some (queryRule c)
  | .queryWater _ => some queryWater
  | .queryExcursion _ rule => some (queryExcursion rule)
  | .queryFault _ => some queryFault
  | .queryShop _ => some queryShop
  | .queryCapability _ => some queryCapability
  | .loadStation _ address cls side tier saw => some (loadStation address cls side tier saw)
  | .loadStationNone _ address => some (loadStationNone address)
  | .loadRule _ c disposition tier classSet => some (loadRule c disposition tier classSet)
  | .loadGroup _ enables => some (loadGroup enables)
  | .loadConstants _ kerf margin remnantMin conserveFeed => some (loadConstants kerf margin remnantMin conserveFeed)
  | .loadRates _ recycled fresh => some (loadRates recycled fresh)
  | .loadWaterRule _ number enabled channel direction trip release confirm action =>
      some (loadWaterRule number enabled channel direction trip release confirm action)
  | .loadShareWindow _ length => some (loadShareWindow length)
  | .loadAllowance _ allowance => some (loadAllowance allowance)
  | .loadNotices _ station mask enables => some (loadNotices station mask enables)
  | .clearFault _ => some clearFault
  | .releaseLine _ => some releaseLine
  | .lineReset _ => some lineReset
  | .renewAllowance _ => some renewAllowance
  | .slabEnter _ slab material thickness length width basis defects =>
      some (slabEnter slab material thickness length width basis defects)
  | .slabEditLock _ slab reason => some (slabLock slab reason)
  | .slabEditUnlock _ slab => some (slabUnlock slab)
  | .slabEditSetBasis _ slab value => some (slabSetBasis slab value)
  | .slabEditAddDefect _ slab defect => some (slabAddDefect slab defect)
  | .slabRetire _ slab => some (slabRetire slab)
  | .slabDoneFinished h slab => some (slabDone h.src .finished slab)
  | .slabDoneScrap h slab => some (slabDone h.src .scrap slab)
  | .place _ slab kind rect job parentPresent parentIndex remnantSlab =>
      some (place slab kind rect job parentPresent parentIndex remnantSlab)
  | .unplace _ slab index => some (unplace slab index)
  | .order h job slab index feed => some (order h.dst job slab index feed)
  | .withdraw _ slab index => some (withdraw slab index)
  | .jobOpen _ job => some (jobOpen job)
  | .jobLimit _ job limit hold => some (jobLimit job limit hold)
  | .jobClose _ job => some (jobClose job)
  | .takeBill _ job => some (takeBill job)
  | .sawStatus h ready wear vibration changed kerf delta =>
      some (fromAttached h (sawStatus h.src ready wear vibration changed kerf delta))
  | .orderAck h slab index => some (fromAttached h (orderAck h.src slab index))
  | .orderDecline h slab index => some (fromAttached h (orderDecline h.src slab index))
  | .cutReport h slab index outcome bladeSeconds => some (cutReport h.src slab index outcome bladeSeconds)
  | .scanRacked h slab rack slot _ => some (onScan h scanRackedCode slab rack slot (scanToRack rack slot))
  | .scanStaged h slab rack slot saw => some (onScan h scanStagedCode slab rack slot (scanToBed h saw))
  | .scanUnstaged h slab rack slot _ => some (onScan h scanUnstagedCode slab rack slot scanOffBed)
  | .scanGone h slab rack slot _ => some (onScan h scanGoneCode slab rack slot (scanAway h))
  | .waterSample h sequence level turbidity recycled fresh =>
      some (fromAttached h (waterSample h.src sequence level turbidity recycled fresh))
  | .silenceTimerExpiry _ => none
  | .ackTimerExpiry _ => none
  | .deliveryEvaluation _ => none

/-- A row with a block is run around that block. -/
theorem exec_eq_runRow {i : Instr} {h : Header} {b : Block} (hh : i.header? = some h) (hb : rowBlock i = some b)
    (s : State) : exec i s = .next (runRow i h b s) := by
  cases i with
  | coldResetAssert => cases hh
  | coldResetRelease => cases hh
  | standbyRetentionLoss => cases hh
  | telegramReceived => cases hh
  | transmitComplete => cases hh
  | silenceTimerExpiry => cases hh
  | ackTimerExpiry => cases hh
  | deliveryEvaluation => cases hh
  | announce => cases hb
  | _ => cases hh; cases hb; rfl

theorem rowBlock_or_announce {i : Instr} {h : Header} (hh : i.header? = some h) :
    (∃ b, rowBlock i = some b) ∨ ∃ cls work, i = .announce h cls work := by
  cases i with
  | coldResetAssert => cases hh
  | coldResetRelease => cases hh
  | standbyRetentionLoss => cases hh
  | telegramReceived => cases hh
  | transmitComplete => cases hh
  | silenceTimerExpiry => cases hh
  | ackTimerExpiry => cases hh
  | deliveryEvaluation => cases hh
  | announce h cls work => cases hh; exact .inr ⟨cls, work, rfl⟩
  | _ => exact .inl ⟨_, rfl⟩

theorem rowBlock_of_kind {i : Instr} {h : Header} (hh : i.header? = some h) (hk : i.kindCode ≠ Kind.announce) :
    ∃ b, rowBlock i = some b := by
  obtain hb | ⟨cls, work, rfl⟩ := rowBlock_or_announce hh
  · exact hb
  · exact absurd rfl hk

/-- A telegram row that is spelt by a telegram is that row's command. -/
theorem receiveRow_eq_exec {i : Instr} {h : Header} (hh : i.header? = some h) (s : State) : receiveRow i s = exec i s := by
  cases i with
  | coldResetAssert => cases hh
  | coldResetRelease => cases hh
  | standbyRetentionLoss => cases hh
  | telegramReceived => cases hh
  | transmitComplete => cases hh
  | silenceTimerExpiry => cases hh
  | ackTimerExpiry => cases hh
  | deliveryEvaluation => cases hh
  | _ => rfl

theorem receiveRow_of_no_header {i : Instr} (hh : i.header? = none) (s : State) : receiveRow i s = .next s := by
  cases i with
  | coldResetAssert => rfl
  | coldResetRelease => rfl
  | standbyRetentionLoss => rfl
  | telegramReceived => rfl
  | transmitComplete => rfl
  | silenceTimerExpiry => rfl
  | ackTimerExpiry => rfl
  | deliveryEvaluation => rfl
  | _ => cases hh

/-- A passing row ends with whatever its block answers on the state with the source's silence timer restarted. -/
theorem exec_of_block {i : Instr} {h : Header} {copy : Bool} {b : Block} {s t : State} {r : Reply}
    (hrun : exec i s = .next (runRow i h b s)) (hp : s.Passes i h copy) (hb : b (s.restartSilence h.src) = (r, t)) :
    exec i s = .next (finish i h copy r t) := by
  rw [hrun, runRow_passes _ hp, hb]

/-! ## While RESET is asserted -/

theorem arrive_inReset {side : Side} {t : Telegram} {f : State → State} {s : State} (hs : s.inReset = true) :
    s.arrive side t f = s := if_pos hs

theorem arriveAnnounce_inReset {side : Side} {t : Telegram} {c : Option Nat} {w : Option (Option (Nat × Nat))} {s : State}
    (hs : s.inReset = true) : s.arriveAnnounce side t c w = s := if_pos hs

theorem exec_row_inReset {i : Instr} {h : Header} {s : State} (hh : i.header? = some h) (hs : s.inReset = true) :
    exec i s = .next s := by
  obtain ⟨b, hb⟩ | ⟨cls, work, rfl⟩ := rowBlock_or_announce hh
  · rw [exec_eq_runRow hh hb, runRow, arrive_inReset hs]
  · calc exec (.announce h cls work) s
        = .next (s.arriveAnnounce h.side ((Instr.announce h cls work).telegram h) (some cls) (some work)) := rfl
      _ = .next s := by rw [arriveAnnounce_inReset hs]

end Sys2Proof.Proofs
end

