-- ==== Sys2Proof/Proofs/Steps.lean ====
section
/-! SUPPORT. The statements about every command that rest on the Laws alone: a next state is answered and the queue left
alone, a legal state stays legal, the state after reset is legal and sound, and RESET asserted stops the link. -/

namespace Sys2Proof.Proofs

open Sys2Proof Sys2Proof.Config Sys2Proof.Machine

theorem step_of_empty {s : State} (hs : s.pending = []) : step s = .next s.tick := by
  unfold step
  split
  · rfl
  · simp_all

/-- Settles O1. A step is one match on the queue, and a tick one on RESET. -/
theorem stepTakesFrontCommandOrTicks : Obligations.StepTakesFrontCommandOrTicks :=
  ⟨fun _ _ _ => rfl, fun _ hs => step_of_empty hs⟩

/-- Every command ends its event: a next state, with the queue as it was, bounded where the state was. -/
theorem ends_exec (i : Instr) (s : State) : Ends s (exec i s) := by
  cases hh : i.header? with
  | some h => rw [← receiveRow_eq_exec hh s]; exact ends_receiveRow i
  | none =>
    cases i with
    | coldResetAssert => exact ends_next keeps_assertReset (fun _ => rfl)
    | coldResetRelease keep straps => exact ends_next (keeps_releaseReset keep straps) (fun _ => restart_outbox keep straps)
    | standbyRetentionLoss =>
      refine ends_next ⟨rfl, fun b => ?_⟩ id
      exact ⟨b.address, b.kindRules, b.constants, b.stations, b.slabs, b.placements, b.jobs, b.closeCounter,
        b.admissionCounter, b.water, b.shop, b.faults, b.txA, b.txB⟩
    | telegramReceived side bytes => exact ends_telegramReceived side bytes
    | transmitComplete side => exact ends_transmitDone side
    | silenceTimerExpiry a => exact ends_silenceExpiry a
    | ackTimerExpiry a => exact ends_ackExpiry a
    | deliveryEvaluation a => exact ends_evaluate a
    | _ => cases hh

/-- Settles O2. -/
theorem everyCommandAnswersNext : Obligations.EveryCommandAnswersNext := by
  intro i s
  obtain ⟨t, ht, hkeeps, -⟩ := ends_exec i s
  exact ⟨t, ht, hkeeps.1⟩

theorem bounded_pending {s : State} (b : s.Bounded) (l : List Instr) : ({ s with pending := l } : State).Bounded :=
  ⟨b.address, b.kindRules, b.constants, b.stations, b.slabs, b.placements, b.jobs, b.closeCounter, b.admissionCounter,
    b.water, b.shop, b.faults, b.txA, b.txB⟩

theorem exec_keeps_legal {i : Instr} {s t : State} (hs : s.Legal) (h : exec i s = .next t) : t.Legal := by
  obtain ⟨u, hu, hkeeps, hout⟩ := ends_exec i s
  obtain rfl : u = t := Host.Outcome.next.inj (hu.symm.trans h)
  exact ⟨hkeeps.2 hs.1, hout hs.2⟩

/-- What a step does: the tick, or the front command on the rest of the queue. -/
theorem step_cases {s t : State} (h : step s = .next t) :
    (s.pending = [] ∧ t = s.tick) ∨ ∃ c rest, s.pending = c :: rest ∧ exec c { s with pending := rest } = .next t := by
  unfold step at h
  split at h
  case h_1 hp => exact .inl ⟨hp, (Host.Outcome.next.inj h).symm⟩
  case h_2 c rest hp => exact .inr ⟨c, rest, hp, h⟩

theorem tick_outbox (s : State) : s.tick.outbox = s.outbox := by
  unfold State.tick
  split <;> rfl

/-- Settles O4. -/
theorem everyStepKeepsLegal : Obligations.EveryStepKeepsLegal := by
  intro s t hs h
  obtain ⟨-, rfl⟩ | ⟨c, rest, -, hc⟩ := step_cases h
  · exact ⟨keeps_tick.2 hs.1, (tick_outbox s).trans hs.2⟩
  · exact exec_keeps_legal ⟨bounded_pending hs.1 rest, hs.2⟩ hc

/-! ## The state after reset -/

theorem reset_legal : State.reset.Legal :=
  ⟨plainReset_bounded (s := State.reset) 0 .withoutKeep, rfl⟩

theorem reset_stations : State.reset.stations = [] := rfl
theorem reset_slabs : State.reset.slabs = [] := rfl
theorem reset_placements : State.reset.placements = [] := rfl
theorem reset_jobs : State.reset.jobs = [] := rfl
theorem reset_orders : State.reset.orders = [] := rfl

/-- With no station, placement, slab or job the law of the orders has nothing to say. -/
theorem reset_orderly : State.reset.Orderly := by
  simp [State.Orderly, reset_orders, reset_stations, reset_slabs, reset_placements, reset_jobs]

theorem reset_sound : State.reset.Sound where
  plans := by simp [State.PlansKept, reset_orders, reset_placements]
  beds := by simp [State.BedsAgree, reset_stations, reset_slabs]
  remnants := by simp [State.RemnantsAgree, reset_slabs, reset_placements]
  fit := by simp [State.PlansFit, reset_placements]
  basis := by simp [State.BasisAccounted, reset_slabs]
  pieces := by simp [State.PiecesCounted, reset_placements, reset_jobs]

/-- Settles O3. -/
theorem resetIsLegalAndOrderly : Obligations.ResetIsLegalAndOrderly := ⟨reset_legal, reset_orderly, reset_sound⟩

/-- Settles O8. -/
theorem resetAssertedStopsTheLink : Obligations.ResetAssertedStopsTheLink := by
  refine ⟨fun s => ⟨rfl, rfl⟩, fun i h side p s hs => ⟨fun hh => exec_row_inReset hh hs, ?_⟩⟩
  exact if_pos hs

end Sys2Proof.Proofs
end

