-- ==== Sys2Proof/Proofs/Frames.lean ====
section
/-! SUPPORT. Frames: which parts of the state the shared operations leave alone, each told once as an equation between
masked states, from which any single field follows by `congrArg`. -/

namespace Sys2Proof.Proofs

open Sys2Proof Sys2Proof.Config Sys2Proof.Machine

variable {s : State}

/-- The state without its placements and slab records. -/
def exceptPlans (s : State) : State := { s with placements := [], slabs := [] }

/-- The state without its job records, bills, shop accumulators, fault block and outbox. -/
def exceptAccounts (s : State) : State :=
  { s with jobs := [], bills := [], closeCounter := 0, shop := ⟨0, 0, 0, 0, 0, 0⟩, faults := ⟨none, false, 0, 0, 0, 0, 0⟩,
           outbox := [] }

/-- The state without either. -/
def exceptTables (s : State) : State := exceptPlans (exceptAccounts s)

theorem exceptTables_of_plans {s t : State} (h : exceptPlans t = exceptPlans s) : exceptTables t = exceptTables s :=
  congrArg exceptAccounts h

theorem exceptTables_of_accounts {s t : State} (h : exceptAccounts t = exceptAccounts s) :
    exceptTables t = exceptTables s := congrArg exceptPlans h

/-- A fold keeps what each of its steps keeps. -/
theorem foldl_frame {α β : Type} {m : State → β} {f : State → α → State} (h : ∀ s x, m (f s x) = m s) (l : List α)
    (s : State) : m (l.foldl f s) = m s := by
  induction l generalizing s with
  | nil => rfl
  | cons x xs ih => exact (ih (f s x)).trans (h s x)

theorem foldl_frame_snd {α β γ : Type} {m : State → β} {f : γ × State → α → γ × State} (h : ∀ q x, m (f q x).2 = m q.2)
    (l : List α) (q : γ × State) : m (l.foldl f q).2 = m q.2 := by
  induction l generalizing q with
  | nil => rfl
  | cons x xs ih => exact (ih (f q x)).trans (h q x)

/-! ## Removals -/

theorem dropCutout_frame (s : State) (c : Placement) : { s.dropCutout c with placements := s.placements } = s := by
  unfold State.dropCutout
  split <;> rfl

theorem dropCutout_exceptPlans (s : State) (c : Placement) : exceptPlans (s.dropCutout c) = exceptPlans s := by
  unfold State.dropCutout
  split <;> rfl

theorem dropCutout_slabs (s : State) (c : Placement) : (s.dropCutout c).slabs = s.slabs := by
  unfold State.dropCutout
  split <;> rfl

theorem removePiece_exceptPlans (a i : Nat) (s : State) : exceptPlans (s.removePiece a i).2 = exceptPlans s :=
  foldl_frame (m := exceptPlans) dropCutout_exceptPlans _ s

theorem removePiece_slabs (a i : Nat) (s : State) : (s.removePiece a i).2.slabs = s.slabs :=
  foldl_frame (m := State.slabs) dropCutout_slabs _ s

theorem removePlacement_exceptPlans (p : Placement) (s : State) :
    exceptPlans (s.removePlacement p).2 = exceptPlans s := by
  unfold State.removePlacement
  split
  · exact removePiece_exceptPlans _ _ s
  · exact removePiece_exceptPlans _ _ s
  · rfl
  · split <;> rfl

theorem returnPlacement_exceptPlans (a i : Nat) (s : State) : exceptPlans (s.returnPlacement a i) = exceptPlans s := by
  unfold State.returnPlacement
  split
  · rfl
  · split <;> rfl

theorem returnPlacement_slabs (a i : Nat) (s : State) : (s.returnPlacement a i).slabs = s.slabs := by
  unfold State.returnPlacement
  split
  · rfl
  · split <;> rfl

theorem dropPlanned_exceptPlans (q : Removal × State) (p : Placement) :
    exceptPlans (dropPlanned q p).2 = exceptPlans q.2 := by
  unfold dropPlanned
  split
  · rfl
  · split
    · exact removePlacement_exceptPlans _ q.2
    · rfl

theorem dropPlanOf_exceptPlans (job : Nat) (s : State) : exceptPlans (s.dropPlanOf job).2 = exceptPlans s :=
  foldl_frame_snd (m := exceptPlans) dropPlanned_exceptPlans _ _

theorem clearPlanned_exceptPlans (q : Cleared × State) (p : Placement) :
    exceptPlans (clearPlanned q p).2 = exceptPlans q.2 := by
  unfold clearPlanned
  split
  · rfl
  · split
    · exact removePlacement_exceptPlans _ q.2
    · rfl

theorem clearPlan_exceptPlans (slab : Nat) (s : State) : exceptPlans (s.clearPlan slab).2 = exceptPlans s :=
  foldl_frame_snd (m := exceptPlans) clearPlanned_exceptPlans _ _

theorem enterRemnant_exceptPlans (x : Slab) (q : List (Nat × Nat) × State) (p : Placement) :
    exceptPlans (enterRemnant x q p).2 = exceptPlans q.2 := by
  unfold enterRemnant
  split <;> rfl

theorem enterRemnants_exceptPlans (x : Slab) (s : State) : exceptPlans (s.enterRemnants x).2 = exceptPlans s :=
  foldl_frame_snd (m := exceptPlans) (enterRemnant_exceptPlans x) _ _

theorem enterRemnant_placements (x : Slab) (q : List (Nat × Nat) × State) (p : Placement) :
    (enterRemnant x q p).2.placements = q.2.placements := by
  unfold enterRemnant
  split <;> rfl

theorem enterRemnants_placements (x : Slab) (s : State) : (s.enterRemnants x).2.placements = s.placements :=
  foldl_frame_snd (m := State.placements) (enterRemnant_placements x) _ _

theorem dropMet_exceptTables (slab : Nat) (r : Rect) (q : Nat × State) (i : Nat) :
    exceptTables (dropMet slab r q i).2 = exceptTables q.2 := by
  unfold dropMet
  split
  · rfl
  · split
    · have removed := exceptTables_of_plans (removePiece_exceptPlans slab i q.2)
      exact removed
    · rfl

theorem dropMets_exceptTables (slab : Nat) (r : Rect) (l : List Nat) (q : Nat × State) :
    exceptTables (l.foldl (dropMet slab r) q).2 = exceptTables q.2 :=
  foldl_frame_snd (m := exceptTables) (dropMet_exceptTables slab r) l q

/-! ## Job counts -/

theorem dropOpenOrder_stations (job : Option Nat) (s : State) : (s.dropOpenOrder job).stations = s.stations := by
  cases job <;> rfl

theorem raiseOpenOrder_stations (job : Option Nat) (s : State) : (s.raiseOpenOrder job).stations = s.stations := by
  cases job <;> rfl

/-! ## Faults, closings and charges -/

theorem raise_exceptAccounts (r : FaultRecord) (s : State) : exceptAccounts (s.raise r) = exceptAccounts s := by
  unfold State.raise State.recordFault
  split <;> rfl

theorem closeIfReady_exceptAccounts (s : State) (id : Nat) : exceptAccounts (s.closeIfReady id) = exceptAccounts s := by
  unfold State.closeIfReady
  split
  · rfl
  · split <;> rfl

theorem startClosing_exceptAccounts (id : Nat) (s : State) : exceptAccounts (s.startClosing id) = exceptAccounts s := by
  have closed := closeIfReady_exceptAccounts (s.modifyJob id (fun x => { x with state := .closing })) id
  exact closed

theorem closeOf_exceptAccounts (job : Option Nat) (s : State) : exceptAccounts (s.closeOf job) = exceptAccounts s := by
  cases job with
  | none => rfl
  | some j => exact closeIfReady_exceptAccounts s j

theorem closeAllReady_exceptAccounts (s : State) : exceptAccounts s.closeAllReady = exceptAccounts s :=
  foldl_frame (m := exceptAccounts) closeIfReady_exceptAccounts _ s

theorem closeParticipants_exceptAccounts (ps : List Placement) (s : State) :
    exceptAccounts (s.closeParticipants ps) = exceptAccounts s :=
  foldl_frame (m := exceptAccounts) closeIfReady_exceptAccounts _ s

theorem addToJob_exceptAccounts (c : Cause) (slab job : Nat) (a : Accumulator) (n : Nat) (s : State) :
    exceptAccounts (s.addToJob c slab job a n) = exceptAccounts s := by
  unfold State.addToJob
  split
  · rfl
  · split
    · rfl
    · exact raise_exceptAccounts _ _

theorem quoteCheck_exceptAccounts (job : Nat) (s : State) : exceptAccounts (s.quoteCheck job) = exceptAccounts s := by
  unfold State.quoteCheck
  split
  · rfl
  · split <;> rfl

theorem charge_exceptAccounts (c : Cause) (slab job : Nat) (a : Accumulator) (n : Nat) (s : State) :
    exceptAccounts (s.charge c slab job a n) = exceptAccounts s := by
  unfold State.charge
  split
  · rfl
  · exact (quoteCheck_exceptAccounts job _).trans (addToJob_exceptAccounts c slab job a n _)

theorem chargeShares_exceptAccounts (c : Cause) (slab : Nat) (l : List (Nat × Nat × Nat)) (s : State) :
    exceptAccounts (s.chargeShares c slab l) = exceptAccounts s := by
  refine foldl_frame (m := exceptAccounts) (fun u x => ?_) l s
  exact charge_exceptAccounts c slab x.1 .material x.2.2 u

theorem lowerUnsettled_exceptAccounts (ps : List Placement) (s : State) :
    exceptAccounts (s.lowerUnsettled ps) = exceptAccounts s := by
  refine foldl_frame (m := exceptAccounts) (fun u j => ?_) _ s
  rfl

theorem chargeMaterial_exceptTables (c : Cause) (slab job n : Nat) (s : State) :
    exceptTables (s.chargeMaterial c slab job n) = exceptTables s := by
  have charged := exceptTables_of_accounts (charge_exceptAccounts c slab job .material n s)
  exact charged

theorem chargeCut_exceptTables (c : Cause) (o : CutOrder) (job saw wear water material : Nat) (piece : Bool) (n : Nat)
    (s : State) : exceptTables (s.chargeCut c o job saw wear water material piece n) = exceptTables s := by
  have charged (a : Accumulator) (m : Nat) (u : State) : exceptTables (u.charge c o.slab job a m) = exceptTables u :=
    exceptTables_of_accounts (charge_exceptAccounts c o.slab job a m u)
  have added (a : Accumulator) (m : Nat) (u : State) : exceptTables (u.addToJob c o.slab job a m) = exceptTables u :=
    exceptTables_of_accounts (addToJob_exceptAccounts c o.slab job a m u)
  unfold State.chargeCut
  dsimp only
  rw [added, added, added]
  split
  · rw [chargeMaterial_exceptTables, charged, charged, charged]
  · rw [charged, charged, charged]

theorem completionCharges_exceptTables (c : Cause) (w : SawConfig) (o : CutOrder) (outcome : Outcome3) (n : Nat)
    (s : State) : exceptTables (s.completionCharges c w o outcome n).2 = exceptTables s := by
  unfold State.completionCharges
  split
  · rfl
  · exact chargeCut_exceptTables _ _ _ _ _ _ _ _ _ s

theorem countPiece_exceptAccounts (o : CutOrder) (s : State) : exceptAccounts (s.countPiece o) = exceptAccounts s := by
  unfold State.countPiece
  split
  · rfl
  · split <;> rfl

theorem placeOutcome_exceptTables (o : CutOrder) (outcome : Outcome3) (s : State) :
    exceptTables (s.placeOutcome o outcome) = exceptTables s := by
  cases outcome with
  | done =>
    let u := (s.modifyPlacement o.slab o.index (fun p => { p with state := .cut })).modifySlab o.slab
      (fun x => { x with cutMark := true })
    have counted := exceptTables_of_accounts (countPiece_exceptAccounts o u)
    exact counted
  | abandoned => exact exceptTables_of_plans (returnPlacement_exceptPlans _ _ s)
  | broke => exact exceptTables_of_plans (returnPlacement_exceptPlans _ _ s)

theorem settle_exceptTables (c : Cause) (e : Ending) (x : Slab) (s : State) :
    exceptTables (s.settle c e x).2 = exceptTables s := by
  have lowered (ps : List Placement) (u : State) : exceptTables (u.lowerUnsettled ps) = exceptTables u :=
    exceptTables_of_accounts (lowerUnsettled_exceptAccounts ps u)
  have shared (l : List (Nat × Nat × Nat)) (u : State) : exceptTables (u.chargeShares c x.id l) = exceptTables u :=
    exceptTables_of_accounts (chargeShares_exceptAccounts c x.id l u)
  have entered := exceptTables_of_plans (enterRemnants_exceptPlans x (s.clearPlan x.id).2)
  have cleared := exceptTables_of_plans (clearPlan_exceptPlans x.id s)
  exact (lowered _ _).trans ((shared _ _).trans (entered.trans cleared))

/-! ## The water mode -/

theorem changeMode_stations (m : WaterMode) (c : ModeCause) (l : List (Nat × Bool)) (s : State) :
    (s.changeMode m c l).stations = s.stations := by
  unfold State.changeMode State.queueValve
  split
  · rfl
  · split <;> rfl

theorem takeMode_stations (m : WaterMode) (c : ModeCause) (l : List (Nat × Bool)) (s : State) :
    (s.takeMode m c l).stations = s.stations := by
  unfold State.takeMode
  split
  · rfl
  · exact changeMode_stations m c l s

end Sys2Proof.Proofs
end

