-- ==== Sys2Proof/Proofs/Preserves.lean ====
section
/-! SUPPORT. A property of states that the link, the silence restart, every block and a matched announce keep is kept by
every telegram, as its row and as its bytes. -/

namespace Sys2Proof.Proofs

open Sys2Proof Sys2Proof.Config Sys2Proof.Machine

/-- What a property must survive to survive every telegram. An announce meets its entry `st` as it stood before the
silence restart. -/
structure Preserved (P : State → Prop) : Prop where
  link : ∀ {s t : State}, t.withoutLink = s.withoutLink → Keeps s t → P s → P t
  silence : ∀ (a : Nat) {s : State}, P s → P (s.restartSilence a)
  block : ∀ {i : Instr} {h : Header} {b : Block}, i.header? = some h → rowBlock i = some b → ∀ {s : State},
    P s → P (b s).2
  announce : ∀ {st : Station} {s : State} (work : Option (Nat × Nat)), P s → s.station? st.address = some st →
    P (announce st work (s.restartSilence st.address)).2

section
variable {P : State → Prop} {s : State}

theorem Preserved.raise (hP : Preserved P) (r : FaultRecord) (hs : P s) : P (s.raise r) :=
  hP.link (withoutLink_raise r) (keeps_raise r) hs

theorem Preserved.produce (hP : Preserved P) (d : Side) (t : Telegram) (hs : P s) : P (s.produce d t) :=
  hP.link (withoutLink_produce d t) (keeps_produce d t) hs

theorem Preserved.flush (hP : Preserved P) (hs : P s) : P s.flush := hP.link withoutLink_flush keeps_flush hs

theorem Preserved.conclude (hP : Preserved P) (h : Header) (k : Nat) {r : Reply × State} (hs : P r.2) :
    P (conclude h k r) :=
  hP.link (withoutLink_flush.trans (withoutLink_sendReply h k r.1)) (keeps_conclude h k r) hs

theorem Preserved.forwardCopy (hP : Preserved P) (c : Bool) (t : Telegram) (hs : P s) : P (s.forwardCopy c t) := by
  unfold State.forwardCopy
  split
  · exact hP.flush (hP.produce .a t hs)
  · exact hs

theorem Preserved.passGate (hP : Preserved P) (g : Gate) (d : Side) (t : Telegram) {f : State → State} (hs : P s)
    (hf : P (f s)) : P (s.passGate g d t f) := by
  cases g with
  | unknownKind => exact hP.flush (hP.raise _ hs)
  | dropped => exact hs
  | ignored => exact hs
  | rejected r => exact hP.conclude _ _ (r := (.reject r [], s)) hs
  | forwarded => exact hP.flush (hP.produce _ _ hs)
  | handled copy => exact hP.forwardCopy _ _ hf

theorem Preserved.arrive (hP : Preserved P) (d : Side) (t : Telegram) {f : State → State} (hs : P s)
    (hf : ∀ u, P u → P (f u)) : P (s.arrive d t f) := by
  unfold State.arrive
  split
  · exact hs
  · split
    · exact hP.flush (hP.raise _ hs)
    · exact hP.passGate _ d t (hP.silence _ hs) (hf _ (hP.silence _ hs))

theorem Preserved.refuseAnnounce (hP : Preserved P) (d : Side) (t : Telegram) {b : Block} (hs : P s) (hb : P (b s).2) :
    P (s.refuseAnnounce d t b) := by
  unfold State.refuseAnnounce
  exact hP.passGate _ d t hs (hP.conclude _ _ hb)

theorem Preserved.arriveAnnounce (hP : Preserved P) (d : Side) (t : Telegram) (c : Option Nat)
    (w : Option (Option (Nat × Nat))) (hs : P s) : P (s.arriveAnnounce d t c w) := by
  unfold State.arriveAnnounce
  split
  · exact hs
  split
  · exact hP.flush (hP.raise _ hs)
  split
  · exact hP.flush (hP.raise _ hs)
  next st hst =>
    split
    · exact hP.refuseAnnounce d t hs (hP.raise _ hs)
    split
    · exact hP.refuseAnnounce d t hs hs
    · refine hP.passGate _ d t (hP.silence _ hs) (hP.conclude _ _ ?_)
      have haddr : st.address = t.src := station?_address hst
      cases w with
      | none => exact hP.silence _ hs
      | some work => exact haddr ▸ hP.announce work hs (haddr.symm ▸ hst)

theorem malformed_state (h : Header) (k : Nat) (s : State) : (malformed h k s).2 = s := by
  unfold malformed
  split
  · unfold fromAttached
    split
    · rfl
    · split <;> rfl
  · rfl

/-- Every telegram row keeps a preserved property. -/
theorem Preserved.row (hP : Preserved P) {i : Instr} {h : Header} (hh : i.header? = some h) (hs : P s) {t : State}
    (ht : exec i s = .next t) : P t := by
  obtain ⟨b, hb⟩ | ⟨cls, work, rfl⟩ := rowBlock_or_announce hh
  · rw [exec_eq_runRow hh hb] at ht
    cases ht
    exact hP.arrive _ _ hs (fun u hu => hP.conclude _ _ (hP.block hh hb hu))
  · cases ht
    exact hP.arriveAnnounce _ _ _ _ hs

/-- Every run of bytes keeps a preserved property. -/
theorem Preserved.received (hP : Preserved P) (d : Side) (p : List Byte) (hs : P s) {t : State}
    (ht : exec (.telegramReceived d p) s = .next t) : P t := by
  change execTelegramReceived d p s = .next t at ht
  unfold execTelegramReceived at ht
  split at ht
  · cases ht; exact hs
  split at ht
  · cases ht; exact hP.flush (hP.raise _ hs)
  · cases ht; exact hP.flush (hP.raise _ hs)
  next u _ =>
    unfold receive at ht
    split at ht
    · cases ht
      unfold State.arriveRowless
      split
      · exact hP.arriveAnnounce _ _ _ _ hs
      · exact hP.arrive _ _ hs (fun v hv => hP.conclude _ _ ((malformed_state _ _ v).symm ▸ hv))
    next i _ =>
      cases hh : i.header? with
      | none => rw [receiveRow_of_no_header hh] at ht; cases ht; exact hs
      | some h => rw [receiveRow_eq_exec hh] at ht; exact hP.row hh hs ht

/-- Every command keeps a preserved property that the pins, the timers and the evaluations keep too. -/
theorem Preserved.exec (hP : Preserved P)
    (hassert : ∀ s, P s → P s.assertReset) (hrelease : ∀ k n s, P s → P (s.releaseReset k n))
    (hlost : ∀ s : State, P s → P { s with standbyLost := true }) (hsilence : ∀ a s, P s → P (silenceExpiry a s))
    (hack : ∀ a s, P s → P (ackExpiry a s)) {i : Instr} (heval : ∀ a, i = .deliveryEvaluation a → P (evaluate a s))
    (hs : P s) {t : State} (ht : exec i s = .next t) : P t := by
  cases hh : i.header? with
  | some h => exact hP.row hh hs ht
  | none =>
    cases i with
    | coldResetAssert => cases ht; exact hassert s hs
    | coldResetRelease keep straps => cases ht; exact hrelease keep straps s hs
    | standbyRetentionLoss => cases ht; exact hlost s hs
    | telegramReceived side bytes => exact hP.received side bytes hs ht
    | transmitComplete side =>
      cases ht
      refine hP.link ?_ (keeps_transmitDone side) hs
      unfold transmitDone
      split
      · rfl
      · exact withoutLink_setTx _ _
    | silenceTimerExpiry a => cases ht; exact hsilence a s hs
    | ackTimerExpiry a => cases ht; exact hack a s hs
    | deliveryEvaluation a => cases ht; exact heval a rfl
    | _ => cases hh

end

end Sys2Proof.Proofs
end

