-- ==== Sys2Proof/Proofs/Deliveries.lean ====
section
/-! SUPPORT. Who makes an order DELIVERED: every operation but a delivery leaves each DELIVERED order one that was DELIVERED
before, under the same name, saw, number and feed. -/

namespace Sys2Proof.Proofs

open Sys2Proof Sys2Proof.Config Sys2Proof.Machine

/-- The orders on a station's queue. -/
def queueOf (st : Station) : List CutOrder := match st.saw with
  | none => []
  | some w => w.queue

theorem orders_eq (s : State) : s.orders = s.stations.flatMap queueOf := rfl

theorem mem_orders {s : State} {o : CutOrder} : o ∈ s.orders ↔ ∃ st ∈ s.stations, o ∈ queueOf st := by
  simp [orders_eq]

theorem orders_of_stations {s t : State} (h : t.stations = s.stations) : t.orders = s.orders := by
  rw [orders_eq, orders_eq, h]

theorem mem_queueOf {st : Station} {o : CutOrder} : o ∈ queueOf st ↔ ∃ w, st.saw = some w ∧ o ∈ w.queue := by
  cases h : st.saw <;> simp [queueOf, h]

theorem queueOf_mapSaw (f : Saw → Saw) (st : Station) :
    queueOf (st.mapSaw f) = (st.saw.map (fun w => (f w).queue)).getD [] := by
  cases h : st.saw <;> simp [queueOf, Station.mapSaw, h]

/-- The same delivery of the same order, DELIVERED in the first. -/
def SameDelivery (p o : CutOrder) : Prop :=
  p.slab = o.slab ∧ p.index = o.index ∧ p.saw = o.saw ∧ p.number = o.number ∧ p.deliveredFeed = o.deliveredFeed
    ∧ p.state = .delivered

/-- Each DELIVERED order of the second list was DELIVERED so in the first. -/
def NoNewDelivery (l m : List CutOrder) : Prop := ∀ o ∈ m, o.state = .delivered → ∃ p ∈ l, SameDelivery p o

theorem NoNewDelivery.refl (l : List CutOrder) : NoNewDelivery l l :=
  fun o ho hd => ⟨o, ho, rfl, rfl, rfl, rfl, rfl, hd⟩

theorem NoNewDelivery.trans {l m n : List CutOrder} (h : NoNewDelivery l m) (k : NoNewDelivery m n) :
    NoNewDelivery l n := by
  intro o ho hd
  obtain ⟨p, hp, h1, h2, h3, h4, h5, hpd⟩ := k o ho hd
  obtain ⟨q, hq, k1, k2, k3, k4, k5, hqd⟩ := h p hp hpd
  exact ⟨q, hq, k1.trans h1, k2.trans h2, k3.trans h3, k4.trans h4, k5.trans h5, hqd⟩

theorem NoNewDelivery.of_subset {l m : List CutOrder} (h : ∀ o ∈ m, o ∈ l) : NoNewDelivery l m :=
  fun o ho hd => ⟨o, h o ho, rfl, rfl, rfl, rfl, rfl, hd⟩

/-- A change of orders in place that leaves each DELIVERED result the delivery of its original. -/
theorem NoNewDelivery.of_map {f : CutOrder → CutOrder} (h : ∀ o, (f o).state = .delivered → SameDelivery o (f o))
    (l : List CutOrder) : NoNewDelivery l (l.map f) := by
  intro o ho hd
  obtain ⟨p, hp, rfl⟩ := List.mem_map.1 ho
  exact ⟨p, hp, h p hd⟩

/-- From `s` to `t` no order becomes DELIVERED. -/
def Undelivering (s t : State) : Prop := NoNewDelivery s.orders t.orders

section
variable {s t u : State}

theorem Undelivering.refl (s : State) : Undelivering s s := NoNewDelivery.refl _

theorem Undelivering.trans (h : Undelivering s t) (k : Undelivering t u) : Undelivering s u := NoNewDelivery.trans h k

theorem undelivering_of_stations (h : t.stations = s.stations) : Undelivering s t := by
  unfold Undelivering
  rw [orders_of_stations h]
  exact NoNewDelivery.refl _

theorem undelivering_of_tables (h : exceptTables t = exceptTables s) : Undelivering s t :=
  undelivering_of_stations (congrArg State.stations h :)

theorem undelivering_of_accounts (h : exceptAccounts t = exceptAccounts s) : Undelivering s t :=
  undelivering_of_stations (congrArg State.stations h :)

theorem undelivering_of_plans (h : exceptPlans t = exceptPlans s) : Undelivering s t :=
  undelivering_of_stations (congrArg State.stations h :)

/-- Each station of the later state comes of one of the earlier with no new delivery on its queue. -/
theorem undelivering_of_mem (h : ∀ y ∈ t.stations, queueOf y = [] ∨ ∃ x ∈ s.stations, NoNewDelivery (queueOf x) (queueOf y)) :
    Undelivering s t := by
  intro o ho hd
  obtain ⟨y, hy, hoy⟩ := mem_orders.1 ho
  obtain hnil | ⟨x, hx, hxy⟩ := h y hy
  · rw [hnil] at hoy; cases hoy
  · obtain ⟨p, hp, hsame⟩ := hxy o hoy hd
    exact ⟨p, mem_orders.2 ⟨x, hx, hp⟩, hsame⟩

theorem undelivering_map {f : Station → Station} (ht : t.stations = s.stations.map f)
    (h : ∀ x ∈ s.stations, NoNewDelivery (queueOf x) (queueOf (f x))) : Undelivering s t := by
  refine undelivering_of_mem (fun y hy => .inr ?_)
  rw [ht] at hy
  obtain ⟨x, hx, rfl⟩ := List.mem_map.1 hy
  exact ⟨x, hx, h x hx⟩

theorem undelivering_modifyStation (a : Nat) {f : Station → Station}
    (h : ∀ x, NoNewDelivery (queueOf x) (queueOf (f x))) : Undelivering s (s.modifyStation a f) := by
  refine undelivering_map (t := s.modifyStation a f) rfl (fun x _ => ?_)
  split
  · exact h x
  · exact NoNewDelivery.refl _

theorem noNewDelivery_mapSaw {f : Saw → Saw} (h : ∀ w, NoNewDelivery w.queue (f w).queue) (x : Station) :
    NoNewDelivery (queueOf x) (queueOf (x.mapSaw f)) := by
  rw [queueOf_mapSaw]
  cases hx : x.saw with
  | none => simpa [queueOf, hx] using NoNewDelivery.refl []
  | some w => simpa [queueOf, hx] using h w

theorem undelivering_modifySaw (a : Nat) {f : Saw → Saw} (h : ∀ w, NoNewDelivery w.queue (f w).queue) :
    Undelivering s (s.modifySaw a f) := undelivering_modifyStation a (noNewDelivery_mapSaw h)

/-- A saw whose queue stays makes no delivery. -/
theorem undelivering_modifySaw_of_queue (a : Nat) {f : Saw → Saw} (h : ∀ w, (f w).queue = w.queue) :
    Undelivering s (s.modifySaw a f) := by
  refine undelivering_modifySaw a (fun w => ?_)
  rw [h w]
  exact NoNewDelivery.refl _

theorem undelivering_modifyOrder (a b i : Nat) {f : CutOrder → CutOrder}
    (h : ∀ o, (f o).state = .delivered → SameDelivery o (f o)) : Undelivering s (s.modifyOrder a b i f) := by
  refine undelivering_modifySaw a (fun w => NoNewDelivery.of_map (fun o hd => ?_) w.queue)
  by_cases hn : CutOrder.names b i o = true
  · rw [if_pos hn] at hd ⊢
    exact h o hd
  · rw [if_neg hn] at hd ⊢
    exact ⟨rfl, rfl, rfl, rfl, rfl, hd⟩

theorem undelivering_foldl {α : Type} {f : State → α → State} (h : ∀ s x, Undelivering s (f s x)) (l : List α) (s : State) :
    Undelivering s (l.foldl f s) := by
  induction l generalizing s with
  | nil => exact .refl s
  | cons x xs ih => exact (h s x).trans (ih (f s x))

/-! ## The shared operations -/

theorem undelivering_restartSilence (a : Nat) : Undelivering s (s.restartSilence a) := by
  refine undelivering_modifyStation a (fun x => ?_)
  split <;> exact NoNewDelivery.refl _

theorem undelivering_clearBed (a : Nat) : Undelivering s (s.clearBed a) := by
  unfold State.clearBed
  split
  · exact .refl s
  · exact undelivering_modifySaw_of_queue _ (fun _ => rfl)

theorem undelivering_removeOrder (a : Nat) (o : CutOrder) : Undelivering s (s.removeOrder a o) := by
  have removed : Undelivering s (s.modifySaw a (Saw.removeOrder o)) :=
    undelivering_modifySaw a (fun w => .of_subset (fun _ hp => (List.mem_filter.1 hp).1))
  exact removed.trans (undelivering_of_stations (dropOpenOrder_stations _ _))

theorem undelivering_returnPlacement (a i : Nat) : Undelivering s (s.returnPlacement a i) :=
  undelivering_of_plans (returnPlacement_exceptPlans a i s)

theorem undelivering_presentBed (x : Slab) : Undelivering s (s.presentBed x) := by
  refine undelivering_of_stations ?_
  unfold State.presentBed
  split <;> rfl

theorem undelivering_raise (r : FaultRecord) : Undelivering s (s.raise r) := undelivering_of_stations (s.raise_stations r)

theorem undelivering_notify (n : Notice) : Undelivering s (s.notify n) := undelivering_of_stations rfl

theorem undelivering_present (a : Nat) : Undelivering s (s.present a) := undelivering_of_stations rfl

theorem undelivering_closeOf (j : Option Nat) : Undelivering s (s.closeOf j) :=
  undelivering_of_accounts (closeOf_exceptAccounts j s)

theorem undelivering_takeMode (m : WaterMode) (c : ModeCause) (l : List (Nat × Bool)) : Undelivering s (s.takeMode m c l) :=
  undelivering_of_stations (takeMode_stations m c l s)

theorem undelivering_silenced (a : Nat) : Undelivering s (s.modifyStation a Station.silenced) :=
  undelivering_modifyStation a (noNewDelivery_mapSaw (f := Saw.quiet) (fun w => NoNewDelivery.refl w.queue))

theorem undelivering_produceB (t : Option Telegram) : Undelivering s (s.produceB t) := by
  cases t with
  | none => exact .refl s
  | some t => exact undelivering_of_stations (congrArg State.stations (withoutLink_produce (s := s) .b t) :)

theorem undelivering_flush : Undelivering s s.flush :=
  undelivering_of_stations (congrArg State.stations (withoutLink_flush (s := s)) :)

/-! ## Completion -/

theorem undelivering_returnSibling (o : CutOrder) : Undelivering s (s.returnSibling o) :=
  (undelivering_returnPlacement o.slab o.index).trans (undelivering_removeOrder o.saw o)

theorem undelivering_breakSlab (c : Cause) (o : CutOrder) : Undelivering s (s.breakSlab c o) := by
  unfold State.breakSlab
  dsimp only
  have returned := (undelivering_raise (s := s) (brokenFault o)).trans
    (undelivering_foldl (f := State.returnSibling) (fun _ x => undelivering_returnSibling x)
      ((s.raise (brokenFault o)).ordersOn o.saw o.slab) _)
  split
  · exact returned
  · exact returned.trans (undelivering_of_tables (settle_exceptTables c .brk _ _))

theorem undelivering_complete (c : Cause) (w : SawConfig) (o : CutOrder) (oc : Outcome3) (n : Nat) :
    Undelivering s (s.complete c w o oc n).2 := by
  have counted : Undelivering s (s.modifySaw o.saw (Saw.addSeconds n)) :=
    undelivering_modifySaw_of_queue o.saw (fun _ => rfl)
  have ended := ((counted.trans (undelivering_of_tables (completionCharges_exceptTables c w o oc n _))).trans
    (undelivering_of_tables (placeOutcome_exceptTables o oc _))).trans (undelivering_removeOrder o.saw o)
  cases oc with
  | done => exact ended.trans (undelivering_closeOf o.job)
  | abandoned => exact ended.trans (undelivering_closeOf o.job)
  | broke =>
    have broken := ended.trans (undelivering_breakSlab c o)
    exact broken.trans (undelivering_of_accounts (closeAllReady_exceptAccounts _))

end

/-! ## The blocks -/

/-- The block makes no order DELIVERED. -/
def BlockUndelivering (b : Block) : Prop := ∀ s, Undelivering s (b s).2

section
variable {s : State}

theorem blockUndelivering_of_stations {b : Block} (h : ∀ s, (b s).2.stations = s.stations) : BlockUndelivering b :=
  fun s => undelivering_of_stations (h s)

theorem undelivering_unlessFails {c : Check} {b : Block} (h : Undelivering s (b s).2) :
    Undelivering s (unlessFails c b s).2 := by
  unfold unlessFails
  split
  · exact .refl s
  · exact h

theorem blockUndelivering_fromAttached (h : Header) {b : Block} (hb : BlockUndelivering b) :
    BlockUndelivering (fromAttached h b) := by
  intro s
  unfold fromAttached
  split
  · exact .refl s
  · split
    · exact hb s
    · exact .refl s

theorem blockUndelivering_onEditable (a : Nat) {b : Slab → Block} (hb : ∀ x, BlockUndelivering (b x)) :
    BlockUndelivering (onEditable a b) := by
  intro s
  unfold onEditable
  split
  · exact .refl s
  · split
    · exact .refl s
    · exact hb _ s

theorem blockUndelivering_onScan (h : Header) (e a rk sl : Nat) {b : Slab → Block} (hb : ∀ x, BlockUndelivering (b x)) :
    BlockUndelivering (onScan h e a rk sl b) := by
  intro s
  unfold onScan
  split
  · exact .refl s
  split
  · exact undelivering_raise _
  · split
    · exact undelivering_raise _
    · exact hb _ s

theorem recyclerGone_stations (old : Station) (s : State) : (s.recyclerGone old).stations = s.stations := by
  unfold State.recyclerGone
  split
  · dsimp only
    split
    · exact takeMode_stations _ _ _ _
    · rfl
  · rfl

theorem queueOf_newStation (a : Nat) (d : Side) (c : StationClass) (n : Nat) (g : Option SawConfig) :
    queueOf (newStation a d c n g) = [] := by
  cases g <;> rfl

theorem blockUndelivering_loadStation (a c d n : Nat) (f : Option SawFields) :
    BlockUndelivering (loadStation a c d n f) := by
  intro s
  unfold loadStation
  split
  · exact .refl s
  next q _ =>
    refine undelivering_unlessFails ?_
    split
    · refine undelivering_of_mem (fun y hy => ?_)
      obtain rfl | hy := (mem_insertBy _ _ _ _).1 hy
      · exact .inl (queueOf_newStation _ _ _ _ _)
      · exact .inr ⟨y, hy, NoNewDelivery.refl _⟩
    · split
      · refine undelivering_modifyStation _ (fun x => ?_)
        have same : queueOf (x.reload q) = queueOf x := by
          cases hx : x.saw <;> cases hq : q.saw <;> simp [queueOf, Station.reload, hx, hq]
        rw [same]
        exact NoNewDelivery.refl _
      · refine undelivering_unlessFails (Undelivering.trans ?_ (undelivering_of_stations (recyclerGone_stations _ _)))
        refine undelivering_modifyStation _ (fun x => ?_)
        rw [queueOf_newStation]
        exact .of_subset (by simp)

theorem blockUndelivering_loadStationNone (a : Nat) : BlockUndelivering (loadStationNone a) := by
  intro s
  unfold loadStationNone
  split
  · exact .refl s
  split
  · exact .refl s
  · refine undelivering_unlessFails ?_
    dsimp only
    refine Undelivering.trans ?_ (undelivering_of_stations (recyclerGone_stations _ _))
    exact undelivering_of_mem (fun y hy => .inr ⟨y, ((mem_eraseBy _).1 hy).1, NoNewDelivery.refl _⟩)

theorem undelivering_restartStations : Undelivering s s.restartStations := by
  refine undelivering_map (t := s.restartStations) rfl (fun x _ => ?_)
  refine noNewDelivery_mapSaw (f := fun w => w.suspended.quiet) (fun w => ?_) x
  refine NoNewDelivery.of_map (fun o hd => ?_) w.queue
  cases ho : o.state <;> simp_all [CutOrder.suspended]

theorem undelivering_restartFloor : Undelivering s s.restartFloor := by
  have shed : Undelivering s s.shed := by
    refine undelivering_foldl (f := State.shedOrder) (fun u o => ?_) _ s
    exact (undelivering_returnPlacement o.slab o.index).trans (undelivering_removeOrder o.saw o)
  exact (shed.trans (undelivering_of_accounts (closeAllReady_exceptAccounts _))).trans undelivering_restartStations

theorem blockUndelivering_lineReset : BlockUndelivering lineReset := by
  intro s
  refine Undelivering.trans undelivering_restartFloor (undelivering_of_stations ?_)
  change (State.tellLineReset _ _ _).stations = _
  unfold State.tellLineReset
  split <;> rfl

theorem undelivering_displace (y : Nat) : Undelivering s (s.displace y) := undelivering_clearBed y

theorem undelivering_putOnBed (x : Slab) (saw : Nat) (d : Option Nat) : Undelivering s (s.putOnBed x saw d) := by
  have placed (u : State) (f : Slab → Slab) :
      Undelivering u ((((u.modifySlab x.id f).modifySaw saw (fun w => { w with bed := some x.id })).presentBed x)) := by
    have moved : Undelivering u ((u.modifySlab x.id f).modifySaw saw (fun w => { w with bed := some x.id })) :=
      undelivering_modifySaw_of_queue (s := u.modifySlab x.id f) saw (fun _ => rfl)
    exact moved.trans (undelivering_presentBed x)
  cases d with
  | none => exact (undelivering_clearBed x.id).trans (placed _ _)
  | some y => exact ((undelivering_clearBed x.id).trans (undelivering_displace y)).trans (placed _ _)

theorem blockUndelivering_scanToRack (rk sl : Nat) (x : Slab) : BlockUndelivering (scanToRack rk sl x) := by
  intro s
  unfold scanToRack
  dsimp only
  split
  · exact .refl s
  split
  · split
    · exact .refl s
    · exact (undelivering_clearBed x.id).trans (undelivering_presentBed x)
  · exact undelivering_of_stations rfl

theorem blockUndelivering_scanToBed (h : Header) (w : Nat) (x : Slab) : BlockUndelivering (scanToBed h w x) := by
  intro s
  unfold scanToBed
  split
  · exact .refl s
  split
  · exact .refl s
  split
  · exact .refl s
  split
  · exact .refl s
  split
  · exact undelivering_putOnBed _ _ _
  · split
    · exact undelivering_raise _
    · exact (undelivering_raise _).trans (undelivering_putOnBed _ _ _)

theorem blockUndelivering_scanOffBed (x : Slab) : BlockUndelivering (scanOffBed x) := by
  intro s
  unfold scanOffBed
  split
  · exact .refl s
  split
  · exact .refl s
  · exact (undelivering_clearBed x.id).trans (undelivering_presentBed x)

theorem blockUndelivering_scanAway (h : Header) (x : Slab) : BlockUndelivering (scanAway h x) := by
  intro s
  unfold scanAway
  split
  · exact undelivering_raise _
  · exact (undelivering_clearBed x.id).trans (undelivering_presentBed x)

/-- The order an admission appends is WAITING. -/
theorem blockUndelivering_order (d j a i f : Nat) : BlockUndelivering (order d j a i f) := by
  intro s
  unfold order
  split
  · exact .refl s
  refine undelivering_unlessFails ?_
  split
  next p w _ _ =>
    let new := newOrder p d (clampFeed w.config f) (advance32 s.admissionCounter)
    have appended : Undelivering s (s.modifySaw d (fun w => { w with queue := w.queue ++ [new] })) := by
      refine undelivering_modifySaw d (fun v o ho hd => ?_)
      obtain ho | ho := List.mem_append.1 ho
      · exact NoNewDelivery.refl _ o ho hd
      · obtain rfl := List.mem_singleton.1 ho
        cases hd
    refine appended.trans (undelivering_of_stations ?_)
    exact raiseOpenOrder_stations p.job _
  · exact .refl s

theorem blockUndelivering_withdraw (a i : Nat) : BlockUndelivering (withdraw a i) := by
  intro s
  unfold withdraw
  split
  · exact .refl s
  refine undelivering_unlessFails ?_
  split
  · exact .refl s
  next o _ =>
    exact ((undelivering_returnPlacement a i).trans (undelivering_removeOrder o.saw o)).trans
      (undelivering_closeOf o.job)

/-- Water drawn while no order runs goes to overhead alone (R89, R112). -/
theorem drawWater_overhead {a d : Nat} {active : Option CutOrder} (h : ∀ o, active = some o → o.state ≠ .running) :
    s.drawWater a active d = s.addOverheadWater (recycledPart d s.water.share) (freshPart d s.water.share) := by
  cases active with
  | none => rfl
  | some o => exact if_neg (h o rfl)

/-- Water drawn while an order runs goes to that order, and to overhead too where it is a REMNANT's. -/
theorem drawWater_running {a d : Nat} {o : CutOrder} (h : o.state = .running) : s.drawWater a (some o) d
    = if o.kind = .remnant then
        (s.modifyOrder a o.slab o.index (CutOrder.addWater (recycledPart d s.water.share) (freshPart d s.water.share))).addOverheadWater
          (recycledPart d s.water.share) (freshPart d s.water.share)
      else s.modifyOrder a o.slab o.index (CutOrder.addWater (recycledPart d s.water.share) (freshPart d s.water.share)) := if_pos h

theorem running_or_not (active : Option CutOrder) : (∀ o, active = some o → o.state ≠ .running)
    ∨ ∃ o, active = some o ∧ o.state = .running := by
  cases active with
  | none => exact .inl (fun _ h => by cases h)
  | some o =>
    by_cases hr : o.state = .running
    · exact .inr ⟨o, rfl, hr⟩
    · exact .inl (fun _ h => by cases h; exact hr)

theorem undelivering_drawWater (a d : Nat) (active : Option CutOrder) : Undelivering s (s.drawWater a active d) := by
  rcases running_or_not active with hidle | ⟨o, rfl, hr⟩
  · rw [drawWater_overhead hidle]
    exact undelivering_of_stations rfl
  · have watered (r f : Nat) : Undelivering s (s.modifyOrder a o.slab o.index (CutOrder.addWater r f)) :=
      undelivering_modifyOrder _ _ _ (fun x hd => ⟨rfl, rfl, rfl, rfl, rfl, hd⟩)
    rw [drawWater_running hr]
    split
    · exact watered _ _
    · exact watered _ _

theorem blockUndelivering_sawStatus (a b c d e f g : Nat) : BlockUndelivering (sawStatus a b c d e f g) := by
  intro s
  unfold sawStatus
  split
  · next t w _ _ =>
    have taken : Undelivering s ((s.modifySaw a (Saw.takeStatus t)).drawWater a w.active t.delta) :=
      (undelivering_modifySaw_of_queue (f := Saw.takeStatus t) a (fun _ => rfl)).trans (undelivering_drawWater _ _ _)
    dsimp only
    split
    · exact taken
    · exact taken
  · exact .refl s

theorem blockUndelivering_orderAck (a b i : Nat) : BlockUndelivering (orderAck a b i) := by
  intro s
  unfold orderAck
  split
  · exact .refl s
  · dsimp only
    split
    · refine Undelivering.trans (undelivering_modifyOrder _ _ _ ?_) (undelivering_modifySaw_of_queue _ (fun _ => rfl))
      intro o hd
      cases hd
    · exact .refl s

theorem blockUndelivering_orderDecline (a b i : Nat) : BlockUndelivering (orderDecline a b i) := by
  intro s
  unfold orderDecline
  split
  · exact .refl s
  next o _ =>
    exact ((undelivering_returnPlacement _ _).trans (undelivering_removeOrder o.saw o)).trans
      (undelivering_closeOf o.job)

theorem undelivering_honour (a : Nat) (w : Saw) (o : CutOrder) (oc : Outcome3) (n : Nat) :
    Undelivering s (honour a w o oc n s).2 := undelivering_complete _ _ _ _ _

theorem undelivering_reattach (a : Nat) : Undelivering s (s.reattach a) :=
  undelivering_modifyStation a (fun x => NoNewDelivery.refl (queueOf x))

theorem blockUndelivering_cutReport (a b i oc n : Nat) : BlockUndelivering (cutReport a b i oc n) := by
  intro s
  unfold cutReport
  split
  · exact .refl s
  split
  · exact .refl s
  split
  · exact undelivering_honour _ _ _ _ _
  · split
    · exact (undelivering_reattach a).trans (undelivering_honour _ _ _ _ _)
    · exact undelivering_raise _
  · exact undelivering_raise _

theorem undelivering_resolveDoubt (a : Nat) (l : Option (Nat × Nat)) : Undelivering s (s.resolveDoubt a l) := by
  have resumed (u : State) (o : CutOrder) : Undelivering u (u.resume a o) :=
    undelivering_modifyOrder _ _ _ (fun _ hd => by cases hd)
  have abandoned (u : State) (w : Saw) (o : CutOrder) : Undelivering u (u.abandon a w o) := undelivering_complete _ _ _ _ _
  unfold State.resolveDoubt
  split
  · exact .refl s
  split
  · exact abandoned _ _ _
  · split
    · exact resumed _ _
    · exact (undelivering_raise _).trans (abandoned _ _ _)
  · exact .refl s
  · split
    · exact undelivering_raise _
    · split
      · exact resumed _ _
      · exact undelivering_raise _

theorem queueValve_stations (m : WaterMode) (s : State) : (s.queueValve m).stations = s.stations := by
  unfold State.queueValve
  split
  · rfl
  · split <;> rfl

theorem undelivering_announce (st : Station) (work : Option (Nat × Nat)) : Undelivering s (announce st work s).2 := by
  have attached : Undelivering s (s.attach st.address) :=
    undelivering_modifyStation _ (fun x => NoNewDelivery.refl (queueOf x))
  have resolved (u : State) : Undelivering u ((u.resolveDoubt st.address work).present st.address) :=
    undelivering_resolveDoubt _ _
  unfold announce
  dsimp only
  split
  · exact .refl s
  refine attached.trans ?_
  unfold State.onAttach
  split
  · exact resolved _
  · exact resolved _
  · exact undelivering_of_stations (queueValve_stations _ _)
  all_goals exact .refl _

theorem recomputeMode_stations (c : ModeCause) (l : List (Nat × Bool)) (s : State) :
    (s.recomputeMode c l).stations = s.stations := by
  unfold State.recomputeMode
  split
  · rfl
  · exact takeMode_stations _ _ _ _

theorem blockUndelivering_slabLock (a r : Nat) : BlockUndelivering (slabLock a r) := by
  intro s
  unfold slabLock
  split
  · exact .refl s
  · refine blockUndelivering_onEditable a (fun x u => ?_) s
    split
    · exact .refl u
    · exact undelivering_presentBed x

theorem blockUndelivering_slabUnlock (a : Nat) : BlockUndelivering (slabUnlock a) := by
  refine blockUndelivering_onEditable a (fun x u => ?_)
  dsimp only
  split
  · exact undelivering_presentBed x
  · exact .refl u

theorem undelivering_dropMets (a : Nat) (r : Rect) (l : List Nat) (q : Nat × State) :
    Undelivering q.2 (l.foldl (dropMet a r) q).2 := undelivering_of_tables (dropMets_exceptTables a r l q)

theorem blockUndelivering_slabAddDefect (a : Nat) (r : Rect) : BlockUndelivering (slabAddDefect a r) := by
  refine blockUndelivering_onEditable a (fun x u => ?_)
  dsimp only
  split
  · exact .refl u
  split
  · exact .refl u
  split
  · exact .refl u
  split
  · exact .refl u
  split
  · exact .refl u
  · have grown : Undelivering u (u.modifySlab a (fun x => { x with defects := x.defects ++ [r] })) :=
      undelivering_of_stations rfl
    refine grown.trans ?_
    dsimp only
    exact undelivering_dropMets a r _ (0, _)

theorem blockUndelivering_place (a k : Nat) (r : Rect) (j pp pi rs : Nat) : BlockUndelivering (place a k r j pp pi rs) := by
  intro s
  unfold place
  split
  · exact .refl s
  refine undelivering_unlessFails ?_
  split
  · refine undelivering_of_stations ?_
    change (State.reserveRemnant _ _ _).stations = _
    unfold State.reserveRemnant
    split <;> rfl
  · exact .refl s

theorem blockUndelivering_unplace (a i : Nat) : BlockUndelivering (unplace a i) := by
  intro s
  unfold unplace
  split
  · exact .refl s
  split
  · exact .refl s
  split
  · exact .refl s
  split
  · exact .refl s
  · exact undelivering_of_plans (removePlacement_exceptPlans _ _)

theorem blockUndelivering_slabDone (a : Nat) (e : Ending) (b : Nat) : BlockUndelivering (slabDone a e b) := by
  intro s
  unfold slabDone
  split
  · exact .refl s
  split
  · exact .refl s
  · refine undelivering_unlessFails ?_
    exact (undelivering_of_tables (settle_exceptTables _ _ _ _)).trans
      (undelivering_of_accounts (closeParticipants_exceptAccounts _ _))

theorem blockUndelivering_jobClose (i : Nat) : BlockUndelivering (jobClose i) := by
  intro s
  unfold jobClose
  split
  · exact .refl s
  split
  · exact .refl s
  split
  · exact .refl s
  · exact (undelivering_of_plans (dropPlanOf_exceptPlans i s)).trans
      (undelivering_of_accounts (startClosing_exceptAccounts i _))

theorem waterSample_stations (a n l t r f : Nat) (s : State) : (waterSample a n l t r f s).2.stations = s.stations := by
  unfold waterSample
  split
  · rfl
  · have gap : (s.gapCheck a n).stations = s.stations := by
      unfold State.gapCheck
      split
      · rfl
      · exact State.raise_stations _ _
    refine Eq.trans ?_ gap
    change (State.modeAfterSample _ _).stations = _
    unfold State.modeAfterSample
    split
    · exact changeMode_stations _ _ _ _
    · split <;> rfl

/-- A check and then a plain change of other items. -/
theorem undelivering_ite {c : Prop} [Decidable c] {x y : Reply × State} (hx : Undelivering s x.2) (hy : Undelivering s y.2) :
    Undelivering s (if c then x else y).2 := by
  split
  · exact hx
  · exact hy

/-- No row's block makes an order DELIVERED. -/
theorem undelivering_rowBlock {i : Instr} {b : Block} (hb : rowBlock i = some b) : BlockUndelivering b := by
  cases i with
  | loadStation => cases hb; exact blockUndelivering_loadStation _ _ _ _ _
  | loadStationNone => cases hb; exact blockUndelivering_loadStationNone _
  | loadRule h c d t k =>
    cases hb
    refine blockUndelivering_of_stations (fun s => ?_)
    unfold loadRule unlessFails
    split
    · rfl
    split
    · rfl
    split <;> rfl
  | loadGroup =>
    cases hb
    refine blockUndelivering_of_stations (fun s => ?_)
    unfold loadGroup unlessFails
    split
    · rfl
    split <;> rfl
  | loadConstants => cases hb; exact fun s => undelivering_ite (.refl s) (undelivering_of_stations rfl)
  | loadRates => cases hb; exact fun s => undelivering_ite (.refl s) (undelivering_of_stations rfl)
  | loadShareWindow => cases hb; exact fun s => undelivering_ite (.refl s) (undelivering_of_stations rfl)
  | loadNotices =>
    cases hb
    exact fun s => undelivering_ite (.refl s) (undelivering_ite (.refl s) (undelivering_of_stations rfl))
  | loadWaterRule =>
    cases hb
    refine blockUndelivering_of_stations (fun s => ?_)
    unfold loadWaterRule
    split
    · rfl
    · exact recomputeMode_stations _ _ _
  | loadAllowance =>
    cases hb
    exact fun s => undelivering_ite (.refl s) (undelivering_of_stations (recomputeMode_stations _ _ _))
  | renewAllowance => cases hb; exact blockUndelivering_of_stations (fun s => recomputeMode_stations _ _ _)
  | clearFault => cases hb; exact blockUndelivering_of_stations (fun s => rfl)
  | releaseLine =>
    cases hb
    refine blockUndelivering_of_stations (fun s => ?_)
    unfold releaseLine
    dsimp only
    split <;> rfl
  | lineReset => cases hb; exact blockUndelivering_lineReset
  | slabEnter =>
    cases hb
    exact fun s => undelivering_ite (.refl s)
      (undelivering_ite (.refl s) (undelivering_ite (.refl s) (undelivering_of_stations rfl)))
  | slabEditLock => cases hb; exact blockUndelivering_slabLock _ _
  | slabEditUnlock => cases hb; exact blockUndelivering_slabUnlock _
  | slabEditSetBasis =>
    cases hb
    exact blockUndelivering_onEditable _ (fun x s => undelivering_ite (.refl s)
      (undelivering_ite (.refl s) (undelivering_ite (.refl s) (undelivering_of_stations rfl))))
  | slabEditAddDefect => cases hb; exact blockUndelivering_slabAddDefect _ _
  | slabRetire =>
    cases hb
    refine blockUndelivering_of_stations (fun s => ?_)
    unfold slabRetire
    split
    · rfl
    split
    · rfl
    split <;> rfl
  | slabDoneFinished => cases hb; exact blockUndelivering_slabDone _ _ _
  | slabDoneScrap => cases hb; exact blockUndelivering_slabDone _ _ _
  | place => cases hb; exact blockUndelivering_place _ _ _ _ _ _ _
  | unplace => cases hb; exact blockUndelivering_unplace _ _
  | order => cases hb; exact blockUndelivering_order _ _ _ _ _
  | withdraw => cases hb; exact blockUndelivering_withdraw _ _
  | jobOpen =>
    cases hb
    exact fun s => undelivering_ite (.refl s)
      (undelivering_ite (.refl s) (undelivering_ite (.refl s) (undelivering_of_stations rfl)))
  | jobLimit =>
    cases hb
    refine blockUndelivering_of_stations (fun s => ?_)
    unfold jobLimit
    split
    · rfl
    split
    · rfl
    split
    · rfl
    split <;> rfl
  | jobClose => cases hb; exact blockUndelivering_jobClose _
  | takeBill =>
    cases hb
    refine blockUndelivering_of_stations (fun s => ?_)
    unfold takeBill
    split
    · rfl
    split
    · rfl
    split
    · rfl
    split <;> rfl
  | sawStatus => cases hb; exact blockUndelivering_fromAttached _ (blockUndelivering_sawStatus _ _ _ _ _ _ _)
  | orderAck => cases hb; exact blockUndelivering_fromAttached _ (blockUndelivering_orderAck _ _ _)
  | orderDecline => cases hb; exact blockUndelivering_fromAttached _ (blockUndelivering_orderDecline _ _ _)
  | cutReport => cases hb; exact blockUndelivering_cutReport _ _ _ _ _
  | scanRacked => cases hb; exact blockUndelivering_onScan _ _ _ _ _ (blockUndelivering_scanToRack _ _)
  | scanStaged => cases hb; exact blockUndelivering_onScan _ _ _ _ _ (blockUndelivering_scanToBed _ _)
  | scanUnstaged => cases hb; exact blockUndelivering_onScan _ _ _ _ _ blockUndelivering_scanOffBed
  | scanGone => cases hb; exact blockUndelivering_onScan _ _ _ _ _ (blockUndelivering_scanAway _)
  | waterSample =>
    cases hb
    exact blockUndelivering_fromAttached _ (blockUndelivering_of_stations (waterSample_stations _ _ _ _ _ _))
  | coldResetAssert => cases hb
  | coldResetRelease => cases hb
  | standbyRetentionLoss => cases hb
  | telegramReceived => cases hb
  | transmitComplete => cases hb
  | announce => cases hb
  | silenceTimerExpiry => cases hb
  | ackTimerExpiry => cases hb
  | deliveryEvaluation => cases hb
  | _ => cases hb; exact fun s => .refl s

/-! ## Pins and timers -/

theorem undelivering_assertReset : Undelivering s s.assertReset :=
  undelivering_map (t := s.assertReset) rfl (fun x _ => noNewDelivery_mapSaw (f := Saw.stopTimer) (fun w => .refl w.queue) x)

theorem undelivering_releaseReset (k : Bool) (n : Nat) : Undelivering s (s.releaseReset k n) := by
  have plain (r : ResetReport) : Undelivering s (s.plainReset n r) := NoNewDelivery.of_subset (by intro o ho; cases ho)
  unfold State.releaseReset
  split
  · split
    · exact plain _
    · exact undelivering_restartFloor
  · exact plain _

theorem undelivering_silenceExpiry (a : Nat) : Undelivering s (silenceExpiry a s) := by
  unfold silenceExpiry
  split
  · exact .refl s
  next st _ =>
    split
    · refine Undelivering.trans ?_ undelivering_flush
      have silent : Undelivering s ((s.modifyStation st.address Station.silenced).raise (silenceFault st)) :=
        (undelivering_silenced _).trans (undelivering_raise _)
      have waits (u : State) : Undelivering u (u.modifySaw st.address Saw.silenceOrders) := by
        refine undelivering_modifySaw _ (fun w => NoNewDelivery.of_map (fun o hd => ?_) w.queue)
        cases ho : o.state <;> simp_all [CutOrder.silenced, CutOrder.toWaiting]
      unfold State.silence
      dsimp only
      split
      · exact silent.trans (undelivering_takeMode _ _ _)
      · exact silent.trans (waits _)
      · exact silent.trans (waits _)
      all_goals exact silent
    · exact .refl s

theorem undelivering_ackExpiry (a : Nat) : Undelivering s (ackExpiry a s) := by
  unfold ackExpiry
  split
  · exact .refl s
  next o _ =>
    split
    · refine Undelivering.trans ?_ undelivering_flush
      refine Undelivering.trans ?_ (undelivering_produceB _)
      refine Undelivering.trans ?_ (undelivering_modifySaw_of_queue _ (fun _ => rfl))
      exact undelivering_modifyOrder _ _ _ (fun x hd => ⟨rfl, rfl, rfl, rfl, rfl, hd⟩)
    · refine Undelivering.trans ?_ undelivering_flush
      have waiting : Undelivering s (((s.modifyStation o.saw Station.silenced).modifyOrder o.saw o.slab o.index
          CutOrder.toWaiting).modifySaw o.saw (fun w => { w with ackTimer := none })) :=
        ((undelivering_silenced _).trans (undelivering_modifyOrder _ _ _ (fun _ hd => by cases hd))).trans
          (undelivering_modifySaw_of_queue _ (fun _ => rfl))
      unfold State.endDelivery
      exact ((waiting.trans (undelivering_raise _)).trans (undelivering_notify _)).trans (undelivering_present _)

/-- Every telegram keeps the deliveries among those of a state they came from. -/
theorem preserved_undelivering (s₀ : State) : Preserved (Undelivering s₀) where
  link h _ hs := hs.trans (undelivering_of_stations (congrArg State.stations h :))
  silence a _ hs := hs.trans (undelivering_restartSilence a)
  block _ hb _ hs := hs.trans (undelivering_rowBlock hb _)
  announce work hs _ := (hs.trans (undelivering_restartSilence _)).trans (undelivering_announce _ work)

/-! ## Evaluation -/

/-- What an evaluation delivers passed the gates and tests of R75 and R76. -/
theorem nextDelivery_some {saw : Nat} {o : CutOrder} (h : s.nextDelivery saw = some o) :
    s.line = .run ∧ s.water.mode ≠ .halt ∧ ∃ x, s.slab? o.slab = some x ∧ x.state = .staged ∧ x.lock = none := by
  unfold State.nextDelivery at h
  split at h
  · cases h
  split at h
  · cases h
  split at h
  next hgates =>
    have hpass := List.find?_some h
    simp only [State.deliverable, Bool.and_eq_true] at hpass
    obtain ⟨⟨⟨-, hslab⟩, hwater⟩, -⟩ := hpass
    simp only [gatesOpen, Bool.and_eq_true, decide_eq_true_eq] at hgates
    obtain ⟨⟨⟨hline, -⟩, -⟩, -⟩ := hgates
    refine ⟨hline, ?_, ?_⟩
    · simp only [waterPasses, Bool.and_eq_true, decide_eq_true_eq] at hwater
      exact hwater.1
    · split at hslab
      · cases hslab
      next x hx =>
        simp only [Slab.onBed, Bool.and_eq_true, decide_eq_true_eq, Option.isNone_iff_eq_none] at hslab
        obtain ⟨⟨hstaged, -⟩, hlock⟩ := hslab
        exact ⟨x, hx, hstaged, hlock⟩
  · cases h

/-- After a delivery every DELIVERED order stood so before, or has the name of the order delivered. -/
theorem deliver_orders {saw : Nat} {o p : CutOrder} (hp : p ∈ (s.deliver saw o).flush.orders) (hd : p.state = .delivered) :
    (∃ q ∈ s.orders, SameDelivery q p) ∨ p.slab = o.slab := by
  let feed := deliveredFeedUnder s.water.mode o.requestedFeed s.constants.conserveFeed
  let marked := s.modifyOrder saw o.slab o.index (CutOrder.delivered feed s.constants.kerf)
  have after : Undelivering marked (s.deliver saw o).flush := by
    refine Undelivering.trans ?_ undelivering_flush
    refine Undelivering.trans ?_ (undelivering_produceB _)
    exact undelivering_modifySaw_of_queue (s := marked) _ (fun _ => rfl)
  obtain ⟨q, hq, hsame⟩ := after p hp hd
  obtain ⟨st, hst, hqst⟩ := mem_orders.1 hq
  obtain ⟨y, hy, rfl⟩ := List.mem_map.1 hst
  obtain ⟨hslab, hindex, hsaw, hnumber, hfeed, hqd⟩ := hsame
  by_cases haddr : y.address = saw
  · rw [if_pos haddr, queueOf_mapSaw] at hqst
    cases hw : y.saw with
    | none => simp [hw] at hqst
    | some w =>
      simp only [hw, Option.map_some, Option.getD_some, List.mem_map] at hqst
      obtain ⟨z, hz, hzq⟩ := hqst
      by_cases hn : CutOrder.names o.slab o.index z = true
      · rw [if_pos hn] at hzq
        subst hzq
        simp only [CutOrder.names, Bool.and_eq_true, decide_eq_true_eq] at hn
        exact .inr (hslab.symm.trans hn.1)
      · rw [if_neg hn] at hzq
        subst hzq
        exact .inl ⟨z, mem_orders.2 ⟨y, hy, mem_queueOf.2 ⟨w, hw, hz⟩⟩, hslab, hindex, hsaw, hnumber, hfeed, hqd⟩
  · rw [if_neg haddr] at hqst
    exact .inl ⟨q, mem_orders.2 ⟨y, hy, hqst⟩, hslab, hindex, hsaw, hnumber, hfeed, hqd⟩

/-- What an evaluation that delivers does: it stands on an order that passed. -/
theorem evaluate_cases (saw : Nat) (s : State) :
    Undelivering s (evaluate saw s) ∨ ∃ o, ({ s with presented := s.presented.erase saw } : State).nextDelivery saw = some o
      ∧ evaluate saw s = (({ s with presented := s.presented.erase saw } : State).deliver saw o).flush := by
  unfold evaluate
  split
  · dsimp only
    split
    · exact .inl (undelivering_of_stations rfl)
    next o ho => exact .inr ⟨o, ho, rfl⟩
  · exact .inl (.refl s)

end

/-- Settles O42. Every command but an evaluation keeps the relation of the deliveries; an evaluation that delivers marks
one order, which passed the tests of R75 and R76. -/
theorem onlyEvaluationDelivers : Obligations.OnlyEvaluationDelivers := by
  intro c s t o ht ho hd
  by_cases hcalm : Undelivering s t
  · exact .inl (hcalm o ho hd)
  have hnot : ¬ ∀ a, c = .deliveryEvaluation a → Undelivering s (evaluate a s) := fun heval =>
    hcalm ((preserved_undelivering s).exec (fun _ h => h.trans undelivering_assertReset)
      (fun k n _ h => h.trans (undelivering_releaseReset k n)) (fun _ h => h.trans (undelivering_of_stations rfl))
      (fun a _ h => h.trans (undelivering_silenceExpiry a)) (fun a _ h => h.trans (undelivering_ackExpiry a)) heval
      (.refl s) ht)
  push Not at hnot
  obtain ⟨a, rfl, heval⟩ := hnot
  obtain hrefl | ⟨y, hy, hdeliver⟩ := evaluate_cases a s
  · exact absurd hrefl heval
  obtain rfl : t = evaluate a s := (Host.Outcome.next.inj ht).symm
  rw [hdeliver] at ho
  obtain hold | hname := deliver_orders ho hd
  · exact .inl hold
  · obtain ⟨hline, hmode, x, hx, hstaged, hlock⟩ := nextDelivery_some hy
    exact .inr ⟨a, x, rfl, hline, hmode, hname ▸ hx, hstaged, hlock⟩

end Sys2Proof.Proofs
end

