-- ==== Sys2Proof/Proofs/Wire.lean ====
section
/-! SUPPORT. Telegrams as bytes: the form test finds exactly the wire forms (Table 11-1, R157), and the payload of every
well-formed row spells that row (Tables 11-4 to 11-6). -/

namespace Sys2Proof.Proofs

open Sys2Proof Sys2Proof.Config Sys2Proof.Machine

/-! ## The form test -/

@[simp] theorem be_one (x : Nat) : be 1 x = [BitVec.ofNat 8 x] := by simp [be]

theorem be_one_toNat (b : Byte) : be 1 b.toNat = [b] := by simp

/-- A telegram's body, byte by byte. -/
theorem body_eq (t : Telegram) : t.body = BitVec.ofNat 8 t.dst :: BitVec.ofNat 8 t.src :: BitVec.ofNat 8 t.kind ::
    BitVec.ofNat 8 t.tag :: BitVec.ofNat 8 t.payload.length :: t.payload := by
  simp [Telegram.body]

/-- The ranges of Table 11-1. -/
def Formed (t : Telegram) : Prop :=
  1 ≤ t.dst ∧ t.dst ≤ 31 ∧ t.src ≤ 255 ∧ t.kind ≤ 63 ∧ t.tag ≤ 255 ∧ t.payload.length ≤ 48

theorem length_body (t : Telegram) : t.body.length = t.payload.length + 5 := by simp [body_eq]

theorem length_wire (t : Telegram) : t.wire.length = t.payload.length + 7 := by simp [Telegram.wire, length_body]

theorem take_wire (t : Telegram) : t.wire.take (t.wire.length - 2) = t.body := by
  rw [length_wire]
  exact List.take_left' (length_body t)

theorem drop_wire (t : Telegram) : t.wire.drop (t.wire.length - 2) = be 2 (checkWord t.body).toNat := by
  rw [length_wire]
  exact List.drop_left' (length_body t)

theorem formTest_wire {t : Telegram} (h : Formed t) : formTest t.wire = .ok t := by
  obtain ⟨hd1, hd, hs, hk, hg, hn⟩ := h
  have toByte {x : Nat} (hx : x ≤ 255) : (BitVec.ofNat 8 x).toNat = x := by
    rw [BitVec.toNat_ofNat]; exact Nat.mod_eq_of_lt (Nat.lt_succ_of_le hx)
  unfold formTest
  rw [if_neg (by rw [length_wire]; omega)]
  simp only [take_wire, drop_wire, ne_eq, not_true_eq_false, if_false]
  rw [body_eq]
  simp only [length_wire]
  rw [toByte (x := t.dst) (by omega), toByte hs, toByte (x := t.kind) (by omega), toByte hg,
    toByte (x := t.payload.length) (by omega), if_neg (by omega)]

theorem formed_of_formTest {p : List Byte} {t : Telegram} (h : formTest p = .ok t) : p = t.wire ∧ Formed t := by
  unfold formTest at h
  split at h
  · cases h
  dsimp only at h
  split at h
  · cases h
  next hlen hcheck =>
    split at h
    next d s k g n payload hbody =>
      split at h
      · cases h
      next hform =>
        cases h
        have hpay : payload.length + 5 = p.length - 2 := by
          rw [← List.length_take_of_le (show p.length - 2 ≤ p.length by omega), hbody]
          rfl
        have hs := s.isLt
        have hg := g.isLt
        have hbytes : Telegram.body ⟨d.toNat, s.toNat, k.toNat, g.toNat, payload⟩ = p.take (p.length - 2) := by
          have hnum : payload.length = n.toNat := by omega
          rw [hbody, body_eq]
          simp [hnum]
        refine ⟨?_, ?_⟩
        · rw [Telegram.wire, hbytes, not_not.1 hcheck, List.take_append_drop]
        · simp only [Formed]
          omega
    · cases h

/-- Settles O10. -/
theorem formTestAcceptsWireForms : Obligations.FormTestAcceptsWireForms := by
  intro p t
  constructor
  · exact formed_of_formTest
  · rintro ⟨rfl, hformed⟩
    exact formTest_wire hformed

/-! ## Received telegrams -/

theorem exec_received {side : Side} {t : Telegram} {s : State} (hs : s.inReset = false) (ht : Formed t) :
    exec (.telegramReceived side t.wire) s = receive side t s := by
  change execTelegramReceived side t.wire s = _
  unfold execTelegramReceived
  rw [if_neg (by simp [hs]), formTest_wire ht]

theorem exec_received_rowless {side : Side} {t : Telegram} {s : State} (hs : s.inReset = false) (ht : Formed t)
    (hparse : parsePayload (t.header side) t.kind t.payload = none) :
    exec (.telegramReceived side t.wire) s = .next (s.arriveRowless side t) := by
  rw [exec_received hs ht, receive, hparse]

theorem byteAt_of_lt {p : List Byte} {i : Nat} (h : i < p.length) : byteAt p i = p[i].toNat := by
  simp [byteAt, List.getElem?_eq_getElem h]

theorem formTest_short {p : List Byte} (h : p.length < 7) : formTest p = .badForm := if_pos h

theorem formTest_badCheck {p : List Byte} (h : 7 ≤ p.length)
    (hc : be 2 (checkWord (p.take (p.length - 2))).toNat ≠ p.drop (p.length - 2)) : formTest p = .badCheck := by
  unfold formTest
  rw [if_neg (by omega)]
  exact if_pos hc

theorem formTest_badForm {p : List Byte} (h : 7 ≤ p.length)
    (hbad : 48 < byteAt p 4 ∨ byteAt p 4 ≠ p.length - 7 ∨ byteAt p 0 = 0 ∨ 31 < byteAt p 0 ∨ 63 < byteAt p 2)
    (hc : be 2 (checkWord (p.take (p.length - 2))).toNat = p.drop (p.length - 2)) : formTest p = .badForm := by
  obtain ⟨d, s, k, g, n, rest, rfl⟩ : ∃ d s k g n rest, p = d :: s :: k :: g :: n :: rest := by
    match p, h with
    | d :: s :: k :: g :: n :: rest, _ => exact ⟨d, s, k, g, n, rest, rfl⟩
  obtain ⟨m, hm⟩ : ∃ m, (d :: s :: k :: g :: n :: rest).length - 2 = m + 5 := ⟨rest.length - 2, by simp at h ⊢; omega⟩
  simp only [byteAt, List.getElem?_cons_succ, List.getElem?_cons_zero] at hbad
  unfold formTest
  rw [if_neg (by omega)]
  dsimp only
  rw [if_neg (not_not.2 hc), hm]
  exact if_pos hbad

theorem exec_received_badForm {side : Side} {p : List Byte} {s : State} (hs : s.inReset = false)
    (h : formTest p = .badForm) :
    exec (.telegramReceived side p) s = .next (s.raise (formFault .linkForm side p)).flush := by
  change execTelegramReceived side p s = _
  unfold execTelegramReceived
  rw [if_neg (by simp [hs]), h]

theorem exec_received_badCheck {side : Side} {p : List Byte} {s : State} (hs : s.inReset = false)
    (h : formTest p = .badCheck) :
    exec (.telegramReceived side p) s = .next (s.raise (formFault .linkCheck side p)).flush := by
  change execTelegramReceived side p s = _
  unfold execTelegramReceived
  rw [if_neg (by simp [hs]), h]

/-- Settles O13. R157, step by step: the length, the check word, the ranges. -/
theorem damagedTelegramsAreDiscarded : Obligations.DamagedTelegramsAreDiscarded := by
  intro side p s hs fault
  exact ⟨fun hshort => exec_received_badForm hs (formTest_short hshort),
    fun hlen hc => exec_received_badCheck hs (formTest_badCheck hlen hc),
    fun hlen hc hbad => exec_received_badForm hs (formTest_badForm hlen hbad hc)⟩

/-! ## Rows and payloads -/

theorem done_nil (i : Instr) : done i [] = some i := rfl

theorem fits_one_of_lt {x : Nat} (h : x < 256) : fits 1 x = true := fits_iff.2 (by simpa using h)

theorem isSawCode_ne {c : Nat} (h : isSawCode c = true) : c ≠ 7 := by
  rintro rfl
  cases h

/-- Taking the fields back from the front of a payload, one by one. -/
theorem sawFieldsOf_bytes {f : SawFields} (h : f.wf = true) : sawFieldsOf f.bytes = some (f, []) := by
  simp only [SawFields.wf, Bool.and_eq_true, decide_eq_true_eq] at h
  obtain ⟨⟨⟨⟨⟨⟨⟨⟨⟨⟨hk, hl⟩, hw⟩, ht⟩, hm⟩, hms⟩, hmin⟩, hmax⟩, hs⟩, hr⟩, hp⟩ := h
  have hn : fits 1 f.materials.length = true := fits_one_of_lt (by omega)
  simp [sawFieldsOf, SawFields.bytes, num_be, num_be_nil, numsOf_bytes, hk, hl, hw, ht, hn, hms, hmin, hmax, hs, hr, hp,
    -be_one]

/-- The payload of the row spells the row. -/
def RoundTrips (i : Instr) (h : Header) : Prop := parsePayload h i.kindCode i.payload = some i

section
variable {h : Header}

theorem roundTrips_announce {cls : Nat} {work : Option (Nat × Nat)} (hwf : (Instr.announce h cls work).wf = true) :
    RoundTrips (.announce h cls work) h := by
  have flag {x : Nat} (hx : x < 256) : fits 1 x = true := fits_one_of_lt hx
  cases work with
  | none =>
    simp only [Instr.wf, Bool.and_eq_true] at hwf
    simp [RoundTrips, parsePayload, Instr.kindCode, Instr.payload, parseAnnounce, num_be, num_be_nil, hwf, flag, done_nil,
      -be_one]
  | some w =>
    simp only [Instr.wf, Bool.and_eq_true] at hwf
    simp [RoundTrips, parsePayload, Instr.kindCode, Instr.payload, parseAnnounce, num_be, num_be_nil, hwf, flag, done_nil,
      -be_one]

theorem parsePayload_query (p : List Byte) : parsePayload h Kind.query p = parseQuery h p := rfl
theorem parsePayload_load (p : List Byte) : parsePayload h Kind.load p = parseLoad h p := rfl

/-- QUERY: the selector and the form code lead back to the row. -/
theorem roundTrips_query {i : Instr} (hwf : i.wf = true) (hh : i.header? = some h) (hk : i.kindCode = Kind.query) :
    RoundTrips i h := by
  have selector {x : Nat} (hx : x < 256) : fits 1 x = true := fits_one_of_lt hx
  unfold RoundTrips
  rw [hk, parsePayload_query]
  cases i with
  | querySlabRecord | querySlabDefects | querySlabNext | queryPlacementEntry | queryPlacementSlab | queryJobRecord
  | queryJobNext | queryBill | queryStationEntry | queryStationNext | queryRule | queryWater | queryExcursion | queryFault
  | queryShop | queryCapability =>
    cases hh
    simp only [Instr.wf, Bool.and_eq_true] at hwf
    simp [parseQuery, Instr.payload, num_be, num_be_nil, selector, hwf, done_nil, -be_one]
  | _ => exact absurd hk (Nat.ne_of_beq_eq_false rfl)

theorem roundTrips_loadStation {address cls side tier : Nat} {saw : Option SawFields}
    (hwf : (Instr.loadStation h address cls side tier saw).wf = true) :
    RoundTrips (.loadStation h address cls side tier saw) h := by
  have item : fits 1 1 = true := by decide
  unfold RoundTrips
  simp only [Instr.wf, Bool.and_eq_true, bne_iff_ne] at hwf
  obtain ⟨⟨⟨⟨⟨⟨-, ha⟩, hc⟩, hne⟩, hd⟩, ht⟩, hsaw⟩ := hwf
  change parseLoad h _ = _
  cases saw with
  | none =>
    simp only [Bool.not_eq_true'] at hsaw
    simp [parseLoad, parseLoadStation, Instr.payload, num_be, num_be_nil, item, ha, hc, hne, hd, ht, hsaw, done_nil, -be_one]
  | some f =>
    simp only [Bool.and_eq_true] at hsaw
    simp [parseLoad, parseLoadStation, Instr.payload, num_be, item, ha, hc, hne, hd, ht, hsaw.1,
      sawFieldsOf_bytes hsaw.2, done_nil, -be_one]

theorem roundTrips_loadStationNone {address : Nat} (hwf : (Instr.loadStationNone h address).wf = true) :
    RoundTrips (.loadStationNone h address) h := by
  have item {x : Nat} (hx : x < 256) : fits 1 x = true := fits_one_of_lt hx
  simp only [Instr.wf, Bool.and_eq_true] at hwf
  change parseLoad h _ = _
  simp [parseLoad, parseLoadStation, Instr.payload, num_be, num_be_nil, item, hwf, done_nil, -be_one]

theorem roundTrips_loadWaterRule {n e ch d t r c a : Nat} (hwf : (Instr.loadWaterRule h n e ch d t r c a).wf = true) :
    RoundTrips (.loadWaterRule h n e ch d t r c a) h := by
  have item {x : Nat} (hx : x < 256) : fits 1 x = true := fits_one_of_lt hx
  simp only [Instr.wf, Bool.and_eq_true] at hwf
  change parseLoad h _ = _
  simp [parseLoad, Instr.payload, num_be, num_be_nil, item, hwf, done_nil, -be_one]

/-- LOAD: the item code leads back to the row. -/
theorem roundTrips_load {i : Instr} (hwf : i.wf = true) (hh : i.header? = some h) (hk : i.kindCode = Kind.load) :
    RoundTrips i h := by
  have item {x : Nat} (hx : x < 256) : fits 1 x = true := fits_one_of_lt hx
  cases i with
  | loadStation => cases hh; exact roundTrips_loadStation hwf
  | loadStationNone => cases hh; exact roundTrips_loadStationNone hwf
  | loadWaterRule => cases hh; exact roundTrips_loadWaterRule hwf
  | loadRule | loadGroup | loadConstants | loadRates | loadShareWindow | loadAllowance | loadNotices =>
    cases hh
    simp only [Instr.wf, Bool.and_eq_true] at hwf
    change parseLoad h _ = _
    simp [parseLoad, Instr.payload, num_be, num_be_nil, item, hwf, done_nil, -be_one]
  | _ => exact absurd hk (Nat.ne_of_beq_eq_false rfl)

theorem roundTrips_slabEnter {slab material thickness length width basis : Nat} {defects : List Rect}
    (hwf : (Instr.slabEnter h slab material thickness length width basis defects).wf = true) :
    RoundTrips (.slabEnter h slab material thickness length width basis defects) h := by
  simp only [Instr.wf, Bool.and_eq_true, decide_eq_true_eq] at hwf
  obtain ⟨⟨⟨⟨⟨⟨⟨⟨-, hs⟩, hm⟩, ht⟩, hl⟩, hw⟩, hb⟩, hn⟩, hd⟩ := hwf
  have hcount : fits 1 defects.length = true := fits_one_of_lt (by omega)
  have hdefects := rectsOf_bytes defects hd []
  rw [List.append_nil] at hdefects
  change parseSlabEnter h _ = _
  simp [parseSlabEnter, Instr.payload, num_be, hs, hm, ht, hl, hw, hb, hcount, hdefects, done_nil, -be_one]

theorem roundTrips_slabEdit {i : Instr} (hwf : i.wf = true) (hh : i.header? = some h) (hk : i.kindCode = Kind.slabEdit) :
    RoundTrips i h := by
  have sub {x : Nat} (hx : x < 256) : fits 1 x = true := fits_one_of_lt hx
  cases i with
  | slabEditAddDefect _ slab defect =>
    cases hh
    simp only [Instr.wf, Bool.and_eq_true] at hwf
    have hrect := rectOf_bytes hwf.2 []
    rw [List.append_nil] at hrect
    change parseSlabEdit h _ = _
    simp [parseSlabEdit, Instr.payload, num_be, sub, hwf.1.2, hrect, done_nil, -be_one]
  | slabEditLock | slabEditUnlock | slabEditSetBasis =>
    cases hh
    simp only [Instr.wf, Bool.and_eq_true] at hwf
    change parseSlabEdit h _ = _
    simp [parseSlabEdit, Instr.payload, num_be, num_be_nil, sub, hwf, done_nil, -be_one]
  | _ => exact absurd hk (Nat.ne_of_beq_eq_false rfl)

theorem roundTrips_scan {i : Instr} (hwf : i.wf = true) (hh : i.header? = some h) (hk : i.kindCode = Kind.scan) :
    RoundTrips i h := by
  have event {x : Nat} (hx : x < 256) : fits 1 x = true := fits_one_of_lt hx
  cases i with
  | scanRacked | scanStaged | scanUnstaged | scanGone =>
    cases hh
    simp only [Instr.wf, Bool.and_eq_true] at hwf
    change parseScan h _ = _
    simp [parseScan, Instr.payload, num_be, num_be_nil, event, hwf, done_nil, -be_one]
  | _ => exact absurd hk (Nat.ne_of_beq_eq_false rfl)

theorem roundTrips_place {slab kind : Nat} {rect : Rect} {job pp pi rs : Nat}
    (hwf : (Instr.place h slab kind rect job pp pi rs).wf = true) : RoundTrips (.place h slab kind rect job pp pi rs) h := by
  simp only [Instr.wf, Bool.and_eq_true] at hwf
  change parsePlace h _ = _
  simp [parsePlace, Instr.payload, num_be, num_be_nil, rectOf_bytes, hwf, done_nil, -be_one]

theorem roundTrips_takeBill {job : Option Nat} (hwf : (Instr.takeBill h job).wf = true) : RoundTrips (.takeBill h job) h := by
  have present {x : Nat} (hx : x < 256) : fits 1 x = true := fits_one_of_lt hx
  change parseTakeBill h _ = _
  cases job with
  | none =>
    have zero : fits 4 0 = true := by decide
    simp [parseTakeBill, Instr.payload, num_be, num_be_nil, present, zero, done_nil, -be_one]
  | some j =>
    simp only [Instr.wf, Bool.and_eq_true] at hwf
    simp [parseTakeBill, Instr.payload, num_be, num_be_nil, present, hwf, done_nil, -be_one]

/-- An absent limit travels as 0, which is no limit (log entry 7). -/
theorem roundTrips_jobLimit {job hold : Nat} {limit : Option Nat} (hwf : (Instr.jobLimit h job limit hold).wf = true) :
    RoundTrips (.jobLimit h job limit hold) h := by
  change parseJobLimit h _ = _
  cases limit with
  | none =>
    simp only [Instr.wf, Bool.and_eq_true] at hwf
    have zero : fits 6 0 = true := by decide
    simp [parseJobLimit, Instr.payload, num_be, num_be_nil, zero, hwf, done_nil, -be_one]
  | some l =>
    simp only [Instr.wf, Bool.and_eq_true, decide_eq_true_eq] at hwf
    have hne : l ≠ 0 := by omega
    simp [parseJobLimit, Instr.payload, num_be, num_be_nil, hne, hwf, done_nil, -be_one]

end

/-- Settles O11. Each row's fields are taken back in the order in which they were put. -/
theorem rowPayloadsRoundTrip : Obligations.RowPayloadsRoundTrip := by
  intro i h hwf hh
  have ending {x : Nat} (hx : x < 256) : fits 1 x = true := fits_one_of_lt hx
  cases i with
  | coldResetAssert | coldResetRelease | standbyRetentionLoss | telegramReceived | transmitComplete | silenceTimerExpiry
  | ackTimerExpiry | deliveryEvaluation => cases hh
  | announce => cases hh; exact roundTrips_announce hwf
  | slabEnter => cases hh; exact roundTrips_slabEnter hwf
  | place => cases hh; exact roundTrips_place hwf
  | takeBill => cases hh; exact roundTrips_takeBill hwf
  | jobLimit => cases hh; exact roundTrips_jobLimit hwf
  | querySlabRecord | querySlabDefects | querySlabNext | queryPlacementEntry | queryPlacementSlab | queryJobRecord
  | queryJobNext | queryBill | queryStationEntry | queryStationNext | queryRule | queryWater | queryExcursion | queryFault
  | queryShop | queryCapability => exact roundTrips_query hwf hh rfl
  | loadStation | loadStationNone | loadRule | loadGroup | loadConstants | loadRates | loadWaterRule | loadShareWindow
  | loadAllowance | loadNotices => exact roundTrips_load hwf hh rfl
  | slabEditLock | slabEditUnlock | slabEditSetBasis | slabEditAddDefect => exact roundTrips_slabEdit hwf hh rfl
  | scanRacked | scanStaged | scanUnstaged | scanGone => exact roundTrips_scan hwf hh rfl
  | clearFault | releaseLine | lineReset | renewAllowance => cases hh; rfl
  | slabDoneFinished | slabDoneScrap =>
    cases hh
    simp only [Instr.wf, Bool.and_eq_true] at hwf
    change parseSlabDone h _ = _
    simp [parseSlabDone, Instr.payload, num_be, num_be_nil, ending, hwf, done_nil, -be_one]
  | slabRetire | jobOpen | jobClose =>
    cases hh
    simp only [Instr.wf, Bool.and_eq_true] at hwf
    change parseId _ _ = _
    simp [parseId, Instr.payload, num_be_nil, hwf, done_nil]
  | unplace | withdraw | orderAck | orderDecline =>
    cases hh
    simp only [Instr.wf, Bool.and_eq_true] at hwf
    change parseSlabIndex _ _ = _
    simp [parseSlabIndex, Instr.payload, num_be, num_be_nil, hwf, done_nil, -be_one]
  | order =>
    cases hh
    simp only [Instr.wf, Bool.and_eq_true] at hwf
    change parseOrder h _ = _
    simp [parseOrder, Instr.payload, num_be, num_be_nil, hwf, done_nil, -be_one]
  | sawStatus =>
    cases hh
    simp only [Instr.wf, Bool.and_eq_true] at hwf
    change parseSawStatus h _ = _
    simp [parseSawStatus, Instr.payload, num_be, num_be_nil, hwf, done_nil, -be_one]
  | cutReport =>
    cases hh
    simp only [Instr.wf, Bool.and_eq_true] at hwf
    change parseCutReport h _ = _
    simp [parseCutReport, Instr.payload, num_be, num_be_nil, hwf, done_nil, -be_one]
  | waterSample =>
    cases hh
    simp only [Instr.wf, Bool.and_eq_true] at hwf
    change parseWaterSample h _ = _
    simp [parseWaterSample, Instr.payload, num_be, num_be_nil, hwf, done_nil, -be_one]

/-! ## A row received as its bytes -/

theorem kindCode_le (i : Instr) : i.kindCode ≤ 63 := by
  cases i <;> exact Nat.le_of_ble_eq_true rfl

theorem telegram_header (i : Instr) (h : Header) : (i.telegram h).header h.side = h := rfl

theorem header_wf_of_wf {i : Instr} {h : Header} (hwf : i.wf = true) (hh : i.header? = some h) : h.wf = true := by
  cases i with
  | coldResetAssert | coldResetRelease | standbyRetentionLoss | telegramReceived | transmitComplete | silenceTimerExpiry
  | ackTimerExpiry | deliveryEvaluation => cases hh
  | queryWater | queryFault | queryShop | queryCapability | clearFault | releaseLine | lineReset | renewAllowance =>
    cases hh; exact hwf
  | _ =>
    cases hh
    simp only [Instr.wf, Bool.and_eq_true] at hwf
    simp only [hwf]

theorem formed_telegram {i : Instr} {h : Header} (hwf : i.wf = true) (hh : i.header? = some h) : Formed (i.telegram h) := by
  have hw := header_wf_of_wf hwf hh
  simp only [Header.wf, Bool.and_eq_true, decide_eq_true_eq, fits_iff] at hw
  obtain ⟨⟨⟨hd1, hd⟩, hs⟩, ht⟩ := hw
  exact ⟨hd1, hd, by simp only [Instr.telegram]; omega, kindCode_le i, by simp only [Instr.telegram]; omega,
    Laws.payload_fits i hwf⟩

/-- Settles O12. -/
theorem receivedTelegramRunsItsRow : Obligations.ReceivedTelegramRunsItsRow := by
  intro i h s hwf hh
  cases hs : s.inReset with
  | true => rw [exec_row_inReset hh hs]; exact if_pos hs
  | false =>
    calc exec (.telegramReceived h.side (i.telegram h).wire) s
        = receive h.side (i.telegram h) s := exec_received hs (formed_telegram hwf hh)
      _ = receiveRow i s := by
          unfold receive
          rw [telegram_header, show parsePayload h (i.telegram h).kind (i.telegram h).payload = some i from
            rowPayloadsRoundTrip i h hwf hh]
      _ = exec i s := receiveRow_eq_exec hh s

end Sys2Proof.Proofs
end

