-- ==== Sys2Proof/Proofs/Arrivals.lean ====
section
/-! SUPPORT. The Link Bridge's taking of an arrival (R158 to R161): what the source check answers, what each test of the
gate answers where it is the one that decides, and the telegrams that are discarded, refused, ignored or forwarded. -/

namespace Sys2Proof.Proofs

open Sys2Proof Sys2Proof.Config Sys2Proof.Machine

/-! ## The source (R158) -/

/-- R158: the source can be no station's, has no entry, or is entered on the other side. -/
def UnknownSource (s : State) (side : Side) (src : Nat) : Prop :=
  src = 0 ∨ src = 31 ∨ src = s.address ∨ s.station? src = none ∨ ∃ st, s.station? src = some st ∧ st.side ≠ side

/-- R158: the source's entry, on the side of arrival. -/
def KnownSource (s : State) (side : Side) (src : Nat) (st : Station) : Prop :=
  src ≠ 0 ∧ src ≠ 31 ∧ src ≠ s.address ∧ s.station? src = some st ∧ st.side = side

theorem badSource_iff {s : State} {src : Nat} : s.badSource src = true ↔ src = 0 ∨ src = 31 ∨ src = s.address := by
  simp [State.badSource, or_assoc]

theorem source?_unknown {s : State} {side : Side} {t : Telegram} (hu : UnknownSource s side t.src)
    (hc : s.isCommissioning side t = false) : s.source? side t = none := by
  unfold State.source?
  split
  · rfl
  next hgood =>
    rw [badSource_iff, not_or, not_or] at hgood
    obtain ⟨h0, h31, haddr⟩ := hgood
    rcases hu with h | h | h | h | ⟨st, h, hside⟩
    · exact absurd h h0
    · exact absurd h h31
    · exact absurd h haddr
    · rw [h]; exact if_neg (by simp [hc])
    · rw [h]; exact if_neg hside

theorem source?_known {s : State} {side : Side} {t : Telegram} {st : Station} (hk : KnownSource s side t.src st) :
    s.source? side t = some (st.cls, st.tier) := by
  obtain ⟨h0, h31, haddr, hst, hside⟩ := hk
  refine source?_passes ?_ hst hside
  rw [Bool.eq_false_iff, ne_eq, badSource_iff]
  exact not_or.2 ⟨h0, not_or.2 ⟨h31, haddr⟩⟩

theorem isCommissioning_of_kind {s : State} {side : Side} {t : Telegram} (hk : t.kind ≠ Kind.load) :
    s.isCommissioning side t = false := by simp [State.isCommissioning, hk]

theorem arrive_unknown {s : State} {side : Side} {t : Telegram} {f : State → State} (hr : s.inReset = false)
    (hu : UnknownSource s side t.src) (hc : s.isCommissioning side t = false) :
    s.arrive side t f = (s.raise (arrivalFault .stationUnknownSource side t)).flush := by
  unfold State.arrive
  rw [if_neg (by simp [hr]), source?_unknown hu hc]

theorem arrive_known {s : State} {side : Side} {t : Telegram} {f : State → State} {st : Station} (hr : s.inReset = false)
    (hk : KnownSource s side t.src st) :
    s.arrive side t f = (s.restartSilence t.src).passGate (s.gate side t st.cls st.tier) side t f := by
  unfold State.arrive
  rw [if_neg (by simp [hr]), source?_known hk]
  dsimp only
  rw [gate_restartSilence]

/-! ## The destination -/

theorem beyond_own {s : State} {side : Side} {dst : Nat}
    (h : dst = s.address ∨ (dst = 31 ∧ side = .a) ∨ (dst ≠ 31 ∧ s.station? dst = none)
      ∨ (dst ≠ 31 ∧ ∃ d, s.station? dst = some d ∧ d.side = side)) : s.beyond side dst = false := by
  unfold State.beyond
  split
  · rfl
  next hne =>
    rcases h with h | ⟨rfl, rfl⟩ | ⟨h31, h⟩ | ⟨h31, d, h, hside⟩
    · exact absurd h hne
    · rfl
    · rw [if_neg h31, h]
    · rw [if_neg h31, h]; simp [hside]

theorem beyond_other {s : State} {side : Side} {dst : Nat} (hne : dst ≠ s.address)
    (h : (dst = 31 ∧ side = .b) ∨ (dst ≠ 31 ∧ ∃ d, s.station? dst = some d ∧ d.side ≠ side)) :
    s.beyond side dst = true := by
  unfold State.beyond
  rw [if_neg hne]
  rcases h with ⟨rfl, rfl⟩ | ⟨h31, d, h, hside⟩
  · rfl
  · rw [if_neg h31, h]; simp [hside]

/-! ## The gate (R160, R161), test by test -/

section
variable {s : State} {side : Side} {t : Telegram} {c : StationClass} {n : Nat} {r : KindRule}

theorem gate_noRule (hr : s.kindRule? t.kind = none) : s.gate side t c n = .unknownKind := by
  unfold State.gate; rw [hr]

theorem gate_drop (hr : s.kindRule? t.kind = some r) (hd : r.disposition = .drop) : s.gate side t c n = .dropped := by
  unfold State.gate; rw [hr]; exact if_pos hd

theorem gate_own (hr : s.kindRule? t.kind = some r) (hd : r.disposition = .forward) (hb : s.beyond side t.dst = false) :
    s.gate side t c n = .ignored := by
  unfold State.gate; rw [hr]; dsimp only
  rw [if_neg (by simp [hd]), if_pos ⟨hd, hb⟩]

/-- What is left of the gate where the tier, the class and the group let a telegram pass. -/
def gatePassed (s : State) (side : Side) (t : Telegram) : Disposition → Gate
  | .forward => .forwarded
  | .drop => .dropped
  | .handle => if isRequestKind t.kind ∧ t.dst ≠ s.address then .ignored else .handled false
  | .handleForward => .handled (decide (side = .b))

/-- Past the two dispositions that decide alone, the tier, the class and the group are tested. -/
theorem gate_tests (hr : s.kindRule? t.kind = some r) (hd : r.disposition ≠ .drop)
    (hb : r.disposition = .forward → s.beyond side t.dst = true) :
    s.gate side t c n = if r.maxTier < n then .rejected .tier
      else if r.classes.getLsbD (classCode c) = false then .rejected .cls
      else if s.groups.on r.group = false then .rejected .groupOff
      else gatePassed s side t r.disposition := by
  unfold State.gate; rw [hr]; dsimp only
  rw [if_neg hd, if_neg (fun h => by simp [hb h.1] at h)]
  rfl

theorem gate_tier (hr : s.kindRule? t.kind = some r) (hd : r.disposition ≠ .drop)
    (hb : r.disposition = .forward → s.beyond side t.dst = true) (ht : r.maxTier < n) :
    s.gate side t c n = .rejected .tier := by rw [gate_tests hr hd hb, if_pos ht]

theorem gate_class (hr : s.kindRule? t.kind = some r) (hd : r.disposition ≠ .drop)
    (hb : r.disposition = .forward → s.beyond side t.dst = true) (ht : n ≤ r.maxTier)
    (hc : r.classes.getLsbD (classCode c) = false) : s.gate side t c n = .rejected .cls := by
  rw [gate_tests hr hd hb, if_neg (Nat.not_lt.2 ht), if_pos hc]

theorem gate_groupOff (hr : s.kindRule? t.kind = some r) (hd : r.disposition ≠ .drop)
    (hb : r.disposition = .forward → s.beyond side t.dst = true) (ht : n ≤ r.maxTier)
    (hc : r.classes.getLsbD (classCode c) = true) (hg : s.groups.on r.group = false) :
    s.gate side t c n = .rejected .groupOff := by
  rw [gate_tests hr hd hb, if_neg (Nat.not_lt.2 ht), if_neg (by simp [hc]), if_pos hg]

theorem gate_forwarded (hr : s.kindRule? t.kind = some r) (hd : r.disposition = .forward)
    (hb : s.beyond side t.dst = true) (ht : n ≤ r.maxTier) (hc : r.classes.getLsbD (classCode c) = true)
    (hg : s.groups.on r.group = true) : s.gate side t c n = .forwarded := by
  rw [gate_tests hr (by simp [hd]) (fun _ => hb), if_neg (Nat.not_lt.2 ht), if_neg (by simp [hc]), if_neg (by simp [hg]),
    hd]
  rfl

/-- R161: a side-A request that is not for the controller. -/
theorem gate_elsewhere (hr : s.kindRule? t.kind = some r) (hd : r.disposition = .handle)
    (hk : isRequestKind t.kind = true) (hdst : t.dst ≠ s.address) (ht : n ≤ r.maxTier)
    (hc : r.classes.getLsbD (classCode c) = true) (hg : s.groups.on r.group = true) : s.gate side t c n = .ignored := by
  rw [gate_tests hr (by simp [hd]) (by simp [hd]), if_neg (Nat.not_lt.2 ht), if_neg (by simp [hc]), if_neg (by simp [hg]),
    hd]
  exact if_pos ⟨hk, hdst⟩

theorem isRequestKind_of_range {k : Nat} (h2 : 0x02 ≤ k) (h19 : k ≤ 0x13) (ho : k ≠ Kind.order) :
    isRequestKind k = true := by simp [isRequestKind, h2, h19, ho]

end

/-! ## Rows and telegrams without a row -/

/-- A row other than ANNOUNCE is an arrival handled by some block. -/
theorem exec_eq_arrive {i : Instr} {h : Header} (hh : i.header? = some h) (hk : i.kindCode ≠ Kind.announce) :
    ∃ b : Block, ∀ s, exec i s
      = .next (s.arrive h.side (i.telegram h) (fun s => conclude h i.kindCode (b s))) := by
  obtain ⟨b, hb⟩ := rowBlock_of_kind hh hk
  exact ⟨b, fun s => exec_eq_runRow hh hb s⟩

theorem arriveRowless_eq {side : Side} {t : Telegram} {s : State} (hk : t.kind ≠ Kind.announce) :
    s.arriveRowless side t
      = s.arrive side t (fun s => conclude (t.header side) t.kind (malformed (t.header side) t.kind s)) := if_neg hk

/-- Settles O14. -/
theorem sourceAndGateRefuseInOrder : Obligations.SourceAndGateRefuseInOrder := by
  constructor
  · intro i h s hr hh hka hkl hu
    obtain ⟨b, hb⟩ := exec_eq_arrive hh hka
    have hsource : UnknownSource s h.side (i.telegram h).src := hu
    rw [hb, arrive_unknown hr hsource (isCommissioning_of_kind hkl)]
    rfl
  · intro i h st r s hr hh hka h0 h31 haddr hst hside hrule hd refused
    obtain ⟨b, hb⟩ := exec_eq_arrive hh hka
    have hrule' : s.kindRule? (i.telegram h).kind = some r := hrule
    have hdrop : r.disposition ≠ .drop := by rcases hd with h | h <;> simp [h]
    have hforward : r.disposition = .forward → s.beyond h.side (i.telegram h).dst = true := by
      rcases hd with h | h <;> simp [h]
    have harrive {x : Reason} (hg : s.gate h.side (i.telegram h) st.cls st.tier = .rejected x) : exec i s = refused x := by
      rw [hb, arrive_known hr ⟨h0, h31, haddr, hst, hside⟩, hg]
      rfl
    exact ⟨fun ht => harrive (gate_tier hrule' hdrop hforward ht),
      fun ht hc => harrive (gate_class hrule' hdrop hforward ht hc),
      fun ht hc hg => harrive (gate_groupOff hrule' hdrop hforward ht hc hg)⟩

/-- R43's telegram is a row: a LOAD that spells none commissions nobody (log entry 47). -/
theorem isCommissioning_rowless {side : Side} {t : Telegram} {s : State} (ht : Formed t)
    (hparse : parsePayload (t.header side) t.kind t.payload = none) : s.isCommissioning side t = false := by
  by_contra hc
  simp only [State.isCommissioning, Bool.not_eq_false, Bool.and_eq_true, decide_eq_true_eq] at hc
  obtain ⟨⟨-, hkind⟩, hpay⟩ := hc
  obtain ⟨hd1, hd, hs, -, hg, -⟩ := ht
  have hwf : (Instr.loadStation (t.header side) t.src 1 0 0 none).wf = true := by
    simp [Instr.wf, Header.wf, Telegram.header, fits_iff, isSawCode]
    exact ⟨⟨⟨⟨decide_eq_true hd1, decide_eq_true hd⟩, by omega⟩, by omega⟩, by omega⟩
  have hrow : parsePayload (t.header side) Kind.load (be 1 1 ++ be 1 t.src ++ be 1 1 ++ be 1 0 ++ be 1 0)
      = some (.loadStation (t.header side) t.src 1 0 0 none) := by
    simpa [RoundTrips, Instr.kindCode, Instr.payload] using roundTrips_loadStation hwf
  rw [hkind, hpay, hrow] at hparse
  cases hparse

section
variable {side : Side} {t : Telegram} {st : Station} {s : State}

/-- A telegram of a known source that spells no row goes by its gate. -/
theorem exec_rowless_known (hr : s.inReset = false) (ht : Formed t)
    (hparse : parsePayload (t.header side) t.kind t.payload = none) (hk : t.kind ≠ Kind.announce)
    (hs : KnownSource s side t.src st) :
    exec (.telegramReceived side t.wire) s = .next ((s.restartSilence t.src).passGate (s.gate side t st.cls st.tier) side t
      (fun s => conclude (t.header side) t.kind (malformed (t.header side) t.kind s))) := by
  rw [exec_received_rowless hr ht hparse, arriveRowless_eq hk, arrive_known hr hs]

/-- R161: a side-A request for another destination changes nothing but the silence timer. -/
theorem exec_row_elsewhere {i : Instr} {h : Header} {r : KindRule} (hr : s.inReset = false) (hh : i.header? = some h)
    (hreq : isRequestKind i.kindCode = true) (hdst : h.dst ≠ s.address) (hs : KnownSource s h.side h.src st)
    (hrule : s.kindRule? i.kindCode = some r) (hd : r.disposition = .handle) (ht : st.tier ≤ r.maxTier)
    (hc : r.classes.getLsbD (classCode st.cls) = true) (hg : s.groups.on r.group = true) :
    exec i s = .next (s.restartSilence h.src) := by
  have hka : i.kindCode ≠ Kind.announce := by
    intro h1
    rw [h1] at hreq
    exact absurd hreq (by decide)
  obtain ⟨b, hb⟩ := exec_eq_arrive hh hka
  have hsource : KnownSource s h.side (i.telegram h).src st := hs
  have hgate : s.gate h.side (i.telegram h) st.cls st.tier = .ignored :=
    gate_elsewhere (t := i.telegram h) hrule hd hreq hdst ht hc hg
  rw [hb, arrive_known hr hsource, hgate]
  rfl

end

/-- Settles O15. Past the form test each clause is one answer of the source check or of the gate. -/
theorem unhandledKindsForwardedOrDropped : Obligations.UnhandledKindsForwardedOrDropped := by
  refine ⟨?elsewhere, ?unknown, ?known⟩
  case elsewhere =>
    intro i h st r s hr hh h2 h19 ho hdst h0 h31 haddr hst hside hrule hd ht hc hg
    exact exec_row_elsewhere hr hh (isRequestKind_of_range h2 h19 ho) hdst ⟨h0, h31, haddr, hst, hside⟩ hrule hd ht hc hg
  case unknown =>
    intro side t s hr hd1 hd hs hk hg hn hparse hka hu
    have hformed : Formed t := ⟨hd1, hd, hs, hk, hg, hn⟩
    rw [exec_received_rowless hr hformed hparse, arriveRowless_eq hka,
      arrive_unknown hr hu (isCommissioning_rowless hformed hparse)]
    rfl
  case known =>
    intro side t st s hr hd1 hd hs hk hg hn hparse hka h0 h31 haddr hst hside u own beyond
    have hgo := exec_rowless_known hr ⟨hd1, hd, hs, hk, hg, hn⟩ hparse hka ⟨h0, h31, haddr, hst, hside⟩
    refine ⟨?noRule, ?drop, ?own, ?refused, ?passed⟩
    case noRule =>
      intro hrule
      rw [hgo, gate_noRule hrule]
      rfl
    case drop =>
      intro r hrule hdis
      rw [hgo, gate_drop hrule hdis]
      rfl
    case own =>
      intro r hrule hdis hown
      rw [hgo, gate_own hrule hdis (beyond_own hown)]
      rfl
    case refused =>
      intro r hrule hdis hbeyond refused
      have hfar : r.disposition = .forward → s.beyond side t.dst = true :=
        fun h => beyond_other (hbeyond h).1 (hbeyond h).2
      have hrefuse {x : Reason} (hg : s.gate side t st.cls st.tier = .rejected x) :
          exec (.telegramReceived side t.wire) s = refused x := by rw [hgo, hg]; rfl
      exact ⟨fun ht => hrefuse (gate_tier hrule hdis hfar ht),
        fun ht hc => hrefuse (gate_class hrule hdis hfar ht hc),
        fun ht hc hg => hrefuse (gate_groupOff hrule hdis hfar ht hc hg)⟩
    case passed =>
      intro r hrule ht hc hgroup
      constructor
      · intro hdis hbeyond
        rw [hgo, gate_forwarded hrule hdis (beyond_other hbeyond.1 hbeyond.2) ht hc hgroup]
        rfl
      · intro hdis h2 h19 ho hdst
        rw [hgo, gate_elsewhere hrule hdis (isRequestKind_of_range h2 h19 ho) hdst ht hc hgroup]
        rfl

/-! ## Telegrams out of form, and reports of stations not ATTACHED (R50, R168) -/

/-- R50: the floor reports that only an ATTACHED station may send. -/
def IsAttachedReport (k : Nat) : Prop :=
  k = Kind.sawStatus ∨ k = Kind.orderAck ∨ k = Kind.orderDecline ∨ k = Kind.waterSample

/-- A passing telegram that spells no row is refused by `malformed`. -/
theorem exec_rowless_passes {side : Side} {t : Telegram} {copy : Bool} {s : State} (ht : Formed t)
    (hparse : parsePayload (t.header side) t.kind t.payload = none) (hk : t.kind ≠ Kind.announce)
    (hp : s.PassesKind t.kind (t.header side) copy) :
    exec (.telegramReceived side t.wire) s = .next ((conclude (t.header side) t.kind
      (malformed (t.header side) t.kind (s.restartSilence t.src))).forwardCopy copy t) := by
  obtain ⟨hr, hb, st, r, hst, hsd, hrule, htier, hc, hg, hd⟩ := hp
  have hsrc : s.source? side t = some (st.cls, st.tier) := source?_passes hb hst hsd
  have hgate : s.gate side t st.cls st.tier = .handled copy := by
    rcases hd with ⟨hd, rfl, hdst⟩ | ⟨hd, rfl⟩
    · rw [gate_tests hrule (by simp [hd]) (by simp [hd]), if_neg (Nat.not_lt.2 htier), if_neg (by simp [hc]),
        if_neg (by simp [hg]), hd]
      exact if_neg (fun h => h.2 (hdst h.1))
    · rw [gate_tests hrule (by simp [hd]) (by simp [hd]), if_neg (Nat.not_lt.2 htier), if_neg (by simp [hc]),
        if_neg (by simp [hg]), hd]
      rfl
  rw [exec_received_rowless hr ht hparse, arriveRowless_eq hk, State.arrive, if_neg (by simp [hr]), hsrc]
  dsimp only
  rw [gate_restartSilence, hgate]
  rfl

theorem fromAttached_of_attached {h : Header} {b : Block} {s : State} (ha : s.Attached h.src) :
    fromAttached h b s = b s := by
  obtain ⟨st, hst, hatt⟩ := ha
  unfold fromAttached
  rw [hst]
  exact if_pos hatt

theorem fromAttached_of_not {h : Header} {b : Block} {s : State} (ha : ¬ s.Attached h.src) :
    fromAttached h b s = (.reject .stationState [], s) := by
  unfold fromAttached
  split
  · rfl
  next st hst => exact if_neg (fun hatt => ha ⟨st, hst, hatt⟩)

theorem attached_restartSilence {a b : Nat} {s : State} : (s.restartSilence a).Attached b ↔ s.Attached b := by
  unfold State.Attached State.restartSilence
  rw [station?_modifyStation (fun st _ => by split <;> rfl)]
  cases s.station? b with
  | none => simp
  | some st =>
    simp only [Option.map_some, Option.some.injEq, exists_eq_left']
    split
    · split <;> simp [*]
    · rfl

theorem malformed_of_report {h : Header} {k : Nat} (hk : IsAttachedReport k) :
    malformed h k = fromAttached h (refuse .form) := if_pos hk

theorem malformed_of_other {h : Header} {k : Nat} (hk : ¬ IsAttachedReport k) : malformed h k = refuse .form := if_neg hk

/-- The four rows of R50 test the state of their source first. -/
theorem rowBlock_of_report {i : Instr} {h : Header} (hh : i.header? = some h) (hk : IsAttachedReport i.kindCode) :
    ∃ b, rowBlock i = some (fromAttached h b) := by
  cases i with
  | coldResetAssert | coldResetRelease | standbyRetentionLoss | telegramReceived | transmitComplete | silenceTimerExpiry
  | ackTimerExpiry | deliveryEvaluation => cases hh
  | sawStatus | orderAck | orderDecline | waterSample => cases hh; exact ⟨_, rfl⟩
  | _ => rcases hk with h | h | h | h <;> exact absurd h (Nat.ne_of_beq_eq_false rfl)

/-- Settles O19. -/
theorem malformedAndUnattachedAreRefused : Obligations.MalformedAndUnattachedAreRefused := by
  constructor
  · intro side t copy s hd1 hd hs hk hg hn hka hparse hp report refused
    have hgo := exec_rowless_passes ⟨hd1, hd, hs, hk, hg, hn⟩ hparse hka hp
    constructor
    · intro hform
      have hmal : malformed (t.header side) t.kind (s.restartSilence t.src) = (.reject .form [], s.restartSilence t.src) := by
        by_cases hrep : report
        · rw [malformed_of_report hrep,
            fromAttached_of_attached (attached_restartSilence.2 (hform.resolve_left (not_not_intro hrep)))]
          rfl
        · rw [malformed_of_other hrep]
          rfl
      rw [hgo, hmal]
    · intro hrep hna
      have hmal : malformed (t.header side) t.kind (s.restartSilence t.src)
          = (.reject .stationState [], s.restartSilence t.src) := by
        rw [malformed_of_report hrep, fromAttached_of_not (fun h => hna (attached_restartSilence.1 h))]
      rw [hgo, hmal]
  · intro i h copy st s hh hp hk hst hna
    obtain ⟨b, hb⟩ := rowBlock_of_report hh hk
    refine exec_of_block (exec_eq_runRow hh hb s) hp (fromAttached_of_not ?_)
    rw [attached_restartSilence]
    rintro ⟨st', hst', hatt⟩
    rw [hst] at hst'
    cases hst'
    exact hna hatt

end Sys2Proof.Proofs
end

