-- ==== Sys2Proof/Proofs/Sendings.lean ====
section
/-! SUPPORT. The transmitters (R155), the fault record and the notices (Chapter 10), and the end of an event: its reply,
its notices and its copy (R151, R161, R162). -/

namespace Sys2Proof.Proofs

open Sys2Proof Sys2Proof.Config Sys2Proof.Machine

/-! ## Faults (R146) -/

theorem recordFault_empty {r : FaultRecord} {s : State} (h : s.faults.record = none) :
    s.recordFault r = { s with faults := { s.faults with record := some r } } := by
  unfold State.recordFault; rw [h]

theorem recordFault_locked {r x : FaultRecord} {s : State} (h : s.faults.record = some x) :
    s.recordFault r
      = { s with faults := { s.faults with moreFaults := true, count := min 255 (s.faults.count + 1) } } := by
  unfold State.recordFault; rw [h]

theorem raise_empty {r : FaultRecord} {s : State} (h : s.faults.record = none) :
    s.raise r = { s with
      faults := { s.faults with record := some r }
      outbox := s.outbox ++ [.notice (.fault r true s.faults.count)] } := by
  unfold State.raise; rw [recordFault_empty h, h]; rfl

theorem raise_locked {r x : FaultRecord} {s : State} (h : s.faults.record = some x) :
    s.raise r = { s with
      faults := { s.faults with moreFaults := true, count := min 255 (s.faults.count + 1) }
      outbox := s.outbox ++ [.notice (.fault r false (min 255 (s.faults.count + 1)))] } := by
  unfold State.raise; rw [recordFault_locked h, h]; rfl

/-! ## Transmitters (R155) -/

section
variable {side : Side} {t : Telegram} {s : State}

theorem push_idle {x : Transmitter} (h : x.sending = none) : x.push t = some { x with sending := some t } := by
  unfold Transmitter.push; rw [h]

theorem push_busy {x : Transmitter} {y : Telegram} (h : x.sending = some y) :
    x.push t = if x.waiting.length < 64 then some ⟨some y, x.waiting ++ [t]⟩ else none := by
  unfold Transmitter.push; rw [h]; rfl

theorem produce_idle (h : (s.tx side).sending = none) :
    s.produce side t = s.setTx side { (s.tx side) with sending := some t } := by
  unfold State.produce; rw [push_idle h]

theorem produce_waits {x : Telegram} (h : (s.tx side).sending = some x) (hw : (s.tx side).waiting.length < 64) :
    s.produce side t = s.setTx side ⟨some x, (s.tx side).waiting ++ [t]⟩ := by
  unfold State.produce; rw [push_busy h, if_pos hw]

/-- R152: a discarded NOTICE is recorded alone, any other telegram's discard is told as well. -/
theorem produce_overrun {x : Telegram} (h : (s.tx side).sending = some x) (hw : 64 ≤ (s.tx side).waiting.length) :
    s.produce side t
      = if t.kind = Kind.notice then s.recordFault (overrunFault side t) else s.raise (overrunFault side t) := by
  unfold State.produce; rw [push_busy h, if_neg (Nat.not_lt.2 hw)]

theorem transmitDone_idle (h : (s.tx side).sending = none) : transmitDone side s = s := by
  unfold transmitDone; rw [h]

theorem transmitDone_busy {x : Telegram} (h : (s.tx side).sending = some x) :
    transmitDone side s = s.setTx side (s.tx side).advance := by unfold transmitDone; rw [h]

end

/-- Settles O16. -/
theorem transmittersKeepOrder : Obligations.TransmittersKeepOrder := by
  refine ⟨fun side t s => ⟨produce_idle, fun x => produce_waits, ?overrun⟩, fun side s => ⟨?idle, ?last, ?next⟩⟩
  case overrun =>
    intro x hx hw fault told
    refine ⟨fun hr => ?_, fun y hr => ?_⟩
    · rw [produce_overrun hx hw, recordFault_empty hr, raise_empty hr]
      rfl
    · rw [produce_overrun hx hw, recordFault_locked hr, raise_locked hr]
      rfl
  case idle => exact fun h => congrArg Host.Outcome.next (transmitDone_idle h)
  case last =>
    intro x hx hw
    have hnext : (s.tx side).advance = ⟨none, []⟩ := by unfold Transmitter.advance; rw [hw]
    rw [← hnext]
    exact congrArg Host.Outcome.next (transmitDone_busy hx)
  case next =>
    intro x y ys hx hw
    have hnext : (s.tx side).advance = ⟨some y, ys⟩ := by unfold Transmitter.advance; rw [hw]
    rw [← hnext]
    exact congrArg Host.Outcome.next (transmitDone_busy hx)

/-! ## Notices (R151 to R153) -/

theorem sendNotice_sent {n : Notice} {st : Station} {s : State} (h0 : s.faults.station ≠ 0)
    (hst : s.station? s.faults.station = some st) (hon : s.faults.enabled n = true) :
    s.sendNotice n = ({ s with faults := { s.faults with counter := (s.faults.counter + 1) % 256 } }).produce st.side
      (noticeTelegram s.address st.address ((s.faults.counter + 1) % 256) n) := by
  unfold State.sendNotice; rw [if_pos ⟨h0, hon⟩, hst]

theorem sendNotice_held {n : Notice} {s : State} (h : s.faults.station = 0 ∨ ¬ s.faults.enabled n = true) :
    s.sendNotice n = s := if_neg (fun hc => h.elim hc.1 (fun hn => hn hc.2))

/-- Settles O60. -/
theorem faultsAreKeptAndNoticesSent : Obligations.FaultsAreKeptAndNoticesSent := by
  refine ⟨fun r s => ⟨raise_empty, fun x => raise_locked⟩, ?_⟩
  intro n s on
  have hon : on ↔ s.faults.enabled n = true := by cases n <;> rfl
  refine ⟨fun st h0 hst ho => ?_, fun h => sendNotice_held (h.imp_right (mt hon.2))⟩
  have haddr : st.address = s.faults.station := station?_address hst
  rw [sendNotice_sent h0 hst (hon.1 ho), haddr]
  rfl

/-! ## The parts of an ANSWER (R162) -/

/-- The parts of a content are consecutive stretches of 46 bytes. -/
theorem flatten_stretches (content : List Byte) (n : Nat) :
    ((List.range n).map (fun i => (content.drop (46 * i)).take 46)).flatten = content.take (46 * n) := by
  induction n with
  | zero => simp
  | succ n ih => rw [List.range_succ, List.map_append, List.flatten_append, ih, Nat.mul_succ, List.take_add]; simp

/-- How many parts a content has: one at least, and no empty one behind the first. -/
def partCount (content : List Byte) : Nat := max 1 ((content.length + 45) / 46)

theorem answerParts_eq (content : List Byte) :
    answerParts content = (List.range (partCount content)).map (fun i => (content.drop (46 * i)).take 46) := rfl

theorem flatten_answerParts (content : List Byte) : (answerParts content).flatten = content := by
  rw [answerParts_eq, flatten_stretches]
  exact List.take_of_length_le (by unfold partCount; omega)

theorem answerParts_ne_nil (content : List Byte) : answerParts content ≠ [] := by
  rw [answerParts_eq, ne_eq, List.map_eq_nil_iff, List.range_eq_nil]
  unfold partCount
  omega

theorem length_le_of_mem_answerParts {content p : List Byte} (h : p ∈ answerParts content) : p.length ≤ 46 := by
  rw [answerParts_eq] at h
  obtain ⟨i, -, rfl⟩ := List.mem_map.1 h
  exact List.length_take_le _ _

theorem length_of_mem_dropLast_answerParts {content p : List Byte} (h : p ∈ (answerParts content).dropLast) :
    p.length = 46 := by
  rw [answerParts_eq, List.dropLast_eq_take, ← List.map_take, List.take_range] at h
  obtain ⟨i, hi, rfl⟩ := List.mem_map.1 h
  simp only [List.length_map, List.length_range, List.mem_range, partCount] at hi
  simp only [List.length_take, List.length_drop]
  omega

theorem nil_notMem_answerParts {content : List Byte} (hne : content ≠ []) : [] ∉ answerParts content := by
  rw [answerParts_eq]
  intro h
  obtain ⟨i, hi, hnil⟩ := List.mem_map.1 h
  have hlen := congrArg List.length hnil
  have hpos : 0 < content.length := List.length_pos_of_ne_nil hne
  simp only [List.mem_range, partCount] at hi
  simp only [List.length_take, List.length_drop, List.length_nil] at hlen
  omega

/-! ## The end of an event -/

/-- The telegrams a reply is sent as. -/
def replyTelegrams (own dst kind tag : Nat) : Reply → List Telegram
  | .answer content => answerTelegrams own dst kind tag content
  | .parts ps => partTelegrams own dst kind tag ps
  | .reject reason detail => [rejectTelegram own dst kind tag reason detail]

theorem sendReply_eq (h : Header) (kind : Nat) (r : Reply) (s : State) :
    s.sendReply h kind r
      = (replyTelegrams s.address h.src kind h.tag r).foldl (fun v t => v.produce h.side t) s := by
  cases r <;> rfl

theorem finish_eq (i : Instr) (h : Header) (copy : Bool) (r : Reply) (u : State) :
    finish i h copy r u = if copy then (((u.sendReply h i.kindCode r).flush).produce .a (i.telegram h)).flush
      else (u.sendReply h i.kindCode r).flush := rfl

theorem finish_withoutLink (i : Instr) (h : Header) (copy : Bool) (r : Reply) (u : State) :
    (finish i h copy r u).withoutLink = u.withoutLink := by
  rw [finish_eq]
  split
  · rw [withoutLink_flush, withoutLink_produce, withoutLink_flush, withoutLink_sendReply]
  · rw [withoutLink_flush, withoutLink_sendReply]

theorem finish_outbox (i : Instr) (h : Header) (copy : Bool) (r : Reply) (u : State) :
    (finish i h copy r u).outbox = [] := by
  rw [finish_eq]
  split <;> exact flush_outbox

/-! ## The silence restart (R48) -/

theorem station?_restartSilence (a b : Nat) (s : State) :
    (s.restartSilence a).station? b = (s.station? b).map (fun st =>
      if st.address = a then (if st.state = .attached then { st with silence := some silenceMs } else st) else st) := by
  unfold State.restartSilence
  rw [station?_modifyStation (fun st _ => by split <;> rfl)]

/-- Settles O17. -/
theorem eventEndsLeaveTheRestAlone : Obligations.EventEndsLeaveTheRestAlone := by
  refine ⟨?ends, ?drains, ?silence⟩
  case ends =>
    intro i h copy r u
    refine ⟨finish_withoutLink i h copy r u, finish_outbox i h copy r u,
      replyTelegrams u.address h.src i.kindCode h.tag r, ?_, ?_, ?_, ?_⟩
    · rw [finish_eq, sendReply_eq]
    · rintro reason detail rfl
      rfl
    · rintro content rfl
      exact ⟨answerParts content, flatten_answerParts content, answerParts_ne_nil content,
        fun _ => length_le_of_mem_answerParts, fun _ => length_of_mem_dropLast_answerParts, nil_notMem_answerParts, rfl⟩
    · rintro parts rfl
      rfl
  case drains =>
    intro s sent drained
    have hsent : State.sendOut = sent := by
      funext v o
      cases o <;> rfl
    change s.drain.drain = _
    unfold State.drain
    rw [hsent]
  case silence =>
    intro a st s hst
    have haddr := station?_address hst
    refine ⟨fun h => ?_, fun h => ?_, fun b hb => ?_, rfl⟩
    · rw [station?_restartSilence, hst]
      simp [haddr, h, silenceMs]
    · rw [station?_restartSilence, hst]
      simp [h]
    · rw [station?_restartSilence]
      cases hx : s.station? b with
      | none => rfl
      | some x => rw [Option.map_some, if_neg (by rw [station?_address hx]; exact hb)]

end Sys2Proof.Proofs
end

