-- ==== Sys2Proof/Proofs/Loads.lean ====
section
/-! SUPPORT. The loads of the Link Bridge, the constants and the notices, CLEAR FAULT, JOB LIMIT and the bills: one
equation for each outcome of a block, its checks in their order. -/

namespace Sys2Proof.Proofs

open Sys2Proof Sys2Proof.Config Sys2Proof.Machine

/-! ## Checks -/

theorem checkThat_pass {ok : Bool} {r : Reason} {d : List Byte} (h : ok = true) : checkThat ok r d = none := if_pos h

theorem checkThat_fail {ok : Bool} {r : Reason} {d : List Byte} (h : ok = false) : checkThat ok r d = some (r, d) :=
  if_neg (by simp [h])

theorem unlessFails_pass {c : Check} {b : Block} {s : State} (h : c = none) : unlessFails c b s = b s := by
  unfold unlessFails; rw [h]

theorem unlessFails_fail {c : Check} {b : Block} {s : State} {r : Reason} {d : List Byte} (h : c = some (r, d)) :
    unlessFails c b s = (.reject r d, s) := by unfold unlessFails; rw [h]

theorem inRange_iff {lo hi n : Nat} : inRange lo hi n = true ↔ lo ≤ n ∧ n ≤ hi := by simp [inRange]

theorem inRange_eq_false {lo hi n : Nat} : inRange lo hi n = false ↔ n < lo ∨ hi < n := by
  rw [← Bool.not_eq_true, inRange_iff]; omega

/-! ## LOAD RULE (R163, R164) -/

theorem decodeDisposition_isSome {n : Nat} : (∃ d, decodeDisposition n = some d) ↔ n ≤ 3 := by
  match n with
  | 0 | 1 | 2 | 3 => simp [decodeDisposition]
  | n + 4 => simp [decodeDisposition]

section
variable {c disposition tier classSet : Nat} {d : Disposition} {r : KindRule} {s : State}

theorem ruleForm_formed (hd : decodeDisposition disposition = some d) (hc : c ≤ 63) (ht : tier ≤ 3) (h1 : 1 ≤ classSet)
    (h127 : classSet ≤ 127) : ruleForm c disposition tier classSet = some d := by
  unfold ruleForm; rw [hd]
  exact if_pos (by simp [hc, ht, inRange_iff, h1, h127])

theorem ruleForm_malformed (h : ¬ (c ≤ 63 ∧ disposition ≤ 3 ∧ tier ≤ 3 ∧ 1 ≤ classSet ∧ classSet ≤ 127)) :
    ruleForm c disposition tier classSet = none := by
  unfold ruleForm
  split
  · rfl
  next d hd =>
    have h3 : disposition ≤ 3 := decodeDisposition_isSome.1 ⟨d, hd⟩
    refine if_neg (fun hok => h ?_)
    simp only [Bool.and_eq_true, decide_eq_true_eq, inRange_iff] at hok
    obtain ⟨⟨hc, ht⟩, h1, h127⟩ := hok
    exact ⟨hc, h3, ht, h1, h127⟩

theorem loadRule_malformed (h : ruleForm c disposition tier classSet = none) :
    loadRule c disposition tier classSet s = (.reject .form [], s) := by unfold loadRule; rw [h]; rfl

theorem loadRule_noRule (h : s.kindRule? c = none) : loadRule c disposition tier classSet s = (.reject .form [], s) := by
  unfold loadRule
  split
  · rfl
  · rw [h]; rfl

theorem loadRule_refused {x : Reason} (hf : ruleForm c disposition tier classSet = some d) (hr : s.kindRule? c = some r)
    (hx : ruleCheck c r d tier (BitVec.ofNat 8 classSet) = some (x, [])) :
    loadRule c disposition tier classSet s = (.reject x [], s) := by
  unfold loadRule; rw [hf]; dsimp only; rw [hr]; exact unlessFails_fail hx

/-- The rule's place in the table, as it stands after the load. -/
theorem setRule_eq {classes : Byte} (hr : s.kindRule? c = some r) :
    s.setRule c d tier classes
      = { s with kindRules := s.kindRules.set c (some { r with disposition := d, maxTier := tier, classes := classes }) } := by
  have hc : s.kindRules[c]? = some (some r) := Option.join_eq_some_iff.1 hr
  unfold State.setRule
  congr 1
  refine List.ext_getElem? (fun n => ?_)
  rw [List.getElem?_modify, List.getElem?_set]
  by_cases hn : c = n
  · subst hn
    obtain ⟨hlt, -⟩ := List.getElem?_eq_some_iff.1 hc
    rw [hc, if_pos rfl, if_pos hlt]
    simp
  · simp [hn]

theorem loadRule_loaded (hf : ruleForm c disposition tier classSet = some d) (hr : s.kindRule? c = some r)
    (hx : ruleCheck c r d tier (BitVec.ofNat 8 classSet) = none) :
    loadRule c disposition tier classSet s
      = (.answer (ruleBytes r),
        { s with
          kindRules := s.kindRules.set c
            (some { r with disposition := d, maxTier := tier, classes := BitVec.ofNat 8 classSet }) }) := by
  unfold loadRule; rw [hf]; dsimp only; rw [hr]; dsimp only; rw [unlessFails_pass hx, setRule_eq hr]

theorem isShopDefined_iff : isShopDefined c = true ↔ 0x30 ≤ c ∧ c ≤ 0x37 := inRange_iff

theorem mayForward_iff : mayForward c = true ↔ c = 0x01 ∨ (0x18 ≤ c ∧ c ≤ 0x1D) := by
  simp only [mayForward, Bool.or_eq_true, decide_eq_true_eq]
  simp only [Kind.announce, Kind.sawStatus, Kind.orderAck, Kind.orderDecline, Kind.cutReport, Kind.scan, Kind.waterSample]
  omega

theorem isHandle_iff : d.isHandle = true ↔ d = .handle ∨ d = .handleForward := by cases d <;> simp [Disposition.isHandle]

/-- R164, the disposition's test in the words of the rule. -/
theorem dispositionFits_iff : dispositionFits c r.disposition d = true ↔
    d = r.disposition ∨ (c = 0x01 ∨ (0x18 ≤ c ∧ c ≤ 0x1D)) ∧ (d = .handle ∨ d = .handleForward)
      ∧ (r.disposition = .handle ∨ r.disposition = .handleForward) := by
  simp only [dispositionFits, Bool.or_eq_true, Bool.and_eq_true, decide_eq_true_eq, mayForward_iff, isHandle_iff]
  tauto

theorem tightens_iff {classes : Byte} :
    tightens r tier classes = true ↔ ¬ (r.maxTier < tier ∨ classes &&& r.classes ≠ classes) := by
  simp [tightens]

theorem ruleCheck_shop (hs : 0x30 ≤ c ∧ c ≤ 0x37) {classes : Byte} :
    ruleCheck c r d tier classes = checkThat (decide (d = .forward) || decide (d = .drop)) .form := by
  unfold ruleCheck; rw [if_pos (isShopDefined_iff.2 hs)]

theorem ruleCheck_builtIn (hs : c < 0x30 ∨ 0x37 < c) {classes : Byte} :
    ruleCheck c r d tier classes = (checkThat (tightens r tier classes) .loosen).or
      ((checkThat (dispositionFits c r.disposition d) .loosen).or
        (checkThat (!decide (c = Kind.load) || classes.getLsbD (classCode .supervisor)) .inUse)) := by
  unfold ruleCheck; rw [if_neg (fun h => by have := isShopDefined_iff.1 h; omega)]

theorem supervisorBit : (BitVec.ofNat 8 classSet).getLsbD (classCode .supervisor) = classSet.testBit 1 := by
  rw [BitVec.getLsbD_ofNat]
  simp [classCode]

end

/-- Settles O18. The form, the rule and its checks decide in that order. -/
theorem loadRuleTightensOnly : Obligations.LoadRuleTightensOnly := by
  constructor
  · intro h copy c disposition tier classSet d r s i hp hc hd ht h1 h127 hr hok u
    refine exec_of_block rfl hp (loadRule_loaded (ruleForm_formed hd hc ht h1 h127) hr ?_)
    rcases hok with ⟨hlo, hhi, hdis⟩ | ⟨hbuilt, htier, hclasses, hdis, hload⟩
    · rw [ruleCheck_shop ⟨hlo, hhi⟩]
      exact checkThat_pass (by simpa using hdis)
    · rw [ruleCheck_builtIn hbuilt, checkThat_pass (tightens_iff.2 (by simp [hclasses, htier])),
        checkThat_pass (dispositionFits_iff.2 hdis), supervisorBit]
      refine checkThat_pass ?_
      by_cases hc : c = Kind.load
      · simp [hload hc]
      · simp [hc]
  · intro h copy c disposition tier classSet s i hp refused formed builtIn
    refine ⟨fun hf => exec_of_block rfl hp (loadRule_malformed (ruleForm_malformed hf)),
      fun _ hr => exec_of_block rfl hp (loadRule_noRule hr), ?_⟩
    intro d r hf hd hr wider kept
    obtain ⟨hc, -, ht, h1, h127⟩ := hf
    have hrefuse {x : Reason} (hx : ruleCheck c r d tier (BitVec.ofNat 8 classSet) = some (x, [])) : refused x :=
      exec_of_block rfl hp (loadRule_refused (ruleForm_formed hd hc ht h1 h127) hr hx)
    refine ⟨?shop, ?wider, ?moved, ?supervisor⟩
    case shop =>
      intro hb hfw hdr
      refine hrefuse ?_
      rw [ruleCheck_shop (by omega)]
      exact checkThat_fail (by simp [hfw, hdr])
    case wider =>
      intro hb hw
      refine hrefuse ?_
      rw [ruleCheck_builtIn hb, checkThat_fail (Bool.eq_false_iff.2 (fun h => tightens_iff.1 h hw)), Option.some_or]
    case moved =>
      intro hb hw hk
      refine hrefuse ?_
      rw [ruleCheck_builtIn hb, checkThat_pass (tightens_iff.2 hw), Option.none_or,
        checkThat_fail (Bool.eq_false_iff.2 (fun h => hk (dispositionFits_iff.1 h))), Option.some_or]
    case supervisor =>
      intro hb hw hk hload hbit
      refine hrefuse ?_
      rw [ruleCheck_builtIn hb, checkThat_pass (tightens_iff.2 hw), Option.none_or,
        checkThat_pass (dispositionFits_iff.2 hk), Option.none_or, supervisorBit]
      exact checkThat_fail (by simp [hload, hbit])

/-! ## The plain loads (R21, R106, R111, R150, R165) and CLEAR FAULT (R147) -/

section
variable {s : State}

theorem constantsForm_iff {kerf margin remnantMin conserveFeed : Nat} :
    constantsForm kerf margin remnantMin conserveFeed = true ↔ 1 ≤ kerf ∧ kerf ≤ 10 ∧ margin ≤ 60 ∧ 100 ≤ remnantMin
      ∧ remnantMin ≤ 600 ∧ 100 ≤ conserveFeed ∧ conserveFeed ≤ 3000 := by
  simp only [constantsForm, Bool.and_eq_true, inRange_iff]
  omega

theorem noticesForm_iff {station mask enables : Nat} : noticesForm s station mask enables = true ↔
    station ≤ 30 ∧ station ≠ s.address ∧ mask ≤ 63 ∧ enables ≤ 127 := by
  simp [noticesForm, and_assoc]

theorem hasKind_eq_false {k : PlacementKind} : s.hasKind k = false ↔ ∀ p ∈ s.placements, p.kind ≠ k := by
  simp [State.hasKind]

/-- R165: a group may be left disabled where nothing uses it. -/
theorem groupFree_iff {on : Bool} {k : PlacementKind} :
    (on || !s.hasKind k) = true ↔ on = true ∨ ∀ p ∈ s.placements, p.kind ≠ k := by
  rw [Bool.or_eq_true, Bool.not_eq_true', hasKind_eq_false]

theorem quoteFree_iff {on : Bool} :
    (on || !s.jobs.any (fun j => j.limit.isSome)) = true ↔ on = true ∨ ∀ j ∈ s.jobs, j.limit = none := by
  simp

theorem loadGroup_refused {enables : Nat} {x : Reason} {d : List Byte} (hok : enables ≤ 15)
    (hx : groupCheck s (groupsOf enables) = some (x, d)) : loadGroup enables s = (.reject x d, s) := by
  unfold loadGroup; rw [if_neg (Nat.not_lt.2 hok)]; exact unlessFails_fail hx

theorem loadGroup_loaded {enables : Nat} (hok : enables ≤ 15) (hx : groupCheck s (groupsOf enables) = none) :
    loadGroup enables s = (.answer (u8 (groupByte s.groups)), { s with groups := groupsOf enables }) := by
  unfold loadGroup; rw [if_neg (Nat.not_lt.2 hok), unlessFails_pass hx]

end

/-- Settles O52. -/
theorem plainLoadsReplaceAllValues : Obligations.PlainLoadsReplaceAllValues := by
  intro h copy s u
  refine ⟨?constants, ?rates, ?window, ?notices, ?group, fun hp => exec_of_block rfl hp rfl⟩
  case constants =>
    intro kerf margin remnantMin conserveFeed i hp ok
    exact ⟨fun hok => exec_of_block rfl hp (if_neg (by simp [constantsForm_iff.2 hok])),
      fun hok => exec_of_block rfl hp (if_pos (Bool.eq_false_iff.2 (fun h => hok (constantsForm_iff.1 h))))⟩
  case rates =>
    intro recycled fresh i hp
    exact ⟨fun hok => exec_of_block rfl hp (if_neg (by omega)), fun hok => exec_of_block rfl hp (if_pos hok)⟩
  case window =>
    intro length i hp
    exact ⟨fun hok => exec_of_block rfl hp (if_neg (by simp [inRange_iff.2 hok])),
      fun hok => exec_of_block rfl hp (if_pos (inRange_eq_false.2 (by omega)))⟩
  case notices =>
    intro station mask enables i hp formed
    have hform : noticesForm (s.restartSilence h.src) station mask enables = true ↔ formed := noticesForm_iff
    refine ⟨fun hf hst => exec_of_block rfl hp ?_,
      fun hf => exec_of_block rfl hp (if_pos (Bool.eq_false_iff.2 (mt hform.1 hf))),
      fun hf h0 hst => exec_of_block rfl hp ?_⟩
    · unfold loadNotices
      rw [if_neg (by simp [hform.2 hf]), if_neg]
      · rfl
      · rw [station?_restartSilence, Option.map_eq_none_iff]
        tauto
    · unfold loadNotices
      rw [if_neg (by simp [hform.2 hf]), if_pos]
      · rfl
      · rw [station?_restartSilence, Option.map_eq_none_iff]
        exact ⟨h0, hst⟩
  case group =>
    intro enables i hp free refused remnant mitre cutout quote
    have hrefuse {x : Reason} {d : List Byte} (hok : enables ≤ 15) (hx : groupCheck u (groupsOf enables) = some (x, d)) :
        refused x d := exec_of_block rfl hp (loadGroup_refused hok hx)
    have hr : ((groupsOf enables).remnant || !u.hasKind .remnant) = true ↔ remnant := groupFree_iff
    have hm : ((groupsOf enables).mitre || !u.hasKind .mitre) = true ↔ mitre := groupFree_iff
    have hc : ((groupsOf enables).cutout || !u.hasKind .cutout) = true ↔ cutout := groupFree_iff
    have hq : ((groupsOf enables).quote || !u.jobs.any (fun j => j.limit.isSome)) = true ↔ quote := quoteFree_iff
    have off {b : Bool} {p : Prop} (hb : b = true ↔ p) (hp : ¬ p) : b = false := Bool.eq_false_iff.2 (mt hb.1 hp)
    refine ⟨fun hbig => exec_of_block rfl hp (if_pos hbig), ?_, ?_, ?_, ?_, ?_⟩
    · intro hok h1
      refine hrefuse hok ?_
      rw [groupCheck, checkThat_fail (off hr h1), Option.some_or]
    · intro hok h1 h2
      refine hrefuse hok ?_
      rw [groupCheck, checkThat_pass (hr.2 h1), checkThat_fail (off hm h2), Option.none_or, Option.some_or]
    · intro hok h1 h2 h3
      refine hrefuse hok ?_
      rw [groupCheck, checkThat_pass (hr.2 h1), checkThat_pass (hm.2 h2), checkThat_fail (off hc h3), Option.none_or,
        Option.none_or, Option.some_or]
    · intro hok h1 h2 h3 h4
      refine hrefuse hok ?_
      rw [groupCheck, checkThat_pass (hr.2 h1), checkThat_pass (hm.2 h2), checkThat_pass (hc.2 h3),
        checkThat_fail (off hq h4), Option.none_or, Option.none_or, Option.none_or]
    · intro hok h1 h2 h3 h4
      refine exec_of_block rfl hp (loadGroup_loaded hok ?_)
      rw [groupCheck, checkThat_pass (hr.2 h1), checkThat_pass (hm.2 h2), checkThat_pass (hc.2 h3),
        checkThat_pass (hq.2 h4), Option.none_or, Option.none_or, Option.none_or]

/-! ## The water split (R112) -/

/-- Settles O53. -/
theorem splitPartsEqualTheDelta : Obligations.SplitPartsEqualTheDelta := by
  intro delta share hshare
  have hprod : delta * share ≤ 1000 * delta := by
    calc delta * share ≤ delta * 1000 := Nat.mul_le_mul_left _ hshare
      _ = 1000 * delta := Nat.mul_comm _ _
  have hle : freshPart delta share ≤ delta := by unfold freshPart roundDiv; omega
  refine ⟨Nat.add_sub_of_le hle, hle, ?_, ?_⟩ <;>
    · unfold freshPart roundDiv
      omega

/-! ## JOB LIMIT (R137) -/

theorem decodeFlag_of_le {n : Nat} (h : n ≤ 1) : decodeFlag n = some (decide (n = 1)) := by
  interval_cases n <;> rfl

theorem decodeFlag_of_lt {n : Nat} (h : 1 < n) : decodeFlag n = none := by
  match n, h with
  | n + 2, _ => rfl

theorem limitOk_iff {limit : Option Nat} : limitOk limit = true ↔ ∀ l ∈ limit, 1 ≤ l ∧ l ≤ 999999999999 := by
  cases limit with
  | none => simp [limitOk]
  | some l => simp [limitOk, inRange_iff, maxCharge]

section
variable {job hold : Nat} {limit : Option Nat} {s : State}

theorem jobLimit_malformed (h : ¬ (hold ≤ 1 ∧ job ≠ 0 ∧ ∀ l ∈ limit, 1 ≤ l ∧ l ≤ 999999999999)) :
    jobLimit job limit hold s = (.reject .form [], s) := by
  unfold jobLimit
  by_cases hh : hold ≤ 1
  · rw [decodeFlag_of_le hh]
    refine if_pos ?_
    rw [← limitOk_iff] at h
    by_contra hc
    rw [not_or, Bool.not_eq_false] at hc
    exact h ⟨hh, hc⟩
  · rw [decodeFlag_of_lt (by omega)]
    rfl

theorem jobLimit_formed (hh : hold ≤ 1) (hj : job ≠ 0) (hl : ∀ l ∈ limit, 1 ≤ l ∧ l ≤ 999999999999) :
    jobLimit job limit hold s = match s.job? job with
      | none => refuse .noJob s
      | some j =>
        if j.state = .closed then (.reject .jobState (u8 (jobStateCode j.state)), s)
        else (.answer (opt u48 j.limit ++ flag j.hold ++ amount j.sum ++ flag j.overQuote),
          s.modifyJob job (fun x => { x with limit := limit, hold := decide (hold = 1) })) := by
  unfold jobLimit
  rw [decodeFlag_of_le hh]
  exact if_neg (by simp [hj, limitOk_iff.2 hl])

end

/-- Settles O57. -/
theorem jobLimitSetsLimitAndHold : Obligations.JobLimitSetsLimitAndHold := by
  intro h copy job limit hold s i hp u formed
  refine ⟨fun hf => exec_of_block rfl hp (jobLimit_malformed hf), ?none, ?closed, ?set⟩
  case none =>
    rintro ⟨hh, hj, hl⟩ hnone
    refine exec_of_block rfl hp ?_
    rw [jobLimit_formed hh hj hl, job?_restartSilence, hnone]
    rfl
  case closed =>
    rintro j ⟨hh, hj, hl⟩ hjob hstate
    refine exec_of_block rfl hp ?_
    rw [jobLimit_formed hh hj hl, job?_restartSilence, hjob]
    dsimp only
    rw [if_pos hstate, hstate]
    rfl
  case set =>
    rintro j ⟨hh, hj, hl⟩ hjob hstate
    refine exec_of_block rfl hp ?_
    rw [jobLimit_formed hh hj hl, job?_restartSilence, hjob]
    exact if_neg hstate

/-! ## Bills (R141, R143) -/

section
variable {s : State}

theorem readyToClose_iff {j : Job} :
    readyToClose j = true ↔ j.state = .closing ∧ j.openOrders = 0 ∧ j.unsettled = 0 := by
  simp [readyToClose, and_assoc]

theorem closeIfReady_ready {job : Nat} {j : Job} (hj : s.job? job = some j) (hr : readyToClose j = true) :
    s.closeIfReady job = s.closeJob job := by unfold State.closeIfReady; rw [hj]; exact if_pos hr

theorem closeIfReady_waits {job : Nat} (hj : ∀ j, s.job? job = some j → readyToClose j = false) :
    s.closeIfReady job = s := by
  unfold State.closeIfReady
  split
  · rfl
  next j hjob => exact if_neg (by simp [hj j hjob])

theorem takeBill_taken {job : Option Nat} {b : Nat} {rest : List Nat} {j : Job} (h0 : job ≠ some 0)
    (hwho : job = none ∨ job = some b) (hb : s.bills = b :: rest) (hj : s.job? b = some j) :
    takeBill job s = (twoParts j.partOne (j.partTwo ++ count rest.length), ({ s with bills := rest }).freeJob b) := by
  unfold takeBill
  rw [if_neg h0, hb]
  dsimp only
  rw [if_neg (by tauto), hj]

end

/-- Settles O59. -/
theorem billsJoinTheTailAndLeaveTheHead : Obligations.BillsJoinTheTailAndLeaveTheHead := by
  constructor
  · intro job s
    constructor
    · intro j hj hc ho hu number
      exact closeIfReady_ready hj (readyToClose_iff.2 ⟨hc, ho, hu⟩)
    · intro hnot
      refine closeIfReady_waits (fun j hj => Bool.eq_false_iff.2 (fun hr => ?_))
      obtain ⟨hc, ho, hu⟩ := readyToClose_iff.1 hr
      rcases hnot j hj with h | h | h
      · exact h hc
      · exact h ho
      · exact h hu
  · intro h copy job s i hp u
    refine ⟨fun h0 => exec_of_block rfl hp (if_pos h0), ?empty, ?wrong, ?taken⟩
    case empty =>
      intro h0 hb
      refine exec_of_block rfl hp ?_
      have hu : (s.restartSilence h.src).bills = [] := hb
      unfold takeBill
      rw [if_neg h0, hu]
      rfl
    case wrong =>
      intro b rest h0 hb hn hne
      refine exec_of_block rfl hp ?_
      have hu : (s.restartSilence h.src).bills = b :: rest := hb
      unfold takeBill
      rw [if_neg h0, hu]
      exact if_pos ⟨hn, hne⟩
    case taken =>
      intro b rest j hwho h0 hb hj one two
      exact exec_of_block rfl hp (takeBill_taken h0 hwho hb hj)

end Sys2Proof.Proofs
end

