-- ==== Sys2Proof/Proofs/Queries.lean ====
section
/-! SUPPORT. The sixteen forms of QUERY: each answers what the tables hold and changes nothing. The contents are written
out item by item in the statements; here each is tied to the model's own layout. -/

namespace Sys2Proof.Proofs

open Sys2Proof Sys2Proof.Config Sys2Proof.Machine

/-! ## Reading tables -/

/-- The entry with the smallest key above k, found as such. -/
theorem nextBy_least {α : Type} {key : α → Nat} {k : Nat} {l : List α} {x : α} (hr : Rising key l) (hx : x ∈ l)
    (hk : k < key x) (hleast : ∀ y ∈ l, k < key y → key x ≤ key y) : nextBy key k l = some x := by
  induction l with
  | nil => cases hx
  | cons y ys ih =>
    obtain ⟨hy, hys⟩ := List.pairwise_cons.1 hr
    unfold nextBy
    by_cases hky : k < key y
    · rw [List.find?_cons_of_pos (by simpa using hky)]
      rcases List.mem_cons.1 hx with rfl | hmem
      · rfl
      · have hlt := hy x hmem
        have hge := hleast y List.mem_cons_self hky
        omega
    · rw [List.find?_cons_of_neg (by simpa using hky)]
      rcases List.mem_cons.1 hx with rfl | hmem
      · exact absurd hk hky
      · exact ih hys hmem (fun z hz => hleast z (List.mem_cons_of_mem _ hz))

theorem nextBy_none {α : Type} {key : α → Nat} {k : Nat} {l : List α} (h : ∀ y ∈ l, key y ≤ k) :
    nextBy key k l = none :=
  List.find?_eq_none.2 (fun y hy => by simpa using h y hy)

section
variable {i : Instr} {h : Header} {copy : Bool} {f : State → Reply} {s : State} {r : Reply}

/-- A passing query ends with what it read, and changes nothing else. -/
theorem exec_reading (hrun : exec i s = .next (runRow i h (reading f) s)) (hp : s.Passes i h copy)
    (hr : f (s.restartSilence h.src) = r) :
    exec i s = .next (finish i h copy r (s.restartSilence h.src)) :=
  exec_of_block hrun hp (Prod.ext hr rfl)

end

/-! ## Slabs and placements (R18, R37) -/

/-- The corners of the reserved rectangle, from the cut rectangle and the kerf. -/
theorem reserved_eq (p : Placement) :
    p.reserved = (if p.kind = .cutout then none else some (p.kerf.getD 0)).map (fun k => p.rect.skirted k) := by
  unfold Placement.reserved
  cases p.kind <;> rfl

theorem opt_map {α β : Type} (f : β → List Byte) (g : α → β) (o : Option α) :
    opt f (o.map g) = opt (fun x => f (g x)) o := by cases o <;> rfl

theorem isPiece_iff {k : PlacementKind} : k.isPiece = true ↔ k = .piece ∨ k = .mitre := by
  cases k <;> simp [PlacementKind.isPiece]

theorem cutoutsOf_eq (s : State) (slab index : Nat) :
    s.cutoutsOf slab index = s.placements.filter
      (fun c => decide (c.slab = slab ∧ c.kind = .cutout ∧ c.parentIndex = some index)) := by
  unfold State.cutoutsOf State.placementsOf
  rw [List.filter_filter]
  refine List.filter_congr (fun c _ => ?_)
  rw [Bool.and_comm, ← Bool.decide_and, ← Bool.decide_and]

/-- Every field of Table 2-1 written out, the corners and the cutouts included. -/
theorem placementBytes_eq (s : State) (p : Placement) :
    placementBytes s p = u32 p.slab ++ u8 p.index ++ u8 (kindCode p.kind) ++ opt u32 p.job ++ p.rect.bytes ++ opt u8 p.kerf
      ++ opt u8 p.parentIndex ++ opt u32 p.remnantSlab ++ u8 (placementStateCode p.state)
      ++ opt (fun k => u16 p.rect.x ++ u16 p.rect.y ++ u16 (p.rect.x + p.rect.length + k)
          ++ u16 (p.rect.y + p.rect.width + k)) (if p.kind = .cutout then none else some (p.kerf.getD 0))
      ++ opt count (if p.kind = .piece ∨ p.kind = .mitre then some (s.placements.filter
          (fun c => decide (c.slab = p.slab ∧ c.kind = .cutout ∧ c.parentIndex = some p.index))).length else none) := by
  unfold placementBytes State.cutoutCount
  rw [reserved_eq, opt_map, cutoutsOf_eq]
  simp only [isPiece_iff, cornerBytes, Rect.skirted, Nat.add_assoc]

@[simp] theorem slab?_restartSilence (a n : Nat) (s : State) : (s.restartSilence a).slab? n = s.slab? n := rfl

@[simp] theorem placement?_restartSilence (a slab index : Nat) (s : State) :
    (s.restartSilence a).placement? slab index = s.placement? slab index := rfl

/-- Settles O20. -/
theorem stockAndPlanQueriesAnswer : Obligations.StockAndPlanQueriesAnswer := by
  intro h copy slab index s u found rect record cutouts entry plan
  refine ⟨fun x hx => ⟨?_, ?_, ?_, fun p hpl => ?_, fun hpl => ?_⟩, fun hx => ⟨?_, ?_, ?_, ?_⟩,
    fun x hx hb hlt hleast => ?_, fun hle => ?_⟩
  all_goals refine fun hp => exec_reading rfl hp ?_
  iterate 3
    · rw [slab?_restartSilence, hx]
      rfl
  · rw [slab?_restartSilence, hx]
    dsimp only
    rw [placement?_restartSilence, hpl]
    exact congrArg Reply.answer (placementBytes_eq _ p)
  · rw [slab?_restartSilence, hx]
    dsimp only
    rw [placement?_restartSilence, hpl]
    rfl
  iterate 3
    · rw [slab?_restartSilence, hx]
      rfl
  · rw [slab?_restartSilence, hx]
  · exact congrArg (fun o => answerOr .empty (Option.map slabBytes o)) (nextBy_least hb.slabs.1 hx hlt hleast)
  · exact congrArg (fun o => answerOr .empty (Option.map slabBytes o)) (nextBy_none hle)

/-! ## Stations, jobs and bills (R54, R144, R145) -/

/-- The ENTRY form with the saw's two runs of items side by side. -/
theorem stationBytes_eq (st : Station) :
    stationBytes st = u8 st.address ++ u8 (sideCode st.side) ++ u8 (classCode st.cls) ++ u8 st.tier
      ++ st.saw.elim [] (fun w => sawConfigBytes w.config)
      ++ u8 (stationStateCode st.state) ++ opt u16 st.silence ++ st.saw.elim [] sawBytes := by
  unfold stationBytes
  cases st.saw <;> rfl

theorem rising_restartSilence {a : Nat} {s : State} (hb : s.Bounded) : Rising Station.address (s.restartSilence a).stations :=
  rising_modifyBy Station.address hb.stations.1
    (f := fun st => if st.state = .attached then { st with silence := some silenceMs } else st)
    (fun st _ => by split <;> rfl)

/-- Settles O21. -/
theorem stationJobAndBillQueriesAnswer : Obligations.StationJobAndBillQueriesAnswer := by
  intro h copy n s u found configured order running entry one two record
  have hentry (st : Station) : stationBytes st = entry st := stationBytes_eq st
  refine ⟨fun st hst => ?_, fun hst => ?_, fun st hmem hb hlt hleast => ?_, fun hle => ?_, fun j hj => ?_, fun hj => ?_,
    fun j hmem hb hlt hleast => ?_, fun hle => ?_, fun h0 => ?_, fun h0 hlen => ?_, fun h0 hlen => ?_⟩
  all_goals refine fun hp => exec_reading rfl hp ?_
  · rw [show (s.restartSilence h.src).station? n = some st from hst, Option.map_some, hentry]
    rfl
  · rw [show (s.restartSilence h.src).station? n = none from hst]
    rfl
  · rw [nextBy_least (rising_restartSilence hb) hmem hlt hleast, Option.map_some, hentry]
    rfl
  · exact congrArg (fun o => answerOr .empty (Option.map stationBytes o)) (nextBy_none hle)
  · rw [job?_restartSilence, hj]
    rfl
  · rw [job?_restartSilence, hj]
  · rw [restartSilence_jobs, nextBy_least hb.jobs.1 hmem hlt hleast]
    rfl
  · rw [restartSilence_jobs, nextBy_none hle]
  · exact if_pos h0
  · rw [if_neg h0]
    exact if_pos hlen
  · rw [if_neg h0]
    exact if_neg (Nat.not_lt.2 hlen)

/-! ## Rules, water, faults, shop and part (R109, R119, R148, R166) -/

/-- Settles O22. -/
theorem ruleWaterFaultShopQueriesAnswer : Obligations.RuleWaterFaultShopQueriesAnswer := by
  intro h copy n s u found ruleState compareRule w detail fault
  have hstate (r : RuleState) : ruleStateBytes r = ruleState r := by cases r <;> rfl
  have hrules : compareRuleBytes = compareRule := by
    funext r
    unfold compareRuleBytes
    rw [hstate]
  have hdetail : detailBytes = detail := by
    funext d
    cases d <;> rfl
  refine ⟨fun hn => ?_, fun hn hr => ?_, fun r hn hr => ?_, fun r hr => ?_, fun hr => ?_, ?_, ?_, ?_, ?_⟩
  all_goals refine fun hp => exec_reading rfl hp ?_
  · exact if_pos hn
  · rw [if_neg (Nat.not_lt.2 hn), show (s.restartSilence h.src).kindRule? n = none from hr]
  · rw [if_neg (Nat.not_lt.2 hn), show (s.restartSilence h.src).kindRule? n = some r from hr]
    simp only [isShopDefined_iff]
    rfl
  · rw [show (s.restartSilence h.src).water.rules[n]? = some r from hr]
    dsimp only
    rw [hstate]
    rfl
  · rw [show (s.restartSilence h.src).water.rules[n]? = none from hr]
  · refine congrArg Reply.answer ?_
    unfold waterBytes
    rw [hrules]
    rfl
  · refine congrArg Reply.answer ?_
    unfold faultBlockBytes
    rw [show faultAnswerBytes = fault from by
      funext r
      unfold faultAnswerBytes
      rw [hdetail]]
    rfl
  · rfl
  · refine congrArg Reply.answer ?_
    unfold capacityBytes State.sawAddresses
    rw [List.length_map]
    rfl

end Sys2Proof.Proofs
end

