-- ==== Sys2Proof/Proofs/Stock.lean ====
section
/-! SUPPORT. Slab Stock (Chapter 1): SLAB ENTER, the edits LOCK, UNLOCK and SET BASIS, the four scans and SLAB RETIRE, one
equation for each outcome of a block. -/

namespace Sys2Proof.Proofs

open Sys2Proof Sys2Proof.Config Sys2Proof.Machine

/-! ## What the silence restart leaves to read -/

theorem orders_modifyStation {a : Nat} {f : Station → Station} (hf : ∀ st, (f st).saw = st.saw) (s : State) :
    (s.modifyStation a f).orders = s.orders := by
  have hq (st : Station) : queueOf (if st.address = a then f st else st) = queueOf st := by
    split
    · unfold queueOf; rw [hf]
    · rfl
  rw [orders_eq, orders_eq]
  calc (modifyBy Station.address a f s.stations).flatMap queueOf
      = s.stations.flatMap (fun st => queueOf (if st.address = a then f st else st)) := List.flatMap_map ..
    _ = s.stations.flatMap queueOf := by simp only [hq]

@[simp] theorem orders_restartSilence (a : Nat) (s : State) : (s.restartSilence a).orders = s.orders :=
  orders_modifyStation (fun st => by split <;> rfl) s

@[simp] theorem saw?_restartSilence (a b : Nat) (s : State) : (s.restartSilence a).saw? b = s.saw? b := by
  unfold State.saw?
  rw [station?_restartSilence]
  cases s.station? b with
  | none => rfl
  | some st =>
    dsimp only [Option.map_some, Option.bind_some]
    split
    · split <;> rfl
    · rfl

theorem isActive_iff {st : OrderState} : st.isActive = true ↔ st ≠ .waiting := by cases st <;> simp [OrderState.isActive]

theorem hasActiveOrder_iff {s : State} {slab : Nat} :
    s.hasActiveOrder slab = true ↔ ∃ o ∈ s.orders, o.slab = slab ∧ o.state ≠ .waiting := by
  simp [State.hasActiveOrder, isActive_iff]

@[simp] theorem hasActiveOrder_restartSilence (a slab : Nat) (s : State) :
    (s.restartSilence a).hasActiveOrder slab = s.hasActiveOrder slab := by
  unfold State.hasActiveOrder; rw [orders_restartSilence]

/-! ## Beds and presentations -/

/-- The saw whose bed holds the slab is presented, last. -/
theorem presentBed_eq (x : Slab) (s : State) :
    s.presentBed x = { s with presented := s.presented ++ x.bed.toList } := by
  unfold State.presentBed
  cases x.bed with
  | none => simp
  | some a => rfl

@[simp] theorem clearBed_presented (n : Nat) (s : State) : (s.clearBed n).presented = s.presented := by
  unfold State.clearBed; split <;> rfl

@[simp] theorem raise_presented (r : FaultRecord) (s : State) : (s.raise r).presented = s.presented := by
  unfold State.raise State.recordFault; split <;> rfl

/-! ## SLAB ENTER (R4) -/

section
variable {slab material thickness length width basis : Nat} {defects : List Rect} {s : State}

theorem validDefect_iff {r : Rect} : validDefect length width r = true ↔
    1 ≤ r.length ∧ 1 ≤ r.width ∧ r.x + r.length ≤ length ∧ r.y + r.width ≤ width := by
  simp [validDefect, and_assoc]

/-- R4 check 1 in the ranges of Table 1-1, where the operands fit their bytes. -/
theorem slabEnterForm_iff (hs : slab ≤ max32) (hm : material ≤ 65535) (hn : defects.length ≤ maxDefects) :
    slabEnterForm slab material thickness length width basis defects = true ↔
      slab ≠ 0 ∧ material ≠ 0 ∧ 10 ≤ thickness ∧ thickness ≤ 50 ∧ 600 ≤ length ∧ length ≤ 4000
      ∧ 400 ≤ width ∧ width ≤ 2200 ∧ basis ≤ 10000000
      ∧ ∀ d ∈ defects, 1 ≤ d.length ∧ 1 ≤ d.width ∧ d.x + d.length ≤ length ∧ d.y + d.width ≤ width := by
  simp only [slabEnterForm, Bool.and_eq_true, inRange_iff, decide_eq_true_eq, List.all_eq_true, validDefect_iff, hs, hm, hn,
    and_true, Nat.one_le_iff_ne_zero, and_assoc]
  rfl

theorem slabEnter_malformed (h : ¬ slabEnterForm slab material thickness length width basis defects = true) :
    slabEnter slab material thickness length width basis defects s = (.reject .form [], s) :=
  if_pos (Bool.eq_false_iff.2 h)

theorem slabEnter_formed (h : slabEnterForm slab material thickness length width basis defects = true) :
    slabEnter slab material thickness length width basis defects s
      = if (s.slab? slab).isSome then refuse .duplicate s
        else if maxSlabs ≤ s.slabs.length then refuse .tableFull s
        else (.answer (u32 slab ++ count (s.slabs.length + 1)),
          s.addSlab (enteredSlab slab material thickness length width basis defects)) := by
  unfold slabEnter
  rw [if_neg (by simp [h])]
  dsimp only
  rw [State.addSlab_slabs, length_insertBy]

end

/-- Settles O23. -/
theorem slabEnterCreatesRecord : Obligations.SlabEnterCreatesRecord := by
  intro h copy slab material thickness length width basis defects s i hwf hp u formed
  have hwf' : i.wf = true := hwf
  simp only [i, Instr.wf, Bool.and_eq_true, decide_eq_true_eq, fits_iff] at hwf'
  obtain ⟨⟨⟨⟨⟨⟨⟨⟨-, hs⟩, hm⟩, -⟩, -⟩, -⟩, -⟩, hn⟩, -⟩ := hwf'
  have hform : slabEnterForm slab material thickness length width basis defects = true ↔ formed :=
    slabEnterForm_iff (Nat.le_of_lt_succ hs) (Nat.le_of_lt_succ hm) hn
  refine ⟨fun hf => exec_of_block rfl hp (slabEnter_malformed (mt hform.1 hf)), fun hf hdup => ?_, fun hf hnew hfull => ?_,
    fun hf hnew hroom => ?_⟩
  all_goals refine exec_of_block rfl hp ?_
  all_goals rw [slabEnter_formed (hform.2 hf), slab?_restartSilence]
  · exact if_pos (Option.isSome_iff_ne_none.2 hdup)
  · rw [if_neg (by simp [hnew])]
    exact if_pos hfull
  · rw [if_neg (by simp [hnew])]
    exact if_neg (Nat.not_le.2 hroom)

/-! ## LOCK, UNLOCK and SET BASIS (R6 to R8) -/

section
variable {slab : Nat} {x : Slab} {s : State} {b : Slab → Block}

theorem onEditable_none (h : s.slab? slab = none) : onEditable slab b s = (.reject .noSlab [], s) := by
  unfold onEditable; rw [h]; rfl

theorem onEditable_reserved (h : s.slab? slab = some x) (hr : x.state = .reserved) :
    onEditable slab b s = (.reject .slabState [], s) := by
  unfold onEditable; rw [h]; exact if_pos hr

theorem onEditable_some (h : s.slab? slab = some x) (hr : x.state ≠ .reserved) : onEditable slab b s = b x s := by
  unfold onEditable; rw [h]; exact if_neg hr

theorem ne_reserved_of_isStock {st : SlabState} (h : st.isStock = true) : st ≠ .reserved := by
  rintro rfl; cases h

/-- An edit that is refused in no stock state is so on a RESERVED record too. -/
theorem onEditable_notStock (h : s.slab? slab = some x)
    (hb : b x s = (.reject .slabState [], s)) : onEditable slab b s = (.reject .slabState [], s) := by
  by_cases hr : x.state = .reserved
  · exact onEditable_reserved h hr
  · rw [onEditable_some h hr, hb]

theorem slabLock_decoded {reason : Nat} {l : LockReason} (hl : decodeLock reason = some l) :
    slabLock slab reason s = onEditable slab (fun x s =>
      if x.state.isStock = false then refuse .slabState s
      else (.answer (opt (fun p => u8 (lockCode p)) x.lock),
        (s.modifySlab slab (fun x => { x with lock := some l })).presentBed x)) s := by
  unfold slabLock; rw [hl]

theorem decodeLock_of_form {reason : Nat} (h0 : reason ≠ 0) (h1 : reason ≠ 1) : decodeLock reason = none := by
  match reason, h0, h1 with
  | n + 2, _, _ => rfl

theorem decodeLock_of_code {reason : Nat} (h : reason = 0 ∨ reason = 1) : ∃ l, decodeLock reason = some l := by
  rcases h with rfl | rfl <;> exact ⟨_, rfl⟩

end

/-- Settles O24. -/
theorem slabEditsLockAndBasis : Obligations.SlabEditsLockAndBasis := by
  refine ⟨?edits, ?refusals, ?basis⟩
  case edits =>
    intro h copy slab reason x s hx lock unlock u set prior
    have hu : u.slab? slab = some x := hx
    refine ⟨fun l hp hl hst => ?_, fun l hp hl hst => ?_, fun l hp hr hl => ?_, fun hp hr hl => ?_, fun hp hr => ?_⟩
    all_goals refine exec_of_block rfl hp ?_
    · rw [slabLock_decoded hl, onEditable_some hu (ne_reserved_of_isStock hst), if_neg (by simp [hst]), presentBed_eq]
      rfl
    · rw [slabLock_decoded hl]
      exact onEditable_notStock hu (if_pos hst)
    · rw [slabUnlock, onEditable_some hu hr, hl, Option.isSome_some, if_pos rfl, presentBed_eq]
      rfl
    · rw [slabUnlock, onEditable_some hu hr, hl]
      rfl
    · exact onEditable_reserved hu hr
  case refusals =>
    intro h copy slab reason value i s hp refused
    refine ⟨?_, ?_, ?_⟩
    · rintro rfl h0 h1
      refine exec_of_block rfl hp ?_
      rw [slabLock, decodeLock_of_form h0 h1]
      rfl
    · rintro rfl hcode hnone
      obtain ⟨l, hl⟩ := decodeLock_of_code hcode
      refine exec_of_block rfl hp ?_
      rw [slabLock_decoded hl]
      exact onEditable_none hnone
    · rintro (rfl | rfl) hnone
      · exact exec_of_block rfl hp (onEditable_none hnone)
      · exact exec_of_block rfl hp (onEditable_none hnone)
  case basis =>
    intro h copy slab value x s i hp hx u
    have hu : u.slab? slab = some x := hx
    refine ⟨fun hst => ?_, fun hst hv => ?_, fun hst hv hfix => ?_, fun hst hv ha hc => ?_⟩
    all_goals refine exec_of_block rfl hp ?_
    · exact onEditable_notStock hu (if_pos hst)
    all_goals rw [slabSetBasis, onEditable_some hu (ne_reserved_of_isStock hst), if_neg (by simp [hst])]
    · exact if_pos hv
    · rw [if_neg (show ¬ maxBasis < value from Nat.not_lt.2 hv)]
      exact if_pos hfix
    · rw [if_neg (show ¬ maxBasis < value from Nat.not_lt.2 hv)]
      exact if_neg (by simp [ha, hc])

/-! ## The scans (R11 to R16) -/

section
variable {h : Header} {event slab rack slot : Nat} {x : Slab} {s : State} {b : Slab → Block}

theorem onScan_malformed (hf : slab = 0 ∨ 63 < rack ∨ 15 < slot) :
    onScan h event slab rack slot b s = (.reject .form [], s) := if_pos hf

/-- R11: no record, or a RESERVED one. -/
theorem onScan_unknown (h0 : slab ≠ 0) (hr : rack ≤ 63) (hs : slot ≤ 15)
    (hx : ∀ x, s.slab? slab = some x → x.state = .reserved) :
    onScan h event slab rack slot b s = (.reject .unknownSlab [], s.raise (unknownSlabFault h.src slab event)) := by
  unfold onScan
  rw [if_neg (by omega)]
  split
  · rfl
  next x hslab => exact if_pos (hx x hslab)

theorem onScan_known (h0 : slab ≠ 0) (hr : rack ≤ 63) (hs : slot ≤ 15) (hx : s.slab? slab = some x)
    (hres : x.state ≠ .reserved) : onScan h event slab rack slot b s = b x s := by
  unfold onScan
  rw [if_neg (by omega), hx]
  exact if_neg hres

theorem ne_reserved_of_isSettled {st : SlabState} (h : st.isSettled = true) : st ≠ .reserved := by
  rintro rfl; cases h

theorem isStock_of_isSettled {st : SlabState} (h : st.isSettled = true) : st.isStock = false := by
  cases st with
  | spent | broken | scrapped => rfl
  | _ => cases h

theorem isStock_of_mobile {st : SlabState} (h : st = .received ∨ st = .racked ∨ st = .staged) : st.isStock = true := by
  rcases h with rfl | rfl | rfl <;> rfl

theorem any_ordered_iff : (s.placementsOf slab).any (fun p => decide (p.state = .ordered)) = true ↔
    ∃ p ∈ s.placements, p.slab = slab ∧ p.state = .ordered := by
  simp [State.placementsOf]

end

/-- Settles O26. -/
theorem scanRackedMovesSlab : Obligations.ScanRackedMovesSlab := by
  intro h copy slab rack slot saw x s i hp h0 hrack hslot hx u put ordered
  have hid : x.id = slab := slab?_id hx
  have hu : u.slab? slab = some x := hx
  have hordered : (u.placementsOf x.id).any (fun p => decide (p.state = .ordered)) = true ↔ ordered := by
    rw [hid]; exact any_ordered_iff
  refine ⟨fun hst => ?_, fun hst ho => ?_, fun hst ho => ?_, fun hst => ?_⟩
  all_goals refine exec_of_block rfl hp ?_
  · have hstock : x.state.isStock = true := isStock_of_mobile (by tauto)
    rw [onScan_known h0 hrack hslot hu (ne_reserved_of_isStock hstock), scanToRack, if_neg (by simp [hstock]), hid]
    exact if_neg (by rcases hst with h | h <;> simp [h])
  · rw [onScan_known h0 hrack hslot hu (by simp [hst]), scanToRack, if_neg (by simp [hst, SlabState.isStock]), if_pos hst,
      if_neg (mt hordered.1 ho), hid, presentBed_eq, State.modifySlab_presented, clearBed_presented]
    rfl
  · rw [onScan_known h0 hrack hslot hu (by simp [hst]), scanToRack, if_neg (by simp [hst, SlabState.isStock]), if_pos hst]
    exact if_pos (hordered.2 ho)
  · rw [onScan_known h0 hrack hslot hu (ne_reserved_of_isSettled hst)]
    exact if_pos (isStock_of_isSettled hst)

section
variable {h : Header} {saw : Nat} {x : Slab} {w : Saw} {s : State}

/-- R13: what the changes of a stage come to, with the saws whose bed changed presented at the end. -/
theorem putOnBed_eq (x : Slab) (saw : Nat) (displaced : Option Nat) (s : State) :
    s.putOnBed x saw displaced =
      { (((match displaced with | none => s.clearBed x.id | some y => (s.clearBed x.id).displace y).modifySlab x.id
          (fun x => { x with state := .staged, rack := none, bed := some saw })).modifySaw
          saw (fun w => { w with bed := some x.id })) with
        presented := s.presented ++ x.bed.toList ++ [saw] } := by
  unfold State.putOnBed
  dsimp only
  rw [presentBed_eq]
  cases displaced with
  | none => simp [State.present]
  | some y => simp [State.present, State.displace]

/-- R13, past the state of the slab and the class of the destination. -/
theorem scanToBed_saw (hst : x.state.isStock = true) (hw : s.saw? saw = some w) :
    scanToBed h saw x s =
      if x.state = .staged ∧ x.bed = some saw then (.answer (stateByte .staged ++ opt u32 none), s)
      else if x.state = .staged ∧ s.hasActiveOrder x.id = true then refuse .bedBusy s
      else match w.bed with
        | none => (.answer (stateByte .staged ++ opt u32 none), s.putOnBed x saw none)
        | some y =>
          if s.hasActiveOrder y then refuse .bedBusy (s.raise (bedConflictFault h.src y saw false))
          else (.answer (stateByte .staged ++ opt u32 (some y)),
            (s.raise (bedConflictFault h.src y saw true)).putOnBed x saw (some y)) := by
  unfold scanToBed
  rw [if_neg (by simp [hst])]
  generalize s.saw? saw = o at hw
  subst hw
  rfl

end

/-- Settles O27. -/
theorem scanStagedPutsSlabOnBed : Obligations.ScanStagedPutsSlabOnBed := by
  constructor
  · intro h copy slab rack slot saw x s i hp h0 hrack hslot hx hst u active
    have hid : x.id = slab := slab?_id hx
    have hu : u.slab? slab = some x := hx
    have hactive : u.hasActiveOrder x.id = true ↔ active := by
      rw [hid, hasActiveOrder_restartSilence]; exact hasActiveOrder_iff
    have hgo : onScan h scanStagedCode slab rack slot (scanToBed h saw) u = scanToBed h saw x u :=
      onScan_known h0 hrack hslot hu (ne_reserved_of_isStock hst)
    have hsaw : u.saw? saw = s.saw? saw := saw?_restartSilence _ _ _
    refine ⟨fun hw => exec_of_block rfl hp (hgo.trans ?_), fun w hw hs hb => exec_of_block rfl hp (hgo.trans ?_),
      fun w hw hs hb ha => exec_of_block rfl hp (hgo.trans ?_), fun w hw hb hn => exec_of_block rfl hp (hgo.trans ?_)⟩
    · unfold scanToBed
      rw [if_neg (by simp [hst]), hsaw, hw]
      rfl
    · rw [scanToBed_saw hst (hsaw.trans hw)]
      exact if_pos ⟨hs, hb⟩
    · rw [scanToBed_saw hst (hsaw.trans hw), if_neg (fun h => hb h.2)]
      exact if_pos ⟨hs, hactive.2 ha⟩
    · rw [scanToBed_saw hst (hsaw.trans hw), if_neg (fun h => hn ⟨h.1, .inl h.2⟩),
        if_neg (fun h => hn ⟨h.1, .inr (hactive.1 h.2)⟩), hb]
      dsimp only
      rw [putOnBed_eq, hid]
      rfl
  · intro h copy slab rack slot saw y x w s i hp h0 hrack hslot hx hst hw hb hthere hcut u active conflict
    have hid : x.id = slab := slab?_id hx
    have hu : u.slab? slab = some x := hx
    have hgo : onScan h scanStagedCode slab rack slot (scanToBed h saw) u = scanToBed h saw x u :=
      onScan_known h0 hrack hslot hu (ne_reserved_of_isStock hst)
    have hsaw : u.saw? saw = some w := (saw?_restartSilence _ _ _).trans hw
    have hmine : u.hasActiveOrder x.id = true ↔ ∃ o ∈ s.orders, o.slab = slab ∧ o.state ≠ .waiting := by
      rw [hid, hasActiveOrder_restartSilence]; exact hasActiveOrder_iff
    have hactive : u.hasActiveOrder y = true ↔ active := by
      rw [hasActiveOrder_restartSilence]; exact hasActiveOrder_iff
    refine ⟨fun ha => exec_of_block rfl hp (hgo.trans ?_), fun ha => exec_of_block rfl hp (hgo.trans ?_)⟩
    · rw [scanToBed_saw hst hsaw, if_neg hthere, if_neg (by rw [hmine]; exact hcut), hb]
      exact if_pos (hactive.2 ha)
    · rw [scanToBed_saw hst hsaw, if_neg hthere, if_neg (by rw [hmine]; exact hcut), hb]
      dsimp only
      rw [if_neg (mt hactive.1 ha), putOnBed_eq, hid, raise_presented]
      rfl

/-- Settles O28. -/
theorem scanUnstagedAndGone : Obligations.ScanUnstagedAndGone := by
  refine ⟨?common, ?unstaged, ?gone⟩
  case common =>
    intro h copy slab rack slot saw s u scans
    constructor
    · intro event i hmem hp
      have hrow : ∃ b, exec i s = .next (runRow i h (onScan h event slab rack slot b) s) := by
        simp only [scans, List.mem_cons, Prod.mk.injEq, List.not_mem_nil, or_false] at hmem
        rcases hmem with ⟨rfl, rfl⟩ | ⟨rfl, rfl⟩ | ⟨rfl, rfl⟩ | ⟨rfl, rfl⟩ <;> exact ⟨_, rfl⟩
      obtain ⟨b, hb⟩ := hrow
      exact ⟨fun hf => exec_of_block hb hp (onScan_malformed hf),
        fun h0 hrack hslot hx => exec_of_block hb hp (onScan_unknown h0 hrack hslot hx)⟩
    · intro x i hp h0 hrack hslot hx hst
      refine exec_of_block rfl hp ?_
      rw [onScan_known h0 hrack hslot (show u.slab? slab = some x from hx) (ne_reserved_of_isSettled hst)]
      exact if_pos (isStock_of_isSettled hst)
  case unstaged =>
    intro h copy slab rack slot saw x s i hp h0 hrack hslot hx hres u active
    have hid : x.id = slab := slab?_id hx
    have hactive : u.hasActiveOrder x.id = true ↔ active := by
      rw [hid, hasActiveOrder_restartSilence]; exact hasActiveOrder_iff
    have hgo : onScan h scanUnstagedCode slab rack slot scanOffBed u = scanOffBed x u :=
      onScan_known h0 hrack hslot hx hres
    refine ⟨fun hst ha => exec_of_block rfl hp (hgo.trans ?_), fun hst ha => exec_of_block rfl hp (hgo.trans ?_),
      fun hst => exec_of_block rfl hp (hgo.trans (if_pos hst))⟩
    · rw [scanOffBed, if_neg (not_not.2 hst), if_neg (mt hactive.1 ha), hid, presentBed_eq, State.modifySlab_presented,
        clearBed_presented]
      rfl
    · rw [scanOffBed, if_neg (not_not.2 hst)]
      exact if_pos (hactive.2 ha)
  case gone =>
    intro h copy slab rack slot saw x s i hp h0 hrack hslot hx hres u
    have hid : x.id = slab := slab?_id hx
    have hgo : onScan h scanGoneCode slab rack slot (scanAway h) u = scanAway h x u :=
      onScan_known h0 hrack hslot hx hres
    refine ⟨fun hst => exec_of_block rfl hp (hgo.trans ?_), fun hst => exec_of_block rfl hp (hgo.trans ?_)⟩
    · rw [scanAway, if_neg (by simp [hst]), hid, presentBed_eq, State.modifySlab_presented, clearBed_presented]
      rfl
    · rw [scanAway, if_pos hst, hid]
      rfl

/-! ## SLAB RETIRE (R17) -/

/-- Settles O29. -/
theorem slabRetireFreesRecord : Obligations.SlabRetireFreesRecord := by
  intro h copy slab s i hp u
  refine ⟨fun hx => ?_, fun x hx hst => ?_, fun x hx hst hb => ?_, fun x hx hst hb => ?_⟩
  all_goals refine exec_of_block rfl hp ?_
  all_goals unfold slabRetire
  all_goals rw [slab?_restartSilence, hx]
  · rfl
  · exact if_pos hst
  · dsimp only
    rw [if_neg (by simp [hst])]
    exact if_pos (Option.isSome_iff_ne_none.2 hb)
  · dsimp only
    rw [if_neg (by simp [hst]), if_neg (by simp [hb]), List.countP_eq_length_filter]
    rfl

end Sys2Proof.Proofs
end

