-- ==== Sys2Proof/Proofs/Places.lean ====
section
/-! SUPPORT. PLACE (R24 to R33): the form of a request, its checks as a list of parts of which the first that fails
refuses it, and the placement and the RESERVED record it creates. -/

namespace Sys2Proof.Proofs

open Sys2Proof Sys2Proof.Config Sys2Proof.Machine

/-! ## Checks as a list of parts -/

/-- What a part of a check demands, and the reason and detail of its refusal. -/
abbrev CheckPart := Prop × Reason × List Byte

/-- A check goes through its parts in order: the first that does not hold refuses, and where all hold it passes. -/
def Follows : List CheckPart → Check → Prop
  | [], c => c = none
  | p :: ps, c => (¬ p.1 → c = some p.2) ∧ (p.1 → Follows ps c)

theorem follows_refuses {parts : List CheckPart} {c : Check} (hf : Follows parts c) {n : Nat} {Q : Prop}
    {x : Reason × List Byte} (hn : parts[n]? = some (Q, x))
    (hprev : ∀ (m : Nat) (Q' : Prop) (y : Reason × List Byte), m < n → parts[m]? = some (Q', y) → Q') (hQ : ¬ Q) :
    c = some x := by
  induction parts generalizing n with
  | nil => cases hn
  | cons p ps ih =>
    obtain ⟨hfail, hpass⟩ := hf
    cases n with
    | zero => cases hn; exact hfail hQ
    | succ n =>
      have hp : p.1 := hprev 0 p.1 p.2 (Nat.succ_pos n) rfl
      exact ih (hpass hp) hn (fun m Q' y hm h => hprev (m + 1) Q' y (Nat.succ_lt_succ hm) h)

theorem follows_passes {parts : List CheckPart} {c : Check} (hf : Follows parts c) (hall : ∀ p ∈ parts, p.1) :
    c = none := by
  induction parts with
  | nil => exact hf
  | cons p ps ih => exact ih (hf.2 (hall p List.mem_cons_self)) (fun q hq => hall q (List.mem_cons_of_mem _ hq))

theorem follows_nil : Follows [] none := rfl

theorem follows_cons {ok : Bool} {Q : Prop} {r : Reason} {d : List Byte} {ps : List CheckPart} {c : Check}
    (hQ : ok = true ↔ Q) (hc : Follows ps c) : Follows ((Q, r, d) :: ps) ((checkThat ok r d).or c) := by
  refine ⟨fun h => ?_, fun h => ?_⟩
  · rw [checkThat_fail (Bool.eq_false_iff.2 (mt hQ.1 h)), Option.some_or]
  · rw [checkThat_pass (hQ.2 h), Option.none_or]
    exact hc

theorem follows_one {ok : Bool} {Q : Prop} {r : Reason} {d : List Byte} (hQ : ok = true ↔ Q) :
    Follows [(Q, r, d)] (checkThat ok r d) := by
  rw [← Option.or_none (o := checkThat ok r d)]
  exact follows_cons hQ follows_nil

/-- A part that names the first place where something is met. -/
theorem follows_found {o : Option Nat} {Q : Prop} {r : Reason} {ps : List CheckPart} {c : Check}
    (hQ : o = none ↔ Q) (hc : Follows ps c) :
    Follows ((Q, r, o.toList.flatMap u8) :: ps) ((o.map (fun i => (r, u8 i))).or c) := by
  refine ⟨fun h => ?_, fun h => ?_⟩
  · obtain ⟨i, rfl⟩ := Option.ne_none_iff_exists'.1 (mt hQ.1 h)
    simp
  · rw [hQ.2 h, Option.map_none, Option.none_or]
    exact hc

/-! ## The form (R24) -/

section
variable {slab kind : Nat} {rect : Rect} {job pp pi rs : Nat}

/-- The size's ranges (R22). -/
def Sized (rect : Rect) (l l' w w' : Nat) : Prop :=
  l ≤ rect.length ∧ rect.length ≤ l' ∧ w ≤ rect.width ∧ rect.width ≤ w'

/-- R24: what a PLACE out of no form error carries. -/
def PlaceFormed (kind : Nat) (rect : Rect) (job pp pi rs : Nat) : Prop :=
  rect.x ≤ 4000 ∧ rect.y ≤ 2200
    ∧ ((kind = 0 ∨ kind = 1) ∧ job ≠ 0 ∧ Sized rect 100 3800 50 2000
      ∨ kind = 2 ∧ job ≠ 0 ∧ pp = 1 ∧ pi ≤ 11 ∧ Sized rect 1 3700 1 1900
      ∨ kind = 3 ∧ job = 0 ∧ rs ≠ 0 ∧ Sized rect 1 4000 1 2200)

theorem sizeFits_iff {k : PlacementKind} : sizeFits k rect = true ↔ match k with
    | .piece => Sized rect 100 3800 50 2000
    | .mitre => Sized rect 100 3800 50 2000
    | .remnant => Sized rect 1 4000 1 2200
    | .cutout => Sized rect 1 3700 1 1900 := by
  cases k <;> simp [sizeFits, Sized, inRange_iff, and_assoc]

/-- The request of a PIECE or MITRE. -/
def pieceRequest (slab : Nat) (k : PlacementKind) (rect : Rect) (job : Nat) : PlaceRequest :=
  ⟨slab, k, rect, some job, none, none⟩

def cutoutRequest (slab : Nat) (rect : Rect) (job pi : Nat) : PlaceRequest :=
  ⟨slab, .cutout, rect, some job, some pi, none⟩

def remnantRequest (slab : Nat) (rect : Rect) (rs : Nat) : PlaceRequest := ⟨slab, .remnant, rect, none, none, some rs⟩

theorem placeForm_piece {k : PlacementKind} (hk : decodeKind kind = some k) (hp : k.isPiece = true) (hx : rect.x ≤ 4000)
    (hy : rect.y ≤ 2200) (hj : job ≠ 0) (hs : Sized rect 100 3800 50 2000) :
    placeForm slab kind rect job pp pi rs = some (pieceRequest slab k rect job) := by
  unfold placeForm
  rw [hk]
  dsimp only
  cases k with
  | piece | mitre =>
    rw [if_neg (by rw [← Bool.not_eq_true, sizeFits_iff]; simp [hs]; omega)]
    exact if_neg hj
  | cutout | remnant => cases hp

theorem placeForm_cutout (hx : rect.x ≤ 4000) (hy : rect.y ≤ 2200) (hj : job ≠ 0) (hpi : pi ≤ 11)
    (hs : Sized rect 1 3700 1 1900) :
    placeForm slab 2 rect job 1 pi rs = some (cutoutRequest slab rect job pi) := by
  unfold placeForm
  rw [show decodeKind 2 = some .cutout from rfl]
  dsimp only
  rw [if_neg (by rw [← Bool.not_eq_true, sizeFits_iff]; simp [hs]; omega)]
  exact if_neg (by omega)

theorem placeForm_remnant (hx : rect.x ≤ 4000) (hy : rect.y ≤ 2200) (hrs : rs ≠ 0)
    (hs : Sized rect 1 4000 1 2200) :
    placeForm slab 3 rect 0 pp pi rs = some (remnantRequest slab rect rs) := by
  unfold placeForm
  rw [show decodeKind 3 = some .remnant from rfl]
  dsimp only
  rw [if_neg (by rw [← Bool.not_eq_true, sizeFits_iff]; simp [hs]; omega)]
  exact if_neg (by omega)

theorem decodeKind_cases {k : PlacementKind} (h : decodeKind kind = some k) :
    kind = 0 ∧ k = .piece ∨ kind = 1 ∧ k = .mitre ∨ kind = 2 ∧ k = .cutout ∨ kind = 3 ∧ k = .remnant := by
  match kind, h with
  | 0, h | 1, h | 2, h | 3, h => cases h; simp

theorem placeForm_malformed (h : ¬ PlaceFormed kind rect job pp pi rs) :
    placeForm slab kind rect job pp pi rs = none := by
  unfold placeForm
  split
  · rfl
  next k hk =>
    split
    · rfl
    next hsize =>
      rw [not_or, not_or, Bool.not_eq_false, sizeFits_iff] at hsize
      obtain ⟨hs, hx, hy⟩ := hsize
      unfold PlaceFormed at h
      rcases decodeKind_cases hk with ⟨rfl, rfl⟩ | ⟨rfl, rfl⟩ | ⟨rfl, rfl⟩ | ⟨rfl, rfl⟩
      · exact if_pos (by by_contra hj; exact h ⟨by omega, by omega, .inl ⟨.inl rfl, hj, hs⟩⟩)
      · exact if_pos (by by_contra hj; exact h ⟨by omega, by omega, .inl ⟨.inr rfl, hj, hs⟩⟩)
      · refine if_pos ?_
        by_contra hc
        simp only [not_or, not_not] at hc
        exact h ⟨by omega, by omega, .inr (.inl ⟨rfl, hc.1, hc.2.1, by omega, hs⟩)⟩
      · refine if_pos ?_
        by_contra hc
        simp only [not_or, not_not] at hc
        exact h ⟨by omega, by omega, .inr (.inr ⟨rfl, hc.1, hc.2, hs⟩)⟩

end

/-! ## The checks (R25 to R29, R33) -/

theorem meets_comm (a b : Rect) : a.meets b = b.meets a := by
  unfold Rect.meets
  rw [Bool.eq_iff_iff]
  simp only [Bool.and_eq_true, decide_eq_true_eq]
  tauto

section
variable {s : State} {slab : Nat}

/-- The lowest index is found in the slab's twelve places. -/
theorem lowest_eq (c : Placement → Bool) :
    s.lowest slab c = (List.range 12).find? (fun n => (s.placement? slab n).any c) := by
  unfold State.lowest
  congr 1
  funext i
  cases s.placement? slab i <;> rfl

theorem meetsRect_eq (r : Rect) : Placement.meetsRect r = fun p => p.reserved.any (fun q => q.meets r) := by
  funext p
  unfold Placement.meetsRect
  cases p.reserved <;> rfl

theorem find?_range_eq_none {f : Nat → Bool} : (List.range 12).find? f = none ↔ ∀ n < 12, f n = false := by
  simp

theorem overlapCheck_eq (r : Rect) : overlapCheck s slab r
    = ((List.range 12).find? (fun n => (s.placement? slab n).any
        (fun p => p.reserved.any (fun q => q.meets (r.skirted s.constants.kerf))))).map (fun i => (.overlap, u8 i)) := by
  unfold overlapCheck
  rw [lowest_eq, meetsRect_eq]
  split <;> simp [*]

theorem defectCheck_eq (x : Slab) (r : Rect) : defectCheck s x r
    = (x.defects.findIdx? (fun d => (r.skirted s.constants.kerf).meets d)).map (fun i => (.defect, u8 i)) := by
  unfold defectCheck
  split <;> simp_all

end

/-- R25, in order. -/
def commonParts (s : State) (x : Slab) (slab kind job : Nat) : List CheckPart :=
  [ (x.state.isStock = true, .slabState, []),
    (x.lock = none, .slabLocked, []),
    (kind = 3 ∨ s.job? job ≠ none, .noJob, []),
    (kind = 3 ∨ ∀ j, s.job? job = some j → j.state = .opened, .jobState, []),
    ((s.placementsOf slab).length < 12, .slabFull, []),
    (s.placements.length < 1536, .poolFull, []) ]

/-- R26 and R27, of everything that holds a place on the slab. -/
def onSlabParts (s : State) (x : Slab) (slab : Nat) (rect : Rect) : List CheckPart :=
  let reserved : Rect := ⟨rect.x, rect.y, rect.length + s.constants.kerf, rect.width + s.constants.kerf⟩
  let hit := fun (n : Nat) => (s.placement? slab n).any (fun p => p.reserved.any (fun q => q.meets reserved))
  [ (s.constants.margin ≤ rect.x ∧ s.constants.margin ≤ rect.y
      ∧ rect.x + rect.length + s.constants.kerf + s.constants.margin ≤ x.length
      ∧ rect.y + rect.width + s.constants.kerf + s.constants.margin ≤ x.width, .geometry, []),
    (∀ n < 12, hit n = false, .overlap, ((List.range 12).find? hit).toList.flatMap u8) ]

/-- R28, of a PIECE or MITRE. -/
def defectParts (s : State) (x : Slab) (rect : Rect) : List CheckPart :=
  let reserved : Rect := ⟨rect.x, rect.y, rect.length + s.constants.kerf, rect.width + s.constants.kerf⟩
  [ (∀ d ∈ x.defects, reserved.meets d = false, .defect,
      (x.defects.findIdx? (fun d => reserved.meets d)).toList.flatMap u8) ]

/-- R29. -/
def remnantParts (s : State) (x : Slab) (rect : Rect) (rs : Nat) : List CheckPart :=
  [ (s.constants.remnantMin ≤ rect.length ∧ s.constants.remnantMin ≤ rect.width, .tooSmall, []),
    (x.generation < 3, .generation, []),
    (s.slab? rs = none, .duplicate, []),
    (s.slabs.length < 512, .tableFull, []) ]

/-- R33. -/
def cutoutParts (s : State) (slab : Nat) (rect : Rect) (job pi : Nat) : List CheckPart :=
  let sibling := fun (n : Nat) => (s.placement? slab n).any (fun c =>
    decide (c.kind = .cutout ∧ c.parentIndex = some pi) && c.rect.meets rect)
  [ (∃ p, s.placement? slab pi = some p ∧ p.kind.isPiece = true ∧ p.state = .planned ∧ p.job = some job, .noParent, []),
    (∀ p, s.placement? slab pi = some p → p.rect.x + 50 ≤ rect.x ∧ p.rect.y + 50 ≤ rect.y
      ∧ rect.x + rect.length + 50 ≤ p.rect.x + p.rect.length
      ∧ rect.y + rect.width + 50 ≤ p.rect.y + p.rect.width, .border, []),
    ((s.cutoutsOf slab pi).length < 3, .slabFull, []),
    (∀ n < 12, sibling n = false, .overlap, ((List.range 12).find? sibling).toList.flatMap u8) ]

section
variable {s : State} {x : Slab} {slab : Nat} {rect : Rect} {job pi rs : Nat} {ps : List CheckPart} {c : Check}

theorem inUsable_iff {length width m : Nat} {r : Rect} : inUsable length width m r = true ↔
    m ≤ r.x ∧ m ≤ r.y ∧ r.x + r.length + m ≤ length ∧ r.y + r.width + m ≤ width := by
  simp [inUsable, and_assoc]

theorem follows_onSlab (hc : Follows ps c) :
    Follows (onSlabParts s x slab rect ++ ps) ((usableCheck s x rect).or ((overlapCheck s slab rect).or c)) := by
  refine follows_cons ?_ ?_
  · rw [inUsable_iff]
    simp only [Rect.skirted, Nat.add_assoc]
  · rw [overlapCheck_eq]
    exact follows_found find?_range_eq_none hc

theorem follows_defect : Follows (defectParts s x rect) (defectCheck s x rect) := by
  rw [defectCheck_eq, ← Option.or_none (o := Option.map _ _)]
  exact follows_found (by simp [List.findIdx?_eq_none_iff]) follows_nil

theorem follows_remnant : Follows (remnantParts s x rect rs) (remnantCheck s x rect rs) :=
  follows_cons (by simp) (follows_cons (by simp) (follows_cons (by simp) (follows_one decide_eq_true_iff)))

theorem suitableParent_iff {p : Placement} {j : Option Nat} :
    suitableParent j p = true ↔ p.kind.isPiece = true ∧ p.state = .planned ∧ p.job = j := by
  simp [suitableParent, and_assoc]

theorem insideParent_iff {p r : Rect} : insideParent p r = true ↔ p.x + 50 ≤ r.x ∧ p.y + 50 ≤ r.y
    ∧ r.x + r.length + 50 ≤ p.x + p.length ∧ r.y + r.width + 50 ≤ p.y + p.width := by
  simp [insideParent, and_assoc]

theorem follows_cutout : Follows (cutoutParts s slab rect job pi) (cutoutCheck s slab pi (some job) rect) := by
  unfold cutoutCheck
  cases hp : s.placement? slab pi with
  | none =>
    refine ⟨fun _ => rfl, ?_⟩
    rintro ⟨p, hp', -⟩
    rw [hp] at hp'
    cases hp'
  | some p =>
    refine follows_cons ?_ (follows_cons ?_ (follows_cons ?_ ?_))
    · rw [suitableParent_iff, hp]
      simp
    · rw [insideParent_iff, hp]
      simp
    · exact decide_eq_true_iff
    · have hlow : s.lowest slab (fun c => decide (c.kind = .cutout) && decide (c.parentIndex = some pi)
          && c.rect.meets rect) = (List.range 12).find? (fun n => (s.placement? slab n).any (fun c =>
            decide (c.kind = .cutout ∧ c.parentIndex = some pi) && c.rect.meets rect)) := by
        rw [lowest_eq]
        simp only [Bool.decide_and]
      rw [hlow]
      refine ⟨fun h => ?_, fun h => ?_⟩
      · obtain ⟨i, hi⟩ := Option.ne_none_iff_exists'.1 (mt find?_range_eq_none.1 h)
        rw [hi]
        rfl
      · rw [find?_range_eq_none.2 h]
        rfl

theorem follows_job {kind : Nat} {j : Option Nat} (h3 : kind = 3 → j = none) (hj : kind ≠ 3 → j = some job)
    (hc : Follows ps c) :
    Follows ((kind = 3 ∨ s.job? job ≠ none, .noJob, []) ::
      (kind = 3 ∨ ∀ y, s.job? job = some y → y.state = .opened, .jobState, []) :: ps) ((jobCheck s j).or c) := by
  unfold jobCheck
  by_cases hk : kind = 3
  · rw [h3 hk]
    exact ⟨fun h => absurd (.inl hk) h, fun _ => ⟨fun h => absurd (.inl hk) h, fun _ => hc⟩⟩
  · rw [hj hk]
    dsimp only
    cases hjob : s.job? job with
    | none => exact ⟨fun _ => rfl, fun h => absurd rfl (h.resolve_left hk)⟩
    | some y => exact ⟨fun h => absurd (.inr (by simp)) h, fun _ => follows_cons (by simp [hk]) hc⟩

/-- R25, then the geometric checks of the kind. -/
theorem follows_common {kind : Nat} {q : PlaceRequest} (hslab : q.slab = slab) (h3 : kind = 3 → q.job = none)
    (hj : kind ≠ 3 → q.job = some job) (hc : Follows ps (geometryCheck s x q)) :
    Follows (commonParts s x slab kind job ++ ps)
      ((checkThat x.state.isStock .slabState).or ((checkThat x.lock.isNone .slabLocked).or ((jobCheck s q.job).or
        ((checkThat (decide ((s.placementsOf q.slab).length < maxPerSlab)) .slabFull).or
        ((checkThat (decide (s.placements.length < maxPlacements)) .poolFull).or (geometryCheck s x q)))))) := by
  subst hslab
  exact follows_cons Iff.rfl (follows_cons (by simp) (follows_job h3 hj
    (follows_cons decide_eq_true_iff (follows_cons decide_eq_true_iff hc))))

end

/-- The checks of R25 past group and record, then the geometric checks. -/
def slabChecks (s : State) (x : Slab) (q : PlaceRequest) : Check :=
  (checkThat x.state.isStock .slabState).or ((checkThat x.lock.isNone .slabLocked).or ((jobCheck s q.job).or
    ((checkThat (decide ((s.placementsOf q.slab).length < maxPerSlab)) .slabFull).or
    ((checkThat (decide (s.placements.length < maxPlacements)) .poolFull).or (geometryCheck s x q)))))

/-- The parts of a kind's PLACE. -/
def placeParts (s : State) (x : Slab) (slab kind : Nat) (rect : Rect) (job pi rs : Nat) : List CheckPart :=
  commonParts s x slab kind job ++
    if kind = 2 then cutoutParts s slab rect job pi
    else if kind = 3 then onSlabParts s x slab rect ++ remnantParts s x rect rs
    else onSlabParts s x slab rect ++ defectParts s x rect

/-- The kind's capability group is enabled (R25 check 1). -/
def KindEnabled (s : State) (kind : Nat) : Prop :=
  (kind = 1 → s.groups.mitre = true) ∧ (kind = 2 → s.groups.cutout = true) ∧ (kind = 3 → s.groups.remnant = true)

section
variable {s : State} {x : Slab} {slab kind : Nat} {rect : Rect} {job pp pi rs index : Nat} {q : PlaceRequest}

theorem follows_piece {k : PlacementKind} (hk : k.isPiece = true) (hkind : kind ≠ 3) :
    Follows (commonParts s x slab kind job ++ (onSlabParts s x slab rect ++ defectParts s x rect))
      (slabChecks s x (pieceRequest slab k rect job)) := by
  refine follows_common rfl (fun h => absurd h hkind) (fun _ => rfl) ?_
  cases k with
  | piece | mitre => exact follows_onSlab follows_defect
  | cutout | remnant => cases hk

theorem follows_remnantRequest :
    Follows (commonParts s x slab 3 job ++ (onSlabParts s x slab rect ++ remnantParts s x rect rs))
      (slabChecks s x (remnantRequest slab rect rs)) :=
  follows_common rfl (fun _ => rfl) (fun h => absurd rfl h) (follows_onSlab follows_remnant)

theorem follows_cutoutRequest :
    Follows (commonParts s x slab 2 job ++ cutoutParts s slab rect job pi)
      (slabChecks s x (cutoutRequest slab rect job pi)) :=
  follows_common rfl (fun h => absurd h (by decide)) (fun _ => rfl) follows_cutout

/-- A request in form goes through the parts of its kind. -/
theorem placeForm_formed (hf : PlaceFormed kind rect job pp pi rs) :
    ∃ q, placeForm slab kind rect job pp pi rs = some q ∧ q.slab = slab
      ∧ (∀ s : State, s.groups.on (kindGroup q.kind) = true ↔ KindEnabled s kind)
      ∧ ∀ s x, Follows (placeParts s x slab kind rect job pi rs) (slabChecks s x q) := by
  obtain ⟨hx, hy, h⟩ := hf
  rcases h with ⟨hk, hj, hs⟩ | ⟨rfl, hj, rfl, hpi, hs⟩ | ⟨rfl, rfl, hrs, hs⟩
  · rcases hk with rfl | rfl
    · exact ⟨_, placeForm_piece rfl rfl hx hy hj hs, rfl, fun s => by simp [KindEnabled, pieceRequest, kindGroup, Groups.on],
        fun s x => follows_piece rfl (by decide)⟩
    · exact ⟨_, placeForm_piece rfl rfl hx hy hj hs, rfl, fun s => by simp [KindEnabled, pieceRequest, kindGroup, Groups.on],
        fun s x => follows_piece rfl (by decide)⟩
  · exact ⟨_, placeForm_cutout hx hy hj hpi hs, rfl, fun s => by simp [KindEnabled, cutoutRequest, kindGroup, Groups.on],
      fun s x => follows_cutoutRequest⟩
  · exact ⟨_, placeForm_remnant hx hy hrs hs, rfl, fun s => by simp [KindEnabled, remnantRequest, kindGroup, Groups.on],
      fun s x => follows_remnantRequest⟩

theorem placeCheck_groupOff (h : ¬ s.groups.on (kindGroup q.kind) = true) : placeCheck s q = some (.groupOff, []) := by
  unfold placeCheck
  rw [checkThat_fail (Bool.eq_false_iff.2 h), Option.some_or]

theorem placeCheck_noSlab (h : s.groups.on (kindGroup q.kind) = true) (hx : s.slab? q.slab = none) :
    placeCheck s q = some (.noSlab, []) := by
  unfold placeCheck
  rw [checkThat_pass h, hx, Option.none_or]

theorem placeCheck_slab (h : s.groups.on (kindGroup q.kind) = true) (hx : s.slab? q.slab = some x) :
    placeCheck s q = slabChecks s x q := by
  unfold placeCheck
  rw [checkThat_pass h, hx, Option.none_or]
  rfl

theorem place_malformed (hf : placeForm slab kind rect job pp pi rs = none) :
    place slab kind rect job pp pi rs s = (.reject .form [], s) := by
  unfold place; rw [hf]; rfl

theorem place_refused {r : Reason} {d : List Byte} (hf : placeForm slab kind rect job pp pi rs = some q)
    (hc : placeCheck s q = some (r, d)) : place slab kind rect job pp pi rs s = (.reject r d, s) := by
  unfold place; rw [hf]; exact unlessFails_fail hc

theorem place_placed (hf : placeForm slab kind rect job pp pi rs = some q) (hc : placeCheck s q = none)
    (hx : s.slab? slab = some x) (hi : s.freeIndex slab = some index) :
    place slab kind rect job pp pi rs s
      = (.answer (placeAnswer s x q index), (s.addPlacement (q.entry index s.constants.kerf)).reserveRemnant x q) := by
  unfold place; rw [hf]; dsimp only; rw [unlessFails_pass hc, hx, hi]

theorem freeIndex_eq (hlt : index < 12) (hfree : s.placement? slab index = none)
    (hlow : ∀ m < index, s.placement? slab m ≠ none) : s.freeIndex slab = some index := by
  unfold State.freeIndex
  rw [List.find?_range_eq_some]
  exact ⟨by simp [hfree], List.mem_range.2 hlt, fun m hm => by simpa using Option.isSome_iff_ne_none.2 (hlow m hm)⟩

theorem commonParts_hold {j : Job} (hst : x.state.isStock = true) (hl : x.lock = none)
    (hj : kind = 3 ∨ s.job? job = some j ∧ j.state = .opened) (hslab : (s.placementsOf slab).length < 12)
    (hpool : s.placements.length < 1536) : ∀ p ∈ commonParts s x slab kind job, p.1 := by
  simp only [commonParts, List.forall_mem_cons, List.not_mem_nil, false_imp_iff, implies_true, and_true]
  refine ⟨hst, hl, hj.imp_right (fun h => by simp [h.1]), hj.imp_right (fun h y hy => ?_), hslab, hpool⟩
  rw [h.1] at hy
  cases hy
  exact h.2

theorem onSlabParts_hold (hmx : s.constants.margin ≤ rect.x) (hmy : s.constants.margin ≤ rect.y)
    (hlx : rect.x + rect.length + s.constants.kerf + s.constants.margin ≤ x.length)
    (hly : rect.y + rect.width + s.constants.kerf + s.constants.margin ≤ x.width)
    (hfree : ∀ n < 12, ∀ p, s.placement? slab n = some p → ∀ q, p.reserved = some q →
      Rect.meets ⟨rect.x, rect.y, rect.length + s.constants.kerf, rect.width + s.constants.kerf⟩ q = false) :
    ∀ p ∈ onSlabParts s x slab rect, p.1 := by
  simp only [onSlabParts, List.forall_mem_cons, List.not_mem_nil, false_imp_iff, implies_true, and_true]
  refine ⟨⟨hmx, hmy, hlx, hly⟩, fun n hn => ?_⟩
  rw [Bool.eq_false_iff]
  intro h
  simp only [Option.any_eq_true] at h
  obtain ⟨p, hp, q, hq, hmeet⟩ := h
  rw [meets_comm, hfree n hn p hp q hq] at hmeet
  cases hmeet

end

/-- Settles O30. The form, the group, the record and then the parts of the kind decide in that order. -/
theorem placePieceTakesLowestIndex : Obligations.PlacePieceTakesLowestIndex := by
  constructor
  · intro h copy slab kind rect job pp pi rs s i hp u refused sized formed enabled
    have hask (hf : formed) := placeForm_formed (slab := slab) (pp := pp) (show PlaceFormed kind rect job pp pi rs from hf)
    refine ⟨fun hf => exec_of_block rfl hp (place_malformed (placeForm_malformed hf)), ?_, ?_, ?_⟩
    · intro hf hoff
      obtain ⟨q, hq, hslab, hgroup, -⟩ := hask hf
      exact exec_of_block rfl hp (place_refused hq (placeCheck_groupOff (mt (hgroup u).1 hoff)))
    · intro hf hon hx
      obtain ⟨q, hq, hslab, hgroup, -⟩ := hask hf
      exact exec_of_block rfl hp (place_refused hq (placeCheck_noSlab ((hgroup u).2 hon) (by rw [hslab]; exact hx)))
    · intro x hf hon hx reserved hit sibling first common onSlab ofKind parts n Q reason detail hn hprev hQ
      obtain ⟨q, hq, hslab, hgroup, hfollow⟩ := hask hf
      have hparts : parts = placeParts s x slab kind rect job pi rs := rfl
      have hcheck : placeCheck u q = some (reason, detail) := by
        rw [placeCheck_slab ((hgroup u).2 hon) (by rw [hslab]; exact hx)]
        exact follows_refuses (hfollow s x) hn hprev hQ
      exact exec_of_block rfl hp (place_refused hq hcheck)
  · intro h copy slab kind rect job pp pi rs index k x j s i reserved hp hk hgroup hj hl1 hl2 hw1 hw2 hx hy hslab hst hlock
      hjob hopen hpool hfull hmx hmy hlx hly hfree hdef hlt hindex hlow
    have hpiece : k.isPiece = true := isPiece_iff.2 (hgroup.imp_right And.left)
    have hon : s.groups.on (kindGroup k) = true := by
      rcases hgroup with rfl | ⟨rfl, hm⟩
      · rfl
      · exact hm
    have hkind : kind ≠ 3 := by
      rintro rfl
      cases hk
      cases hpiece
    have hcheck : placeCheck s (pieceRequest slab k rect job) = none := by
      rw [placeCheck_slab hon hslab]
      refine follows_passes (follows_piece (kind := kind) hpiece hkind) (List.forall_mem_append.2
        ⟨commonParts_hold hst hlock (.inr ⟨hjob, hopen⟩) hfull hpool, List.forall_mem_append.2
        ⟨onSlabParts_hold hmx hmy hlx hly hfree, ?_⟩⟩)
      simpa [defectParts] using hdef
    refine exec_of_block rfl hp ((place_placed (s := s.restartSilence h.src) (x := x)
      (placeForm_piece hk hpiece hx hy hj ⟨hl1, hl2, hw1, hw2⟩) hcheck hslab
      (freeIndex_eq (s := s.restartSilence h.src) hlt hindex hlow)).trans ?_)
    cases k with
    | piece | mitre => simp [placeAnswer, pieceRequest, PlaceRequest.entry, opt, State.reserveRemnant]; rfl
    | cutout | remnant => cases hpiece

/-- Settles O31. -/
theorem placeRemnantReservesRecord : Obligations.PlaceRemnantReservesRecord := by
  intro h copy slab rect pp pi rs index x s i reserved hp hgroup hrs hl1 hl2 hw1 hw2 hx hy hslab hst hlock hpool hfull hmx
    hmy hlx hly hfree hmin1 hmin2 hgen hnew hroom hlt hindex hlow
  have hcheck : placeCheck s (remnantRequest slab rect rs) = none := by
    rw [placeCheck_slab (q := remnantRequest slab rect rs) hgroup hslab]
    refine follows_passes (follows_remnantRequest (job := 0)) (List.forall_mem_append.2
      ⟨commonParts_hold (j := newJob 0) hst hlock (.inl rfl) hfull hpool, List.forall_mem_append.2
      ⟨onSlabParts_hold hmx hmy hlx hly hfree, ?_⟩⟩)
    simp only [remnantParts, List.forall_mem_cons, List.not_mem_nil, false_imp_iff, implies_true, and_true]
    exact ⟨⟨hmin1, hmin2⟩, hgen, hnew, hroom⟩
  refine exec_of_block rfl hp ((place_placed (s := s.restartSilence h.src) (x := x)
    (placeForm_remnant hx hy hrs ⟨hl1, hl2, hw1, hw2⟩) hcheck hslab
    (freeIndex_eq (s := s.restartSilence h.src) hlt hindex hlow)).trans ?_)
  have hid : x.id = slab := slab?_id hslab
  simp only [placeAnswer, remnantRequest, PlaceRequest.entry, opt, State.reserveRemnant, remnantSlab, hid, List.append_assoc]
  rfl

/-- Settles O32. -/
theorem placeCutoutWithinParent : Obligations.PlaceCutoutWithinParent := by
  intro h copy slab rect job pi rs index x j p s i hp hgroup hj hpi hl1 hl2 hw1 hw2 hx hy hslab hst hlock hjob hopen hpool
    hfull hparent hpiece hplanned hpjob hbx hby hbl hbw hthree hsib hlt hindex hlow
  have hcheck : placeCheck s (cutoutRequest slab rect job pi) = none := by
    rw [placeCheck_slab (q := cutoutRequest slab rect job pi) hgroup hslab]
    refine follows_passes follows_cutoutRequest (List.forall_mem_append.2
      ⟨commonParts_hold hst hlock (.inr ⟨hjob, hopen⟩) hfull hpool, ?_⟩)
    simp only [cutoutParts, List.forall_mem_cons, List.not_mem_nil, false_imp_iff, implies_true, and_true]
    refine ⟨⟨p, hparent, hpiece, hplanned, hpjob⟩, fun p' hp' => ?_, hthree, fun n hn => ?_⟩
    · rw [hparent] at hp'
      cases hp'
      exact ⟨hbx, hby, hbl, hbw⟩
    · rw [Bool.eq_false_iff]
      intro hmet
      simp only [Option.any_eq_true, Bool.and_eq_true, decide_eq_true_eq] at hmet
      obtain ⟨c, hc, ⟨hkind, hpar⟩, hmeet⟩ := hmet
      rw [hsib n hn c hc hkind hpar] at hmeet
      cases hmeet
  refine exec_of_block rfl hp ((place_placed (s := s.restartSilence h.src) (x := x)
    (placeForm_cutout hx hy hj hpi ⟨hl1, hl2, hw1, hw2⟩) hcheck hslab
    (freeIndex_eq (s := s.restartSilence h.src) hlt hindex hlow)).trans ?_)
  simp only [placeAnswer, cutoutRequest, PlaceRequest.entry, opt, State.reserveRemnant, List.append_nil]
  rfl

end Sys2Proof.Proofs
end

