-- ==== Sys2Proof/Proofs/StationLoads.lean ====
section
/-! SUPPORT. LOAD STATION (R38 to R43): its form, the placement rules of the classes as a list of parts, and what it
creates, updates, replaces or frees, with the loss of the recycler (R102). -/

namespace Sys2Proof.Proofs

open Sys2Proof Sys2Proof.Config Sys2Proof.Machine

/-! ## The form (R39) -/

theorem decodeClass_iff {n : Nat} {c : StationClass} : decodeClass n = some c ↔ n = classCode c := by
  constructor
  · intro h
    match n, h with
    | 0, h | 1, h | 2, h | 3, h | 4, h | 5, h | 6, h => cases h; rfl
  · rintro rfl
    cases c <;> rfl

theorem decodeClass_of_le {n : Nat} (h : n ≤ 6) : ∃ c, decodeClass n = some c := by
  interval_cases n <;> exact ⟨_, rfl⟩

theorem decodeSide_iff {n : Nat} {sd : Side} : decodeSide n = some sd ↔ n = sideCode sd := by
  constructor
  · intro h
    match n, h with
    | 0, h | 1, h => cases h; rfl
  · rintro rfl
    cases sd <;> rfl

theorem decodeSide_of_le {n : Nat} (h : n ≤ 1) : ∃ sd, decodeSide n = some sd := by
  interval_cases n <;> exact ⟨_, rfl⟩

theorem classCode_le (c : StationClass) : classCode c ≤ 6 := by cases c <;> simp [classCode]

theorem sideCode_le (sd : Side) : sideCode sd ≤ 1 := by cases sd <;> simp [sideCode]

theorem classCode_supervisor_iff {c : StationClass} : classCode c = 1 ↔ c = .supervisor := by
  cases c <;> simp [classCode]

theorem isSaw_iff_classCode {c : StationClass} : c.isSaw = true ↔ classCode c = 3 ∨ classCode c = 4 := by
  cases c <;> simp [classCode, StationClass.isSaw]

theorem tierOk_iff {c : StationClass} {tier : Nat} :
    tierOk c tier = true ↔ c = .supervisor ∧ tier = 0 ∨ c ≠ .supervisor ∧ 1 ≤ tier ∧ tier ≤ 3 := by
  cases c <;> simp [tierOk, inRange_iff]

theorem addressOk_iff {s : State} {a : Nat} : s.addressOk a = true ↔ 1 ≤ a ∧ a ≤ 30 ∧ a ≠ s.address := by
  simp [State.addressOk, inRange_iff, and_assoc]

/-- The ranges of Table 3-1. -/
def SawFormed (f : SawFields) : Prop :=
  1 ≤ f.kindSet ∧ f.kindSet ≤ 15 ∧ 600 ≤ f.bedLength ∧ f.bedLength ≤ 4000
    ∧ 400 ≤ f.bedWidth ∧ f.bedWidth ≤ 2200 ∧ 10 ≤ f.maxThickness ∧ f.maxThickness ≤ 50 ∧ f.materials.length ≤ 4
    ∧ (∀ m ∈ f.materials, 1 ≤ m ∧ m ≤ 65535) ∧ 1 ≤ f.feedMin ∧ f.feedMin ≤ f.feedMax ∧ f.feedMax ≤ 20000
    ∧ f.sawRate ≤ 100000 ∧ f.wearRate ≤ 100000 ∧ f.patient ≤ 1

theorem sawConfigOf_isSome {f : SawFields} : (∃ g, sawConfigOf f = some g) ↔ SawFormed f := by
  unfold sawConfigOf SawFormed
  by_cases hp : f.patient ≤ 1
  · rw [decodeFlag_of_le hp]
    dsimp only
    split
    next hok =>
      simp only [Bool.and_eq_true, inRange_iff, decide_eq_true_eq, List.all_eq_true] at hok
      obtain ⟨⟨⟨⟨⟨⟨⟨⟨⟨⟨hk, hl⟩, hw⟩, ht⟩, hn⟩, hm⟩, hmin⟩, hmax⟩, hle⟩, hs⟩, hr⟩ := hok
      simp only [Option.some.injEq, exists_eq', true_iff]
      exact ⟨hk.1, hk.2, hl.1, hl.2, hw.1, hw.2, ht.1, ht.2, hn, hm, hmin.1, hle, hmax.2, hs, hr, hp⟩
    next hno =>
      simp only [reduceCtorEq, exists_false, false_iff]
      rintro ⟨h1, h2, h3, h4, h5, h6, h7, h8, h9, h10, h11, h12, h13, h14, h15, -⟩
      refine hno ?_
      simp only [Bool.and_eq_true, inRange_iff, decide_eq_true_eq, List.all_eq_true]
      exact ⟨⟨⟨⟨⟨⟨⟨⟨⟨⟨⟨h1, h2⟩, h3, h4⟩, h5, h6⟩, h7, h8⟩, h9⟩, h10⟩, h11, by omega⟩, by omega, h13⟩, h12⟩, h14⟩, h15⟩
  · rw [decodeFlag_of_lt (by omega)]
    simp only [reduceCtorEq, exists_false, false_iff]
    tauto

section
variable {s : State} {address cls side tier : Nat} {saw : Option SawFields} {c : StationClass} {sd : Side}
  {cfg : Option SawConfig}

/-- The saw fields a class calls for, and the configuration they give. -/
def SawGiven (saw : Option SawFields) (c : StationClass) (cfg : Option SawConfig) : Prop :=
  saw = none ∧ c.isSaw = false ∧ cfg = none ∨ ∃ f g, saw = some f ∧ c.isSaw = true ∧ sawConfigOf f = some g ∧ cfg = some g

theorem stationForm_some (ha : s.addressOk address = true) (hc : decodeClass cls = some c)
    (hd : decodeSide side = some sd) (ht : tierOk c tier = true) (hsaw : SawGiven saw c cfg) :
    stationForm s address cls side tier saw = some ⟨address, sd, c, tier, cfg⟩ := by
  unfold stationForm
  rw [if_neg (by simp [ha]), hc, hd]
  dsimp only
  rw [if_neg (by simp [ht])]
  rcases hsaw with ⟨rfl, hc, rfl⟩ | ⟨f, g, rfl, hc, hg, rfl⟩
  · exact if_neg (by simp [hc])
  · dsimp only
    rw [if_pos hc, hg]

theorem of_stationForm {q : StationLoad} (h : stationForm s address cls side tier saw = some q) :
    s.addressOk address = true ∧ ∃ c sd cfg, decodeClass cls = some c ∧ decodeSide side = some sd ∧ tierOk c tier = true
      ∧ SawGiven saw c cfg := by
  unfold stationForm at h
  split at h
  · cases h
  next ha =>
    refine ⟨by simpa using ha, ?_⟩
    split at h
    next c sd hc hd =>
      split at h
      · cases h
      next ht =>
        refine ⟨c, sd, ?_⟩
        split at h
        · split at h
          · cases h
          next hs => exact ⟨none, hc, hd, by simpa using ht, .inl ⟨rfl, by simpa using hs, rfl⟩⟩
        next f =>
          split at h
          next hs =>
            split at h
            · cases h
            next g hg => exact ⟨some g, hc, hd, by simpa using ht, .inr ⟨f, g, rfl, hs, hg, rfl⟩⟩
          · cases h
    · cases h

/-- R39 in numbers. -/
def LoadFormed (s : State) (address cls side tier : Nat) (saw : Option SawFields) : Prop :=
  1 ≤ address ∧ address ≤ 30 ∧ address ≠ s.address ∧ cls ≤ 6 ∧ side ≤ 1
    ∧ (cls = 1 ∧ tier = 0 ∨ cls ≠ 1 ∧ 1 ≤ tier ∧ tier ≤ 3)
    ∧ (cls ≠ 3 ∧ cls ≠ 4 ∧ saw = none ∨ (cls = 3 ∨ cls = 4) ∧ ∃ f, saw = some f ∧ SawFormed f)

theorem stationForm_malformed (h : ¬ LoadFormed s address cls side tier saw) :
    stationForm s address cls side tier saw = none := by
  cases hq : stationForm s address cls side tier saw with
  | none => rfl
  | some q =>
    obtain ⟨ha, c, sd, cfg, hc, hd, ht, hsaw⟩ := of_stationForm hq
    obtain rfl := decodeClass_iff.1 hc
    obtain rfl := decodeSide_iff.1 hd
    obtain ⟨h1, h30, hne⟩ := addressOk_iff.1 ha
    refine absurd ⟨h1, h30, hne, classCode_le c, sideCode_le sd, ?_, ?_⟩ h
    · rw [ne_eq, classCode_supervisor_iff]
      exact tierOk_iff.1 ht
    · rcases hsaw with ⟨rfl, hs, rfl⟩ | ⟨f, g, rfl, hs, hg, rfl⟩
      · rw [← Bool.not_eq_true, isSaw_iff_classCode, not_or] at hs
        exact .inl ⟨hs.1, hs.2, rfl⟩
      · exact .inr ⟨isSaw_iff_classCode.1 hs, f, rfl, sawConfigOf_isSome.1 ⟨g, hg⟩⟩

theorem stationForm_formed (h : LoadFormed s address cls side tier saw) (hc : decodeClass cls = some c) :
    ∃ sd cfg, decodeSide side = some sd ∧ stationForm s address cls side tier saw = some ⟨address, sd, c, tier, cfg⟩ := by
  obtain ⟨h1, h30, hne, -, hside, ht, hsaw⟩ := h
  obtain ⟨sd, hd⟩ := decodeSide_of_le hside
  obtain rfl := decodeClass_iff.1 hc
  have htier : tierOk c tier = true := by
    rw [tierOk_iff, ne_eq, ← classCode_supervisor_iff]
    exact ht
  have hgiven : ∃ cfg, SawGiven saw c cfg := by
    rcases hsaw with ⟨h3, h4, rfl⟩ | ⟨hs, f, rfl, hf⟩
    · exact ⟨none, .inl ⟨rfl, Bool.eq_false_iff.2 (fun h => by have := isSaw_iff_classCode.1 h; omega), rfl⟩⟩
    · obtain ⟨g, hg⟩ := sawConfigOf_isSome.2 hf
      exact ⟨some g, .inr ⟨f, g, rfl, isSaw_iff_classCode.2 hs, hg, rfl⟩⟩
  obtain ⟨cfg, hcfg⟩ := hgiven
  exact ⟨sd, cfg, hd, stationForm_some (addressOk_iff.2 ⟨h1, h30, hne⟩) hc hd htier hcfg⟩

end

/-! ## The placement rules of the classes (R40) -/

/-- R40, in order, of the entries as they stand without the one loaded. -/
def classParts (s : State) (q : StationLoad) (stationSide : Nat) : List (Prop × Reason) :=
  let others := s.stations.filter (fun st => decide (st.address ≠ q.address))
  [ (q.cls = .panel ∨ ((q.cls = .planning ∨ q.cls = .supervisor) ↔ stationSide = 0), .classSide),
    (q.cls.isSaw = true → others.countP (fun st => st.cls.isSaw) < 8, .tableFull),
    (q.cls = .recycler → ∀ st ∈ others, st.cls ≠ .recycler, .tableFull),
    (q.cls = .supervisor → ∀ st ∈ others, st.cls ≠ .supervisor, .tableFull),
    (s.station? q.address = none → s.stations.length < 24, .tableFull) ]

/-- Parts whose refusals carry no detail. -/
def plain (parts : List (Prop × Reason)) : List CheckPart := parts.map (fun p => (p.1, p.2, []))

theorem follows_plain_refuses {parts : List (Prop × Reason)} {c : Check} (hf : Follows (plain parts) c) {n : Nat} {Q : Prop}
    {r : Reason} (hn : parts[n]? = some (Q, r))
    (hprev : ∀ (m : Nat) (Q' : Prop) (y : Reason), m < n → parts[m]? = some (Q', y) → Q') (hQ : ¬ Q) :
    c = some (r, []) := by
  have hget (m : Nat) : (plain parts)[m]? = (parts[m]?).map (fun p => (p.1, p.2, [])) := List.getElem?_map
  refine follows_refuses hf (by rw [hget, hn]; rfl) (fun m Q' y hm h => ?_) hQ
  rw [hget, Option.map_eq_some_iff] at h
  obtain ⟨⟨Q'', r'⟩, hpart, heq⟩ := h
  cases heq
  exact hprev m Q'' r' hm hpart

theorem sideOk_iff {c : StationClass} {sd : Side} :
    sideOk c sd = true ↔ c = .panel ∨ ((c = .planning ∨ c = .supervisor) ↔ sideCode sd = 0) := by
  cases c <;> cases sd <;> simp [sideOk, sideCode]

/-- A class that is to stand once does not stand among the others. -/
theorem notAmong_iff {c k : StationClass} {l : List Station} :
    (!decide (c = k) || !l.any (fun st => decide (st.cls = k))) = true ↔ (c = k → ∀ st ∈ l, st.cls ≠ k) := by
  simp only [Bool.or_eq_true, Bool.not_eq_true', decide_eq_false_iff_not, List.any_eq_false, decide_eq_true_eq, ne_eq]
  tauto

theorem follows_class {s : State} {q : StationLoad} : Follows (plain (classParts s q (sideCode q.side))) (classCheck s q) := by
  refine follows_cons sideOk_iff (follows_cons ?_ (follows_cons notAmong_iff (follows_cons notAmong_iff (follows_one ?_))))
  · rw [Bool.or_eq_true, Bool.not_eq_true', decide_eq_true_iff, ← Bool.not_eq_true]
    exact imp_iff_not_or.symm
  · rw [Bool.or_eq_true, decide_eq_true_iff, Option.isSome_iff_ne_none]
    exact imp_iff_not_or.symm

/-! ## What the silence restart leaves of the station table -/

theorem restartSilence_of_none {a : Nat} {s : State} (h : s.station? a = none) : s.restartSilence a = s := by
  have hstations : modifyBy Station.address a
      (fun st => if st.state = .attached then { st with silence := some silenceMs } else st) s.stations = s.stations := by
    refine (List.map_congr_left (fun st hst => ?_)).trans (List.map_id _)
    exact if_neg (findBy_none Station.address h st hst)
  unfold State.restartSilence State.modifyStation
  rw [hstations]

/-- Of a station's entry the restart can change the silence timer alone. -/
theorem station?_restartSilence_some {a b : Nat} {s : State} {st : Station} (h : s.station? b = some st) :
    ∃ n, (s.restartSilence a).station? b = some { st with silence := n } := by
  rw [station?_restartSilence, h, Option.map_some]
  split
  · split
    · exact ⟨_, rfl⟩
    · exact ⟨st.silence, rfl⟩
  · exact ⟨st.silence, rfl⟩

theorem others_cls (a b : Nat) (s : State) :
    ((s.restartSilence a).others b).map Station.cls = (s.others b).map Station.cls := by
  have haddr (st : Station) : (if st.address = a then
      (if st.state = .attached then { st with silence := some silenceMs } else st) else st).address = st.address := by
    split
    · split <;> rfl
    · rfl
  have hcls (st : Station) : (if st.address = a then
      (if st.state = .attached then { st with silence := some silenceMs } else st) else st).cls = st.cls := by
    split
    · split <;> rfl
    · rfl
  unfold State.others State.restartSilence State.modifyStation modifyBy
  rw [List.filter_map, List.map_map]
  simp only [Function.comp_def, haddr, hcls]

theorem classCheck_restartSilence (a : Nat) (s : State) (q : StationLoad) :
    classCheck (s.restartSilence a) q = classCheck s q := by
  have hcount (p : StationClass → Bool) (l : List Station) : l.countP (fun st => p st.cls) = (l.map Station.cls).countP p :=
    (List.countP_map ..).symm
  have hany (p : StationClass → Bool) (l : List Station) : l.any (fun st => p st.cls) = (l.map Station.cls).any p :=
    (List.any_map ..).symm
  have hsome : ((s.restartSilence a).station? q.address).isSome = (s.station? q.address).isSome := by
    rw [station?_restartSilence, Option.isSome_map]
  have hlen : (s.restartSilence a).stations.length = s.stations.length := length_modifyBy ..
  unfold classCheck
  rw [hsome, hlen, hcount StationClass.isSaw, hany (fun c => decide (c = .recycler)),
    hany (fun c => decide (c = .supervisor)), others_cls, ← hcount, ← hany, ← hany]

/-! ## Replacing and deleting (R41, R42, R102) -/

theorem checkThat_or_same (a b : Bool) (r : Reason) : (checkThat a r).or (checkThat b r) = checkThat (a && b) r := by
  cases a <;> rfl

/-- R42 checks 2 to 5: an entry that may not go. -/
def InUse (s : State) (old : Station) (address : Nat) : Prop :=
  old.cls = .supervisor ∨ (∃ w, old.saw = some w ∧ (w.queue ≠ [] ∨ w.bed ≠ none)) ∨ address = s.faults.station

/-- R42 checks 2 to 5 as one condition, since they refuse alike. -/
def mayGo (s : State) (old : Station) : Bool :=
  decide (old.cls ≠ .supervisor) && (old.saw.all (fun w => w.queue.isEmpty)
    && (old.saw.all (fun w => w.bed.isNone) && decide (old.address ≠ s.faults.station)))

theorem inUseCheck_eq (s : State) (old : Station) : inUseCheck s old = checkThat (mayGo s old) .inUse := by
  unfold inUseCheck mayGo
  rw [checkThat_or_same, checkThat_or_same, checkThat_or_same]
  cases old.saw <;> rfl

theorem mayGo_iff {s : State} {old : Station} {address : Nat} (ha : old.address = address) :
    mayGo s old = true ↔ ¬ InUse s old address := by
  subst ha
  unfold mayGo InUse
  cases old.saw with
  | none => simp
  | some w => simp [and_assoc]

theorem inUseCheck_used {s : State} {old : Station} {address : Nat} (ha : old.address = address) (h : InUse s old address) :
    inUseCheck s old = some (.inUse, []) := by
  rw [inUseCheck_eq]
  exact checkThat_fail (Bool.eq_false_iff.2 (fun hc => (mayGo_iff ha).1 hc h))

theorem inUseCheck_free {s : State} {old : Station} {address : Nat} (ha : old.address = address)
    (h : ¬ InUse s old address) : inUseCheck s old = none := by
  rw [inUseCheck_eq]
  exact checkThat_pass ((mayGo_iff ha).2 h)

/-- R102: what the loss of an entry comes to. -/
theorem recyclerGone_eq (old : Station) (s : State) : s.recyclerGone old
    = if old.cls = .recycler then
        (if old.state = .attached ∧ s.water.mode ≠ .unsure then
          ({ s with water := { s.water with lastSequence := none } } : State).changeMode .unsure .plantLost []
        else { s with water := { s.water with lastSequence := none } })
      else s := by
  unfold State.recyclerGone
  split
  · dsimp only
    by_cases ha : old.state = .attached
    · rw [if_pos ha]
      unfold State.plantLost State.takeMode
      by_cases hm : s.water.mode = .unsure
      · rw [if_pos hm, if_neg (by simp [hm])]
      · rw [if_neg hm, if_pos ⟨ha, hm⟩]
    · rw [if_neg ha, if_neg (by simp [ha])]
  · rfl

/-! ## The outcomes of LOAD STATION -/

section
variable {s : State} {address cls side tier : Nat} {saw : Option SawFields} {q : StationLoad} {old : Station}

theorem loadStation_malformed (hf : stationForm s address cls side tier saw = none) :
    loadStation address cls side tier saw s = (.reject .form [], s) := by
  unfold loadStation; rw [hf]; rfl

theorem loadStation_refused {r : Reason} {d : List Byte} (hf : stationForm s address cls side tier saw = some q)
    (hc : classCheck s q = some (r, d)) : loadStation address cls side tier saw s = (.reject r d, s) := by
  unfold loadStation; rw [hf]; exact unlessFails_fail hc

theorem loadStation_created (hf : stationForm s address cls side tier saw = some q) (hc : classCheck s q = none)
    (hst : s.station? q.address = none) :
    loadStation address cls side tier saw s
      = (loadAnswer q .loadCreated, s.addStation (newStation q.address q.side q.cls q.tier q.saw)) := by
  unfold loadStation; rw [hf]; dsimp only; rw [unlessFails_pass hc, hst]

theorem loadStation_updated (hf : stationForm s address cls side tier saw = some q) (hc : classCheck s q = none)
    (hst : s.station? q.address = some old) (hsame : old.cls = q.cls ∧ old.side = q.side) :
    loadStation address cls side tier saw s
      = (loadAnswer q .loadUpdated, s.modifyStation q.address (Station.reload q)) := by
  unfold loadStation; rw [hf]; dsimp only; rw [unlessFails_pass hc, hst]; exact if_pos hsame

theorem loadStation_inUse (hf : stationForm s address cls side tier saw = some q) (hc : classCheck s q = none)
    (hst : s.station? q.address = some old) (hdiff : ¬ (old.cls = q.cls ∧ old.side = q.side))
    (hu : inUseCheck s old = some (.inUse, [])) :
    loadStation address cls side tier saw s = (.reject .inUse [], s) := by
  unfold loadStation; rw [hf]; dsimp only; rw [unlessFails_pass hc, hst]; dsimp only
  rw [if_neg hdiff, unlessFails_fail hu]

theorem loadStation_replaced (hf : stationForm s address cls side tier saw = some q) (hc : classCheck s q = none)
    (hst : s.station? q.address = some old) (hdiff : ¬ (old.cls = q.cls ∧ old.side = q.side))
    (hu : inUseCheck s old = none) :
    loadStation address cls side tier saw s = (loadAnswer q .loadReplaced,
      (s.modifyStation q.address (fun _ => newStation q.address q.side q.cls q.tier q.saw)).recyclerGone old) := by
  unfold loadStation; rw [hf]; dsimp only; rw [unlessFails_pass hc, hst]; dsimp only
  rw [if_neg hdiff, unlessFails_pass hu]

theorem newStation_eq (a : Nat) (sd : Side) (c : StationClass) (tier : Nat) (cfg : Option SawConfig) :
    newStation a sd c tier cfg = ⟨a, sd, c, tier, .absent, none, cfg.map (fun g => ⟨g, false, .unknown, none, 0, none, [],
      none, none⟩)⟩ := rfl

end

/-! ## Commissioning (R43) -/

theorem hasSupervisor_eq_false {s : State} : s.hasSupervisor = false ↔ ∀ st ∈ s.stations, st.cls ≠ .supervisor := by
  simp [State.hasSupervisor]

/-- R43's row. -/
theorem isCommissioning_row {h : Header} {s : State} (hside : h.side = .a) (hdst : h.dst = s.address)
    (hsup : ∀ st ∈ s.stations, st.cls ≠ .supervisor) :
    s.isCommissioning h.side ((Instr.loadStation h h.src 1 0 0 none).telegram h) = true := by
  simp [State.isCommissioning, hasSupervisor_eq_false.2 hsup, Instr.telegram, Instr.kindCode, hside, hdst, Instr.payload]

/-- A row from a source without an entry commissions where it is R43's row, and only there. -/
theorem row_of_isCommissioning {i : Instr} {h : Header} {s : State} (hwf : i.wf = true) (hh : i.header? = some h)
    (hc : s.isCommissioning h.side (i.telegram h) = true) :
    (∀ st ∈ s.stations, st.cls ≠ .supervisor) ∧ h.side = .a ∧ h.dst = s.address
      ∧ i = .loadStation h h.src 1 0 0 none := by
  simp only [State.isCommissioning, Bool.and_eq_true, Bool.not_eq_true', decide_eq_true_eq] at hc
  obtain ⟨⟨⟨⟨hsup, hside⟩, hdst⟩, hkind⟩, hpay⟩ := hc
  have hhwf : h.wf = true := header_wf_of_wf hwf hh
  have hsrc : fits 1 h.src = true := by
    simp only [Header.wf, Bool.and_eq_true] at hhwf
    exact hhwf.1.2
  have hrow : (Instr.loadStation h h.src 1 0 0 none).wf = true := by
    simp only [Instr.wf, hhwf, hsrc, Bool.true_and]
    rfl
  have h1 : parsePayload h i.kindCode i.payload = some i := rowPayloadsRoundTrip i h hwf hh
  have h2 : parsePayload h Kind.load (Instr.loadStation h h.src 1 0 0 none).payload
      = some (.loadStation h h.src 1 0 0 none) := roundTrips_loadStation hrow
  have hk : i.kindCode = Kind.load := hkind
  have hp : i.payload = (Instr.loadStation h h.src 1 0 0 none).payload := by
    refine Eq.trans (show i.payload = _ from hpay) ?_
    simp [Instr.payload, Instr.telegram]
  rw [hk, hp, h2] at h1
  exact ⟨hasSupervisor_eq_false.1 hsup, hside, hdst, (Option.some.inj h1).symm⟩

/-- R43: the commissioning telegram is handled as from a SUPERVISOR of tier 0; no entry has a timer to restart. -/
theorem exec_commissioning {h : Header} {r : KindRule} {s t : State} {x : Reply} (hr : s.inReset = false)
    (hside : h.side = .a) (hdst : h.dst = s.address) (h0 : h.src ≠ 0) (h31 : h.src ≠ 31) (haddr : h.src ≠ s.address)
    (hst : s.station? h.src = none) (hsup : ∀ st ∈ s.stations, st.cls ≠ .supervisor)
    (hrule : s.kindRule? Kind.load = some r) (hd : r.disposition = .handle) (hc : r.classes.getLsbD 1 = true)
    (hg : s.groups.on r.group = true) (hb : loadStation h.src 1 0 0 none s = (x, t)) :
    exec (.loadStation h h.src 1 0 0 none) s = .next (finish (.loadStation h h.src 1 0 0 none) h false x t) := by
  have hsource : s.source? h.side ((Instr.loadStation h h.src 1 0 0 none).telegram h) = some (.supervisor, 0) := by
    unfold State.source?
    rw [if_neg (by rw [badSource_iff]; exact not_or.2 ⟨h0, not_or.2 ⟨h31, haddr⟩⟩),
      show s.station? ((Instr.loadStation h h.src 1 0 0 none).telegram h).src = none from hst]
    exact if_pos (isCommissioning_row hside hdst hsup)
  have hgate : s.gate h.side ((Instr.loadStation h h.src 1 0 0 none).telegram h) .supervisor 0 = .handled false := by
    rw [gate_tests (r := r) hrule (by simp [hd]) (by simp [hd]), if_neg (Nat.not_lt_zero _),
      if_neg (by simp [classCode, hc]), if_neg (by simp [hg]), hd]
    exact if_neg (fun h => h.2 hdst)
  calc exec (.loadStation h h.src 1 0 0 none) s
      = .next (runRow (.loadStation h h.src 1 0 0 none) h (loadStation h.src 1 0 0 none) s) := rfl
    _ = .next (finish (.loadStation h h.src 1 0 0 none) h false x t) := by
        unfold runRow State.arrive
        rw [if_neg (by simp [hr]), hsource]
        dsimp only
        rw [show (Instr.telegram (.loadStation h h.src 1 0 0 none) h).src = h.src from rfl, restartSilence_of_none hst,
          hgate]
        dsimp only [State.passGate]
        rw [hb]
        rfl

theorem source?_bad {s : State} {side : Side} {t : Telegram} (h : t.src = 0 ∨ t.src = 31 ∨ t.src = s.address) :
    s.source? side t = none := if_pos (badSource_iff.2 h)

theorem source?_otherSide {s : State} {side : Side} {t : Telegram} {st : Station} (hst : s.station? t.src = some st)
    (hne : st.side ≠ side) : s.source? side t = none := by
  unfold State.source?
  split
  · rfl
  · rw [hst]
    exact if_neg hne

/-- Settles O33. -/
theorem loadStationCreatesOrUpdates : Obligations.LoadStationCreatesOrUpdates := by
  refine ⟨?refusals, ?commissioning, ?unknown, ?loaded⟩
  case refusals =>
    intro h copy address cls stationSide tier saw s i hp u refused sawFormed formed
    have hform (hf : ¬ formed) : stationForm u address cls stationSide tier saw = none :=
      stationForm_malformed (s := u) hf
    refine ⟨fun hf => exec_of_block rfl hp (loadStation_malformed (hform hf)), ?_⟩
    intro c hf hc others parts n Q reason hn hprev hQ
    obtain ⟨sd, cfg, hd, hq⟩ := stationForm_formed (s := u) hf hc
    obtain rfl := decodeSide_iff.1 hd
    have hcheck : classCheck s ⟨address, sd, c, tier, cfg⟩ = some (reason, []) :=
      follows_plain_refuses follows_class hn hprev hQ
    exact exec_of_block rfl hp (loadStation_refused hq ((classCheck_restartSilence _ _ _).trans hcheck))
  case commissioning =>
    intro h r s i hr hside hdst h1 h30 haddr hst hsup hrule hd hc hg
    have hq : stationForm s h.src 1 0 0 none = some ⟨h.src, .a, .supervisor, 0, none⟩ :=
      stationForm_some (addressOk_iff.2 ⟨h1, h30, haddr⟩) rfl rfl rfl (.inl ⟨rfl, rfl, rfl⟩)
    have hgo {x : Reply} {t : State} (hb : loadStation h.src 1 0 0 none s = (x, t)) :
        exec i s = .next (finish i h false x t) :=
      exec_commissioning hr hside hdst (by omega) (by omega) haddr hst hsup hrule hd hc hg hb
    have hfollow : Follows (plain (classParts s ⟨h.src, .a, .supervisor, 0, none⟩ 0))
        (classCheck s ⟨h.src, .a, .supervisor, 0, none⟩) := follows_class
    have hlast := (((hfollow.2 (.inr (by simp))).2 (fun h => by cases h)).2 (fun h => by cases h)).2
      (fun _ st hmem => hsup st (List.mem_of_mem_filter hmem))
    constructor
    · intro hfull
      exact hgo (loadStation_refused hq (hlast.1 (fun hroom => Nat.not_lt.2 hfull (hroom hst))))
    · intro hroom
      exact hgo (loadStation_created hq (hlast.2 (fun _ => hroom)) hst)
  case unknown =>
    intro i h s hwf hh hk hr hu
    have hka : i.kindCode ≠ Kind.announce := by rw [hk]; decide
    obtain ⟨b, hb⟩ := exec_eq_arrive hh hka
    have hsource : UnknownSource s h.side (i.telegram h).src := by
      rcases hu with h | h | h | h | ⟨h, -⟩
      · exact .inl h
      · exact .inr (.inl h)
      · exact .inr (.inr (.inl h))
      · exact .inr (.inr (.inr (.inr h)))
      · exact .inr (.inr (.inr (.inl h)))
    have hnone : s.source? h.side (i.telegram h) = none := by
      by_cases hc : s.isCommissioning h.side (i.telegram h) = true
      · obtain ⟨hsup, hside, hdst, hrow⟩ := row_of_isCommissioning hwf hh hc
        rcases hu with h0 | h31 | haddr | ⟨st, hst, hne⟩ | ⟨-, ⟨st, hmem, hcls⟩ | hb | hd | hi⟩
        · exact source?_bad (.inl h0)
        · exact source?_bad (.inr (.inl h31))
        · exact source?_bad (.inr (.inr haddr))
        · exact source?_otherSide hst hne
        · exact absurd hcls (hsup st hmem)
        · rw [hside] at hb
          cases hb
        · exact absurd hdst hd
        · exact absurd hrow hi
      · exact source?_unknown hsource (Bool.eq_false_iff.2 hc)
    have hfault : arrivalFault .stationUnknownSource h.side (i.telegram h)
        = ⟨.stationUnknownSource, h.src, some Kind.load, none, none, some (.side h.side)⟩ := by rw [← hk]; rfl
    rw [hb, State.arrive, if_neg (by simp [hr]), hnone, hfault]
  case loaded =>
    intro h copy address cls stationSide tier saw c sd cfg s i hp h1 h30 haddr hc hd hside htier hsaw others hsaws hrec hsup u
    have hq : stationForm u address cls stationSide tier saw = some ⟨address, sd, c, tier, cfg⟩ :=
      stationForm_some (addressOk_iff.2 ⟨h1, h30, haddr⟩) hc hd (tierOk_iff.2 htier) hsaw
    have hcheck (hroom : s.station? address = none → s.stations.length < 24) :
        classCheck u ⟨address, sd, c, tier, cfg⟩ = none := by
      have hfollow : Follows (plain (classParts s ⟨address, sd, c, tier, cfg⟩ (sideCode sd)))
        (classCheck s ⟨address, sd, c, tier, cfg⟩) := follows_class
      rw [classCheck_restartSilence]
      exact ((((hfollow.2 (sideOk_iff.1 hside)).2 hsaws).2 hrec).2 hsup).2 hroom
    have hroom {old : Station} (hold : u.station? address = some old) (hnone : s.station? address = none) :
        s.stations.length < 24 := by
      rw [station?_restartSilence, hnone] at hold
      cases hold
    refine ⟨?created, ?updated, ?replaced⟩
    case created =>
      intro hnone hlt
      exact exec_of_block rfl hp (loadStation_created hq (hcheck (fun _ => hlt))
        ((station?_restartSilence ..).trans (by rw [hnone]; rfl)))
    case updated =>
      intro old hold hcls hsd hsome
      refine ⟨u.modifyStation address (Station.reload ⟨address, sd, c, tier, cfg⟩),
        exec_of_block rfl hp (loadStation_updated hq (hcheck (hroom hold)) hold ⟨hcls, hsd⟩), ?_, ?_, rfl⟩
      · rw [station?_modifyStation (f := Station.reload _) (fun _ _ => rfl), hold, Option.map_some, if_pos (station?_address hold)]
        refine congrArg some (congrArg (fun w => { old with tier := tier, saw := w }) ?_)
        rcases hsaw with ⟨-, hcs, rfl⟩ | ⟨f, g, -, hcs, -, rfl⟩
        · rw [hcs] at hsome
          rw [Option.isSome_eq_false_iff, Option.isNone_iff_eq_none] at hsome
          rw [hsome]
          rfl
        · cases old.saw <;> rfl
      · intro a ha
        rw [station?_modifyStation (f := Station.reload _) (fun _ _ => rfl)]
        cases hx : u.station? a with
        | none => rfl
        | some x => rw [Option.map_some, if_neg (by rw [station?_address hx]; exact ha)]
    case replaced =>
      intro old hold hdiff used replaced forgotten
      have hold_address : old.address = address := station?_address hold
      have hused : used ↔ InUse u old address := Iff.rfl
      refine ⟨fun hu => exec_of_block rfl hp (loadStation_inUse hq (hcheck (hroom hold)) hold hdiff
        (inUseCheck_used hold_address (hused.1 hu))), fun hu => ?_⟩
      refine exec_of_block rfl hp ((loadStation_replaced hq (hcheck (hroom hold)) hold hdiff
        (inUseCheck_free hold_address (mt hused.2 hu))).trans ?_)
      rw [recyclerGone_eq]
      rfl

/-- Settles O34. -/
theorem loadStationNoneFreesEntry : Obligations.LoadStationNoneFreesEntry := by
  intro h copy address s i hp u formed
  have haddr : (s.restartSilence h.src).addressOk address = true ↔ formed := addressOk_iff
  refine ⟨fun hf => exec_of_block rfl hp (if_pos (Bool.eq_false_iff.2 (mt haddr.1 hf))), fun hf hnone => ?_, ?_⟩
  · refine exec_of_block rfl hp ?_
    unfold loadStationNone
    rw [if_neg (by simp [haddr.2 hf]), station?_restartSilence, hnone]
    rfl
  · intro old hf hold used freed forgotten answer
    have haddress : old.address = address := station?_address hold
    obtain ⟨n, hu⟩ := station?_restartSilence_some (a := h.src) hold
    have hused : used ↔ InUse u { old with silence := n } address := Iff.rfl
    refine ⟨fun hin => exec_of_block rfl hp ?_, fun hin => exec_of_block rfl hp ?_⟩
    · unfold loadStationNone
      rw [if_neg (by simp [haddr.2 hf]), hu]
      exact unlessFails_fail (inUseCheck_used haddress (hused.1 hin))
    · have hfree : inUseCheck (s.restartSilence h.src) { old with silence := n } = none :=
        inUseCheck_free haddress (mt hused.2 hin)
      unfold loadStationNone
      rw [if_neg (by simp [haddr.2 hf]), hu]
      dsimp only
      rw [unlessFails_pass hfree, recyclerGone_eq]
      rfl

end Sys2Proof.Proofs
end

