-- ==== Sys2Proof/Proofs/Waters.lean ====
section
/-! SUPPORT. Water Recycling (Chapter 6): a compare rule over runs of samples (Table 6-3), the computed mode and its
changes (R98 to R101), a water sample taken whole, and the water loads. -/

namespace Sys2Proof.Proofs

open Sys2Proof Sys2Proof.Config Sys2Proof.Machine

/-! ## A compare rule (R94 to R96) -/

/-- The value of a sample on the rule's own channel. -/
def channelValue (r : CompareRule) (x : Nat × Nat) : Nat := match r.channel with
  | .level => x.1
  | .turbidity => x.2

/-- An enabled rule after a value of its channel. -/
def ruleAfter (r : CompareRule) (v : Nat) : CompareRule :=
  { r with state := nextRuleState r v, record := nextRecord r (nextRuleState r v) v }

theorem takeSample_enabled {r : CompareRule} (h : r.enabled = true) (x : Nat × Nat) :
    takeSample x.1 x.2 r = ruleAfter r (channelValue r x) := by
  unfold takeSample
  rw [if_pos h]
  rfl

section
variable {r : CompareRule} {v n : Nat}

/-- Table 6-3, a rule not yet ACTIVE: one more sample that trips. -/
theorem ruleAfter_trips (hs : r.state = .clear ∧ n = 0 ∨ r.state = .tripping n) (ht : tripMet r v = true) :
    ruleAfter r v = if n + 1 = r.confirm then { r with state := .active, record := some ⟨v, v, 1⟩ }
      else { r with state := .tripping (n + 1) } := by
  unfold ruleAfter nextRuleState
  rcases hs with ⟨hs, rfl⟩ | hs
  · simp only [hs, ht, if_true, eq_comm (a := r.confirm)]
    split <;> simp [nextRecord, hs, RuleState.holds]
  · simp only [hs, ht, if_true]
    split <;> simp [nextRecord, hs, RuleState.holds]

/-- One that does not: the run is thrown away. -/
theorem ruleAfter_notTrips (hs : r.state = .clear ∨ ∃ n, r.state = .tripping n) (ht : tripMet r v = false) :
    ruleAfter r v = { r with state := .clear } := by
  unfold ruleAfter nextRuleState
  rcases hs with hs | ⟨n, hs⟩ <;> simp [hs, ht, nextRecord]

/-- Table 6-3, an ACTIVE rule: one more sample that releases. -/
theorem ruleAfter_releases (hs : r.state = .active ∧ n = 0 ∨ r.state = .releasing n) (ht : releaseMet r v = true) :
    ruleAfter r v = if n + 1 = r.confirm then { r with state := .clear } else { r with state := .releasing (n + 1) } := by
  unfold ruleAfter nextRuleState
  rcases hs with ⟨hs, rfl⟩ | hs
  · simp only [hs, ht, if_true, eq_comm (a := r.confirm)]
    split <;> simp [nextRecord]
  · simp only [hs, ht, if_true]
    split <;> simp [nextRecord]

theorem ruleAfter_notReleases {e : Excursion} (hs : r.state = .active ∨ ∃ n, r.state = .releasing n)
    (hr : r.record = some e) (ht : releaseMet r v = false) :
    ruleAfter r v = { r with state := .active, record := some ⟨e.trip, worseOf r.direction e.worst v,
      min 65535 (e.samples + 1)⟩ } := by
  unfold ruleAfter nextRuleState
  rcases hs with hs | ⟨n, hs⟩ <;> simp [hs, ht, nextRecord, hr, RuleState.holds]

end

/-- A rule over a run of samples. -/
def ruleRun (r : CompareRule) (samples : List (Nat × Nat)) : CompareRule :=
  samples.foldl (fun q x => takeSample x.1 x.2 q) r

theorem ruleRun_cons {r : CompareRule} (h : r.enabled = true) (x : Nat × Nat) (xs : List (Nat × Nat)) :
    ruleRun r (x :: xs) = ruleRun (ruleAfter r (channelValue r x)) xs := by
  unfold ruleRun
  rw [List.foldl_cons, takeSample_enabled h]

section
variable {r : CompareRule} {xs : List (Nat × Nat)} {n : Nat}

/-- A run of samples that all trip, shorter than the confirm count asks. -/
theorem ruleRun_tripping (he : r.enabled = true) (hne : xs ≠ [])
    (hs : r.state = .clear ∧ n = 0 ∨ r.state = .tripping n) (ht : ∀ x ∈ xs, tripMet r (channelValue r x) = true)
    (hlt : n + xs.length < r.confirm) : ruleRun r xs = { r with state := .tripping (n + xs.length) } := by
  induction xs generalizing r n with
  | nil => exact absurd rfl hne
  | cons x xs ih =>
    rw [List.length_cons] at hlt
    rw [ruleRun_cons he, ruleAfter_trips hs (ht x List.mem_cons_self), if_neg (by omega)]
    by_cases hxs : xs = []
    · subst hxs
      rfl
    · rw [ih (r := { r with state := .tripping (n + 1) }) he hxs (.inr rfl)
        (fun y hy => ht y (List.mem_cons_of_mem _ hy)) (by dsimp only; omega), List.length_cons, Nat.add_right_comm,
        Nat.add_assoc]

/-- The sample that completes the confirm count makes the rule ACTIVE, with a record of its own value. -/
theorem ruleRun_active (he : r.enabled = true) {x : Nat × Nat} (hx : xs.getLast? = some x)
    (hs : r.state = .clear ∧ n = 0 ∨ r.state = .tripping n) (ht : ∀ x ∈ xs, tripMet r (channelValue r x) = true)
    (heq : n + xs.length = r.confirm) :
    ruleRun r xs = { r with state := .active, record := some ⟨channelValue r x, channelValue r x, 1⟩ } := by
  induction xs generalizing r n with
  | nil => cases hx
  | cons y ys ih =>
    rw [List.length_cons] at heq
    rw [ruleRun_cons he, ruleAfter_trips hs (ht y List.mem_cons_self)]
    by_cases hys : ys = []
    · subst hys
      cases hx
      rw [if_pos (by simpa using heq)]
      rfl
    · have hpos := List.length_pos_of_ne_nil hys
      rw [if_neg (by omega), ih (r := { r with state := .tripping (n + 1) }) he
        (by rwa [List.getLast?_cons_of_ne_nil hys] at hx) (.inr rfl) (fun z hz => ht z (List.mem_cons_of_mem _ hz))
        (by dsimp only; omega)]
      rfl

theorem ruleRun_releasing (he : r.enabled = true) (hne : xs ≠ [])
    (hs : r.state = .active ∧ n = 0 ∨ r.state = .releasing n) (ht : ∀ x ∈ xs, releaseMet r (channelValue r x) = true)
    (hlt : n + xs.length < r.confirm) : ruleRun r xs = { r with state := .releasing (n + xs.length) } := by
  induction xs generalizing r n with
  | nil => exact absurd rfl hne
  | cons x xs ih =>
    rw [List.length_cons] at hlt
    rw [ruleRun_cons he, ruleAfter_releases hs (ht x List.mem_cons_self), if_neg (by omega)]
    by_cases hxs : xs = []
    · subst hxs
      rfl
    · rw [ih (r := { r with state := .releasing (n + 1) }) he hxs (.inr rfl)
        (fun y hy => ht y (List.mem_cons_of_mem _ hy)) (by dsimp only; omega), List.length_cons, Nat.add_right_comm,
        Nat.add_assoc]

theorem ruleRun_released (he : r.enabled = true) (hne : xs ≠ [])
    (hs : r.state = .active ∧ n = 0 ∨ r.state = .releasing n) (ht : ∀ x ∈ xs, releaseMet r (channelValue r x) = true)
    (heq : n + xs.length = r.confirm) : ruleRun r xs = { r with state := .clear } := by
  induction xs generalizing r n with
  | nil => exact absurd rfl hne
  | cons x xs ih =>
    rw [List.length_cons] at heq
    rw [ruleRun_cons he, ruleAfter_releases hs (ht x List.mem_cons_self)]
    by_cases hxs : xs = []
    · subst hxs
      rw [if_pos (by simpa using heq)]
      rfl
    · have hpos := List.length_pos_of_ne_nil hxs
      rw [if_neg (by omega), ih (r := { r with state := .releasing (n + 1) }) he hxs (.inr rfl)
        (fun y hy => ht y (List.mem_cons_of_mem _ hy)) (by dsimp only; omega)]

theorem ruleRun_clear (he : r.enabled = true) (hne : xs ≠ []) (hs : r.state = .clear ∨ ∃ n, r.state = .tripping n)
    (ht : ∀ x ∈ xs, tripMet r (channelValue r x) = false) : ruleRun r xs = { r with state := .clear } := by
  induction xs generalizing r with
  | nil => exact absurd rfl hne
  | cons x xs ih =>
    rw [ruleRun_cons he, ruleAfter_notTrips hs (ht x List.mem_cons_self)]
    by_cases hxs : xs = []
    · subst hxs
      rfl
    · rw [ih (r := { r with state := .clear }) he hxs (.inl rfl) (fun y hy => ht y (List.mem_cons_of_mem _ hy))]

/-- R96: each such sample counts, and the worst value stands. -/
theorem ruleRun_worst {e : Excursion} (he : r.enabled = true) (hne : xs ≠ [])
    (hs : r.state = .active ∨ ∃ n, r.state = .releasing n) (hr : r.record = some e)
    (ht : ∀ x ∈ xs, releaseMet r (channelValue r x) = false) :
    ruleRun r xs = { r with state := .active, record := some ⟨e.trip,
      (xs.map (channelValue r)).foldl (worseOf r.direction) e.worst, min 65535 (e.samples + xs.length)⟩ } := by
  induction xs generalizing r e with
  | nil => exact absurd rfl hne
  | cons x xs ih =>
    rw [ruleRun_cons he, ruleAfter_notReleases hs hr (ht x List.mem_cons_self)]
    by_cases hxs : xs = []
    · subst hxs
      rfl
    · rw [ih (r := { r with state := .active, record := _ }) he hxs (.inl rfl) rfl
        (fun y hy => ht y (List.mem_cons_of_mem _ hy))]
      have hcount : min 65535 (min 65535 (e.samples + 1) + xs.length) = min 65535 (e.samples + (xs.length + 1)) := by omega
      rw [hcount]
      rfl

end

/-- Settles O50. -/
theorem ruleConfirmsByCounting : Obligations.RuleConfirmsByCounting := by
  intro r samples he hc hne value trips releases worst after
  have htrip (v : Nat) : tripMet r v = true ↔ trips v := by
    unfold tripMet
    simp only [trips]
    cases r.direction <;> exact decide_eq_true_iff
  have hrel (v : Nat) : releaseMet r v = true ↔ releases v := by
    unfold releaseMet
    simp only [releases]
    cases r.direction <;> exact decide_eq_true_iff
  have hvalue : channelValue r = value := rfl
  have hafter : after = ruleRun r samples := rfl
  refine ⟨fun n hs ht => ?_, fun n hs ht => ?_, fun hs ht => ?_, fun e hs hr ht => ?_⟩
  · have hall : ∀ x ∈ samples, tripMet r (channelValue r x) = true := fun x hx => by
      rw [hvalue]; exact (htrip _).2 (ht x hx)
    refine ⟨fun hlt => ruleRun_tripping he hne hs hall hlt, fun x heq hx => ?_⟩
    rw [hafter, ruleRun_active he hx hs hall heq, hvalue]
  · have hall : ∀ x ∈ samples, releaseMet r (channelValue r x) = true := fun x hx => by
      rw [hvalue]; exact (hrel _).2 (ht x hx)
    exact ⟨fun hlt => ruleRun_releasing he hne hs hall hlt, fun heq => ruleRun_released he hne hs hall heq⟩
  · refine ruleRun_clear he hne hs (fun x hx => ?_)
    rw [hvalue, Bool.eq_false_iff]
    exact mt (htrip _).1 (ht x hx)
  · have hall : ∀ x ∈ samples, releaseMet r (channelValue r x) = false := fun x hx => by
      rw [hvalue, Bool.eq_false_iff]; exact mt (hrel _).1 (ht x hx)
    rw [hafter, ruleRun_worst he hne hs hr hall, hvalue]
    simp only [worst]
    cases r.direction <;> rfl

/-! ## The computed mode and its changes (R98 to R101) -/

/-- A rule of the action holds it (R97). -/
def Holds (rules : List CompareRule) (a : RuleAction) : Prop :=
  ∃ r ∈ rules, r.enabled = true ∧ r.action = a ∧ r.state.holds = true

theorem anyHolds_iff {rules : List CompareRule} {a : RuleAction} : anyHolds rules a = true ↔ Holds rules a := by
  simp [anyHolds, Holds, and_assoc]

/-- R98: what determines the computed mode. -/
theorem computedMode_eq {w : Water} {m : WaterMode} (hhalt : m = .halt ↔ Holds w.rules .halt) (hne : m ≠ .unsure)
    (hcons : m = .conserve ↔ ¬ Holds w.rules .halt
      ∧ (Holds w.rules .conserve ∨ (0 < w.allowance ∧ w.allowance ≤ w.used))) : computedMode w = m := by
  have hc : (anyHolds w.rules .conserve || (decide (0 < w.allowance) && decide (w.allowance ≤ w.used))) = true
      ↔ Holds w.rules .conserve ∨ (0 < w.allowance ∧ w.allowance ≤ w.used) := by
    simp [anyHolds_iff]
  unfold computedMode
  by_cases h1 : Holds w.rules .halt
  · rw [if_pos (anyHolds_iff.2 h1)]
    exact (hhalt.2 h1).symm
  · rw [if_neg (mt anyHolds_iff.1 h1)]
    by_cases h2 : Holds w.rules .conserve ∨ (0 < w.allowance ∧ w.allowance ≤ w.used)
    · rw [if_pos (hc.2 h2)]
      exact (hcons.2 ⟨h1, h2⟩).symm
    · rw [if_neg (mt hc.1 h2)]
      cases m with
      | unsure => exact absurd rfl hne
      | normal => rfl
      | conserve => exact absurd (hcons.1 rfl).2 h2
      | halt => exact absurd (hhalt.1 rfl) h1

@[simp] theorem queueValve_water (m : WaterMode) (s : State) : (s.queueValve m).water = s.water := by
  unfold State.queueValve
  split
  · rfl
  · split <;> rfl

@[simp] theorem changeMode_water (m : WaterMode) (c : ModeCause) (l : List (Nat × Bool)) (s : State) :
    (s.changeMode m c l).water = { s.water with mode := m } :=
  queueValve_water m { s with water := { s.water with mode := m } }

/-- R101: the VALVE of a change of mode goes to an ATTACHED recycler alone. -/
theorem changeMode_eq (mode : WaterMode) (cause : ModeCause) (moved : List (Nat × Bool)) (s : State) :
    s.changeMode mode cause moved =
      { s with
        water := { s.water with mode := mode }
        outbox := s.outbox ++ (match s.recycler? with
          | none => []
          | some r => if r.state = .attached then [.valve r.address mode] else [])
          ++ [.notice (.waterMode s.water.mode mode cause moved)]
        presented := s.presented ++ s.sawAddresses } := by
  unfold State.changeMode State.queueValve
  have hr : State.recycler? { s with water := { s.water with mode := mode } } = s.recycler? := rfl
  rw [hr]
  cases s.recycler? with
  | none => simp [State.notify, State.queueOut, State.presentAll, State.sawAddresses]
  | some r =>
    dsimp only
    split <;> simp [State.notify, State.queueOut, State.presentAll, State.sawAddresses]

/-! ## The window, the sequence and the count (R92, R103, R105) -/

theorem inSequence_iff {w : Water} {n : Nat} :
    w.inSequence n = true ↔ w.lastSequence = none ∨ ∃ k, w.lastSequence = some k ∧ n = (k + 1) % 256 := by
  unfold Water.inSequence Water.expected
  cases w.lastSequence <;> simp

theorem noticeMoved_iff {rules : List CompareRule} {moved : List (Nat × Bool)} :
    noticeMoved rules moved = true ↔ ∃ n b r, (n, b) ∈ moved ∧ rules[n]? = some r ∧ r.action = .notice := by
  unfold noticeMoved
  rw [List.any_eq_true]
  constructor
  · rintro ⟨⟨n, b⟩, hm, h⟩
    dsimp only at h
    split at h
    · cases h
    next r hr => exact ⟨n, b, r, hm, hr, by simpa using h⟩
  · rintro ⟨n, b, r, hm, hr, ha⟩
    refine ⟨(n, b), hm, ?_⟩
    dsimp only
    rw [hr]
    simpa using ha

/-- The water block after a sample whose count and sums with the window's are given. -/
def waterTaken (w : Water) (sequence level turbidity fresh count sumRecycled sumFresh : Nat) : Water :=
  { w with
    lastSequence := some sequence
    windowCount := if w.windowLength ≤ count then 0 else count
    windowRecycled := if w.windowLength ≤ count then 0 else sumRecycled
    windowFresh := if w.windowLength ≤ count then 0 else sumFresh
    share := if w.windowLength ≤ count ∧ sumRecycled + sumFresh ≠ 0 then
      (2 * (1000 * sumFresh) + (sumRecycled + sumFresh)) / (2 * (sumRecycled + sumFresh)) else w.share
    used := min 4294967295 (w.used + fresh)
    rules := w.rules.map (takeSample level turbidity) }

theorem takeWindow_eq (w : Water) (recycled fresh : Nat) : w.takeWindow recycled fresh =
    { w with
      windowCount := if w.windowLength ≤ w.windowCount + 1 then 0 else w.windowCount + 1
      windowRecycled := if w.windowLength ≤ w.windowCount + 1 then 0 else w.windowRecycled + recycled
      windowFresh := if w.windowLength ≤ w.windowCount + 1 then 0 else w.windowFresh + fresh
      share := if w.windowLength ≤ w.windowCount + 1 ∧ w.windowRecycled + recycled + (w.windowFresh + fresh) ≠ 0 then
        (2 * (1000 * (w.windowFresh + fresh)) + (w.windowRecycled + recycled + (w.windowFresh + fresh)))
          / (2 * (w.windowRecycled + recycled + (w.windowFresh + fresh))) else w.share } := by
  unfold Water.takeWindow windowShare roundDiv
  by_cases hfull : w.windowLength ≤ w.windowCount + 1
  · by_cases hsum : w.windowRecycled + recycled + (w.windowFresh + fresh) = 0
    · simp [hfull, hsum]
    · simp only [hfull, hsum, if_true, if_false, ne_eq, not_false_eq_true, and_self]
  · simp [hfull]

section
variable {w : Water} {sequence level turbidity recycled fresh count sumRecycled sumFresh : Nat}

/-- R91 steps 1 to 4, whether the sample is in sequence or begins a new window. -/
theorem waterTakeSample_eq
    (hknown : w.inSequence sequence = true → count = w.windowCount + 1 ∧ sumRecycled = w.windowRecycled + recycled
      ∧ sumFresh = w.windowFresh + fresh)
    (hgap : ¬ w.inSequence sequence = true → count = 1 ∧ sumRecycled = recycled ∧ sumFresh = fresh) :
    w.takeSample sequence level turbidity recycled fresh
      = waterTaken w sequence level turbidity fresh count sumRecycled sumFresh := by
  unfold Water.takeSample Water.takeSequence
  dsimp only
  by_cases h : w.inSequence sequence = true
  · obtain ⟨rfl, rfl, rfl⟩ := hknown h
    rw [if_pos h, takeWindow_eq]
    rfl
  · obtain ⟨rfl, rfl, rfl⟩ := hgap h
    rw [if_neg h, takeWindow_eq]
    simp [waterTaken, Water.abortWindow, Water.takeUsed, satAdd, max32]

theorem sampleForm_iff : sampleForm sequence level turbidity recycled fresh = true ↔
    ¬ (255 < sequence ∨ 65000 < level ∨ 4000 < turbidity ∨ 65535 < recycled ∨ 65535 < fresh) := by
  simp only [sampleForm, Bool.and_eq_true, decide_eq_true_eq]
  omega

/-- R90, R91, past the form: the gap, the water block, then the mode. -/
theorem waterSample_formed {src : Nat} {s : State}
    (hf : sampleForm sequence level turbidity recycled fresh = true) :
    waterSample src sequence level turbidity recycled fresh s =
      (let v : State := { s.gapCheck src sequence with
          water := (s.gapCheck src sequence).water.takeSample sequence level turbidity recycled fresh }
       let t := v.modeAfterSample (movedRules s.water.rules v.water.rules)
       (.answer (u8 (modeCode t.water.mode) ++ u16 t.water.share ++ u8 t.water.windowCount
          ++ u8 ((sequence + 1) % 256)), t)) := by
  unfold waterSample
  rw [if_neg (by simp [hf])]

end

@[simp] theorem raise_water (r : FaultRecord) (s : State) : (s.raise r).water = s.water := by
  unfold State.raise State.recordFault; split <;> rfl

@[simp] theorem gapCheck_water (src n : Nat) (s : State) : (s.gapCheck src n).water = s.water := by
  unfold State.gapCheck
  split
  · rfl
  · exact raise_water _ _

/-- Settles O49. -/
theorem waterSampleIsTakenWhole : Obligations.WaterSampleIsTakenWhole := by
  constructor
  · intro h copy sequence level turbidity recycled fresh st s i hp hst hatt hbad
    refine exec_of_block rfl hp ?_
    rw [fromAttached_of_attached (attached_restartSilence.2 ⟨st, hst, hatt⟩)]
    exact if_pos (Bool.eq_false_iff.2 (fun hf => sampleForm_iff.1 hf hbad))
  · intro h copy sequence level turbidity recycled fresh st mode s i hp hst hatt h1 h2 h3 h4 h5 w known count sumRecycled
      sumFresh hknown hgap full rules used holds hhalt hcons hne share taken u answer moved
    have hseq : w.inSequence sequence = true ↔ known := inSequence_iff
    have htaken : w.takeSample sequence level turbidity recycled fresh = taken :=
      waterTakeSample_eq (fun hs => hknown (hseq.1 hs)) (fun hs => hgap (mt hseq.2 hs))
    have hmode : computedMode taken = mode := computedMode_eq hhalt hne hcons
    let v : State := { u.gapCheck h.src sequence with water := taken }
    have hblock : fromAttached h (waterSample h.src sequence level turbidity recycled fresh) u
        = (.answer (u8 (modeCode (v.modeAfterSample moved).water.mode) ++ u16 (v.modeAfterSample moved).water.share
          ++ u8 (v.modeAfterSample moved).water.windowCount ++ u8 ((sequence + 1) % 256)), v.modeAfterSample moved) := by
      rw [fromAttached_of_attached (attached_restartSilence.2 ⟨st, hst, hatt⟩),
        waterSample_formed (sampleForm_iff.2 (by omega)), gapCheck_water,
        show u.water.takeSample sequence level turbidity recycled fresh = taken from htaken]
      rfl
    have hnotice : noticeMoved v.water.rules moved = true
        ↔ ∃ n b r, (n, b) ∈ moved ∧ rules[n]? = some r ∧ r.action = .notice := noticeMoved_iff
    have hv : computedMode v.water = mode := hmode
    refine ⟨v, fun hk => ?_, fun n hn hk => ?_, fun hm => ?_, fun hm hno => ?_, fun hm hno => ?_⟩
    · have hc : u.gapCheck h.src sequence = u := if_pos (hseq.2 hk)
      simp only [v, hc]
    · have hc : u.gapCheck h.src sequence = u.raise (sampleGapFault h.src (u.water.expected.getD 0) sequence) :=
        if_neg (mt hseq.1 hk)
      have hexp : u.water.expected.getD 0 = (n + 1) % 256 := by
        rw [Water.expected, show u.water.lastSequence = some n from hn]
        rfl
      simp only [v, hc, hexp, sampleGapFault]
    · have hafter : v.modeAfterSample moved = v.changeMode mode .sample moved := by
        unfold State.modeAfterSample
        rw [hv, if_pos (Ne.symm hm)]
      refine exec_of_block rfl hp (hblock.trans ?_)
      rw [hafter, changeMode_water]
    · have hafter : v.modeAfterSample moved = v.notify (.waterMode mode mode .sample moved) := by
        unfold State.modeAfterSample
        rw [hv, if_neg (not_not.2 hm.symm), if_pos (hnotice.2 hno)]
        rw [show v.water.mode = mode from hm.symm]
      refine exec_of_block rfl hp (hblock.trans ?_)
      rw [hafter, show (v.notify (.waterMode mode mode .sample moved)).water = taken from rfl,
        show taken.mode = mode from hm.symm]
    · have hafter : v.modeAfterSample moved = v := by
        unfold State.modeAfterSample
        rw [hv, if_neg (not_not.2 hm.symm), if_neg (mt hnotice.1 hno)]
      refine exec_of_block rfl hp (hblock.trans ?_)
      rw [hafter, show v.water = taken from rfl, show taken.mode = mode from hm.symm]

/-! ## The water loads (R93, R99, R103, R104) -/

section
variable {cause : ModeCause} {moved : List (Nat × Bool)} {v : State} {m : WaterMode}

theorem recomputeMode_unsure (h : v.water.mode = .unsure) : v.recomputeMode cause moved = v := if_pos h

theorem recomputeMode_same (h : v.water.mode ≠ .unsure) (hc : computedMode v.water = m) (hm : m = v.water.mode) :
    v.recomputeMode cause moved = v := by
  unfold State.recomputeMode State.takeMode
  rw [if_neg h, hc, if_pos hm.symm]

theorem recomputeMode_changed (h : v.water.mode ≠ .unsure) (hc : computedMode v.water = m) (hm : m ≠ v.water.mode) :
    v.recomputeMode cause moved = v.changeMode m cause moved := by
  unfold State.recomputeMode State.takeMode
  rw [if_neg h, hc, if_neg (Ne.symm hm)]

end

/-- R98: the mode a water block computes. -/
def Computed (w : Water) (m : WaterMode) : Prop :=
  (m = .halt ↔ Holds w.rules .halt) ∧ m ≠ .unsure
    ∧ (m = .conserve ↔ ¬ Holds w.rules .halt ∧ (Holds w.rules .conserve ∨ (0 < w.allowance ∧ w.allowance ≤ w.used)))

/-- A load or renewal that leaves the mode to be computed again ends in one of three ways. -/
theorem exec_recomputing {i : Instr} {h : Header} {copy : Bool} {b : Block} {s : State} {w : Water} {cause : ModeCause}
    {moved : List (Nat × Bool)} {answer : WaterMode → List Byte} (hrun : exec i s = .next (runRow i h b s))
    (hp : s.Passes i h copy) (hmode : w.mode = s.water.mode)
    (hb : let t := ({ s.restartSilence h.src with water := w } : State).recomputeMode cause moved
      b (s.restartSilence h.src) = (.answer (answer t.water.mode), t)) :
    (s.water.mode = .unsure →
      exec i s = .next (finish i h copy (.answer (answer .unsure)) { s.restartSilence h.src with water := w }))
    ∧ (∀ m, s.water.mode ≠ .unsure → Computed w m → m = s.water.mode →
      exec i s = .next (finish i h copy (.answer (answer m)) { s.restartSilence h.src with water := w }))
    ∧ (∀ m, s.water.mode ≠ .unsure → Computed w m → m ≠ s.water.mode →
      exec i s = .next (finish i h copy (.answer (answer m))
        (({ s.restartSilence h.src with water := w } : State).changeMode m cause moved))) := by
  rw [← hmode]
  let v : State := { s.restartSilence h.src with water := w }
  have hv : v.water = w := rfl
  refine ⟨fun hun => exec_of_block hrun hp (hb.trans ?_), fun m hun hc hm => exec_of_block hrun hp (hb.trans ?_),
    fun m hun hc hm => exec_of_block hrun hp (hb.trans ?_)⟩
  · rw [recomputeMode_unsure (v := v) hun, hv, hun]
  · obtain ⟨hhalt, hne, hcons⟩ := hc
    rw [recomputeMode_same (v := v) hun (computedMode_eq hhalt hne hcons) hm, hv, ← hm]
  · obtain ⟨hhalt, hne, hcons⟩ := hc
    rw [recomputeMode_changed (v := v) hun (computedMode_eq hhalt hne hcons) hm, changeMode_water]

theorem decodeChannel_of_le {n : Nat} (h : n ≤ 1) : ∃ c, decodeChannel n = some c := by
  interval_cases n <;> exact ⟨_, rfl⟩

section
variable {number enabled channel direction trip release confirm action : Nat} {en : Bool} {c : Channel} {d : Direction}
  {a : RuleAction}

theorem waterRuleForm_formed (hn : number ≤ 3) (hen : decodeFlag enabled = some en) (hc : decodeChannel channel = some c)
    (hd : decodeDirection direction = some d) (ha : decodeAction action = some a)
    (hr : trip ≤ channelMax c ∧ release ≤ channelMax c) (h1 : 1 ≤ confirm) (h8 : confirm ≤ 8) :
    waterRuleForm number enabled channel direction trip release confirm action
      = some ⟨en, c, d, trip, clampRelease d trip release, confirm, a, .clear, none⟩ := by
  unfold waterRuleForm
  rw [hen, hc, hd, ha]
  exact if_pos (by simp [hn, hr, inRange_iff, h1, h8])

theorem le_of_decodeFlag (h : decodeFlag enabled = some en) : enabled ≤ 1 := by
  by_contra hc
  rw [decodeFlag_of_lt (by omega)] at h
  cases h

theorem of_decodeChannel (h : decodeChannel channel = some c) :
    channel ≤ 1 ∧ channelMax c = if channel = 0 then 65000 else 4000 := by
  match channel, h with
  | 0, h | 1, h => cases h; simp [channelMax]

theorem le_of_decodeDirection (h : decodeDirection direction = some d) : direction ≤ 1 := by
  match direction, h with
  | 0, _ | 1, _ => simp

theorem le_of_decodeAction (h : decodeAction action = some a) : action ≤ 2 := by
  match action, h with
  | 0, _ | 1, _ | 2, _ => simp

theorem waterRuleForm_malformed
    (h : ¬ (number ≤ 3 ∧ enabled ≤ 1 ∧ channel ≤ 1 ∧ direction ≤ 1 ∧ action ≤ 2
      ∧ trip ≤ (if channel = 0 then 65000 else 4000) ∧ release ≤ (if channel = 0 then 65000 else 4000)
      ∧ 1 ≤ confirm ∧ confirm ≤ 8)) :
    waterRuleForm number enabled channel direction trip release confirm action = none := by
  unfold waterRuleForm
  split
  next en c d a hen hc hd ha =>
    obtain ⟨hc1, hmax⟩ := of_decodeChannel hc
    refine if_neg (fun hok => h ?_)
    simp only [Bool.and_eq_true, decide_eq_true_eq, inRange_iff, hmax] at hok
    obtain ⟨⟨⟨hn, htr⟩, hre⟩, h1, h8⟩ := hok
    exact ⟨hn, le_of_decodeFlag hen, hc1, le_of_decodeDirection hd, le_of_decodeAction ha, htr, hre, h1, h8⟩
  · rfl

theorem clampRelease_eq (d : Direction) (trip release : Nat) :
    clampRelease d trip release = if d = .below then max trip release else min trip release := by
  cases d <;> rfl

/-- R93: the rule's place in the table after the load. -/
theorem loadRule_rules {w : Water} {old r : CompareRule} (hold : w.rules[number]? = some old) :
    w.loadRule number r = { w with rules := w.rules.set number { r with record := old.record } } := by
  unfold Water.loadRule
  congr 1
  refine List.ext_getElem? (fun n => ?_)
  rw [List.getElem?_modify, List.getElem?_set]
  by_cases hn : number = n
  · subst hn
    obtain ⟨hlt, -⟩ := List.getElem?_eq_some_iff.1 hold
    rw [hold, if_pos rfl, if_pos hlt]
    simp
  · simp [hn]

end

/-- Settles O51. -/
theorem waterLoadsRecomputeTheMode : Obligations.WaterLoadsRecomputeTheMode := by
  constructor
  · intro mode cause moved s notice changed
    refine ⟨fun r hr hatt => ?_, fun hno => ?_⟩
    · rw [changeMode_eq, hr]
      dsimp only
      rw [if_pos hatt]
      rfl
    · rw [changeMode_eq]
      cases hr : s.recycler? with
      | none => rfl
      | some r =>
        dsimp only
        rw [if_neg (hno r hr)]
        rfl
  · intro h copy s u computed settled
    refine ⟨?malformed, ?rule, ?allowance, ?renew⟩
    case malformed =>
      intro number enabled channel direction trip release confirm action i hp greatest hbad
      refine exec_of_block rfl hp ?_
      unfold loadWaterRule
      rw [waterRuleForm_malformed hbad]
      rfl
    case rule =>
      intro number enabled channel direction trip release confirm action en c d a old i hp hold hn hen hc hd ha hlevel
        hturb h1 h8 stored rules
      have hrange : trip ≤ channelMax c ∧ release ≤ channelMax c := by
        cases c with
        | level => exact hlevel rfl
        | turbidity => exact hturb rfl
      have hform := waterRuleForm_formed hn hen hc hd ha hrange h1 h8
      rw [clampRelease_eq] at hform
      refine exec_recomputing (b := loadWaterRule number enabled channel direction trip release confirm action)
        (w := { s.water with rules := rules }) (cause := .ruleLoad) (moved := movedRules s.water.rules rules)
        (answer := fun m => u8 number ++ u16 stored ++ flag (decide (stored ≠ release)) ++ u8 (modeCode m)) rfl hp rfl ?_
      have hload := loadRule_rules (w := u.water) (r := ⟨en, c, d, trip, stored, confirm, a, .clear, none⟩) hold
      unfold loadWaterRule
      rw [hform]
      dsimp only
      rw [hload]
      rfl
    case allowance =>
      intro allowance i hp hle
      exact exec_recomputing (b := loadAllowance allowance) (w := { s.water with allowance := allowance })
        (cause := .allowance) (moved := []) (answer := fun _ => u32 s.water.allowance ++ amount s.water.used) rfl hp rfl
        (if_neg (show ¬ max32 < allowance from Nat.not_lt.2 hle))
    case renew =>
      intro i hp
      exact exec_recomputing (b := renewAllowance) (w := { s.water with used := 0 }) (cause := .renew) (moved := [])
        (answer := fun _ => amount s.water.used) rfl hp rfl rfl

end Sys2Proof.Proofs
end

