-- ==== Sys2Proof/Proofs/Silence.lean ====
section
/-! SUPPORT. Silence, acknowledgement and the reports of a saw: what the expiries and the floor reports of Chapters 3
and 5 make of one station's entry, each as one change of it. Settles O36, O37, O43, O45, O46. -/

namespace Sys2Proof.Proofs

open Sys2Proof Sys2Proof.Config Sys2Proof.Machine

variable {s : State}

/-! ## Two changes of one entry are one -/

theorem modifyStation_modifyStation {f : Station → Station} (hf : ∀ st, (f st).address = st.address) (a : Nat)
    (g : Station → Station) (s : State) :
    (s.modifyStation a f).modifyStation a g = s.modifyStation a (fun st => g (f st)) := by
  have hlist : modifyBy Station.address a g (modifyBy Station.address a f s.stations)
      = modifyBy Station.address a (fun st => g (f st)) s.stations := by
    unfold modifyBy
    rw [List.map_map]
    refine List.map_congr_left (fun st _ => ?_)
    by_cases h : st.address = a
    · simp [h, hf]
    · simp [h]
  unfold State.modifyStation
  rw [hlist]

theorem mapSaw_mapSaw (f g : Saw → Saw) (st : Station) :
    (st.mapSaw f).mapSaw g = st.mapSaw (fun w => g (f w)) := by
  simp [Station.mapSaw, Function.comp_def]

theorem modifySaw_modifySaw (a : Nat) (f g : Saw → Saw) (s : State) :
    (s.modifySaw a f).modifySaw a g = s.modifySaw a (fun w => g (f w)) := by
  unfold State.modifySaw
  rw [modifyStation_modifyStation (f := Station.mapSaw f) (fun _ => rfl)]
  exact congrArg (s.modifyStation a) (funext (mapSaw_mapSaw f g))

theorem modifyStation_raise (a : Nat) (f : Station → Station) (r : FaultRecord) (s : State) :
    (s.raise r).modifyStation a f = (s.modifyStation a f).raise r := by
  cases h : s.faults.record with
  | none => rw [raise_empty h, raise_empty (s := s.modifyStation a f) h]; rfl
  | some x => rw [raise_locked h, raise_locked (s := s.modifyStation a f) h]; rfl

theorem names_iff {slab index : Nat} {o : CutOrder} : CutOrder.names slab index o = true ↔ o.slab = slab ∧ o.index = index := by
  simp [CutOrder.names]

theorem modifyOrder_eq (a slab index : Nat) (f : CutOrder → CutOrder) (s : State) :
    s.modifyOrder a slab index f = s.modifySaw a (fun w =>
      { w with queue := w.queue.map (fun o => if o.slab = slab ∧ o.index = index then f o else o) }) := by
  simp only [State.modifyOrder, names_iff]

/-! ## The saw of an entry -/

theorem saw?_of_station {a : Nat} {st : Station} {w : Saw} (hst : s.station? a = some st) (hw : st.saw = some w) :
    s.saw? a = some w := by
  rw [State.saw?, hst, Option.bind_some, hw]

theorem attached_of_station {a : Nat} {st : Station} (hst : s.station? a = some st) (ha : st.state = .attached) :
    s.Attached a := ⟨st, hst, ha⟩

/-- The order a report names is held where it is the saw's active order and not in doubt. -/
theorem heldOrder_some {a slab index : Nat} {w : Saw} {o : CutOrder} (hw : s.saw? a = some w) (ho : w.active = some o)
    (hslab : o.slab = slab) (hindex : o.index = index) (hd : o.state ≠ .inDoubt) : s.heldOrder a slab index = some o := by
  have hn : CutOrder.names slab index o = true := names_iff.2 ⟨hslab, hindex⟩
  simp [State.heldOrder, hw, ho, hn, hd]

theorem heldOrder_none {a slab index : Nat} {w : Saw} (hw : s.saw? a = some w)
    (h : ∀ o, w.active = some o → o.slab ≠ slab ∨ o.index ≠ index ∨ o.state = .inDoubt) : s.heldOrder a slab index = none := by
  unfold State.heldOrder
  rw [hw, Option.bind_some]
  cases ho : w.active with
  | none => rfl
  | some o =>
    refine if_neg (fun hc => ?_)
    rw [Bool.and_eq_true, names_iff, decide_eq_true_iff] at hc
    rcases h o ho with h | h | h
    · exact h hc.1.1
    · exact h hc.1.2
    · exact hc.2 h

theorem active_isActive {w : Saw} {o : CutOrder} (h : w.active = some o) : o.state ≠ .waiting :=
  isActive_iff.1 (List.find?_some (p := fun o : CutOrder => o.state.isActive) h)

theorem active_none_iff {w : Saw} : w.active = none ↔ ∀ o ∈ w.queue, o.state = .waiting := by
  unfold Saw.active
  rw [List.find?_eq_none]
  refine forall₂_congr (fun o _ => ?_)
  rw [isActive_iff, not_not]

/-! ## Silence (R49, R83, R102) -/

/-- R83, of one order. -/
theorem silenced_eq (o : CutOrder) : o.silenced = match o.state with
    | .delivered => { o with state := .waiting, sends := 0, deliveredFeed := none, deliveredKerf := none }
    | .running => { o with state := .inDoubt }
    | .waiting => o
    | .inDoubt => o := by
  unfold CutOrder.silenced
  cases o.state <;> rfl

theorem silenceExpiry_expired {a : Nat} {st : Station} (hst : s.station? a = some st) (ha : st.state = .attached)
    (ht : st.silence = some 0) : silenceExpiry a s = (s.silence st).flush := by
  unfold silenceExpiry
  rw [hst]
  exact if_pos ⟨ha, ht⟩

theorem silenceExpiry_running {a : Nat} (h : ∀ st, s.station? a = some st → st.state ≠ .attached ∨ st.silence ≠ some 0) :
    silenceExpiry a s = s := by
  unfold silenceExpiry
  cases hst : s.station? a with
  | none => rfl
  | some st => exact if_neg (fun hc => (h st hst).elim (· hc.1) (· hc.2))

/-- A saw's silence is one change of its entry. -/
theorem silence_saw {st : Station} (hs : st.cls.isSaw = true) (s : State) :
    s.silence st = (((s.modifyStation st.address Station.silenced).modifySaw st.address Saw.silenceOrders).raise
      (silenceFault st)).present st.address := by
  have hmove : ((s.modifyStation st.address Station.silenced).raise (silenceFault st)).modifySaw st.address Saw.silenceOrders
      = ((s.modifyStation st.address Station.silenced).modifySaw st.address Saw.silenceOrders).raise (silenceFault st) :=
    modifyStation_raise _ _ _ _
  unfold State.silence
  cases hc : st.cls <;> simp [hc, StationClass.isSaw] at hs <;> exact congrArg (State.present st.address) hmove

theorem silence_other {st : Station} (hs : st.cls.isSaw = false) (hr : st.cls ≠ .recycler) (s : State) :
    s.silence st = (s.modifyStation st.address Station.silenced).raise (silenceFault st) := by
  unfold State.silence
  cases hc : st.cls <;> simp_all [StationClass.isSaw]

theorem silence_recycler {st : Station} (hr : st.cls = .recycler) (s : State) :
    s.silence st = ((s.modifyStation st.address Station.silenced).raise (silenceFault st)).plantLost := by
  unfold State.silence
  rw [hr]

theorem silenceFault_other {st : Station} {a : Nat} (ha : st.address = a) (hr : st.cls ≠ .recycler) :
    silenceFault st = ⟨.stationSilence, a, none, none, none, none⟩ := by
  simp [silenceFault, hr, ha]

theorem silenceFault_recycler {st : Station} {a : Nat} (ha : st.address = a) (hr : st.cls = .recycler) :
    silenceFault st = ⟨.stationSilence, a, none, none, none, some .plantSilent⟩ := by
  simp [silenceFault, hr, ha]

/-- Settles O36. -/
theorem silenceMakesStationSilent : Obligations.SilenceMakesStationSilent := by
  intro a s
  refine ⟨fun st hst hatt htimer => ?_, fun h => congrArg _ (silenceExpiry_running h), ?_⟩
  · have haddr : st.address = a := station?_address hst
    have hexec : exec (.silenceTimerExpiry a) s = .next (s.silence st).flush :=
      congrArg _ (silenceExpiry_expired hst hatt htimer)
    intro silent quiet fault
    have hwater : ((silent quiet).raise (fault (some .plantSilent))).water.mode = s.water.mode := by
      rw [raise_water]; rfl
    refine ⟨fun hs hr => ?_, fun hs => ?_, fun hr hm => ?_, fun hr hm => ?_⟩
    · rw [hexec, silence_other hs hr, silenceFault_other haddr hr, haddr]
      rfl
    · have hr : st.cls ≠ .recycler := fun hc => by rw [hc] at hs; cases hs
      have hone : (s.modifyStation a Station.silenced).modifySaw a Saw.silenceOrders
          = s.modifyStation a (fun x => (x.silenced).mapSaw Saw.silenceOrders) :=
        modifyStation_modifyStation (f := Station.silenced) (fun _ => rfl) a _ s
      rw [hexec, silence_saw hs, silenceFault_other haddr hr, haddr, hone]
      simp only [silent, Station.silenced, Station.mapSaw, Saw.silenceOrders, Saw.quiet, Option.map_map,
        Function.comp_def, funext silenced_eq]
      rfl
    · rw [hexec, silence_recycler hr, silenceFault_recycler haddr hr, haddr]
      exact congrArg (fun v : State => Host.Outcome.next v.flush) (if_pos (hwater.trans hm))
    · rw [hexec, silence_recycler hr, silenceFault_recycler haddr hr, haddr]
      exact congrArg (fun v : State => Host.Outcome.next v.flush) (if_neg (fun hc => hm (hwater.symm.trans hc)))
  · refine congrArg _ (silenceExpiry_running (fun st hst => ?_))
    rw [station?_restartSilence] at hst
    obtain ⟨y, hy, rfl⟩ := Option.map_eq_some_iff.1 hst
    rw [if_pos (station?_address hy)]
    by_cases hatt : y.state = .attached
    · rw [if_pos hatt]
      exact .inr (fun hc => absurd (Option.some.inj hc) (by decide))
    · rw [if_neg hatt]
      exact .inl hatt

/-! ## SAW STATUS (R51, R89) -/

theorem statusForm_formed {ready wear vibration changed kerf delta : Nat} (hr : ready ≤ 1) (hw : wear ≤ 1)
    (hv : vibration ≤ 1) (hc : changed ≤ 1) (h1 : 1 ≤ kerf) (h10 : kerf ≤ 10) :
    statusForm ready wear vibration changed kerf delta
      = some ⟨decide (ready = 1), decide (wear = 1), decide (vibration = 1), decide (changed = 1), kerf, delta⟩ := by
  unfold statusForm decodeIndicator
  rw [decodeFlag_of_le hr, decodeFlag_of_le hw, decodeFlag_of_le hv, decodeFlag_of_le hc]
  exact if_pos (inRange_iff.2 ⟨h1, h10⟩)

theorem of_statusForm {ready wear vibration changed kerf delta : Nat} {t : Status}
    (h : statusForm ready wear vibration changed kerf delta = some t) :
    ready ≤ 1 ∧ wear ≤ 1 ∧ vibration ≤ 1 ∧ changed ≤ 1 ∧ 1 ≤ kerf ∧ kerf ≤ 10 := by
  unfold statusForm decodeIndicator at h
  split at h
  · rename_i hr hw hv hc
    split at h
    · rename_i hk
      obtain ⟨h1, h10⟩ := inRange_iff.1 hk
      exact ⟨le_of_decodeFlag hr, le_of_decodeFlag hw, le_of_decodeFlag hv, le_of_decodeFlag hc, h1, h10⟩
    · cases h
  · cases h

theorem sawStatus_malformed {src ready wear vibration changed kerf delta : Nat}
    (h : ¬ (ready ≤ 1 ∧ wear ≤ 1 ∧ vibration ≤ 1 ∧ changed ≤ 1 ∧ 1 ≤ kerf ∧ kerf ≤ 10)) :
    sawStatus src ready wear vibration changed kerf delta s = (.reject .form [], s) := by
  have hf : statusForm ready wear vibration changed kerf delta = none := by
    by_contra hc
    obtain ⟨t, ht⟩ := Option.ne_none_iff_exists'.1 hc
    exact h (of_statusForm ht)
  unfold sawStatus
  rw [hf]
  rfl

theorem sawStatus_formed {src ready wear vibration changed kerf delta : Nat} {t : Status} {w : Saw}
    (hf : statusForm ready wear vibration changed kerf delta = some t) (hw : s.saw? src = some w) :
    sawStatus src ready wear vibration changed kerf delta s
      = (.answer (statusAnswer t w),
          if w.movedBy t then ((s.modifySaw src (Saw.takeStatus t)).drawWater src w.active t.delta).present src
          else (s.modifySaw src (Saw.takeStatus t)).drawWater src w.active t.delta) := by
  unfold sawStatus
  rw [hf, hw]

theorem movedBy_iff {t : Status} {w : Saw} : w.movedBy t = true ↔
    w.ready ≠ t.ready ∨ w.blade ≠ bladeCondition t.wear t.vibration ∨ w.kerf ≠ some t.kerf := by
  simp only [Saw.movedBy, Bool.or_eq_true, decide_eq_true_eq, or_assoc]

/-- Settles O37. -/
theorem sawStatusSetsBladeAndWater : Obligations.SawStatusSetsBladeAndWater := by
  intro h copy ready wear vibration changed kerf delta st w s i hp hst hatt hsaw u formed blade seconds answer taken fresh
    recycled overhead toOrder told
  have hw : u.saw? h.src = some w := (saw?_restartSilence h.src h.src s).trans (saw?_of_station hst hsaw)
  have hatt' : u.Attached h.src := attached_restartSilence.2 (attached_of_station hst hatt)
  have hgo {r : Reply} {t : State} (hb : sawStatus h.src ready wear vibration changed kerf delta u = (r, t)) :
      exec i s = .next (finish i h copy r t) :=
    exec_of_block rfl hp ((fromAttached_of_attached hatt').trans hb)
  have hblade : bladeCondition (decide (wear = 1)) (decide (vibration = 1)) = blade := by
    simp only [bladeCondition, decide_eq_true_eq]
    rfl
  have hform (hf : formed) : statusForm ready wear vibration changed kerf delta
      = some ⟨decide (ready = 1), decide (wear = 1), decide (vibration = 1), decide (changed = 1), kerf, delta⟩ := by
    obtain ⟨h1, h2, h3, h4, h5, h6⟩ := hf
    exact statusForm_formed h1 h2 h3 h4 h5 h6
  have htake : Saw.takeStatus ⟨decide (ready = 1), decide (wear = 1), decide (vibration = 1), decide (changed = 1), kerf, delta⟩
      = fun v => { v with
        bladeSeconds := if changed = 1 then 0 else v.bladeSeconds
        blade := blade
        kerf := some kerf
        ready := decide (ready = 1) } := by
    funext v
    simp only [Saw.takeStatus, hblade, decide_eq_true_eq]
  have hdone (hf : formed) {v : State} (hv : v.presented = s.presented)
      (hdraw : taken.drawWater h.src w.active delta = v) : exec i s = .next (finish i h copy answer (told v)) := by
    have hb := sawStatus_formed (hform hf) hw
    rw [htake] at hb
    refine hgo (hb.trans ?_)
    have hanswer : statusAnswer ⟨decide (ready = 1), decide (wear = 1), decide (vibration = 1), decide (changed = 1), kerf,
        delta⟩ w = u8 (bladeCode blade) ++ u32 seconds ++ u8 w.queue.length := by
      unfold statusAnswer
      rw [htake]
    rw [hanswer]
    refine congrArg (Prod.mk answer) ?_
    show (if w.movedBy _ then State.present h.src (taken.drawWater h.src w.active delta) else
      taken.drawWater h.src w.active delta) = told v
    rw [hdraw]
    show _ = if _ then _ else _
    rw [← hv]
    refine if_congr (movedBy_iff.trans ?_) rfl rfl
    rw [hblade]
  refine ⟨fun hf => hgo (sawStatus_malformed hf), fun hf ho => ?_, fun o hf ho hr hk => ?_, fun o hf ho hr hk => ?_⟩
  · exact hdone hf rfl (drawWater_overhead ho)
  · refine hdone hf rfl ?_
    rw [ho, drawWater_running hr, if_neg hk]
    rfl
  · refine hdone hf rfl ?_
    rw [ho, drawWater_running hr, if_pos hk]
    rfl

/-! ## ORDER ACK (R78) -/

theorem orderAck_none {src slab index : Nat} (h : s.heldOrder src slab index = none) :
    orderAck src slab index s = (.reject .placementState [], s) := by
  unfold orderAck
  rw [h]
  rfl

theorem orderAck_held {src slab index : Nat} {o : CutOrder} (h : s.heldOrder src slab index = some o) :
    orderAck src slab index s = (.answer (u32 o.number ++ u8 (orderStateCode .running)),
      if o.state = .delivered then s.acknowledge src slab index else s) := by
  unfold orderAck
  rw [h]

/-- Settles O43. -/
theorem orderAckStartsTheCut : Obligations.OrderAckStartsTheCut := by
  intro h copy slab index st w s i hp hst hatt hsaw u
  have hw : u.saw? h.src = some w := (saw?_restartSilence h.src h.src s).trans (saw?_of_station hst hsaw)
  have hatt' : u.Attached h.src := attached_restartSilence.2 (attached_of_station hst hatt)
  have hgo {r : Reply} {t : State} (hb : orderAck h.src slab index u = (r, t)) : exec i s = .next (finish i h copy r t) :=
    exec_of_block rfl hp ((fromAttached_of_attached hatt').trans hb)
  refine ⟨fun o ho hs hi hd => hgo ?_, fun o ho hs hi hr => hgo ?_, fun hno => hgo (orderAck_none (heldOrder_none hw hno))⟩
  · rw [orderAck_held (heldOrder_some hw ho hs hi (by rw [hd]; decide)), if_pos hd, State.acknowledge, modifyOrder_eq,
      modifySaw_modifySaw]
    rfl
  · rw [orderAck_held (heldOrder_some hw ho hs hi (by rw [hr]; decide)), if_neg (by rw [hr]; decide)]
    rfl

/-! ## The acknowledgement timer (R79, R80) -/

theorem unanswered_some {w : Saw} {o : CutOrder} (ht : w.ackTimer = some 0) (ho : w.active = some o) (hd : o.state = .delivered) :
    w.unanswered = some o := by
  unfold Saw.unanswered
  rw [ht, ho]
  exact if_pos hd

theorem unanswered_none {w : Saw} (h : w.ackTimer ≠ some 0 ∨ ∀ o, w.active = some o → o.state ≠ .delivered) :
    w.unanswered = none := by
  unfold Saw.unanswered
  split
  · rename_i o ht ho
    rcases h with h | h
    · exact absurd ht h
    · exact if_neg (h o ho)
  · rfl

theorem ackExpiry_unanswered {a : Nat} {w : Saw} {o : CutOrder} (hw : s.saw? a = some w) (ho : w.unanswered = some o) :
    ackExpiry a s = if o.sends < maxSends then (s.resend o).flush else ((s.endDelivery o).present a).flush := by
  unfold ackExpiry
  rw [hw, Option.bind_some, ho]

theorem orderTelegram?_eq {o : CutOrder} {p : Placement} {feed kerf : Nat} (hp : s.placement? o.slab o.index = some p)
    (hk : o.deliveredKerf = some kerf) (hf : o.deliveredFeed = some feed) :
    s.orderTelegram? o = some (orderTelegram s.address o.saw o p.rect kerf feed) := by
  unfold State.orderTelegram?
  rw [hp, hk, hf]

/-- The telegram of a delivered order, item by item (Table 5-2). -/
theorem orderTelegram_eq (own saw : Nat) (o : CutOrder) (r : Rect) (kerf feed : Nat) :
    orderTelegram own saw o r kerf feed = Telegram.mk saw own Kind.order (o.number % 256)
      (u32 o.slab ++ u8 o.index ++ u8 (kindCode o.kind) ++ u16 r.x ++ u16 r.y ++ u16 r.length ++ u16 r.width ++ u8 kerf
        ++ u16 feed) := by
  simp [orderTelegram, Rect.bytes, u16]

/-- Settles O45. -/
theorem ackTimerResendsOrEnds : Obligations.AckTimerResendsOrEnds := by
  intro saw st w s hst hsaw
  have hw : s.saw? saw = some w := saw?_of_station hst hsaw
  refine ⟨fun o p feed kerf ht ho hd ha hn hp hf hk => ?_, fun o ht ho hd ha hn => ?_, fun hno => ?_⟩
  · have hexp : ackExpiry saw s = (s.resend o).flush :=
      (ackExpiry_unanswered hw (unanswered_some ht ho hd)).trans (if_pos hn)
    refine congrArg _ (hexp.trans ?_)
    rw [State.resend, orderTelegram?_eq hp hk hf, orderTelegram_eq, modifyOrder_eq, modifySaw_modifySaw, ha]
    rfl
  · have hexp : ackExpiry saw s = ((s.endDelivery o).present saw).flush :=
      (ackExpiry_unanswered hw (unanswered_some ht ho hd)).trans (if_neg (Nat.not_lt.2 hn))
    refine congrArg _ (hexp.trans ?_)
    rw [State.endDelivery, modifyOrder_eq, modifySaw_modifySaw, ha, State.modifySaw,
      modifyStation_modifyStation (f := Station.silenced) (fun _ => rfl)]
    simp only [Station.silenced, Station.mapSaw, Saw.quiet, Option.map_map, Function.comp_def, noAnswerFault, ha]
    rfl
  · refine congrArg Host.Outcome.next ?_
    unfold ackExpiry
    rw [hw, Option.bind_some, unanswered_none hno]

/-! ## Stray cut reports (R85, R86) -/

theorem decodeOutcome_none {n : Nat} (h : 2 < n) : decodeOutcome n = none := by
  match n, h with
  | n + 3, _ => rfl

theorem decodeOutcome_some {n : Nat} (h : n ≤ 2) : ∃ oc, decodeOutcome n = some oc := by
  match n, h with
  | 0, _ => exact ⟨_, rfl⟩
  | 1, _ => exact ⟨_, rfl⟩
  | 2, _ => exact ⟨_, rfl⟩

theorem cutReport_malformed {src slab index outcome seconds : Nat} (h : slab = 0 ∨ 11 < index ∨ 2 < outcome) :
    cutReport src slab index outcome seconds s = (.reject .form [], s) := by
  unfold cutReport
  cases hoc : decodeOutcome outcome with
  | none => rfl
  | some oc =>
    have hle : outcome ≤ 2 := by
      by_contra hc
      rw [decodeOutcome_none (by omega)] at hoc
      cases hoc
    exact if_pos (by omega)

theorem cutReport_stray {src slab index outcome seconds : Nat} {st : Station} {w : Saw} (h0 : slab ≠ 0) (hi : index ≤ 11)
    (ho : outcome ≤ 2) (hheld : s.heldOrder src slab index = none) (hst : s.station? src = some st)
    (hw : s.saw? src = some w) (hrace : raceOrder st w slab index = none) :
    cutReport src slab index outcome seconds s = stray src slab index s := by
  obtain ⟨oc, hoc⟩ := decodeOutcome_some ho
  unfold cutReport
  rw [hoc, hheld, hst, hw]
  dsimp only
  rw [if_neg (by omega), hrace]

theorem raceOrder_none {st : Station} {w : Saw} {slab index : Nat}
    (h : ¬ (st.state = .silent ∧ w.lastDelivered = some (slab, index)
      ∧ ∃ o ∈ w.queue, o.slab = slab ∧ o.index = index ∧ o.state = .waiting)) : raceOrder st w slab index = none := by
  unfold raceOrder
  split
  · rename_i hc
    split
    · rfl
    · rename_i o ho
      obtain ⟨hs, hx⟩ := names_iff.1 (List.find?_some ho)
      exact if_neg (fun hwait => h ⟨hc.1, hc.2, o, List.mem_of_find?_eq_some ho, hs, hx, hwait⟩)
  · rfl

/-- Settles O46. -/
theorem strayReportsAreDiscarded : Obligations.StrayReportsAreDiscarded := by
  intro h copy slab index outcome seconds st w s i hp hst hsaw u
  have hw : u.saw? h.src = some w := (saw?_restartSilence h.src h.src s).trans (saw?_of_station hst hsaw)
  refine ⟨fun hf => exec_of_block rfl hp (cutReport_malformed hf), fun h0 hi ho hheld hrace => ?_⟩
  obtain ⟨n, hn⟩ := station?_restartSilence_some (a := h.src) hst
  exact exec_of_block rfl hp (cutReport_stray h0 hi ho (heldOrder_none hw hheld) hn hw (raceOrder_none hrace))

end Sys2Proof.Proofs
end

