-- ==== Sys2Proof/Proofs/Orders.lean ====
section
/-! SUPPORT. Orders that end without DONE, and orders delivered: the placement returned, the queue and the job's count
as one change of the tables; delivery evaluation by its turn and its tests. Settles O39, O41, O44. -/

namespace Sys2Proof.Proofs

open Sys2Proof Sys2Proof.Config Sys2Proof.Machine

variable {s : State}

/-! ## An order that ends without DONE (R36, R56) -/

/-- The placements when the order of one ends without DONE (R36): PLANNED again, or gone where it is a detached cutout. -/
def placementsReturned (p : Placement) (slab index : Nat) (l : List Placement) : List Placement :=
  if p.kind = .cutout ∧ p.parentIndex = none then
    l.filter (fun q => decide (¬ (q.slab = slab ∧ q.index = index)))
  else l.map (fun q => if q.slab = slab ∧ q.index = index then { q with state := .planned } else q)

/-- The jobs when one of an order's job's orders is gone (R135). -/
def jobsLowered (job : Option Nat) (l : List Job) : List Job :=
  l.map (fun j => if job = some j.id then { j with openOrders := j.openOrders - 1 } else j)

theorem at_iff {slab index : Nat} {p : Placement} : Placement.at slab index p = true ↔ p.slab = slab ∧ p.index = index := by
  simp [Placement.at]

theorem returnPlacement_eq {p : Placement} {slab index : Nat} (hp : s.placement? slab index = some p) :
    s.returnPlacement slab index = { s with placements := placementsReturned p slab index s.placements } := by
  have hat (q : Placement) : (!Placement.at slab index q) = decide (¬ (q.slab = slab ∧ q.index = index)) := by
    rw [Bool.eq_iff_iff, Bool.not_eq_true', decide_eq_true_iff, ← Bool.not_eq_true, at_iff]
  unfold State.returnPlacement placementsReturned
  rw [hp]
  dsimp only
  split
  · unfold State.freePlacement
    simp only [hat]
  · unfold State.modifyPlacement
    simp only [at_iff]

theorem dropOpenOrder_eq (job : Option Nat) (s : State) : s.dropOpenOrder job = { s with jobs := jobsLowered job s.jobs } := by
  cases job with
  | none => simp [State.dropOpenOrder, jobsLowered]
  | some j =>
    have hcond (x : Job) : (some j = some x.id) ↔ x.id = j := by rw [Option.some.injEq, eq_comm]
    simp only [State.dropOpenOrder, State.modifyJob, modifyBy, jobsLowered, hcond]

theorem removeOrder_eq (o : CutOrder) (w : Saw) : Saw.removeOrder o w =
    { w with
      queue := w.queue.filter (fun y => decide (¬ (y.slab = o.slab ∧ y.index = o.index)))
      lastDelivered := if w.lastDelivered = some (o.slab, o.index) then none else w.lastDelivered
      ackTimer := if o.state = .delivered then none else w.ackTimer } := by
  have hn (y : CutOrder) : (!CutOrder.names o.slab o.index y) = decide (¬ (y.slab = o.slab ∧ y.index = o.index)) := by
    rw [Bool.eq_iff_iff, Bool.not_eq_true', decide_eq_true_iff, ← Bool.not_eq_true, names_iff]
  simp only [Saw.removeOrder, hn]

/-- An order that ends without DONE changes the placements, one queue and one count. -/
def tookBack (s : State) (a : Nat) (o : CutOrder) (p : Placement) : State :=
  { s with
    placements := placementsReturned p o.slab o.index s.placements
    stations := s.stations.map (fun t =>
      if t.address = a then { t with saw := t.saw.map (fun w =>
        { w with
          queue := w.queue.filter (fun y => decide (¬ (y.slab = o.slab ∧ y.index = o.index)))
          lastDelivered := if w.lastDelivered = some (o.slab, o.index) then none else w.lastDelivered
          ackTimer := if o.state = .delivered then none else w.ackTimer }) } else t)
    jobs := jobsLowered o.job s.jobs }

theorem tookBack_eq {a : Nat} {o : CutOrder} {p : Placement} (hp : s.placement? o.slab o.index = some p) :
    (s.returnPlacement o.slab o.index).removeOrder a o = tookBack s a o p := by
  rw [State.removeOrder, dropOpenOrder_eq, returnPlacement_eq hp, funext (removeOrder_eq o)]
  rfl

/-! ## WITHDRAW (R70) -/

theorem mem_order? {slab index : Nat} {o : CutOrder} (h : s.order? slab index = some o) :
    o ∈ s.orders ∧ o.slab = slab ∧ o.index = index :=
  ⟨List.mem_of_find?_eq_some h, names_iff.1 (List.find?_some h)⟩

theorem withdraw_malformed {slab index : Nat} (h : slab = 0 ∨ 11 < index) :
    withdraw slab index s = (.reject .form [], s) := if_pos h

theorem withdraw_refused {slab index : Nat} {r : Reason} {d : List Byte} (h0 : slab ≠ 0) (hi : index ≤ 11)
    (hc : (withdrawSlab s slab).or ((withdrawPlacement s slab index).or (withdrawOrder s slab index)) = some (r, d)) :
    withdraw slab index s = (.reject r d, s) := by
  unfold withdraw
  rw [if_neg (by omega), unlessFails_fail hc]

theorem withdraw_taken {slab index : Nat} {o : CutOrder} (h0 : slab ≠ 0) (hi : index ≤ 11)
    (hc : (withdrawSlab s slab).or ((withdrawPlacement s slab index).or (withdrawOrder s slab index)) = none)
    (ho : s.order? slab index = some o) :
    withdraw slab index s = (.answer (withdrawAnswer o),
      (((s.returnPlacement slab index).removeOrder o.saw o).closeOf o.job).present o.saw) := by
  unfold withdraw
  rw [if_neg (by omega), unlessFails_pass hc, ho]

theorem withdrawSlab_noSlab {slab : Nat} (h : ∀ x, s.slab? slab = some x → x.state = .reserved) :
    withdrawSlab s slab = some (.noSlab, []) := by
  unfold withdrawSlab
  cases hx : s.slab? slab with
  | none => rfl
  | some x => exact checkThat_fail (decide_eq_false (not_not_intro (h x hx)))

theorem withdrawSlab_none {slab : Nat} {x : Slab} (hx : s.slab? slab = some x) (hr : x.state ≠ .reserved) :
    withdrawSlab s slab = none := by
  unfold withdrawSlab
  rw [hx]
  exact checkThat_pass (decide_eq_true hr)

theorem withdrawPlacement_none {slab index : Nat} {p : Placement} (hp : s.placement? slab index = some p)
    (ho : p.state = .ordered) : withdrawPlacement s slab index = none := by
  unfold withdrawPlacement
  rw [hp]
  exact checkThat_pass (decide_eq_true ho)

theorem withdrawPlacement_absent {slab index : Nat} (hp : s.placement? slab index = none) :
    withdrawPlacement s slab index = some (.placementState, opt u8 none) := by
  unfold withdrawPlacement
  rw [hp]

theorem withdrawPlacement_state {slab index : Nat} {p : Placement} (hp : s.placement? slab index = some p)
    (ho : p.state ≠ .ordered) :
    withdrawPlacement s slab index = some (.placementState, opt u8 (some (placementStateCode p.state))) := by
  unfold withdrawPlacement
  rw [hp]
  exact checkThat_fail (decide_eq_false ho)

theorem withdrawOrder_eq {slab index : Nat} {o : CutOrder} (ho : s.order? slab index = some o) :
    withdrawOrder s slab index = checkThat (decide (o.state = .waiting) || decide (o.state = .inDoubt)) .inFlight
      (u8 (orderStateCode o.state)) := by
  unfold withdrawOrder
  rw [ho]

@[simp] theorem order?_restartSilence (a slab index : Nat) (s : State) :
    (s.restartSilence a).order? slab index = s.order? slab index := by
  rw [State.order?, orders_restartSilence, State.order?]

/-- Settles O39. -/
theorem withdrawTakesOrderBack : Obligations.WithdrawTakesOrderBack := by
  constructor
  · intro h copy slab index s i hp refused
    refine ⟨fun hf => exec_of_block rfl hp (withdraw_malformed hf), fun h0 hi hx => ?_, fun x h0 hi hx hr => ⟨fun hpl => ?_,
      fun p hpl hst => ?_⟩⟩
    · have hc := withdrawSlab_noSlab (s := s.restartSilence h.src) hx
      exact exec_of_block rfl hp (withdraw_refused h0 hi (by rw [hc]; rfl))
    · have hs := withdrawSlab_none (s := s.restartSilence h.src) hx hr
      have hc := withdrawPlacement_absent (s := s.restartSilence h.src) hpl
      exact exec_of_block rfl hp (withdraw_refused h0 hi (by rw [hs, hc]; rfl))
    · have hs := withdrawSlab_none (s := s.restartSilence h.src) hx hr
      have hc := withdrawPlacement_state (s := s.restartSilence h.src) hpl hst
      exact exec_of_block rfl hp (withdraw_refused h0 hi (by rw [hs, hc]; rfl))
  · intro h copy slab index x p o s i hp h0 hi hx hr hpl hord ho u
    have hs := withdrawSlab_none (s := u) hx hr
    have hc := withdrawPlacement_none (s := u) hpl hord
    have ho' : u.order? slab index = some o := (order?_restartSilence _ _ _ _).trans ho
    have hw := withdrawOrder_eq ho'
    obtain ⟨_, hslab, hindex⟩ := mem_order? ho
    constructor
    · intro hstate
      refine exec_of_block rfl hp (withdraw_refused h0 hi ?_)
      rw [hs, hc, hw, Option.none_or, Option.none_or, checkThat_fail (by rcases hstate with e | e <;> rw [e] <;> rfl)]
    · intro hstate removed
      have hpass : (withdrawSlab u slab).or ((withdrawPlacement u slab index).or (withdrawOrder u slab index)) = none := by
        rw [hs, hc, hw, Option.none_or, Option.none_or, checkThat_pass (by rcases hstate with e | e <;> rw [e] <;> rfl)]
      have hd : o.state ≠ .delivered := by rcases hstate with e | e <;> rw [e] <;> decide
      have hremoved : (u.returnPlacement slab index).removeOrder o.saw o = removed := by
        have hback := tookBack_eq (s := u) (a := o.saw) (o := o) (p := p) (by rw [hslab, hindex]; exact hpl)
        rw [hslab, hindex] at hback
        rw [hback]
        simp only [tookBack, if_neg hd, hslab, hindex]
        rfl
      refine exec_of_block rfl hp ((withdraw_taken h0 hi hpass ho').trans ?_)
      rw [hremoved]
      rfl

/-! ## ORDER DECLINE (R82) -/

theorem orderDecline_none {src slab index : Nat} (h : s.heldOrder src slab index = none) :
    orderDecline src slab index s = (.reject .placementState [], s) := by
  unfold orderDecline
  rw [h]
  rfl

theorem orderDecline_held {src slab index : Nat} {o : CutOrder} (h : s.heldOrder src slab index = some o) :
    orderDecline src slab index s = (.answer (u32 o.number), (s.decline o).present src) := by
  unfold orderDecline
  rw [h]

@[simp] theorem closeOf_shop (job : Option Nat) (s : State) : (s.closeOf job).shop = s.shop := by
  unfold State.closeOf State.closeIfReady
  split
  · rfl
  · split
    · rfl
    · split <;> rfl

@[simp] theorem closeOf_presented (job : Option Nat) (s : State) : (s.closeOf job).presented = s.presented :=
  (congrArg State.presented (closeOf_exceptAccounts job s) :)

theorem declinedWater_eq (o : CutOrder) : declinedWater o
    = (if o.kind = .remnant then 0 else o.recycled, if o.kind = .remnant then 0 else o.fresh) := by
  unfold declinedWater
  split <;> rfl

/-- Settles O44. -/
theorem orderDeclineEndsTheOrder : Obligations.OrderDeclineEndsTheOrder := by
  intro h copy slab index st w s i hp hst hatt hsaw u
  have hw : u.saw? h.src = some w := (saw?_restartSilence h.src h.src s).trans (saw?_of_station hst hsaw)
  have hatt' : u.Attached h.src := attached_restartSilence.2 (attached_of_station hst hatt)
  have hgo {r : Reply} {t : State} (hb : orderDecline h.src slab index u = (r, t)) :
      exec i s = .next (finish i h copy r t) :=
    exec_of_block rfl hp ((fromAttached_of_attached hatt').trans hb)
  constructor
  · intro o ho hslab hindex hsrc hstate p hpl left recycled fresh
    subst hslab hindex
    have hback : (u.returnPlacement o.slab o.index).removeOrder h.src o = tookBack u h.src o p := tookBack_eq hpl
    have hleft : (tookBack u h.src o p).closeOf o.job = left := rfl
    have hshop : left.shop = s.shop := closeOf_shop _ _
    have hpresented : left.presented = s.presented := closeOf_presented _ _
    have hd : o.state ≠ .inDoubt := by rcases hstate with e | e <;> rw [e] <;> decide
    refine hgo ((orderDecline_held (heldOrder_some hw ho rfl rfl hd)).trans ?_)
    rw [State.decline, declinedWater_eq, hsrc, hback, hleft, ← hshop, ← hpresented]
    rfl
  · exact fun hno => hgo (orderDecline_none (heldOrder_none hw hno))

/-! ## Delivery evaluation (R74 to R77) -/

theorem isTurnOf_iff {saw : Nat} : s.isTurnOf saw = true ↔
    saw ∈ s.presented ∧ ∀ a ∈ s.presented.takeWhile (fun a => decide (a ≠ saw)), a < saw → s.saw? a = none := by
  have hne {a : Nat} (ha : a ∈ s.presented.takeWhile (fun a => decide (a ≠ saw))) : a ≠ saw :=
    of_decide_eq_true (List.mem_takeWhile_imp (p := fun a => decide (a ≠ saw)) ha)
  unfold State.isTurnOf
  rw [Bool.and_eq_true, List.contains_iff_mem, List.all_eq_true]
  refine and_congr_right (fun _ => forall₂_congr (fun a ha => ?_))
  rw [Bool.or_eq_true, decide_eq_true_iff, Option.isNone_iff_eq_none]
  have := hne ha
  constructor
  · exact fun h hlt => h.resolve_left (by omega)
  · exact fun h => (Nat.lt_or_ge saw a).imp_right (fun hge => h (by omega))

theorem evaluate_notTurn {saw : Nat} (h : ¬ s.isTurnOf saw = true) : evaluate saw s = s := if_neg h

theorem evaluate_none {saw : Nat} (h : s.isTurnOf saw = true) (hn : s.nextDelivery saw = none) :
    evaluate saw s = { s with presented := s.presented.erase saw } := by
  have hn' : State.nextDelivery { s with presented := s.presented.erase saw } saw = none := hn
  unfold evaluate
  rw [if_pos h]
  dsimp only
  rw [hn']

theorem evaluate_some {saw : Nat} {o : CutOrder} (h : s.isTurnOf saw = true) (hn : s.nextDelivery saw = some o) :
    evaluate saw s = (({ s with presented := s.presented.erase saw }).deliver saw o).flush := by
  have hn' : State.nextDelivery { s with presented := s.presented.erase saw } saw = some o := hn
  unfold evaluate
  rw [if_pos h]
  dsimp only
  rw [hn']

theorem gatesOpen_iff {line : LineState} {st : Station} {w : Saw} : gatesOpen line st w = true ↔
    line = .run ∧ st.state = .attached ∧ w.ready = true ∧ ∀ o ∈ w.queue, o.state = .waiting := by
  rw [← active_none_iff, ← Option.isNone_iff_eq_none]
  simp [gatesOpen, and_assoc]

theorem nextDelivery_eq {saw : Nat} {st : Station} {w : Saw} (hst : s.station? saw = some st) (hw : st.saw = some w) :
    s.nextDelivery saw = if gatesOpen s.line st w then w.queue.find? (s.deliverable saw w) else none := by
  unfold State.nextDelivery
  rw [hst]
  dsimp only
  rw [hw]

theorem limits_iff {m : WaterMode} : m.limits = true ↔ m = .conserve ∨ m = .unsure := by
  cases m <;> simp [WaterMode.limits]

theorem bladePasses_iff {b : Blade} {k : PlacementKind} : bladePasses b k = true ↔ b = .good ∨ (b = .weak ∧ k ≠ .mitre) := by
  cases b <;> simp [bladePasses]

theorem deliverable_iff {saw : Nat} {w : Saw} {o : CutOrder} : s.deliverable saw w o = true ↔
    o.state = .waiting ∧ ((∃ x, s.slab? o.slab = some x ∧ x.state = .staged ∧ x.bed = some saw ∧ x.lock = none)
      ∧ s.water.mode ≠ .halt ∧ ¬ (o.kind = .cutout ∧ (s.water.mode = .conserve ∨ s.water.mode = .unsure))
      ∧ (w.blade = .good ∨ (w.blade = .weak ∧ o.kind ≠ .mitre))) := by
  unfold State.deliverable waterPasses
  cases s.slab? o.slab with
  | none => simp
  | some x =>
    simp only [Slab.onBed, Bool.and_eq_true, decide_eq_true_eq, bladePasses_iff, Bool.not_eq_true', ← Bool.not_eq_true,
      limits_iff, Option.isNone_iff_eq_none, Option.some.injEq, exists_eq_left']
    tauto

/-- R77: the saw's entry and the telegram of a delivery. -/
theorem deliver_eq {saw feed : Nat} {o : CutOrder} {p : Placement} (hp : s.placement? o.slab o.index = some p)
    (hf : deliveredFeedUnder s.water.mode o.requestedFeed s.constants.conserveFeed = feed) :
    s.deliver saw o = (s.modifySaw saw (fun w => Saw.noteDelivery o.slab o.index
        { w with queue := w.queue.map (fun y => if y.slab = o.slab ∧ y.index = o.index then
            CutOrder.delivered feed s.constants.kerf y else y) })).produce .b
      (orderTelegram s.address saw o p.rect s.constants.kerf feed) := by
  have ht : s.orderTelegram? { o.delivered feed s.constants.kerf with saw := saw }
      = some (orderTelegram s.address saw o p.rect s.constants.kerf feed) := orderTelegram?_eq hp rfl rfl
  unfold State.deliver
  dsimp only
  rw [hf, ht, modifyOrder_eq, modifySaw_modifySaw]
  rfl

/-- Settles O41. -/
theorem evaluationDeliversFirstOrder : Obligations.EvaluationDeliversFirstOrder := by
  constructor
  · intro saw s hno
    refine congrArg Host.Outcome.next (evaluate_notTurn (fun hturn => ?_))
    obtain ⟨hmem, hlow⟩ := isTurnOf_iff.1 hturn
    rcases hno with hno | ⟨a, ha, hlt, hsaw⟩
    · exact hno hmem
    · exact hsaw (hlow a ha hlt)
  · intro saw st w s hmem hlow hst hsaw gates limited passes used
    have hturn : s.isTurnOf saw = true := isTurnOf_iff.2 ⟨hmem, hlow⟩
    have hnext := nextDelivery_eq hst hsaw
    constructor
    · intro hno
      refine congrArg Host.Outcome.next (evaluate_none hturn (hnext.trans ?_))
      split
      · rename_i hg
        refine List.find?_eq_none.2 (fun o ho hc => ?_)
        exact (hno.resolve_left (not_not_intro (gatesOpen_iff.1 hg))) o ho (deliverable_iff.1 hc).2
      · rfl
    · intro front o rest p feed hg hq hfront hpass hpl hlim hfree telegram delivered
      have hwait : o.state = .waiting := hg.2.2.2 o (by rw [hq]; simp)
      have hnone : front.find? (s.deliverable saw w) = none :=
        List.find?_eq_none.2 (fun y hy hc => hfront y hy (deliverable_iff.1 hc).2)
      have hfind : s.nextDelivery saw = some o := by
        rw [hnext, if_pos (gatesOpen_iff.2 hg), hq, List.find?_append, hnone, Option.none_or,
          List.find?_cons_of_pos (deliverable_iff.2 ⟨hwait, hpass⟩)]
      have hfeed : deliveredFeedUnder s.water.mode o.requestedFeed s.constants.conserveFeed = feed := by
        unfold deliveredFeedUnder
        split
        · rename_i hl
          exact (hlim (limits_iff.1 hl)).symm
        · rename_i hl
          exact (hfree (fun hc => hl (limits_iff.2 hc))).symm
      refine congrArg Host.Outcome.next ((evaluate_some hturn hfind).trans ?_)
      rw [deliver_eq (s := { s with presented := s.presented.erase saw }) hpl hfeed, orderTelegram_eq]
      rfl

end Sys2Proof.Proofs
end

