-- ==== Sys2Proof/Proofs/Admission.lean ====
section
/-! SUPPORT. Order admission: the nine checks of Table 4-2 as one list of parts, and the tables after an admission.
Settles O38. -/

namespace Sys2Proof.Proofs

open Sys2Proof Sys2Proof.Config Sys2Proof.Machine

/-! ## More parts of a check -/

section
variable {Q : Prop} {r : Reason} {d : List Byte} {ps qs : List CheckPart} {c c' : Check}

/-- A part given by what it answers where its demand fails and where it holds. -/
theorem follows_part (hfail : ¬ Q → c' = some (r, d)) (hpass : Q → c' = none) (hc : Follows ps c) :
    Follows ((Q, r, d) :: ps) (c'.or c) := by
  refine ⟨fun h => ?_, fun h => ?_⟩
  · rw [hfail h, Option.some_or]
  · rw [hpass h, Option.none_or]
    exact hc

theorem follows_last {Q : Prop} {r : Reason} {d : List Byte} {c' : Check} (hfail : ¬ Q → c' = some (r, d))
    (hpass : Q → c' = none) : Follows [(Q, r, d)] c' := ⟨hfail, hpass⟩

/-- A part whose refusal carries a value where there is one. -/
theorem follows_value {α : Type} {o : Option α} {f : α → List Byte} (hQ : o = none ↔ Q) (hc : Follows ps c) :
    Follows ((Q, r, o.toList.flatMap f) :: ps) ((o.map (fun i => (r, f i))).or c) := by
  refine follows_part (fun h => ?_) (fun h => ?_) hc
  · obtain ⟨i, rfl⟩ := Option.ne_none_iff_exists'.1 (mt hQ.1 h)
    simp
  · rw [hQ.2 h, Option.map_none]

theorem follows_append (hf : Follows ps c) (hg : (∀ p ∈ ps, p.1) → Follows qs c') : Follows (ps ++ qs) (c.or c') := by
  induction ps generalizing c with
  | nil => rw [show c = none from hf, Option.none_or]; exact hg (fun _ h => absurd h List.not_mem_nil)
  | cons p ps ih =>
    obtain ⟨hfail, hpass⟩ := hf
    refine ⟨fun h => ?_, fun h => ih (hpass h) (fun hall => hg (fun q hq => ?_))⟩
    · rw [hfail h, Option.some_or]
    · rcases List.mem_cons.1 hq with rfl | hq
      · exact h
      · exact hall q hq

end

/-! ## The parts of the admission checks (Table 4-2) -/

/-- Check 1 (R61). -/
def slabParts (x : Slab) : List CheckPart :=
  [ (x.state ≠ .reserved, .noSlab, []),
    (x.state.isStock = true, .slabState, u8 (slabStateCode x.state)),
    (x.lock = none, .slabLocked, x.lock.toList.flatMap (fun l => u8 (lockCode l))) ]

/-- A cutout of the index that is not CUT stands at an index. -/
def uncutCutout (s : State) (slab index n : Nat) : Bool :=
  (s.placement? slab n).any (fun c => decide (c.kind = .cutout ∧ c.parentIndex = some index ∧ c.state ≠ .cut))

/-- Checks 2 to 4 (R61 to R63). -/
def planParts (s : State) (p : Placement) (job : Option Nat) (slab index : Nat) : List CheckPart :=
  [ (p.state = .planned, .placementState, opt u8 (some (placementStateCode p.state))),
    (p.job = job, .wrongJob, opt u32 p.job),
    (p.job = none ∨ p.job.bind s.job? ≠ none, .noJob, []),
    (∀ j ∈ p.job.bind s.job?, j.state = .opened, .jobState,
      (p.job.bind s.job?).toList.flatMap (fun j => u8 (jobStateCode j.state))),
    (p.kind.isPiece = true → ∀ n < 12, uncutCutout s slab index n = false, .cutoutsFirst,
      ((List.range 12).find? (uncutCutout s slab index)).toList.flatMap u8) ]

/-- Checks 5 to 9 (R62, R64 to R66), past NOT_SAW. -/
def sawParts (s : State) (st : Station) (w : Saw) (x : Slab) (p : Placement) (dst slab : Nat) : List CheckPart :=
  [ (st.state = .attached, .stationState, u8 (stationStateCode st.state)),
    (w.config.kinds.getLsbD (kindCode p.kind) = true, .capability, []),
    (x.length ≤ w.config.bedLength ∧ x.width ≤ w.config.bedWidth ∧ x.thickness ≤ w.config.maxThickness, .bedSize, []),
    (w.config.materials = [] ∨ x.material ∈ w.config.materials, .material, []),
    (∃ k, w.kerf = some k ∧ k ≤ s.constants.kerf, .kerf, opt u8 w.kerf),
    (w.blade ≠ .worn, .bladeWorn, []),
    (x.state = .staged → ∀ a ∈ x.bed, a = dst, .stagedElsewhere, x.bed.toList.flatMap u8),
    (∀ o ∈ s.orders, o.slab = slab → o.saw = dst, .splitSlab,
      (s.orders.find? (fun o => decide (o.slab = slab ∧ o.saw ≠ dst))).toList.flatMap (fun o => u8 o.saw)),
    (s.water.mode ≠ .halt, .waterHalt, []),
    (p.kind = .cutout → s.water.mode ≠ .conserve ∧ s.water.mode ≠ .unsure, .waterConserve, u8 (modeCode s.water.mode)),
    (∀ j ∈ p.job.bind s.job?, ¬ (s.groups.quote = true ∧ j.overQuote = true ∧ j.hold = true), .quote, []),
    (w.queue.length < 6, .queueFull, []) ]

section
variable {s : State} {x : Slab} {p : Placement} {st : Station} {w : Saw} {job : Option Nat} {dst slab index : Nat}
  {ps : List CheckPart} {c : Check}

theorem follows_slab : Follows (slabParts x) (slabCheck x) := by
  refine follows_cons decide_eq_true_iff (follows_cons Iff.rfl ?_)
  cases x.lock with
  | none => exact ⟨fun h => absurd rfl h, fun _ => rfl⟩
  | some l => exact ⟨fun _ => by simp, fun h => absurd h (by simp)⟩

theorem jobOpenCheck_noJob {j : Nat} (h : s.job? j = none) : jobOpenCheck s (some j) = some (.noJob, []) := by
  unfold jobOpenCheck
  dsimp only
  rw [h]

theorem jobOpenCheck_job {j : Nat} {y : Job} (h : s.job? j = some y) : jobOpenCheck s (some j)
    = checkThat (decide (y.state = .opened)) .jobState (u8 (jobStateCode y.state)) := by
  unfold jobOpenCheck
  dsimp only
  rw [h]

theorem follows_jobOpen (hc : Follows ps c) :
    Follows ((job = none ∨ job.bind s.job? ≠ none, .noJob, []) :: (∀ j ∈ job.bind s.job?, j.state = .opened, .jobState,
      (job.bind s.job?).toList.flatMap (fun j => u8 (jobStateCode j.state))) :: ps) ((jobOpenCheck s job).or c) := by
  cases job with
  | none => exact ⟨fun h => absurd (.inl rfl) h, fun _ => ⟨fun h => absurd (fun _ hj => by cases hj) h, fun _ => hc⟩⟩
  | some j =>
    rw [Option.bind_some]
    cases hj : s.job? j with
    | none =>
      rw [jobOpenCheck_noJob hj]
      exact ⟨fun _ => rfl, fun h => absurd h (by simp)⟩
    | some y =>
      rw [jobOpenCheck_job hj]
      refine ⟨fun h => absurd h (by simp), fun _ => ?_⟩
      have := follows_cons (ok := decide (y.state = .opened)) (Q := y.state = .opened) (r := .jobState)
        (d := u8 (jobStateCode y.state)) decide_eq_true_iff hc
      simpa using this

theorem cutoutsFirst_eq (hslab : p.slab = slab) (hindex : p.index = index) :
    cutoutsFirstCheck s p = if p.kind.isPiece then
      ((List.range 12).find? (uncutCutout s slab index)).map (fun i => (.cutoutsFirst, u8 i)) else none := by
  have hlow : s.lowest p.slab (fun c => decide (c.kind = .cutout) && decide (c.parentIndex = some p.index)
      && decide (c.state ≠ .cut)) = (List.range 12).find? (uncutCutout s slab index) := by
    rw [lowest_eq, hslab, hindex]
    refine congrArg (fun f => List.find? f (List.range 12)) (funext (fun n => ?_))
    simp only [uncutCutout, Bool.decide_and, Bool.and_assoc]
  unfold cutoutsFirstCheck
  rw [hlow]
  split
  · cases (List.range 12).find? (uncutCutout s slab index) <;> rfl
  · rfl

theorem follows_cutoutsFirst (hslab : p.slab = slab) (hindex : p.index = index) (hc : Follows ps c) :
    Follows ((p.kind.isPiece = true → ∀ n < 12, uncutCutout s slab index n = false, .cutoutsFirst,
      ((List.range 12).find? (uncutCutout s slab index)).toList.flatMap u8) :: ps) ((cutoutsFirstCheck s p).or c) := by
  rw [cutoutsFirst_eq hslab hindex]
  by_cases hk : p.kind.isPiece = true
  · rw [if_pos hk]
    exact follows_value (find?_range_eq_none.trans ⟨fun h _ => h, fun h => h hk⟩) hc
  · rw [if_neg hk, Option.none_or]
    exact ⟨fun h => absurd (fun hc => absurd hc hk) h, fun _ => hc⟩

theorem follows_plan (hslab : p.slab = slab) (hindex : p.index = index) (hc : Follows ps c) :
    Follows (planParts s p job slab index ++ ps)
      ((placementCheck job p).or ((jobOpenCheck s p.job).or ((cutoutsFirstCheck s p).or c))) := by
  unfold placementCheck
  rw [Option.or_assoc]
  exact follows_cons decide_eq_true_iff (follows_cons decide_eq_true_iff
    (follows_jobOpen (follows_cutoutsFirst hslab hindex hc)))

theorem kerfWithin_iff {k : Nat} : w.kerfWithin k = true ↔ ∃ n, w.kerf = some n ∧ n ≤ k := by
  unfold Saw.kerfWithin
  cases w.kerf <;> simp

theorem admits_iff {cfg : SawConfig} {m : Nat} : cfg.admits m = true ↔ cfg.materials = [] ∨ m ∈ cfg.materials := by
  simp [SawConfig.admits]

theorem fitsSlab_iff {cfg : SawConfig} : cfg.fitsSlab x = true ↔
    x.length ≤ cfg.bedLength ∧ x.width ≤ cfg.bedWidth ∧ x.thickness ≤ cfg.maxThickness := by
  simp [SawConfig.fitsSlab, and_assoc]

theorem follows_staged (hc : Follows ps c) :
    Follows ((x.state = .staged → ∀ a ∈ x.bed, a = dst, .stagedElsewhere, x.bed.toList.flatMap u8) :: ps)
      ((stagedCheck dst x).or c) := by
  unfold stagedCheck
  by_cases hs : x.state = .staged
  · rw [if_pos hs]
    cases hb : x.bed with
    | none => exact ⟨fun h => absurd (fun _ _ ha => by cases ha) h, fun _ => hc⟩
    | some a =>
      have hQ : decide (a = dst) = true ↔ (x.state = .staged → ∀ b ∈ some a, b = dst) := by
        rw [decide_eq_true_iff]
        exact ⟨fun h _ b hb => (Option.some.inj hb).symm.trans h, fun h => h hs a rfl⟩
      have := follows_cons (r := .stagedElsewhere) (d := u8 a) hQ hc
      simpa using this
  · rw [if_neg hs, Option.none_or]
    exact ⟨fun h => absurd (fun hc => absurd hc hs) h, fun _ => hc⟩

theorem splitCheck_eq : splitCheck s dst slab
    = (s.orders.find? (fun o => decide (o.slab = slab ∧ o.saw ≠ dst))).map (fun o => (.splitSlab, u8 o.saw)) := by
  unfold splitCheck
  simp only [← Bool.decide_and]
  generalize s.orders.find? (fun o => decide (o.slab = slab ∧ o.saw ≠ dst)) = found
  cases found <;> rfl

theorem follows_split (hc : Follows ps c) :
    Follows ((∀ o ∈ s.orders, o.slab = slab → o.saw = dst, .splitSlab,
      (s.orders.find? (fun o => decide (o.slab = slab ∧ o.saw ≠ dst))).toList.flatMap (fun o => u8 o.saw)) :: ps)
      ((splitCheck s dst slab).or c) := by
  rw [splitCheck_eq]
  refine follows_value ?_ hc
  rw [List.find?_eq_none]
  refine forall₂_congr (fun o _ => ?_)
  rw [decide_eq_true_iff]
  exact not_and_not_right

theorem quoteHoldCheck_noJob {j : Nat} (h : s.job? j = none) : quoteHoldCheck s (some j) = none := by
  unfold quoteHoldCheck
  dsimp only
  rw [h]

theorem quoteHoldCheck_job {j : Nat} {y : Job} (h : s.job? j = some y) :
    quoteHoldCheck s (some j) = checkThat (!(s.groups.quote && y.overQuote && y.hold)) .quote := by
  unfold quoteHoldCheck
  dsimp only
  rw [h]

theorem follows_quoteHold (hc : Follows ps c) :
    Follows ((∀ j ∈ job.bind s.job?, ¬ (s.groups.quote = true ∧ j.overQuote = true ∧ j.hold = true), .quote, []) :: ps)
      ((quoteHoldCheck s job).or c) := by
  cases job with
  | none => exact ⟨fun h => absurd (fun _ hj => by cases hj) h, fun _ => hc⟩
  | some j =>
    rw [Option.bind_some]
    cases hj : s.job? j with
    | none =>
      rw [quoteHoldCheck_noJob hj]
      exact ⟨fun h => absurd (fun _ hj => by cases hj) h, fun _ => hc⟩
    | some y =>
      rw [quoteHoldCheck_job hj]
      refine follows_cons ?_ hc
      rw [Bool.not_eq_true', ← Bool.not_eq_true, Bool.and_eq_true, Bool.and_eq_true, and_assoc]
      exact ⟨fun h _ hj => Option.some.inj hj ▸ h, fun h => h y rfl⟩

theorem follows_water (hc : Follows ps c) :
    Follows ((s.water.mode ≠ .halt, .waterHalt, []) :: (p.kind = .cutout → s.water.mode ≠ .conserve ∧ s.water.mode ≠ .unsure,
      .waterConserve, u8 (modeCode s.water.mode)) :: ps) ((waterCheck s p.kind).or c) := by
  unfold waterCheck
  rw [Option.or_assoc]
  refine follows_cons decide_eq_true_iff (follows_cons ?_ hc)
  rw [Bool.not_eq_true', ← Bool.not_eq_true, Bool.and_eq_true, decide_eq_true_iff, limits_iff]
  tauto

theorem follows_saw : Follows (sawParts s st w x p dst x.id)
    ((sawCheck s st w x p).or ((stagedCheck dst x).or ((splitCheck s dst x.id).or ((waterCheck s p.kind).or
      ((quoteHoldCheck s p.job).or (checkThat (decide (w.queue.length < maxQueue)) .queueFull)))))) := by
  unfold sawCheck
  simp only [Option.or_assoc]
  exact follows_cons decide_eq_true_iff (follows_cons Iff.rfl (follows_cons fitsSlab_iff (follows_cons admits_iff
    (follows_cons kerfWithin_iff (follows_cons decide_eq_true_iff (follows_staged (follows_split (follows_water
      (follows_quoteHold (follows_one decide_eq_true_iff))))))))))

/-! ## The nine checks -/

theorem admissionCheck_noPlacement (hx : s.slab? slab = some x) (hp : s.placement? slab index = none) :
    Follows (slabParts x ++ [(False, .placementState, opt u8 none)]) (admissionCheck s dst job slab index) := by
  unfold admissionCheck
  rw [hx, hp]
  exact follows_append follows_slab (fun _ => follows_last (fun _ => rfl) False.elim)

theorem placement?_names (hp : s.placement? slab index = some p) : p.slab = slab ∧ p.index = index :=
  at_iff.1 (List.find?_some hp)

theorem admissionCheck_eq (hx : s.slab? slab = some x) (hp : s.placement? slab index = some p) :
    admissionCheck s dst job slab index = (slabCheck x).or ((placementCheck job p).or ((jobOpenCheck s p.job).or
      ((cutoutsFirstCheck s p).or (sawChecks s dst x p)))) := by
  unfold admissionCheck
  rw [hx, hp]

theorem admissionCheck_noSaw (hx : s.slab? slab = some x) (hp : s.placement? slab index = some p) (hw : s.saw? dst = none) :
    Follows (slabParts x ++ planParts s p job slab index ++ [(False, .notSaw, [])]) (admissionCheck s dst job slab index) := by
  obtain ⟨hslab, hindex⟩ := placement?_names hp
  have hsaw : sawChecks s dst x p = some (.notSaw, []) := by
    unfold State.saw? at hw
    unfold sawChecks
    cases hst : s.station? dst with
    | none => rfl
    | some st =>
      rw [hst, Option.bind_some] at hw
      dsimp only
      rw [hw]
  rw [admissionCheck_eq hx hp, hsaw, List.append_assoc]
  exact follows_append follows_slab (fun _ => follows_plan hslab hindex (follows_last (fun _ => rfl) False.elim))

theorem admissionCheck_saw (hx : s.slab? slab = some x) (hp : s.placement? slab index = some p)
    (hst : s.station? dst = some st) (hw : st.saw = some w) :
    Follows (slabParts x ++ planParts s p job slab index ++ sawParts s st w x p dst slab)
      (admissionCheck s dst job slab index) := by
  obtain ⟨hslab, hindex⟩ := placement?_names hp
  have hsaw : sawChecks s dst x p = (sawCheck s st w x p).or ((stagedCheck dst x).or ((splitCheck s dst x.id).or
      ((waterCheck s p.kind).or ((quoteHoldCheck s p.job).or
        (checkThat (decide (w.queue.length < maxQueue)) .queueFull))))) := by
    unfold sawChecks
    rw [hst]
    dsimp only
    rw [hw]
  rw [admissionCheck_eq hx hp, hsaw, List.append_assoc]
  refine follows_append follows_slab (fun _ => follows_plan hslab hindex ?_)
  have hid : x.id = slab := slab?_id hx
  have := follows_saw (s := s) (st := st) (w := w) (x := x) (p := p) (dst := dst)
  rw [hid] at this ⊢
  exact this

/-- The restart of a silence timer is none of the checks' business. -/
theorem admissionCheck_restartSilence (a : Nat) :
    admissionCheck (s.restartSilence a) dst job slab index = admissionCheck s dst job slab index := by
  have hsplit (n : Nat) : splitCheck (s.restartSilence a) dst n = splitCheck s dst n := by
    rw [splitCheck_eq, splitCheck_eq, orders_restartSilence]
  have hsaw (x : Slab) (p : Placement) : sawChecks (s.restartSilence a) dst x p = sawChecks s dst x p := by
    unfold sawChecks
    cases hst : s.station? dst with
    | none => rw [station?_restartSilence, hst]; rfl
    | some st =>
      obtain ⟨n, hn⟩ := station?_restartSilence_some (a := a) hst
      rw [hn]
      dsimp only
      simp only [hsplit]
      rfl
  cases hx : s.slab? slab with
  | none =>
    unfold admissionCheck
    rw [slab?_restartSilence, hx]
  | some x =>
    cases hp : s.placement? slab index with
    | none =>
      unfold admissionCheck
      rw [slab?_restartSilence, placement?_restartSilence, hx, hp]
    | some p =>
      rw [admissionCheck_eq hx hp, admissionCheck_eq (s := s.restartSilence a) hx hp, hsaw]
      rfl

/-! ## ORDER (R55 to R68) -/

variable {number feed : Nat}

theorem order_malformed (h : ¬ (slab ≠ 0 ∧ index ≤ 11 ∧ feed ≠ 0)) :
    order dst number slab index feed s = (.reject .form [], s) := by
  refine if_pos (Bool.eq_false_iff.2 (fun hc => h ?_))
  simpa [orderForm, and_assoc] using hc

theorem orderForm_formed (h : slab ≠ 0 ∧ index ≤ 11 ∧ feed ≠ 0) : ¬ orderForm slab index feed = false := by
  obtain ⟨h0, hi, hf⟩ := h
  simp [orderForm, h0, hi, hf]

theorem order_refused {r : Reason} {d : List Byte} (h : slab ≠ 0 ∧ index ≤ 11 ∧ feed ≠ 0)
    (hc : admissionCheck s dst (jobNamed number) slab index = some (r, d)) :
    order dst number slab index feed s = (.reject r d, s) := by
  unfold order
  rw [if_neg (orderForm_formed h), unlessFails_fail hc]

theorem order_admitted (h : slab ≠ 0 ∧ index ≤ 11 ∧ feed ≠ 0)
    (hc : admissionCheck s dst (jobNamed number) slab index = none) (hp : s.placement? slab index = some p)
    (hw : s.saw? dst = some w) : order dst number slab index feed s
      = (.answer (admitAnswer dst (advance32 s.admissionCounter) (clampFeed w.config feed) (w.queue.length + 1)),
          (s.admitOrder p dst (clampFeed w.config feed)).present dst) := by
  unfold order
  rw [if_neg (orderForm_formed h), unlessFails_pass hc, hp, hw]

theorem raiseOpenOrder_eq (job : Option Nat) (s : State) : s.raiseOpenOrder job = { s with
    jobs := s.jobs.map (fun j => if job = some j.id then { j with openOrders := j.openOrders + 1 } else j) } := by
  cases job with
  | none => simp [State.raiseOpenOrder]
  | some j =>
    have hcond (x : Job) : (some j = some x.id) ↔ x.id = j := by rw [Option.some.injEq, eq_comm]
    simp only [State.raiseOpenOrder, State.modifyJob, modifyBy, hcond]

end

/-- Settles O38. -/
theorem orderIsCheckedThenAdmitted : Obligations.OrderIsCheckedThenAdmitted := by
  intro h copy job slab index feed s i hp u formed refusedBy
  have hrefused {parts : List CheckPart} (hf : formed)
      (hc : Follows parts (admissionCheck s h.dst (jobNamed job) slab index)) : refusedBy parts := by
    intro n Q reason detail hn hprev hQ
    exact exec_of_block rfl hp (order_refused hf
      ((admissionCheck_restartSilence h.src).trans (follows_refuses hc hn hprev hQ)))
  refine ⟨fun hf => exec_of_block rfl hp (order_malformed hf), fun hf hx => ?_, fun x hf hx => ?_⟩
  · refine exec_of_block rfl hp (order_refused hf ((admissionCheck_restartSilence h.src).trans ?_))
    unfold admissionCheck
    rw [hx]
  · intro slabP
    refine ⟨fun hpl => hrefused hf (admissionCheck_noPlacement hx hpl), fun p hpl => ?_⟩
    intro jobOf open? planP
    refine ⟨fun hw => hrefused hf (admissionCheck_noSaw hx hpl hw), fun st w hst hw => ?_⟩
    intro sawP parts
    have hfollows : Follows parts (admissionCheck s h.dst (jobNamed job) slab index) := admissionCheck_saw hx hpl hst hw
    refine ⟨hrefused hf hfollows, fun hall => ?_⟩
    intro number clamped new
    obtain ⟨hslab, hindex⟩ := placement?_names hpl
    have hpass : admissionCheck u h.dst (jobNamed job) slab index = none :=
      (admissionCheck_restartSilence h.src).trans (follows_passes hfollows hall)
    have hw' : u.saw? h.dst = some w := (saw?_restartSilence h.src h.dst s).trans (saw?_of_station hst hw)
    refine exec_of_block rfl hp ((order_admitted hf hpass hpl hw').trans ?_)
    have hnew : newOrder p h.dst clamped number = new := by
      simp only [newOrder, hslab, hindex, new]
    refine Prod.ext ?_ ?_
    · simp [admitAnswer, number, clamped, clampFeed, advance32, u]
    · show (u.admitOrder p h.dst clamped).present h.dst = _
      have hadmit : newOrder p h.dst clamped (advance32 u.admissionCounter) = new := hnew
      unfold State.admitOrder
      dsimp only
      rw [raiseOpenOrder_eq, hadmit, hslab, hindex]
      simp only [State.modifyPlacement, at_iff]
      rfl

end Sys2Proof.Proofs
end

