-- ==== Sys2Proof/Proofs/Removals.lean ====
section
/-! SUPPORT. Removals from the Plan Pool (R35): the pool after the removal of a piece as one pass over it, the count of
what goes and what is detached, and reads of a bounded pool by slab and index. -/

namespace Sys2Proof.Proofs

open Sys2Proof Sys2Proof.Config Sys2Proof.Machine

/-! ## Counting by cases -/

/-- A count splits where each entry counted falls under exactly one of two tests. -/
theorem countP_split {α : Type} {p q r : α → Bool} {l : List α}
    (h : ∀ x ∈ l, (p x).toNat = (q x).toNat + (r x).toNat) : l.countP p = l.countP q + l.countP r := by
  induction l with
  | nil => rfl
  | cons x xs ih =>
    have hx := h x List.mem_cons_self
    have hxs := ih (fun y hy => h y (List.mem_cons_of_mem _ hy))
    simp only [List.countP_cons, hxs]
    cases hp : p x <;> cases hq : q x <;> cases hr : r x <;> simp [hp, hq, hr] at hx ⊢ <;> omega

theorem countP_eq_one {α : Type} {p : α → Bool} {l : List α} {x : α} (hd : l.Nodup) (hx : x ∈ l)
    (hp : ∀ y ∈ l, p y = true ↔ y = x) : l.countP p = 1 := by
  induction l with
  | nil => cases hx
  | cons y ys ih =>
    rw [List.nodup_cons] at hd
    obtain ⟨hy, hys⟩ := hd
    rw [List.countP_cons]
    rcases List.mem_cons.1 hx with rfl | hx
    · have hzero : ys.countP p = 0 := List.countP_eq_zero.2 (fun z hz hc =>
        hy ((hp z (List.mem_cons_of_mem _ hz)).1 hc ▸ hz))
      rw [hzero, if_pos ((hp x List.mem_cons_self).2 rfl)]
    · have hne : p y = false := Bool.eq_false_iff.2 (fun hc => hy ((hp y List.mem_cons_self).1 hc ▸ hx))
      rw [ih hys hx (fun z hz => hp z (List.mem_cons_of_mem _ hz)), hne]
      rfl

/-! ## Reads of a bounded pool -/

section
variable {l : List Placement} {p q : Placement} {s : State} {slab index : Nat}

theorem placement_unique (hl : PlacementsLegal l) (hp : p ∈ l) (hq : q ∈ l) (hslab : p.slab = q.slab)
    (hindex : p.index = q.index) : p = q :=
  rising_unique Placement.key hl.1 hp hq (by unfold Placement.key; rw [hslab, hindex])

theorem placements_nodup (hl : PlacementsLegal l) : l.Nodup :=
  hl.1.imp (fun h => fun e => absurd (e ▸ h) (Nat.lt_irrefl _))

/-- What a bounded pool holds at a slab and index is the entry with them. -/
theorem placement?_eq_some (hl : PlacementsLegal s.placements) :
    s.placement? slab index = some p ↔ p ∈ s.placements ∧ p.slab = slab ∧ p.index = index := by
  constructor
  · exact fun h => ⟨List.mem_of_find?_eq_some h, placement?_names h⟩
  · rintro ⟨hp, rfl, rfl⟩
    cases hc : s.placement? p.slab p.index with
    | none =>
      have := placement?_none hc p hp
      rw [at_iff.2 ⟨rfl, rfl⟩] at this
      cases this
    | some q =>
      obtain ⟨hslab, hindex⟩ := placement?_names hc
      rw [placement_unique hl (List.mem_of_find?_eq_some hc) hp hslab hindex]

theorem placement?_eq_none : s.placement? slab index = none ↔ ∀ p ∈ s.placements, ¬ (p.slab = slab ∧ p.index = index) := by
  unfold State.placement?
  rw [List.find?_eq_none]
  exact forall₂_congr (fun p _ => not_congr at_iff)

theorem lowest_some {c : Placement → Bool} (hl : PlacementsLegal s.placements) (hp : p ∈ s.placements)
    (hslab : p.slab = slab) (hc : c p = true)
    (hmin : ∀ q ∈ s.placements, q.slab = slab → c q = true → p.index ≤ q.index) : s.lowest slab c = some p.index := by
  rw [lowest_eq, List.find?_range_eq_some, List.mem_range]
  refine ⟨?_, by have := hl.2.2 p hp; omega, fun j hj => ?_⟩
  · rw [(placement?_eq_some hl).2 ⟨hp, hslab, rfl⟩]
    exact hc
  · rw [Bool.not_eq_true']
    cases hq : s.placement? slab j with
    | none => rfl
    | some q =>
      obtain ⟨hmem, hs, hi⟩ := (placement?_eq_some hl).1 hq
      refine Bool.eq_false_iff.2 (fun hcq => ?_)
      have := hmin q hmem hs hcq
      omega

theorem lowest_none {c : Placement → Bool} (h : ∀ q ∈ s.placements, q.slab = slab → c q = false) :
    s.lowest slab c = none := by
  rw [lowest_eq, find?_range_eq_none]
  intro n _
  cases hq : s.placement? slab n with
  | none => rfl
  | some q => exact h q (List.mem_of_find?_eq_some hq) (placement?_names hq).1

end

/-! ## The pool after a removal -/

/-- A cutout of the placement at an index. -/
abbrev CutoutOf (slab index : Nat) (c : Placement) : Prop := c.slab = slab ∧ c.kind = .cutout ∧ c.parentIndex = some index

/-- An ORDERED cutout of a removed piece is detached, any other goes with it (R35). -/
def leftOf (c : Placement) : Option Placement := if c.state = .ordered then some { c with parentIndex := none } else none

/-- One entry of the pool when the cutout `c` is dropped. -/
def dropOne (c q : Placement) : Option Placement :=
  if q.slab = c.slab ∧ q.index = c.index then
    (if c.state = .ordered then some { q with parentIndex := none } else none)
  else some q

/-- One entry of the pool when all of `cs` are dropped in turn. -/
def dropAll : List Placement → Placement → Option Placement
  | [], q => some q
  | c :: cs, q => (dropOne c q).bind (dropAll cs)

/-- One entry of the pool when the piece at an index is removed with its cutouts (R35). -/
def afterRemoval (slab index : Nat) (q : Placement) : Option Placement :=
  if q.slab = slab ∧ q.index = index then none
  else if CutoutOf slab index q then leftOf q else some q

section
variable {l cs : List Placement} {p q r : Placement} {s : State} {slab index : Nat}

theorem leftOf_some (h : leftOf q = some r) : q.state = .ordered ∧ r = { q with parentIndex := none } := by
  unfold leftOf at h
  split at h
  · exact ⟨‹_›, (Option.some.inj h).symm⟩
  · cases h

theorem dropCutout_placements (s : State) (c : Placement) :
    (s.dropCutout c).placements = s.placements.filterMap (dropOne c) := by
  unfold State.dropCutout
  split
  · rename_i hc
    show s.placements.map _ = _
    rw [← List.filterMap_eq_map]
    refine List.filterMap_congr (fun q _ => ?_)
    simp only [Function.comp_apply, dropOne, at_iff, hc, if_true]
    split <;> rfl
  · rename_i hc
    show s.placements.filter _ = _
    rw [← List.filterMap_eq_filter]
    refine List.filterMap_congr (fun q _ => ?_)
    simp only [Option.guard, dropOne, Bool.not_eq_true', ← Bool.not_eq_true, at_iff, hc, if_false]
    split <;> simp_all

theorem foldl_dropCutout_placements (cs : List Placement) (s : State) :
    (cs.foldl State.dropCutout s).placements = s.placements.filterMap (dropAll cs) := by
  induction cs generalizing s with
  | nil => exact (List.filterMap_some).symm
  | cons c cs ih =>
    rw [List.foldl_cons, ih, dropCutout_placements, List.filterMap_filterMap]
    rfl

/-- A dropped cutout leaves what stands elsewhere alone. -/
theorem dropAll_of_elsewhere (h : ∀ c ∈ cs, ¬ (q.slab = c.slab ∧ q.index = c.index)) : dropAll cs q = some q := by
  induction cs with
  | nil => rfl
  | cons c cs ih =>
    rw [dropAll, dropOne, if_neg (h c List.mem_cons_self), Option.bind_some]
    exact ih (fun d hd => h d (List.mem_cons_of_mem _ hd))

theorem dropAll_of_mem (hd : cs.Pairwise (fun a b => ¬ (a.slab = b.slab ∧ a.index = b.index))) (hq : q ∈ cs) :
    dropAll cs q = leftOf q := by
  induction cs with
  | nil => cases hq
  | cons c cs ih =>
    rw [List.pairwise_cons] at hd
    obtain ⟨hc, hcs⟩ := hd
    rcases List.mem_cons.1 hq with rfl | hq
    · rw [dropAll, dropOne, if_pos ⟨rfl, rfl⟩]
      unfold leftOf
      split
      · rw [Option.bind_some]
        exact dropAll_of_elsewhere hc
      · rfl
    · have hne := hc q hq
      rw [dropAll, dropOne, if_neg (fun e => hne ⟨e.1.symm, e.2.symm⟩), Option.bind_some, ih hcs hq]

theorem placements_apart (hl : PlacementsLegal l) : l.Pairwise (fun a b => ¬ (a.slab = b.slab ∧ a.index = b.index)) :=
  hl.1.imp (fun h e => by unfold Placement.key at h; omega)

/-- R35: a piece goes, and its cutouts with it, but for the ORDERED ones, which are detached. -/
theorem removePiece_placements (hl : PlacementsLegal s.placements) :
    (s.removePiece slab index).2.placements = s.placements.filterMap (afterRemoval slab index) := by
  have hdrop (q : Placement) (hq : q ∈ s.placements) : dropAll (s.cutoutsOf slab index) q
      = if CutoutOf slab index q then leftOf q else some q := by
    rw [cutoutsOf_eq]
    split
    · rename_i hc
      exact dropAll_of_mem (List.Pairwise.filter _ (placements_apart hl)) (List.mem_filter.2 ⟨hq, decide_eq_true hc⟩)
    · rename_i hc
      refine dropAll_of_elsewhere (fun c hmem e => hc ?_)
      obtain ⟨hmem, hcut⟩ := List.mem_filter.1 hmem
      rw [placement_unique hl hq hmem e.1 e.2]
      exact of_decide_eq_true hcut
  show ((s.cutoutsOf slab index).foldl State.dropCutout s).placements.filter _ = _
  rw [foldl_dropCutout_placements, ← List.filterMap_eq_filter, List.filterMap_filterMap]
  refine List.filterMap_congr (fun q hq => ?_)
  rw [hdrop q hq, afterRemoval]
  by_cases hat : q.slab = slab ∧ q.index = index
  · rw [if_pos hat]
    split
    · unfold leftOf
      split
      · simp [Option.guard, Placement.at, hat.1, hat.2]
      · rfl
    · simp [Option.guard, Placement.at, hat.1, hat.2]
  · rw [if_neg hat]
    have hkeep (r : Placement) (hs : r.slab = q.slab) (hi : r.index = q.index) :
        Option.guard (fun p => !Placement.at slab index p) r = some r := by
      have hno : Placement.at slab index r = false := by
        rw [← Bool.not_eq_true, at_iff, hs, hi]
        exact hat
      simp [Option.guard, hno]
    split
    · unfold leftOf
      split
      · exact hkeep _ rfl rfl
      · rfl
    · exact hkeep q rfl rfl

/-- Two states that differ in their placements alone. -/
theorem eq_of_exceptPlans {s t : State} (hplans : exceptPlans t = exceptPlans s) (hslabs : t.slabs = s.slabs) :
    { s with placements := t.placements } = t := by
  have h : ({ exceptPlans s with placements := t.placements, slabs := s.slabs } : State)
      = { exceptPlans t with placements := t.placements, slabs := t.slabs } := by rw [hplans, hslabs]
  exact h

theorem removePiece_eq (hl : PlacementsLegal s.placements) : (s.removePiece slab index).2
    = { s with placements := s.placements.filterMap (afterRemoval slab index) } := by
  have hframe : { s with placements := (s.removePiece slab index).2.placements } = (s.removePiece slab index).2 := by
    have hplans := removePiece_exceptPlans slab index s
    have hslabs := removePiece_slabs slab index s
    exact eq_of_exceptPlans hplans hslabs
  rw [← hframe, removePiece_placements hl]

theorem removePiece_detached : (s.removePiece slab index).1.detached
    = s.placements.countP (fun c => decide (CutoutOf slab index c ∧ c.state = .ordered)) := by
  show (s.cutoutsOf slab index).countP _ = _
  rw [cutoutsOf_eq, List.countP_filter]
  refine List.countP_congr (fun c _ => ?_)
  simp only [Bool.and_eq_true, decide_eq_true_eq]
  tauto

theorem removePiece_cutouts : (s.removePiece slab index).1.cutouts
    = s.placements.countP (fun c => decide (CutoutOf slab index c ∧ c.state ≠ .ordered)) := by
  have hsum : s.placements.countP (fun c => decide (CutoutOf slab index c))
      = s.placements.countP (fun c => decide (CutoutOf slab index c ∧ c.state ≠ .ordered))
        + s.placements.countP (fun c => decide (CutoutOf slab index c ∧ c.state = .ordered)) :=
    countP_split (fun c _ => by by_cases h : CutoutOf slab index c <;> by_cases ho : c.state = .ordered <;> simp [h, ho])
  have hdet := removePiece_detached (s := s) (slab := slab) (index := index)
  have hlen : (s.cutoutsOf slab index).length = s.placements.countP (fun c => decide (CutoutOf slab index c)) := by
    rw [cutoutsOf_eq, List.countP_eq_length_filter]
  show (s.cutoutsOf slab index).length - (s.removePiece slab index).1.detached = _
  rw [hlen, hdet]
  omega

theorem removePiece_removed : (s.removePiece slab index).1.removed = 1 + (s.removePiece slab index).1.cutouts := rfl

/-- As many placements are counted as removed as the pool loses. -/
theorem length_removePiece (hl : PlacementsLegal s.placements) (hp : s.placement? slab index = some p)
    (hk : p.kind ≠ .cutout) :
    (s.removePiece slab index).1.removed + (s.removePiece slab index).2.placements.length = s.placements.length := by
  obtain ⟨hmem, hslab, hindex⟩ := (placement?_eq_some hl).1 hp
  have hat {q : Placement} (hq : q ∈ s.placements) : (q.slab = slab ∧ q.index = index) ↔ q = p :=
    ⟨fun e => placement_unique hl hq hmem (e.1.trans hslab.symm) (e.2.trans hindex.symm), fun e => e ▸ ⟨hslab, hindex⟩⟩
  have hone : s.placements.countP (fun q => decide (q = p)) = 1 :=
    countP_eq_one (placements_nodup hl) hmem (fun q _ => decide_eq_true_iff)
  have hlost : s.placements.countP (fun q => (afterRemoval slab index q).isNone)
      = s.placements.countP (fun q => decide (q = p))
        + s.placements.countP (fun c => decide (CutoutOf slab index c ∧ c.state ≠ .ordered)) := by
    refine countP_split (fun q hq => ?_)
    unfold afterRemoval leftOf
    by_cases he : q = p
    · have hno : ¬ CutoutOf slab index q := fun hc => hk (he ▸ hc.2.1)
      rw [if_pos ((hat hq).2 he)]
      rw [decide_eq_true he, decide_eq_false (fun hc => hno hc.1)]
      rfl
    · rw [if_neg (mt (hat hq).1 he)]
      rw [decide_eq_false he]
      by_cases hc : CutoutOf slab index q
      · rw [if_pos hc]
        by_cases ho : q.state = .ordered
        · rw [if_pos ho, decide_eq_false (fun e => e.2 ho)]
          rfl
        · rw [if_neg ho, decide_eq_true ⟨hc, ho⟩]
          rfl
      · rw [if_neg hc, decide_eq_false (fun e => hc e.1)]
        rfl
  have hall : s.placements.countP (fun _ => true) = s.placements.countP (fun q => (afterRemoval slab index q).isSome)
      + s.placements.countP (fun q => (afterRemoval slab index q).isNone) :=
    countP_split (fun q _ => by cases afterRemoval slab index q <;> rfl)
  rw [removePiece_removed, removePiece_cutouts, removePiece_placements hl, List.length_filterMap_eq_countP]
  rw [List.countP_true] at hall
  omega

/-- Where no cutout of the piece is ORDERED, they all go with it. -/
theorem afterRemoval_of_unordered (h : CutoutOf slab index q → q.state ≠ .ordered) :
    afterRemoval slab index q = if (q.slab = slab ∧ q.index = index) ∨ CutoutOf slab index q then none else some q := by
  unfold afterRemoval leftOf
  by_cases hat : q.slab = slab ∧ q.index = index
  · rw [if_pos hat, if_pos (.inl hat)]
  · rw [if_neg hat]
    by_cases hc : CutoutOf slab index q
    · rw [if_pos hc, if_neg (h hc), if_pos (.inr hc)]
    · rw [if_neg hc, if_neg (by tauto)]

theorem filterMap_afterRemoval (h : ∀ c ∈ l, CutoutOf slab index c → c.state ≠ .ordered) :
    l.filterMap (afterRemoval slab index)
      = l.filter (fun q => decide (¬ ((q.slab = slab ∧ q.index = index) ∨ CutoutOf slab index q))) := by
  rw [← List.filterMap_eq_filter]
  refine List.filterMap_congr (fun q hq => ?_)
  rw [afterRemoval_of_unordered (h q hq)]
  unfold Option.guard
  split <;> simp_all

end

end Sys2Proof.Proofs
end

