-- ==== Sys2Proof/Proofs/Withdrawals.lean ====
section
/-! SUPPORT. Removals a request makes: ADD DEFECT's pieces in ascending index, and UNPLACE. Settles O25. -/

namespace Sys2Proof.Proofs

open Sys2Proof Sys2Proof.Config Sys2Proof.Machine

/-! ## Lists taken in rising order -/

section
variable {α : Type} {f : α → Nat} {l : List α} {n : Nat}

/-- The entries below the next bound are those below the bound, and then the one at it. -/
theorem filter_lt_succ_of_mem {x : α} (h : l.Pairwise (fun a b => f a < f b)) (hx : x ∈ l) (hn : f x = n) :
    l.filter (fun y => decide (f y < n + 1)) = l.filter (fun y => decide (f y < n)) ++ [x] := by
  induction l with
  | nil => cases hx
  | cons y ys ih =>
    rw [List.pairwise_cons] at h
    obtain ⟨hy, hys⟩ := h
    rcases List.mem_cons.1 hx with rfl | hx
    · have hnone (m : Nat) (hm : m ≤ n + 1) : ys.filter (fun y => decide (f y < m)) = [] :=
        List.filter_eq_nil_iff.2 (fun z hz hc => by
          have := hy z hz
          have := of_decide_eq_true hc
          omega)
      rw [List.filter_cons_of_pos (by simp [hn]), List.filter_cons_of_neg (by simp [hn]), hnone _ (Nat.le_refl _),
        hnone n (Nat.le_succ n)]
      rfl
    · have hlt : f y < n := hn ▸ hy x hx
      rw [List.filter_cons_of_pos (by simp; omega), List.filter_cons_of_pos (by simpa using hlt), ih hys hx]
      rfl

theorem filter_lt_succ_of_ne (h : ∀ x ∈ l, f x ≠ n) :
    l.filter (fun y => decide (f y < n + 1)) = l.filter (fun y => decide (f y < n)) :=
  List.filter_congr (fun y hy => by have := h y hy; simp; omega)

end

/-! ## ADD DEFECT (R9, R10) -/

section
variable {slab : Nat} {r : Rect} {s : State} {x : Slab}

/-- A piece or mitre of the slab that a defect meets. -/
abbrev Met (slab : Nat) (r : Rect) (p : Placement) : Prop := p.slab = slab ∧ p.kind.isPiece = true ∧ p.meetsRect r = true

/-- The pieces met at indices below a bound. -/
def metBelow (s : State) (slab : Nat) (r : Rect) (n : Nat) : List Placement :=
  (s.placements.filter (fun p => decide (Met slab r p))).filter (fun p => decide (p.index < n))

/-- The pool without the pieces met at indices below a bound and their cutouts. -/
def poolBelow (s : State) (slab : Nat) (r : Rect) (n : Nat) : List Placement :=
  s.placements.filter (fun p => decide (¬ (Met slab r p ∧ p.index < n)
    ∧ ¬ ∃ q ∈ s.placements, (Met slab r q ∧ q.index < n) ∧ CutoutOf slab q.index p))

/-- The notice of a piece dropped, with the number of its cutouts. -/
def droppedNotice (s : State) (slab : Nat) (p : Placement) : Outgoing :=
  .notice (.placementDropped slab p.index p.job (s.placements.countP (fun c => decide (CutoutOf slab p.index c))))

/-- What ADD DEFECT has done when it has gone through the indices below a bound. -/
def defectProgress (s v : State) (slab : Nat) (r : Rect) (n : Nat) : Nat × State :=
  ((metBelow s slab r n).length,
    { v with
      placements := poolBelow s slab r n
      outbox := v.outbox ++ (metBelow s slab r n).map (droppedNotice s slab) })

theorem mem_metBelow {n : Nat} {p : Placement} : p ∈ metBelow s slab r n ↔ p ∈ s.placements ∧ Met slab r p ∧ p.index < n := by
  simp only [metBelow, List.mem_filter, decide_eq_true_eq, and_assoc]

theorem met_rising (hl : PlacementsLegal s.placements) :
    (s.placements.filter (fun p => decide (Met slab r p))).Pairwise (fun a b => a.index < b.index) := by
  refine List.Pairwise.imp_of_mem (fun {a b} ha hb hlt => ?_) (List.Pairwise.filter _ hl.1)
  obtain ⟨ha, hma⟩ := List.mem_filter.1 ha
  obtain ⟨hb, hmb⟩ := List.mem_filter.1 hb
  have hsa := (of_decide_eq_true hma).1
  have hsb := (of_decide_eq_true hmb).1
  unfold Placement.key at hlt
  omega

theorem metBelow_succ_of_met (hl : PlacementsLegal s.placements) {p : Placement} (hp : p ∈ s.placements)
    (hm : Met slab r p) : metBelow s slab r (p.index + 1) = metBelow s slab r p.index ++ [p] :=
  filter_lt_succ_of_mem (met_rising hl) (List.mem_filter.2 ⟨hp, decide_eq_true hm⟩) rfl

theorem index_of_met {n : Nat} {q : Placement} (hn : ∀ p ∈ s.placements, Met slab r p → p.index ≠ n) (hq : q ∈ s.placements) :
    (Met slab r q ∧ q.index < n + 1) ↔ (Met slab r q ∧ q.index < n) :=
  and_congr_right (fun hm => by have := hn q hq hm; omega)

theorem metBelow_succ_of_not {n : Nat} (hn : ∀ p ∈ s.placements, Met slab r p → p.index ≠ n) :
    metBelow s slab r (n + 1) = metBelow s slab r n :=
  filter_lt_succ_of_ne (fun p hp => by
    obtain ⟨hmem, hm⟩ := List.mem_filter.1 hp
    exact hn p hmem (of_decide_eq_true hm))

theorem poolBelow_succ_of_not {n : Nat} (hn : ∀ p ∈ s.placements, Met slab r p → p.index ≠ n) :
    poolBelow s slab r (n + 1) = poolBelow s slab r n := by
  refine List.filter_congr (fun p hp => decide_eq_decide.2 (and_congr (not_congr (index_of_met hn hp)) (not_congr ?_)))
  exact exists_congr (fun q => and_congr_right (fun hq => and_congr_left (fun _ => index_of_met hn hq)))

theorem mem_poolBelow_of_met {n : Nat} {p : Placement} (hp : p ∈ s.placements) (hm : Met slab r p) (hn : n ≤ p.index) :
    p ∈ poolBelow s slab r n := by
  refine List.mem_filter.2 ⟨hp, decide_eq_true ⟨fun h => absurd h.2 (Nat.not_lt.2 hn), ?_⟩⟩
  rintro ⟨q, -, -, -, hc, -⟩
  have := hm.2.1
  rw [hc] at this
  cases this

theorem poolBelow_legal (hl : PlacementsLegal s.placements) (n : Nat) : PlacementsLegal (poolBelow s slab r n) :=
  ⟨rising_filter _ hl.1 _, (List.length_filter_le _ _).trans hl.2.1, fun p hp => hl.2.2 p (List.mem_filter.1 hp).1⟩

/-- The removal of the piece met at the bound takes the pool to the next bound. -/
theorem poolBelow_succ_of_met (hl : PlacementsLegal s.placements) {p : Placement} (hp : p ∈ s.placements) (hm : Met slab r p)
    (hfree : ∀ c ∈ s.placements, CutoutOf slab p.index c → c.state ≠ .ordered) :
    (poolBelow s slab r p.index).filterMap (afterRemoval slab p.index) = poolBelow s slab r (p.index + 1) := by
  unfold poolBelow
  rw [filterMap_afterRemoval (fun c hc => hfree c (List.mem_filter.1 hc).1), List.filter_filter]
  refine List.filter_congr (fun q hq => ?_)
  rw [← Bool.decide_and, decide_eq_decide]
  have hat : (q.slab = slab ∧ q.index = p.index) ↔ q = p :=
    ⟨fun e => placement_unique hl hq hp (e.1.trans hm.1.symm) e.2, fun e => by rw [e]; exact ⟨hm.1, rfl⟩⟩
  have hbound (y : Placement) (hy : y ∈ s.placements) :
      (Met slab r y ∧ y.index < p.index + 1) ↔ (Met slab r y ∧ y.index < p.index) ∨ y = p := by
    constructor
    · rintro ⟨hmy, hlt⟩
      rcases Nat.lt_or_ge y.index p.index with h | h
      · exact .inl ⟨hmy, h⟩
      · exact .inr (placement_unique hl hy hp (hmy.1.trans hm.1.symm) (by omega))
    · rintro (⟨hmy, hlt⟩ | rfl)
      · exact ⟨hmy, by omega⟩
      · exact ⟨hm, Nat.lt_succ_self _⟩
  have hunder : (∃ y ∈ s.placements, (Met slab r y ∧ y.index < p.index + 1) ∧ CutoutOf slab y.index q)
      ↔ (∃ y ∈ s.placements, (Met slab r y ∧ y.index < p.index) ∧ CutoutOf slab y.index q) ∨ CutoutOf slab p.index q := by
    constructor
    · rintro ⟨y, hy, hb, hc⟩
      rcases (hbound y hy).1 hb with h | rfl
      · exact .inl ⟨y, hy, h, hc⟩
      · exact .inr hc
    · rintro (⟨y, hy, hb, hc⟩ | hc)
      · exact ⟨y, hy, (hbound y hy).2 (.inl hb), hc⟩
      · exact ⟨p, hp, (hbound p hp).2 (.inr rfl), hc⟩
  rw [hat, hunder, hbound q hq, not_or, not_or, not_or]
  exact ⟨fun e => ⟨⟨e.2.1, e.1.1⟩, e.2.2, e.1.2⟩, fun e => ⟨⟨e.1.2, e.2.2⟩, e.1.1, e.2.1⟩⟩

/-- One index of ADD DEFECT's pass. -/
theorem dropMet_progress (hl : PlacementsLegal s.placements)
    (hplanned : ∀ p ∈ s.placements, Met slab r p → p.state = .planned
      ∧ ∀ c ∈ s.placements, CutoutOf slab p.index c → c.state = .planned) (v : State) (n : Nat) :
    dropMet slab r (defectProgress s v slab r n) n = defectProgress s v slab r (n + 1) := by
  have hlegal : PlacementsLegal (defectProgress s v slab r n).2.placements := poolBelow_legal hl n
  by_cases hex : ∃ p ∈ s.placements, Met slab r p ∧ p.index = n
  · obtain ⟨p, hp, hm, rfl⟩ := hex
    obtain ⟨hst, hcs⟩ := hplanned p hp hm
    have hfree : ∀ c ∈ s.placements, CutoutOf slab p.index c → c.state ≠ .ordered := fun c hc hcut => by
      rw [hcs c hc hcut]; decide
    have hfound : (defectProgress s v slab r p.index).2.placement? slab p.index = some p :=
      (placement?_eq_some hlegal).2 ⟨mem_poolBelow_of_met hp hm (Nat.le_refl _), hm.1, rfl⟩
    have hcount : (poolBelow s slab r p.index).countP (fun c => decide (CutoutOf slab p.index c ∧ c.state ≠ .ordered))
        = s.placements.countP (fun c => decide (CutoutOf slab p.index c)) := by
      unfold poolBelow
      rw [List.countP_filter]
      refine List.countP_congr (fun c hc => ?_)
      rw [Bool.and_eq_true, decide_eq_true_iff, decide_eq_true_iff, decide_eq_true_iff]
      refine ⟨fun h => h.1.1, fun hcut => ⟨⟨hcut, hfree c hc hcut⟩, fun h => ?_, ?_⟩⟩
      · have := h.1.2.1
        rw [hcut.2.1] at this
        cases this
      · rintro ⟨q, hq, ⟨hmq, hlt⟩, hcq⟩
        have := Option.some.inj (hcut.2.2.symm.trans hcq.2.2)
        omega
    unfold dropMet
    rw [hfound]
    dsimp only
    rw [if_pos (by simp [hm.2.1, hm.2.2, hst]), removePiece_cutouts, removePiece_eq hlegal]
    unfold defectProgress
    dsimp only
    rw [hcount, poolBelow_succ_of_met hl hp hm hfree, metBelow_succ_of_met hl hp hm, List.length_append, List.map_append,
      ← List.append_assoc]
    rfl
  · have hn : ∀ p ∈ s.placements, Met slab r p → p.index ≠ n := fun p hp hm e => hex ⟨p, hp, hm, e⟩
    have hsame : dropMet slab r (defectProgress s v slab r n) n = defectProgress s v slab r n := by
      unfold dropMet
      cases hq : (defectProgress s v slab r n).2.placement? slab n with
      | none => rfl
      | some q =>
        obtain ⟨hmem, hslab, hindex⟩ := (placement?_eq_some hlegal).1 hq
        have hq' : q ∈ s.placements := (List.mem_filter.1 hmem).1
        refine if_neg (fun hc => ?_)
        rw [Bool.and_eq_true, Bool.and_eq_true] at hc
        exact hn q hq' ⟨hslab, hc.1.1, hc.2⟩ hindex
    rw [hsame]
    unfold defectProgress
    rw [metBelow_succ_of_not hn, poolBelow_succ_of_not hn]

theorem foldl_dropMet (hl : PlacementsLegal s.placements)
    (hplanned : ∀ p ∈ s.placements, Met slab r p → p.state = .planned
      ∧ ∀ c ∈ s.placements, CutoutOf slab p.index c → c.state = .planned) (v : State) (n : Nat) :
    (List.range n).foldl (dropMet slab r) (defectProgress s v slab r 0) = defectProgress s v slab r n := by
  induction n with
  | zero => rfl
  | succ n ih => rw [List.range_succ, List.foldl_append, ih, List.foldl_cons, List.foldl_nil, dropMet_progress hl hplanned]

theorem defectProgress_zero {v : State} (hv : v.placements = s.placements) : defectProgress s v slab r 0 = (0, v) := by
  have hmet : metBelow s slab r 0 = [] := List.filter_eq_nil_iff.2 (fun p _ h => absurd (of_decide_eq_true h) (Nat.not_lt_zero _))
  have hpool : poolBelow s slab r 0 = v.placements := by
    rw [hv]
    refine List.filter_eq_self.2 (fun p _ => decide_eq_true ⟨fun h => Nat.not_lt_zero _ h.2, ?_⟩)
    rintro ⟨q, -, ⟨-, hlt⟩, -⟩
    exact Nat.not_lt_zero _ hlt
  unfold defectProgress
  rw [hmet, hpool, List.map_nil, List.append_nil]
  rfl

theorem metBelow_all (hl : PlacementsLegal s.placements) :
    metBelow s slab r 12 = s.placements.filter (fun p => decide (Met slab r p)) :=
  List.filter_eq_self.2 (fun p hp => by
    have := hl.2.2 p (List.mem_filter.1 hp).1
    simp; omega)

theorem poolBelow_all (hl : PlacementsLegal s.placements) : poolBelow s slab r 12
    = s.placements.filter (fun p => decide (¬ Met slab r p ∧ ¬ ∃ q ∈ s.placements, Met slab r q ∧ CutoutOf slab q.index p)) := by
  have hb (q : Placement) (hq : q ∈ s.placements) : (Met slab r q ∧ q.index < 12) ↔ Met slab r q :=
    and_iff_left (by have := hl.2.2 q hq; omega)
  refine List.filter_congr (fun p hp => decide_eq_decide.2 (and_congr (not_congr (hb p hp)) (not_congr ?_)))
  exact exists_congr (fun q => and_congr_right (fun hq => and_congr_left (fun _ => hb q hq)))

/-! ### Its checks -/

theorem orderedConflict_eq : s.orderedConflict slab r
    = s.lowest slab (fun p => decide (p.kind.isPiece = true ∧ p.state ≠ .planned ∧ p.meetsRect r = true)) := by
  unfold State.orderedConflict
  congr 1
  funext p
  simp [Bool.and_assoc]

theorem committed_iff {p : Placement} : s.committed p = true ↔ p.kind.isPiece = true ∧ p.state = .planned
    ∧ ∃ c ∈ s.placements, CutoutOf p.slab p.index c ∧ c.state ≠ .planned := by
  unfold State.committed
  rw [cutoutsOf_eq, Bool.and_eq_true, Bool.and_eq_true, decide_eq_true_iff, List.any_eq_true, and_assoc]
  simp only [List.mem_filter, decide_eq_true_eq, and_assoc]

theorem slabAddDefect_open (hx : s.slab? slab = some x) (hst : x.state.isStock = true)
    (hv : validDefect x.length x.width r = true) (hd : x.defects.length < 4) {a : Reply × State}
    (ha : (match s.orderedConflict slab r with
      | some i => (Reply.reject .defectConflict (u8 i), s)
      | none => match s.committedConflict slab r with
        | some i => (Reply.reject .defectConflict (u8 i), s)
        | none =>
          let q := (List.range maxPerSlab).foldl (dropMet slab r)
            (0, s.modifySlab slab (fun x => { x with defects := x.defects ++ [r] }))
          (Reply.answer (u8 x.defects.length ++ count q.1), q.2)) = a) : slabAddDefect slab r s = a := by
  unfold slabAddDefect
  rw [onEditable_some hx (ne_reserved_of_isStock hst), if_neg (by simp [hst]), if_neg (by simp [hv]),
    if_neg (by unfold maxDefects; omega)]
  exact ha

theorem slabAddDefect_ordered {i : Nat} (hx : s.slab? slab = some x) (hst : x.state.isStock = true)
    (hv : validDefect x.length x.width r = true) (hd : x.defects.length < 4) (ho : s.orderedConflict slab r = some i) :
    slabAddDefect slab r s = (.reject .defectConflict (u8 i), s) :=
  slabAddDefect_open hx hst hv hd (by rw [ho])

theorem slabAddDefect_committed {i : Nat} (hx : s.slab? slab = some x) (hst : x.state.isStock = true)
    (hv : validDefect x.length x.width r = true) (hd : x.defects.length < 4) (ho : s.orderedConflict slab r = none)
    (hc : s.committedConflict slab r = some i) : slabAddDefect slab r s = (.reject .defectConflict (u8 i), s) :=
  slabAddDefect_open hx hst hv hd (by rw [ho, hc])

theorem slabAddDefect_done {a : Nat × State} (hx : s.slab? slab = some x) (hst : x.state.isStock = true)
    (hv : validDefect x.length x.width r = true) (hd : x.defects.length < 4) (ho : s.orderedConflict slab r = none)
    (hc : s.committedConflict slab r = none)
    (ha : (List.range 12).foldl (dropMet slab r)
      (0, s.modifySlab slab (fun x => { x with defects := x.defects ++ [r] })) = a) :
    slabAddDefect slab r s = (.answer (u8 x.defects.length ++ count a.1), a.2) :=
  slabAddDefect_open hx hst hv hd (by rw [ho, hc, ← ha]; rfl)

theorem slabAddDefect_notStock (hx : s.slab? slab = some x) (hst : x.state.isStock = false) :
    slabAddDefect slab r s = (.reject .slabState [], s) :=
  onEditable_notStock hx (if_pos hst)

theorem slabAddDefect_malformed (hx : s.slab? slab = some x) (hst : x.state.isStock = true)
    (hv : ¬ validDefect x.length x.width r = true) : slabAddDefect slab r s = (.reject .form [], s) := by
  unfold slabAddDefect
  rw [onEditable_some hx (ne_reserved_of_isStock hst), if_neg (by simp [hst]), if_pos (Bool.not_eq_true _ ▸ hv)]
  rfl

theorem slabAddDefect_full (hx : s.slab? slab = some x) (hst : x.state.isStock = true)
    (hv : validDefect x.length x.width r = true) (hd : 4 ≤ x.defects.length) :
    slabAddDefect slab r s = (.reject .tableFull [], s) := by
  unfold slabAddDefect
  rw [onEditable_some hx (ne_reserved_of_isStock hst), if_neg (by simp [hst]), if_neg (by simp [hv]), if_pos (show maxDefects ≤ _ from hd)]
  rfl

end

/-! ## UNPLACE (R34) -/

section
variable {slab index : Nat} {s : State} {p : Placement}

theorem unplace_noSlab (h : s.slab? slab = none) : unplace slab index s = (.reject .noSlab [], s) := by
  unfold unplace
  rw [h]
  rfl

theorem unplace_absent (hx : s.slab? slab ≠ none) (hp : s.placement? slab index = none) :
    unplace slab index s = (.reject .placementState [], s) := by
  obtain ⟨x, hx⟩ := Option.ne_none_iff_exists'.1 hx
  unfold unplace
  rw [hx, hp]
  rfl

theorem unplace_notPlanned (hx : s.slab? slab ≠ none) (hp : s.placement? slab index = some p) (hst : p.state ≠ .planned) :
    unplace slab index s = (.reject .placementState [], s) := by
  obtain ⟨x, hx⟩ := Option.ne_none_iff_exists'.1 hx
  unfold unplace
  rw [hx, hp]
  exact if_pos hst

theorem unplace_committed {i : Nat} (hx : s.slab? slab ≠ none) (hp : s.placement? slab index = some p)
    (hst : p.state = .planned) (hc : s.committed p = true) (hb : s.busyCutout slab index = some i) :
    unplace slab index s = (.reject .placementState (u8 i), s) := by
  obtain ⟨x, hx⟩ := Option.ne_none_iff_exists'.1 hx
  unfold unplace
  rw [hx, hp]
  dsimp only
  rw [if_neg (not_not_intro hst), if_pos hc, hb]

theorem unplace_removed (hx : s.slab? slab ≠ none) (hp : s.placement? slab index = some p)
    (hst : p.state = .planned) (hc : ¬ s.committed p = true) : unplace slab index s
      = (.answer (count (s.removePlacement p).1.cutouts ++ opt u32 p.remnantSlab), (s.removePlacement p).2) := by
  obtain ⟨x, hx⟩ := Option.ne_none_iff_exists'.1 hx
  unfold unplace
  rw [hx, hp]
  exact (if_neg (not_not_intro hst)).trans (if_neg hc)

theorem removePlacement_piece (hk : p.kind.isPiece = true) : s.removePlacement p = s.removePiece p.slab p.index := by
  unfold State.removePlacement
  rcases isPiece_iff.1 hk with h | h <;> rw [h]

theorem removePlacement_cutout (hk : p.kind = .cutout) :
    s.removePlacement p = (⟨1, 0, 0⟩, s.freePlacement p.slab p.index) := by
  unfold State.removePlacement
  rw [hk]

theorem removePlacement_remnant {n : Nat} (hk : p.kind = .remnant) (hn : p.remnantSlab = some n) :
    s.removePlacement p = (⟨1, 0, 0⟩, (s.freePlacement p.slab p.index).freeSlab n) := by
  unfold State.removePlacement
  rw [hk, hn]

theorem freePlacement_eq (slab index : Nat) (s : State) : s.freePlacement slab index
    = { s with placements := s.placements.filter (fun q => decide (¬ (q.slab = slab ∧ q.index = index))) } := by
  unfold State.freePlacement
  congr 1
  refine List.filter_congr (fun q _ => ?_)
  rw [Bool.eq_iff_iff, Bool.not_eq_true', ← Bool.not_eq_true, at_iff, decide_eq_true_iff]

end

/-- Settles O25. -/
theorem addDefectAndUnplaceRemovePlans : Obligations.AddDefectAndUnplaceRemovePlans := by
  constructor
  · intro h copy slab r s i hb hp u refused met under busy committed
    have hl : PlacementsLegal s.placements := hb.placements
    have hrefused {y : Reason} {d : List Byte} (hgo : slabAddDefect slab r u = (.reject y d, u)) : refused y d :=
      exec_of_block rfl hp hgo
    refine ⟨fun hx => hrefused (onEditable_none hx), fun x hx => ?_⟩
    intro valid
    have hvalid : validDefect x.length x.width r = true ↔ valid := validDefect_iff
    have hordered (hno : ∀ q ∈ s.placements, ¬ busy q) : u.orderedConflict slab r = none := by
      rw [orderedConflict_eq]
      refine lowest_none (fun q hq hs => decide_eq_false (fun hc => hno q hq ⟨⟨hs, hc.1, hc.2.2⟩, hc.2.1⟩))
    refine ⟨fun hst => hrefused (slabAddDefect_notStock hx hst),
      fun hst hv => hrefused (slabAddDefect_malformed hx hst (mt hvalid.1 hv)),
      fun hst hv hd => hrefused (slabAddDefect_full hx hst (hvalid.2 hv) hd), ?_, ?_, ?_⟩
    · intro p hmem hst hv hd hbusy hmin
      refine hrefused (slabAddDefect_ordered hx hst (hvalid.2 hv) hd ?_)
      rw [orderedConflict_eq]
      refine lowest_some hl hmem hbusy.1.1 (decide_eq_true ⟨hbusy.1.2.1, hbusy.2, hbusy.1.2.2⟩) (fun q hq hs hc => ?_)
      obtain ⟨hk, hne, hm⟩ := of_decide_eq_true hc
      exact hmin q hq ⟨⟨hs, hk, hm⟩, hne⟩
    · intro p hmem hst hv hd hno hcom hmin
      refine hrefused (slabAddDefect_committed hx hst (hvalid.2 hv) hd (hordered hno) ?_)
      have hiff {q : Placement} (hs : q.slab = slab) : (u.committed q && q.meetsRect r) = true ↔ committed q := by
        rw [Bool.and_eq_true, committed_iff, hs]
        exact ⟨fun e => ⟨⟨hs, e.1.1, e.2⟩, e.1.2.1, e.1.2.2⟩, fun e => ⟨⟨e.1.2.1, e.2.1, e.2.2⟩, e.1.2.2⟩⟩
      exact lowest_some hl hmem hcom.1.1 ((hiff hcom.1.1).2 hcom) (fun q hq hs hc => hmin q hq ((hiff hs).1 hc))
    · intro hst hv hd hno dropped
      have hplanned : ∀ p ∈ s.placements, Met slab r p → p.state = .planned
          ∧ ∀ c ∈ s.placements, CutoutOf slab p.index c → c.state = .planned := fun p hmem hm => by
        obtain ⟨hnb, hnc⟩ := hno p hmem
        have hst : p.state = .planned := Classical.byContradiction (fun hc => hnb ⟨hm, hc⟩)
        exact ⟨hst, fun c hc hcut => Classical.byContradiction (fun hne => hnc ⟨hm, hst, c, hc, hcut, hne⟩)⟩
      have hcommitted : u.committedConflict slab r = none := by
        refine lowest_none (fun q hq hs => Bool.eq_false_iff.2 (fun hc => ?_))
        rw [Bool.and_eq_true, committed_iff, hs] at hc
        exact (hno q hq).2 ⟨⟨hs, hc.1.1, hc.2⟩, hc.1.2.1, hc.1.2.2⟩
      have hfold := foldl_dropMet hl hplanned (u.modifySlab slab (fun x => { x with defects := x.defects ++ [r] })) 12
      rw [defectProgress_zero (s := s) (v := u.modifySlab slab _) rfl] at hfold
      have hdone := slabAddDefect_done (s := u) hx hst (hvalid.2 hv) hd (hordered (fun q hq => (hno q hq).1)) hcommitted hfold
      refine exec_of_block rfl hp (hdone.trans ?_)
      unfold defectProgress
      rw [metBelow_all hl, poolBelow_all hl]
      rfl
  · intro h copy slab index s i hb hp u refused mine
    have hl : PlacementsLegal s.placements := hb.placements
    refine ⟨fun hx => exec_of_block rfl hp (unplace_noSlab hx), fun hx hpl => exec_of_block rfl hp (unplace_absent hx hpl),
      fun p hx hpl => ?_⟩
    intro left
    obtain ⟨hmem, hslab, hindex⟩ := (placement?_eq_some hl).1 hpl
    have hcom : u.committed p = true ↔ p.kind.isPiece = true ∧ p.state = .planned
        ∧ ∃ c ∈ s.placements, mine c ∧ c.state ≠ .planned := by
      rw [committed_iff, hslab, hindex]
      rfl
    have hfree : u.freePlacement p.slab p.index = { u with placements := left } := by
      rw [freePlacement_eq, hslab, hindex]
      rfl
    refine ⟨fun hst => exec_of_block rfl hp (unplace_notPlanned hx hpl hst), ?_, ?_, ?_, ?_⟩
    · intro c hc hst hk hm hne hmin
      refine exec_of_block rfl hp (unplace_committed (s := u) hx hpl hst (hcom.2 ⟨hk, hst, c, hc, hm, hne⟩) ?_)
      have hiff {d : Placement} (hs : d.slab = slab) : (decide (d.kind = .cutout) && decide (d.parentIndex = some index)
          && decide (d.state ≠ .planned)) = true ↔ mine d ∧ d.state ≠ .planned := by
        rw [Bool.and_eq_true, Bool.and_eq_true, decide_eq_true_iff, decide_eq_true_iff, decide_eq_true_iff]
        exact ⟨fun e => ⟨⟨hs, e.1.1, e.1.2⟩, e.2⟩, fun e => ⟨⟨e.1.2.1, e.1.2.2⟩, e.2⟩⟩
      exact lowest_some hl hc hm.1 ((hiff hm.1).2 ⟨hm, hne⟩) (fun d hd hs hcd =>
        hmin d hd ((hiff hs).1 hcd).1 ((hiff hs).1 hcd).2)
    · intro hst hk hcs
      have hnot : ¬ u.committed p = true := fun hc => by
        obtain ⟨-, -, c, hc, hm, hne⟩ := hcom.1 hc
        exact hne (hcs c hc hm)
      have hunordered : ∀ c ∈ s.placements, CutoutOf slab index c → c.state ≠ .ordered := fun c hc hm => by
        rw [hcs c hc hm]; decide
      refine exec_of_block rfl hp ((unplace_removed (s := u) hx hpl hst hnot).trans ?_)
      have hpool : left.filter (fun q => decide (¬ mine q)) = u.placements.filterMap (afterRemoval slab index) := by
        rw [filterMap_afterRemoval (l := u.placements) hunordered, List.filter_filter]
        refine List.filter_congr (fun q _ => ?_)
        rw [← Bool.decide_and, decide_eq_decide, not_or, and_comm]
      have hcount : s.placements.countP (fun c => decide (mine c))
          = u.placements.countP (fun c => decide (CutoutOf slab index c ∧ c.state ≠ .ordered)) :=
        List.countP_congr (fun c hc => by
          rw [decide_eq_true_iff, decide_eq_true_iff]
          exact ⟨fun e => ⟨e, hunordered c hc e⟩, fun e => e.1⟩)
      rw [removePlacement_piece hk, hslab, hindex, removePiece_cutouts, removePiece_eq (s := u) hl, hpool, hcount]
    · intro hst hk
      have hnot : ¬ u.committed p = true := fun hc => by
        have := (hcom.1 hc).1
        rw [hk] at this
        cases this
      refine exec_of_block rfl hp ((unplace_removed (s := u) hx hpl hst hnot).trans ?_)
      rw [removePlacement_cutout hk, hfree]
    · intro n hst hk hn
      have hnot : ¬ u.committed p = true := fun hc => by
        have := (hcom.1 hc).1
        rw [hk] at this
        cases this
      refine exec_of_block rfl hp ((unplace_removed (s := u) hx hpl hst hnot).trans ?_)
      rw [removePlacement_remnant hk hn, hfree, hn]
      rfl

end Sys2Proof.Proofs
end

