-- ==== Sys2Proof/Proofs/Closes.lean ====
section
/-! SUPPORT. JOB CLOSE: the removal of a job's plan as one pass over the pool, and the job's closing. Settles O58. -/

namespace Sys2Proof.Proofs

open Sys2Proof Sys2Proof.Config Sys2Proof.Machine

/-! ## The pool after a list of removals (R35, R138) -/

/-- One entry of the pool when the placements of `L` are removed, pieces with their cutouts. -/
def afterDrops (L : List Placement) (q : Placement) : Option Placement :=
  if ∃ p ∈ L, q.slab = p.slab ∧ q.index = p.index then none
  else if ∃ p ∈ L, p.kind.isPiece = true ∧ CutoutOf p.slab p.index q then leftOf q else some q

section
variable {l L : List Placement} {p q r : Placement} {s v : State} {job : Nat}

theorem afterRemoval_names {slab index : Nat} (h : afterRemoval slab index q = some r) : r.slab = q.slab ∧ r.index = q.index := by
  unfold afterRemoval at h
  split at h
  · cases h
  · split at h
    · obtain ⟨-, rfl⟩ := leftOf_some h
      exact ⟨rfl, rfl⟩
    · cases h
      exact ⟨rfl, rfl⟩

theorem afterDrops_cases (h : afterDrops L q = some r) : r = q ∨ (q.state = .ordered ∧ r = { q with parentIndex := none }) := by
  unfold afterDrops at h
  split at h
  · cases h
  · split at h
    · exact .inr (leftOf_some h)
    · exact .inl (Option.some.inj h).symm

theorem afterDrops_names (h : afterDrops L q = some r) : r.slab = q.slab ∧ r.index = q.index := by
  rcases afterDrops_cases h with rfl | ⟨-, rfl⟩ <;> exact ⟨rfl, rfl⟩

/-- A pool passed through entry by entry, each kept in its place or gone, is bounded again. -/
theorem placementsLegal_filterMap {f : Placement → Option Placement}
    (hf : ∀ q r, f q = some r → r.slab = q.slab ∧ r.index = q.index) (hl : PlacementsLegal l) :
    PlacementsLegal (l.filterMap f) := by
  refine ⟨?_, (List.length_filterMap_le _ _).trans hl.2.1, fun r hr => ?_⟩
  · rw [Rising, List.pairwise_filterMap]
    refine hl.1.imp (fun {a b} hab r hr t ht => ?_)
    obtain ⟨hs, hi⟩ := hf a r hr
    obtain ⟨hs', hi'⟩ := hf b t ht
    unfold Placement.key at hab ⊢
    rw [hs, hi, hs', hi']
    exact hab
  · obtain ⟨q, hq, hqr⟩ := List.mem_filterMap.1 hr
    rw [(hf q r hqr).2]
    exact hl.2.2 q hq

/-- What a pool holds in a place after such a pass. -/
theorem placement?_filterMap {f : Placement → Option Placement}
    (hf : ∀ q r, f q = some r → r.slab = q.slab ∧ r.index = q.index) (hl : PlacementsLegal l) (hp : p ∈ l)
    (hv : v.placements = l.filterMap f) : v.placement? p.slab p.index = f p := by
  have hlv : PlacementsLegal v.placements := hv ▸ placementsLegal_filterMap hf hl
  cases hfp : f p with
  | none =>
    rw [placement?_eq_none]
    rintro r hr ⟨hs, hi⟩
    rw [hv] at hr
    obtain ⟨q, hq, hqr⟩ := List.mem_filterMap.1 hr
    obtain ⟨hs', hi'⟩ := hf q r hqr
    rw [placement_unique hl hq hp (hs'.symm.trans hs) (hi'.symm.trans hi), hfp] at hqr
    cases hqr
  | some r =>
    obtain ⟨hs, hi⟩ := hf p r hfp
    rw [placement?_eq_some hlv, hv]
    exact ⟨List.mem_filterMap.2 ⟨p, hp, hfp⟩, hs, hi⟩

theorem afterDrops_of_planned (hp : p.state = .planned) (h : afterDrops L p = some r) : r = p := by
  rcases afterDrops_cases h with rfl | ⟨ho, -⟩
  · rfl
  · rw [hp] at ho
    cases ho

/-- A piece is left by the removal of others. -/
theorem afterDrops_of_piece (hk : p.kind ≠ .cutout) (hno : ∀ y ∈ L, ¬ (p.slab = y.slab ∧ p.index = y.index)) :
    afterDrops L p = some p := by
  unfold afterDrops
  rw [if_neg (by rintro ⟨y, hy, e⟩; exact hno y hy e), if_neg (by rintro ⟨y, -, -, -, hc, -⟩; exact hk hc)]

theorem exists_mem_snoc {P : Placement → Prop} : (∃ y ∈ L ++ [p], P y) ↔ (∃ y ∈ L, P y) ∨ P p := by
  simp only [List.mem_append, List.mem_singleton]
  constructor
  · rintro ⟨y, hy | rfl, hP⟩
    · exact .inl ⟨y, hy, hP⟩
    · exact .inr hP
  · rintro (⟨y, hy, hP⟩ | hP)
    · exact ⟨y, .inl hy, hP⟩
    · exact ⟨p, .inr rfl, hP⟩

theorem afterDrops_snoc : afterDrops (L ++ [p]) q
    = if (∃ y ∈ L, q.slab = y.slab ∧ q.index = y.index) ∨ (q.slab = p.slab ∧ q.index = p.index) then none
      else if (∃ y ∈ L, y.kind.isPiece = true ∧ CutoutOf y.slab y.index q)
        ∨ (p.kind.isPiece = true ∧ CutoutOf p.slab p.index q) then leftOf q else some q :=
  if_congr exists_mem_snoc rfl (if_congr exists_mem_snoc rfl rfl)

/-- The removal of one more piece. -/
theorem afterDrops_snoc_piece (hk : p.kind.isPiece = true) (hst : p.state = .planned)
    (hq : q.slab = p.slab ∧ q.index = p.index → q = p) :
    (afterDrops L q).bind (afterRemoval p.slab p.index) = afterDrops (L ++ [p]) q := by
  rw [afterDrops_snoc]
  unfold afterDrops
  by_cases hat : ∃ y ∈ L, q.slab = y.slab ∧ q.index = y.index
  · rw [if_pos hat, if_pos (.inl hat)]
    rfl
  · rw [if_neg hat]
    by_cases hp : q.slab = p.slab ∧ q.index = p.index
    · rw [if_pos (Or.inr hp)]
      have hleft : leftOf q = none := by
        unfold leftOf
        rw [hq hp, if_neg (by rw [hst]; decide)]
      split
      · rw [hleft]
        rfl
      · rw [Option.bind_some, afterRemoval, if_pos hp]
    · rw [if_neg (not_or.2 ⟨hat, hp⟩)]
      by_cases hu : ∃ y ∈ L, y.kind.isPiece = true ∧ CutoutOf y.slab y.index q
      · rw [if_pos hu, if_pos (.inl hu)]
        unfold leftOf
        split
        · rw [Option.bind_some, afterRemoval, if_neg hp, if_neg (fun hc => by cases hc.2.2)]
        · rfl
      · rw [if_neg hu, Option.bind_some, afterRemoval, if_neg hp]
        exact if_congr ⟨fun h => .inr ⟨hk, h⟩, fun h => (h.resolve_left hu).2⟩ rfl rfl

/-- The removal of one more cutout alone. -/
theorem afterDrops_snoc_cutout (hk : p.kind = .cutout) :
    (afterDrops L q).bind (fun r => if r.slab = p.slab ∧ r.index = p.index then none else some r)
      = afterDrops (L ++ [p]) q := by
  have hpiece : ¬ (p.kind.isPiece = true ∧ CutoutOf p.slab p.index q) := fun h => by
    rw [hk] at h
    cases h.1
  rw [afterDrops_snoc, if_congr (or_iff_left hpiece) rfl rfl]
  unfold afterDrops
  by_cases hat : ∃ y ∈ L, q.slab = y.slab ∧ q.index = y.index
  · rw [if_pos hat, if_pos (.inl hat)]
    rfl
  · rw [if_neg hat]
    by_cases hp : q.slab = p.slab ∧ q.index = p.index
    · rw [if_pos (Or.inr hp)]
      split
      · unfold leftOf
        split
        · exact if_pos hp
        · rfl
      · exact if_pos hp
    · rw [if_neg (not_or.2 ⟨hat, hp⟩)]
      split
      · unfold leftOf
        split
        · exact if_neg hp
        · rfl
      · exact if_neg hp

/-- A cutout that went with its parent is no removal more. -/
theorem afterDrops_snoc_gone (hk : ¬ p.kind.isPiece = true) (hgone : afterDrops L p = none)
    (hq : q.slab = p.slab ∧ q.index = p.index → q = p) : afterDrops L q = afterDrops (L ++ [p]) q := by
  by_cases hp : q.slab = p.slab ∧ q.index = p.index
  · rw [afterDrops_snoc, if_pos (.inr hp), hq hp, hgone]
  · rw [afterDrops_snoc]
    exact if_congr (or_iff_left hp).symm rfl (if_congr (or_iff_left (fun h => hk h.1)).symm rfl rfl)

end

/-! ## JOB CLOSE's pass (R138) -/

section
variable {s v : State} {job : Nat} {p : Placement} {L : List Placement} {a : Removal}

/-- A PLANNED placement that names the job. -/
abbrev Dropped (job : Nat) (p : Placement) : Prop := p.job = some job ∧ p.state = .planned

/-- A cutout of a piece or mitre so removed. -/
abbrev UnderDropped (s : State) (job : Nat) (c : Placement) : Prop :=
  c.kind = .cutout ∧ ∃ p ∈ s.placements, Dropped job p ∧ p.kind.isPiece = true ∧ p.slab = c.slab ∧ c.parentIndex = some p.index

/-- What JOB CLOSE has done when it has gone through the placements of `L`. -/
structure DropsDone (s v : State) (job : Nat) (a : Removal) (L : List Placement) : Prop where
  placements : v.placements = s.placements.filterMap (afterDrops L)
  slabs : v.slabs = s.slabs
  removed : a.removed + v.placements.length = s.placements.length
  detached : a.detached + v.placements.countP (fun c => decide (UnderDropped s job c ∧ c.state = .ordered))
    = s.placements.countP (fun c => decide (UnderDropped s job c ∧ c.state = .ordered))

theorem DropsDone.start (s : State) (job : Nat) : DropsDone s s job ⟨0, 0, 0⟩ [] where
  placements := by
    have : afterDrops [] = some := funext (fun q => by simp [afterDrops])
    rw [this, List.filterMap_some]
  slabs := rfl
  removed := Nat.zero_add _
  detached := Nat.zero_add _

theorem freePlacement_filterMap (slab index : Nat) (s : State) : (s.freePlacement slab index).placements
    = s.placements.filterMap (fun r => if r.slab = slab ∧ r.index = index then none else some r) := by
  rw [freePlacement_eq, ← List.filterMap_eq_filter]
  refine List.filterMap_congr (fun q _ => ?_)
  unfold Option.guard
  by_cases e : q.slab = slab ∧ q.index = index
  · rw [if_pos e, if_neg (fun h : decide (¬ (q.slab = slab ∧ q.index = index)) = true => of_decide_eq_true h e)]
  · rw [if_neg e, if_pos (decide_eq_true e)]

/-- One placement of the plan that still stands. -/
theorem DropsDone.piece (hl : PlacementsLegal s.placements) (h : DropsDone s v job a L) (hp : p ∈ s.placements)
    (hd : Dropped job p) (hk : p.kind.isPiece = true) (hfound : v.placement? p.slab p.index = some p) :
    DropsDone s (v.removePiece p.slab p.index).2 job (a.plus (v.removePiece p.slab p.index).1) (L ++ [p]) := by
  have hlv : PlacementsLegal v.placements := h.placements ▸ placementsLegal_filterMap (fun _ _ => afterDrops_names) hl
  have hnc : p.kind ≠ .cutout := fun hc => by rw [hc] at hk; cases hk
  refine ⟨?_, (removePiece_slabs _ _ _).trans h.slabs, ?_, ?_⟩
  · rw [removePiece_placements hlv, h.placements, List.filterMap_filterMap]
    exact List.filterMap_congr (fun q hq => afterDrops_snoc_piece hk hd.2 (fun e => placement_unique hl hq hp e.1 e.2))
  · have := length_removePiece hlv hfound hnc
    have := h.removed
    show a.removed + (v.removePiece p.slab p.index).1.removed + _ = _
    omega
  · have hsplit : v.placements.countP (fun c => decide (UnderDropped s job c ∧ c.state = .ordered))
        = v.placements.countP (fun q => ((afterRemoval p.slab p.index q).map
            (fun c => decide (UnderDropped s job c ∧ c.state = .ordered))).getD false)
          + v.placements.countP (fun c => decide (CutoutOf p.slab p.index c ∧ c.state = .ordered)) := by
      refine countP_split (fun q hq => ?_)
      unfold afterRemoval leftOf
      by_cases hat : q.slab = p.slab ∧ q.index = p.index
      · have hqp : q = p := placement_unique hlv hq (List.mem_of_find?_eq_some hfound) hat.1 hat.2
        rw [if_pos hat, hqp, decide_eq_false (fun e => hnc e.1.1), decide_eq_false (fun e => hnc e.1.2.1)]
        rfl
      · rw [if_neg hat]
        by_cases hc : CutoutOf p.slab p.index q
        · have hu : UnderDropped s job q := ⟨hc.2.1, p, hp, hd, hk, hc.1.symm, hc.2.2⟩
          rw [if_pos hc]
          by_cases ho : q.state = .ordered
          · have hno : ¬ (UnderDropped s job { q with parentIndex := none } ∧ q.state = .ordered) := by
              rintro ⟨⟨-, y, -, -, -, -, hy⟩, -⟩
              cases hy
            rw [if_pos ho, Option.map_some, Option.getD_some, decide_eq_false hno, decide_eq_true (And.intro hu ho),
              decide_eq_true (And.intro hc ho)]
            rfl
          · rw [if_neg ho, decide_eq_false (fun e => ho e.2), decide_eq_false (fun e => ho e.2)]
            rfl
        · rw [if_neg hc, Option.map_some, Option.getD_some, decide_eq_false (fun e : _ ∧ _ => hc e.1)]
          rfl
    have := h.detached
    rw [removePiece_placements hlv, List.countP_filterMap]
    show a.detached + (v.removePiece p.slab p.index).1.detached + _ = _
    rw [removePiece_detached]
    omega

theorem DropsDone.cutout (hl : PlacementsLegal s.placements) (h : DropsDone s v job a L)
    (hd : Dropped job p) (hk : p.kind = .cutout) (hfound : v.placement? p.slab p.index = some p) :
    DropsDone s (v.freePlacement p.slab p.index) job (a.plus ⟨1, 0, 0⟩) (L ++ [p]) := by
  have hlv : PlacementsLegal v.placements := h.placements ▸ placementsLegal_filterMap (fun _ _ => afterDrops_names) hl
  have hat {q : Placement} (hq : q ∈ v.placements) : (q.slab = p.slab ∧ q.index = p.index) ↔ q = p :=
    ⟨fun e => placement_unique hlv hq (List.mem_of_find?_eq_some hfound) e.1 e.2, fun e => by rw [e]; exact ⟨rfl, rfl⟩⟩
  refine ⟨?_, h.slabs, ?_, ?_⟩
  · rw [freePlacement_filterMap, h.placements, List.filterMap_filterMap]
    exact List.filterMap_congr (fun q _ => afterDrops_snoc_cutout hk)
  · have hone : v.placements.countP (fun q => decide (q.slab = p.slab ∧ q.index = p.index)) = 1 :=
      countP_eq_one (placements_nodup hlv) (List.mem_of_find?_eq_some hfound)
        (fun q hq => decide_eq_true_iff.trans (hat hq))
    have hall : v.placements.countP (fun _ => true)
        = v.placements.countP (fun q => decide (¬ (q.slab = p.slab ∧ q.index = p.index)))
          + v.placements.countP (fun q => decide (q.slab = p.slab ∧ q.index = p.index)) :=
      countP_split (fun q _ => by by_cases e : q.slab = p.slab ∧ q.index = p.index <;> simp [e])
    have := h.removed
    rw [List.countP_true] at hall
    rw [freePlacement_eq]
    show a.removed + 1 + (v.placements.filter _).length = _
    rw [← List.countP_eq_length_filter]
    omega
  · have hsame : (v.freePlacement p.slab p.index).placements.countP
          (fun c => decide (UnderDropped s job c ∧ c.state = .ordered))
        = v.placements.countP (fun c => decide (UnderDropped s job c ∧ c.state = .ordered)) := by
      rw [freePlacement_eq]
      show (v.placements.filter _).countP _ = _
      rw [List.countP_filter]
      refine List.countP_congr (fun q hq => ?_)
      rw [Bool.and_eq_true, decide_eq_true_iff, decide_eq_true_iff, and_iff_left_iff_imp, hat hq]
      rintro ⟨-, ho⟩ rfl
      rw [hd.2] at ho
      cases ho
    rw [hsame]
    exact h.detached

/-- A cutout of the plan that went with its parent. -/
theorem DropsDone.gone (hl : PlacementsLegal s.placements) (h : DropsDone s v job a L) (hp : p ∈ s.placements)
    (hk : ¬ p.kind.isPiece = true) (hgone : afterDrops L p = none) : DropsDone s v job a (L ++ [p]) := by
  refine ⟨?_, h.slabs, h.removed, h.detached⟩
  rw [h.placements]
  exact List.filterMap_congr (fun q hq =>
    afterDrops_snoc_gone hk hgone (fun e => placement_unique hl hq hp e.1 e.2))

theorem dropPlanned_none (hp : v.placement? p.slab p.index = none) : dropPlanned (a, v) p = (a, v) := by
  unfold dropPlanned
  dsimp only
  rw [hp]

theorem dropPlanned_planned {q : Placement} (hp : v.placement? p.slab p.index = some q) (hq : q.state = .planned) :
    dropPlanned (a, v) p = (a.plus (v.removePlacement q).1, (v.removePlacement q).2) := by
  unfold dropPlanned
  dsimp only
  rw [hp]
  exact if_pos hq

theorem DropsDone.step (hl : PlacementsLegal s.placements) (h : DropsDone s v job a L) (hp : p ∈ s.placements)
    (hd : Dropped job p) (hk : p.kind ≠ .remnant) (hnew : ∀ y ∈ L, ¬ (p.slab = y.slab ∧ p.index = y.index)) :
    DropsDone s (dropPlanned (a, v) p).2 job (dropPlanned (a, v) p).1 (L ++ [p]) := by
  have hfound : v.placement? p.slab p.index = afterDrops L p :=
    placement?_filterMap (fun _ _ => afterDrops_names) hl hp h.placements
  by_cases hpiece : p.kind.isPiece = true
  · rw [afterDrops_of_piece (fun hc => by rw [hc] at hpiece; cases hpiece) hnew] at hfound
    rw [dropPlanned_planned hfound hd.2, removePlacement_piece hpiece]
    exact h.piece hl hp hd hpiece hfound
  · have hcut : p.kind = .cutout := by
      cases hkind : p.kind <;> simp_all [PlacementKind.isPiece]
    cases hafter : afterDrops L p with
    | none =>
      rw [dropPlanned_none (hfound.trans hafter)]
      exact h.gone hl hp hpiece hafter
    | some r =>
      rw [hafter, afterDrops_of_planned hd.2 hafter] at hfound
      rw [dropPlanned_planned hfound hd.2, removePlacement_cutout hcut]
      exact h.cutout hl hd hcut hfound

theorem DropsDone.foldl (hl : PlacementsLegal s.placements) (M : List Placement) (h : DropsDone s v job a L)
    (hM : ∀ p ∈ M, p ∈ s.placements ∧ Dropped job p ∧ p.kind ≠ .remnant)
    (hapart : (L ++ M).Pairwise (fun x y => ¬ (x.slab = y.slab ∧ x.index = y.index))) :
    DropsDone s (M.foldl dropPlanned (a, v)).2 job (M.foldl dropPlanned (a, v)).1 (L ++ M) := by
  induction M generalizing L a v with
  | nil => rw [List.append_nil]; exact h
  | cons p ps ih =>
    obtain ⟨hp, hd, hk⟩ := hM p List.mem_cons_self
    have hnew : ∀ y ∈ L, ¬ (p.slab = y.slab ∧ p.index = y.index) := fun y hy e =>
      (List.pairwise_append.1 hapart).2.2 y hy p List.mem_cons_self ⟨e.1.symm, e.2.symm⟩
    have hassoc : L ++ p :: ps = L ++ [p] ++ ps := by simp
    rw [hassoc] at hapart ⊢
    exact ih (h.step hl hp hd hk hnew) (fun q hq => hM q (List.mem_cons_of_mem _ hq)) hapart

/-- R138: what is left of the pool when a job's plan is withdrawn. -/
theorem dropPlanOf_done (hl : PlacementsLegal s.placements) (hrem : ∀ p ∈ s.placements, p.job = some job → p.kind ≠ .remnant) :
    DropsDone s (s.dropPlanOf job).2 job (s.dropPlanOf job).1
      (s.placements.filter (fun p => decide (Dropped job p))) := by
  have hfilter : s.placements.filter (fun p => decide (p.job = some job) && decide (p.state = .planned))
      = s.placements.filter (fun p => decide (Dropped job p)) := List.filter_congr (fun p _ => (Bool.decide_and _ _).symm)
  unfold State.dropPlanOf
  rw [hfilter]
  refine DropsDone.foldl (L := []) hl _ (DropsDone.start s job) (fun p hp => ?_) ?_
  · obtain ⟨hmem, hd⟩ := List.mem_filter.1 hp
    have hd := of_decide_eq_true hd
    exact ⟨hmem, hd, hrem p hmem hd.1⟩
  · exact List.Pairwise.filter _ (placements_apart hl)

theorem exists_dropped_iff {P : Placement → Prop} :
    (∃ p ∈ s.placements.filter (fun p => decide (Dropped job p)), P p) ↔ ∃ p ∈ s.placements, Dropped job p ∧ P p := by
  simp only [List.mem_filter, decide_eq_true_eq, and_assoc]

/-- One entry of the pool when the whole plan is withdrawn. -/
theorem afterPlan_eq (hl : PlacementsLegal s.placements) {q : Placement} (hq : q ∈ s.placements) :
    afterDrops (s.placements.filter (fun p => decide (Dropped job p))) q
      = if Dropped job q then none else if UnderDropped s job q then leftOf q else some q := by
  unfold afterDrops
  refine if_congr (exists_dropped_iff.trans ⟨?_, fun h => ⟨q, hq, h, rfl, rfl⟩⟩) rfl
    (if_congr (exists_dropped_iff.trans ?_) rfl rfl)
  · rintro ⟨p, hp, hd, hs, hi⟩
    rw [placement_unique hl hq hp hs hi]
    exact hd
  · constructor
    · rintro ⟨p, hp, hd, hk, hs, hc, hi⟩
      exact ⟨hc, p, hp, hd, hk, hs.symm, hi⟩
    · rintro ⟨hc, p, hp, hd, hk, hs, hi⟩
      exact ⟨p, hp, hd, hk, hs.symm, hc, hi⟩

theorem mem_afterPlan (hl : PlacementsLegal s.placements) {q : Placement} :
    q ∈ s.placements.filterMap (afterDrops (s.placements.filter (fun p => decide (Dropped job p))))
      ↔ (q ∈ s.placements ∧ ¬ Dropped job q ∧ ¬ UnderDropped s job q)
        ∨ ∃ c ∈ s.placements, UnderDropped s job c ∧ c.state = .ordered ∧ q = { c with parentIndex := none } := by
  rw [List.mem_filterMap]
  constructor
  · rintro ⟨c, hc, hcq⟩
    rw [afterPlan_eq hl hc] at hcq
    split at hcq
    · cases hcq
    · rename_i hd
      split at hcq
      · rename_i hu
        obtain ⟨ho, rfl⟩ := leftOf_some hcq
        exact .inr ⟨c, hc, hu, ho, rfl⟩
      · rename_i hu
        cases hcq
        exact .inl ⟨hc, hd, hu⟩
  · rintro (⟨hq, hd, hu⟩ | ⟨c, hc, hu, ho, rfl⟩)
    · refine ⟨q, hq, ?_⟩
      rw [afterPlan_eq hl hq, if_neg hd, if_neg hu]
    · refine ⟨c, hc, ?_⟩
      rw [afterPlan_eq hl hc, if_neg (fun hd => by rw [hd.2] at ho; cases ho), if_pos hu, leftOf, if_pos ho]

theorem countP_afterPlan (hl : PlacementsLegal s.placements) :
    (s.placements.filterMap (afterDrops (s.placements.filter (fun p => decide (Dropped job p))))).countP
      (fun c => decide (UnderDropped s job c ∧ c.state = .ordered)) = 0 := by
  rw [List.countP_eq_zero]
  intro q hq hc
  obtain ⟨hu, ho⟩ := of_decide_eq_true hc
  rcases (mem_afterPlan hl).1 hq with ⟨-, -, hnu⟩ | ⟨c, -, -, -, rfl⟩
  · exact hnu hu
  · obtain ⟨-, p, -, -, -, -, hp⟩ := hu
    cases hp

/-! ## The job's closing (R139) -/

/-- A job CLOSED under a close number, or CLOSING. -/
def closingJob (number : Option Nat) (y : Job) : Job := match number with
  | some n => { y with state := .closed, closeNumber := some n }
  | none => { y with state := .closing }

/-- The job records when one becomes CLOSING, or CLOSED at once. -/
def jobsClosing (job : Nat) (number : Option Nat) (l : List Job) : List Job := modifyBy Job.id job (closingJob number) l

theorem job?_modifyJob_self {f : Job → Job} (hf : ∀ x, (f x).id = x.id) {j : Job} (hj : s.job? job = some j) :
    (s.modifyJob job f).job? job = some (f j) := by
  rw [job?_modifyJob (fun x _ => hf x), hj, Option.map_some, if_pos (job?_id hj)]

theorem modifyJob_modifyJob {f g : Job → Job} (hf : ∀ x, (f x).id = x.id) (job : Nat) (s : State) :
    (s.modifyJob job f).modifyJob job g = s.modifyJob job (fun x => g (f x)) := by
  have hlist : modifyBy Job.id job g (modifyBy Job.id job f s.jobs) = modifyBy Job.id job (fun x => g (f x)) s.jobs := by
    unfold modifyBy
    rw [List.map_map]
    refine List.map_congr_left (fun x _ => ?_)
    by_cases h : x.id = job
    · simp [h, hf]
    · simp [h]
  unfold State.modifyJob
  rw [hlist]

theorem startClosing_now {j : Job} (hj : s.job? job = some j) (ho : j.openOrders = 0) (hu : j.unsettled = 0) :
    s.startClosing job = { s with
      closeCounter := (s.closeCounter + 1) % 4294967296
      bills := s.bills ++ [job]
      jobs := jobsClosing job (some ((s.closeCounter + 1) % 4294967296)) s.jobs
      outbox := s.outbox ++ [.notice (.billReady job ((s.closeCounter + 1) % 4294967296))] } := by
  have hfound := job?_modifyJob_self (f := fun x => { x with state := .closing }) (fun _ => rfl) hj
  unfold State.startClosing
  rw [closeIfReady_ready hfound (readyToClose_iff.2 ⟨rfl, ho, hu⟩)]
  have hjobs := congrArg State.jobs (modifyJob_modifyJob (f := fun x => { x with state := .closing })
    (g := fun x => { x with state := .closed, closeNumber := some ((s.closeCounter + 1) % 4294967296) })
    (fun _ => rfl) job s)
  exact congrArg (fun l => ({ s with
      closeCounter := (s.closeCounter + 1) % 4294967296
      bills := s.bills ++ [job]
      jobs := l
      outbox := s.outbox ++ [.notice (.billReady job ((s.closeCounter + 1) % 4294967296))] } : State)) hjobs

theorem startClosing_later {j : Job} (hj : s.job? job = some j) (hno : ¬ (j.openOrders = 0 ∧ j.unsettled = 0)) :
    s.startClosing job = { s with jobs := jobsClosing job none s.jobs } := by
  have hfound := job?_modifyJob_self (f := fun x => { x with state := .closing }) (fun _ => rfl) hj
  refine closeIfReady_waits (fun y hy => Bool.eq_false_iff.2 (fun hr => hno ?_))
  rw [hfound] at hy
  obtain rfl := Option.some.inj hy
  exact (readyToClose_iff.1 hr).2

theorem jobClose_zero : jobClose 0 s = (.reject .form [], s) := rfl

theorem jobClose_noJob (h0 : job ≠ 0) (hj : s.job? job = none) : jobClose job s = (.reject .noJob [], s) := by
  unfold jobClose
  rw [if_neg h0, hj]
  rfl

theorem jobClose_state {j : Job} (h0 : job ≠ 0) (hj : s.job? job = some j) (hst : j.state ≠ .opened) :
    jobClose job s = (.reject .jobState (u8 (jobStateCode j.state)), s) := by
  unfold jobClose
  rw [if_neg h0, hj]
  exact if_pos hst

theorem jobClose_opened {j : Job} (h0 : job ≠ 0) (hj : s.job? job = some j) (hst : j.state = .opened) :
    jobClose job s = (.answer (closeAnswer (s.dropPlanOf job).1 ((((s.dropPlanOf job).2.startClosing job).job? job).getD j)),
      (s.dropPlanOf job).2.startClosing job) := by
  unfold jobClose
  rw [if_neg h0, hj]
  exact if_neg (not_not_intro hst)

theorem findBy_jobsClosing {l : List Job} {number : Option Nat} {j : Job} (hj : findBy Job.id job l = some j) :
    findBy Job.id job (jobsClosing job number l) = some (closingJob number j) := by
  have hid : j.id = job := (findBy_some Job.id hj).2
  have hkeep (x : Job) : (closingJob number x).id = x.id := by cases number <;> rfl
  unfold jobsClosing
  rw [findBy_modifyBy Job.id job (fun x _ => hkeep x), hj, Option.map_some, if_pos hid]

end

/-- Settles O58. -/
theorem jobCloseWithdrawsThePlan : Obligations.JobCloseWithdrawsThePlan := by
  constructor
  · intro h copy job s i hp refused
    refine ⟨fun h0 => exec_of_block rfl hp ?_, fun h0 hj => exec_of_block rfl hp (jobClose_noJob h0 hj)⟩
    rw [h0]
    exact jobClose_zero
  · intro h copy job j s i hb hp h0 hj u
    refine ⟨fun hst => exec_of_block rfl hp (jobClose_state h0 hj hst), fun hst hrem => ?_⟩
    intro dropped under number now
    have hl : PlacementsLegal s.placements := hb.placements
    have hdone := dropPlanOf_done (s := u) (job := job) hl hrem
    have hzero := countP_afterPlan (s := u) (job := job) hl
    have hframe := dropPlanOf_exceptPlans job u
    have hclose := jobClose_opened (s := u) h0 hj hst
    generalize u.dropPlanOf job = q at hdone hframe hclose
    obtain ⟨a, v⟩ := q
    dsimp only at hdone hframe hclose
    have hv : { u with placements := v.placements } = v := eq_of_exceptPlans hframe hdone.slabs
    have hmem (q : Placement) : q ∈ v.placements ↔ (q ∈ s.placements ∧ ¬ dropped q ∧ ¬ under q)
        ∨ ∃ c ∈ s.placements, under c ∧ c.state = .ordered ∧ q = { c with parentIndex := none } := by
      rw [hdone.placements]
      exact mem_afterPlan (s := u) hl
    have hremoved : a.removed + v.placements.length = s.placements.length := hdone.removed
    have hdetached : a.detached = s.placements.countP (fun c => decide (under c ∧ c.state = .ordered)) := by
      have := hdone.detached
      rw [hdone.placements, hzero, Nat.add_zero] at this
      exact this
    clear hdone hframe
    generalize v.placements = P at hv
    subst hv
    refine ⟨State.startClosing job { u with placements := P }, a.removed, a.detached,
      exec_of_block rfl hp (hclose.trans (congrArg (fun c => (Reply.answer c, _)) ?_)), ?_⟩
    · by_cases hnow : now
      · have hfound := findBy_jobsClosing (number := some number) hj
        rw [startClosing_now (s := { u with placements := P }) hj hnow.1 hnow.2, if_pos hnow, if_pos hnow]
        exact congrArg (fun o : Option Job => closeAnswer a (o.getD j)) hfound
      · have hfound := findBy_jobsClosing (number := none) hj
        rw [startClosing_later (s := { u with placements := P }) hj hnow, if_neg hnow, if_neg hnow]
        exact congrArg (fun o : Option Job => closeAnswer a (o.getD j)) hfound
    · by_cases hnow : now
      · rw [startClosing_now (s := { u with placements := P }) hj hnow.1 hnow.2]
        refine ⟨hmem, hremoved, hdetached, ?_, (if_pos hnow).symm, (if_pos hnow).symm, ?_, rfl, rfl, rfl, rfl⟩
        · simp only [if_pos hnow]
          rfl
        · rw [if_pos hnow]
          rfl
      · rw [startClosing_later (s := { u with placements := P }) hj hnow]
        refine ⟨hmem, hremoved, hdetached, ?_, (if_neg hnow).symm, (if_neg hnow).symm, ?_, rfl, rfl, rfl, rfl⟩
        · simp only [if_neg hnow]
          rfl
        · rw [if_neg hnow, List.append_nil]
          rfl

end Sys2Proof.Proofs
end

