-- ==== Sys2Proof/Proofs/Resets.lean ====
section
/-! SUPPORT. Jobs closed in turn, orders shed, and the floor restarted: each fold of a reset as one pass over its
table. Settles O9, O40. -/

namespace Sys2Proof.Proofs

open Sys2Proof Sys2Proof.Config Sys2Proof.Machine

theorem findBy_map {α : Type} {key : α → Nat} {f : α → α} (hf : ∀ x, key (f x) = key x) (k : Nat) (l : List α) :
    findBy key k (l.map f) = (findBy key k l).map f := by
  unfold findBy
  rw [List.find?_map]
  congr 2
  funext x
  simp [hf]

/-! ## Jobs closed in turn (R141) -/

section
variable {s : State} {R ids : List Nat} {n : Nat}

/-- The close number of the job that closes after k others. -/
def closeNumberAt (c k : Nat) : Nat := (c + k + 1) % 4294967296

/-- A job record when the jobs of `R` close in turn from a close counter. -/
def closedAs (c : Nat) (R : List Nat) (j : Job) : Job :=
  if j.id ∈ R then { j with state := .closed, closeNumber := some (closeNumberAt c (R.idxOf j.id)) } else j

/-- The BILL_READYs of the jobs of `R`. -/
def billsReady (c : Nat) (R : List Nat) : List Outgoing :=
  R.map (fun n => .notice (.billReady n (closeNumberAt c (R.idxOf n))))

/-- The state when the jobs of `R` have closed in turn. -/
def closedAll (s : State) (R : List Nat) : State :=
  { s with
    closeCounter := (s.closeCounter + R.length) % 4294967296
    bills := s.bills ++ R
    jobs := s.jobs.map (closedAs s.closeCounter R)
    outbox := s.outbox ++ billsReady s.closeCounter R }

/-- The jobs among `ids` that are ready to close. -/
def readyAmong (s : State) (ids : List Nat) : List Nat := ids.filter (fun n => (s.job? n).any readyToClose)

theorem closedAs_id (c : Nat) (R : List Nat) (j : Job) : (closedAs c R j).id = j.id := by
  unfold closedAs
  split <;> rfl

theorem closedAll_nil (hc : s.closeCounter ≤ max32) : closedAll s [] = s := by
  have hmod : (s.closeCounter + 0) % 4294967296 = s.closeCounter := Nat.mod_eq_of_lt (Nat.lt_succ_of_le hc)
  have hjobs : s.jobs.map (closedAs s.closeCounter []) = s.jobs :=
    (List.map_congr_left (fun j _ => if_neg List.not_mem_nil)).trans (List.map_id _)
  unfold closedAll billsReady
  rw [List.length_nil, hmod, hjobs, List.map_nil, List.append_nil, List.append_nil]

theorem job?_closedAll (hn : n ∉ R) : (closedAll s R).job? n = s.job? n := by
  refine (findBy_map (closedAs_id _ R) n s.jobs).trans ?_
  cases hj : s.job? n with
  | none => rw [State.job?] at hj; rw [hj]; rfl
  | some j =>
    have hid : j.id ∉ R := by rw [job?_id hj]; exact hn
    rw [State.job?] at hj
    rw [hj, Option.map_some, closedAs, if_neg hid]

theorem idxOf_snoc_of_mem {m : Nat} (hm : m ∈ R) : (R ++ [n]).idxOf m = R.idxOf m := List.idxOf_append_of_mem hm

theorem idxOf_snoc_self (hn : n ∉ R) : (R ++ [n]).idxOf n = R.length := by
  rw [List.idxOf_append_of_notMem hn, List.idxOf_cons_self, Nat.add_zero]

theorem closeNumberAt_eq (c k : Nat) : advance32 ((c + k) % 4294967296) = closeNumberAt c k := by
  unfold advance32 closeNumberAt
  omega

theorem closedAll_snoc (hn : n ∉ R) : (closedAll s R).closeJob n = closedAll s (R ++ [n]) := by
  have hcount : closeNumberAt s.closeCounter R.length = (s.closeCounter + (R ++ [n]).length) % 4294967296 := by
    unfold closeNumberAt
    rw [List.length_append]
    rfl
  have hjobs : modifyBy Job.id n (fun j => { j with state := .closed, closeNumber := some (closeNumberAt s.closeCounter R.length) })
      (s.jobs.map (closedAs s.closeCounter R)) = s.jobs.map (closedAs s.closeCounter (R ++ [n])) := by
    unfold modifyBy
    rw [List.map_map]
    refine List.map_congr_left (fun j _ => ?_)
    rw [Function.comp_apply, closedAs_id]
    unfold closedAs
    by_cases hj : j.id = n
    · rw [if_pos hj, if_neg (hj ▸ hn), if_pos (by rw [hj]; simp),
        show (R ++ [n]).idxOf j.id = R.length from hj.symm ▸ idxOf_snoc_self hn]
    · rw [if_neg hj]
      by_cases hR : j.id ∈ R
      · rw [if_pos hR, if_pos (List.mem_append_left _ hR), idxOf_snoc_of_mem hR]
      · rw [if_neg hR, if_neg (by simp [hR, hj])]
  have hbills : billsReady s.closeCounter R ++ [.notice (.billReady n (closeNumberAt s.closeCounter R.length))]
      = billsReady s.closeCounter (R ++ [n]) := by
    unfold billsReady
    rw [List.map_append, List.map_cons, List.map_nil, idxOf_snoc_self hn]
    congr 1
    exact List.map_congr_left (fun m hm => by rw [idxOf_snoc_of_mem hm])
  unfold State.closeJob
  dsimp only
  rw [show advance32 (closedAll s R).closeCounter = _ from closeNumberAt_eq s.closeCounter R.length]
  unfold closedAll State.modifyJob State.notify State.queueOut
  dsimp only
  rw [hjobs, List.append_assoc, List.append_assoc, hbills, hcount]

/-- Jobs tested in turn close in turn, each on its own counts. -/
theorem foldl_closeIfReady (hc : s.closeCounter ≤ max32) (hd : ids.Nodup) :
    ids.foldl State.closeIfReady s = closedAll s (readyAmong s ids) := by
  induction ids using List.reverseRecOn with
  | nil => exact (closedAll_nil hc).symm
  | append_singleton ids n ih =>
    obtain ⟨hids, -, hapart⟩ := List.nodup_append.1 hd
    have hnew : n ∉ readyAmong s ids := fun h => hapart n (List.mem_filter.1 h).1 n (List.mem_singleton.2 rfl) rfl
    have hjob := job?_closedAll (s := s) hnew
    rw [List.foldl_append, ih hids, List.foldl_cons, List.foldl_nil]
    by_cases hready : (s.job? n).any readyToClose = true
    · have hsnoc : readyAmong s (ids ++ [n]) = readyAmong s ids ++ [n] := by simp [readyAmong, hready]
      obtain ⟨j, hj, hr⟩ := (Option.any_eq_true _ _).1 hready
      rw [hsnoc, ← closedAll_snoc hnew]
      exact closeIfReady_ready (hjob.trans hj) hr
    · have hsnoc : readyAmong s (ids ++ [n]) = readyAmong s ids := by simp [readyAmong, hready]
      rw [hsnoc]
      refine closeIfReady_waits (fun j hj => Bool.eq_false_iff.2 (fun hr => hready ?_))
      exact (Option.any_eq_true _ _).2 ⟨j, hjob.symm.trans hj, hr⟩

/-- R141, of every job (log entry 24). -/
theorem closeAllReady_eq (hc : s.closeCounter ≤ max32) (hj : Rising Job.id s.jobs) :
    s.closeAllReady = closedAll s ((s.jobs.filter readyToClose).map Job.id) := by
  have hnodup : (s.jobs.map Job.id).Nodup := by
    rw [List.Nodup, List.pairwise_map]
    exact hj.imp (fun h => Nat.ne_of_lt h)
  have hready : readyAmong s (s.jobs.map Job.id) = (s.jobs.filter readyToClose).map Job.id := by
    unfold readyAmong
    rw [List.filter_map]
    congr 1
    refine List.filter_congr (fun j hmem => ?_)
    rw [Function.comp_apply, State.job?, findBy_eq Job.id hj hmem, Option.any_some]
  rw [State.closeAllReady, foldl_closeIfReady hc hnodup, hready]

end

/-! ## Orders shed (R36, R73) -/

section
variable {s : State} {L : List CutOrder} {q r : Placement} {o : CutOrder}

/-- The placement of an ended order, PLANNED again or gone (R36). -/
def returned (q : Placement) : Option Placement :=
  if q.kind = .cutout ∧ q.parentIndex = none then none else some { q with state := .planned }

/-- One entry of the pool when the orders of `L` have ended. -/
def afterReturns (L : List CutOrder) (q : Placement) : Option Placement :=
  if ∃ o ∈ L, o.slab = q.slab ∧ o.index = q.index then returned q else some q

theorem returned_some (h : returned q = some r) : ¬ (q.kind = .cutout ∧ q.parentIndex = none) ∧ r = { q with state := .planned } := by
  unfold returned at h
  split at h
  · cases h
  · exact ⟨‹_›, (Option.some.inj h).symm⟩

theorem afterReturns_names (h : afterReturns L q = some r) : r.slab = q.slab ∧ r.index = q.index := by
  unfold afterReturns at h
  split at h
  · obtain ⟨-, rfl⟩ := returned_some h
    exact ⟨rfl, rfl⟩
  · cases h
    exact ⟨rfl, rfl⟩

/-- R36, as one pass over the pool. -/
theorem returnPlacement_filterMap (hl : PlacementsLegal s.placements) (slab index : Nat) : s.returnPlacement slab index
    = { s with placements := s.placements.filterMap (fun q =>
        if slab = q.slab ∧ index = q.index then returned q else some q) } := by
  cases hp : s.placement? slab index with
  | none =>
    have hsame : s.placements.filterMap (fun q => if slab = q.slab ∧ index = q.index then returned q else some q)
        = s.placements := by
      refine (List.filterMap_congr (fun q hq => if_neg (fun e => ?_))).trans List.filterMap_some
      exact placement?_eq_none.1 hp q hq ⟨e.1.symm, e.2.symm⟩
    rw [hsame]
    unfold State.returnPlacement
    rw [hp]
  | some p =>
    obtain ⟨hmem, hslab, hindex⟩ := (placement?_eq_some hl).1 hp
    have hat {q : Placement} (hq : q ∈ s.placements) : (slab = q.slab ∧ index = q.index) ↔ q = p :=
      ⟨fun e => placement_unique hl hq hmem (e.1.symm.trans hslab.symm) (e.2.symm.trans hindex.symm),
        fun e => e ▸ ⟨hslab.symm, hindex.symm⟩⟩
    have hpass : placementsReturned p slab index s.placements
        = s.placements.filterMap (fun q => if slab = q.slab ∧ index = q.index then returned q else some q) := by
      unfold placementsReturned
      split
      · rename_i hc
        rw [← List.filterMap_eq_filter]
        refine List.filterMap_congr (fun q hq => ?_)
        unfold Option.guard
        by_cases e : q = p
        · rw [if_pos ((hat hq).2 e), returned, e, if_pos hc, if_neg (by simp [hslab, hindex])]
        · have hne : ¬ (q.slab = slab ∧ q.index = index) := fun h => e ((hat hq).1 ⟨h.1.symm, h.2.symm⟩)
          rw [if_neg (mt (hat hq).1 e), if_pos (decide_eq_true hne)]
      · rename_i hc
        rw [← List.filterMap_eq_map]
        refine List.filterMap_congr (fun q hq => ?_)
        by_cases e : q = p
        · rw [if_pos ((hat hq).2 e), returned, e, if_neg hc, Function.comp_apply, if_pos ⟨hslab, hindex⟩]
        · have hne : ¬ (q.slab = slab ∧ q.index = index) := fun h => e ((hat hq).1 ⟨h.1.symm, h.2.symm⟩)
          rw [if_neg (mt (hat hq).1 e), Function.comp_apply, if_neg hne]
    rw [returnPlacement_eq hp, hpass]

theorem exists_mem_orders_snoc {P : CutOrder → Prop} : (∃ y ∈ L ++ [o], P y) ↔ (∃ y ∈ L, P y) ∨ P o := by
  simp only [List.mem_append, List.mem_singleton]
  constructor
  · rintro ⟨y, hy | rfl, hP⟩
    · exact .inl ⟨y, hy, hP⟩
    · exact .inr hP
  · rintro (⟨y, hy, hP⟩ | hP)
    · exact ⟨y, .inl hy, hP⟩
    · exact ⟨o, .inr rfl, hP⟩

theorem returned_returned : (returned q).bind returned = returned q := by
  unfold returned
  split
  · rfl
  · rename_i hc
    exact if_neg hc

theorem afterReturns_snoc :
    (afterReturns L q).bind (fun r => if o.slab = r.slab ∧ o.index = r.index then returned r else some r)
      = afterReturns (L ++ [o]) q := by
  have hsnoc : afterReturns (L ++ [o]) q
      = if (∃ y ∈ L, y.slab = q.slab ∧ y.index = q.index) ∨ (o.slab = q.slab ∧ o.index = q.index) then returned q
        else some q := if_congr exists_mem_orders_snoc rfl rfl
  rw [hsnoc]
  unfold afterReturns
  by_cases hL : ∃ y ∈ L, y.slab = q.slab ∧ y.index = q.index
  · rw [if_pos hL, if_pos (.inl hL)]
    cases hr : returned q with
    | none => rfl
    | some r =>
      rw [Option.bind_some]
      split
      · have htwice := returned_returned (q := q)
        rw [hr, Option.bind_some] at htwice
        exact htwice
      · rfl
  · rw [if_neg hL, Option.bind_some]
    exact if_congr (or_iff_right hL).symm rfl rfl

/-- A saw's part when the orders of `L` on it have been taken off. -/
def sawAfter (a : Nat) (L : List CutOrder) (w : Saw) : Saw :=
  { w with
    queue := w.queue.filter (fun y => decide (¬ ∃ o ∈ L, o.saw = a ∧ y.slab = o.slab ∧ y.index = o.index))
    lastDelivered := if ∃ o ∈ L, o.saw = a ∧ w.lastDelivered = some (o.slab, o.index) then none else w.lastDelivered }

/-- The state when the orders of `L`, all WAITING, have ended in turn. -/
def shedAll (s : State) (L : List CutOrder) : State :=
  { s with
    placements := s.placements.filterMap (afterReturns L)
    stations := s.stations.map (fun st => st.mapSaw (sawAfter st.address L))
    jobs := s.jobs.map (fun j => { j with openOrders := j.openOrders - L.countP (fun o => decide (o.job = some j.id)) }) }

theorem shedAll_nil : shedAll s [] = s := by
  have hp : s.placements.filterMap (afterReturns []) = s.placements :=
    (List.filterMap_congr (fun q _ => if_neg (by simp))).trans List.filterMap_some
  have hst : s.stations.map (fun st => st.mapSaw (sawAfter st.address [])) = s.stations := by
    have hsaw (a : Nat) : sawAfter a [] = id := funext (fun w => by simp [sawAfter])
    refine (List.map_congr_left (fun st _ => ?_)).trans (List.map_id _)
    rw [hsaw, Station.mapSaw, Option.map_id]
    rfl
  have hj : s.jobs.map (fun j => { j with openOrders := j.openOrders - ([] : List CutOrder).countP (fun o => decide (o.job = some j.id)) })
      = s.jobs := (List.map_congr_left (fun j _ => rfl)).trans (List.map_id _)
  unfold shedAll
  rw [hp, hst, hj]

theorem sawAfter_snoc {a : Nat} {w : Saw} (hw : o.state ≠ .delivered) (ha : o.saw = a) :
    Saw.removeOrder o (sawAfter a L w) = sawAfter a (L ++ [o]) w := by
  have hq : (w.queue.filter (fun y => decide (¬ ∃ o ∈ L, o.saw = a ∧ y.slab = o.slab ∧ y.index = o.index))).filter
        (fun y => decide (¬ (y.slab = o.slab ∧ y.index = o.index)))
      = w.queue.filter (fun y => decide (¬ ∃ o' ∈ L ++ [o], o'.saw = a ∧ y.slab = o'.slab ∧ y.index = o'.index)) := by
    rw [List.filter_filter]
    refine List.filter_congr (fun y _ => ?_)
    rw [← Bool.decide_and, decide_eq_decide, exists_mem_orders_snoc]
    simp only [ha, true_and, not_or]
    exact and_comm
  have hlast : (if (if ∃ o ∈ L, o.saw = a ∧ w.lastDelivered = some (o.slab, o.index) then none else w.lastDelivered)
        = some (o.slab, o.index) then none
      else (if ∃ o ∈ L, o.saw = a ∧ w.lastDelivered = some (o.slab, o.index) then none else w.lastDelivered))
      = if ∃ o' ∈ L ++ [o], o'.saw = a ∧ w.lastDelivered = some (o'.slab, o'.index) then none else w.lastDelivered := by
    refine Eq.trans ?_ (if_congr exists_mem_orders_snoc.symm rfl rfl)
    by_cases hL : ∃ o ∈ L, o.saw = a ∧ w.lastDelivered = some (o.slab, o.index)
    · rw [if_pos hL, if_neg (by simp), if_pos (.inl hL)]
    · rw [if_neg hL]
      exact if_congr ⟨fun h => .inr ⟨ha, h⟩, fun h => (h.resolve_left hL).2⟩ rfl rfl
  rw [removeOrder_eq, if_neg hw]
  unfold sawAfter
  dsimp only
  rw [hq, hlast]

theorem sawAfter_elsewhere {a : Nat} {w : Saw} (ha : o.saw ≠ a) : sawAfter a (L ++ [o]) w = sawAfter a L w := by
  have hcond (P : CutOrder → Prop) : (∃ o' ∈ L ++ [o], o'.saw = a ∧ P o') ↔ ∃ o' ∈ L, o'.saw = a ∧ P o' :=
    exists_mem_orders_snoc.trans (or_iff_left (fun h => ha h.1))
  unfold sawAfter
  congr 1
  · exact List.filter_congr (fun y _ => decide_eq_decide.2 (not_congr (hcond _)))
  · exact if_congr (hcond _) rfl rfl

theorem jobsLowered_map (L : List CutOrder) (o : CutOrder) (l : List Job) :
    jobsLowered o.job (l.map (fun j => { j with openOrders := j.openOrders - L.countP (fun o => decide (o.job = some j.id)) }))
      = l.map (fun j => { j with openOrders := j.openOrders - (L ++ [o]).countP (fun o => decide (o.job = some j.id)) }) := by
  unfold jobsLowered
  rw [List.map_map]
  refine List.map_congr_left (fun j _ => ?_)
  rw [Function.comp_apply, List.countP_append, List.countP_cons, List.countP_nil]
  by_cases hj : o.job = some j.id
  · simp [hj, Nat.sub_sub]
  · simp [hj]

theorem shedAll_snoc (hl : PlacementsLegal s.placements) (hw : o.state ≠ .delivered) :
    (shedAll s L).shedOrder o = shedAll s (L ++ [o]) := by
  have hl' : PlacementsLegal (shedAll s L).placements := placementsLegal_filterMap (fun _ _ => afterReturns_names) hl
  have hst : modifyBy Station.address o.saw (Station.mapSaw (Saw.removeOrder o))
        (s.stations.map (fun st => st.mapSaw (sawAfter st.address L)))
      = s.stations.map (fun st => st.mapSaw (sawAfter st.address (L ++ [o]))) := by
    unfold modifyBy
    rw [List.map_map]
    refine List.map_congr_left (fun st _ => ?_)
    show (if st.address = o.saw then _ else _) = _
    split
    · rename_i ha
      rw [mapSaw_mapSaw]
      exact congrArg (fun f => st.mapSaw f) (funext (fun w => sawAfter_snoc hw ha.symm))
    · rename_i ha
      exact congrArg (fun f => st.mapSaw f) (funext (fun w => (sawAfter_elsewhere (Ne.symm ha)).symm))
  have hp : (shedAll s L).placements.filterMap (fun q => if o.slab = q.slab ∧ o.index = q.index then returned q else some q)
      = s.placements.filterMap (afterReturns (L ++ [o])) := by
    unfold shedAll
    rw [List.filterMap_filterMap]
    exact List.filterMap_congr (fun q _ => afterReturns_snoc)
  unfold State.shedOrder State.removeOrder
  rw [returnPlacement_filterMap hl', hp, dropOpenOrder_eq]
  unfold State.modifySaw State.modifyStation shedAll
  dsimp only
  rw [hst, jobsLowered_map]

/-- Orders shed in turn, each from its own saw's queue. -/
theorem foldl_shedOrder (hl : PlacementsLegal s.placements) (hL : ∀ o ∈ L, o.state ≠ .delivered) :
    L.foldl State.shedOrder s = shedAll s L := by
  induction L using List.reverseRecOn with
  | nil => exact shedAll_nil.symm
  | append_singleton L o ih =>
    rw [List.foldl_append, ih (fun y hy => hL y (List.mem_append_left _ hy)), List.foldl_cons, List.foldl_nil,
      shedAll_snoc hl (hL o (by simp))]

end

/-! ## The floor restarted (R44, R73, R141) -/

section
variable {s : State}

/-- The placement's order is WAITING. -/
abbrev Shed (s : State) (p : Placement) : Prop := ∃ o ∈ s.orders, o.state = .waiting ∧ o.slab = p.slab ∧ o.index = p.index

/-- The job records when every WAITING order is shed. -/
def loweredJobs (s : State) : List Job := s.jobs.map (fun j =>
  { j with openOrders := j.openOrders - s.orders.countP (fun o => decide (o.state = .waiting ∧ o.job = some j.id)) })

/-- The jobs that the shedding leaves ready to close. -/
def readyJobs (s : State) : List Nat :=
  ((loweredJobs s).filter (fun j => decide (j.state = .closing ∧ j.openOrders = 0 ∧ j.unsettled = 0))).map Job.id

/-- The pool when every WAITING order is shed. -/
def shedPool (s : State) : List Placement :=
  (s.placements.filter (fun p => decide (¬ (Shed s p ∧ p.kind = .cutout ∧ p.parentIndex = none)))).map (fun p =>
    if Shed s p then { p with state := .planned } else p)

/-- A station's entry when the floor restarts (R44, R73). -/
def stationRestarted (st : Station) : Station :=
  { st with
    state := .absent
    silence := none
    saw := st.saw.map (fun w =>
      { w with
        ready := false
        blade := .unknown
        kerf := none
        lastDelivered := none
        ackTimer := none
        queue := (w.queue.filter (fun o => decide (o.state ≠ .waiting))).map (fun o => { o with state := .inDoubt }) }) }

/-- The state when the floor has restarted. -/
def floorRestarted (s : State) : State :=
  { s with
    stations := s.stations.map stationRestarted
    placements := shedPool s
    jobs := (loweredJobs s).map (closedAs s.closeCounter (readyJobs s))
    bills := s.bills ++ readyJobs s
    closeCounter := (s.closeCounter + (readyJobs s).length) % 4294967296
    outbox := s.outbox ++ billsReady s.closeCounter (readyJobs s) }

/-- Every order on a queue carries its saw. -/
def SawsCarried (s : State) : Prop := ∀ st ∈ s.stations, ∀ w ∈ st.saw, ∀ o ∈ w.queue, o.saw = st.address

/-- No two orders name one placement. -/
def OrdersApart (s : State) : Prop := s.orders.Pairwise (fun a b => ¬ a.same b)

theorem mem_waitingOrders {o : CutOrder} : o ∈ s.waitingOrders ↔ o ∈ s.orders ∧ o.state = .waiting := by
  simp [State.waitingOrders]

theorem mem_orders_of_saw {st : Station} {w : Saw} {o : CutOrder} (hst : st ∈ s.stations) (hw : st.saw = some w)
    (ho : o ∈ w.queue) : o ∈ s.orders := mem_orders.2 ⟨st, hst, mem_queueOf.2 ⟨w, hw, ho⟩⟩

theorem order_unique (hs : OrdersApart s) {a b : CutOrder} (ha : a ∈ s.orders) (hb : b ∈ s.orders) (hab : a.same b) : a = b := by
  by_contra hne
  have hsymm : Std.Symm (fun a b : CutOrder => ¬ a.same b) := ⟨fun _ _ h e => h ⟨e.1.symm, e.2.symm⟩⟩
  exact List.Pairwise.forall hs ha hb hne hab

/-- On its own saw's queue, what sheds an order is that it is WAITING. -/
theorem shed_of_queue (hc : SawsCarried s) (hs : OrdersApart s) {st : Station} {w : Saw} {y : CutOrder} (hst : st ∈ s.stations)
    (hw : st.saw = some w) (hy : y ∈ w.queue) :
    (∃ o ∈ s.waitingOrders, o.saw = st.address ∧ y.slab = o.slab ∧ y.index = o.index) ↔ y.state = .waiting := by
  have hmem : y ∈ s.orders := mem_orders_of_saw hst hw hy
  constructor
  · rintro ⟨o, ho, -, hslab, hindex⟩
    obtain ⟨ho, hwait⟩ := mem_waitingOrders.1 ho
    rw [order_unique hs hmem ho ⟨hslab, hindex⟩]
    exact hwait
  · intro hwait
    exact ⟨y, mem_waitingOrders.2 ⟨hmem, hwait⟩, hc st hst w hw y hy, rfl, rfl⟩

theorem suspended_eq {o : CutOrder} (h : o.state ≠ .waiting) : o.suspended = { o with state := .inDoubt } := by
  unfold CutOrder.suspended
  cases ho : o.state <;> simp_all
  rw [← ho]

theorem restarted_sawAfter (hc : SawsCarried s) (hs : OrdersApart s) {st : Station} (hst : st ∈ s.stations) :
    (st.mapSaw (sawAfter st.address s.waitingOrders)).restarted = stationRestarted st := by
  unfold Station.restarted stationRestarted Station.mapSaw
  cases hw : st.saw with
  | none => rfl
  | some w =>
    have hq : (w.queue.filter (fun y => decide (¬ ∃ o ∈ s.waitingOrders, o.saw = st.address ∧ y.slab = o.slab
          ∧ y.index = o.index))).map CutOrder.suspended
        = (w.queue.filter (fun o => decide (o.state ≠ .waiting))).map (fun o => { o with state := .inDoubt }) := by
      rw [List.filter_congr (fun y hy => decide_eq_decide.2 (not_congr (shed_of_queue hc hs hst hw hy)))]
      exact List.map_congr_left (fun o ho => suspended_eq (of_decide_eq_true (List.mem_filter.1 ho).2))
    simp only [Option.map_some, sawAfter, Saw.suspended, Saw.quiet, hq]

theorem exists_waiting_iff {p : Placement} :
    (∃ o ∈ s.waitingOrders, o.slab = p.slab ∧ o.index = p.index) ↔ Shed s p := by
  simp only [mem_waitingOrders, and_assoc]

theorem shedPool_eq : s.placements.filterMap (afterReturns s.waitingOrders) = shedPool s := by
  unfold shedPool
  rw [← List.filterMap_eq_map, ← List.filterMap_eq_filter, List.filterMap_filterMap]
  refine List.filterMap_congr (fun q _ => ?_)
  have hafter : afterReturns s.waitingOrders q = if Shed s q then returned q else some q :=
    if_congr exists_waiting_iff rfl rfl
  rw [hafter]
  unfold returned Option.guard
  by_cases hs : Shed s q
  · rw [if_pos hs]
    by_cases hc : q.kind = .cutout ∧ q.parentIndex = none
    · have hno : ¬ decide (¬ (Shed s q ∧ q.kind = .cutout ∧ q.parentIndex = none)) = true :=
        fun h => of_decide_eq_true h ⟨hs, hc⟩
      rw [if_pos hc, if_neg hno]
      rfl
    · have hyes : decide (¬ (Shed s q ∧ q.kind = .cutout ∧ q.parentIndex = none)) = true :=
        decide_eq_true (fun h => hc h.2)
      rw [if_neg hc, if_pos hyes, Option.bind_some, Function.comp_apply, if_pos hs]
  · have hyes : decide (¬ (Shed s q ∧ q.kind = .cutout ∧ q.parentIndex = none)) = true :=
      decide_eq_true (fun h => hs h.1)
    rw [if_neg hs, if_pos hyes, Option.bind_some, Function.comp_apply, if_neg hs]

theorem loweredJobs_eq : (shedAll s s.waitingOrders).jobs = loweredJobs s := by
  refine List.map_congr_left (fun j _ => ?_)
  have hcount : s.waitingOrders.countP (fun o => decide (o.job = some j.id))
      = s.orders.countP (fun o => decide (o.state = .waiting ∧ o.job = some j.id)) := by
    unfold State.waitingOrders
    rw [List.countP_filter]
    refine List.countP_congr (fun o _ => ?_)
    rw [Bool.and_eq_true, decide_eq_true_iff, decide_eq_true_iff, decide_eq_true_iff, and_comm]
  rw [hcount]

/-- R44, R73, with the closings of R141, table by table. -/
theorem restartFloor_eq (hb : s.Bounded) (hc : SawsCarried s) (hs : OrdersApart s) : s.restartFloor = floorRestarted s := by
  have hshed : s.shed = shedAll s s.waitingOrders :=
    foldl_shedOrder hb.placements (fun o ho => by rw [(mem_waitingOrders.1 ho).2]; decide)
  have hrising : Rising Job.id (shedAll s s.waitingOrders).jobs := rising_map _ hb.jobs.1 (fun _ => rfl)
  have hclose := closeAllReady_eq (s := shedAll s s.waitingOrders) hb.closeCounter hrising
  have hready : ((shedAll s s.waitingOrders).jobs.filter readyToClose).map Job.id = readyJobs s := by
    rw [loweredJobs_eq]
    unfold readyJobs
    congr 1
    refine List.filter_congr (fun j _ => ?_)
    rw [Bool.eq_iff_iff, readyToClose_iff, decide_eq_true_iff]
  have hst : (shedAll s s.waitingOrders).stations.map Station.restarted = s.stations.map stationRestarted := by
    unfold shedAll
    rw [List.map_map]
    exact List.map_congr_left (fun st hst => restarted_sawAfter hc hs hst)
  unfold State.restartFloor
  rw [hshed, hclose, hready]
  unfold State.restartStations closedAll
  dsimp only
  rw [hst, loweredJobs_eq]
  unfold floorRestarted shedAll
  dsimp only
  rw [shedPool_eq]

theorem sawsCarried_of_orderly (h : s.Orderly) : SawsCarried s := fun st hst w hw => (h.1 st hst w hw).1

theorem ordersApart_of_orderly (h : s.Orderly) : OrdersApart s := h.2.1

theorem queueOf_stationRestarted (st : Station) : queueOf (stationRestarted st)
    = ((queueOf st).filter (fun o => decide (o.state ≠ .waiting))).map (fun o => { o with state := .inDoubt }) := by
  unfold queueOf stationRestarted
  cases st.saw <;> rfl

theorem orders_restarted (l : List Station) : (l.map stationRestarted).flatMap queueOf
    = ((l.flatMap queueOf).filter (fun o => decide (o.state ≠ .waiting))).map (fun o => { o with state := .inDoubt }) := by
  rw [List.flatMap_map, List.filter_flatMap, List.map_flatMap]
  simp only [queueOf_stationRestarted]

end

/-- Settles O9. -/
theorem coldResetValues : Obligations.ColdResetValues := by
  constructor
  · intro keep straps s hkeep
    have hreset : s.releaseReset keep straps = s.plainReset straps (if keep then .keepRefused else .withoutKeep) := by
      unfold State.releaseReset
      cases keep with
      | false => rfl
      | true => exact if_pos (hkeep rfl)
    exact congrArg Host.Outcome.next hreset
  · intro straps s hlegal horderly hstandby shed lowered ready
    have hreset : s.releaseReset true straps = s.keepReset := by
      unfold State.releaseReset
      rw [if_pos rfl, hstandby]
      rfl
    refine congrArg Host.Outcome.next (hreset.trans ?_)
    unfold State.keepReset
    rw [restartFloor_eq hlegal.1 (sawsCarried_of_orderly horderly) (ordersApart_of_orderly horderly)]
    rfl

/-! ## LINE RESET and RELEASE LINE (R71, R72) -/

section
variable {s : State}

theorem sawsCarried_restartSilence {a : Nat} (h : SawsCarried s) : SawsCarried (s.restartSilence a) := by
  intro st hst w hw o ho
  obtain ⟨y, hy, rfl⟩ := List.mem_map.1 hst
  have hsame : ∀ z : Station, (if z.state = .attached then { z with silence := some silenceMs } else z).saw = z.saw
      ∧ (if z.state = .attached then { z with silence := some silenceMs } else z).address = z.address := fun z => by
    split <;> exact ⟨rfl, rfl⟩
  split at hw
  · rw [(hsame y).1] at hw
    rw [if_pos ‹_›, (hsame y).2]
    exact h y hy w hw o ho
  · rw [if_neg ‹_›]
    exact h y hy w hw o ho

theorem stationRestarted_silence (a : Nat) (l : List Station) :
    (modifyBy Station.address a (fun st => if st.state = .attached then { st with silence := some silenceMs } else st) l).map
      stationRestarted = l.map stationRestarted := by
  unfold modifyBy
  rw [List.map_map]
  refine List.map_congr_left (fun st _ => ?_)
  rw [Function.comp_apply]
  split
  · show stationRestarted (if st.state = .attached then { st with silence := some silenceMs } else st) = _
    split <;> rfl
  · rfl

theorem floorRestarted_restartSilence (a : Nat) : floorRestarted (s.restartSilence a) = floorRestarted s := by
  have hready : readyJobs (s.restartSilence a) = readyJobs s := by
    unfold readyJobs loweredJobs
    rw [orders_restartSilence]
    rfl
  have hlowered : loweredJobs (s.restartSilence a) = loweredJobs s := by
    unfold loweredJobs
    rw [orders_restartSilence]
    rfl
  have hpool : shedPool (s.restartSilence a) = shedPool s := by
    unfold shedPool
    simp only [Shed, orders_restartSilence]
    rfl
  have hst : (s.restartSilence a).stations.map stationRestarted = s.stations.map stationRestarted :=
    stationRestarted_silence a s.stations
  unfold floorRestarted
  rw [hready, hlowered, hpool, hst]
  rfl

/-- The rules whose excursion a reset ends: those that hold. -/
theorem mem_movedRules_clear {rules : List CompareRule} {n : Nat} {b : Bool} :
    (n, b) ∈ movedRules rules (rules.map (fun r => { r with state := .clear }))
      ↔ b = false ∧ ∃ r, rules[n]? = some r ∧ r.state.holds = true := by
  have hzip : rules.zip (rules.map (fun r => { r with state := .clear }))
      = rules.map (fun r => (r, { r with state := .clear })) := by
    rw [List.zip_map_right, List.zip_eq_zipWith]
    simp
  unfold movedRules
  rw [hzip, List.mem_filterMap]
  constructor
  · rintro ⟨⟨⟨r, r'⟩, m⟩, hmem, hif⟩
    rw [List.mem_zipIdx_iff_getElem?, List.getElem?_map, Option.map_eq_some_iff] at hmem
    obtain ⟨y, hy, he⟩ := hmem
    obtain ⟨rfl, rfl⟩ := Prod.mk.inj he
    dsimp only at hif
    split at hif
    · cases hif
    · rename_i hne
      obtain ⟨rfl, rfl⟩ := Prod.mk.inj (Option.some.inj hif)
      refine ⟨rfl, y, hy, ?_⟩
      cases hh : y.state.holds with
      | true => rfl
      | false => exact absurd hh hne
  · rintro ⟨rfl, r, hr, hh⟩
    refine ⟨((r, { r with state := .clear }), n), ?_, ?_⟩
    · rw [List.mem_zipIdx_iff_getElem?, List.getElem?_map, hr]
      rfl
    · exact if_neg (fun hc => by rw [hh] at hc; cases hc)

theorem movedRules_rising (before after : List CompareRule) :
    (movedRules before after).Pairwise (fun x y => x.1 < y.1) := by
  unfold movedRules
  rw [List.pairwise_filterMap]
  have hidx : (before.zip after).zipIdx.Pairwise (fun x y => x.2 < y.2) := by
    rw [← List.pairwise_map (f := Prod.snd) (R := (· < ·)), List.zipIdx_map_snd]
    exact List.pairwise_lt_range'
  refine hidx.imp (fun {x y} hlt a ha b hb => ?_)
  split at ha
  · cases ha
  · split at hb
    · cases hb
    · cases ha
      cases hb
      exact hlt

theorem holds_iff {st : RuleState} : st.holds = true ↔ st ≠ .clear ∧ ∀ n, st ≠ .tripping n := by
  cases st <;> simp [RuleState.holds]

end

/-- Settles O40. -/
theorem lineIsReleasedAndReset : Obligations.LineIsReleasedAndReset := by
  constructor
  · intro h copy s i hp u
    have hrelease : releaseLine u = (.answer (u8 (lineCode s.line)),
        if s.line = .held then ({ u with line := .run }).presentAll else u) := rfl
    refine ⟨fun hline => exec_of_block rfl hp (hrelease.trans ?_), fun hline => exec_of_block rfl hp (hrelease.trans ?_)⟩
    · rw [hline, if_neg (by decide)]
    · rw [hline, if_pos rfl]
      rfl
  · intro h copy s i hlegal horderly hp shed lowered ready number holds
    have hfloor : (s.restartSilence h.src).restartFloor = floorRestarted s :=
      (restartFloor_eq ((keeps_restartSilence h.src).2 hlegal.1) (sawsCarried_restartSilence (sawsCarried_of_orderly horderly))
        (by rw [OrdersApart, orders_restartSilence]; exact ordersApart_of_orderly horderly)).trans
          (floorRestarted_restartSilence h.src)
    refine ⟨movedRules s.water.rules (s.water.rules.map (fun r => { r with state := .clear })), fun n b => ?_,
      movedRules_rising _ _, exec_of_block rfl hp ?_⟩
    · rw [mem_movedRules_clear]
      simp only [holds_iff]
      rfl
    · have hwaiting : (s.restartSilence h.src).waitingOrders.length
          = s.orders.countP (fun o => decide (o.state = .waiting)) := by
        rw [State.waitingOrders, orders_restartSilence, List.countP_eq_length_filter]
      have hdoubt {v : State} (hv : v.stations = s.stations.map stationRestarted) :
          v.orders.countP (fun o => decide (o.state = .inDoubt)) = s.orders.countP (fun o => decide (o.state ≠ .waiting)) := by
        rw [orders_eq, hv, orders_restarted, List.countP_map, ← orders_eq, List.countP_filter]
        exact List.countP_congr (fun o _ => by simp)
      have hanswer {v : State} {p q : Nat} (hv : v.stations = s.stations.map stationRestarted) :
          count p ++ count (v.orders.countP (fun o => decide (o.state = .inDoubt))) = count p
            ++ count (s.orders.countP (fun o => decide (o.state ≠ .waiting))) := by rw [hdoubt hv]
      have hline : (s.restartSilence h.src).lineRestart
          = State.tellLineReset s.water.mode (movedRules s.water.rules (s.water.rules.map (fun r => { r with state := .clear })))
            { floorRestarted s with water := s.water.restarted, line := .held } := by
        unfold State.lineRestart
        rw [hfloor]
        rfl
      unfold lineReset
      dsimp only
      rw [hline, hwaiting]
      unfold State.tellLineReset
      by_cases hm : s.water.mode = .unsure
      · rw [if_pos hm, if_pos hm, List.append_nil, hdoubt rfl]
        rfl
      · rw [if_neg hm, if_neg hm, hdoubt rfl]
        rfl

end Sys2Proof.Proofs
end

