-- ==== Sys2Proof/Proofs/Recordless.lean ====
section
/-! SUPPORT. A BROKE report of an order whose slab has no record: a legal and orderly state in which nothing settles, so
that the returned placement stays PLANNED. Refutes O48. -/

namespace Sys2Proof.Proofs

open Sys2Proof Sys2Proof.Config Sys2Proof.Machine

/-- The busy shop of section 4.8 without the stock record of its slab. -/
def recordless : State := { Tests.busy with slabs := [] }

/-- The BROKE report of the piece that runs. -/
def brokeReport : Instr := .cutReport (Tests.report 11) 70215 0 2 0

theorem recordless_legal : recordless.Legal := ⟨Tests.bounded_of rfl, rfl⟩

theorem recordless_orderly : recordless.Orderly := by
  unfold State.Orderly
  simp only [Station.Orderly, CutOrder.same]
  decide +kernel

theorem recordless_passes : recordless.Passes brokeReport (Tests.report 11) true := Tests.passes_of (by decide +kernel)

/-- Without a record the report settles nothing: P0 is PLANNED again. -/
theorem recordless_after : ∃ p ∈ (Tests.after brokeReport recordless).placements, p.slab = 70215 ∧ p.state = .planned := by
  decide +kernel

/-- The end of an event leaves the placements alone. -/
theorem finish_placements (i : Instr) (h : Header) (copy : Bool) (r : Reply) (u : State) :
    (finish i h copy r u).placements = u.placements := by
  have frame := congrArg State.placements (finish_withoutLink i h copy r u)
  exact frame

/-- Refutes O48: in a legal and orderly state the slab of an order need not have a record, and then a BROKE report settles
nothing, so that a placement of the slab is PLANNED afterwards, and not CUT. -/
theorem not_reportedOrdersAreCompleted : ¬ Obligations.ReportedOrdersAreCompleted := by
  intro claim
  obtain ⟨-, reports⟩ := claim
  have met := reports (Tests.report 11) true 70215 0 2 0 (Tests.sawStation _) _ Tests.runningP0 recordless recordless_legal
    recordless_orderly recordless_passes rfl rfl (by decide) (by decide) (by decide) List.mem_cons_self rfl rfl
    (by decide +kernel) (.inr (.inl rfl))
  obtain ⟨content, t, hexec, -, -, -, -, -, -, broke, -⟩ := met
  obtain ⟨-, onlyCut, -⟩ := broke rfl
  obtain ⟨p, hp, hslab, hplanned⟩ := recordless_after
  have hafter : (Tests.after brokeReport recordless).placements = t.placements := by
    unfold Tests.after brokeReport
    rw [hexec]
    exact finish_placements _ _ _ _ t
  rw [hafter] at hp
  have hcut := onlyCut p hp hslab
  rw [hplanned] at hcut
  cases hcut

end Sys2Proof.Proofs
end

