-- ==== Sys2Proof/Proofs/Accounts.lean ====
section
/-! SUPPORT. Accounts: charges, quote marks, closings and faults read and write one part of the state, and every change of
the tables leaves that part alone, so that a command's work on tables and accounts comes apart. What one charge makes
of a job record. -/

namespace Sys2Proof.Proofs

open Sys2Proof Sys2Proof.Config Sys2Proof.Machine

/-! ## Tables and accounts apart -/

/-- The tables of one state with the accounts of another: the enabled groups, the job records, the bills, the shop, the
fault block and the outbox. -/
def withAccounts (s v : State) : State :=
  { s with
    groups := v.groups
    jobs := v.jobs
    bills := v.bills
    closeCounter := v.closeCounter
    shop := v.shop
    faults := v.faults
    outbox := v.outbox }

section
variable {s t v : State} {c : Cause} {slab job n : Nat} {a : Accumulator} {j : Job}

theorem withAccounts_self (s : State) : withAccounts s s = s := rfl

@[simp] theorem job?_withAccounts (t v : State) (job : Nat) : (withAccounts t v).job? job = v.job? job := rfl

@[simp] theorem notify_withAccounts (m : Notice) (t v : State) : (withAccounts t v).notify m = withAccounts t (v.notify m) := rfl

@[simp] theorem modifyJob_withAccounts (f : Job → Job) (job : Nat) (t v : State) :
    (withAccounts t v).modifyJob job f = withAccounts t (v.modifyJob job f) := rfl

@[simp] theorem addLoss_withAccounts (n : Nat) (t v : State) : (withAccounts t v).addLoss n = withAccounts t (v.addLoss n) := rfl

@[simp] theorem addOverflow_withAccounts (n : Nat) (t v : State) :
    (withAccounts t v).addOverflow n = withAccounts t (v.addOverflow n) := rfl

@[simp] theorem addOverheadCents_withAccounts (m n : Nat) (t v : State) :
    (withAccounts t v).addOverheadCents m n = withAccounts t (v.addOverheadCents m n) := rfl

@[simp] theorem raise_withAccounts (r : FaultRecord) (t v : State) : (withAccounts t v).raise r = withAccounts t (v.raise r) := by
  cases h : v.faults.record with
  | none => rw [raise_empty (s := withAccounts t v) h, raise_empty h]; rfl
  | some x => rw [raise_locked (s := withAccounts t v) h, raise_locked h]; rfl

/-! ## What a charge does -/

/-- A record whose accumulator an addition has passed (R116, R117). -/
def filled (a : Accumulator) (j : Job) : Job := { Job.set a (accumulatorMax a) j with saturated := true }

theorem addToJob_none (hj : s.job? job = none) : s.addToJob c slab job a n = s := by
  unfold State.addToJob
  rw [hj]

theorem addToJob_fits (hj : s.job? job = some j) (hn : j.held a + n ≤ accumulatorMax a) :
    s.addToJob c slab job a n = s.modifyJob job (Job.set a (j.held a + n)) := by
  unfold State.addToJob
  rw [hj]
  exact if_pos hn

theorem addToJob_full (hj : s.job? job = some j) (hn : ¬ j.held a + n ≤ accumulatorMax a) :
    s.addToJob c slab job a n
      = (s.modifyJob job (filled a)).raise (saturatedFault c slab job a) := by
  unfold State.addToJob
  rw [hj]
  exact if_neg hn

theorem quoteCheck_none (hj : s.job? job = none) : s.quoteCheck job = s := by
  unfold State.quoteCheck
  rw [hj]

theorem quoteCheck_reached (hj : s.job? job = some j) (hq : quoteReached s.groups.quote j = true) :
    s.quoteCheck job = (s.modifyJob job (fun x => { x with overQuote := true })).notify
      (.overQuote job (j.limit.getD 0) j.sum j.hold) := by
  unfold State.quoteCheck
  rw [hj]
  exact if_pos hq

theorem quoteCheck_below (hj : s.job? job = some j) (hq : ¬ quoteReached s.groups.quote j = true) : s.quoteCheck job = s := by
  unfold State.quoteCheck
  rw [hj]
  exact if_neg hq

theorem charge_none {cents : Nat} (hj : s.job? job = none) : s.charge c slab job a cents = s := by
  unfold State.charge
  rw [hj]

theorem charge_some {cents : Nat} (hj : s.job? job = some j) :
    s.charge c slab job a cents = ((s.addOverflow (excess j a cents)).addToJob c slab job a cents).quoteCheck job := by
  unfold State.charge
  rw [hj]

@[simp] theorem addToJob_withAccounts (c : Cause) (slab job : Nat) (a : Accumulator) (n : Nat) (t v : State) :
    (withAccounts t v).addToJob c slab job a n = withAccounts t (v.addToJob c slab job a n) := by
  cases hj : v.job? job with
  | none => rw [addToJob_none (s := withAccounts t v) hj, addToJob_none hj]
  | some j =>
    by_cases hn : j.held a + n ≤ accumulatorMax a
    · rw [addToJob_fits (s := withAccounts t v) hj hn, addToJob_fits hj hn, modifyJob_withAccounts]
    · rw [addToJob_full (s := withAccounts t v) hj hn, addToJob_full hj hn, modifyJob_withAccounts, raise_withAccounts]

@[simp] theorem quoteCheck_withAccounts (job : Nat) (t v : State) :
    (withAccounts t v).quoteCheck job = withAccounts t (v.quoteCheck job) := by
  cases hj : v.job? job with
  | none => rw [quoteCheck_none (s := withAccounts t v) hj, quoteCheck_none hj]
  | some j =>
    by_cases hq : quoteReached v.groups.quote j = true
    · rw [quoteCheck_reached (s := withAccounts t v) hj hq, quoteCheck_reached hj hq, modifyJob_withAccounts,
        notify_withAccounts]
    · rw [quoteCheck_below (s := withAccounts t v) hj hq, quoteCheck_below hj hq]

@[simp] theorem charge_withAccounts (c : Cause) (slab job : Nat) (a : Accumulator) (n : Nat) (t v : State) :
    (withAccounts t v).charge c slab job a n = withAccounts t (v.charge c slab job a n) := by
  cases hj : v.job? job with
  | none => rw [charge_none (s := withAccounts t v) hj, charge_none hj]
  | some j =>
    rw [charge_some (s := withAccounts t v) hj, charge_some hj, addOverflow_withAccounts, addToJob_withAccounts,
      quoteCheck_withAccounts]

@[simp] theorem chargeShares_withAccounts (c : Cause) (slab : Nat) (l : List (Nat × Nat × Nat)) (t v : State) :
    (withAccounts t v).chargeShares c slab l = withAccounts t (v.chargeShares c slab l) := by
  unfold State.chargeShares
  induction l generalizing v with
  | nil => rfl
  | cons x xs ih => rw [List.foldl_cons, List.foldl_cons, charge_withAccounts, ih]

/-! ## Closings and counts -/

@[simp] theorem closeIfReady_withAccounts (job : Nat) (t v : State) :
    (withAccounts t v).closeIfReady job = withAccounts t (v.closeIfReady job) := by
  by_cases hready : ∀ j, v.job? job = some j → readyToClose j = false
  · rw [closeIfReady_waits (s := withAccounts t v) hready, closeIfReady_waits hready]
  · push Not at hready
    obtain ⟨j, hj, hr⟩ := hready
    have hr : readyToClose j = true := by simpa using hr
    rw [closeIfReady_ready (s := withAccounts t v) hj hr, closeIfReady_ready hj hr]
    rfl

@[simp] theorem closeOf_withAccounts (job : Option Nat) (t v : State) :
    (withAccounts t v).closeOf job = withAccounts t (v.closeOf job) := by
  cases job with
  | none => rfl
  | some j => exact closeIfReady_withAccounts j t v

theorem foldl_closeIfReady_withAccounts (ids : List Nat) (t v : State) :
    ids.foldl State.closeIfReady (withAccounts t v) = withAccounts t (ids.foldl State.closeIfReady v) := by
  induction ids generalizing v with
  | nil => rfl
  | cons x xs ih => rw [List.foldl_cons, List.foldl_cons, closeIfReady_withAccounts, ih]

@[simp] theorem closeAllReady_withAccounts (t v : State) :
    (withAccounts t v).closeAllReady = withAccounts t v.closeAllReady :=
  foldl_closeIfReady_withAccounts _ t v

@[simp] theorem closeParticipants_withAccounts (ps : List Placement) (t v : State) :
    (withAccounts t v).closeParticipants ps = withAccounts t (v.closeParticipants ps) :=
  foldl_closeIfReady_withAccounts _ t v

@[simp] theorem dropOpenOrder_withAccounts (job : Option Nat) (t v : State) :
    (withAccounts t v).dropOpenOrder job = withAccounts t (v.dropOpenOrder job) := by
  cases job <;> rfl

@[simp] theorem countPiece_withAccounts (o : CutOrder) (t v : State) :
    (withAccounts t v).countPiece o = withAccounts t (v.countPiece o) := by
  unfold State.countPiece
  cases o.job with
  | none => rfl
  | some j =>
    dsimp only
    split <;> rfl

@[simp] theorem lowerUnsettled_withAccounts (ps : List Placement) (t v : State) :
    (withAccounts t v).lowerUnsettled ps = withAccounts t (v.lowerUnsettled ps) := by
  unfold State.lowerUnsettled
  induction participants ps generalizing v with
  | nil => rfl
  | cons x xs ih => rw [List.foldl_cons, List.foldl_cons, modifyJob_withAccounts, ih]

/-! ## The tables -/

@[simp] theorem modifyStation_withAccounts (f : Station → Station) (a : Nat) (t v : State) :
    (withAccounts t v).modifyStation a f = withAccounts (t.modifyStation a f) v := rfl

@[simp] theorem modifySaw_withAccounts (f : Saw → Saw) (a : Nat) (t v : State) :
    (withAccounts t v).modifySaw a f = withAccounts (t.modifySaw a f) v := rfl

@[simp] theorem modifySlab_withAccounts (f : Slab → Slab) (a : Nat) (t v : State) :
    (withAccounts t v).modifySlab a f = withAccounts (t.modifySlab a f) v := rfl

@[simp] theorem modifyPlacement_withAccounts (f : Placement → Placement) (a i : Nat) (t v : State) :
    (withAccounts t v).modifyPlacement a i f = withAccounts (t.modifyPlacement a i f) v := rfl

@[simp] theorem present_withAccounts (a : Nat) (t v : State) : (withAccounts t v).present a = withAccounts (t.present a) v := rfl

@[simp] theorem removeOrder_withAccounts (a : Nat) (o : CutOrder) (t v : State) :
    (withAccounts t v).removeOrder a o = withAccounts (t.modifySaw a (Saw.removeOrder o)) (v.dropOpenOrder o.job) := by
  rw [State.removeOrder, modifySaw_withAccounts, dropOpenOrder_withAccounts]

@[simp] theorem returnPlacement_withAccounts (a i : Nat) (t v : State) :
    (withAccounts t v).returnPlacement a i = withAccounts (t.returnPlacement a i) v := by
  cases hp : t.placement? a i with
  | none =>
    have hp' : (withAccounts t v).placement? a i = none := hp
    unfold State.returnPlacement
    rw [hp', hp]
  | some p => rw [returnPlacement_eq (s := withAccounts t v) hp, returnPlacement_eq hp]; rfl

end

/-! ## One job's record under a charge -/

/-- A record after an addition to an accumulator (R116). -/
def added (a : Accumulator) (n : Nat) (j : Job) : Job :=
  if j.held a + n ≤ accumulatorMax a then Job.set a (j.held a + n) j
  else filled a j

/-- A record after the quote check (R120). -/
def quoted (on : Bool) (j : Job) : Job := if quoteReached on j then { j with overQuote := true } else j

/-- A record after a charge. -/
def charged (on : Bool) (a : Accumulator) (n : Nat) (j : Job) : Job := quoted on (added a n j)

/-- What no charge touches in a record. -/
def jobCore (j : Job) : Job :=
  { j with
    overQuote := false, saturated := false, material := 0, saw := 0, wear := 0, water := 0, recycled := 0, fresh := 0,
    bladeSeconds := 0 }

section
variable {s v : State} {c : Cause} {slab job m n : Nat} {a b : Accumulator} {j : Job} {on : Bool}

theorem set_id (a : Accumulator) (n : Nat) (j : Job) : (j.set a n).id = j.id := by cases a <;> rfl

theorem jobCore_set (a : Accumulator) (n : Nat) (j : Job) : jobCore (j.set a n) = jobCore j := by cases a <;> rfl

theorem filled_id (a : Accumulator) (j : Job) : (filled a j).id = j.id := by cases a <;> rfl

theorem jobCore_filled (a : Accumulator) (j : Job) : jobCore (filled a j) = jobCore j := by cases a <;> rfl

theorem held_filled (a b : Accumulator) (j : Job) : (filled a j).held b = if b = a then accumulatorMax a else j.held b := by
  cases a <;> cases b <;> rfl

theorem held_set (a b : Accumulator) (n : Nat) (j : Job) : (j.set a n).held b = if b = a then n else j.held b := by
  cases a <;> cases b <;> rfl

theorem jobCore_added (a : Accumulator) (n : Nat) (j : Job) : jobCore (added a n j) = jobCore j := by
  unfold added
  split
  · exact jobCore_set a _ j
  · exact jobCore_filled a j

theorem jobCore_quoted (on : Bool) (j : Job) : jobCore (quoted on j) = jobCore j := by
  unfold quoted
  split <;> rfl

theorem jobCore_charged (on : Bool) (a : Accumulator) (n : Nat) (j : Job) : jobCore (charged on a n j) = jobCore j :=
  (jobCore_quoted on _).trans (jobCore_added a n j)

theorem added_id (a : Accumulator) (n : Nat) (j : Job) : (added a n j).id = j.id := by
  have core := congrArg Job.id (jobCore_added a n j)
  exact core

theorem quoted_id (on : Bool) (j : Job) : (quoted on j).id = j.id := by
  have core := congrArg Job.id (jobCore_quoted on j)
  exact core

/-- R116: what an accumulator holds after an addition, and what the others hold. -/
theorem held_added (a b : Accumulator) (n : Nat) (j : Job) :
    (added a n j).held b = if b = a then min (accumulatorMax a) (j.held a + n) else j.held b := by
  unfold added
  split
  · rename_i hn
    rw [held_set, min_eq_right hn]
  · rename_i hn
    rw [held_filled, min_eq_left (by omega)]

theorem held_quoted (on : Bool) (b : Accumulator) (j : Job) : (quoted on j).held b = j.held b := by
  unfold quoted
  split
  · cases b <;> rfl
  · rfl

theorem held_charged (on : Bool) (a b : Accumulator) (n : Nat) (j : Job) :
    (charged on a n j).held b = if b = a then min (accumulatorMax a) (j.held a + n) else j.held b :=
  (held_quoted on b _).trans (held_added a b n j)

/-! ## The job table under a charge -/

theorem raise_jobs (r : FaultRecord) (s : State) : (s.raise r).jobs = s.jobs := by
  unfold State.raise State.recordFault
  split <;> rfl

theorem job?_raise (r : FaultRecord) (s : State) (job : Nat) : (s.raise r).job? job = s.job? job := by
  unfold State.job?
  rw [raise_jobs]

theorem job?_addToJob (hj : s.job? job = some j) : (s.addToJob c slab job a n).job? job = some (added a n j) := by
  by_cases hn : j.held a + n ≤ accumulatorMax a
  · rw [addToJob_fits hj hn, job?_modifyJob_self (fun x => set_id a _ x) hj, added, if_pos hn]
  · rw [addToJob_full hj hn, job?_raise, job?_modifyJob_self (filled_id a) hj, added, if_neg hn]

theorem job?_modifyJob_other {f : Job → Job} (hf : ∀ x, (f x).id = x.id) (h : m ≠ job) :
    (s.modifyJob job f).job? m = s.job? m := by
  rw [job?_modifyJob (fun x _ => hf x)]
  cases hm : s.job? m with
  | none => rfl
  | some y => rw [Option.map_some, if_neg (job?_id hm ▸ h)]

theorem job?_addToJob_other (h : m ≠ job) : (s.addToJob c slab job a n).job? m = s.job? m := by
  cases hj : s.job? job with
  | none => rw [addToJob_none hj]
  | some j =>
    by_cases hn : j.held a + n ≤ accumulatorMax a
    · rw [addToJob_fits hj hn, job?_modifyJob_other (fun x => set_id a _ x) h]
    · rw [addToJob_full hj hn, job?_raise, job?_modifyJob_other (filled_id a) h]

theorem job?_quoteCheck (hj : s.job? job = some j) : (s.quoteCheck job).job? job = some (quoted s.groups.quote j) := by
  unfold quoted
  split
  · rename_i hq
    rw [quoteCheck_reached hj hq]
    exact job?_modifyJob_self (f := fun x => { x with overQuote := true }) (fun _ => rfl) hj
  · rename_i hq
    rw [quoteCheck_below hj hq, hj]

theorem job?_quoteCheck_other (h : m ≠ job) : (s.quoteCheck job).job? m = s.job? m := by
  cases hj : s.job? job with
  | none => rw [quoteCheck_none hj]
  | some j =>
    by_cases hq : quoteReached s.groups.quote j = true
    · rw [quoteCheck_reached hj hq]
      exact job?_modifyJob_other (f := fun x => { x with overQuote := true }) (fun _ => rfl) h
    · rw [quoteCheck_below hj hq]

theorem addToJob_groups : (s.addToJob c slab job a n).groups = s.groups := by
  have frame := congrArg State.groups (addToJob_exceptAccounts c slab job a n s)
  exact frame

theorem charge_groups : (s.charge c slab job a n).groups = s.groups := by
  have frame := congrArg State.groups (charge_exceptAccounts c slab job a n s)
  exact frame

theorem job?_charge (hj : s.job? job = some j) :
    (s.charge c slab job a n).job? job = some (charged s.groups.quote a n j) := by
  rw [charge_some hj]
  have hadd := job?_addToJob (s := s.addOverflow (excess j a n)) (c := c) (slab := slab) (a := a) (n := n) hj
  rw [job?_quoteCheck hadd, addToJob_groups]
  rfl

theorem job?_charge_other (h : m ≠ job) : (s.charge c slab job a n).job? m = s.job? m := by
  cases hj : s.job? job with
  | none => rw [charge_none hj]
  | some j =>
    rw [charge_some hj, job?_quoteCheck_other h, job?_addToJob_other h]
    rfl

/-- A record of a job exists after charges where one did before. -/
theorem job?_charge_none (hm : s.job? m = none) : (s.charge c slab job a n).job? m = none := by
  by_cases h : m = job
  · rw [charge_none (h ▸ hm), hm]
  · rw [job?_charge_other h, hm]

theorem jobs_modifyJob_core {f : Job → Job} (hf : ∀ x, jobCore (f x) = jobCore x) :
    (s.modifyJob job f).jobs.map jobCore = s.jobs.map jobCore := by
  show (modifyBy Job.id job f s.jobs).map jobCore = _
  unfold modifyBy
  rw [List.map_map]
  refine List.map_congr_left (fun x _ => ?_)
  rw [Function.comp_apply]
  split
  · exact hf x
  · rfl

theorem addToJob_core : (s.addToJob c slab job a n).jobs.map jobCore = s.jobs.map jobCore := by
  cases hj : s.job? job with
  | none => rw [addToJob_none hj]
  | some j =>
    by_cases hn : j.held a + n ≤ accumulatorMax a
    · rw [addToJob_fits hj hn, jobs_modifyJob_core (fun x => jobCore_set a _ x)]
    · rw [addToJob_full hj hn, raise_jobs, jobs_modifyJob_core (jobCore_filled a)]

theorem charge_core : (s.charge c slab job a n).jobs.map jobCore = s.jobs.map jobCore := by
  cases hj : s.job? job with
  | none => rw [charge_none hj]
  | some j =>
    have hadd : ((s.addOverflow (excess j a n)).addToJob c slab job a n).jobs.map jobCore = s.jobs.map jobCore := addToJob_core
    have hfound := job?_addToJob (s := s.addOverflow (excess j a n)) (c := c) (slab := slab) (a := a) (n := n) hj
    rw [charge_some hj]
    by_cases hq : quoteReached ((s.addOverflow (excess j a n)).addToJob c slab job a n).groups.quote (added a n j) = true
    · rw [quoteCheck_reached hfound hq]
      exact (jobs_modifyJob_core (f := fun x => { x with overQuote := true }) (fun _ => rfl)).trans hadd
    · rw [quoteCheck_below hfound hq, hadd]

/-! ## What else a charge leaves alone -/

/-- The state without the job records, the overflow, the fault record and the outbox. -/
def exceptCharges (s : State) : State :=
  { s with
    jobs := []
    shop := { s.shop with overflow := 0 }
    faults := { s.faults with record := none, moreFaults := false, count := 0 }
    outbox := [] }

theorem raise_exceptCharges (r : FaultRecord) (s : State) : exceptCharges (s.raise r) = exceptCharges s := by
  unfold State.raise State.recordFault
  split <;> rfl

theorem addToJob_exceptCharges : exceptCharges (s.addToJob c slab job a n) = exceptCharges s := by
  cases hj : s.job? job with
  | none => rw [addToJob_none hj]
  | some j =>
    by_cases hn : j.held a + n ≤ accumulatorMax a
    · rw [addToJob_fits hj hn]; rfl
    · rw [addToJob_full hj hn, raise_exceptCharges]; rfl

theorem charge_exceptCharges : exceptCharges (s.charge c slab job a n) = exceptCharges s := by
  cases hj : s.job? job with
  | none => rw [charge_none hj]
  | some j =>
    have hadd : exceptCharges ((s.addOverflow (excess j a n)).addToJob c slab job a n) = exceptCharges s :=
      addToJob_exceptCharges
    have hfound := job?_addToJob (s := s.addOverflow (excess j a n)) (c := c) (slab := slab) (a := a) (n := n) hj
    rw [charge_some hj]
    by_cases hq : quoteReached ((s.addOverflow (excess j a n)).addToJob c slab job a n).groups.quote (added a n j) = true
    · rw [quoteCheck_reached hfound hq]
      exact hadd
    · rw [quoteCheck_below hfound hq, hadd]

end

end Sys2Proof.Proofs
end

