-- ==== Sys2Proof/Proofs/Completions.lean ====
section
/-! SUPPORT. The completion of an order (R87): its tables and its accounts, each as one chain of changes. A ledger of the
charges that fit their accumulators, with the one OVER_QUOTE they may offer. Settles O47. -/

namespace Sys2Proof.Proofs

open Sys2Proof Sys2Proof.Config Sys2Proof.Machine

/-! ## The two halves of a completion -/

/-- The accounts of the charges to a job (R114). -/
def cutCharges (c : Cause) (o : CutOrder) (job saw wear water material : Nat) (piece : Bool) (seconds : Nat) (v : State) :
    State :=
  let v := ((v.charge c o.slab job .saw saw).charge c o.slab job .wear wear).charge c o.slab job .water water
  let v := if piece then v.charge c o.slab job .material material else v
  ((v.addToJob c o.slab job .recycled o.recycled).addToJob c o.slab job .fresh o.fresh).addToJob c o.slab job .bladeSeconds
    seconds

section
variable {s t v : State} {c : Cause} {o : CutOrder} {job saw wear water material n : Nat} {w : SawConfig}

theorem chargeCut_withAccounts (piece : Bool) (t v : State) :
    (withAccounts t v).chargeCut c o job saw wear water material piece n
      = withAccounts (if piece then t.modifySlab o.slab (fun x => { x with allocated := x.allocated + material }) else t)
          (cutCharges c o job saw wear water material piece n v) := by
  unfold State.chargeCut cutCharges State.chargeMaterial
  cases piece <;> simp

/-- What a completion charges to a job: the accounts after its four amounts and three quantities. -/
def jobCharges (c : Cause) (w : SawConfig) (o : CutOrder) (job water material : Nat) (piece : Bool) (n : Nat) (v : State) :
    State :=
  cutCharges c o job (bladeCharge n w.sawRate) (bladeCharge n w.wearRate) water material piece n v

theorem completionCharges_job {oc : Outcome3} (ho : o.job = some job) (t v : State) :
    (withAccounts t v).completionCharges c w o oc n
      = (⟨bladeCharge n w.sawRate, bladeCharge n w.wearRate, waterCharge t.rates o.recycled o.fresh, t.materialOf o oc, false,
          o.fresh, o.recycled,
          (jobCharges c w o job (waterCharge t.rates o.recycled o.fresh) (t.materialOf o oc)
            (o.kind.isPiece && decide (oc = .done)) n v).isSaturated job && !v.isSaturated job,
          (jobCharges c w o job (waterCharge t.rates o.recycled o.fresh) (t.materialOf o oc)
            (o.kind.isPiece && decide (oc = .done)) n v).isOverQuote job && !v.isOverQuote job⟩,
        withAccounts (if o.kind.isPiece && decide (oc = .done) then t.modifySlab o.slab (fun x =>
            { x with allocated := x.allocated + t.materialOf o oc }) else t)
          (jobCharges c w o job (waterCharge t.rates o.recycled o.fresh) (t.materialOf o oc)
            (o.kind.isPiece && decide (oc = .done)) n v)) := by
  unfold State.completionCharges
  rw [ho]
  dsimp only
  rw [chargeCut_withAccounts]
  rfl

theorem completionCharges_overhead {oc : Outcome3} (ho : o.job = none) (t v : State) :
    (withAccounts t v).completionCharges c w o oc n
      = (⟨bladeCharge n w.sawRate, bladeCharge n w.wearRate, 0, 0, true, o.fresh, o.recycled, false, false⟩,
        withAccounts t (v.addOverheadCents (bladeCharge n w.sawRate) (bladeCharge n w.wearRate))) := by
  unfold State.completionCharges
  rw [ho]
  rfl

theorem complete_account {oc : Outcome3} : (s.complete c w o oc n).1
    = ((s.modifySaw o.saw (Saw.addSeconds n)).completionCharges c w o oc n).1 := rfl

theorem complete_done : (s.complete c w o .done n).2
    = (((((s.modifySaw o.saw (Saw.addSeconds n)).completionCharges c w o .done n).2).placeOutcome o .done).removeOrder o.saw
        o).closeOf o.job := rfl

theorem complete_abandoned : (s.complete c w o .abandoned n).2
    = (((((s.modifySaw o.saw (Saw.addSeconds n)).completionCharges c w o .abandoned n).2).returnPlacement o.slab
        o.index).removeOrder o.saw o).closeOf o.job := rfl

theorem placeOutcome_done (t v : State) : (withAccounts t v).placeOutcome o .done
    = withAccounts ((t.modifyPlacement o.slab o.index (fun p => { p with state := .cut })).modifySlab o.slab
        (fun x => { x with cutMark := true })) (v.countPiece o) := by
  unfold State.placeOutcome
  rw [modifyPlacement_withAccounts, modifySlab_withAccounts, countPiece_withAccounts]

/-- A saw's part after the completion of an order on it (R53, R56). -/
def sawCompleted (o : CutOrder) (n : Nat) (w : Saw) : Saw :=
  { w with
    bladeSeconds := min 4294967295 (w.bladeSeconds + n)
    queue := w.queue.filter (fun y => decide (¬ (y.slab = o.slab ∧ y.index = o.index)))
    lastDelivered := if w.lastDelivered = some (o.slab, o.index) then none else w.lastDelivered
    ackTimer := if o.state = .delivered then none else w.ackTimer }

theorem removeOrder_addSeconds (o : CutOrder) (n : Nat) (w : Saw) :
    Saw.removeOrder o (Saw.addSeconds n w) = sawCompleted o n w := by
  rw [removeOrder_eq]
  rfl

/-- The tables after a DONE order of a piece (R88, R115). -/
def tablesCut (o : CutOrder) (n material : Nat) (t : State) : State :=
  { t with
    stations := (t.modifySaw o.saw (sawCompleted o n)).stations
    slabs := t.slabs.map (fun y =>
      if y.id = o.slab then { y with allocated := y.allocated + material, cutMark := true } else y)
    placements := t.placements.map (fun q => if q.slab = o.slab ∧ q.index = o.index then { q with state := .cut } else q) }

theorem tablesCut_eq (o : CutOrder) (n material : Nat) (t : State) :
    ((((t.modifySaw o.saw (Saw.addSeconds n)).modifySlab o.slab (fun x => { x with allocated := x.allocated + material })).modifyPlacement
        o.slab o.index (fun p => { p with state := .cut })).modifySlab o.slab (fun x => { x with cutMark := true })).modifySaw
          o.saw (Saw.removeOrder o) = tablesCut o n material t := by
  have hst : ((t.modifySaw o.saw (Saw.addSeconds n)).modifySaw o.saw (Saw.removeOrder o)).stations
      = (t.modifySaw o.saw (sawCompleted o n)).stations := by
    rw [modifySaw_modifySaw, funext (removeOrder_addSeconds o n)]
  have hslabs : modifyBy Slab.id o.slab (fun x => { x with cutMark := true })
        (modifyBy Slab.id o.slab (fun x => { x with allocated := x.allocated + material }) t.slabs)
      = t.slabs.map (fun y => if y.id = o.slab then { y with allocated := y.allocated + material, cutMark := true } else y) := by
    unfold modifyBy
    rw [List.map_map]
    refine List.map_congr_left (fun y _ => ?_)
    by_cases h : y.id = o.slab <;> simp [h]
  have hpl : (t.modifyPlacement o.slab o.index (fun p => { p with state := .cut })).placements
      = t.placements.map (fun q => if q.slab = o.slab ∧ q.index = o.index then { q with state := .cut } else q) := by
    show t.placements.map _ = _
    simp only [at_iff]
  unfold tablesCut
  rw [← hst, ← hslabs, ← hpl]
  rfl

theorem countPiece_piece (ho : o.job = some job) (hk : o.kind.isPiece = true) (s : State) :
    s.countPiece o = s.modifyJob job (fun x => { x with piecesCut := min 65535 (x.piecesCut + 1), unsettled := x.unsettled + 1 }) := by
  unfold State.countPiece
  rw [ho]
  exact if_pos hk

theorem complete_done_piece (ho : o.job = some job) (hk : o.kind.isPiece = true) (t v : State) :
    ((withAccounts t v).complete c w o .done n).2
      = withAccounts (tablesCut o n (t.materialOf o .done) t)
          ((((jobCharges c w o job (waterCharge t.rates o.recycled o.fresh) (t.materialOf o .done) true n v).countPiece
            o).dropOpenOrder o.job).closeOf o.job) := by
  rw [complete_done, modifySaw_withAccounts, completionCharges_job ho]
  dsimp only
  have hpiece : (o.kind.isPiece && decide (Outcome3.done = Outcome3.done)) = true := by rw [hk]; rfl
  rw [hpiece, if_pos rfl, placeOutcome_done, removeOrder_withAccounts, closeOf_withAccounts]
  exact congrArg (fun u => withAccounts u _) (tablesCut_eq o n _ t)

end

/-! ## A ledger of charges that fit (R116, R120) -/

/-- The OVER_QUOTE that a job offers when charges bring its sum to each of `sums` in turn. -/
def noted (on : Bool) (job : Nat) (j : Job) (sums : List Nat) : List Outgoing :=
  match j.limit with
  | none => []
  | some l =>
    if on = true ∧ j.overQuote = false then
      (sums.find? (fun m => decide (l ≤ m))).toList.map (fun m => Outgoing.notice (.overQuote job l m j.hold))
    else []

/-- Whether the job is marked over its quote by then. -/
def markedBy (on : Bool) (job : Nat) (j : Job) (sums : List Nat) : Bool := j.overQuote || !(noted on job j sums).isEmpty

section
variable {s v : State} {c : Cause} {slab job m n l : Nat} {a : Accumulator} {j z : Job} {on : Bool} {sums : List Nat}

theorem noted_limit (hl : j.limit = some l) (hon : on = true) (hq : j.overQuote = false) :
    noted on job j sums
      = (sums.find? (fun m => decide (l ≤ m))).toList.map (fun m => Outgoing.notice (.overQuote job l m j.hold)) := by
  unfold noted
  rw [hl]
  exact if_pos ⟨hon, hq⟩

theorem noted_unlimited (hl : j.limit = none) : noted on job j sums = [] := by
  unfold noted
  rw [hl]

theorem noted_unwatched (h : ¬ (on = true ∧ j.overQuote = false)) : noted on job j sums = [] := by
  unfold noted
  split
  · rfl
  · exact if_neg h

/-- One sum more that reaches the limit of an unmarked job. -/
theorem noted_snoc_reached (hl : j.limit = some l) (hon : on = true) (hm : l ≤ m) (hmark : markedBy on job j sums = false) :
    noted on job j sums = [] ∧ noted on job j (sums ++ [m]) = [.notice (.overQuote job l m j.hold)] := by
  unfold markedBy at hmark
  rw [Bool.or_eq_false_iff, Bool.not_eq_false', List.isEmpty_iff] at hmark
  obtain ⟨hq, hempty⟩ := hmark
  refine ⟨hempty, ?_⟩
  rw [noted_limit hl hon hq] at hempty ⊢
  have hnone : sums.find? (fun m => decide (l ≤ m)) = none := by
    cases hf : sums.find? (fun m => decide (l ≤ m)) with
    | none => rfl
    | some x => rw [hf] at hempty; cases hempty
  rw [List.find?_append, hnone, Option.none_or, List.find?_cons_of_pos (p := fun m => decide (l ≤ m)) (decide_eq_true hm)]
  rfl

/-- One sum more that does not, or of a job already marked. -/
theorem noted_snoc_below (h : ¬ (on = true ∧ markedBy on job j sums = false ∧ ∃ l, j.limit = some l ∧ l ≤ m)) :
    noted on job j (sums ++ [m]) = noted on job j sums := by
  cases hl : j.limit with
  | none => rw [noted_unlimited hl, noted_unlimited hl]
  | some l =>
    by_cases hw : on = true ∧ j.overQuote = false
    · obtain ⟨hon, hq⟩ := hw
      rw [noted_limit hl hon hq, noted_limit hl hon hq, List.find?_append]
      cases hf : sums.find? (fun m => decide (l ≤ m)) with
      | some x => rfl
      | none =>
        have hmark : markedBy on job j sums = false := by
          unfold markedBy
          rw [noted_limit hl hon hq, hf, hq]
          rfl
        have hm : ¬ l ≤ m := fun hm => h ⟨hon, hmark, l, hl, hm⟩
        rw [Option.none_or, List.find?_cons_of_neg (p := fun m => decide (l ≤ m)) (fun hc => hm (of_decide_eq_true hc))]
        rfl
    · rw [noted_unwatched hw, noted_unwatched hw]

/-- The accounts `v` reached from `s` by charges to one job that all fit: the job's record is `z` but for its mark, and
nothing else has changed but the OVER_QUOTE it offers. -/
structure Ledger (s v : State) (job : Nat) (j : Job) (sums : List Nat) (z : Job) : Prop where
  found : v.job? job = some { z with overQuote := markedBy s.groups.quote job j sums }
  others : ∀ n, n ≠ job → v.job? n = s.job? n
  frame : { v with jobs := s.jobs, outbox := s.outbox } = s
  outbox : v.outbox = s.outbox ++ noted s.groups.quote job j sums
  limit : z.limit = j.limit
  hold : z.hold = j.hold

theorem Ledger.start (hj : s.job? job = some j) : Ledger s s job j [] j := by
  have hnoted : noted s.groups.quote job j [] = [] := by
    unfold noted
    split
    · rfl
    · split <;> rfl
  have hmark : markedBy s.groups.quote job j [] = j.overQuote := by
    unfold markedBy
    rw [hnoted]
    exact Bool.or_false _
  exact ⟨by rw [hj, hmark], fun _ _ => rfl, rfl, by rw [hnoted, List.append_nil], rfl, rfl⟩

theorem set_limit (a : Accumulator) (n : Nat) (j : Job) : (j.set a n).limit = j.limit ∧ (j.set a n).hold = j.hold := by
  cases a <;> exact ⟨rfl, rfl⟩

theorem set_marked (a : Accumulator) (n : Nat) (b : Bool) (j : Job) :
    Job.set a n { j with overQuote := b } = { j.set a n with overQuote := b } := by cases a <;> rfl

theorem held_marked (a : Accumulator) (b : Bool) (j : Job) : ({ j with overQuote := b } : Job).held a = j.held a := by
  cases a <;> rfl

/-- A quantity that fits (R117). -/
theorem Ledger.quantity (h : Ledger s v job j sums z) (hn : z.held a + n ≤ accumulatorMax a) :
    Ledger s (v.addToJob c slab job a n) job j sums (z.set a (z.held a + n)) := by
  have hfit := addToJob_fits (c := c) (slab := slab) (a := a) (n := n) h.found (by rw [held_marked]; exact hn)
  rw [held_marked] at hfit
  rw [hfit]
  have hlimit := set_limit a (z.held a + n) z
  refine ⟨?_, fun m hm => ?_, h.frame, h.outbox, hlimit.1.trans h.limit, hlimit.2.trans h.hold⟩
  · rw [job?_modifyJob_self (fun x => set_id a _ x) h.found, set_marked]
  · rw [job?_modifyJob_other (fun x => set_id a _ x) hm, h.others m hm]

theorem charge_fits (hj : v.job? job = some z) (hn : z.held a + n ≤ accumulatorMax a) (ho : v.shop.overflow ≤ max63) :
    v.charge c slab job a n = (v.modifyJob job (Job.set a (z.held a + n))).quoteCheck job := by
  have hexcess : excess z a n = 0 := Nat.sub_eq_zero_of_le hn
  have hflow : v.addOverflow 0 = v := by
    have hsat : satAdd max63 v.shop.overflow 0 = v.shop.overflow := min_eq_right ho
    unfold State.addOverflow
    rw [hsat]
  rw [charge_some hj, hexcess, hflow, addToJob_fits hj hn]

theorem quoteReached_iff {on : Bool} {y : Job} :
    quoteReached on y = true ↔ on = true ∧ y.overQuote = false ∧ ∃ l, y.limit = some l ∧ l ≤ y.sum := by
  unfold quoteReached
  cases hl : y.limit with
  | none => simp
  | some l =>
    rw [Bool.and_eq_true, Bool.and_eq_true, decide_eq_true_iff, Bool.not_eq_true']
    constructor
    · rintro ⟨⟨hon, hs⟩, hq⟩
      exact ⟨hon, hq, l, rfl, hs⟩
    · rintro ⟨hon, hq, k, hk, hs⟩
      cases hk
      exact ⟨⟨hon, hs⟩, hq⟩

/-- A charge in cents that fits, after which the quote is checked. -/
theorem Ledger.cents (h : Ledger s v job j sums z) (hn : z.held a + n ≤ accumulatorMax a) (ho : s.shop.overflow ≤ max63)
    (hsum : (z.set a (z.held a + n)).sum = m) :
    Ledger s (v.charge c slab job a n) job j (sums ++ [m]) (z.set a (z.held a + n)) := by
  have hshop : v.shop = s.shop := by
    have := congrArg State.shop h.frame
    exact this
  have hgroups : v.groups = s.groups := by
    have := congrArg State.groups h.frame
    exact this
  have hfit := charge_fits (c := c) (slab := slab) (a := a) (n := n) h.found (by rw [held_marked]; exact hn)
    (by rw [hshop]; exact ho)
  rw [held_marked] at hfit
  have hfound : (v.modifyJob job (Job.set a (z.held a + n))).job? job
      = some { z.set a (z.held a + n) with overQuote := markedBy s.groups.quote job j sums } := by
    rw [job?_modifyJob_self (fun x => set_id a _ x) h.found, set_marked]
  have hothers (k : Nat) (hk : k ≠ job) : (v.modifyJob job (Job.set a (z.held a + n))).job? k = s.job? k := by
    rw [job?_modifyJob_other (fun x => set_id a _ x) hk, h.others k hk]
  obtain ⟨hl, hh⟩ := set_limit a (z.held a + n) z
  rw [hfit]
  by_cases hreached : s.groups.quote = true ∧ markedBy s.groups.quote job j sums = false ∧ ∃ l, j.limit = some l ∧ l ≤ m
  · obtain ⟨hon, hmark, l, hlimit, hle⟩ := hreached
    obtain ⟨hbefore, hafter⟩ := noted_snoc_reached hlimit hon hle hmark
    have hzl : (z.set a (z.held a + n)).limit = some l := hl.trans (h.limit.trans hlimit)
    have hq : quoteReached s.groups.quote
        { z.set a (z.held a + n) with overQuote := markedBy s.groups.quote job j sums } = true :=
      quoteReached_iff.2 ⟨hon, hmark, l, hzl, hle.trans (Nat.le_of_eq hsum.symm)⟩
    have hmarked : markedBy s.groups.quote job j (sums ++ [m]) = true := by
      unfold markedBy
      rw [hafter]
      exact Bool.or_true _
    rw [quoteCheck_reached hfound (by rw [show (v.modifyJob job _).groups = s.groups from hgroups]; exact hq)]
    refine ⟨?_, fun k hk => ?_, h.frame, ?_, hl.trans h.limit, hh.trans h.hold⟩
    · rw [hmarked]
      have hset := job?_modifyJob_self (f := fun x => { x with overQuote := true }) (fun _ => rfl) hfound
      exact hset
    · exact (job?_modifyJob_other (f := fun x => { x with overQuote := true }) (fun _ => rfl) hk).trans (hothers k hk)
    · show v.outbox ++ [.notice (.overQuote job ((z.set a (z.held a + n)).limit.getD 0) (z.set a (z.held a + n)).sum
          (z.set a (z.held a + n)).hold)] = _
      rw [h.outbox, hbefore, hafter, hzl, hsum, hh, h.hold, List.append_nil]
      rfl
  · have hsame := noted_snoc_below hreached
    have hmark : markedBy s.groups.quote job j (sums ++ [m]) = markedBy s.groups.quote job j sums := by
      unfold markedBy
      rw [hsame]
    have hq : ¬ quoteReached s.groups.quote
        { z.set a (z.held a + n) with overQuote := markedBy s.groups.quote job j sums } = true := by
      rw [quoteReached_iff]
      rintro ⟨hon, hno, l, hlimit, hle⟩
      exact hreached ⟨hon, hno, l, (hl.trans h.limit).symm.trans hlimit, hle.trans (Nat.le_of_eq hsum)⟩
    rw [quoteCheck_below hfound (by rw [show (v.modifyJob job _).groups = s.groups from hgroups]; exact hq)]
    refine ⟨?_, hothers, h.frame, ?_, hl.trans h.limit, hh.trans h.hold⟩
    · rw [hmark, hfound]
    · rw [hsame]
      exact h.outbox

/-- The quote as a whole: the job is marked when its sum ends at or above the limit, for no sum falls. -/
theorem markedBy_iff (hmono : ∀ x ∈ sums, x ≤ m) (hlast : m ∈ sums) :
    markedBy on job j sums = (j.overQuote || decide (on = true ∧ j.overQuote = false ∧ ∃ l, j.limit = some l ∧ l ≤ m)) := by
  unfold markedBy
  congr 1
  rw [Bool.eq_iff_iff, Bool.not_eq_true', decide_eq_true_iff, ← Bool.not_eq_true, List.isEmpty_iff]
  cases hl : j.limit with
  | none => simp [noted_unlimited hl]
  | some l =>
    by_cases hw : on = true ∧ j.overQuote = false
    · rw [noted_limit hl hw.1 hw.2]
      constructor
      · intro hne
        cases hf : sums.find? (fun m => decide (l ≤ m)) with
        | none => rw [hf] at hne; exact absurd rfl hne
        | some x =>
          have hx : l ≤ x := by
            have := List.find?_some hf
            exact of_decide_eq_true this
          exact ⟨hw.1, hw.2, l, rfl, hx.trans (hmono x (List.mem_of_find?_eq_some hf))⟩
      · rintro ⟨-, -, k, hk, hle⟩ hempty
        cases hk
        have hnone : sums.find? (fun m => decide (l ≤ m)) ≠ none := fun hn =>
          List.find?_eq_none.1 hn m hlast (decide_eq_true hle)
        cases hf : sums.find? (fun m => decide (l ≤ m)) with
        | none => exact hnone hf
        | some x => rw [hf] at hempty; cases hempty
    · rw [noted_unwatched hw]
      constructor
      · intro hne
        exact absurd rfl hne
      · rintro ⟨hon, hq, -⟩
        exact absurd ⟨hon, hq⟩ hw

end

/-! ## A DONE piece (R85 to R88) -/

section
variable {s v : State} {c : Cause} {o : CutOrder} {job saw wear water material n : Nat} {j : Job}

/-- A record with the amounts and quantities of a DONE piece. -/
def pieceCharged (o : CutOrder) (saw wear water material n : Nat) (j : Job) : Job :=
  { j with
    saw := j.saw + saw
    wear := j.wear + wear
    water := j.water + water
    material := j.material + material
    recycled := j.recycled + o.recycled
    fresh := j.fresh + o.fresh
    bladeSeconds := j.bladeSeconds + n }

/-- The job's sum after each of the four charges, in their order (log entry 38). -/
def pieceSums (j : Job) (saw wear water material : Nat) : List Nat :=
  [j.sum + saw, j.sum + saw + wear, j.sum + saw + wear + water, j.sum + saw + wear + water + material]

theorem cutCharges_ledger (hj : s.job? job = some j) (hover : s.shop.overflow ≤ max63) (hsaw : j.saw + saw ≤ maxCharge)
    (hwear : j.wear + wear ≤ maxCharge) (hwater : j.water + water ≤ maxCharge) (hmat : j.material + material ≤ maxCharge)
    (hrec : j.recycled + o.recycled ≤ max48) (hfresh : j.fresh + o.fresh ≤ max48) (hsec : j.bladeSeconds + n ≤ max32) :
    Ledger s (cutCharges c o job saw wear water material true n s) job j (pieceSums j saw wear water material)
      (pieceCharged o saw wear water material n j) := by
  have l1 : Ledger s (s.charge c o.slab job .saw saw) job j [j.sum + saw] { j with saw := j.saw + saw } :=
    (Ledger.start hj).cents hsaw hover (by show j.material + (j.saw + saw) + j.wear + j.water = _; unfold Job.sum; omega)
  have l2 : Ledger s _ job j [j.sum + saw, j.sum + saw + wear] { j with saw := j.saw + saw, wear := j.wear + wear } :=
    l1.cents (c := c) (slab := o.slab) (a := .wear) hwear hover
      (by show j.material + (j.saw + saw) + (j.wear + wear) + j.water = _; unfold Job.sum; omega)
  have l3 : Ledger s _ job j [j.sum + saw, j.sum + saw + wear, j.sum + saw + wear + water]
      { j with saw := j.saw + saw, wear := j.wear + wear, water := j.water + water } :=
    l2.cents (c := c) (slab := o.slab) (a := .water) hwater hover
      (by show j.material + (j.saw + saw) + (j.wear + wear) + (j.water + water) = _; unfold Job.sum; omega)
  have l4 : Ledger s _ job j (pieceSums j saw wear water material)
      { j with saw := j.saw + saw, wear := j.wear + wear, water := j.water + water, material := j.material + material } :=
    l3.cents (c := c) (slab := o.slab) (a := .material) hmat hover
      (by show j.material + material + (j.saw + saw) + (j.wear + wear) + (j.water + water) = _; unfold Job.sum; omega)
  have l5 : Ledger s _ job j (pieceSums j saw wear water material)
      { j with
        saw := j.saw + saw, wear := j.wear + wear, water := j.water + water, material := j.material + material,
        recycled := j.recycled + o.recycled } :=
    l4.quantity (c := c) (slab := o.slab) (a := .recycled) hrec
  have l6 : Ledger s _ job j (pieceSums j saw wear water material)
      { j with
        saw := j.saw + saw, wear := j.wear + wear, water := j.water + water, material := j.material + material,
        recycled := j.recycled + o.recycled, fresh := j.fresh + o.fresh } :=
    l5.quantity (c := c) (slab := o.slab) (a := .fresh) hfresh
  exact l6.quantity (c := c) (slab := o.slab) (a := .bladeSeconds) hsec

/-- A record when a piece of it is counted and one of its orders is gone (R135). -/
def pieceCounted (n : Nat) (x : Job) : Job :=
  { x with piecesCut := min 65535 (x.piecesCut + n), unsettled := x.unsettled + n, openOrders := x.openOrders - 1 }

theorem pieceCounted_id (n : Nat) (x : Job) : (pieceCounted n x).id = x.id := rfl

/-- A counted piece keeps its job from closing. -/
theorem pieceCounted_eq (ho : o.job = some job) (hk : o.kind.isPiece = true) {y : Job} (hy : v.job? job = some y) :
    ((v.countPiece o).dropOpenOrder o.job).closeOf o.job = v.modifyJob job (pieceCounted 1) := by
  have hone : (v.countPiece o).dropOpenOrder (some job) = v.modifyJob job (pieceCounted 1) := by
    rw [countPiece_piece ho hk]
    exact modifyJob_modifyJob (f := fun x => { x with piecesCut := min 65535 (x.piecesCut + 1), unsettled := x.unsettled + 1 })
      (fun _ => rfl) job v
  rw [ho, hone]
  refine closeIfReady_waits (fun x hx => Bool.eq_false_iff.2 (fun hr => ?_))
  rw [job?_modifyJob_self (pieceCounted_id 1) hy] at hx
  obtain rfl := Option.some.inj hx
  exact absurd (readyToClose_iff.1 hr).2.2 (Nat.succ_ne_zero _)

/-- The marks a completion sets, as its account tells them. -/
theorem newlyMarked (hj : s.job? job = some j) {y : Job} (hy : v.job? job = some y) :
    (v.isSaturated job && !s.isSaturated job) = (y.saturated && !j.saturated)
      ∧ (v.isOverQuote job && !s.isOverQuote job) = (y.overQuote && !j.overQuote) := by
  unfold State.isSaturated State.isOverQuote
  rw [hj, hy]
  exact ⟨rfl, rfl⟩

theorem cutReport_held {src slab index outcome seconds : Nat} {w : Saw} {oc : Outcome3} (h0 : slab ≠ 0) (hi : index ≤ 11)
    (hoc : decodeOutcome outcome = some oc) (hheld : s.heldOrder src slab index = some o) (hw : s.saw? src = some w) :
    cutReport src slab index outcome seconds s = honour src w o oc seconds s := by
  unfold cutReport
  rw [hoc]
  dsimp only
  rw [if_neg (by omega), hheld, hw]

theorem materialOf_piece {x : Slab} {p : Placement} (hk : o.kind.isPiece = true) (hx : s.slab? o.slab = some x)
    (hp : s.placement? o.slab o.index = some p) : s.materialOf o .done = x.basis * p.area / (x.length * x.width) := by
  unfold State.materialOf
  rw [if_pos ⟨hk, rfl⟩, hx, hp]
  rfl

theorem area_of_piece {p : Placement} (hk : p.kind.isPiece = true) :
    p.area = (p.rect.length + p.kerf.getD 0) * (p.rect.width + p.kerf.getD 0) := by
  unfold Placement.area Placement.reserved
  cases h : p.kind <;> simp_all [PlacementKind.isPiece, Rect.skirted, Rect.area]

end

/-- Settles O47. -/
theorem donePieceIsCharged : Obligations.DonePieceIsCharged := by
  intro h copy slab index seconds job st w o x p j s i hb hp hst hsawpart h0 hi hactive hslab hindex hsrc hstate hk hjob hx hpl
    hkind hj saw wear water material hsaw hwear hwater hmat hrec hfresh hsec sum marked
  subst hslab hindex
  let u := s.restartSilence h.src
  have hw : u.saw? h.src = some w := (saw?_restartSilence h.src h.src s).trans (saw?_of_station hst hsawpart)
  have hd : o.state ≠ .inDoubt := by rcases hstate with e | e <;> rw [e] <;> decide
  have hheld : u.heldOrder h.src o.slab o.index = some o := heldOrder_some hw hactive rfl rfl hd
  have hmaterial : u.materialOf o .done = material := by
    rw [materialOf_piece (s := u) hk hx hpl, area_of_piece (hkind ▸ hk)]
  have hledger : Ledger s (jobCharges ⟨h.src, Kind.cutReport⟩ w.config o job water material true seconds s) job j
      (pieceSums j saw wear water material) (pieceCharged o saw wear water material seconds j) :=
    cutCharges_ledger hj hb.shop.2.2.2.2.2 hsaw hwear hwater hmat hrec hfresh hsec
  have hsum : j.sum + saw + wear + water + material = sum := rfl
  have hmarked : markedBy s.groups.quote job j (pieceSums j saw wear water material) = (j.overQuote || marked) := by
    refine (markedBy_iff (m := sum) (fun y hy => ?_) ?_)
    · simp only [pieceSums, List.mem_cons, List.not_mem_nil, or_false] at hy
      omega
    · simp [pieceSums, hsum]
  have hdone := complete_done_piece (c := ⟨h.src, Kind.cutReport⟩) (w := w.config) (n := seconds) hjob hk u s
  have haccount := congrArg Prod.fst (completionCharges_job (c := ⟨h.src, Kind.cutReport⟩) (w := w.config) (n := seconds)
    (oc := .done) hjob (u.modifySaw o.saw (Saw.addSeconds seconds)) s)
  rw [hmaterial] at hdone
  have hmaterial' : (u.modifySaw o.saw (Saw.addSeconds seconds)).materialOf o .done = material := hmaterial
  rw [hmaterial', hk] at haccount
  have hcharged : jobCharges ⟨h.src, Kind.cutReport⟩ w.config o job (waterCharge u.rates o.recycled o.fresh) material true
      seconds s = jobCharges ⟨h.src, Kind.cutReport⟩ w.config o job water material true seconds s := rfl
  have hcharged' : jobCharges ⟨h.src, Kind.cutReport⟩ w.config o job
      (waterCharge (u.modifySaw o.saw (Saw.addSeconds seconds)).rates o.recycled o.fresh) material true
      seconds s = jobCharges ⟨h.src, Kind.cutReport⟩ w.config o job water material true seconds s := rfl
  have htrue : (true && decide (Outcome3.done = Outcome3.done)) = true := rfl
  rw [htrue, hcharged'] at haccount
  rw [hcharged] at hdone
  generalize jobCharges ⟨h.src, Kind.cutReport⟩ w.config o job water material true seconds s = v at *
  obtain ⟨hsat, hquote⟩ := newlyMarked hj hledger.found
  have hcounted := pieceCounted_eq (o := o) hjob hk hledger.found
  rw [hcounted] at hdone
  have hbools : (({ pieceCharged o saw wear water material seconds j with
        overQuote := markedBy s.groups.quote job j (pieceSums j saw wear water material) } : Job).overQuote && !j.overQuote)
      = marked := by
    show (markedBy s.groups.quote job j (pieceSums j saw wear water material) && !j.overQuote) = marked
    rw [hmarked]
    cases hq : j.overQuote <;> simp [marked, hq]
  have hunsat : (({ pieceCharged o saw wear water material seconds j with
        overQuote := markedBy s.groups.quote job j (pieceSums j saw wear water material) } : Job).saturated && !j.saturated)
      = false := Bool.and_not_self j.saturated
  have hshop : v.shop = s.shop := (congrArg State.shop hledger.frame :)
  have hbills : v.bills = s.bills := (congrArg State.bills hledger.frame :)
  have hfaults : v.faults = s.faults := (congrArg State.faults hledger.frame :)
  refine ⟨(withAccounts (tablesCut o seconds material u) (v.modifyJob job (pieceCounted 1))).present h.src,
    exec_of_block rfl hp ((cutReport_held h0 hi (oc := .done) rfl hheld hw).trans ?_), ?_, fun n hn => ?_, rfl, rfl, ?_, hshop, rfl, hbills, rfl, hfaults,
    rfl, fun hno => ?_, ?_⟩
  · unfold honour
    refine Prod.ext ?_ (congrArg (State.present h.src) hdone)
    have hreply := congrArg (fun a => Reply.answer (reportAnswer o .done a)) haccount
    refine hreply.trans (congrArg Reply.answer ?_)
    unfold reportAnswer Account.bytes
    dsimp only
    rw [hsat, hquote, hunsat, hbools]
    rfl
  · refine (job?_modifyJob_self (pieceCounted_id 1) hledger.found).trans ?_
    rw [hmarked]
    rfl
  · exact (job?_modifyJob_other (pieceCounted_id 1) hn).trans (hledger.others n hn)
  · show (u.modifySaw o.saw (sawCompleted o seconds)).stations = _
    rw [hsrc]
    rfl
  · refine hledger.outbox.trans ?_
    have hempty : noted s.groups.quote job j (pieceSums j saw wear water material) = [] := by
      unfold markedBy at hmarked
      rw [hno, Bool.or_false] at hmarked
      cases hq : j.overQuote with
      | true => exact noted_unwatched (fun hc => by rw [hq] at hc; cases hc.2)
      | false =>
        rw [hq, Bool.false_or, Bool.not_eq_false', List.isEmpty_iff] at hmarked
        exact hmarked
    rw [hempty, List.append_nil]
  · intro l n hyes hl before hfind
    obtain ⟨hon, hq, -⟩ := of_decide_eq_true hyes
    refine hledger.outbox.trans ?_
    have hnote : noted s.groups.quote job j (pieceSums j saw wear water material)
        = [.notice (.overQuote job l n j.hold)] := by
      rw [noted_limit hl hon hq]
      have hsums : (pieceSums j saw wear water material).find? (fun m => decide (l ≤ m)) = some n := hfind
      rw [hsums]
      rfl
    rw [hnote]

end Sys2Proof.Proofs
end

