-- ==== Sys2Proof/Proofs/Announces.lean ====
section
/-! SUPPORT. ANNOUNCE (R45 to R47, R84): its matching, its gate, the attach, and which order in doubt it resolves. -/

namespace Sys2Proof.Proofs

open Sys2Proof Sys2Proof.Config Sys2Proof.Machine

/-! ## Matching (R45, R158, R160) -/

section
variable {s : State} {side : Side} {t : Telegram} {cls : Option Nat} {work : Option (Option (Nat × Nat))} {st : Station}
  {r : KindRule}

theorem arriveAnnounce_unknown (hr : s.inReset = false)
    (hu : t.src = 0 ∨ t.src = 31 ∨ t.src = s.address ∨ s.station? t.src = none) :
    s.arriveAnnounce side t cls work = (s.raise (arrivalFault .stationUnknownSource side t)).flush := by
  unfold State.arriveAnnounce
  rw [if_neg (by simp [hr])]
  by_cases hbad : s.badSource t.src = true
  · rw [if_pos hbad]
  · rw [if_neg hbad]
    rw [badSource_iff, not_or, not_or] at hbad
    obtain ⟨h0, h31, haddr⟩ := hbad
    rw [((hu.resolve_left h0).resolve_left h31).resolve_left haddr]

/-- What R45 makes of an announce of a station with an entry. -/
theorem arriveAnnounce_known (hr : s.inReset = false) (hb : s.badSource t.src = false) (hst : s.station? t.src = some st) :
    s.arriveAnnounce side t cls work
      = if st.differs side cls then s.refuseAnnounce side t (fun s => refuse .mismatch (s.raise (mismatchFault st)))
        else if strangeWork st work then s.refuseAnnounce side t (refuse .form)
        else (s.restartSilence t.src).passGate (s.gate side t st.cls st.tier) side t
          (fun s => conclude (t.header side) t.kind (announceBlock st work s)) := by
  unfold State.arriveAnnounce
  rw [if_neg (by simp [hr]), if_neg (by simp [hb]), hst]
  dsimp only
  rw [gate_restartSilence]

theorem refuseAnnounce_eq (b : Block) (hrule : s.kindRule? t.kind = some r) :
    s.refuseAnnounce side t b = (conclude (t.header side) t.kind (b s)).forwardCopy
      (decide (r.disposition = .handleForward ∧ side = .b)) t := by
  unfold State.refuseAnnounce
  rw [hrule, Bool.decide_and]
  rfl

theorem differs_iff : st.differs side cls = true ↔ st.side ≠ side ∨ ∃ c, cls = some c ∧ classCode st.cls ≠ c := by
  unfold Station.differs
  rw [Bool.or_eq_true, decide_eq_true_iff]
  cases cls with
  | none => simp
  | some c => simp

theorem arriveAnnounce_differs (hr : s.inReset = false) (hb : s.badSource t.src = false) (hst : s.station? t.src = some st)
    (hrule : s.kindRule? t.kind = some r) (hd : st.differs side cls = true) :
    s.arriveAnnounce side t cls work
      = (conclude (t.header side) t.kind (.reject .mismatch [], s.raise (mismatchFault st))).forwardCopy
          (decide (r.disposition = .handleForward ∧ side = .b)) t := by
  rw [arriveAnnounce_known hr hb hst, if_pos hd, refuseAnnounce_eq _ hrule]
  rfl

theorem arriveAnnounce_strange (hr : s.inReset = false) (hb : s.badSource t.src = false) (hst : s.station? t.src = some st)
    (hrule : s.kindRule? t.kind = some r) (hd : ¬ st.differs side cls = true) (hw : strangeWork st work = true) :
    s.arriveAnnounce side t cls work
      = (conclude (t.header side) t.kind (.reject .form [], s)).forwardCopy
          (decide (r.disposition = .handleForward ∧ side = .b)) t := by
  rw [arriveAnnounce_known hr hb hst, if_neg hd, if_pos hw, refuseAnnounce_eq _ hrule]
  rfl

/-- A matched announce goes by its gate. -/
theorem arriveAnnounce_matched (hr : s.inReset = false) (hb : s.badSource t.src = false) (hst : s.station? t.src = some st)
    (hd : ¬ st.differs side cls = true) (hw : ¬ strangeWork st work = true) :
    s.arriveAnnounce side t cls work = (s.restartSilence t.src).passGate (s.gate side t st.cls st.tier) side t
      (fun s => conclude (t.header side) t.kind (announceBlock st work s)) := by
  rw [arriveAnnounce_known hr hb hst, if_neg hd, if_neg hw]

theorem strangeWork_saw {w : Option (Nat × Nat)} (h : w ≠ none → st.cls.isSaw = true) :
    ¬ strangeWork st (some w) = true := by
  cases w with
  | none => exact Bool.false_ne_true
  | some n =>
    show ¬ (!st.cls.isSaw) = true
    rw [h (by simp)]
    exact Bool.false_ne_true

/-- The three refusals of R160, of a matched announce. -/
theorem announce_refused (hr : s.inReset = false) (hb : s.badSource t.src = false) (hst : s.station? t.src = some st)
    (hd : ¬ st.differs side cls = true) (hw : ¬ strangeWork st work = true) (hrule : s.kindRule? t.kind = some r)
    (hdis : r.disposition = .handle ∨ r.disposition = .handleForward) :
    let refused := fun (x : Reason) => s.arriveAnnounce side t cls work
      = conclude (t.header side) t.kind (.reject x [], s.restartSilence t.src)
    (r.maxTier < st.tier → refused .tier)
    ∧ (st.tier ≤ r.maxTier → r.classes.getLsbD (classCode st.cls) = false → refused .cls)
    ∧ (st.tier ≤ r.maxTier → r.classes.getLsbD (classCode st.cls) = true → s.groups.on r.group = false → refused .groupOff) := by
  intro refused
  have hdrop : r.disposition ≠ .drop := by rcases hdis with h | h <;> simp [h]
  have hforward : r.disposition = .forward → s.beyond side t.dst = true := by rcases hdis with h | h <;> simp [h]
  have hgo {x : Reason} (hg : s.gate side t st.cls st.tier = .rejected x) : refused x := by
    show s.arriveAnnounce side t cls work = _
    rw [arriveAnnounce_matched hr hb hst hd hw, hg]
    rfl
  exact ⟨fun ht => hgo (gate_tier hrule hdrop hforward ht), fun ht hc => hgo (gate_class hrule hdrop hforward ht hc),
    fun ht hc hg => hgo (gate_groupOff hrule hdrop hforward ht hc hg)⟩

theorem gate_of_passesKind {copy : Bool} {h : Header} (hk : t.kind = Kind.announce)
    (hp : s.PassesKind t.kind h copy) (hst : s.station? h.src = some st) :
    s.gate h.side t st.cls st.tier = .handled copy := by
  obtain ⟨-, -, st', r, hst', -, hrule, htier, hc, hg, hd⟩ := hp
  obtain rfl := Option.some.inj (hst.symm.trans hst')
  rcases hd with ⟨hd, rfl, -⟩ | ⟨hd, rfl⟩
  · rw [gate_tests hrule (by simp [hd]) (by simp [hd]), if_neg (Nat.not_lt.2 htier), if_neg (by simp [hc]),
      if_neg (by simp [hg]), hd]
    exact if_neg (fun h => by rw [hk] at h; exact absurd h.1 (by decide))
  · rw [gate_tests hrule (by simp [hd]) (by simp [hd]), if_neg (Nat.not_lt.2 htier), if_neg (by simp [hc]),
      if_neg (by simp [hg]), hd]
    rfl

/-- A passing announce that matches its entry. -/
theorem exec_announce {h : Header} {copy : Bool} {c : Nat} {w : Option (Nat × Nat)} {x : Reply × State}
    (hp : s.Passes (.announce h c w) h copy) (hst : s.station? h.src = some st) (hc : classCode st.cls = c)
    (hw : w ≠ none → st.cls.isSaw = true) (hx : announce st w (s.restartSilence h.src) = x) :
    exec (.announce h c w) s = .next (finish (.announce h c w) h copy x.1 x.2) := by
  have hside : st.side = h.side := by
    obtain ⟨-, -, st', -, hst', hside, -⟩ := hp
    rw [Option.some.inj (hst.symm.trans hst')]
    exact hside
  have hmatch : ¬ st.differs h.side (some c) = true := by
    rw [differs_iff]
    rintro (hne | ⟨b, hb, hne⟩)
    · exact hne hside
    · exact hne (hc.trans (Option.some.inj hb))
  have hgate : s.gate h.side ((Instr.announce h c w).telegram h) st.cls st.tier = .handled copy :=
    gate_of_passesKind (h := h) rfl hp hst
  refine congrArg Host.Outcome.next ?_
  rw [arriveAnnounce_matched (t := (Instr.announce h c w).telegram h) hp.1 hp.2.1 hst hmatch (strangeWork_saw hw), hgate]
  show (conclude _ _ (announce st w (s.restartSilence h.src))).forwardCopy copy _ = _
  rw [hx]
  rfl

end

/-! ## The attach (R46, R84) -/

section
variable {s : State} {st : Station} {w : Saw} {o : CutOrder} {a : Nat} {n : Nat × Nat} {work : Option (Nat × Nat)}

theorem announce_attached (h : st.state = .attached) : announce st work s = (.answer (attachAnswer st), s) := by
  unfold announce
  rw [if_pos h]

theorem announce_attaching (h : st.state ≠ .attached) :
    announce st work s = (.answer (attachAnswer st), (s.attach st.address).onAttach st work) := by
  unfold announce
  rw [if_neg h]

theorem onAttach_saw (h : st.cls.isSaw = true) :
    s.onAttach st work = (s.resolveDoubt st.address work).present st.address := by
  unfold State.onAttach
  cases hc : st.cls <;> simp_all [StationClass.isSaw]

theorem onAttach_recycler (h : st.cls = .recycler) : s.onAttach st work = s.queueValve s.water.mode := by
  unfold State.onAttach
  rw [h]

theorem onAttach_other (hs : st.cls.isSaw = false) (hr : st.cls ≠ .recycler) : s.onAttach st work = s := by
  unfold State.onAttach
  cases hc : st.cls <;> simp_all [StationClass.isSaw]

theorem inDoubt_none (h : ∀ o ∈ w.queue, o.state ≠ .inDoubt) : w.inDoubt = none :=
  List.find?_eq_none.2 (fun o ho hc => h o ho (of_decide_eq_true hc))

theorem resolveDoubt_none (hw : s.saw? a = some w) (hd : w.inDoubt = none) : s.resolveDoubt a none = s := by
  unfold State.resolveDoubt
  rw [hw]
  dsimp only
  rw [hd]

theorem resolveDoubt_named (hw : s.saw? a = some w) (hd : w.inDoubt = some o) :
    s.resolveDoubt a (some (o.slab, o.index)) = s.resume a o := by
  have hn : CutOrder.names o.slab o.index o = true := names_iff.2 ⟨rfl, rfl⟩
  unfold State.resolveDoubt
  rw [hw]
  dsimp only
  rw [hd]
  exact if_pos hn

/-- The state in which an order that is not named is abandoned. -/
def announceMet (a : Nat) (work : Option (Nat × Nat)) (s : State) : State :=
  match work with
  | none => s
  | some n => s.raise (strayFault a Kind.announce n.1 n.2)

theorem resolveDoubt_unnamed (hw : s.saw? a = some w) (hd : w.inDoubt = some o) (hne : work ≠ some (o.slab, o.index)) :
    s.resolveDoubt a work = (announceMet a work s).abandon a w o := by
  unfold State.resolveDoubt
  rw [hw]
  dsimp only
  rw [hd]
  cases work with
  | none => rfl
  | some n =>
    refine if_neg (fun hc => hne ?_)
    obtain ⟨hs, hi⟩ := names_iff.1 hc
    rw [hs, hi]

/-- The last-delivered order, WAITING, that an announce names (R84). -/
def LastNamed (w : Saw) (n : Nat × Nat) (o : CutOrder) : Prop :=
  w.lastDelivered = some n ∧ o.state = .waiting ∧ w.queue.find? (fun x => decide (x.slab = n.1 ∧ x.index = n.2)) = some o

theorem find?_names (w : Saw) (n : Nat × Nat) :
    w.queue.find? (CutOrder.names n.1 n.2) = w.queue.find? (fun x => decide (x.slab = n.1 ∧ x.index = n.2)) := by
  congr 1
  funext x
  rw [Bool.eq_iff_iff, names_iff, decide_eq_true_iff]

theorem resolveDoubt_last (hw : s.saw? a = some w) (hd : w.inDoubt = none) (hl : LastNamed w n o) :
    s.resolveDoubt a (some n) = s.modifyOrder a n.1 n.2 (fun x => { x with state := .running }) := by
  obtain ⟨hlast, hwait, hfind⟩ := hl
  have hlw : w.lastWaiting = some o := by
    unfold Saw.lastWaiting
    rw [hlast]
    dsimp only
    rw [find?_names, hfind]
    exact if_pos hwait
  have hname : o.slab = n.1 ∧ o.index = n.2 := by
    have := List.find?_some hfind
    exact of_decide_eq_true this
  have hn : CutOrder.names n.1 n.2 o = true := names_iff.2 hname
  unfold State.resolveDoubt
  rw [hw]
  dsimp only
  rw [hd, hlw]
  dsimp only
  rw [if_pos hn, State.resume, hname.1, hname.2]

theorem resolveDoubt_stray (hw : s.saw? a = some w) (hd : w.inDoubt = none) (hl : ∀ o, ¬ LastNamed w n o) :
    s.resolveDoubt a (some n) = s.raise (strayFault a Kind.announce n.1 n.2) := by
  unfold State.resolveDoubt
  rw [hw]
  dsimp only
  rw [hd]
  dsimp only
  cases hlw : w.lastWaiting with
  | none => rfl
  | some o =>
    refine if_neg (fun hc => ?_)
    unfold Saw.lastWaiting at hlw
    cases hlast : w.lastDelivered with
    | none => rw [hlast] at hlw; cases hlw
    | some m =>
      rw [hlast] at hlw
      dsimp only at hlw
      cases hfind : w.queue.find? (CutOrder.names m.1 m.2) with
      | none => rw [hfind] at hlw; cases hlw
      | some y =>
        rw [hfind] at hlw
        dsimp only at hlw
        split at hlw
        · obtain rfl := Option.some.inj hlw
          obtain ⟨hs, hi⟩ := names_iff.1 hc
          obtain ⟨hs', hi'⟩ := names_iff.1 (List.find?_some hfind)
          have hm : m = n := Prod.ext (hs'.symm.trans hs) (hi'.symm.trans hi)
          subst hm
          exact hl y ⟨hlast, ‹_›, find?_names w m ▸ hfind⟩
        · cases hlw

/-- The saw of an entry just attached. -/
theorem saw?_attach (hst : s.station? st.address = some st) (hw : st.saw = some w) :
    (s.attach st.address).saw? st.address = some w := by
  have hfound : (s.attach st.address).station? st.address
      = some { st with state := .attached, silence := some silenceMs } := by
    unfold State.attach
    rw [station?_modifyStation (f := fun x => { x with state := .attached, silence := some silenceMs }) (fun _ _ => rfl), hst,
      Option.map_some, if_pos rfl]
  rw [State.saw?, hfound, Option.bind_some, hw]

end

end Sys2Proof.Proofs
end

