-- ==== Sys2Proof/Proofs/Abandons.lean ====
section
/-! SUPPORT. An order abandoned (R84, R87): what the charges of its completion hold and offer, the placement it returns, and
the one job it may leave ready to close. Settles O35. -/

namespace Sys2Proof.Proofs

open Sys2Proof Sys2Proof.Config Sys2Proof.Machine

/-! ## What charges offer (R116, R120) -/

section
variable {s v : State} {c : Cause} {slab job k m n : Nat} {a : Accumulator} {j y : Job} {o : CutOrder}

theorem raise_outbox (r : FaultRecord) (s : State) :
    ∃ filled k, (s.raise r).outbox = s.outbox ++ [.notice (.fault r filled k)] := by
  cases h : s.faults.record with
  | none => exact ⟨_, _, by rw [raise_empty h]⟩
  | some x => exact ⟨_, _, by rw [raise_locked h]⟩

theorem addToJob_outbox : ∃ l, (s.addToJob c slab job a n).outbox = s.outbox ++ l
    ∧ ∀ o ∈ l, ∃ filled k, o = .notice (.fault (saturatedFault c slab job a) filled k) := by
  cases hj : s.job? job with
  | none => exact ⟨[], by rw [addToJob_none hj, List.append_nil], by simp⟩
  | some j =>
    by_cases hn : j.held a + n ≤ accumulatorMax a
    · exact ⟨[], by rw [addToJob_fits hj hn, List.append_nil]; rfl, by simp⟩
    · obtain ⟨filled, k, hout⟩ := raise_outbox (saturatedFault c slab job a) (s.modifyJob job (Proofs.filled a))
      refine ⟨_, by rw [addToJob_full hj hn, hout]; rfl, fun o ho => ?_⟩
      exact ⟨filled, k, List.mem_singleton.1 ho⟩

theorem quoteCheck_outbox : ∃ l, (s.quoteCheck job).outbox = s.outbox ++ l
    ∧ ∀ o ∈ l, ∃ limit sum hold, o = .notice (.overQuote job limit sum hold) := by
  cases hj : s.job? job with
  | none => exact ⟨[], by rw [quoteCheck_none hj, List.append_nil], by simp⟩
  | some j =>
    by_cases hq : quoteReached s.groups.quote j = true
    · refine ⟨_, by rw [quoteCheck_reached hj hq]; rfl, fun o ho => ?_⟩
      exact ⟨_, _, _, List.mem_singleton.1 ho⟩
    · exact ⟨[], by rw [quoteCheck_below hj hq, List.append_nil], by simp⟩

theorem charge_outbox : ∃ l, (s.charge c slab job a n).outbox = s.outbox ++ l
    ∧ ∀ o ∈ l, (∃ job limit sum hold, o = .notice (.overQuote job limit sum hold))
      ∨ ∃ job filled k, o = .notice (.fault (saturatedFault c slab job a) filled k) := by
  cases hj : s.job? job with
  | none => exact ⟨[], by rw [charge_none hj, List.append_nil], by simp⟩
  | some j =>
    obtain ⟨l, hl, hfault⟩ := addToJob_outbox (s := s.addOverflow (excess j a n)) (c := c) (slab := slab) (job := job) (a := a)
      (n := n)
    obtain ⟨l', hl', hquote⟩ := quoteCheck_outbox (s := (s.addOverflow (excess j a n)).addToJob c slab job a n) (job := job)
    refine ⟨l ++ l', ?_, fun o ho => ?_⟩
    · rw [charge_some hj, hl', hl, List.append_assoc]
      rfl
    · rcases List.mem_append.1 ho with ho | ho
      · exact .inr ⟨job, hfault o ho⟩
      · exact .inl ⟨job, hquote o ho⟩

/-- What was offered before the charges of a cut is offered after them. -/
theorem mem_outbox_cutCharges {saw wear water material : Nat} {piece : Bool} {x : Outgoing} (hx : x ∈ s.outbox) :
    x ∈ (cutCharges c o job saw wear water material piece n s).outbox := by
  have added (a : Accumulator) (n : Nat) (u : State) (h : x ∈ u.outbox) : x ∈ (u.addToJob c o.slab job a n).outbox := by
    obtain ⟨l, hl, -⟩ := addToJob_outbox (s := u) (c := c) (slab := o.slab) (job := job) (a := a) (n := n)
    exact hl ▸ List.mem_append_left _ h
  have charged (a : Accumulator) (n : Nat) (u : State) (h : x ∈ u.outbox) : x ∈ (u.charge c o.slab job a n).outbox := by
    obtain ⟨l, hl, -⟩ := charge_outbox (s := u) (c := c) (slab := o.slab) (job := job) (a := a) (n := n)
    exact hl ▸ List.mem_append_left _ h
  unfold cutCharges
  dsimp only
  refine added _ _ _ (added _ _ _ (added _ _ _ ?_))
  split
  · exact charged _ _ _ (charged _ _ _ (charged _ _ _ (charged _ _ _ hx)))
  · exact charged _ _ _ (charged _ _ _ (charged _ _ _ hx))

/-! ## What charges hold -/

theorem cutCharges_exceptCharges {saw wear water material : Nat} {piece : Bool} :
    exceptCharges (cutCharges c o job saw wear water material piece n s) = exceptCharges s := by
  unfold cutCharges
  dsimp only
  rw [addToJob_exceptCharges, addToJob_exceptCharges, addToJob_exceptCharges]
  split
  · rw [charge_exceptCharges, charge_exceptCharges, charge_exceptCharges, charge_exceptCharges]
  · rw [charge_exceptCharges, charge_exceptCharges, charge_exceptCharges]

theorem cutCharges_core {saw wear water material : Nat} {piece : Bool} :
    (cutCharges c o job saw wear water material piece n s).jobs.map jobCore = s.jobs.map jobCore := by
  unfold cutCharges
  dsimp only
  rw [addToJob_core, addToJob_core, addToJob_core]
  split
  · rw [charge_core, charge_core, charge_core, charge_core]
  · rw [charge_core, charge_core, charge_core]

theorem jobCore_id (j : Job) : (jobCore j).id = j.id := rfl

theorem job?_core (h : v.jobs.map jobCore = s.jobs.map jobCore) (k : Nat) : (v.job? k).map jobCore = (s.job? k).map jobCore := by
  have hkey := congrArg (findBy Job.id k) h
  rw [findBy_map jobCore_id, findBy_map jobCore_id] at hkey
  exact hkey

/-- A job's accumulators after the charges of a cut that makes no piece. -/
theorem cutCharges_found {saw wear water : Nat} (hj : s.job? job = some j) :
    ∃ y, (cutCharges c o job saw wear water 0 false n s).job? job = some y
      ∧ y.saw = min maxCharge (j.saw + saw) ∧ y.wear = min maxCharge (j.wear + wear)
      ∧ y.water = min maxCharge (j.water + water) ∧ y.material = j.material
      ∧ y.recycled = min max48 (j.recycled + o.recycled) ∧ y.fresh = min max48 (j.fresh + o.fresh)
      ∧ y.bladeSeconds = min max32 (j.bladeSeconds + n) := by
  have h1 := job?_charge (c := c) (slab := o.slab) (a := .saw) (n := saw) hj
  have h2 := job?_charge (c := c) (slab := o.slab) (a := .wear) (n := wear) h1
  have h3 := job?_charge (c := c) (slab := o.slab) (a := .water) (n := water) h2
  have h4 := job?_addToJob (c := c) (slab := o.slab) (a := .recycled) (n := o.recycled) h3
  have h5 := job?_addToJob (c := c) (slab := o.slab) (a := .fresh) (n := o.fresh) h4
  have h6 := job?_addToJob (c := c) (slab := o.slab) (a := .bladeSeconds) (n := n) h5
  refine ⟨_, h6, ?_, ?_, ?_, ?_, ?_, ?_, ?_⟩
  · exact (held_added .bladeSeconds .saw _ _).trans (by simp [held_added, held_charged]; rfl)
  · exact (held_added .bladeSeconds .wear _ _).trans (by simp [held_added, held_charged]; rfl)
  · exact (held_added .bladeSeconds .water _ _).trans (by simp [held_added, held_charged]; rfl)
  · exact (held_added .bladeSeconds .material _ _).trans (by simp [held_added, held_charged]; rfl)
  · exact (held_added .bladeSeconds .recycled _ _).trans (by simp [held_added, held_charged]; rfl)
  · exact (held_added .bladeSeconds .fresh _ _).trans (by simp [held_added, held_charged]; rfl)
  · exact (held_added .bladeSeconds .bladeSeconds _ _).trans (by simp [held_added, held_charged]; rfl)

end

/-! ## The one job that may close (R141) -/

section
variable {s v : State} {job : Option Nat} {k : Nat} {j : Job}

/-- In a table with rising keys, the entries with a key are the one it finds. -/
theorem filter_key {α : Type} {key : α → Nat} {l : List α} (h : Rising key l) (k : Nat) (q : α → Bool) :
    l.filter (fun y => decide (key y = k) && q y) = ((findBy key k l).filter q).toList := by
  induction l with
  | nil => rfl
  | cons x xs ih =>
    rw [Rising, List.pairwise_cons] at h
    obtain ⟨hx, hxs⟩ := h
    unfold findBy
    by_cases hk : key x = k
    · have hrest : xs.filter (fun y => decide (key y = k) && q y) = [] := by
        refine List.filter_eq_nil_iff.2 (fun y hy hc => ?_)
        have := hx y hy
        have := of_decide_eq_true (Bool.and_eq_true_iff.1 hc).1
        omega
      rw [List.find?_cons_of_pos (p := fun x => decide (key x = k)) (decide_eq_true hk), List.filter_cons, hrest]
      cases hq : q x <;> simp [hk, hq, Option.filter]
    · rw [List.find?_cons_of_neg (p := fun x => decide (key x = k)) (fun hc => hk (of_decide_eq_true hc)), List.filter_cons]
      rw [if_neg (fun hc => hk (of_decide_eq_true (Bool.and_eq_true_iff.1 hc).1))]
      exact ih hxs

theorem dropAndClose_eq (hc : v.closeCounter ≤ max32) : (v.dropOpenOrder job).closeOf job
    = closedAll (v.dropOpenOrder job) (readyAmong (v.dropOpenOrder job) job.toList) := by
  have hc' : (v.dropOpenOrder job).closeCounter ≤ max32 := by rw [dropOpenOrder_eq]; exact hc
  rw [← foldl_closeIfReady hc' (by cases job <;> simp)]
  cases job <;> rfl

theorem job?_dropOpenOrder (job : Option Nat) (k : Nat) (s : State) : (s.dropOpenOrder job).job? k
    = (s.job? k).map (fun y => if job = some y.id then { y with openOrders := y.openOrders - 1 } else y) := by
  rw [dropOpenOrder_eq]
  exact findBy_map (f := fun y : Job => if job = some y.id then { y with openOrders := y.openOrders - 1 } else y)
    (fun y => by split <;> rfl) k s.jobs

/-- The job that the end of its order leaves ready to close. -/
def closingAfter (job : Option Nat) (l : List Job) : List Nat :=
  (l.filter (fun j => decide (job = some j.id ∧ j.state = .closing ∧ j.openOrders = 1 ∧ j.unsettled = 0))).map Job.id

theorem readyAmong_dropped (hl : Rising Job.id s.jobs) (hcore : v.jobs.map jobCore = s.jobs.map jobCore)
    (hopen : ∀ j ∈ s.jobs, job = some j.id → 1 ≤ j.openOrders) :
    readyAmong (v.dropOpenOrder job) job.toList = closingAfter job s.jobs := by
  cases job with
  | none =>
    have hno : s.jobs.filter (fun j => decide ((none : Option Nat) = some j.id ∧ j.state = .closing ∧ j.openOrders = 1
        ∧ j.unsettled = 0)) = [] := List.filter_eq_nil_iff.2 (fun j _ => by simp)
    unfold closingAfter
    rw [hno]
    rfl
  | some k =>
    have hsplit : s.jobs.filter (fun j => decide (some k = some j.id ∧ j.state = .closing ∧ j.openOrders = 1 ∧ j.unsettled = 0))
        = ((s.job? k).filter (fun j => decide (j.state = .closing ∧ j.openOrders = 1 ∧ j.unsettled = 0))).toList := by
      rw [State.job?, ← filter_key hl]
      refine List.filter_congr (fun j _ => ?_)
      rw [Bool.decide_and]
      congr 1
      exact decide_eq_decide.2 ⟨fun h => (Option.some.inj h).symm, fun h => h ▸ rfl⟩
    have hfound := job?_core hcore k
    have hready : (((v.dropOpenOrder (some k)).job? k).any readyToClose)
        = ((s.job? k).any (fun j => decide (j.state = .closing ∧ j.openOrders = 1 ∧ j.unsettled = 0))) := by
      rw [job?_dropOpenOrder]
      cases hs : s.job? k with
      | none =>
        rw [hs, Option.map_none, Option.map_eq_none_iff] at hfound
        rw [hfound]
        rfl
      | some j =>
        rw [hs, Option.map_some, Option.map_eq_some_iff] at hfound
        obtain ⟨y, hy, hcorey⟩ := hfound
        have hid : y.id = k := job?_id hy
        have hstate : y.state = j.state := (congrArg Job.state hcorey :)
        have hcount : y.openOrders = j.openOrders := (congrArg Job.openOrders hcorey :)
        have hunsettled : y.unsettled = j.unsettled := (congrArg Job.unsettled hcorey :)
        have hpos := hopen j (findBy_some _ hs).1 (by rw [job?_id hs])
        rw [hy, Option.map_some, if_pos (by rw [hid]), Option.any_some, Option.any_some, Bool.eq_iff_iff, readyToClose_iff,
          decide_eq_true_iff]
        show y.state = .closing ∧ y.openOrders - 1 = 0 ∧ y.unsettled = 0 ↔ _
        rw [hstate, hcount, hunsettled]
        exact and_congr_right (fun _ => and_congr_left (fun _ => by omega))
    unfold closingAfter readyAmong
    rw [hsplit, Option.toList_some, List.filter_cons, hready]
    cases hs : s.job? k with
    | none => rfl
    | some j =>
      rw [Option.any_some]
      have hid := job?_id hs
      by_cases hq : j.state = .closing ∧ j.openOrders = 1 ∧ j.unsettled = 0
      · simp [Option.filter, hq, hid]
      · simp [Option.filter, hq]

theorem closingAfter_cases (hl : Rising Job.id s.jobs) (job : Option Nat) :
    closingAfter job s.jobs = [] ∨ ∃ k, job = some k ∧ closingAfter job s.jobs = [k] := by
  cases hc : closingAfter job s.jobs with
  | nil => exact .inl rfl
  | cons x xs =>
    refine .inr ?_
    have hmem : ∀ n ∈ x :: xs, job = some n := fun n hn => by
      rw [← hc] at hn
      obtain ⟨j, hj, rfl⟩ := List.mem_map.1 hn
      exact (of_decide_eq_true (List.mem_filter.1 hj).2).1
    have hnodup : (x :: xs).Nodup := by
      rw [← hc]
      unfold closingAfter
      rw [List.Nodup, List.pairwise_map]
      exact (rising_filter Job.id hl _).imp (fun h => Nat.ne_of_lt h)
    have hx := hmem x List.mem_cons_self
    refine ⟨x, hx, ?_⟩
    cases xs with
    | nil => rfl
    | cons y ys =>
      have hy := hmem y (by simp)
      have hxy : x = y := Option.some.inj (hx.symm.trans hy)
      simp [hxy] at hnodup

end

/-! ## The completion of an abandoned order -/

section
variable {s t v : State} {c : Cause} {w : SawConfig} {o : CutOrder} {p : Placement} {n slab index : Nat} {l : List Placement}

/-- The accounts of an abandonment: the charges of its job, or saw and wear to overhead (R114). -/
def abandonCharges (c : Cause) (w : SawConfig) (o : CutOrder) (r : Rates) (n : Nat) (v : State) : State :=
  match o.job with
  | none => v.addOverheadCents (bladeCharge n w.sawRate) (bladeCharge n w.wearRate)
  | some job => jobCharges c w o job (waterCharge r o.recycled o.fresh) 0 false n v

theorem completionCharges_abandoned (t v : State) : ((withAccounts t v).completionCharges c w o .abandoned n).2
    = withAccounts t (abandonCharges c w o t.rates n v) := by
  unfold abandonCharges
  cases ho : o.job with
  | none => rw [completionCharges_overhead ho]
  | some job =>
    have hmaterial : t.materialOf o .abandoned = 0 := if_neg (fun h => by cases h.2)
    have hpiece : (o.kind.isPiece && decide (Outcome3.abandoned = Outcome3.done)) = false := Bool.and_false _
    rw [completionCharges_job ho, hmaterial, hpiece]
    rfl

/-- The tables when an order has ended without DONE (R36, R53, R56). -/
def tablesReturned (o : CutOrder) (n : Nat) (p : Placement) (t : State) : State :=
  { t with
    stations := (t.modifySaw o.saw (sawCompleted o n)).stations
    placements := placementsReturned p o.slab o.index t.placements }

theorem complete_abandoned_eq (hp : t.placement? o.slab o.index = some p) (v : State) :
    ((withAccounts t v).complete c w o .abandoned n).2 = withAccounts (tablesReturned o n p t)
      (((abandonCharges c w o t.rates n v).dropOpenOrder o.job).closeOf o.job) := by
  have hp' : (t.modifySaw o.saw (Saw.addSeconds n)).placement? o.slab o.index = some p := hp
  have htables : ((t.modifySaw o.saw (Saw.addSeconds n)).returnPlacement o.slab o.index).modifySaw o.saw (Saw.removeOrder o)
      = tablesReturned o n p t := by
    have hst : ((t.modifySaw o.saw (Saw.addSeconds n)).modifySaw o.saw (Saw.removeOrder o)).stations
        = (t.modifySaw o.saw (sawCompleted o n)).stations := by
      rw [modifySaw_modifySaw, funext (removeOrder_addSeconds o n)]
    rw [returnPlacement_eq hp']
    unfold tablesReturned
    rw [← hst]
    rfl
  rw [complete_abandoned, modifySaw_withAccounts, completionCharges_abandoned, returnPlacement_withAccounts,
    removeOrder_withAccounts, closeOf_withAccounts, htables]
  rfl

theorem bladeCharge_zero (rate : Nat) : bladeCharge 0 rate = 0 := by
  unfold bladeCharge
  rw [Nat.zero_mul]
  rfl

theorem abandonCharges_zero {r : Rates} (hs : v.shop.Legal) (ho : o.job = none) : abandonCharges c w o r 0 v = v := by
  have hsaw : satAdd max63 v.shop.saw 0 = v.shop.saw := min_eq_right hs.1
  have hwear : satAdd max63 v.shop.wear 0 = v.shop.wear := min_eq_right hs.2.1
  unfold abandonCharges
  rw [ho]
  dsimp only
  rw [bladeCharge_zero, bladeCharge_zero]
  unfold State.addOverheadCents
  rw [hsaw, hwear]

/-- The placements of an order that ended without DONE: one pass that drops a detached cutout, one that leaves the rest
PLANNED. -/
theorem placementsReturned_passes (hl : PlacementsLegal l) (hp : p ∈ l) :
    placementsReturned p p.slab p.index l
      = (l.filter (fun q => decide (¬ ((q.slab = p.slab ∧ q.index = p.index) ∧ q.kind = .cutout ∧ q.parentIndex = none)))).map
          (fun q => if q.slab = p.slab ∧ q.index = p.index then { q with state := .planned } else q) := by
  have hat {q : Placement} (hq : q ∈ l) : (q.slab = p.slab ∧ q.index = p.index) ↔ q = p :=
    ⟨fun e => placement_unique hl hq hp e.1 e.2, fun e => e ▸ ⟨rfl, rfl⟩⟩
  unfold placementsReturned
  split
  · rename_i hc
    have hfilter : l.filter (fun q => decide (¬ (q.slab = p.slab ∧ q.index = p.index)))
        = l.filter (fun q => decide (¬ ((q.slab = p.slab ∧ q.index = p.index) ∧ q.kind = .cutout ∧ q.parentIndex = none))) := by
      refine List.filter_congr (fun q hq => decide_eq_decide.2 (not_congr ⟨fun e => ⟨e, ?_⟩, fun e => e.1⟩))
      rw [(hat hq).1 e]
      exact hc
    rw [← hfilter]
    refine ((List.map_congr_left (fun q hq => ?_)).trans (List.map_id _)).symm
    exact if_neg (of_decide_eq_true (List.mem_filter.1 hq).2)
  · rename_i hc
    have hall : l.filter (fun q => decide (¬ ((q.slab = p.slab ∧ q.index = p.index) ∧ q.kind = .cutout ∧ q.parentIndex = none)))
        = l := by
      refine List.filter_eq_self.2 (fun q hq => decide_eq_true (fun e => hc ?_))
      rw [← (hat hq).1 e.1]
      exact e.2
    rw [hall]

theorem placementsReturned_planned (hl : PlacementsLegal l) (hp : p ∈ l) :
    ∀ q ∈ placementsReturned p p.slab p.index l, q.slab = p.slab → q.index = p.index → q.state = .planned := by
  intro q hq hs hi
  rw [placementsReturned_passes hl hp] at hq
  obtain ⟨y, -, rfl⟩ := List.mem_map.1 hq
  split at hs
  · rename_i hy
    rw [if_pos hy]
  · rename_i hy
    rw [if_neg hy] at hi
    exact absurd ⟨hs, hi⟩ hy

/-- An order of a legal and orderly state has its placement, and its job counts it. -/
theorem placement_of_order (hl : PlacementsLegal s.placements) (ho : s.Orderly) (hmem : o ∈ s.orders) :
    ∃ p, s.placement? o.slab o.index = some p ∧ p ∈ s.placements ∧ p.slab = o.slab ∧ p.index = o.index ∧ p.state = .ordered := by
  obtain ⟨-, -, -, hplaced, -⟩ := ho
  obtain ⟨p, hp, hslab, hindex, hstate⟩ := hplaced o hmem
  exact ⟨p, (placement?_eq_some hl).2 ⟨hp, hslab, hindex⟩, hp, hslab, hindex, hstate⟩

theorem openOrders_pos (ho : s.Orderly) (hmem : o ∈ s.orders) {j : Job} (hj : j ∈ s.jobs) (hjob : o.job = some j.id) :
    1 ≤ j.openOrders := by
  obtain ⟨-, -, -, -, -, -, -, hcount⟩ := ho
  rw [(hcount j hj).1]
  exact List.countP_pos_iff.2 ⟨o, hmem, decide_eq_true hjob⟩

end

/-! ## At most one job closes -/

section
variable {v : State} {job : Option Nat} {R : List Nat}

/-- At most the job the order named closes. -/
def AtMost (job : Option Nat) (R : List Nat) : Prop := R = [] ∨ ∃ k, job = some k ∧ R = [k]

theorem closeNumberAt_only (h : AtMost job R) {c n : Nat} (hn : n ∈ R) :
    closeNumberAt c (R.idxOf n) = (c + 1) % 4294967296 := by
  rcases h with rfl | ⟨k, -, rfl⟩
  · cases hn
  · rw [List.mem_singleton.1 hn, List.idxOf_cons_self]
    rfl

theorem billsReady_only (h : AtMost job R) (c : Nat) :
    billsReady c R = R.map (fun n => .notice (.billReady n ((c + 1) % 4294967296))) :=
  List.map_congr_left (fun n hn => by rw [closeNumberAt_only h hn])

/-- The jobs when one order is gone, and with it at most one job. -/
theorem jobs_closedAfter (h : AtMost job R) : (closedAll (v.dropOpenOrder job) R).jobs
    = v.jobs.map (fun y => if job = some y.id then
        { y with
          openOrders := y.openOrders - 1
          state := if y.id ∈ R then .closed else y.state
          closeNumber := if y.id ∈ R then some ((v.closeCounter + 1) % 4294967296) else y.closeNumber } else y) := by
  rw [dropOpenOrder_eq]
  show (jobsLowered job v.jobs).map (closedAs v.closeCounter R) = _
  unfold jobsLowered
  rw [List.map_map]
  refine List.map_congr_left (fun y _ => ?_)
  rw [Function.comp_apply]
  unfold closedAs
  by_cases hy : job = some y.id
  · rw [if_pos hy, if_pos hy]
    dsimp only
    by_cases hR : y.id ∈ R
    · rw [if_pos hR, if_pos hR, if_pos hR, closeNumberAt_only h hR]
    · rw [if_neg hR, if_neg hR, if_neg hR]
  · rw [if_neg hy, if_neg hy]
    refine if_neg (fun hR => hy ?_)
    rcases h with rfl | ⟨k, rfl, rfl⟩
    · cases hR
    · rw [List.mem_singleton.1 hR]

theorem closeCounter_after (h : AtMost job R) (hc : v.closeCounter ≤ max32) : (closedAll v R).closeCounter
    = if R = [] then v.closeCounter else (v.closeCounter + 1) % 4294967296 := by
  rcases h with rfl | ⟨k, -, rfl⟩
  · exact Nat.mod_eq_of_lt (Nat.lt_succ_of_le hc)
  · rfl

end

/-! ## What an abandonment's accounts keep -/

section
variable {s v : State} {c : Cause} {w : SawConfig} {o : CutOrder} {r : Rates} {n a : Nat} {work : Option (Nat × Nat)}

theorem abandonCharges_core : (abandonCharges c w o r n v).jobs.map jobCore = v.jobs.map jobCore := by
  unfold abandonCharges
  split
  · rfl
  · exact cutCharges_core

theorem abandonCharges_bills : (abandonCharges c w o r n v).bills = v.bills
    ∧ (abandonCharges c w o r n v).closeCounter = v.closeCounter := by
  unfold abandonCharges
  split
  · exact ⟨rfl, rfl⟩
  · exact ⟨(congrArg State.bills cutCharges_exceptCharges :), (congrArg State.closeCounter cutCharges_exceptCharges :)⟩

theorem mem_outbox_abandonCharges {x : Outgoing} (hx : x ∈ v.outbox) : x ∈ (abandonCharges c w o r n v).outbox := by
  unfold abandonCharges
  split
  · exact hx
  · exact mem_outbox_cutCharges hx

theorem announceMet_withAccounts (t v : State) : announceMet a work (withAccounts t v) = withAccounts t (announceMet a work v) := by
  cases work with
  | none => rfl
  | some m => exact raise_withAccounts _ t v

theorem announceMet_exceptCharges : exceptCharges (announceMet a work s) = exceptCharges s := by
  cases work with
  | none => rfl
  | some m => exact raise_exceptCharges _ s

theorem announceMet_jobs : (announceMet a work s).jobs = s.jobs := by
  cases work with
  | none => rfl
  | some m => exact raise_jobs _ s

theorem raise_shop (r : FaultRecord) (s : State) : (s.raise r).shop = s.shop := by
  unfold State.raise State.recordFault
  split <;> rfl

theorem announceMet_shop : (announceMet a work s).shop = s.shop := by
  cases work with
  | none => rfl
  | some m => exact raise_shop _ s

theorem recycler?_modifyStation {f : Station → Station} (hf : ∀ x, (f x).cls = x.cls) :
    (s.modifyStation a f).recycler? = s.recycler?.map (fun st => if st.address = a then f st else st) := by
  show (modifyBy Station.address a f s.stations).find? _ = _
  unfold modifyBy
  rw [List.find?_map]
  refine congrArg (fun p => Option.map _ (s.stations.find? p)) (funext (fun x => ?_))
  rw [Function.comp_apply]
  split
  · rw [hf]
  · rfl

end

/-- Settles O35. -/
theorem announceIsMatchedThenAttaches : Obligations.AnnounceIsMatchedThenAttaches := by
  refine ⟨?unknown, ?differs, ?strange, ?refused, ?rowless, ?taken⟩
  case unknown =>
    intro h cls work s hr hu
    exact congrArg Host.Outcome.next (arriveAnnounce_unknown (t := (Instr.announce h cls work).telegram h) hr hu)
  case differs =>
    intro h cls work st r s i hr hb hst hrule hd
    have hdiff : st.differs h.side (some cls) = true := differs_iff.2 (hd.imp_right (fun hne => ⟨cls, rfl, hne⟩))
    exact congrArg Host.Outcome.next
      (arriveAnnounce_differs (t := (Instr.announce h cls work).telegram h) (work := some work) hr hb hst hrule hdiff)
  case strange =>
    intro h cls work st r s i hr hb hst hrule hside hcls hsaw
    have hmatch : ¬ st.differs h.side (some cls) = true := by
      rw [differs_iff]
      rintro (hne | ⟨b, hb, hne⟩)
      · exact hne hside
      · exact hne (hcls.trans (Option.some.inj hb))
    have hwork : strangeWork st (some (some work)) = true := by
      show (!st.cls.isSaw) = true
      rw [hsaw]
      rfl
    exact congrArg Host.Outcome.next
      (arriveAnnounce_strange (t := (Instr.announce h cls (some work)).telegram h) hr hb hst hrule hmatch hwork)
  case refused =>
    intro h cls work st r s i hr hb hst hrule hside hcls hsaw hdis refused
    have hmatch : ¬ st.differs h.side (some cls) = true := by
      rw [differs_iff]
      rintro (hne | ⟨b, hb, hne⟩)
      · exact hne hside
      · exact hne (hcls.trans (Option.some.inj hb))
    obtain ⟨htier, hclass, hgroup⟩ := announce_refused (t := i.telegram h) hr hb hst hmatch (strangeWork_saw hsaw) hrule hdis
    exact ⟨fun a => congrArg _ (htier a), fun a b => congrArg _ (hclass a b), fun a b c => congrArg _ (hgroup a b c)⟩
  case rowless =>
    intro side t s hr hd1 hd hs hk hg hn hparse received refused
    have hformed : Formed t := ⟨hd1, hd, hs, by rw [hk]; decide, hg, hn⟩
    have harrive : received = .next (s.arriveAnnounce side t (t.payload.head?.map BitVec.toNat) none) := by
      show exec (.telegramReceived side t.wire) s = _
      rw [exec_received_rowless hr hformed hparse]
      exact congrArg _ (if_pos hk)
    refine ⟨fun hu => harrive.trans (congrArg _ (arriveAnnounce_unknown hr hu)), ?_⟩
    intro st r hb hst hrule differs u
    have hdiff : st.differs side (t.payload.head?.map BitVec.toNat) = true ↔ differs := by
      rw [differs_iff]
      refine or_congr Iff.rfl ⟨?_, ?_⟩
      · rintro ⟨c, hc, hne⟩
        obtain ⟨b, hb, rfl⟩ := Option.map_eq_some_iff.1 hc
        exact ⟨b, hb, hne⟩
      · rintro ⟨b, hb, hne⟩
        exact ⟨b.toNat, by rw [hb]; rfl, hne⟩
    have hwork : ¬ strangeWork st none = true := Bool.false_ne_true
    refine ⟨fun hyes => harrive.trans (congrArg _ (arriveAnnounce_differs hr hb hst hrule (hdiff.2 hyes))), fun hno hdis => ?_⟩
    have hmatch := mt hdiff.1 hno
    obtain ⟨htier, hclass, hgroup⟩ := announce_refused (side := side) hr hb hst hmatch hwork hrule hdis
    refine ⟨fun a => harrive.trans (congrArg _ (htier a)), fun a b => harrive.trans (congrArg _ (hclass a b)),
      fun a b c => harrive.trans (congrArg _ (hgroup a b c)), fun copy hp => harrive.trans (congrArg _ ?_)⟩
    have hgate : s.gate side t st.cls st.tier = .handled copy := gate_of_passesKind (h := t.header side) hk hp hst
    rw [arriveAnnounce_matched hr hb hst hmatch hwork, hgate]
    rfl
  case taken =>
    intro h copy cls work st s i hp hst hcls hsaw u answer attached
    have haddr : st.address = h.src := station?_address hst
    have hdo {x : State} (hx : announce st work u = (answer, x)) : exec i s = .next (finish i h copy answer x) :=
      exec_announce (x := (answer, x)) hp hst hcls hsaw hx
    have hattach : st.state ≠ .attached → announce st work u = (answer, attached.onAttach st work) := by
      intro hno
      rw [announce_attaching hno, haddr]
      rfl
    have hstu : st.state ≠ .attached → u.station? h.src = some st := by
      intro hno
      rw [station?_restartSilence, hst, Option.map_some, if_pos haddr, if_neg hno]
    have hsawu {w : Saw} (hno : st.state ≠ .attached) (hw : st.saw = some w) : attached.saw? h.src = some w := by
      have := saw?_attach (s := u) (st := st) (w := w) (haddr ▸ hstu hno) hw
      rw [haddr] at this
      exact this
    refine ⟨fun hatt => hdo (announce_attached hatt), fun hno hs hr => hdo ((hattach hno).trans ?_),
      fun hno hr hrec => hdo ((hattach hno).trans ?_), fun w hno hs hw hd hwork => hdo ((hattach hno).trans ?_),
      fun w o hno hs hw hfind hwork => hdo ((hattach hno).trans ?_), ?_, ?_⟩
    · rw [onAttach_other hs hr]
    · have hfirst : attached.recycler? = some { st with state := .attached, silence := some 10000 } := by
        have hrec' : u.recycler? = some st := by
          have hcls (x : Station) : (if x.state = .attached then { x with silence := some silenceMs } else x).cls = x.cls := by
            split <;> rfl
          show (s.modifyStation h.src _).recycler? = _
          rw [recycler?_modifyStation hcls, hrec, Option.map_some, if_pos haddr, if_neg hno]
        show (u.modifyStation h.src _).recycler? = _
        rw [recycler?_modifyStation (f := fun x => { x with state := .attached, silence := some 10000 }) (fun _ => rfl), hrec',
          Option.map_some, if_pos haddr]
      rw [onAttach_recycler hr, ← haddr]
      unfold State.queueValve
      rw [hfirst]
      rfl
    · rw [onAttach_saw hs, haddr, hwork, resolveDoubt_none (hsawu hno hw) (inDoubt_none hd)]
      rfl
    · rw [onAttach_saw hs, haddr, hwork, resolveDoubt_named (hsawu hno hw) hfind]
      rfl
    · intro w n hno hs hw hd hwork last stray
      refine ⟨fun o hl => hdo ((hattach hno).trans ?_), fun hl => hdo ((hattach hno).trans ?_)⟩
      · rw [onAttach_saw hs, haddr, hwork, resolveDoubt_last (hsawu hno hw) (inDoubt_none hd) hl]
        rfl
      · rw [onAttach_saw hs, haddr, hwork, resolveDoubt_stray (hsawu hno hw) (inDoubt_none hd) hl]
        refine congrArg (Prod.mk answer) ?_
        show State.present h.src (attached.raise stray) = _
        have hpresented : (attached.raise stray).presented = s.presented := raise_presented stray attached
        unfold State.present
        rw [hpresented]
    · intro w o hlegal horderly hno hs hw hfind hne water named cause met v closing number
      have hmem : w ∈ st.saw := hw
      have hstmem : st ∈ s.stations := (findBy_some _ hst).1
      have hon : o ∈ w.queue := List.mem_of_find?_eq_some hfind
      have hoo : o ∈ s.orders := mem_orders_of_saw hstmem hw hon
      have hosaw : o.saw = h.src := (sawsCarried_of_orderly horderly st hstmem w hw o hon).trans haddr
      obtain ⟨p, hp?, hpmem, hpslab, hpindex, -⟩ := placement_of_order hlegal.1.placements horderly hoo
      have hmet : announceMet h.src work s = met := by cases work <;> rfl
      have hv : abandonCharges cause w.config o s.rates 0 met = v := by
        have hshop : met.shop.Legal := by rw [← hmet, announceMet_shop]; exact hlegal.1.shop
        cases hjob : o.job with
        | none =>
          rw [abandonCharges_zero hshop hjob]
          simp only [v, hjob]
        | some job =>
          unfold abandonCharges jobCharges
          simp only [v, hjob, bladeCharge_zero]
          rfl
      have hcore : v.jobs.map jobCore = s.jobs.map jobCore := by
        rw [← hv, abandonCharges_core, ← hmet, announceMet_jobs]
      have hcounter : v.closeCounter = s.closeCounter := by
        rw [← hv, abandonCharges_bills.2, ← hmet]
        exact (congrArg State.closeCounter announceMet_exceptCharges :)
      have hbills : v.bills = s.bills := by
        rw [← hv, abandonCharges_bills.1, ← hmet]
        exact (congrArg State.bills announceMet_exceptCharges :)
      have hmax : v.closeCounter ≤ max32 := hcounter ▸ hlegal.1.closeCounter
      have hready : readyAmong (v.dropOpenOrder o.job) o.job.toList = closing :=
        readyAmong_dropped hlegal.1.jobs.1 hcore (fun j hj hjob => openOrders_pos horderly hoo hj hjob)
      have honly : AtMost o.job closing := closingAfter_cases hlegal.1.jobs.1 o.job
      have hresolved : attached.resolveDoubt h.src work
          = withAccounts (tablesReturned o 0 p attached) (closedAll (v.dropOpenOrder o.job) closing) := by
        have hparts : announceMet h.src work attached = withAccounts attached met := by
          rw [← hmet]
          exact announceMet_withAccounts attached s
        rw [resolveDoubt_unnamed (hsawu hno hw) hfind hne, hparts, State.abandon, complete_abandoned_eq (t := attached) hp?, ← hready,
          ← dropAndClose_eq hmax, ← hv]
        rfl
      have hentry : (attached.modifySaw h.src (sawCompleted o 0)).station? h.src
          = some { st with state := .attached, silence := some 10000, saw := some (sawCompleted o 0 w) } := by
        have hfound : attached.station? h.src = some { st with state := .attached, silence := some 10000 } := by
          show (u.modifyStation h.src _).station? h.src = _
          rw [station?_modifyStation (f := fun x => { x with state := .attached, silence := some 10000 }) (fun _ _ => rfl),
            hstu hno, Option.map_some, if_pos haddr]
        rw [station?_modifySaw, hfound, Option.map_some, if_pos haddr, Station.mapSaw, hw]
        rfl
      have hpl : placementsReturned p o.slab o.index s.placements
          = placementsReturned p p.slab p.index s.placements := by rw [hpslab, hpindex]
      have hjobs := jobs_closedAfter (v := v) honly
      have houtbox : (closedAll (v.dropOpenOrder o.job) closing).outbox
          = v.outbox ++ closing.map (fun n => .notice (.billReady n number)) := by
        have hb := billsReady_only honly v.closeCounter
        rw [hcounter] at hb
        rw [dropOpenOrder_eq]
        show v.outbox ++ billsReady v.closeCounter closing = _
        rw [hcounter, hb]
      refine ⟨(withAccounts (tablesReturned o 0 p attached) (closedAll (v.dropOpenOrder o.job) closing)).present h.src,
        hdo ((hattach hno).trans ?_),
        ⟨{ st with state := .attached, silence := some 10000, saw := some (sawCompleted o 0 w) }, sawCompleted o 0 w, ?_, rfl, rfl,
          rfl, rfl, ?_, rfl⟩, ?_, ?_, ?_, ?_, ?_, ?_, ?_, houtbox, ?_, rfl, rfl,
        rfl, rfl, ?_⟩
      · rw [onAttach_saw hs, haddr, hresolved]
      · show (attached.modifySaw o.saw (sawCompleted o 0)).station? h.src = _
        rw [hosaw]
        exact hentry
      · show (if w.lastDelivered = some (o.slab, o.index) then none else w.lastDelivered) ≠ _
        split
        · exact fun hc => by cases hc
        · rename_i hlast
          exact hlast
      · show ∀ q ∈ placementsReturned p o.slab o.index s.placements, _
        rw [hpl, ← hpslab, ← hpindex]
        exact placementsReturned_planned hlegal.1.placements hpmem
      · show placementsReturned p o.slab o.index s.placements = _
        rw [hpl, placementsReturned_passes hlegal.1.placements hpmem, hpslab, hpindex]
      · rw [hcounter] at hjobs
        exact hjobs
      · show (v.dropOpenOrder o.job).bills ++ closing = _
        rw [dropOpenOrder_eq]
        exact congrArg (· ++ closing) hbills
      · have hafter := closeCounter_after honly hmax
        rw [hcounter] at hafter
        show (closedAll (v.dropOpenOrder o.job) closing).closeCounter = _
        rw [dropOpenOrder_eq]
        exact hafter
      · show (v.dropOpenOrder o.job).shop = v.shop
        rw [dropOpenOrder_eq]
      · show (v.dropOpenOrder o.job).faults = v.faults
        rw [dropOpenOrder_eq]
      · intro job j hjob hj
        have hjmet : met.job? job = some j := by
          rw [← hmet, State.job?, announceMet_jobs]
          exact hj
        have hcharges : v = cutCharges cause o job 0 0 water 0 false 0 met := by
          rw [← hv]
          unfold abandonCharges jobCharges
          rw [hjob]
          dsimp only
          rw [bladeCharge_zero, bladeCharge_zero]
          rfl
        obtain ⟨y, hy, hsaw, hwear, hwater, hmaterial, hrec, hfresh, hsec⟩ :=
          cutCharges_found (c := cause) (o := o) (saw := 0) (wear := 0) (water := water) (n := 0) hjmet
        rw [← hcharges] at hy
        have hjlegal : j.Legal := hlegal.1.jobs.2.2.1 j (findBy_some _ hj).1
        obtain ⟨-, hlsaw, hlwear, -, -, -, hlsec, -⟩ := hjlegal
        have hcount : y.openOrders = j.openOrders := by
          have hfound := job?_core hcore job
          rw [hy, hj] at hfound
          exact (congrArg Job.openOrders (Option.some.inj hfound) :)
        have hpos : 1 ≤ j.openOrders :=
          openOrders_pos horderly hoo (findBy_some _ hj).1 (by rw [hjob, job?_id hj])
        have hclosed : (closedAll (v.dropOpenOrder o.job) closing).job? job = some
            { y with
              openOrders := y.openOrders - 1
              state := if y.id ∈ closing then .closed else y.state
              closeNumber := if y.id ∈ closing then some ((v.closeCounter + 1) % 4294967296) else y.closeNumber } := by
          unfold State.job?
          rw [hjobs, findBy_map (fun x => by split <;> rfl)]
          show (v.job? job).map _ = _
          rw [hy, Option.map_some, if_pos (by rw [hjob, job?_id hy])]
        refine ⟨_, hclosed, hwater, hrec, hfresh, ?_, ?_, hmaterial, ?_, ?_⟩
        · exact hsaw.trans (min_eq_right hlsaw)
        · exact hwear.trans (min_eq_right hlwear)
        · exact hsec.trans (min_eq_right hlsec)
        · show y.openOrders - 1 + 1 = j.openOrders
          omega
      · intro n hn
        obtain ⟨filled, k, hout⟩ := raise_outbox (strayFault h.src Kind.announce n.1 n.2) s
        refine ⟨filled, k, ?_⟩
        have hin : Outgoing.notice (.fault (strayFault h.src Kind.announce n.1 n.2) filled k) ∈ met.outbox := by
          rw [← hmet, hn]
          show _ ∈ (s.raise (strayFault h.src Kind.announce n.1 n.2)).outbox
          rw [hout]
          exact List.mem_append_right _ (List.mem_singleton.2 rfl)
        have hcharged : Outgoing.notice (.fault (strayFault h.src Kind.announce n.1 n.2) filled k) ∈ v.outbox := by
          rw [← hv]
          exact mem_outbox_abandonCharges hin
        show _ ∈ (closedAll (v.dropOpenOrder o.job) closing).outbox
        rw [houtbox]
        exact List.mem_append_left _ hcharged

end Sys2Proof.Proofs
end

