-- ==== Sys2Proof/Proofs/Clearing.lean ====
section
/-! SUPPORT. Steps 2 and 3 of a settlement (R124, R126): the slab's PLANNED placements leave the pool in one pass, with the
RESERVED records of its remnants, and its CUT remnants enter stock in one pass over the records. -/

namespace Sys2Proof.Proofs

open Sys2Proof Sys2Proof.Config Sys2Proof.Machine

/-- Two states that differ in their placements and slab records alone. -/
theorem eq_of_plans {s t : State} (h : exceptPlans t = exceptPlans s) :
    { s with placements := t.placements, slabs := t.slabs } = t := by
  have hset : ({ exceptPlans s with placements := t.placements, slabs := t.slabs } : State)
      = { exceptPlans t with placements := t.placements, slabs := t.slabs } := by rw [h]
  exact hset

/-! ## The plan cleared (R124) -/

/-- Gone with the PLANNED placements of `L`: one of them, or a cutout of a piece among them. -/
abbrev GoneWith (L : List Placement) (q : Placement) : Prop :=
  ∃ p ∈ L, p.state = .planned ∧ ((q.slab = p.slab ∧ q.index = p.index) ∨ (p.kind.isPiece = true ∧ CutoutOf p.slab p.index q))

/-- A record of a PLANNED remnant of `L`. -/
abbrev FreedWith (L : List Placement) (z : Slab) : Prop :=
  ∃ p ∈ L, p.kind = .remnant ∧ p.state = .planned ∧ p.remnantSlab = some z.id

/-- What the clearing has done when it has gone through the placements of `L`. -/
structure ClearsDone (s v : State) (a : Cleared) (L : List Placement) : Prop where
  plans : exceptPlans v = exceptPlans s
  placements : v.placements = s.placements.filter (fun q => decide (¬ GoneWith L q))
  slabs : v.slabs = s.slabs.filter (fun z => decide (¬ FreedWith L z))
  removed : a.removed + v.placements.length = s.placements.length
  freed : a.freed = L.countP (fun p => decide (p.kind = .remnant ∧ p.state = .planned))

section
variable {s v : State} {slab : Nat} {a : Cleared} {L : List Placement} {p q : Placement}

theorem ClearsDone.start (s : State) : ClearsDone s s ⟨0, 0⟩ [] where
  plans := rfl
  placements := (List.filter_eq_self.2 (fun q _ => by simp [GoneWith])).symm
  slabs := (List.filter_eq_self.2 (fun z _ => by simp [FreedWith])).symm
  removed := Nat.zero_add _
  freed := rfl

theorem goneWith_snoc : GoneWith (L ++ [p]) q ↔ GoneWith L q
    ∨ (p.state = .planned ∧ ((q.slab = p.slab ∧ q.index = p.index) ∨ (p.kind.isPiece = true ∧ CutoutOf p.slab p.index q))) :=
  exists_mem_snoc

theorem freedWith_snoc {z : Slab} : FreedWith (L ++ [p]) z ↔ FreedWith L z
    ∨ (p.kind = .remnant ∧ p.state = .planned ∧ p.remnantSlab = some z.id) := exists_mem_snoc

theorem clearPlanned_none (hp : v.placement? p.slab p.index = none) : clearPlanned (a, v) p = (a, v) := by
  unfold clearPlanned
  dsimp only
  rw [hp]

theorem clearPlanned_stays (hp : v.placement? p.slab p.index = some p) (hst : p.state ≠ .planned) :
    clearPlanned (a, v) p = (a, v) := by
  unfold clearPlanned
  dsimp only
  rw [hp]
  exact if_neg hst

theorem clearPlanned_planned (hp : v.placement? p.slab p.index = some p) (hst : p.state = .planned) :
    clearPlanned (a, v) p = (⟨a.removed + (v.removePlacement p).1.removed, a.freed + (if p.kind = .remnant then 1 else 0)⟩,
      (v.removePlacement p).2) := by
  unfold clearPlanned
  dsimp only
  rw [hp]
  exact if_pos hst

theorem clearsDone_legal (hl : PlacementsLegal s.placements) (h : ClearsDone s v a L) : PlacementsLegal v.placements := by
  rw [h.placements]
  exact ⟨rising_filter _ hl.1 _, (List.length_filter_le _ _).trans hl.2.1, fun q hq => hl.2.2 q (List.mem_filter.1 hq).1⟩

theorem clearsDone_found (hl : PlacementsLegal s.placements) (h : ClearsDone s v a L) (hp : p ∈ s.placements) :
    v.placement? p.slab p.index = if GoneWith L p then none else some p := by
  split
  · rename_i hgone
    rw [placement?_eq_none]
    rintro q hq ⟨hs, hi⟩
    rw [h.placements] at hq
    obtain ⟨hq, hno⟩ := List.mem_filter.1 hq
    rw [placement_unique hl hq hp hs hi] at hno
    exact of_decide_eq_true hno hgone
  · rename_i hno
    rw [placement?_eq_some (clearsDone_legal hl h), h.placements]
    exact ⟨List.mem_filter.2 ⟨hp, decide_eq_true hno⟩, rfl, rfl⟩

/-- A placement that is CUT, or that went with its piece, is passed over. -/
theorem ClearsDone.over (hl : PlacementsLegal s.placements) (h : ClearsDone s v a L) (hp : p ∈ s.placements)
    (hk : p.state = .planned → p.kind = .cutout ∧ GoneWith L p) : ClearsDone s v a (L ++ [p]) := by
  refine ⟨h.plans, ?_, ?_, h.removed, ?_⟩
  · rw [h.placements]
    refine List.filter_congr (fun q hq => decide_eq_decide.2 (not_congr ?_))
    rw [goneWith_snoc]
    refine ⟨.inl, fun hg => hg.elim id ?_⟩
    rintro ⟨hst, ⟨hs, hi⟩ | ⟨hpiece, -⟩⟩
    · rw [placement_unique hl hq hp hs hi]
      exact (hk hst).2
    · rw [(hk hst).1] at hpiece
      cases hpiece
  · rw [h.slabs]
    refine List.filter_congr (fun z _ => decide_eq_decide.2 (not_congr ?_))
    rw [freedWith_snoc]
    refine ⟨.inl, fun hg => hg.elim id ?_⟩
    rintro ⟨hr, hst, -⟩
    rw [(hk hst).1] at hr
    cases hr
  · rw [h.freed, List.countP_append, List.countP_singleton, if_neg, Nat.add_zero]
    intro hc
    obtain ⟨hr, hst⟩ := of_decide_eq_true hc
    rw [(hk hst).1] at hr
    cases hr

/-- What one PLANNED placement takes with it. -/
theorem ClearsDone.take {v' : State} {n : Nat} (h : ClearsDone s v a L) (hst : p.state = .planned)
    (hplans : exceptPlans v' = exceptPlans v)
    (hpl : v'.placements = v.placements.filter (fun q =>
      decide (¬ ((q.slab = p.slab ∧ q.index = p.index) ∨ (p.kind.isPiece = true ∧ CutoutOf p.slab p.index q)))))
    (hslabs : v'.slabs = v.slabs.filter (fun z => decide (¬ (p.kind = .remnant ∧ p.remnantSlab = some z.id))))
    (hn : n + v'.placements.length = v.placements.length) :
    ClearsDone s v' ⟨a.removed + n, a.freed + (if p.kind = .remnant then 1 else 0)⟩ (L ++ [p]) := by
  refine ⟨hplans.trans h.plans, ?_, ?_, ?_, ?_⟩
  · rw [hpl, h.placements, List.filter_filter]
    refine List.filter_congr (fun q _ => ?_)
    rw [← Bool.decide_and, decide_eq_decide, goneWith_snoc]
    constructor
    · rintro ⟨htake, hgone⟩ (hg | ⟨-, ht⟩)
      · exact hgone hg
      · exact htake ht
    · exact fun hno => ⟨fun ht => hno (.inr ⟨hst, ht⟩), fun hg => hno (.inl hg)⟩
  · rw [hslabs, h.slabs, List.filter_filter]
    refine List.filter_congr (fun z _ => ?_)
    rw [← Bool.decide_and, decide_eq_decide, freedWith_snoc]
    constructor
    · rintro ⟨htake, hfreed⟩ (hg | ⟨hr, -, hz⟩)
      · exact hfreed hg
      · exact htake ⟨hr, hz⟩
    · exact fun hno => ⟨fun ht => hno (.inr ⟨ht.1, hst, ht.2⟩), fun hg => hno (.inl hg)⟩
  · have := h.removed
    show a.removed + n + _ = _
    omega
  · rw [List.countP_append, List.countP_singleton, ← h.freed]
    by_cases hr : p.kind = .remnant
    · rw [if_pos hr, if_pos (decide_eq_true ⟨hr, hst⟩)]
    · rw [if_neg hr, if_neg (fun hc => hr (of_decide_eq_true hc).1)]

/-- Removing a placement alone loses the pool one entry. -/
theorem length_freePlacement (hl : PlacementsLegal v.placements) (hp : p ∈ v.placements) :
    1 + (v.freePlacement p.slab p.index).placements.length = v.placements.length := by
  have hone : v.placements.countP (fun q => decide (q.slab = p.slab ∧ q.index = p.index)) = 1 :=
    countP_eq_one (placements_nodup hl) hp (fun q hq => decide_eq_true_iff.trans
      ⟨fun e => placement_unique hl hq hp e.1 e.2, fun e => by rw [e]; exact ⟨rfl, rfl⟩⟩)
  have hall : v.placements.countP (fun _ => true)
      = v.placements.countP (fun q => decide (¬ (q.slab = p.slab ∧ q.index = p.index)))
        + v.placements.countP (fun q => decide (q.slab = p.slab ∧ q.index = p.index)) :=
    countP_split (fun q _ => by by_cases e : q.slab = p.slab ∧ q.index = p.index <;> simp [e])
  rw [List.countP_true, hone, List.countP_eq_length_filter] at hall
  rw [freePlacement_eq]
  show 1 + (v.placements.filter _).length = _
  omega

theorem freeSlab_slabs (r : Nat) (s : State) : (s.freeSlab r).slabs = s.slabs.filter (fun z => decide (z.id ≠ r)) := rfl

theorem ClearsDone.step (hl : PlacementsLegal s.placements) (h : ClearsDone s v a L) (hp : p ∈ s.placements)
    (hord : ∀ c ∈ s.placements, c.slab = p.slab → c.state ≠ .ordered)
    (hnew : ∀ y ∈ L, ¬ (p.slab = y.slab ∧ p.index = y.index)) :
    ClearsDone s (clearPlanned (a, v) p).2 (clearPlanned (a, v) p).1 (L ++ [p]) := by
  have hfound := clearsDone_found hl h hp
  have hlv := clearsDone_legal hl h
  by_cases hgone : GoneWith L p
  · rw [if_pos hgone] at hfound
    rw [clearPlanned_none hfound]
    refine h.over hl hp (fun _ => ⟨?_, hgone⟩)
    obtain ⟨y, hy, -, hat | ⟨-, hc⟩⟩ := hgone
    · exact absurd hat (hnew y hy)
    · exact hc.2.1
  · rw [if_neg hgone] at hfound
    have hpv : p ∈ v.placements := List.mem_of_find?_eq_some hfound
    by_cases hst : p.state = .planned
    · rw [clearPlanned_planned hfound hst]
      have hslabsame (hk : p.kind ≠ .remnant) :
          v.slabs = v.slabs.filter (fun z => decide (¬ (p.kind = .remnant ∧ p.remnantSlab = some z.id))) :=
        (List.filter_eq_self.2 (fun z _ => by simp [hk])).symm
      have hfilter (hk : ¬ p.kind.isPiece = true) : (v.freePlacement p.slab p.index).placements
          = v.placements.filter (fun q =>
            decide (¬ ((q.slab = p.slab ∧ q.index = p.index) ∨ (p.kind.isPiece = true ∧ CutoutOf p.slab p.index q)))) := by
        rw [freePlacement_eq]
        exact List.filter_congr (fun q _ => decide_eq_decide.2 (not_congr (or_iff_left (fun e => hk e.1)).symm))
      by_cases hk : p.kind.isPiece = true
      · have hnc : p.kind ≠ .cutout := fun hc => by rw [hc] at hk; cases hk
        have hnr : p.kind ≠ .remnant := fun hc => by rw [hc] at hk; cases hk
        have hunordered : ∀ c ∈ v.placements, CutoutOf p.slab p.index c → c.state ≠ .ordered := by
          intro c hc hcut
          rw [h.placements] at hc
          exact hord c (List.mem_filter.1 hc).1 hcut.1
        rw [removePlacement_piece hk]
        refine h.take hst (removePiece_exceptPlans _ _ _) ?_ ((removePiece_slabs _ _ _).trans (hslabsame hnr))
          (length_removePiece hlv hfound hnc)
        rw [removePiece_placements hlv, filterMap_afterRemoval hunordered]
        exact List.filter_congr (fun q _ => decide_eq_decide.2 (not_congr (or_congr Iff.rfl (and_iff_right hk).symm)))
      · by_cases hr : p.kind = .remnant
        · cases hn : p.remnantSlab with
          | none =>
            have hremove : v.removePlacement p = (⟨1, 0, 0⟩, v.freePlacement p.slab p.index) := by
              unfold State.removePlacement
              rw [hr, hn]
            rw [hremove]
            refine h.take hst rfl (hfilter hk) ?_ (length_freePlacement hlv hpv)
            exact (List.filter_eq_self.2 (fun z _ => by simp [hn])).symm
          | some r =>
            rw [removePlacement_remnant hr hn]
            refine h.take hst rfl (hfilter hk) ?_ (length_freePlacement hlv hpv)
            rw [freeSlab_slabs]
            refine List.filter_congr (fun z _ => decide_eq_decide.2 (not_congr ?_))
            rw [and_iff_right hr, hn]
            exact ⟨fun e => by rw [e], fun e => (Option.some.inj e).symm⟩
        · have hcut : p.kind = .cutout := by
            cases hkind : p.kind <;> simp_all [PlacementKind.isPiece]
          rw [removePlacement_cutout hcut]
          exact h.take hst rfl (hfilter hk) (hslabsame hr) (length_freePlacement hlv hpv)
    · rw [clearPlanned_stays hfound hst]
      exact h.over hl hp (fun hc => absurd hc hst)

theorem ClearsDone.foldl (hl : PlacementsLegal s.placements) (M : List Placement) (h : ClearsDone s v a L)
    (hM : ∀ p ∈ M, p ∈ s.placements ∧ ∀ c ∈ s.placements, c.slab = p.slab → c.state ≠ .ordered)
    (hapart : (L ++ M).Pairwise (fun x y => ¬ (x.slab = y.slab ∧ x.index = y.index))) :
    ClearsDone s (M.foldl clearPlanned (a, v)).2 (M.foldl clearPlanned (a, v)).1 (L ++ M) := by
  induction M generalizing L a v with
  | nil => rw [List.append_nil]; exact h
  | cons p ps ih =>
    obtain ⟨hp, hord⟩ := hM p List.mem_cons_self
    have hnew : ∀ y ∈ L, ¬ (p.slab = y.slab ∧ p.index = y.index) := fun y hy e =>
      (List.pairwise_append.1 hapart).2.2 y hy p List.mem_cons_self ⟨e.1.symm, e.2.symm⟩
    have hassoc : L ++ p :: ps = L ++ [p] ++ ps := by simp
    rw [hassoc] at hapart ⊢
    exact ih (h.step hl hp hord hnew) (fun q hq => hM q (List.mem_cons_of_mem _ hq)) hapart

/-- A PLANNED piece or mitre of the slab. -/
abbrev PlannedPiece (slab : Nat) (q : Placement) : Prop := q.slab = slab ∧ q.kind.isPiece = true ∧ q.state = .planned

/-- What the clearing of a slab leaves: the CUT placements, but for cutouts of pieces that go. -/
abbrev Stays (s : State) (slab : Nat) (p : Placement) : Prop :=
  p.slab = slab → p.state = .cut ∧ ¬ (p.kind = .cutout ∧ ∃ q ∈ s.placements, PlannedPiece slab q ∧ p.parentIndex = some q.index)

/-- The RESERVED record of a PLANNED remnant of the slab. -/
abbrev RecordFreed (s : State) (slab : Nat) (z : Slab) : Prop :=
  ∃ p ∈ s.placements, p.slab = slab ∧ p.kind = .remnant ∧ p.state = .planned ∧ p.remnantSlab = some z.id

theorem mem_placementsOf : p ∈ s.placementsOf slab ↔ p ∈ s.placements ∧ p.slab = slab := by
  simp [State.placementsOf]

/-- R124, of a slab without an ORDERED placement: what leaves the pool and the stock, and how much. -/
theorem clearPlan_done (hl : PlacementsLegal s.placements) (hord : ∀ p ∈ s.placements, p.slab = slab → p.state ≠ .ordered) :
    exceptPlans (s.clearPlan slab).2 = exceptPlans s
      ∧ (s.clearPlan slab).2.placements = s.placements.filter (fun p => decide (Stays s slab p))
      ∧ (s.clearPlan slab).2.slabs = s.slabs.filter (fun z => decide (¬ RecordFreed s slab z))
      ∧ (s.clearPlan slab).1.removed + (s.clearPlan slab).2.placements.length = s.placements.length
      ∧ (s.clearPlan slab).1.freed
        = s.placements.countP (fun p => decide (p.slab = slab ∧ p.kind = .remnant ∧ p.state = .planned)) := by
  have hdone : ClearsDone s (s.clearPlan slab).2 (s.clearPlan slab).1 (s.placementsOf slab) := by
    refine ClearsDone.foldl (L := []) hl (s.placementsOf slab) (ClearsDone.start s) (fun p hp => ?_) ?_
    · obtain ⟨hmem, hslab⟩ := mem_placementsOf.1 hp
      exact ⟨hmem, fun c hc hcs => hord c hc (hcs.trans hslab)⟩
    · exact List.Pairwise.filter _ (placements_apart hl)
  refine ⟨hdone.plans, ?_, ?_, hdone.removed, ?_⟩
  · rw [hdone.placements]
    refine List.filter_congr (fun p hp => decide_eq_decide.2 ⟨fun hno hslab => ?_, ?_⟩)
    · constructor
      · cases hst : p.state with
        | cut => rfl
        | ordered => exact absurd hst (hord p hp hslab)
        | planned => exact absurd ⟨p, mem_placementsOf.2 ⟨hp, hslab⟩, hst, .inl ⟨rfl, rfl⟩⟩ hno
      · rintro ⟨hk, q, hq, ⟨hqs, hqk, hqst⟩, hparent⟩
        exact hno ⟨q, mem_placementsOf.2 ⟨hq, hqs⟩, hqst, .inr ⟨hqk, hslab.trans hqs.symm, hk, hparent⟩⟩
    · rintro hstays ⟨q, hq, hqst, ⟨hs, hi⟩ | ⟨hqk, hs, hk, hparent⟩⟩
      · obtain ⟨hqmem, hqs⟩ := mem_placementsOf.1 hq
        have hcut := (hstays (hs.trans hqs)).1
        rw [placement_unique hl hp hqmem hs hi, hqst] at hcut
        cases hcut
      · obtain ⟨hqmem, hqs⟩ := mem_placementsOf.1 hq
        exact (hstays (hs.trans hqs)).2 ⟨hk, q, hqmem, ⟨hqs, hqk, hqst⟩, hparent⟩
  · rw [hdone.slabs]
    refine List.filter_congr (fun z _ => decide_eq_decide.2 (not_congr ?_))
    constructor
    · rintro ⟨p, hp, h⟩
      obtain ⟨hmem, hs⟩ := mem_placementsOf.1 hp
      exact ⟨p, hmem, hs, h⟩
    · rintro ⟨p, hp, hs, h⟩
      exact ⟨p, mem_placementsOf.2 ⟨hp, hs⟩, h⟩
  · rw [hdone.freed, State.placementsOf, List.countP_filter]
    refine List.countP_congr (fun p _ => ?_)
    rw [Bool.and_eq_true, decide_eq_true_iff, decide_eq_true_iff, decide_eq_true_iff, and_comm]

end

end Sys2Proof.Proofs
end

