-- ==== Sys2Proof/Proofs/Settling.lean ====
section
/-! SUPPORT. The settlement of a slab without orders (R123 to R132) as one change of the tables and one chain of accounts;
the shares charged, the counts lowered and the jobs closed, each as one pass. -/

namespace Sys2Proof.Proofs

open Sys2Proof Sys2Proof.Config Sys2Proof.Machine

/-! ## Remnants enter stock (R126) -/

/-- A remnant's share of the basis (R126), and a piece's provisional material (R115). -/
def basisShare (x : Slab) (p : Placement) : Nat := x.basis * p.area / (x.length * x.width)

/-- The shares of a list of placements together. -/
def basisShares (x : Slab) (T : List Placement) : Nat := (T.map (basisShare x)).sum

/-- A remnant that names a record. -/
abbrev NamesRecord (p : Placement) : Prop := p.kind = .remnant ∧ p.remnantSlab ≠ none

/-- A record when the remnants of `T` have entered stock. -/
def entered (x : Slab) (T : List Placement) (y : Slab) : Slab :=
  if y.id = x.id then { y with allocated := y.allocated + basisShares x T }
  else match T.find? (fun p => decide (p.remnantSlab = some y.id)) with
    | some p => { y with basis := basisShare x p, state := .received }
    | none => y

/-- The ids and bases of the remnants of `T`. -/
def enteredPairs (x : Slab) (T : List Placement) : List (Nat × Nat) :=
  T.filterMap (fun p => p.remnantSlab.map (fun r => (r, basisShare x p)))

section
variable {x y : Slab} {T L : List Placement} {p : Placement} {s : State} {r : Nat}

theorem entered_id (x : Slab) (T : List Placement) (y : Slab) : (entered x T y).id = y.id := by
  unfold entered
  split
  · rfl
  · split <;> rfl

theorem entered_self (h : y.id = x.id) : entered x T y = { y with allocated := y.allocated + basisShares x T } := if_pos h

theorem entered_found (h : y.id ≠ x.id) (hp : T.find? (fun p => decide (p.remnantSlab = some y.id)) = some p) :
    entered x T y = { y with basis := basisShare x p, state := .received } := by
  unfold entered
  rw [if_neg h, hp]

theorem entered_other (h : y.id ≠ x.id) (hp : T.find? (fun p => decide (p.remnantSlab = some y.id)) = none) :
    entered x T y = y := by
  unfold entered
  rw [if_neg h, hp]

theorem entered_nil (x y : Slab) : entered x [] y = y := by
  by_cases h : y.id = x.id
  · rw [entered_self h]
    rfl
  · rw [entered_other h rfl]

/-- One remnant more. -/
theorem entered_snoc (hr : p.remnantSlab = some r) (hnew : ∀ q ∈ T, q.remnantSlab ≠ some r) (y : Slab) :
    entered x (T ++ [p]) y
      = (if y.id = x.id then { entered x T y with allocated := (entered x T y).allocated + basisShare x p }
        else if y.id = r then { entered x T y with basis := basisShare x p, state := .received } else entered x T y) := by
  by_cases h : y.id = x.id
  · rw [if_pos h, entered_self h, entered_self h]
    simp [basisShares, Nat.add_assoc]
  · rw [if_neg h]
    by_cases hy : y.id = r
    · have hnone : T.find? (fun p => decide (p.remnantSlab = some y.id)) = none :=
        List.find?_eq_none.2 (fun q hq hc => hnew q hq (hy ▸ of_decide_eq_true hc))
      have hfound : (T ++ [p]).find? (fun p => decide (p.remnantSlab = some y.id)) = some p := by
        rw [List.find?_append, hnone, Option.none_or,
          List.find?_cons_of_pos (p := fun p : Placement => decide (p.remnantSlab = some y.id)) (decide_eq_true (by rw [hr, hy]))]
      rw [if_pos hy, entered_found h hfound, entered_other h hnone]
    · have hsame : (T ++ [p]).find? (fun p => decide (p.remnantSlab = some y.id))
          = T.find? (fun p => decide (p.remnantSlab = some y.id)) := by
        have hno : ¬ decide (p.remnantSlab = some y.id) = true := fun hc => by
          have := of_decide_eq_true hc
          rw [hr] at this
          exact hy (Option.some.inj this).symm
        rw [List.find?_append, List.find?_cons_of_neg (p := fun p : Placement => decide (p.remnantSlab = some y.id)) hno, List.find?_nil,
          Option.or_none]
      rw [if_neg hy]
      unfold entered
      rw [if_neg h, if_neg h, hsame]

/-- The remnants of `L` that name a record. -/
def recordNamers (L : List Placement) : List Placement := L.filter (fun p => decide (NamesRecord p))

/-- Each remnant of `L` names a record of its own, none the slab `x`. -/
abbrev RecordsApart (x : Slab) (L : List Placement) : Prop :=
  (∀ p ∈ L, p.kind = .remnant → p.remnantSlab ≠ some x.id)
    ∧ L.Pairwise (fun p q => p.kind = .remnant → q.kind = .remnant → p.remnantSlab ≠ none → p.remnantSlab ≠ q.remnantSlab)

theorem foldl_enterRemnant (hL : RecordsApart x L) : L.foldl (enterRemnant x) ([], s)
    = (enteredPairs x (recordNamers L), { s with slabs := s.slabs.map (entered x (recordNamers L)) }) := by
  induction L using List.reverseRecOn with
  | nil =>
    have hid : s.slabs.map (entered x (recordNamers [])) = s.slabs :=
      (List.map_congr_left (fun y _ => entered_nil x y)).trans (List.map_id _)
    rw [hid]
    rfl
  | append_singleton L p ih =>
    obtain ⟨hself, hapart⟩ := hL
    obtain ⟨hLapart, -, hlast⟩ := List.pairwise_append.1 hapart
    have ih := ih ⟨fun q hq => hself q (List.mem_append_left _ hq), hLapart⟩
    rw [List.foldl_append, ih, List.foldl_cons, List.foldl_nil]
    by_cases hp : NamesRecord p
    · obtain ⟨hk, hne⟩ := hp
      obtain ⟨r, hr⟩ := Option.ne_none_iff_exists'.1 hne
      have hsnoc : recordNamers (L ++ [p]) = recordNamers L ++ [p] := by
        unfold recordNamers
        rw [List.filter_append]
        simp [hk, hr]
      have hx : r ≠ x.id := fun e => hself p (by simp) hk (by rw [hr, e])
      have hnew : ∀ q ∈ recordNamers L, q.remnantSlab ≠ some r := by
        intro q hq e
        obtain ⟨hqL, hqn⟩ := List.mem_filter.1 hq
        obtain ⟨hqk, hqne⟩ := of_decide_eq_true hqn
        exact hlast q hqL p (List.mem_singleton.2 rfl) hqk hk hqne (e.trans hr.symm)
      have hstep : enterRemnant x (enteredPairs x (recordNamers L), { s with slabs := s.slabs.map (entered x (recordNamers L)) }) p
          = (enteredPairs x (recordNamers L) ++ [(r, basisShare x p)],
            (({ s with slabs := s.slabs.map (entered x (recordNamers L)) } : State).modifySlab r
              (fun z => { z with basis := basisShare x p, state := .received })).modifySlab x.id
                (fun z => { z with allocated := z.allocated + basisShare x p })) := by
        unfold enterRemnant
        rw [hk, hr]
        rfl
      have hlist : modifyBy Slab.id x.id (fun z => { z with allocated := z.allocated + basisShare x p })
            (modifyBy Slab.id r (fun z => { z with basis := basisShare x p, state := .received })
              (s.slabs.map (entered x (recordNamers L))))
          = s.slabs.map (entered x (recordNamers L ++ [p])) := by
        unfold modifyBy
        rw [List.map_map, List.map_map]
        refine List.map_congr_left (fun y _ => ?_)
        rw [Function.comp_apply, Function.comp_apply, entered_id, entered_snoc hr hnew]
        by_cases hy : y.id = r
        · have hyx : y.id ≠ x.id := hy ▸ hx
          rw [if_pos hy, if_neg hyx]
          exact if_neg (by rw [entered_id]; exact hyx)
        · rw [if_neg hy, entered_id]
      have hpairs : enteredPairs x (recordNamers L ++ [p]) = enteredPairs x (recordNamers L) ++ [(r, basisShare x p)] := by
        unfold enteredPairs
        rw [List.filterMap_append]
        simp [hr]
      rw [hstep, hsnoc, hpairs, ← hlist]
      rfl
    · have hsnoc : recordNamers (L ++ [p]) = recordNamers L := by
        unfold recordNamers
        rw [List.filter_append, List.filter_cons, if_neg (fun h => hp (of_decide_eq_true h))]
        exact List.append_nil _
      rw [hsnoc]
      unfold enterRemnant
      cases hk : p.kind with
      | remnant =>
        cases hr : p.remnantSlab with
        | none => rfl
        | some r => exact absurd ⟨hk, by rw [hr]; simp⟩ hp
      | _ => rfl

end

/-! ## Counts lowered, jobs closed (R131) -/

section
variable {s : State} {ps : List Placement} {ids : List Nat}

theorem foldl_modifyJob (f : Nat → Job → Job) (hf : ∀ n x, (f n x).id = x.id) (hd : ids.Nodup) (s : State) :
    ids.foldl (fun s n => s.modifyJob n (f n)) s
      = { s with jobs := s.jobs.map (fun x => if x.id ∈ ids then f x.id x else x) } := by
  induction ids using List.reverseRecOn with
  | nil =>
    have hid : s.jobs.map (fun x => if x.id ∈ ([] : List Nat) then f x.id x else x) = s.jobs :=
      (List.map_congr_left (fun x _ => if_neg List.not_mem_nil)).trans (List.map_id _)
    rw [hid]
    rfl
  | append_singleton ids n ih =>
    obtain ⟨hids, -, hapart⟩ := List.nodup_append.1 hd
    have hn : n ∉ ids := fun h => hapart n h n (List.mem_singleton.2 rfl) rfl
    have hlist : modifyBy Job.id n (f n) (s.jobs.map (fun x => if x.id ∈ ids then f x.id x else x))
        = s.jobs.map (fun x => if x.id ∈ ids ++ [n] then f x.id x else x) := by
      unfold modifyBy
      rw [List.map_map]
      refine List.map_congr_left (fun x _ => ?_)
      rw [Function.comp_apply]
      by_cases hx : x.id = n
      · rw [if_neg (show x.id ∉ ids from hx ▸ hn), if_pos hx, if_pos (by simp [hx]), hx]
      · by_cases hm : x.id ∈ ids
        · rw [if_pos hm, if_neg (by rw [hf]; exact hx), if_pos (List.mem_append_left _ hm)]
        · rw [if_neg hm, if_neg hx, if_neg (by simp [hm, hx])]
    rw [List.foldl_append, ih hids, List.foldl_cons, List.foldl_nil, ← hlist]
    rfl

/-- A record whose unsettled pieces fall by the number of its pieces among `ps` (R131). -/
def loweredBy (ps : List Placement) (j : Job) : Job :=
  { j with unsettled := j.unsettled - ps.countP (fun p => decide (p.job = some j.id)) }

theorem lowerUnsettled_eq (ps : List Placement) (s : State) : s.lowerUnsettled ps
    = { s with jobs := s.jobs.map (loweredBy ps) } := by
  have hfold := foldl_modifyJob (ids := participants ps)
    (fun n x => { x with unsettled := x.unsettled - ps.countP (fun p => decide (p.job = some n)) }) (fun _ _ => rfl)
    (nodup_distinct _) s
  have hjobs : s.jobs.map (fun x => if x.id ∈ participants ps then
        { x with unsettled := x.unsettled - ps.countP (fun p => decide (p.job = some x.id)) } else x)
      = s.jobs.map (loweredBy ps) := by
    refine List.map_congr_left (fun x _ => ?_)
    split
    · rfl
    · rename_i hno
      have hzero : ps.countP (fun p => decide (p.job = some x.id)) = 0 :=
        List.countP_eq_zero.2 (fun p hp hc => hno (mem_participants.2 ⟨p, hp, of_decide_eq_true hc⟩))
      unfold loweredBy
      rw [hzero]
      rfl
  exact hfold.trans (by rw [hjobs])

end

/-! ## The settlement (R123) -/

section
variable {s t v : State} {x : Slab} {c : Cause} {e : Ending}

/-- The CUT remnants of a slab that name a record, in ascending index. -/
def cutRemnants (s : State) (slab : Nat) : List Placement :=
  s.placements.filter (fun p => decide (p.slab = slab ∧ p.kind = .remnant ∧ p.state = .cut ∧ p.remnantSlab ≠ none))

/-- The CUT pieces and mitres of a slab, in ascending index. -/
def cutPiecesOn (s : State) (slab : Nat) : List Placement :=
  s.placements.filter (fun p => decide (p.slab = slab ∧ p.kind.isPiece = true ∧ p.state = .cut))

/-- The residue (R127). -/
def residueOf (s : State) (x : Slab) : Nat := x.basis - (x.allocated + basisShares x (cutRemnants s x.id))

/-- A slab's record, and those of its remnants, when it is settled (R126, R127, R131). -/
def settledSlab (s : State) (e : Ending) (x y : Slab) : Slab :=
  if y.id = x.id then
    { y with allocated := y.allocated + basisShares x (cutRemnants s x.id) + residueOf s x, state := e.state }
  else entered x (cutRemnants s x.id) y

/-- The tables when a slab is settled. -/
def tablesSettled (s : State) (e : Ending) (x : Slab) : State :=
  { s with
    placements := s.placements.filter (fun p => decide (Stays s x.id p))
    slabs := (s.slabs.filter (fun z => decide (¬ RecordFreed s x.id z))).map (settledSlab s e x) }

/-- What the settlement did, as its notice and its ANSWER tell it. -/
def settledAs (s : State) (e : Ending) (x : Slab) : Settled where
  slab := x.id
  ending := e
  basis := x.basis
  residue := residueOf s x
  shares := sharesOf e (residueOf s x) (cutPiecesOn s x.id)
  remnants := enteredPairs x (cutRemnants s x.id)
  loss := if (sharesOf e (residueOf s x) (cutPiecesOn s x.id)).isEmpty then residueOf s x else 0
  cleared := (s.clearPlan x.id).1

/-- The accounts when a slab is settled: shares, loss, counts and the notice, in their order. -/
def accountsSettled (c : Cause) (s : State) (e : Ending) (x : Slab) (v : State) : State :=
  (((v.chargeShares c x.id (settledAs s e x).shares).addLoss (settledAs s e x).loss).lowerUnsettled
    (cutPiecesOn s x.id)).notify (settledAs s e x).notice

/-- What a slab must be for its settlement: its record found, nothing of it ORDERED, and its remnants' records apart. -/
structure Settleable (s : State) (x : Slab) : Prop where
  legal : PlacementsLegal s.placements
  found : s.slab? x.id = some x
  unordered : ∀ p ∈ s.placements, p.slab = x.id → p.state ≠ .ordered
  apart : RecordsApart x (s.placementsOf x.id)

theorem closeSlab_withAccounts (slab n : Nat) (e : Ending) (t v : State) :
    (withAccounts t v).closeSlab slab n e = withAccounts (t.closeSlab slab n e) v := rfl

theorem placementsOf_cleared (v : State)
    (hv : v.placements = s.placements.filter (fun p => decide (Stays s x.id p))) :
    recordNamers (v.placementsOf x.id) = cutRemnants s x.id ∧ v.cutPieces x.id = cutPiecesOn s x.id := by
  have hstays {p : Placement} (hk : p.kind ≠ .cutout) (hs : p.slab = x.id) : Stays s x.id p ↔ p.state = .cut :=
    ⟨fun hst => (hst hs).1, fun hcut _ => ⟨hcut, fun hc => hk hc.1⟩⟩
  unfold State.cutPieces recordNamers State.placementsOf cutRemnants cutPiecesOn
  rw [hv]
  simp only [List.filter_filter]
  constructor
  · refine List.filter_congr (fun p _ => ?_)
    rw [← Bool.decide_and, ← Bool.decide_and, decide_eq_decide]
    constructor
    · rintro ⟨⟨hk, hn⟩, hs, hst⟩
      exact ⟨hs, hk, (hstays (by rw [hk]; decide) hs).1 hst, hn⟩
    · rintro ⟨hs, hk, hcut, hn⟩
      exact ⟨⟨hk, hn⟩, hs, (hstays (by rw [hk]; decide) hs).2 hcut⟩
  · refine List.filter_congr (fun p _ => ?_)
    rw [Bool.eq_iff_iff]
    simp only [Bool.and_eq_true, decide_eq_true_eq]
    constructor
    · rintro ⟨⟨hk, hcut⟩, hs, -⟩
      exact ⟨hs, hk, hcut⟩
    · rintro ⟨hs, hk, hcut⟩
      exact ⟨⟨hk, hcut⟩, hs, (hstays (fun hc => by rw [hc] at hk; cases hk) hs).2 hcut⟩

theorem find?_filter_of_found {α : Type} {p q : α → Bool} {l : List α} {y : α} (h : l.find? p = some y) (hq : q y = true) :
    (l.filter q).find? p = some y := by
  induction l with
  | nil => cases h
  | cons z zs ih =>
    by_cases hp : p z = true
    · rw [List.find?_cons_of_pos hp] at h
      obtain rfl := Option.some.inj h
      rw [List.filter_cons_of_pos hq, List.find?_cons_of_pos hp]
    · rw [List.find?_cons_of_neg hp] at h
      rw [List.filter_cons]
      split
      · rw [List.find?_cons_of_neg hp]
        exact ih h
      · exact ih h

theorem recordsApart_filter {L : List Placement} (h : RecordsApart x L) (q : Placement → Bool) : RecordsApart x (L.filter q) :=
  ⟨fun p hp => h.1 p (List.mem_filter.1 hp).1, h.2.filter q⟩

/-- The settlement as one change of the tables and one chain of accounts. -/
theorem settle_eq (h : Settleable s x) : s.settle c e x
    = (settledAs s e x, withAccounts (tablesSettled s e x) (accountsSettled c s e x s)) := by
  obtain ⟨hplans, hpl, hslabs, -, -⟩ := clearPlan_done h.legal h.unordered
  have hclear : ({ s with
      placements := s.placements.filter (fun p => decide (Stays s x.id p))
      slabs := s.slabs.filter (fun z => decide (¬ RecordFreed s x.id z)) } : State) = (s.clearPlan x.id).2 := by
    have := eq_of_plans hplans
    rw [hpl, hslabs] at this
    exact this
  have hkept := placementsOf_cleared (s.clearPlan x.id).2 hpl
  have happly : RecordsApart x ((s.clearPlan x.id).2.placementsOf x.id) := by
    have hof : (s.clearPlan x.id).2.placementsOf x.id = (s.placementsOf x.id).filter (fun p => decide (Stays s x.id p)) := by
      unfold State.placementsOf
      rw [hpl, List.filter_filter, List.filter_filter]
      exact List.filter_congr (fun p _ => Bool.and_comm _ _)
    rw [hof]
    exact recordsApart_filter h.apart _
  have henter : (s.clearPlan x.id).2.enterRemnants x = (enteredPairs x (cutRemnants s x.id),
      { (s.clearPlan x.id).2 with slabs := (s.clearPlan x.id).2.slabs.map (entered x (cutRemnants s x.id)) }) := by
    unfold State.enterRemnants
    rw [foldl_enterRemnant happly, hkept.1]
  have hstill : (s.clearPlan x.id).2.slab? x.id = some x := by
    have hx : ¬ RecordFreed s x.id x := by
      rintro ⟨p, hp, hps, hk, -, hr⟩
      exact h.apart.1 p (mem_placementsOf.2 ⟨hp, hps⟩) hk hr
    show findBy Slab.id x.id (s.clearPlan x.id).2.slabs = some x
    rw [hslabs]
    exact find?_filter_of_found h.found (decide_eq_true hx)
  have hentered : ({ (s.clearPlan x.id).2 with
        slabs := (s.clearPlan x.id).2.slabs.map (entered x (cutRemnants s x.id)) } : State).slab? x.id
      = some { x with allocated := x.allocated + basisShares x (cutRemnants s x.id) } := by
    show findBy Slab.id x.id _ = _
    rw [findBy_map (entered_id x _)]
    show ((s.clearPlan x.id).2.slab? x.id).map _ = _
    rw [hstill, Option.map_some, entered_self rfl]
  have hpieces : ({ (s.clearPlan x.id).2 with
        slabs := (s.clearPlan x.id).2.slabs.map (entered x (cutRemnants s x.id)) } : State).cutPieces x.id
      = cutPiecesOn s x.id := hkept.2
  have htables : ({ (s.clearPlan x.id).2 with
        slabs := (s.clearPlan x.id).2.slabs.map (entered x (cutRemnants s x.id)) } : State)
      = withAccounts ({ s with
          placements := s.placements.filter (fun p => decide (Stays s x.id p))
          slabs := (s.slabs.filter (fun z => decide (¬ RecordFreed s x.id z))).map (entered x (cutRemnants s x.id)) }) s := by
    rw [← hclear]
    rfl
  have hclose : modifyBy Slab.id x.id (fun z => { z with allocated := z.allocated + residueOf s x, state := e.state })
        ((s.slabs.filter (fun z => decide (¬ RecordFreed s x.id z))).map (entered x (cutRemnants s x.id)))
      = (s.slabs.filter (fun z => decide (¬ RecordFreed s x.id z))).map (settledSlab s e x) := by
    unfold modifyBy
    rw [List.map_map]
    refine List.map_congr_left (fun y _ => ?_)
    rw [Function.comp_apply, entered_id]
    unfold settledSlab
    by_cases hy : y.id = x.id
    · rw [if_pos hy, if_pos hy, entered_self hy]
    · rw [if_neg hy, if_neg hy]
  unfold State.settle
  dsimp only
  rw [henter]
  dsimp only
  rw [hentered, hpieces, htables]
  dsimp only
  show (settledAs s e x, State.notify (settledAs s e x).notice (State.lowerUnsettled (cutPiecesOn s x.id)
    (State.closeSlab x.id (residueOf s x) e (State.addLoss (settledAs s e x).loss (State.chargeShares c x.id
      (settledAs s e x).shares (withAccounts _ s)))))) = _
  rw [chargeShares_withAccounts, addLoss_withAccounts, closeSlab_withAccounts, lowerUnsettled_withAccounts,
    notify_withAccounts]
  unfold State.closeSlab State.modifySlab
  dsimp only
  rw [hclose]
  rfl

end

end Sys2Proof.Proofs
end

