-- ==== Sys2Proof/Proofs/SlabDone.lean ====
section
/-! SUPPORT. SLAB DONE (R122 to R132): its refusals, the shares charged to the jobs, and one job's record after them. -/

namespace Sys2Proof.Proofs

open Sys2Proof Sys2Proof.Config Sys2Proof.Machine

/-! ## Refusals (R122) -/

section
variable {s : State} {src slab : Nat} {e : Ending} {x : Slab}

theorem slabDone_zero : slabDone src e 0 s = (.reject .form [], s) := rfl

theorem slabDone_noSlab (h0 : slab ≠ 0) (hx : s.slab? slab = none) : slabDone src e slab s = (.reject .noSlab [], s) := by
  unfold slabDone
  rw [if_neg h0, hx]
  rfl

theorem slabDone_refused {r : Reason} {d : List Byte} (h0 : slab ≠ 0) (hx : s.slab? slab = some x)
    (hc : doneCheck s e x = some (r, d)) : slabDone src e slab s = (.reject r d, s) := by
  unfold slabDone
  rw [if_neg h0, hx]
  exact unlessFails_fail hc

theorem slabDone_settled (h0 : slab ≠ 0) (hx : s.slab? slab = some x) (hc : doneCheck s e x = none) :
    slabDone src e slab s = (.answer (s.settle ⟨src, Kind.slabDone⟩ e x).1.bytes,
      (s.settle ⟨src, Kind.slabDone⟩ e x).2.closeParticipants ((s.settle ⟨src, Kind.slabDone⟩ e x).2.cutPieces x.id)) := by
  unfold slabDone
  rw [if_neg h0, hx]
  exact unlessFails_pass hc

theorem doneCheck_state (h : x.state.isStock = false) :
    doneCheck s e x = some (.slabState, u8 (slabStateCode x.state)) := by
  unfold doneCheck
  rw [checkThat_fail h]
  rfl

theorem doneCheck_stock (h : x.state.isStock = true) : doneCheck s e x = (flightCheck s x.id).or
    (checkThat (decide (e ≠ .finished) || (s.placementsOf x.id).any (fun p => decide (p.state = .cut))) .nothingCut) := by
  unfold doneCheck
  rw [checkThat_pass h, Option.none_or]

theorem flightCheck_none (h : ∀ o ∈ s.orders, o.slab ≠ slab) : flightCheck s slab = none := by
  have hnone : s.orders.find? (fun o => decide (o.slab = slab)) = none :=
    List.find?_eq_none.2 (fun o ho hc => h o ho (of_decide_eq_true hc))
  unfold flightCheck
  rw [hnone]

theorem flightCheck_some {o : CutOrder} (h : s.orders.find? (fun o => decide (o.slab = slab)) = some o) :
    flightCheck s slab = some (.inFlight, u8 o.saw ++ u8 (orderStateCode o.state)) := by
  unfold flightCheck
  rw [h]

theorem findSome?_only {α β : Type} {f : α → Option β} {l : List α} {a : α} {b : β} (ha : a ∈ l) (hb : f a = some b)
    (honly : ∀ z ∈ l, f z ≠ none → z = a) : l.findSome? f = some b := by
  induction l with
  | nil => cases ha
  | cons z zs ih =>
    rw [List.findSome?_cons]
    cases hz : f z with
    | some c =>
      rw [honly z List.mem_cons_self (by rw [hz]; simp), hb] at hz
      exact hz.symm
    | none =>
      have hza : a ≠ z := fun e => by rw [e, hz] at hb; cases hb
      exact ih ((List.mem_cons.1 ha).resolve_left hza) (fun y hy => honly y (List.mem_cons_of_mem _ hy))

/-- All orders of a slab stand on one saw, so its oldest is the oldest of that saw's. -/
theorem find?_orders {a : Nat} {w : Saw} {o : CutOrder} (hs : StationsLegal s.address s.stations) (ho : s.Orderly)
    (hw : s.saw? a = some w) (hfind : w.queue.find? (fun o => decide (o.slab = slab)) = some o) :
    s.orders.find? (fun o => decide (o.slab = slab)) = some o ∧ o.saw = a := by
  obtain ⟨st, hst, hsaw⟩ := Option.bind_eq_some_iff.1 hw
  obtain ⟨hstmem, haddr⟩ := findBy_some _ hst
  have hq : queueOf st = w.queue := by unfold queueOf; rw [hsaw]
  have hcarried := sawsCarried_of_orderly ho
  have hoq : o ∈ w.queue := List.mem_of_find?_eq_some hfind
  have hosaw : o.saw = a := (hcarried st hstmem w hsaw o hoq).trans haddr
  have hoslab : o.slab = slab := by
    have := List.find?_some hfind
    exact of_decide_eq_true this
  refine ⟨?_, hosaw⟩
  rw [orders_eq, List.find?_flatMap]
  refine findSome?_only hstmem (hq ▸ hfind) (fun z hz hne => ?_)
  obtain ⟨y, hy⟩ := Option.ne_none_iff_exists'.1 hne
  have hyslab : y.slab = slab := by
    have := List.find?_some hy
    exact of_decide_eq_true this
  have hymem : y ∈ queueOf z := List.mem_of_find?_eq_some hy
  obtain ⟨w', hw', hyq⟩ := mem_queueOf.1 hymem
  obtain ⟨-, -, honesaw, -⟩ := ho
  have hsame : y.saw = o.saw := honesaw y (mem_orders.2 ⟨z, hz, hymem⟩) o (mem_orders_of_saw hstmem hsaw hoq)
    (hyslab.trans hoslab.symm)
  exact rising_unique Station.address hs.1 hz hstmem
    ((hcarried z hz w' hw' y hyq).symm.trans (hsame.trans (hosaw.trans haddr.symm)))

end

/-! ## Shares charged (R130) -/

section
variable {s : State} {c : Cause} {slab n m : Nat} {j : Job} {l : List (Nat × Nat × Nat)} {on : Bool} {a : Accumulator}

/-- A job's record when each of the shares is charged. -/
def shared (on : Bool) (l : List (Nat × Nat × Nat)) (n : Nat) (j : Job) : Job :=
  match l.find? (fun y => decide (y.1 = n)) with
  | some y => charged on .material y.2.2 j
  | none => j

/-- What a job's shares come to. -/
def sharesFor (l : List (Nat × Nat × Nat)) (n : Nat) : Nat := ((l.filter (fun y => decide (y.1 = n))).map (fun y => y.2.2)).sum

theorem chargeShares_cons (y : Nat × Nat × Nat) : s.chargeShares c slab (y :: l)
    = (s.charge c slab y.1 .material y.2.2).chargeShares c slab l := rfl

/-- A job's record when each of the shares is charged, one at most to each job. -/
theorem job?_chargeShares (hl : (l.map Prod.fst).Nodup) (hj : s.job? n = some j) :
    (s.chargeShares c slab l).job? n = some (shared s.groups.quote l n j) := by
  unfold shared
  induction l generalizing s j with
  | nil => exact hj
  | cons y l ih =>
    rw [List.map_cons, List.nodup_cons] at hl
    obtain ⟨hy, hl⟩ := hl
    rw [chargeShares_cons]
    by_cases hn : y.1 = n
    · have hrest : l.find? (fun y => decide (y.1 = n)) = none :=
        List.find?_eq_none.2 (fun z hz hc => hy (List.mem_map.2 ⟨z, hz, (of_decide_eq_true hc).trans hn.symm⟩))
      rw [List.find?_cons_of_pos (p := fun y : Nat × Nat × Nat => decide (y.1 = n)) (decide_eq_true hn)]
      have hone := job?_charge (c := c) (slab := slab) (a := .material) (n := y.2.2) (hn ▸ hj)
      rw [hn] at hone
      rw [hn, ih hl hone, hrest]
    · rw [List.find?_cons_of_neg (p := fun y : Nat × Nat × Nat => decide (y.1 = n)) (fun hc => hn (of_decide_eq_true hc)),
        ← charge_groups (s := s) (c := c) (slab := slab) (job := y.1) (a := .material) (n := y.2.2)]
      exact ih hl ((job?_charge_other (Ne.symm hn)).trans hj)

theorem job?_chargeShares_none (hj : s.job? n = none) : (s.chargeShares c slab l).job? n = none := by
  induction l generalizing s with
  | nil => exact hj
  | cons y l ih => exact ih (job?_charge_none hj)

theorem chargeShares_exceptCharges : exceptCharges (s.chargeShares c slab l) = exceptCharges s := by
  induction l generalizing s with
  | nil => rfl
  | cons y l ih => exact ih.trans charge_exceptCharges

theorem chargeShares_core : (s.chargeShares c slab l).jobs.map jobCore = s.jobs.map jobCore := by
  induction l generalizing s with
  | nil => rfl
  | cons y l ih => exact ih.trans charge_core

theorem chargeShares_outbox : ∃ offered, (s.chargeShares c slab l).outbox = s.outbox ++ offered
    ∧ ∀ o ∈ offered, (∃ job limit sum hold, o = .notice (.overQuote job limit sum hold))
      ∨ ∃ job filled k, o = .notice (.fault (saturatedFault c slab job .material) filled k) := by
  induction l generalizing s with
  | nil => exact ⟨[], (List.append_nil _).symm, by simp⟩
  | cons y l ih =>
    obtain ⟨first, hfirst, hkind⟩ := charge_outbox (s := s) (c := c) (slab := slab) (job := y.1) (a := .material) (n := y.2.2)
    obtain ⟨rest, hrest, hkinds⟩ := ih (s := s.charge c slab y.1 .material y.2.2)
    refine ⟨first ++ rest, ?_, fun o ho => (List.mem_append.1 ho).elim (hkind o) (hkinds o)⟩
    rw [chargeShares_cons, hrest, hfirst, List.append_assoc]

theorem added_saturated (a : Accumulator) (n : Nat) (j : Job) :
    (added a n j).saturated = (j.saturated || decide (accumulatorMax a < j.held a + n)) := by
  unfold added
  by_cases h : j.held a + n ≤ accumulatorMax a
  · rw [if_pos h, decide_eq_false (Nat.not_lt.2 h), Bool.or_false]
    cases a <;> rfl
  · rw [if_neg h, decide_eq_true (Nat.not_le.1 h), Bool.or_true]
    rfl

theorem quoted_saturated (on : Bool) (j : Job) : (quoted on j).saturated = j.saturated := by
  unfold quoted
  split <;> rfl

theorem quoted_overQuote (on : Bool) (j : Job) : (quoted on j).overQuote
    = (j.overQuote || decide (on = true ∧ ∃ l, j.limit = some l ∧ l ≤ j.sum)) := by
  unfold quoted
  by_cases h : quoteReached on j = true
  · obtain ⟨hon, -, hl⟩ := quoteReached_iff.1 h
    rw [if_pos h, decide_eq_true (And.intro hon hl), Bool.or_true]
  · rw [if_neg h]
    cases hq : j.overQuote with
    | true => rfl
    | false => rw [decide_eq_false (fun e => h (quoteReached_iff.2 ⟨e.1, hq, e.2⟩)), Bool.or_false]

theorem quoted_sum (on : Bool) (j : Job) : (quoted on j).sum = j.sum := by
  unfold quoted
  split <;> rfl

/-- A record after a charge of material. -/
theorem charged_material (on : Bool) (n : Nat) (j : Job) : let y := charged on .material n j
    y.material = min maxCharge (j.material + n) ∧ y.saw = j.saw ∧ y.wear = j.wear ∧ y.water = j.water
      ∧ y.saturated = (j.saturated || decide (maxCharge < j.material + n))
      ∧ y.overQuote = (j.overQuote || decide (on = true ∧ ∃ l, j.limit = some l ∧ l ≤ y.material + y.saw + y.wear + y.water)) := by
  intro y
  have hsum : (added .material n j).sum = y.material + y.saw + y.wear + y.water := (quoted_sum on _).symm
  have hlimit : (added .material n j).limit = j.limit := (congrArg Job.limit (jobCore_added .material n j) :)
  have hmark : (added .material n j).overQuote = j.overQuote := by unfold added; split <;> rfl
  refine ⟨held_charged on .material .material n j, held_charged on .material .saw n j, held_charged on .material .wear n j,
    held_charged on .material .water n j, ?_, ?_⟩
  · exact (quoted_saturated on _).trans (added_saturated .material n j)
  · refine (quoted_overQuote on _).trans ?_
    rw [hmark, hlimit, hsum]

/-! ## The participants (R128) -/

theorem distinct_filter (p : Nat → Bool) (l : List Nat) : distinct (l.filter p) = (distinct l).filter p := by
  induction l with
  | nil => rfl
  | cons x l ih =>
    rw [distinct_cons, List.filter_cons, List.filter_cons, List.filter_filter]
    by_cases hp : p x = true
    · rw [if_pos hp, if_pos hp, distinct_cons, ih, List.filter_filter]
      congr 1
      exact List.filter_congr (fun y _ => Bool.and_comm _ _)
    · rw [if_neg hp, if_neg hp, ih]
      refine List.filter_congr (fun y _ => ?_)
      by_cases hy : y = x
      · rw [hy, decide_eq_false (not_not_intro rfl), Bool.and_false, Bool.eq_false_iff.2 hp]
      · rw [decide_eq_true hy, Bool.and_true]

theorem distinct_eq_eraseDups (l : List Nat) : distinct l = l.eraseDups := by
  induction hn : l.length using Nat.strong_induction_on generalizing l with
  | _ n ih =>
    cases l with
    | nil => rfl
    | cons x l =>
      have hbne : (fun b : Nat => !b == x) = (fun b => decide (b ≠ x)) := by
        funext b
        by_cases h : b = x <;> simp [h]
      rw [distinct_cons, List.eraseDups_cons, hbne, ← distinct_filter]
      have hlen : (l.filter (fun b => decide (b ≠ x))).length < n := by
        rw [← hn]
        exact Nat.lt_succ_of_le (List.length_filter_le _ _)
      rw [ih _ hlen _ rfl]

theorem participants_eq (ps : List Placement) : participants ps = (ps.filterMap Placement.job).eraseDups :=
  distinct_eq_eraseDups _

theorem residueShares_fst (residue : Nat) (ps : List Placement) : (residueShares residue ps).map Prod.fst = participants ps := by
  calc (residueShares residue ps).map Prod.fst
      = (floorShares residue ps).map Share.job := by
        rw [residueShares, List.map_map]
        exact map_zipIdx_of_fst Share.job _
    _ = participants ps := by
      unfold floorShares
      rw [List.map_map]
      exact List.map_id _

theorem length_residueShares (residue : Nat) (ps : List Placement) :
    (residueShares residue ps).length = (participants ps).length := by
  rw [← residueShares_fst residue ps, List.length_map]

end

/-! ## One job when a slab is settled -/

section
variable {s v : State} {c : Cause} {slab n m : Nat} {j : Job} {l : List (Nat × Nat × Nat)} {on : Bool} {e : Ending} {x : Slab}

theorem shared_found {y : Nat × Nat × Nat} (hf : l.find? (fun y => decide (y.1 = n)) = some y) :
    shared on l n j = charged on .material y.2.2 j := by
  unfold shared
  rw [hf]

theorem shared_none (hf : l.find? (fun y => decide (y.1 = n)) = none) : shared on l n j = j := by
  unfold shared
  rw [hf]

theorem sharesFor_eq (hl : (l.map Prod.fst).Nodup) :
    sharesFor l n = ((l.find? (fun y => decide (y.1 = n))).map (fun y => y.2.2)).getD 0 := by
  unfold sharesFor
  induction l with
  | nil => rfl
  | cons y l ih =>
    rw [List.map_cons, List.nodup_cons] at hl
    obtain ⟨hy, hl⟩ := hl
    by_cases hn : y.1 = n
    · have hrest : l.filter (fun y => decide (y.1 = n)) = [] :=
        List.filter_eq_nil_iff.2 (fun z hz hc => hy (List.mem_map.2 ⟨z, hz, (of_decide_eq_true hc).trans hn.symm⟩))
      rw [List.find?_cons_of_pos (p := fun y : Nat × Nat × Nat => decide (y.1 = n)) (decide_eq_true hn),
        List.filter_cons_of_pos (p := fun y : Nat × Nat × Nat => decide (y.1 = n)) (decide_eq_true hn), hrest]
      exact Nat.add_zero _
    · rw [List.find?_cons_of_neg (p := fun y : Nat × Nat × Nat => decide (y.1 = n)) (fun hc => hn (of_decide_eq_true hc)),
        List.filter_cons_of_neg (p := fun y : Nat × Nat × Nat => decide (y.1 = n)) (fun hc => hn (of_decide_eq_true hc))]
      exact ih hl

theorem mem_shares_iff : n ∈ l.map Prod.fst ↔ ∃ y, l.find? (fun y => decide (y.1 = n)) = some y := by
  rw [← Option.isSome_iff_exists, List.find?_isSome, List.mem_map]
  exact exists_congr (fun y => and_congr_right (fun _ => decide_eq_true_iff.symm))

/-- A job's charges, marks and counts after the shares. -/
theorem shared_eq (hl : (l.map Prod.fst).Nodup) (hj : j.material ≤ maxCharge) : let y := shared on l n j
    y.material = min maxCharge (j.material + sharesFor l n) ∧ y.saw = j.saw ∧ y.wear = j.wear ∧ y.water = j.water
      ∧ y.saturated = (j.saturated || decide (maxCharge < j.material + sharesFor l n))
      ∧ y.overQuote = (j.overQuote || decide (on = true ∧ n ∈ l.map Prod.fst
        ∧ ∃ k, j.limit = some k ∧ k ≤ y.material + y.saw + y.wear + y.water))
      ∧ jobCore y = jobCore j := by
  intro y
  have hsum := sharesFor_eq (n := n) hl
  cases hf : l.find? (fun y => decide (y.1 = n)) with
  | some z =>
    have hy : y = charged on .material z.2.2 j := shared_found hf
    have hshare : sharesFor l n = z.2.2 := by rw [hsum, hf]; rfl
    have hin : n ∈ l.map Prod.fst := mem_shares_iff.2 ⟨z, hf⟩
    obtain ⟨h1, h2, h3, h4, h5, h6⟩ := charged_material on z.2.2 j
    rw [hshare, hy]
    refine ⟨h1, h2, h3, h4, h5, h6.trans ?_, jobCore_charged on .material z.2.2 j⟩
    congr 1
    exact decide_eq_decide.2 (and_congr_right (fun _ => (and_iff_right hin).symm))
  | none =>
    have hy : y = j := shared_none hf
    have hshare : sharesFor l n = 0 := by rw [hsum, hf]; rfl
    have hout : n ∉ l.map Prod.fst := fun h => by
      obtain ⟨z, hz⟩ := mem_shares_iff.1 h
      rw [hf] at hz
      cases hz
    rw [hshare, hy]
    refine ⟨(min_eq_right hj).symm, rfl, rfl, rfl, ?_, ?_, rfl⟩
    · rw [Nat.add_zero, decide_eq_false (Nat.not_lt.2 hj), Bool.or_false]
    · have hno : ¬ (on = true ∧ n ∈ l.map Prod.fst
          ∧ ∃ k, j.limit = some k ∧ k ≤ j.material + j.saw + j.wear + j.water) := fun h => hout h.2.1
      rw [decide_eq_false hno, Bool.or_false]

theorem sharesOf_nodup (e : Ending) (residue : Nat) (ps : List Placement) : ((sharesOf e residue ps).map Prod.fst).Nodup := by
  cases e with
  | finished =>
    show ((residueShares residue ps).map Prod.fst).Nodup
    rw [residueShares_fst]
    exact nodup_distinct _
  | scrap => exact List.nodup_nil
  | brk => exact List.nodup_nil

/-- A job's record when a slab is settled, before the closings. -/
def settledJob (on : Bool) (l : List (Nat × Nat × Nat)) (ps : List Placement) (j : Job) : Job :=
  loweredBy ps (shared on l j.id j)

theorem accountsSettled_withAccounts (t v : State) : accountsSettled c s e x (withAccounts t v)
    = withAccounts t (accountsSettled c s e x v) := by
  unfold accountsSettled
  rw [chargeShares_withAccounts, addLoss_withAccounts, lowerUnsettled_withAccounts, notify_withAccounts]

theorem job?_accountsSettled (hj : v.job? n = some j) : (accountsSettled c s e x v).job? n
    = some (settledJob v.groups.quote (settledAs s e x).shares (cutPiecesOn s x.id) j) := by
  have hid : j.id = n := job?_id hj
  have hshared := job?_chargeShares (c := c) (slab := x.id) (sharesOf_nodup e (residueOf s x) (cutPiecesOn s x.id)) hj
  unfold accountsSettled
  rw [lowerUnsettled_eq]
  show findBy Job.id n ((v.chargeShares c x.id (settledAs s e x).shares).jobs.map (loweredBy (cutPiecesOn s x.id))) = _
  rw [findBy_map (f := loweredBy (cutPiecesOn s x.id)) (fun _ => rfl)]
  show ((v.chargeShares c x.id (settledAs s e x).shares).job? n).map _ = _
  rw [show (v.chargeShares c x.id (settledAs s e x).shares).job? n = _ from hshared, ← hid]
  rfl

theorem job?_accountsSettled_none (hj : v.job? n = none) : (accountsSettled c s e x v).job? n = none := by
  unfold accountsSettled
  rw [lowerUnsettled_eq]
  show findBy Job.id n ((v.chargeShares c x.id (settledAs s e x).shares).jobs.map (loweredBy (cutPiecesOn s x.id))) = _
  rw [findBy_map (f := loweredBy (cutPiecesOn s x.id)) (fun _ => rfl)]
  show ((v.chargeShares c x.id (settledAs s e x).shares).job? n).map _ = _
  rw [job?_chargeShares_none hj]
  rfl

end

end Sys2Proof.Proofs
end

