-- ==== Sys2Proof/Proofs/SettledSlabs.lean ====
section
/-! SUPPORT. What the settlement of a SLAB DONE leaves, table by table (R124 to R132), and the jobs it closes. Settles O55. -/

namespace Sys2Proof.Proofs

open Sys2Proof Sys2Proof.Config Sys2Proof.Machine

/-! ## The accounts -/

section
variable {s v : State} {c : Cause} {e : Ending} {x z : Slab} {p : Placement} {n r : Nat} {j : Job}

/-- The accounts of a settlement: the shares charged, then the loss, the counts and the notice. -/
theorem accountsSettled_eq (v : State) : accountsSettled c s e x v
    = { v.chargeShares c x.id (settledAs s e x).shares with
        jobs := (v.chargeShares c x.id (settledAs s e x).shares).jobs.map (loweredBy (cutPiecesOn s x.id))
        shop := { (v.chargeShares c x.id (settledAs s e x).shares).shop with
          loss := satAdd max63 v.shop.loss (settledAs s e x).loss }
        outbox := (v.chargeShares c x.id (settledAs s e x).shares).outbox ++ [.notice (settledAs s e x).notice] } := by
  have hloss : (v.chargeShares c x.id (settledAs s e x).shares).shop.loss = v.shop.loss :=
    (congrArg (fun t : State => t.shop.loss)
      (chargeShares_exceptCharges (s := v) (c := c) (slab := x.id) (l := (settledAs s e x).shares)) :)
  unfold accountsSettled
  rw [lowerUnsettled_eq, ← hloss]
  rfl

theorem accountsSettled_plain (v : State) : (accountsSettled c s e x v).closeCounter = v.closeCounter
    ∧ (accountsSettled c s e x v).bills = v.bills ∧ (accountsSettled c s e x v).groups = v.groups := by
  have h := chargeShares_exceptCharges (s := v) (c := c) (slab := x.id) (l := (settledAs s e x).shares)
  rw [accountsSettled_eq]
  exact ⟨(congrArg State.closeCounter h :), (congrArg State.bills h :), (congrArg State.groups h :)⟩

/-- The jobs of the pieces that the settlement leaves ready to close (R141). -/
theorem settledJob_ready (on : Bool) (l : List (Nat × Nat × Nat)) (ps : List Placement) (j : Job) :
    readyToClose (settledJob on l ps j) = true
      ↔ j.state = .closing ∧ j.openOrders = 0 ∧ j.unsettled ≤ ps.countP (fun p => decide (p.job = some j.id)) := by
  have hcore : jobCore (shared on l j.id j) = jobCore j := by
    unfold shared
    split
    · exact jobCore_charged on .material _ j
    · rfl
  have hstate : (shared on l j.id j).state = j.state := (congrArg Job.state hcore :)
  have hopen : (shared on l j.id j).openOrders = j.openOrders := (congrArg Job.openOrders hcore :)
  have hcount : (shared on l j.id j).unsettled = j.unsettled := (congrArg Job.unsettled hcore :)
  have hid : (shared on l j.id j).id = j.id := (congrArg Job.id hcore :)
  rw [readyToClose_iff]
  show (shared on l j.id j).state = _ ∧ (shared on l j.id j).openOrders = 0
    ∧ (shared on l j.id j).unsettled - ps.countP (fun p => decide (p.job = some (shared on l j.id j).id)) = 0 ↔ _
  rw [hstate, hopen, hcount, hid, Nat.sub_eq_zero_iff_le]

/-! ## The stock -/

/-- Each remnant of the slab names a record of its own, none the slab itself. -/
abbrev OwnRecords (s : State) (slab : Nat) : Prop :=
  ∀ p ∈ s.placements, p.slab = slab → p.kind = .remnant → ∀ r ∈ p.remnantSlab, r ≠ slab
    ∧ ∀ q ∈ s.placements, q.slab = slab → q.remnantSlab = some r → q = p

theorem recordsApart_of_own (hl : PlacementsLegal s.placements) (h : OwnRecords s x.id) :
    RecordsApart x (s.placementsOf x.id) := by
  refine ⟨fun p hp hk hr => ?_, ?_⟩
  · obtain ⟨hp, hs⟩ := mem_placementsOf.1 hp
    exact (h p hp hs hk x.id hr).1 rfl
  · have hne : (s.placementsOf x.id).Pairwise (fun p q => p ≠ q) := (placements_nodup hl).filter _
    refine hne.imp_of_mem (fun {p q} hp hq hpq hk _ hsome hsame => ?_)
    obtain ⟨hp, hps⟩ := mem_placementsOf.1 hp
    obtain ⟨hq, hqs⟩ := mem_placementsOf.1 hq
    obtain ⟨r, hr⟩ := Option.ne_none_iff_exists'.1 hsome
    exact hpq ((h p hp hps hk r hr).2 q hq hqs (hsame.symm.trans hr)).symm

theorem mem_cutRemnants : p ∈ cutRemnants s n
    ↔ p ∈ s.placements ∧ p.slab = n ∧ p.kind = .remnant ∧ p.state = .cut ∧ p.remnantSlab ≠ none := by
  unfold cutRemnants
  rw [List.mem_filter, decide_eq_true_iff]

/-- A CUT remnant is the one among them that names its record. -/
theorem find?_cutRemnants (h : OwnRecords s n) (hp : p ∈ cutRemnants s n) (hr : p.remnantSlab = some r) :
    (cutRemnants s n).find? (fun q => decide (q.remnantSlab = some r)) = some p := by
  obtain ⟨q, hq⟩ : ∃ q, (cutRemnants s n).find? (fun q => decide (q.remnantSlab = some r)) = some q := by
    rw [← Option.isSome_iff_exists, List.find?_isSome]
    exact ⟨p, hp, decide_eq_true hr⟩
  have hqr : q.remnantSlab = some r := of_decide_eq_true (List.find?_some hq :)
  obtain ⟨hqs, hqslab, -⟩ := mem_cutRemnants.1 (List.mem_of_find?_eq_some hq)
  obtain ⟨hps, hpslab, hk, -⟩ := mem_cutRemnants.1 hp
  rw [hq, (h p hps hpslab hk r hr).2 q hqs hqslab hqr]

/-- The settled slab's own record. -/
theorem settledSlab_self (hsum : x.allocated + basisShares x (cutRemnants s x.id) ≤ x.basis) :
    settledSlab s e x x = { x with allocated := x.basis, state := e.state } := by
  have hall : x.allocated + basisShares x (cutRemnants s x.id) + residueOf s x = x.basis := Nat.add_sub_cancel' hsum
  unfold settledSlab
  rw [if_pos rfl, hall]

theorem settledSlab_id (s : State) (e : Ending) (x y : Slab) : (settledSlab s e x y).id = y.id := by
  unfold settledSlab
  split
  · rfl
  · exact entered_id x _ y

theorem settledSlab_other (hz : z.id ≠ x.id) : settledSlab s e x z = entered x (cutRemnants s x.id) z := if_neg hz

/-- A record found before the settlement is found after it, if it is not freed. -/
theorem slab?_tablesSettled (hz : s.slab? r = some z) (hfree : ¬ RecordFreed s x.id z) :
    (tablesSettled s e x).slab? r = some (settledSlab s e x z) := by
  show findBy Slab.id r ((s.slabs.filter (fun z => decide (¬ RecordFreed s x.id z))).map (settledSlab s e x)) = _
  rw [findBy_map (settledSlab_id s e x)]
  have hkept : findBy Slab.id r (s.slabs.filter (fun z => decide (¬ RecordFreed s x.id z))) = some z :=
    find?_filter_of_found hz (decide_eq_true hfree)
  rw [hkept, Option.map_some]

/-- A remnant that is not CUT is PLANNED, where nothing is ORDERED. -/
theorem recordFreed_iff (hord : ∀ p ∈ s.placements, p.slab = n → p.state ≠ .ordered) : RecordFreed s n z
    ↔ ∃ p ∈ s.placements, p.slab = n ∧ p.kind = .remnant ∧ p.state ≠ .cut ∧ p.remnantSlab = some z.id := by
  constructor
  · rintro ⟨p, hp, hs, hk, hst, hr⟩
    exact ⟨p, hp, hs, hk, by rw [hst]; decide, hr⟩
  · rintro ⟨p, hp, hs, hk, hst, hr⟩
    refine ⟨p, hp, hs, hk, ?_, hr⟩
    cases h : p.state with
    | planned => rfl
    | ordered => exact absurd h (hord p hp hs)
    | cut => exact absurd h hst

/-- What entered stock, as the ANSWER lists it. -/
theorem flatMap_enteredPairs {T : List Placement} (h : ∀ p ∈ T, p.remnantSlab ≠ none) :
    (enteredPairs x T).flatMap (fun y => u32 y.1 ++ u32 y.2)
      = T.flatMap (fun p => p.remnantSlab.toList.flatMap u32 ++ u32 (basisShare x p)) := by
  induction T with
  | nil => rfl
  | cons p T ih =>
    obtain ⟨r, hr⟩ := Option.ne_none_iff_exists'.1 (h p List.mem_cons_self)
    have ih := ih (fun q hq => h q (List.mem_cons_of_mem _ hq))
    unfold enteredPairs at ih ⊢
    simp [hr, ih]

theorem length_enteredPairs {T : List Placement} (h : ∀ p ∈ T, p.remnantSlab ≠ none) : (enteredPairs x T).length = T.length := by
  induction T with
  | nil => rfl
  | cons p T ih =>
    obtain ⟨r, hr⟩ := Option.ne_none_iff_exists'.1 (h p List.mem_cons_self)
    have ih := ih (fun q hq => h q (List.mem_cons_of_mem _ hq))
    unfold enteredPairs at ih ⊢
    rw [List.filterMap_cons, hr]
    exact congrArg Nat.succ ih

end

/-! ## SLAB DONE settled (R122 to R132) -/

section
variable {s u : State} {c : Cause} {e : Ending} {x z : Slab} {p : Placement} {n r : Nat} {j : Job}

/-- The two endings of SLAB DONE. -/
def doneEnding (scrap : Bool) : Ending := if scrap then .scrap else .finished

/-- The tables and accounts of a settlement, before the closings. -/
def settledState (c : Cause) (s : State) (e : Ending) (x : Slab) : State :=
  withAccounts (tablesSettled s e x) (accountsSettled c s e x s)

/-- The jobs that a settlement closes. -/
def closedBy (c : Cause) (s : State) (e : Ending) (x : Slab) : List Nat :=
  readyAmong (settledState c s e x) (participants (cutPiecesOn s x.id))

/-- A settlement and its closings. -/
theorem slabDone_closed (h : Settleable s x) (h0 : x.id ≠ 0) (hc : doneCheck s e x = none) (hmax : s.closeCounter ≤ max32)
    (src : Nat) : slabDone src e x.id s = (.answer (settledAs s e x).bytes,
      closedAll (settledState ⟨src, Kind.slabDone⟩ s e x) (closedBy ⟨src, Kind.slabDone⟩ s e x)) := by
  have hcounter : (settledState ⟨src, Kind.slabDone⟩ s e x).closeCounter ≤ max32 := by
    show (accountsSettled ⟨src, Kind.slabDone⟩ s e x s).closeCounter ≤ max32
    rw [(accountsSettled_plain s).1]
    exact hmax
  have hpieces : (settledState ⟨src, Kind.slabDone⟩ s e x).cutPieces x.id = cutPiecesOn s x.id :=
    (placementsOf_cleared (settledState ⟨src, Kind.slabDone⟩ s e x) rfl).2
  rw [slabDone_settled h0 h.found hc, settle_eq h]
  show (_, (settledState ⟨src, Kind.slabDone⟩ s e x).closeParticipants
    ((settledState ⟨src, Kind.slabDone⟩ s e x).cutPieces x.id)) = _
  rw [hpieces]
  unfold State.closeParticipants
  rw [foldl_closeIfReady (ids := participants (cutPiecesOn s x.id)) hcounter (nodup_distinct _)]
  rfl

theorem settledState_job (c : Cause) (hj : s.job? n = some j) : (settledState c s e x).job? n
    = some (settledJob s.groups.quote (settledAs s e x).shares (cutPiecesOn s x.id) j) := job?_accountsSettled hj

theorem settledState_job_none (c : Cause) (hj : s.job? n = none) : (settledState c s e x).job? n = none :=
  job?_accountsSettled_none hj

/-- The jobs closed, by their records before the settlement. -/
theorem closedBy_eq : closedBy c s e x = (participants (cutPiecesOn s x.id)).filter (fun n => (s.job? n).any (fun j =>
    decide (j.state = .closing ∧ j.openOrders = 0
      ∧ j.unsettled ≤ (cutPiecesOn s x.id).countP (fun p => decide (p.job = some n))))) := by
  refine List.filter_congr (fun n _ => ?_)
  cases hj : s.job? n with
  | none => rw [settledState_job_none c hj]; rfl
  | some j =>
    rw [settledState_job c hj, Option.any_some, Option.any_some, Bool.eq_iff_iff, settledJob_ready, decide_eq_true_iff,
      job?_id hj]

/-- What a job's record is when the slab is settled and the jobs closed. -/
theorem job?_closed (hj : s.job? n = some j) (c : Cause) (R : List Nat) : (closedAll (settledState c s e x) R).job? n
    = some (closedAs s.closeCounter R (settledJob s.groups.quote (settledAs s e x).shares (cutPiecesOn s x.id) j)) := by
  have hcounter : (settledState c s e x).closeCounter = s.closeCounter := (accountsSettled_plain s).1
  show findBy Job.id n ((settledState c s e x).jobs.map (closedAs (settledState c s e x).closeCounter R)) = _
  rw [findBy_map (closedAs_id _ R)]
  show ((settledState c s e x).job? n).map _ = _
  rw [settledState_job c hj, hcounter, Option.map_some]

theorem participants_nil_iff {ps : List Placement} : participants ps = [] ↔ ps.filterMap Placement.job = [] := by
  unfold participants
  cases ps.filterMap Placement.job with
  | nil => exact Iff.rfl
  | cons n l => rw [distinct_cons]; simp

/-- Shares are charged where SLAB DONE finds a piece with a job. -/
theorem doneShares_nil_iff {scrap : Bool} {residue : Nat} {ps : List Placement} :
    sharesOf (doneEnding scrap) residue ps = [] ↔ scrap = true ∨ participants ps = [] := by
  cases scrap with
  | true => exact ⟨fun _ => .inl rfl, fun _ => rfl⟩
  | false =>
    have hlen := length_residueShares residue ps
    show residueShares residue ps = [] ↔ _
    rw [← List.length_eq_zero_iff, hlen, List.length_eq_zero_iff]
    simp

theorem sharesOf_done (scrap : Bool) (residue : Nat) (ps : List Placement) :
    sharesOf (doneEnding scrap) residue ps = if scrap then [] else residueShares residue ps := by
  cases scrap <;> rfl

/-- The jobs that take a share of a SLAB DONE. -/
theorem mem_doneShares {scrap : Bool} {residue : Nat} {ps : List Placement} :
    n ∈ (sharesOf (doneEnding scrap) residue ps).map Prod.fst ↔ scrap = false ∧ n ∈ participants ps := by
  cases scrap with
  | true => simp [doneEnding, sharesOf]
  | false =>
    show n ∈ (residueShares residue ps).map Prod.fst ↔ _
    rw [residueShares_fst]
    exact (and_iff_right rfl).symm

/-- A job's charges, marks, counts and state after SLAB DONE (R130, R131, R141). -/
theorem closedAs_settledJob {on : Bool} {l : List (Nat × Nat × Nat)} {ps : List Placement} {R : List Nat} {k : Nat}
    (hl : (l.map Prod.fst).Nodup) (hm : j.material ≤ maxCharge) : let y := closedAs k R (settledJob on l ps j)
    y.material = min maxCharge (j.material + sharesFor l j.id)
      ∧ y.unsettled = j.unsettled - ps.countP (fun p => decide (p.job = some j.id))
      ∧ y.openOrders = j.openOrders ∧ y.saw = j.saw ∧ y.wear = j.wear ∧ y.water = j.water
      ∧ y.saturated = (j.saturated || decide (maxCharge < j.material + sharesFor l j.id))
      ∧ y.overQuote = (j.overQuote || decide (on = true ∧ j.id ∈ l.map Prod.fst
        ∧ ∃ q, j.limit = some q ∧ q ≤ y.material + j.saw + j.wear + j.water))
      ∧ (j.id ∈ R → y.state = .closed ∧ y.closeNumber = some (closeNumberAt k (R.idxOf j.id)))
      ∧ (j.id ∉ R → y.state = j.state ∧ y.closeNumber = j.closeNumber) := by
  intro y
  obtain ⟨hmat, hsaw, hwear, hwater, hsat, hover, hcore⟩ := shared_eq (on := on) (n := j.id) hl hm
  have hid : (shared on l j.id j).id = j.id := (congrArg Job.id hcore :)
  have hcount : (shared on l j.id j).unsettled = j.unsettled := (congrArg Job.unsettled hcore :)
  have hlowered : (settledJob on l ps j).unsettled = j.unsettled - ps.countP (fun p => decide (p.job = some j.id)) := by
    show (shared on l j.id j).unsettled - ps.countP (fun p => decide (p.job = some (shared on l j.id j).id)) = _
    rw [hcount, hid]
  rw [hsaw, hwear, hwater] at hover
  have hid' : (settledJob on l ps j).id = j.id := hid
  by_cases hR : j.id ∈ R
  · have hy : y = { settledJob on l ps j with
        state := .closed, closeNumber := some (closeNumberAt k (R.idxOf (settledJob on l ps j).id)) } :=
      if_pos (by rw [hid']; exact hR)
    rw [hid'] at hy
    rw [hy]
    exact ⟨hmat, hlowered, (congrArg Job.openOrders hcore :), hsaw, hwear, hwater, hsat, hover, fun _ => ⟨rfl, rfl⟩,
      fun h => absurd hR h⟩
  · have hy : y = settledJob on l ps j := if_neg (by rw [hid']; exact hR)
    rw [hy]
    exact ⟨hmat, hlowered, (congrArg Job.openOrders hcore :), hsaw, hwear, hwater, hsat, hover, fun h => absurd h hR,
      fun _ => ⟨(congrArg Job.state hcore :), (congrArg Job.closeNumber hcore :)⟩⟩

theorem notifiedParticipants_eq {scrap : Bool} : (settledAs s (doneEnding scrap) x).participants
    = if scrap = true ∨ participants (cutPiecesOn s x.id) = [] then none
      else some (participants (cutPiecesOn s x.id)).length := by
  by_cases h : scrap = true ∨ participants (cutPiecesOn s x.id) = []
  · rw [if_pos h]
    exact if_pos (List.isEmpty_iff.2 (doneShares_nil_iff.2 h))
  · have hscrap : scrap = false := Bool.eq_false_iff.2 (fun e => h (.inl e))
    have hlen : (settledAs s (doneEnding scrap) x).shares.length = (participants (cutPiecesOn s x.id)).length := by
      subst hscrap
      exact length_residueShares (residueOf s x) (cutPiecesOn s x.id)
    rw [if_neg h, ← hlen]
    exact if_neg (fun e => h (doneShares_nil_iff.1 (List.isEmpty_iff.1 e)))

theorem settledLoss_eq {scrap : Bool} : (settledAs s (doneEnding scrap) x).loss
    = if scrap = true ∨ participants (cutPiecesOn s x.id) = [] then residueOf s x else 0 :=
  if_congr (List.isEmpty_iff.trans doneShares_nil_iff) rfl rfl

/-- The ANSWER of a SLAB DONE (R132). -/
theorem settledAs_bytes : (settledAs s e x).bytes
    = u32 x.id ++ u8 (slabStateCode e.state) ++ u32 x.basis ++ amount (residueOf s x)
      ++ opt count (settledAs s e x).participants ++ count (cutRemnants s x.id).length
      ++ count (settledAs s e x).cleared.removed
      ++ (settledAs s e x).shares.flatMap (fun y => u32 y.1 ++ amount y.2.1 ++ amount y.2.2)
      ++ (cutRemnants s x.id).flatMap (fun p => p.remnantSlab.toList.flatMap u32 ++ u32 (basisShare x p))
      ++ amount (settledAs s e x).loss ++ count (settledAs s e x).cleared.freed := by
  have hnamed : ∀ p ∈ cutRemnants s x.id, p.remnantSlab ≠ none := fun p hp => (mem_cutRemnants.1 hp).2.2.2.2
  rw [← flatMap_enteredPairs hnamed, ← length_enteredPairs (x := x) hnamed]
  rfl

/-- The records freed, as they are counted in the ANSWER. -/
theorem countP_planned (hord : ∀ p ∈ s.placements, p.slab = n → p.state ≠ .ordered) :
    s.placements.countP (fun p => decide (p.slab = n ∧ p.kind = .remnant ∧ p.state = .planned))
      = (s.placements.filter (fun p => decide (p.slab = n ∧ p.kind = .remnant))).countP (fun p => decide (p.state ≠ .cut)) := by
  rw [List.countP_filter]
  refine List.countP_congr (fun p hp => ?_)
  rw [← Bool.decide_and, decide_eq_true_iff, decide_eq_true_iff]
  refine ⟨fun ⟨hs, hk, hp⟩ => ⟨by rw [hp]; decide, hs, hk⟩, fun ⟨hc, hs, hk⟩ => ⟨hs, hk, ?_⟩⟩
  cases hps : p.state with
  | planned => rfl
  | ordered => exact absurd hps (hord p hp hs)
  | cut => exact absurd hps hc

theorem record_kept_iff (hord : ∀ p ∈ s.placements, p.slab = n → p.state ≠ .ordered) : ¬ RecordFreed s n z
    ↔ ∀ p ∈ s.placements.filter (fun p => decide (p.slab = n ∧ p.kind = .remnant)), p.state ≠ .cut → p.remnantSlab ≠ some z.id := by
  rw [recordFreed_iff hord]
  constructor
  · intro hno p hp hc hr
    obtain ⟨hp, hk⟩ := List.mem_filter.1 hp
    obtain ⟨hs, hk⟩ := of_decide_eq_true hk
    exact hno ⟨p, hp, hs, hk, hc, hr⟩
  · rintro hall ⟨p, hp, hs, hk, hc, hr⟩
    exact hall p (List.mem_filter.2 ⟨hp, decide_eq_true ⟨hs, hk⟩⟩) hc hr

end

/-- Settles O55: the refusals in their order; then one change of the tables, one chain of accounts, and the jobs that these
leave ready closed in turn. -/
theorem slabDoneSettlesTheSlab : Obligations.SlabDoneSettlesTheSlab := by
  unfold Obligations.SlabDoneSettlesTheSlab
  refine ⟨?_, ?_⟩
  · intro h copy slab scrap s i hp u refused
    have hrun : exec i s = .next (runRow i h (slabDone h.src (doneEnding scrap) slab) s) := by cases scrap <;> rfl
    have hgo {r : Reply} (hb : slabDone h.src (doneEnding scrap) slab u = (r, u)) : exec i s = .next (finish i h copy r u) :=
      exec_of_block hrun hp hb
    have horders : u.orders = s.orders := orders_restartSilence h.src s
    refine ⟨fun h0 => hgo (h0 ▸ slabDone_zero), fun h0 hx => hgo (slabDone_noSlab h0 hx), fun x h0 hx => ?_⟩
    have hid : x.id = slab := (findBy_some _ hx).2
    refine ⟨fun hst => hgo (slabDone_refused h0 hx (doneCheck_state hst)), fun a w o hl ho hst hw hfind => ?_,
      fun hst hnone hscrap hcut => ?_⟩
    · obtain ⟨hold, hsaw⟩ := find?_orders hl.1.stations ho hw hfind
      have hflight : flightCheck u x.id = some (.inFlight, u8 o.saw ++ u8 (orderStateCode o.state)) :=
        flightCheck_some (by rw [horders, hid]; exact hold)
      rw [hsaw] at hflight
      exact hgo (slabDone_refused h0 hx ((doneCheck_stock hst).trans (by rw [hflight]; rfl)))
    · have hflight : flightCheck u x.id = none := flightCheck_none (by rw [horders, hid]; exact hnone)
      have hno : (u.placementsOf x.id).any (fun p => decide (p.state = .cut)) = false :=
        List.any_eq_false.2 (fun p hp' hc => by
          obtain ⟨hp', hs⟩ := mem_placementsOf.1 hp'
          exact hcut p hp' (hs.trans hid) (of_decide_eq_true hc))
      refine hgo (slabDone_refused h0 hx ((doneCheck_stock hst).trans ?_))
      rw [hflight, hno, hscrap]
      rfl
  · intro h copy slab scrap x s i hb hp h0 hx hst hnone hord hown hcut cutOf basisOf entered pieces hsum residue lost shareOf
      jobs fallen closing number shares charges remnants taken ending participants'
    obtain rfl : x.id = slab := (findBy_some _ hx).2
    have hrun : exec i s = .next (runRow i h (slabDone h.src (doneEnding scrap) x.id) s) := by cases scrap <;> rfl
    let u := s.restartSilence h.src
    let c : Cause := ⟨h.src, Kind.slabDone⟩
    let e := doneEnding scrap
    let R := closedBy c u e x
    have hset : Settleable u x := ⟨hb.placements, hx, hord, recordsApart_of_own hb.placements hown⟩
    have horders : u.orders = s.orders := orders_restartSilence h.src s
    have hcheck : doneCheck u e x = none := by
      have hflight : flightCheck u x.id = none := flightCheck_none (by rw [horders]; exact hnone)
      have hany : (decide (e ≠ .finished) || (u.placementsOf x.id).any (fun p => decide (p.state = .cut))) = true := by
        cases scrap with
        | true => rfl
        | false =>
          obtain ⟨p, hpm, hps, hpc⟩ := hcut rfl
          exact Bool.or_eq_true_iff.2 (.inr (List.any_eq_true.2 ⟨p, mem_placementsOf.2 ⟨hpm, hps⟩, decide_eq_true hpc⟩))
      rw [doneCheck_stock hst, hflight, hany]
      rfl
    obtain ⟨-, -, -, hremoved, hfreed⟩ := clearPlan_done (s := u) (slab := x.id) hb.placements hord
    have hpieces : pieces = cutPiecesOn u x.id := List.filter_congr (fun p _ => decide_eq_decide.2
      ⟨fun ⟨⟨hs, hc⟩, hk⟩ => ⟨hs, hk, hc⟩, fun ⟨hs, hk, hc⟩ => ⟨⟨hs, hc⟩, hk⟩⟩)
    have hremnants : s.placements.filter (fun p => decide (cutOf p ∧ p.kind = .remnant ∧ p.remnantSlab ≠ none))
        = cutRemnants u x.id := List.filter_congr (fun p _ => decide_eq_decide.2
      ⟨fun ⟨⟨hs, hc⟩, hk, hn⟩ => ⟨hs, hk, hc, hn⟩, fun ⟨hs, hk, hc, hn⟩ => ⟨⟨hs, hc⟩, hk, hn⟩⟩)
    have htaken : taken = cutRemnants u x.id := by
      show (s.placements.filter _).filter _ = s.placements.filter _
      rw [List.filter_filter]
      refine List.filter_congr (fun p _ => ?_)
      rw [← Bool.decide_and, decide_eq_decide]
      exact ⟨fun ⟨⟨hc, hn⟩, hs, hk⟩ => ⟨hs, hk, hc, hn⟩, fun ⟨hs, hk, hc, hn⟩ => ⟨⟨hc, hn⟩, hs, hk⟩⟩
    have hentered : entered = basisShares x (cutRemnants u x.id) := by rw [← hremnants]; rfl
    have hresidue : residue = residueOf u x := by
      show x.basis - (x.allocated + entered) = _
      rw [hentered]
      rfl
    have hjobs : jobs = participants (cutPiecesOn u x.id) := by rw [← hpieces]; exact (participants_eq _).symm
    have hlost : lost = (settledAs u e x).loss := by
      rw [settledLoss_eq, ← hresidue, ← hpieces]
      exact if_congr (or_congr Iff.rfl participants_nil_iff.symm) rfl rfl
    have hshares : shares = (settledAs u e x).shares := by
      show (if scrap then [] else residueShares residue pieces) = sharesOf e (residueOf u x) (cutPiecesOn u x.id)
      rw [sharesOf_done, ← hresidue, ← hpieces]
    have hshareOf (n : Nat) : shareOf n = sharesFor (settledAs u e x).shares n := by
      rw [← hshares]
      show (if scrap then 0 else _) = sharesFor (if scrap then [] else residueShares residue pieces) n
      cases scrap <;> rfl
    have hparts : participants' = (settledAs u e x).participants := by
      rw [notifiedParticipants_eq, ← hjobs]
    have hending : ending = e.state := by
      show (if scrap then _ else _) = (doneEnding scrap).state
      cases scrap <;> rfl
    have hclosing : closing = R := by
      show jobs.filter _ = closedBy c u e x
      rw [closedBy_eq, hjobs]
      refine List.filter_congr (fun n _ => ?_)
      show _ = (s.job? n).any _
      rw [← hpieces]
    have hnumber (n : Nat) : number n = closeNumberAt s.closeCounter (R.idxOf n) := by
      rw [← hclosing]
      rfl
    have haccounts : accountsSettled c u e x u = withAccounts u (accountsSettled c u e x s) :=
      accountsSettled_withAccounts (s := u) u s
    have hcharges : charges = s.chargeShares c x.id (settledAs u e x).shares := by
      rw [← hshares]
      rfl
    have hchain := accountsSettled_eq (s := u) (c := c) (e := e) (x := x) s
    rw [← hcharges, ← hlost] at hchain
    obtain ⟨hcounter, hbills, -⟩ := accountsSettled_plain (s := u) (c := c) (e := e) (x := x) s
    let t := closedAll (settledState c u e x) R
    have hcleared : (settledAs u e x).cleared.removed = s.placements.length - t.placements.length := by
      have hlen : (u.clearPlan x.id).2.placements = t.placements := (clearPlan_done (s := u) hb.placements hord).2.1
      rw [hlen] at hremoved
      exact (Nat.sub_eq_of_eq_add hremoved.symm).symm
    have hfreedCount : (settledAs u e x).cleared.freed = remnants.countP (fun p => decide (p.state ≠ .cut)) :=
      hfreed.trans (countP_planned (s := u) hord)
    have hkeep {z : Slab} : ¬ RecordFreed u x.id z ↔ ∀ p ∈ remnants, p.state ≠ .cut → p.remnantSlab ≠ some z.id :=
      record_kept_iff (s := u) hord
    have hstays : ¬ RecordFreed u x.id x := by
      rintro ⟨p, hp, hs, hk, -, hr⟩
      exact (hown p hp hs hk x.id hr).1 rfl
    have hself : settledSlab u e x x = { x with allocated := x.basis, state := e.state } :=
      settledSlab_self (by rw [← hentered]; exact hsum)
    have htables : t.outbox = charges.outbox ++ [.notice (settledAs u e x).notice] ++ billsReady s.closeCounter R := by
      show (accountsSettled c u e x u).outbox ++ billsReady (accountsSettled c u e x u).closeCounter R = _
      rw [haccounts]
      show (accountsSettled c u e x s).outbox ++ billsReady (accountsSettled c u e x s).closeCounter R = _
      rw [hcounter, hchain]
    refine ⟨(settledAs u e x).bytes, t, ?_, ?_, ?_, ?_, ?_, ?_, ?_, ?_, ?_, ?_, ?_, ?_, ?_, ?_, rfl, rfl, rfl⟩
    · exact exec_of_block hrun hp (slabDone_closed hset h0 hcheck hb.closeCounter h.src)
    · rw [hending, hresidue, hparts, ← hcleared, hshares, htaken, hlost, ← hfreedCount]
      exact settledAs_bytes
    · show (u.slabs.filter (fun z => decide (¬ RecordFreed u x.id z))).map (settledSlab u e x) = _
      rw [List.filter_congr (fun z _ => decide_eq_decide.2 hkeep)]
      refine List.map_congr_left (fun y hy => ?_)
      by_cases hyx : y.id = x.id
      · obtain rfl : y = x := rising_unique Slab.id hb.slabs.1 (List.mem_filter.1 hy).1 (findBy_some _ hx).1 hyx
        rw [if_pos rfl, hself, hending]
      · rw [if_neg hyx, settledSlab_other hyx, htaken]
        unfold Proofs.entered
        rw [if_neg hyx]
        rfl
    · have hfound := slab?_tablesSettled (e := e) (r := x.id) (s := u) hx hstays
      rw [hself, ← hending] at hfound
      exact hfound
    · intro p
      refine List.mem_filter.trans (and_congr_right (fun _ => decide_eq_true_iff.trans ?_))
      refine forall_congr' (fun _ => and_congr_right (fun _ => not_congr (and_congr_right (fun _ => ?_))))
      exact exists_congr (fun q => and_congr_right (fun _ => by rw [and_assoc, and_assoc]))
    · intro p hpm hc hk r hz hr hfound
      have hzid : hz.id = r := (findBy_some _ hfound).2
      have hne : hz.id ≠ x.id := by rw [hzid]; exact (hown p hpm hc.1 hk r hr).1
      have hfree : ¬ RecordFreed u x.id hz := by
        rintro ⟨q, hq, hqs, -, hqp, hqr⟩
        rw [(hown p hpm hc.1 hk r hr).2 q hq hqs (hqr.trans (congrArg some hzid)), hc.2] at hqp
        cases hqp
      have hmem : p ∈ cutRemnants u x.id := mem_cutRemnants.2 ⟨hpm, hc.1, hk, hc.2, by rw [hr]; simp⟩
      have hthis := find?_cutRemnants (s := u) hown hmem (hr.trans (congrArg some hzid.symm))
      refine (slab?_tablesSettled (s := u) (e := e) hfound hfree).trans ?_
      rw [settledSlab_other hne, entered_found hne hthis]
      rfl
    · show (accountsSettled c u e x u).shop.loss = _
      rw [haccounts]
      show (accountsSettled c u e x s).shop.loss = _
      rw [hchain]
      rfl
    · intro n j hj
      have hid : j.id = n := job?_id hj
      obtain rfl := hid
      have hmax : j.material ≤ maxCharge := (hb.jobs.2.2.1 j (findBy_some _ hj).1).1
      obtain ⟨hmat, hcount, hopen, hsaw, hwear, hwater, hsat, hover, hin, hout⟩ := closedAs_settledJob (on := u.groups.quote)
        (ps := cutPiecesOn u x.id) (R := R) (k := u.closeCounter) (sharesOf_nodup e (residueOf u x) (cutPiecesOn u x.id)) hmax
      refine ⟨_, job?_closed (s := u) (e := e) (x := x) hj c R, ?_⟩
      rw [hclosing, hshareOf]
      refine ⟨hmat, ?_, hopen, hsaw, hwear, hwater, hsat, hover.trans ?_, fun hR => ?_, hout⟩
      · refine hcount.trans ?_
        show _ = j.unsettled - pieces.countP (fun p => decide (p.job = some j.id))
        rw [hpieces]
      · congr 1
        refine decide_eq_decide.2 (and_congr_right (fun _ => ?_))
        rw [hjobs, mem_doneShares, and_assoc]
        rfl
      · rw [hnumber]
        exact hin hR
    · show (accountsSettled c u e x u).shop = { charges.shop with loss := (accountsSettled c u e x u).shop.loss }
      rw [haccounts]
      show (accountsSettled c u e x s).shop = { charges.shop with loss := (accountsSettled c u e x s).shop.loss }
      rw [hchain]
    · show (accountsSettled c u e x u).faults = charges.faults
      rw [haccounts]
      show (accountsSettled c u e x s).faults = charges.faults
      rw [hchain]
    · show (accountsSettled c u e x u).bills ++ R = _
      rw [haccounts, hclosing]
      exact congrArg (· ++ R) hbills
    · show ((accountsSettled c u e x u).closeCounter + R.length) % 4294967296 = _
      rw [haccounts, hclosing]
      exact congrArg (fun k => (k + R.length) % 4294967296) hcounter
    · rw [htables, hending, hresidue, hparts, ← hcleared, htaken, hclosing]
      have hlen : (cutRemnants u x.id).length = (settledAs u e x).remnants.length :=
        (length_enteredPairs (x := x) (fun p hp => (mem_cutRemnants.1 hp).2.2.2.2)).symm
      rw [hlen]
      congr 1
      exact List.map_congr_left (fun n _ => by rw [hnumber])
    · rw [hcharges]
      exact chargeShares_outbox

end Sys2Proof.Proofs
end

