-- ==== Sys2Proof/Proofs/OrderLaw.lean ====
section
/-! SUPPORT. The law of the orders as one statement about the list of orders, the ORDERED placements, the slabs and the job
counts; and the calm changes of state, which leave everything alone that the laws of orders, slabs, plans and accounts
speak of. -/

namespace Sys2Proof.Proofs

open Sys2Proof Sys2Proof.Config Sys2Proof.Machine

/-! ## The law of the orders -/

/-- What the laws read of an order: the placement it names, its saw, job and kind. -/
def identity (o : CutOrder) : CutOrder :=
  { o with
    requestedFeed := 0, deliveredFeed := none, state := .waiting, sends := 0, recycled := 0, fresh := 0, number := 0,
    deliveredKerf := none }

/-- An ORDERED placement stands at the index. -/
abbrev OrderedAt (s : State) (slab index : Nat) : Prop :=
  ∃ p ∈ s.placements, p.slab = slab ∧ p.index = index ∧ p.state = .ordered

/-- The law of the orders but for the queues (R65, R68, R135). -/
structure Books (l : List CutOrder) (ordered : Nat → Nat → Prop) (slabs : List Slab) (jobs : List Job) : Prop where
  apart : l.Pairwise (fun a b => ¬ a.same b)
  oneSaw : ∀ a ∈ l, ∀ b ∈ l, a.slab = b.slab → a.saw = b.saw
  placed : ∀ slab index, ordered slab index ↔ ∃ o ∈ l, o.slab = slab ∧ o.index = index
  unsettled : ∀ x ∈ slabs, x.state.isSettled = true → ∀ o ∈ l, o.slab ≠ x.id
  named : ∀ o ∈ l, ∀ n ∈ o.job, ∃ j ∈ jobs, j.id = n
  counted : ∀ j ∈ jobs, j.openOrders = l.countP (fun o => decide (o.job = some j.id))
  closed : ∀ j ∈ jobs, j.state = .closed → j.openOrders = 0

section
variable {s t u : State} {l m : List CutOrder} {ordered ordered' : Nat → Nat → Prop} {slabs slabs' : List Slab}
  {jobs jobs' : List Job}

theorem orderly_iff : s.Orderly ↔ (∀ st ∈ s.stations, st.Orderly) ∧ Books s.orders (OrderedAt s) s.slabs s.jobs := by
  constructor
  · rintro ⟨hst, hapart, hone, hplaced, hordered, hsettled, hnamed, hcount⟩
    refine ⟨hst, hapart, hone, fun slab index => ⟨?_, ?_⟩, hsettled, hnamed, fun j hj => (hcount j hj).1, fun j hj => (hcount j hj).2⟩
    · rintro ⟨p, hp, rfl, rfl, hstate⟩
      exact hordered p hp hstate
    · rintro ⟨o, ho, rfl, rfl⟩
      exact hplaced o ho
  · rintro ⟨hst, h⟩
    exact ⟨hst, h.apart, h.oneSaw, fun o ho => (h.placed _ _).2 ⟨o, ho, rfl, rfl⟩,
      fun p hp hstate => (h.placed _ _).1 ⟨p, hp, rfl, rfl, hstate⟩, h.unsettled, h.named,
      fun j hj => ⟨h.counted j hj, h.closed j hj⟩⟩

theorem exists_mem_map_identity {slab index : Nat} : (∃ o ∈ l.map identity, o.slab = slab ∧ o.index = index)
    ↔ ∃ o ∈ l, o.slab = slab ∧ o.index = index := by
  simp only [List.mem_map, exists_exists_and_eq_and]
  rfl

theorem books_map_identity : Books (l.map identity) ordered slabs jobs ↔ Books l ordered slabs jobs := by
  constructor
  · intro h
    refine ⟨List.pairwise_map.1 h.apart, fun a ha b hb => ?_, fun slab index => (h.placed slab index).trans ?_,
      fun x hx hs o ho => ?_, fun o ho => ?_, fun j hj => (h.counted j hj).trans ?_, h.closed⟩
    · exact h.oneSaw (identity a) (List.mem_map_of_mem ha) (identity b) (List.mem_map_of_mem hb)
    · exact exists_mem_map_identity
    · exact h.unsettled x hx hs (identity o) (List.mem_map_of_mem ho)
    · exact h.named (identity o) (List.mem_map_of_mem ho)
    · exact List.countP_map
  · intro h
    refine ⟨List.pairwise_map.2 h.apart, List.forall_mem_map.2 (fun a ha => List.forall_mem_map.2 (fun b hb => h.oneSaw a ha b hb)),
      fun slab index => (h.placed slab index).trans ?_, fun x hx hs => List.forall_mem_map.2 (fun o ho => h.unsettled x hx hs o ho),
      List.forall_mem_map.2 (fun o ho => h.named o ho), fun j hj => (h.counted j hj).trans ?_, h.closed⟩
    · exact exists_mem_map_identity.symm
    · rw [List.countP_map]
      rfl

/-- The law reads nothing of the orders but their identity. -/
theorem Books.of_identity (h : Books l ordered slabs jobs) (hm : m.map identity = l.map identity) :
    Books m ordered slabs jobs := books_map_identity.1 (hm ▸ books_map_identity.2 h)

end

/-! ## Jobs alike -/

/-- A job's id and its two counts. -/
def jobCounts (j : Job) : Nat × Nat × Nat := (j.id, j.openOrders, j.unsettled)

/-- The same jobs with the same counts; one newly CLOSED has none. -/
structure JobsAlike (l m : List Job) : Prop where
  counts : m.map jobCounts = l.map jobCounts
  closed : ∀ y ∈ m, y.state = .closed →
    (∃ j ∈ l, jobCounts j = jobCounts y ∧ j.state = .closed) ∨ (y.openOrders = 0 ∧ y.unsettled = 0)

section
variable {l m n : List Job}

theorem JobsAlike.refl (l : List Job) : JobsAlike l l := ⟨rfl, fun y hy hc => .inl ⟨y, hy, rfl, hc⟩⟩

theorem JobsAlike.trans (h : JobsAlike l m) (k : JobsAlike m n) : JobsAlike l n := by
  refine ⟨k.counts.trans h.counts, fun y hy hc => ?_⟩
  rcases k.closed y hy hc with ⟨j, hj, hjy, hjc⟩ | hzero
  · rcases h.closed j hj hjc with ⟨i, hi, hij, hic⟩ | hzero
    · exact .inl ⟨i, hi, hij.trans hjy, hic⟩
    · refine .inr ?_
      have ho : j.openOrders = y.openOrders := (congrArg (fun z => z.2.1) hjy :)
      have hu : j.unsettled = y.unsettled := (congrArg (fun z => z.2.2) hjy :)
      exact ⟨ho ▸ hzero.1, hu ▸ hzero.2⟩
  · exact .inr hzero

theorem jobsAlike_of_core (h : m.map jobCore = l.map jobCore) : JobsAlike l m := by
  refine ⟨?_, fun y hy hc => .inl ?_⟩
  · have hcounts := congrArg (List.map jobCounts) h
    rw [List.map_map, List.map_map] at hcounts
    exact hcounts
  · have hmem : jobCore y ∈ l.map jobCore := h ▸ List.mem_map_of_mem hy
    obtain ⟨j, hj, hjy⟩ := List.mem_map.1 hmem
    have hcounts : jobCounts j = jobCounts y := (congrArg jobCounts hjy :)
    have hstate : j.state = y.state := (congrArg Job.state hjy :)
    exact ⟨j, hj, hcounts, hstate.trans hc⟩

/-- A change of one record that leaves its counts, and closes it only with none. -/
theorem jobsAlike_modifyBy {k : Nat} {f : Job → Job} (hf : ∀ j ∈ l, jobCounts (f j) = jobCounts j)
    (hc : ∀ j ∈ l, j.id = k → (f j).state = .closed → j.state = .closed ∨ (j.openOrders = 0 ∧ j.unsettled = 0)) :
    JobsAlike l (modifyBy Job.id k f l) := by
  refine ⟨?_, fun y hy hclosed => ?_⟩
  · unfold modifyBy
    rw [List.map_map]
    refine List.map_congr_left (fun j hj => ?_)
    rw [Function.comp_apply]
    split
    · exact hf j hj
    · rfl
  · obtain ⟨j, hj, rfl⟩ := List.mem_map.1 hy
    split at hclosed
    · rename_i hid
      rw [if_pos hid]
      have hcounts := hf j hj
      rcases hc j hj hid hclosed with hjc | hzero
      · exact .inl ⟨j, hj, hcounts.symm, hjc⟩
      · refine .inr ?_
        have ho : (f j).openOrders = j.openOrders := (congrArg (fun z => z.2.1) hcounts :)
        have hu : (f j).unsettled = j.unsettled := (congrArg (fun z => z.2.2) hcounts :)
        exact ⟨ho.trans hzero.1, hu.trans hzero.2⟩
    · rename_i hid
      rw [if_neg hid]
      exact .inl ⟨j, hj, rfl, hclosed⟩

end

/-! ## Calm changes -/

/-- A station's address and its saw's bed. -/
def bedAt (st : Station) : Nat × Option (Option Nat) := (st.address, st.saw.map Saw.bed)

/-- A saw at the address has the slab on its bed. -/
abbrev Bedded (s : State) (a n : Nat) : Prop :=
  ∃ st ∈ s.stations, st.address = a ∧ ∃ w, st.saw = some w ∧ w.bed = some n

/-- Placements, slabs, beds and the orders' identities stay, the jobs are alike, and the queues are in order. -/
structure Calm (s t : State) : Prop where
  placements : t.placements = s.placements
  slabs : t.slabs = s.slabs
  jobs : JobsAlike s.jobs t.jobs
  names : t.orders.map identity = s.orders.map identity
  beds : ∀ a n, Bedded t a n ↔ Bedded s a n
  stations : ∀ st ∈ t.stations, st.Orderly

/-- A change that keeps the bounds and is calm in an orderly state. -/
structure Easy (s t : State) : Prop where
  keeps : Keeps s t
  calm : s.Bounded → s.Orderly → Calm s t

section
variable {s t u : State}

theorem Calm.orderly (h : Calm s t) (ho : s.Orderly) : t.Orderly := by
  obtain ⟨-, hbooks⟩ := orderly_iff.1 ho
  obtain ⟨happart, hone, hplaced, hsettled, hnamed, hcounted, hclosed⟩ := hbooks.of_identity h.names
  refine orderly_iff.2 ⟨h.stations, happart, hone, fun slab index => ?_, ?_, fun o ho n hn => ?_, fun y hy => ?_, fun y hy hyc => ?_⟩
  · unfold OrderedAt
    rw [h.placements]
    exact hplaced slab index
  · rw [h.slabs]
    exact hsettled
  · obtain ⟨j, hj, hjn⟩ := hnamed o ho n hn
    have hmem : jobCounts j ∈ t.jobs.map jobCounts := h.jobs.counts ▸ List.mem_map_of_mem hj
    obtain ⟨y, hy, hyj⟩ := List.mem_map.1 hmem
    exact ⟨y, hy, ((congrArg Prod.fst hyj :) : y.id = j.id).trans hjn⟩
  · have hmem : jobCounts y ∈ s.jobs.map jobCounts := h.jobs.counts ▸ List.mem_map_of_mem hy
    obtain ⟨j, hj, hjy⟩ := List.mem_map.1 hmem
    have hid : j.id = y.id := (congrArg Prod.fst hjy :)
    have hopen : j.openOrders = y.openOrders := (congrArg (fun z => z.2.1) hjy :)
    rw [← hopen, ← hid]
    exact hcounted j hj
  · rcases h.jobs.closed y hy hyc with ⟨j, hj, hjy, hjc⟩ | hzero
    · have hopen : j.openOrders = y.openOrders := (congrArg (fun z => z.2.1) hjy :)
      exact hopen ▸ hclosed j hj hjc
    · exact hzero.1

theorem Calm.trans (h : Calm s t) (k : Calm t u) : Calm s u where
  placements := k.placements.trans h.placements
  slabs := k.slabs.trans h.slabs
  jobs := h.jobs.trans k.jobs
  names := k.names.trans h.names
  beds a n := (k.beds a n).trans (h.beds a n)
  stations := k.stations

theorem Easy.refl (s : State) : Easy s s :=
  ⟨Keeps.refl s, fun _ ho => ⟨rfl, rfl, .refl _, rfl, fun _ _ => Iff.rfl, ho.1⟩⟩

theorem Easy.trans (h : Easy s t) (k : Easy t u) : Easy s u :=
  ⟨h.keeps.trans k.keeps, fun hb ho => (h.calm hb ho).trans (k.calm (h.keeps.2 hb) ((h.calm hb ho).orderly ho))⟩

theorem Easy.foldl {α : Type} {f : State → α → State} (h : ∀ s x, Easy s (f s x)) (l : List α) (s : State) :
    Easy s (l.foldl f s) := by
  induction l generalizing s with
  | nil => exact .refl s
  | cons x xs ih => exact (h s x).trans (ih (f s x))

/-- Only the jobs change, and those stay alike. -/
theorem easy_of_jobs (hk : Keeps s t) (hp : t.placements = s.placements) (hx : t.slabs = s.slabs)
    (hst : t.stations = s.stations) (hj : s.Bounded → JobsAlike s.jobs t.jobs) : Easy s t :=
  ⟨hk, fun hb ho => ⟨hp, hx, hj hb, by rw [orders_of_stations hst], fun a n => by rw [Bedded, Bedded, hst], fun st h => ho.1 st (hst ▸ h)⟩⟩

/-- Nothing that the laws speak of changes. -/
theorem easy_of_same (hk : Keeps s t) (hp : t.placements = s.placements) (hx : t.slabs = s.slabs)
    (hst : t.stations = s.stations) (hj : t.jobs = s.jobs) : Easy s t :=
  easy_of_jobs hk hp hx hst (fun _ => hj ▸ .refl _)

/-- Only the jobs and the accounts change. -/
theorem easy_of_accounts (hk : Keeps s t) (h : exceptAccounts t = exceptAccounts s) (hj : s.Bounded → JobsAlike s.jobs t.jobs) :
    Easy s t :=
  easy_of_jobs hk (congrArg State.placements h :) (congrArg State.slabs h :) (congrArg State.stations h :) hj

/-! ## Stations -/

theorem stationOrderly_iff {st : Station} : st.Orderly ↔ (∀ o ∈ queueOf st, o.saw = st.address)
    ∧ (queueOf st).countP (fun o => o.state.isActive) ≤ 1
    ∧ (st.state ≠ .attached → ∀ o ∈ queueOf st, o.state = .waiting ∨ o.state = .inDoubt) := by
  unfold Station.Orderly queueOf
  cases st.saw with
  | none => simp
  | some w => simp

/-- A station whose queue only loses orders, and that is not detached, stays in order. -/
theorem stationOrderly_of_sublist {st y : Station} (h : st.Orderly) (ha : y.address = st.address)
    (hs : y.state ≠ .attached → st.state ≠ .attached) (hq : List.Sublist (queueOf y) (queueOf st)) : y.Orderly := by
  obtain ⟨hsaw, hone, hidle⟩ := stationOrderly_iff.1 h
  exact stationOrderly_iff.2 ⟨fun o ho => (hsaw o (hq.subset ho)).trans ha.symm, (hq.countP_le).trans hone,
    fun hy o ho => hidle (hs hy) o (hq.subset ho)⟩

/-- A station whose orders are changed in place, none of them to an active state. -/
theorem stationOrderly_of_map {st y : Station} {f : CutOrder → CutOrder} (h : st.Orderly) (ha : y.address = st.address)
    (hq : queueOf y = (queueOf st).map f) (hf : ∀ o, (f o).saw = o.saw)
    (hactive : ∀ o ∈ queueOf st, (f o).state.isActive = true → o.state.isActive = true)
    (hs : y.state ≠ .attached → ∀ o ∈ queueOf st, (f o).state = .waiting ∨ (f o).state = .inDoubt) : y.Orderly := by
  obtain ⟨hsaw, hone, -⟩ := stationOrderly_iff.1 h
  refine stationOrderly_iff.2 ⟨?_, ?_, ?_⟩
  · rw [hq]
    exact List.forall_mem_map.2 (fun o ho => (hf o).trans ((hsaw o ho).trans ha.symm))
  · rw [hq, List.countP_map]
    exact (List.countP_mono_left hactive).trans hone
  · intro hy
    rw [hq]
    exact List.forall_mem_map.2 (hs hy)

theorem names_map {g : Station → Station} (ht : t.stations = s.stations.map g)
    (h : ∀ st ∈ s.stations, (queueOf (g st)).map identity = (queueOf st).map identity) :
    t.orders.map identity = s.orders.map identity := by
  rw [orders_eq, orders_eq, ht, List.flatMap_map, List.map_flatMap, List.map_flatMap]
  exact List.flatMap_congr h

theorem bedAt_iff {st : Station} {a n : Nat} : (st.address = a ∧ ∃ w, st.saw = some w ∧ w.bed = some n)
    ↔ bedAt st = (a, some (some n)) := by
  unfold bedAt
  cases st.saw with
  | none => simp
  | some w => simp

theorem bedded_map {g : Station → Station} (ht : t.stations = s.stations.map g) (hg : ∀ st, bedAt (g st) = bedAt st) (a n : Nat) :
    Bedded t a n ↔ Bedded s a n := by
  unfold Bedded
  simp only [bedAt_iff]
  rw [ht]
  constructor
  · rintro ⟨y, hy, hbed⟩
    obtain ⟨st, hst, rfl⟩ := List.mem_map.1 hy
    exact ⟨st, hst, (hg st).symm.trans hbed⟩
  · rintro ⟨st, hst, hbed⟩
    exact ⟨g st, List.mem_map_of_mem hst, (hg st).trans hbed⟩

/-- Only the stations change, each in place. -/
theorem easy_of_stations {g : Station → Station} (hk : Keeps s t) (hp : t.placements = s.placements) (hx : t.slabs = s.slabs)
    (hj : t.jobs = s.jobs) (ht : t.stations = s.stations.map g)
    (hg : ∀ st, bedAt (g st) = bedAt st ∧ (queueOf (g st)).map identity = (queueOf st).map identity)
    (ho : s.Bounded → s.Orderly → ∀ st ∈ s.stations, (g st).Orderly) : Easy s t := by
  refine ⟨hk, fun hb h => ⟨hp, hx, hj ▸ .refl _, names_map ht (fun st _ => (hg st).2), ?_, ?_⟩⟩
  · exact bedded_map ht (fun st => (hg st).1)
  · rw [ht]
    exact List.forall_mem_map.2 (ho hb h)

end

end Sys2Proof.Proofs
end

