-- ==== Sys2Proof/Proofs/CalmSteps.lean ====
section
/-! SUPPORT. The operations that are calm: faults and notices, the link, timers, charges, closings, the water mode, and the
changes of a station, a saw or an order in place. -/

namespace Sys2Proof.Proofs

open Sys2Proof Sys2Proof.Config Sys2Proof.Machine

section
variable {s t : State}

/-! ## The link, notices and presentations -/

theorem easy_link (h : t.withoutLink = s.withoutLink) (hk : Keeps s t) : Easy s t :=
  easy_of_same hk (congrArg State.placements h :) (congrArg State.slabs h :) (congrArg State.stations h :)
    (congrArg State.jobs h :)

theorem easy_raise (r : FaultRecord) (s : State) : Easy s (s.raise r) := easy_link (withoutLink_raise r) (keeps_raise r)

theorem easy_notify (n : Notice) (s : State) : Easy s (s.notify n) := easy_link rfl (keeps_notify n)

theorem easy_flush (s : State) : Easy s s.flush := easy_link withoutLink_flush keeps_flush

theorem easy_produce (d : Side) (m : Telegram) (s : State) : Easy s (s.produce d m) :=
  easy_link (withoutLink_produce d m) (keeps_produce d m)

theorem easy_produceB (m : Option Telegram) (s : State) : Easy s (s.produceB m) := by
  cases m with
  | none => exact .refl s
  | some m => exact easy_produce .b m s

theorem easy_present (a : Nat) (s : State) : Easy s (s.present a) := easy_of_same (keeps_present a) rfl rfl rfl rfl

theorem easy_presentBed (x : Slab) (s : State) : Easy s (s.presentBed x) := by
  unfold State.presentBed
  split
  · exact .refl s
  · exact easy_present _ s

/-! ## The water mode -/

/-- The state without the water monitor, the presentations and the outbox. -/
def exceptMode (s : State) : State := { s with water := State.reset.water, presented := [], outbox := [] }

theorem easy_of_mode (hk : Keeps s t) (h : exceptMode t = exceptMode s) : Easy s t :=
  easy_of_same hk (congrArg State.placements h :) (congrArg State.slabs h :) (congrArg State.stations h :)
    (congrArg State.jobs h :)

theorem queueValve_exceptMode (m : WaterMode) (s : State) : exceptMode (s.queueValve m) = exceptMode s := by
  unfold State.queueValve
  split
  · rfl
  · split <;> rfl

theorem changeMode_exceptMode (m : WaterMode) (c : ModeCause) (l : List (Nat × Bool)) (s : State) :
    exceptMode (s.changeMode m c l) = exceptMode s := by
  unfold State.changeMode State.queueValve
  split
  · rfl
  · split <;> rfl

theorem takeMode_exceptMode (m : WaterMode) (c : ModeCause) (l : List (Nat × Bool)) (s : State) :
    exceptMode (s.takeMode m c l) = exceptMode s := by
  unfold State.takeMode
  split
  · rfl
  · exact changeMode_exceptMode m c l s

theorem recomputeMode_exceptMode (c : ModeCause) (l : List (Nat × Bool)) (s : State) :
    exceptMode (s.recomputeMode c l) = exceptMode s := by
  unfold State.recomputeMode
  split
  · rfl
  · exact takeMode_exceptMode _ c l s

theorem modeAfterSample_exceptMode (l : List (Nat × Bool)) (s : State) :
    exceptMode (s.modeAfterSample l) = exceptMode s := by
  unfold State.modeAfterSample
  split
  · exact changeMode_exceptMode _ _ l s
  · split <;> rfl

theorem easy_plantLost (s : State) : Easy s s.plantLost := easy_of_mode keeps_plantLost (takeMode_exceptMode _ _ _ s)

theorem easy_queueValve (m : WaterMode) (s : State) : Easy s (s.queueValve m) :=
  easy_of_mode (keeps_queueValve m) (queueValve_exceptMode m s)

theorem easy_recyclerGone (old : Station) (s : State) : Easy s (s.recyclerGone old) := by
  refine easy_of_mode (keeps_recyclerGone old) ?_
  unfold State.recyclerGone
  split
  · split
    · exact takeMode_exceptMode _ _ _ { s with water := { s.water with lastSequence := none } }
    · rfl
  · rfl

theorem easy_waterSample (a n l r p f : Nat) (s : State) : Easy s (waterSample a n l r p f s).2 := by
  unfold waterSample
  split
  · exact .refl s
  · have hgap : Easy s (s.gapCheck a n) := by
      unfold State.gapCheck
      split
      · exact .refl s
      · exact easy_raise _ s
    exact hgap.trans (easy_of_mode ((keeps_water _ (Water.takeSample_legal n l r p f)).trans (keeps_modeAfterSample _))
      (modeAfterSample_exceptMode _ { s.gapCheck a n with water := (s.gapCheck a n).water.takeSample n l r p f }))

/-! ## Charges and closings -/

theorem easy_addOverheadWater (r f : Nat) (s : State) : Easy s (s.addOverheadWater r f) :=
  easy_of_same (keeps_addOverheadWater r f) rfl rfl rfl rfl

theorem easy_addOverheadCents (a b : Nat) (s : State) : Easy s (s.addOverheadCents a b) :=
  easy_of_same (keeps_addOverheadCents a b) rfl rfl rfl rfl

theorem easy_charge (c : Cause) (slab job : Nat) (a : Accumulator) (n : Nat) (s : State) : Easy s (s.charge c slab job a n) :=
  easy_of_accounts (keeps_charge c slab job a n) (charge_exceptAccounts c slab job a n s)
    (fun _ => jobsAlike_of_core charge_core)

theorem easy_addToJob (c : Cause) (slab job : Nat) (a : Accumulator) (n : Nat) (s : State) :
    Easy s (s.addToJob c slab job a n) :=
  easy_of_accounts (keeps_addToJob c slab job a n) (addToJob_exceptAccounts c slab job a n s)
    (fun _ => jobsAlike_of_core addToJob_core)

theorem easy_closeIfReady (id : Nat) (s : State) : Easy s (s.closeIfReady id) := by
  refine easy_of_accounts (keeps_closeIfReady id) (closeIfReady_exceptAccounts s id) (fun hb => ?_)
  unfold State.closeIfReady
  cases hj : s.job? id with
  | none => exact .refl _
  | some j =>
    dsimp only
    split
    · rename_i hready
      obtain ⟨-, hopen, hun⟩ := readyToClose_iff.1 hready
      refine jobsAlike_modifyBy (fun _ _ => rfl) (fun z hz hid _ => .inr ?_)
      obtain rfl : z = j := rising_unique Job.id hb.jobs.1 hz (findBy_some _ hj).1 (hid.trans (job?_id hj).symm)
      exact ⟨hopen, hun⟩
    · exact .refl _

theorem easy_closeOf (job : Option Nat) (s : State) : Easy s (s.closeOf job) := by
  cases job with
  | none => exact .refl s
  | some j => exact easy_closeIfReady j s

theorem easy_closeAllReady (s : State) : Easy s s.closeAllReady := Easy.foldl (fun s id => easy_closeIfReady id s) _ s

theorem easy_closeParticipants (ps : List Placement) (s : State) : Easy s (s.closeParticipants ps) :=
  Easy.foldl (fun s id => easy_closeIfReady id s) _ s

/-- The charges of a completion that makes no material. -/
theorem easy_completionCharges {c : Cause} {w : SawConfig} {o : CutOrder} {oc : Outcome3} {n : Nat} (h : oc ≠ .done) (s : State) :
    Easy s (s.completionCharges c w o oc n).2 := by
  cases ho : o.job with
  | none =>
    have hcharge : (s.completionCharges c w o oc n).2
        = s.addOverheadCents (bladeCharge n w.sawRate) (bladeCharge n w.wearRate) := by
      unfold State.completionCharges
      rw [ho]
    rw [hcharge]
    exact easy_addOverheadCents _ _ s
  | some job =>
    have hpiece : (o.kind.isPiece && decide (oc = .done)) = false := by rw [decide_eq_false h, Bool.and_false]
    have hcharge : (s.completionCharges c w o oc n).2 = s.chargeCut c o job (bladeCharge n w.sawRate)
        (bladeCharge n w.wearRate) (waterCharge s.rates o.recycled o.fresh) (s.materialOf o oc) false n := by
      unfold State.completionCharges
      rw [ho, hpiece]
    rw [hcharge]
    exact (((((easy_charge c o.slab job .saw _ s).trans (easy_charge c o.slab job .wear _ _)).trans
      (easy_charge c o.slab job .water _ _)).trans (easy_addToJob c o.slab job .recycled _ _)).trans
      (easy_addToJob c o.slab job .fresh _ _)).trans (easy_addToJob c o.slab job .bladeSeconds _ _)

/-! ## Stations and saws in place -/

/-- One station changed in place. -/
theorem easy_modifyStation {a : Nat} {f : Station → Station} (hk : Keeps s (s.modifyStation a f))
    (hf : ∀ st, bedAt (f st) = bedAt st ∧ (queueOf (f st)).map identity = (queueOf st).map identity)
    (ho : s.Bounded → s.Orderly → ∀ st ∈ s.stations, st.address = a → (f st).Orderly) : Easy s (s.modifyStation a f) := by
  refine easy_of_stations (g := fun st => if st.address = a then f st else st) hk rfl rfl rfl rfl (fun st => ?_)
    (fun hb h st hst => ?_)
  · split
    · exact hf st
    · exact ⟨rfl, rfl⟩
  · split
    · exact ho hb h st hst ‹_›
    · exact h.1 st hst

/-- A station whose state and timer alone change, and that is not detached. -/
theorem easy_setStation {a : Nat} {f : Station → Station} (hk : Keeps s (s.modifyStation a f))
    (hf : ∀ st, bedAt (f st) = bedAt st ∧ queueOf (f st) = queueOf st)
    (hs : ∀ st, (f st).state ≠ .attached → st.state ≠ .attached) : Easy s (s.modifyStation a f) := by
  refine easy_modifyStation hk (fun st => ⟨(hf st).1, by rw [(hf st).2]⟩) (fun _ h st hst _ => ?_)
  have haddr : (f st).address = st.address := (congrArg Prod.fst (hf st).1 :)
  exact stationOrderly_of_sublist (h.1 st hst) haddr (hs st) ((hf st).2 ▸ List.Sublist.refl _)

theorem easy_restartSilence (a : Nat) (s : State) : Easy s (s.restartSilence a) := by
  refine easy_setStation (keeps_restartSilence a) (fun st => ?_) (fun st h => ?_)
  · split <;> exact ⟨rfl, rfl⟩
  · split at h <;> exact h

theorem easy_attach (a : Nat) (s : State) : Easy s (s.attach a) :=
  easy_setStation (keeps_attach a) (fun _ => ⟨rfl, rfl⟩) (fun _ h => absurd rfl h)

theorem bedAt_mapSaw {f : Saw → Saw} (hf : ∀ w, (f w).bed = w.bed) (st : Station) : bedAt (st.mapSaw f) = bedAt st := by
  unfold bedAt Station.mapSaw
  cases st.saw with
  | none => rfl
  | some w => simp [hf]

theorem queueOf_mapSaw_same {f : Saw → Saw} (hf : ∀ w, (f w).queue = w.queue) (st : Station) :
    queueOf (st.mapSaw f) = queueOf st := by
  unfold queueOf Station.mapSaw
  cases st.saw with
  | none => rfl
  | some w => exact hf w

/-- A saw whose bed and queue stay. -/
theorem easy_setSaw (a : Nat) (f : Saw → Saw) (hbed : ∀ w, (f w).bed = w.bed) (hq : ∀ w, (f w).queue = w.queue) (s : State) :
    Easy s (s.modifySaw a f) :=
  easy_setStation (keeps_modifySaw a f (fun w h => by rw [hq w]; exact h))
    (fun st => ⟨bedAt_mapSaw hbed st, queueOf_mapSaw_same hq st⟩) (fun _ h => h)

/-! ## Orders in place -/

theorem queueOf_sublist {st : Station} (hst : st ∈ s.stations) : List.Sublist (queueOf st) s.orders := by
  rw [orders_eq]
  exact List.sublist_flatten_of_mem (List.mem_map_of_mem hst)

theorem queueOf_apart (h : s.Orderly) {st : Station} (hst : st ∈ s.stations) :
    (queueOf st).Pairwise (fun a b => ¬ a.same b) := (ordersApart_of_orderly h).sublist (queueOf_sublist hst)

/-- One order of a queue, changed in place, stays inactive unless it was active. -/
structure MarksCalmly (slab index : Nat) (f : CutOrder → CutOrder) (st : Station) : Prop where
  active : ∀ o ∈ queueOf st, o.slab = slab → o.index = index → (f o).state.isActive = true → o.state.isActive = true
  idle : st.state ≠ .attached → ∀ o ∈ queueOf st, o.slab = slab → o.index = index →
    (f o).state = .waiting ∨ (f o).state = .inDoubt

theorem queueOf_modifyOrder (slab index : Nat) (f : CutOrder → CutOrder) (st : Station) :
    queueOf (st.mapSaw (fun w => { w with queue := w.queue.map (fun o => if CutOrder.names slab index o then f o else o) }))
      = (queueOf st).map (fun o => if CutOrder.names slab index o then f o else o) := by
  unfold queueOf Station.mapSaw
  cases st.saw <;> rfl

theorem identity_marked {slab index : Nat} {f : CutOrder → CutOrder} (hf : ∀ o, identity (f o) = identity o) (o : CutOrder) :
    identity (if CutOrder.names slab index o then f o else o) = identity o := by
  split
  · exact hf o
  · rfl

theorem easy_markOrder {a slab index : Nat} {f : CutOrder → CutOrder} (hf : ∀ o, identity (f o) = identity o)
    (h : s.Bounded → s.Orderly → ∀ st ∈ s.stations, st.address = a →
      (st.mapSaw (fun w => { w with queue := w.queue.map (fun o => if CutOrder.names slab index o then f o else o) })).Orderly) :
    Easy s (s.modifyOrder a slab index f) := by
  refine easy_modifyStation (keeps_modifyOrder a slab index f) (fun st => ⟨?_, ?_⟩) h
  · exact bedAt_mapSaw (f := fun w => { w with queue := w.queue.map (fun o => if CutOrder.names slab index o then f o else o) })
      (fun _ => rfl) st
  · rw [queueOf_modifyOrder, List.map_map]
    exact List.map_congr_left (fun o _ => identity_marked hf o)

theorem easy_modifyOrder (a slab index : Nat) (f : CutOrder → CutOrder) (hf : ∀ o, identity (f o) = identity o)
    (h : s.Bounded → s.Orderly → ∀ st ∈ s.stations, st.address = a → MarksCalmly slab index f st) :
    Easy s (s.modifyOrder a slab index f) := by
  refine easy_markOrder hf (fun hb ho st hst ha => ?_)
  obtain ⟨hactive, hidle⟩ := h hb ho st hst ha
  refine stationOrderly_of_map (ho.1 st hst) rfl (queueOf_modifyOrder slab index f st) (fun o => ?_) (fun o hmem => ?_)
    (fun hs o hmem => ?_)
  · exact (congrArg CutOrder.saw (identity_marked hf o) :)
  · by_cases hn : CutOrder.names slab index o = true
    · rw [if_pos hn]
      exact hactive o hmem (names_iff.1 hn).1 (names_iff.1 hn).2
    · rw [if_neg hn]
      exact id
  · by_cases hn : CutOrder.names slab index o = true
    · rw [if_pos hn]
      exact hidle hs o hmem (names_iff.1 hn).1 (names_iff.1 hn).2
    · rw [if_neg hn]
      exact (stationOrderly_iff.1 (ho.1 st hst)).2.2 hs o hmem

/-- An order that leaves its state. -/
theorem easy_annotate (a slab index : Nat) (f : CutOrder → CutOrder) (hf : ∀ o, identity (f o) = identity o)
    (hs : ∀ o, (f o).state = o.state) (s : State) : Easy s (s.modifyOrder a slab index f) :=
  easy_modifyOrder a slab index f hf (fun _ ho st hst _ => ⟨fun o _ _ _ h => hs o ▸ h,
    fun hne o hmem _ _ => hs o ▸ (stationOrderly_iff.1 (ho.1 st hst)).2.2 hne o hmem⟩)

theorem countP_names_le_one {l : List CutOrder} {slab index : Nat} (h : l.Pairwise (fun a b => ¬ a.same b)) :
    l.countP (CutOrder.names slab index) ≤ 1 := by
  induction l with
  | nil => exact Nat.zero_le 1
  | cons o l ih =>
    obtain ⟨ho, hl⟩ := List.pairwise_cons.1 h
    rw [List.countP_cons]
    split
    · rename_i hn
      have hzero : l.countP (CutOrder.names slab index) = 0 := List.countP_eq_zero.2 (fun b hb hbn =>
        ho b hb ⟨(names_iff.1 hn).1.trans (names_iff.1 hbn).1.symm, (names_iff.1 hn).2.trans (names_iff.1 hbn).2.symm⟩)
      rw [hzero]
    · exact ih hl

/-- One order of an ATTACHED saw that holds none becomes active. -/
theorem easy_activate (a slab index : Nat) (f : CutOrder → CutOrder) (hf : ∀ o, identity (f o) = identity o)
    (h : s.Bounded → s.Orderly → ∀ st ∈ s.stations, st.address = a →
      st.state = .attached ∧ ∀ o ∈ queueOf st, o.state = .waiting) : Easy s (s.modifyOrder a slab index f) := by
  refine easy_markOrder hf (fun hb ho st hst ha => ?_)
  obtain ⟨hatt, hwait⟩ := h hb ho st hst ha
  obtain ⟨hsaw, -, -⟩ := stationOrderly_iff.1 (ho.1 st hst)
  refine stationOrderly_iff.2 ⟨?_, ?_, fun hne => absurd hatt hne⟩
  · rw [queueOf_modifyOrder]
    refine List.forall_mem_map.2 (fun o hmem => ?_)
    exact ((congrArg CutOrder.saw (identity_marked hf o) :)).trans (hsaw o hmem)
  · rw [queueOf_modifyOrder, List.countP_map]
    refine (List.countP_mono_left (fun o hmem hactive => ?_)).trans (countP_names_le_one (slab := slab) (index := index) (queueOf_apart ho hst))
    by_contra hn
    rw [Function.comp_apply, if_neg hn, hwait o hmem] at hactive
    cases hactive

end

end Sys2Proof.Proofs
end

