-- ==== Sys2Proof/Proofs/CalmBlocks.lean ====
section
/-! SUPPORT. The calm blocks and timers: reports, acknowledgements, deliveries, silences, station loads and restarts. -/

namespace Sys2Proof.Proofs

open Sys2Proof Sys2Proof.Config Sys2Proof.Machine

section
variable {s t : State} {a slab index : Nat} {o y : CutOrder} {st : Station} {w : Saw}

/-! ## Orders on their saws -/

/-- The queue of the station at a saw's address. -/
theorem queueOf_of_saw (hb : s.Bounded) (hw : s.saw? a = some w) (hst : st ∈ s.stations) (ha : st.address = a) :
    st.saw = some w ∧ queueOf st = w.queue := by
  obtain ⟨z, hz, hsaw⟩ := Option.bind_eq_some_iff.1 hw
  obtain ⟨hmem, haddr⟩ := findBy_some _ hz
  obtain rfl : st = z := rising_unique Station.address hb.stations.1 hst hmem (ha.trans haddr.symm)
  exact ⟨hsaw, by unfold queueOf; rw [hsaw]⟩

theorem two_le_countP {α : Type} {p : α → Bool} {l : List α} {x z : α} (hx : x ∈ l) (hz : z ∈ l) (hne : x ≠ z)
    (hpx : p x = true) (hpz : p z = true) : 2 ≤ l.countP p := by
  induction l with
  | nil => cases hx
  | cons b l ih =>
    rw [List.countP_cons]
    rcases List.mem_cons.1 hx with rfl | hxl
    · have hzl : z ∈ l := (List.mem_cons.1 hz).resolve_left (Ne.symm hne)
      have hpos : 0 < l.countP p := List.countP_pos_iff.2 ⟨z, hzl, hpz⟩
      rw [if_pos hpx]
      omega
    · rcases List.mem_cons.1 hz with rfl | hzl
      · have hpos : 0 < l.countP p := List.countP_pos_iff.2 ⟨x, hxl, hpx⟩
        rw [if_pos hpz]
        omega
      · exact (ih hxl hzl).trans (Nat.le_add_right _ _)

theorem isActive_of_ne {c : OrderState} (h : c ≠ .waiting) : c.isActive = true := by
  cases c with
  | waiting => exact absurd rfl h
  | _ => rfl

/-- Beside an active order every order of a queue waits. -/
theorem waiting_beside (h : st.Orderly) (ho : o ∈ queueOf st) (hact : o.state ≠ .waiting) (hy : y ∈ queueOf st) (hne : y ≠ o) :
    y.state = .waiting := by
  by_contra hn
  have htwo := two_le_countP (p := fun o => o.state.isActive) hy ho hne (isActive_of_ne hn) (isActive_of_ne hact)
  have hone := (stationOrderly_iff.1 h).2.1
  omega

theorem same_of_names (h : s.Orderly) (hst : st ∈ s.stations) (ho : o ∈ queueOf st) (hy : y ∈ queueOf st) (hs : y.slab = o.slab)
    (hi : y.index = o.index) : y = o :=
  order_unique (ordersApart_of_orderly h) ((queueOf_sublist hst).subset hy) ((queueOf_sublist hst).subset ho) ⟨hs, hi⟩

/-- What a held order is. -/
theorem heldOrder_spec (h : s.heldOrder a slab index = some o) : ∃ w, s.saw? a = some w ∧ w.active = some o
    ∧ o.slab = slab ∧ o.index = index ∧ o.state ≠ .inDoubt := by
  unfold State.heldOrder at h
  split at h
  · cases h
  next y hy =>
    split at h
    · rename_i hc
      cases h
      obtain ⟨w, hw, hact⟩ := Option.bind_eq_some_iff.1 hy
      obtain ⟨hn, hd⟩ := Bool.and_eq_true_iff.1 hc
      obtain ⟨hs, hi⟩ := names_iff.1 hn
      exact ⟨w, hw, hact, hs, hi, of_decide_eq_true hd⟩
    · cases h

theorem active_mem (h : w.active = some o) : o ∈ w.queue := List.mem_of_find?_eq_some h

/-- A saw that holds an order is ATTACHED. -/
theorem attached_of_held (h : st.Orderly) (ho : o ∈ queueOf st) (hw : o.state ≠ .waiting) (hd : o.state ≠ .inDoubt) :
    st.state = .attached := by
  by_contra hne
  rcases (stationOrderly_iff.1 h).2.2 hne o ho with hs | hs
  · exact hw hs
  · exact hd hs

/-! ## Reports of a saw -/

theorem easy_acknowledge (h : s.heldOrder a slab index = some o) : Easy s (s.acknowledge a slab index) := by
  refine Easy.trans (easy_modifyOrder a slab index (fun o => { o with state := .running }) (fun _ => rfl)
    (fun hb ho st hst ha => ?_)) (easy_setSaw a (fun w => { w with ackTimer := none }) (fun _ => rfl) (fun _ => rfl) _)
  obtain ⟨w, hw, hact, hs, hi, hd⟩ := heldOrder_spec h
  obtain ⟨-, hq⟩ := queueOf_of_saw hb hw hst ha
  have hmem : o ∈ queueOf st := hq ▸ active_mem hact
  refine ⟨fun y hy hys hyi _ => ?_, fun hne => ?_⟩
  · rw [same_of_names ho hst hmem hy (hys.trans hs.symm) (hyi.trans hi.symm)]
    exact isActive_of_ne (active_isActive hact)
  · exact absurd (attached_of_held (ho.1 st hst) hmem (active_isActive hact) hd) hne

theorem easy_orderAck (src : Nat) (s : State) : Easy s (orderAck src slab index s).2 := by
  cases h : s.heldOrder src slab index with
  | none => rw [orderAck_none h]; exact .refl s
  | some o =>
    rw [orderAck_held h]
    dsimp only
    split
    · exact easy_acknowledge h
    · exact .refl s

theorem easy_drawWater (a d : Nat) (active : Option CutOrder) (s : State) : Easy s (s.drawWater a active d) := by
  rcases running_or_not active with hidle | ⟨o, rfl, hr⟩
  · rw [drawWater_overhead hidle]
    exact easy_addOverheadWater _ _ s
  · have hadd (r f : Nat) : Easy s (s.modifyOrder a o.slab o.index (CutOrder.addWater r f)) :=
      easy_annotate a o.slab o.index (CutOrder.addWater r f) (fun _ => rfl) (fun _ => rfl) s
    rw [drawWater_running hr]
    split
    · exact (hadd _ _).trans (easy_addOverheadWater _ _ _)
    · exact hadd _ _

theorem easy_sawStatus (a b c d e f g : Nat) (s : State) : Easy s (sawStatus a b c d e f g s).2 := by
  unfold sawStatus
  split
  · next t w _ _ =>
    have taken : Easy s ((s.modifySaw a (Saw.takeStatus t)).drawWater a w.active t.delta) :=
      (easy_setSaw a (Saw.takeStatus t) (fun _ => rfl) (fun _ => rfl) s).trans (easy_drawWater _ _ _ _)
    dsimp only
    split
    · exact taken.trans (easy_present a _)
    · exact taken
  · exact .refl s

/-! ## Silence -/

/-- A saw's orders when it falls silent: none held. -/
theorem silenced_idle (o : CutOrder) : o.silenced.state = .waiting ∨ o.silenced.state = .inDoubt := by
  rw [silenced_eq]
  cases h : o.state <;> simp [h]

theorem identity_silenced (o : CutOrder) : identity o.silenced = identity o := by
  rw [silenced_eq]
  cases h : o.state <;> simp [identity]

theorem silenced_active (o : CutOrder) (h : o.silenced.state.isActive = true) : o.state.isActive = true := by
  refine isActive_of_ne (fun hw => ?_)
  rw [silenced_eq, hw] at h
  dsimp only at h
  rw [hw] at h
  cases h

theorem queueOf_silenced (st : Station) : queueOf st.silenced = queueOf st := by
  unfold queueOf Station.silenced
  cases st.saw <;> rfl

theorem bedAt_silenced (st : Station) : bedAt st.silenced = bedAt st := by
  unfold bedAt Station.silenced
  cases st.saw <;> rfl

theorem queueOf_silenceOrders (st : Station) : queueOf (st.mapSaw Saw.silenceOrders) = (queueOf st).map CutOrder.silenced := by
  unfold queueOf Station.mapSaw
  cases st.saw <;> rfl

theorem silenced_address (st : Station) : st.silenced.address = st.address := rfl

/-- A saw and its orders fall silent together. -/
theorem easy_silenceSaw (a : Nat) (s : State) :
    Easy s ((s.modifyStation a Station.silenced).modifySaw a Saw.silenceOrders) := by
  have hk := (keeps_silenced (s := s) a).trans (keeps_silenceOrders a)
  have hone : (s.modifyStation a Station.silenced).modifySaw a Saw.silenceOrders
      = s.modifyStation a (fun st => st.silenced.mapSaw Saw.silenceOrders) :=
    modifyStation_modifyStation silenced_address a _ s
  rw [hone] at hk ⊢
  refine easy_modifyStation hk (fun st => ⟨?_, ?_⟩) (fun _ ho st hst _ => ?_)
  · exact (bedAt_mapSaw (f := Saw.silenceOrders) (fun _ => rfl) _).trans (bedAt_silenced st)
  · rw [queueOf_silenceOrders, queueOf_silenced, List.map_map]
    exact List.map_congr_left (fun o _ => identity_silenced o)
  · refine stationOrderly_of_map (f := CutOrder.silenced) (ho.1 st hst) rfl ?_ (fun o => ?_) (fun o _ => silenced_active o)
      (fun _ o _ => silenced_idle o)
    · rw [queueOf_silenceOrders, queueOf_silenced]
    · exact (congrArg CutOrder.saw (identity_silenced o) :)

/-- A station that is no saw falls silent. -/
theorem easy_silenceOther (hst : st ∈ s.stations) (hc : st.cls.isSaw = false) :
    Easy s (s.modifyStation st.address Station.silenced) := by
  refine easy_modifyStation (keeps_silenced st.address) (fun z => ⟨bedAt_silenced z, by rw [queueOf_silenced]⟩)
    (fun hb _ z hz ha => ?_)
  obtain rfl : z = st := rising_unique Station.address hb.stations.1 hz hst ha
  have hnone : z.saw = none := by
    have hlegal := (hb.stations.2.2 z hz).1.2.2.1
    rw [hc] at hlegal
    exact Option.isSome_eq_false_iff.1 hlegal |> Option.isNone_iff_eq_none.1
  intro w hw
  unfold Station.silenced at hw
  rw [hnone] at hw
  cases hw

theorem easy_silenceExpiry (a : Nat) (s : State) : Easy s (silenceExpiry a s) := by
  unfold silenceExpiry
  split
  · exact .refl s
  next st hst =>
    split
    · refine Easy.trans ?_ (easy_flush _)
      have hmem := (findBy_some _ hst).1
      cases hsaw : st.cls.isSaw with
      | true =>
        rw [silence_saw hsaw]
        exact ((easy_silenceSaw st.address s).trans (easy_raise _ _)).trans (easy_present _ _)
      | false =>
        have hoff := easy_silenceOther hmem hsaw
        by_cases hr : st.cls = .recycler
        · rw [silence_recycler hr]
          exact (hoff.trans (easy_raise _ _)).trans (easy_plantLost _)
        · rw [silence_other hsaw hr]
          exact hoff.trans (easy_raise _ _)
    · exact .refl s

/-! ## Acknowledgement -/

theorem unanswered_spec (h : w.unanswered = some o) : w.active = some o ∧ o.state = .delivered := by
  unfold Saw.unanswered at h
  split at h
  · rename_i y _ hact
    split at h
    · rename_i hd
      cases h
      exact ⟨hact, hd⟩
    · cases h
  · cases h

/-- A delivery ends and its saw falls silent together. -/
theorem easy_returnDelivery (hw : s.saw? o.saw = some w) (hact : w.active = some o) :
    Easy s ((s.modifyStation o.saw Station.silenced).modifyOrder o.saw o.slab o.index CutOrder.toWaiting) := by
  have hk := (keeps_silenced (s := s) o.saw).trans (keeps_modifyOrder o.saw o.slab o.index CutOrder.toWaiting)
  have hone : (s.modifyStation o.saw Station.silenced).modifyOrder o.saw o.slab o.index CutOrder.toWaiting
      = s.modifyStation o.saw (fun st => st.silenced.mapSaw (fun w => { w with
          queue := w.queue.map (fun y => if CutOrder.names o.slab o.index y then y.toWaiting else y) })) :=
    modifyStation_modifyStation silenced_address o.saw _ s
  rw [hone] at hk ⊢
  have hid : ∀ y : CutOrder, identity (if CutOrder.names o.slab o.index y then y.toWaiting else y) = identity y :=
    identity_marked (fun _ => rfl)
  have hq (st : Station) : queueOf (st.silenced.mapSaw (fun w => { w with
        queue := w.queue.map (fun y => if CutOrder.names o.slab o.index y then y.toWaiting else y) }))
      = (queueOf st).map (fun y => if CutOrder.names o.slab o.index y then y.toWaiting else y) := by
    rw [queueOf_modifyOrder, queueOf_silenced]
  refine easy_modifyStation hk (fun st => ⟨?_, ?_⟩) (fun hb ho st hst ha => ?_)
  · exact (bedAt_mapSaw (f := fun w : Saw => { w with
      queue := w.queue.map (fun y => if CutOrder.names o.slab o.index y then y.toWaiting else y) }) (fun _ => rfl) _).trans
      (bedAt_silenced st)
  · rw [hq, List.map_map]
    exact List.map_congr_left (fun y _ => hid y)
  · obtain ⟨-, hqueue⟩ := queueOf_of_saw hb hw hst ha
    have hmem : o ∈ queueOf st := hqueue ▸ active_mem hact
    have hwaits : ∀ y ∈ queueOf st, (if CutOrder.names o.slab o.index y then y.toWaiting else y).state = .waiting := by
      intro y hy
      split
      · rfl
      · rename_i hn
        exact waiting_beside (ho.1 st hst) hmem (active_isActive hact) hy (fun e => hn (names_iff.2 (e ▸ ⟨rfl, rfl⟩)))
    refine stationOrderly_of_map (ho.1 st hst) rfl (hq st) (fun y => (congrArg CutOrder.saw (hid y) :)) (fun y hy hactive => ?_)
      (fun _ y hy => .inl (hwaits y hy))
    rw [hwaits y hy] at hactive
    cases hactive

theorem easy_resend (o : CutOrder) (s : State) : Easy s (s.resend o) :=
  ((easy_annotate o.saw o.slab o.index (fun x => { x with sends := x.sends + 1 }) (fun _ => rfl) (fun _ => rfl) s).trans
    (easy_setSaw o.saw (fun w => { w with ackTimer := some ackMs }) (fun _ => rfl) (fun _ => rfl) _)).trans (easy_produceB _ _)

theorem easy_endDelivery (hw : s.saw? o.saw = some w) (hact : w.active = some o) : Easy s (s.endDelivery o) :=
  (((easy_returnDelivery hw hact).trans
    (easy_setSaw o.saw (fun w => { w with ackTimer := none }) (fun _ => rfl) (fun _ => rfl) _)).trans (easy_raise _ _)).trans
    (easy_notify _ _)

/-- An order carries the address of its saw. -/
theorem saw_of_queue (ho : s.Orderly) (hw : s.saw? a = some w) (hmem : o ∈ w.queue) : o.saw = a := by
  obtain ⟨st, hst, hsaw⟩ := Option.bind_eq_some_iff.1 hw
  obtain ⟨hmem', haddr⟩ := findBy_some _ hst
  exact (sawsCarried_of_orderly ho st hmem' w hsaw o hmem).trans haddr

theorem easy_ackExpiry (a : Nat) (s : State) : Easy s (ackExpiry a s) := by
  refine ⟨keeps_ackExpiry a, fun hb ho => Easy.calm ?_ hb ho⟩
  unfold ackExpiry
  split
  · exact .refl s
  next o hun =>
    obtain ⟨w, hw, hun⟩ := Option.bind_eq_some_iff.1 hun
    obtain ⟨hact, -⟩ := unanswered_spec hun
    obtain rfl : o.saw = a := saw_of_queue ho hw (active_mem hact)
    split
    · exact (easy_resend o s).trans (easy_flush _)
    · exact ((easy_endDelivery hw hact).trans (easy_present _ _)).trans (easy_flush _)

/-! ## Delivery -/

/-- What an evaluation delivers stands on an ATTACHED saw whose orders all wait. -/
theorem nextDelivery_spec (h : s.nextDelivery a = some o) : ∃ st w, s.station? a = some st ∧ st.saw = some w
    ∧ st.state = .attached ∧ ∀ y ∈ w.queue, y.state = .waiting := by
  unfold State.nextDelivery at h
  split at h
  · cases h
  next st hst =>
    split at h
    · cases h
    next w hw =>
      split at h
      · rename_i hgates
        obtain ⟨-, hatt, -, hwait⟩ := gatesOpen_iff.1 hgates
        exact ⟨st, w, hst, hw, hatt, hwait⟩
      · cases h

theorem easy_deliver (h : s.nextDelivery a = some o) : Easy s (s.deliver a o) := by
  refine Easy.trans (Easy.trans (easy_activate a o.slab o.index
    (CutOrder.delivered (deliveredFeedUnder s.water.mode o.requestedFeed s.constants.conserveFeed) s.constants.kerf)
    (fun _ => rfl) (fun hb _ st hst ha => ?_))
    (easy_setSaw a (Saw.noteDelivery o.slab o.index) (fun _ => rfl) (fun _ => rfl) _)) (easy_produceB _ _)
  obtain ⟨z, w, hz, hw, hatt, hwait⟩ := nextDelivery_spec h
  obtain ⟨hzmem, hza⟩ := findBy_some _ hz
  obtain rfl : st = z := rising_unique Station.address hb.stations.1 hst hzmem (ha.trans hza.symm)
  have hq : queueOf st = w.queue := by unfold queueOf; rw [hw]
  exact ⟨hatt, hq ▸ hwait⟩

theorem easy_evaluate (a : Nat) (s : State) : Easy s (evaluate a s) := by
  have hused : Easy s { s with presented := s.presented.erase a } := easy_of_same (keeps_presented _) rfl rfl rfl rfl
  unfold evaluate
  split
  · dsimp only
    split
    · exact hused
    · rename_i o ho
      exact hused.trans ((easy_deliver ho).trans (easy_flush _))
  · exact .refl s

/-! ## Restarts and pins -/

theorem identity_suspended (o : CutOrder) : identity o.suspended = identity o := by
  unfold CutOrder.suspended
  cases h : o.state <;> simp [identity]

theorem suspended_idle (o : CutOrder) : o.suspended.state = .waiting ∨ o.suspended.state = .inDoubt := by
  unfold CutOrder.suspended
  cases h : o.state <;> simp [h]

theorem suspended_active (o : CutOrder) (h : o.suspended.state.isActive = true) : o.state.isActive = true := by
  refine isActive_of_ne (fun hw => ?_)
  unfold CutOrder.suspended at h
  rw [hw] at h
  dsimp only at h
  rw [hw] at h
  cases h

theorem queueOf_restarted (st : Station) : queueOf st.restarted = (queueOf st).map CutOrder.suspended := by
  unfold queueOf Station.restarted
  cases st.saw <;> rfl

theorem easy_restartStations (s : State) : Easy s s.restartStations := by
  refine easy_of_stations (g := Station.restarted) keeps_restartStations rfl rfl rfl rfl (fun st => ⟨?_, ?_⟩)
    (fun _ ho st hst => ?_)
  · unfold bedAt Station.restarted
    cases st.saw <;> rfl
  · rw [queueOf_restarted, List.map_map]
    exact List.map_congr_left (fun o _ => identity_suspended o)
  · exact stationOrderly_of_map (ho.1 st hst) rfl (queueOf_restarted st) (fun o => (congrArg CutOrder.saw (identity_suspended o) :))
      (fun o _ => suspended_active o) (fun _ o _ => suspended_idle o)

theorem easy_assertReset (s : State) : Easy s s.assertReset := by
  have hq (st : Station) : queueOf st.stopTimers = queueOf st := by
    unfold queueOf Station.stopTimers
    cases st.saw <;> rfl
  refine easy_of_stations (g := Station.stopTimers) keeps_assertReset rfl rfl rfl rfl (fun st => ⟨?_, by rw [hq]⟩)
    (fun _ ho st hst => stationOrderly_of_sublist (ho.1 st hst) rfl id (hq st ▸ List.Sublist.refl _))
  unfold bedAt Station.stopTimers
  cases st.saw <;> rfl

/-! ## Station loads -/

theorem queueOf_reload (q : StationLoad) (st : Station) : queueOf (st.reload q) = queueOf st := by
  unfold queueOf Station.reload
  cases st.saw <;> cases q.saw <;> rfl

theorem bedAt_reload (q : StationLoad) (st : Station) : bedAt (st.reload q) = bedAt st := by
  unfold bedAt Station.reload
  cases st.saw <;> cases q.saw <;> rfl

/-- An entry without orders and without a slab. -/
def Unused (st : Station) : Prop := queueOf st = [] ∧ ∀ w ∈ st.saw, w.bed = none

theorem unused_newStation (q : StationLoad) : Unused (newStation q.address q.side q.cls q.tier q.saw) := by
  unfold Unused queueOf newStation
  cases q.saw with
  | none => exact ⟨rfl, fun w hw => by cases hw⟩
  | some g => exact ⟨rfl, fun w hw => by cases hw; rfl⟩

theorem unused_of_inUseCheck {old : Station} (h : inUseCheck s old = none) : Unused old := by
  unfold inUseCheck at h
  obtain ⟨-, h⟩ := or_none h
  obtain ⟨hqueue, h⟩ := or_none h
  obtain ⟨hbed, -⟩ := or_none h
  have hqueue := checkThat_none hqueue
  have hbed := checkThat_none hbed
  unfold Unused queueOf
  cases hw : old.saw with
  | none => exact ⟨rfl, fun w hw => by cases hw⟩
  | some w =>
    rw [hw] at hqueue hbed
    exact ⟨List.isEmpty_iff.1 hqueue, fun v hv => by cases hv; exact Option.isNone_iff_eq_none.1 hbed⟩

theorem orderly_of_unused (h : Unused st) : st.Orderly := by
  rw [stationOrderly_iff, h.1]
  exact ⟨by simp, by simp, by simp⟩

theorem not_bedded_of_unused (h : Unused st) {n : Nat} : ¬ ∃ w, st.saw = some w ∧ w.bed = some n := by
  rintro ⟨w, hw, hn⟩
  rw [h.2 w hw] at hn
  cases hn

/-- A change of the station table that leaves every order and every bed. -/
theorem calm_of_stations (hp : t.placements = s.placements) (hx : t.slabs = s.slabs) (hj : t.jobs = s.jobs)
    (horders : t.orders = s.orders) (hbeds : ∀ a n, Bedded t a n ↔ Bedded s a n) (ho : ∀ st ∈ t.stations, st.Orderly) : Calm s t :=
  ⟨hp, hx, hj ▸ .refl _, by rw [horders], hbeds, ho⟩

theorem flatMap_insertBy {x : Station} (hx : queueOf x = []) (l : List Station) :
    (insertBy Station.address x l).flatMap queueOf = l.flatMap queueOf := by
  induction l with
  | nil => simp [insertBy, hx]
  | cons z l ih =>
    rw [insertBy]
    split
    · simp [hx]
    · simp [ih]

theorem calm_addStation {x : Station} (ho : s.Orderly) (hx : Unused x) : Calm s (s.addStation x) := by
  refine calm_of_stations (t := s.addStation x) rfl rfl rfl (flatMap_insertBy hx.1 s.stations) (fun a n => ⟨?_, ?_⟩)
    (fun st hst => ?_)
  · rintro ⟨st, hst, ha, hbed⟩
    rcases (mem_insertBy _ _ _ _).1 hst with rfl | hst
    · exact absurd hbed (not_bedded_of_unused hx)
    · exact ⟨st, hst, ha, hbed⟩
  · rintro ⟨st, hst, h⟩
    exact ⟨st, (mem_insertBy _ _ _ _).2 (.inr hst), h⟩
  · rcases (mem_insertBy _ _ _ _).1 hst with rfl | hst
    · exact orderly_of_unused hx
    · exact ho.1 st hst

/-- The one entry at an address. -/
theorem eq_of_station? {old : Station} (hb : s.Bounded) (hold : s.station? a = some old) (hst : st ∈ s.stations)
    (ha : st.address = a) : st = old := by
  obtain ⟨hmem, haddr⟩ := findBy_some _ hold
  exact rising_unique Station.address hb.stations.1 hst hmem (ha.trans haddr.symm)

theorem calm_replaceStation {old x : Station} (hb : s.Bounded) (ho : s.Orderly) (hold : s.station? a = some old)
    (hu : Unused old) (hx : Unused x) : Calm s (s.modifyStation a (fun _ => x)) := by
  have hmap : (s.modifyStation a (fun _ => x)).stations = s.stations.map (fun st => if st.address = a then x else st) := rfl
  have horders : (s.modifyStation a (fun _ => x)).orders = s.orders := by
    rw [orders_eq, orders_eq, hmap, List.flatMap_map]
    refine List.flatMap_congr (fun st hst => ?_)
    by_cases ha : st.address = a
    · rw [if_pos ha, hx.1, eq_of_station? hb hold hst ha, hu.1]
    · rw [if_neg ha]
  refine calm_of_stations (t := s.modifyStation a (fun _ => x)) rfl rfl rfl horders (fun b n => ⟨?_, ?_⟩) (fun y hy => ?_)
  · rintro ⟨y, hy, hb', hbed⟩
    rw [hmap] at hy
    obtain ⟨st, hst, rfl⟩ := List.mem_map.1 hy
    split at hbed
    · exact absurd hbed (not_bedded_of_unused hx)
    · rename_i ha
      rw [if_neg ha] at hb'
      exact ⟨st, hst, hb', hbed⟩
  · rintro ⟨st, hst, hb', hbed⟩
    have ha : st.address ≠ a := fun ha => by
      rw [eq_of_station? hb hold hst ha] at hbed
      exact not_bedded_of_unused hu hbed
    exact ⟨st, hmap ▸ List.mem_map.2 ⟨st, hst, if_neg ha⟩, hb', hbed⟩
  · rw [hmap] at hy
    obtain ⟨st, hst, rfl⟩ := List.mem_map.1 hy
    split
    · exact orderly_of_unused hx
    · exact ho.1 st hst

theorem calm_freeStation {old : Station} (hb : s.Bounded) (ho : s.Orderly) (hold : s.station? a = some old)
    (hu : Unused old) : Calm s (s.freeStation a) := by
  have hmem {st : Station} : st ∈ (s.freeStation a).stations ↔ st ∈ s.stations ∧ st.address ≠ a := mem_eraseBy _
  have horders : (s.freeStation a).orders = s.orders := by
    rw [orders_eq, orders_eq]
    show (s.stations.filter (fun st => decide (st.address ≠ a))).flatMap queueOf = _
    have hkeep (l : List Station) (hl : ∀ st ∈ l, st.address = a → queueOf st = []) :
        (l.filter (fun st => decide (st.address ≠ a))).flatMap queueOf = l.flatMap queueOf := by
      induction l with
      | nil => rfl
      | cons z l ih =>
        have ih := ih (fun st hst => hl st (List.mem_cons_of_mem _ hst))
        by_cases hz : z.address = a
        · rw [List.filter_cons_of_neg (by simp [hz]), ih, List.flatMap_cons, hl z List.mem_cons_self hz, List.nil_append]
        · rw [List.filter_cons_of_pos (by simp [hz]), List.flatMap_cons, List.flatMap_cons, ih]
    exact hkeep s.stations (fun st hst ha => by rw [eq_of_station? hb hold hst ha, hu.1])
  refine calm_of_stations (t := s.freeStation a) rfl rfl rfl horders (fun b n => ⟨?_, ?_⟩) (fun y hy => ho.1 y (hmem.1 hy).1)
  · rintro ⟨y, hy, h⟩
    exact ⟨y, (hmem.1 hy).1, h⟩
  · rintro ⟨y, hy, hb', hbed⟩
    refine ⟨y, hmem.2 ⟨hy, fun ha => ?_⟩, hb', hbed⟩
    rw [eq_of_station? hb hold hy ha] at hbed
    exact not_bedded_of_unused hu hbed

end

end Sys2Proof.Proofs
end

