-- ==== Sys2Proof/Proofs/Survival.lean ====
section
/-! SUPPORT. A property that the calm changes and each change of a table keep is kept by every command. -/

namespace Sys2Proof.Proofs

open Sys2Proof Sys2Proof.Config Sys2Proof.Machine

/-! ## Orders taken off -/

section
variable {s t : State} {o y : CutOrder} {st : Station}

theorem queueOf_removeOrder (o : CutOrder) (st : Station) : queueOf (st.mapSaw (Saw.removeOrder o))
    = (queueOf st).filter (fun y => decide (¬ (y.slab = o.slab ∧ y.index = o.index))) := by
  rw [queueOf_mapSaw]
  unfold queueOf
  cases st.saw with
  | none => rfl
  | some w =>
    show (Saw.removeOrder o w).queue = _
    rw [removeOrder_eq]

/-- An order taken off its saw's queue is the only one gone. -/
theorem orders_removeOrder (h : s.Orderly) (ho : o ∈ s.orders)
    (ht : t.stations = (s.modifySaw o.saw (Saw.removeOrder o)).stations) :
    t.orders = s.orders.filter (fun y => decide (¬ (y.slab = o.slab ∧ y.index = o.index))) := by
  have hmap : t.stations = s.stations.map (fun st => if st.address = o.saw then st.mapSaw (Saw.removeOrder o) else st) := ht
  rw [orders_eq, orders_eq, hmap, List.flatMap_map, List.filter_flatMap]
  refine List.flatMap_congr (fun st hst => ?_)
  by_cases ha : st.address = o.saw
  · rw [if_pos ha, queueOf_removeOrder]
  · rw [if_neg ha]
    refine (List.filter_eq_self.2 (fun y hy => ?_)).symm
    have hno : ¬ (y.slab = o.slab ∧ y.index = o.index) := fun hsame => ha ?_
    · exact decide_eq_true hno
    have hyo : y = o := order_unique (ordersApart_of_orderly h) ((queueOf_sublist hst).subset hy) ho hsame
    rw [← hyo]
    exact ((stationOrderly_iff.1 (h.1 st hst)).1 y hy).symm

theorem shedOrder_stations (o : CutOrder) (s : State) :
    (s.shedOrder o).stations = (s.modifySaw o.saw (Saw.removeOrder o)).stations := by
  have hplans : (s.returnPlacement o.slab o.index).stations = s.stations :=
    (congrArg State.stations (returnPlacement_exceptPlans o.slab o.index s) :)
  unfold State.shedOrder State.removeOrder
  rw [dropOpenOrder_stations]
  show modifyBy _ _ _ (s.returnPlacement o.slab o.index).stations = _
  rw [hplans]
  rfl

theorem shedOrder_slabs (o : CutOrder) (s : State) : (s.shedOrder o).slabs = s.slabs := by
  unfold State.shedOrder State.removeOrder
  rw [dropOpenOrder_eq]
  exact returnPlacement_slabs _ _ s

theorem mem_orders_shedOrder (h : s.Orderly) (ho : o ∈ s.orders) : y ∈ (s.shedOrder o).orders ↔ y ∈ s.orders ∧ ¬ y.same o := by
  rw [orders_removeOrder h ho (shedOrder_stations o s), List.mem_filter, decide_eq_true_iff]
  rfl

/-- An order on its saw's queue is an order. -/
theorem mem_orders_of_saw? {a : Nat} {w : Saw} (hw : s.saw? a = some w) (ho : o ∈ w.queue) : o ∈ s.orders := by
  obtain ⟨st, hst, hsaw⟩ := Option.bind_eq_some_iff.1 hw
  exact mem_orders_of_saw (findBy_some _ hst).1 hsaw ho

theorem mem_orders_of_held {a slab index : Nat} (h : s.heldOrder a slab index = some o) : o ∈ s.orders := by
  obtain ⟨w, hw, hact, -⟩ := heldOrder_spec h
  exact mem_orders_of_saw? hw (active_mem hact)

end

/-! ## What a property must survive -/

/-- A completed DONE order, before the closing of its job (R87, R88). -/
def cutDone (c : Cause) (w : SawConfig) (o : CutOrder) (n : Nat) (s : State) : State :=
  ((s.completionCharges c w o .done n).2.placeOutcome o .done).removeOrder o.saw o

/-- A property of states that survives the calm changes and each change of a table. `C` is what a slab must be to be
settled. -/
structure Survives (P : State → Prop) (C : Slab → Prop) : Prop where
  bounded : ∀ {s : State}, P s → s.Bounded
  orderly : ∀ {s : State}, P s → s.Orderly
  pending : ∀ {s : State} (l : List Instr), P s → P { s with pending := l }
  calm : ∀ {s t : State}, t.Bounded → Calm s t → P s → P t
  reset : ∀ (s : State) (n : Nat) (r : ResetReport), P (s.plainReset n r)
  stock : ∀ {x : Slab}, x.state.isStock = true → C x
  ordered : ∀ {s : State} {o : CutOrder} {x : Slab}, P s → o ∈ s.orders → s.slab? o.slab = some x → C x
  lock : ∀ {s : State} (a : Nat) (l : Option LockReason), P s → P (s.modifySlab a (fun z => { z with lock := l }))
  basis : ∀ {s : State} {a v : Nat} {x : Slab}, s.slab? a = some x → x.allocated = 0 → x.cutMark = false → x.state.isStock = true →
    P s → P (s.modifySlab a (fun z => { z with basis := v }))
  defect : ∀ {s : State} {a : Nat} {x : Slab} {r : Rect}, s.slab? a = some x → x.state.isStock = true →
    x.defects.length < maxDefects → s.orderedConflict a r = none → s.committedConflict a r = none → P s →
    P ((List.range maxPerSlab).foldl (dropMet a r)
      (0, s.modifySlab a (fun z => { z with defects := z.defects ++ [r] }))).2
  enter : ∀ {s : State} {a m t l w b : Nat} {ds : List Rect}, s.slab? a = none → s.slabs.length < maxSlabs →
    ds.length ≤ maxDefects → P s → P (s.addSlab (enteredSlab a m t l w b ds))
  rack : ∀ {s : State} {x : Slab} (p : RackPosition), s.slab? x.id = some x → x.state.isStock = true → x.state ≠ .staged →
    P s → P (s.modifySlab x.id (fun z => { z with state := .racked, rack := some p }))
  unrack : ∀ {s : State} {x : Slab} (p : RackPosition), s.slab? x.id = some x → x.state = .staged →
    P s → P ((s.clearBed x.id).modifySlab x.id (fun z => { z with state := .racked, rack := some p }))
  bed : ∀ {s : State} {x : Slab} {a : Nat} {w : Saw}, s.slab? x.id = some x → x.state.isStock = true → s.saw? a = some w →
    ¬ (x.state = .staged ∧ x.bed = some a) → P s → P (s.putOnBed x a w.bed)
  unbed : ∀ {s : State} {x : Slab}, s.slab? x.id = some x → x.state = .staged →
    P s → P ((s.clearBed x.id).modifySlab x.id (fun z => { z with state := .received, rack := none }))
  away : ∀ {s : State} {x : Slab}, s.slab? x.id = some x → x.state.isSettled = true →
    P s → P ((s.clearBed x.id).modifySlab x.id (fun z => { z with rack := none }))
  retire : ∀ {s : State} {a : Nat} {x : Slab}, s.slab? a = some x → x.state.isSettled = true → x.bed = none → P s →
    P (({ s with placements := s.placements.filter (fun p => decide (p.slab ≠ a)) } : State).freeSlab a)
  place : ∀ {s : State} {a k j pp pi rs i : Nat} {r : Rect} {q : PlaceRequest} {x : Slab},
    placeForm a k r j pp pi rs = some q → placeCheck s q = none → s.slab? a = some x → s.freeIndex a = some i → P s →
    P ((s.addPlacement (q.entry i s.constants.kerf)).reserveRemnant x q)
  remove : ∀ {s : State} {a i : Nat} {p : Placement}, s.placement? a i = some p → p.state = .planned →
    P s → P (s.removePlacement p).2
  settle : ∀ {s : State} {c : Cause} {e : Ending} {x : Slab}, s.slab? x.id = some x → C x → x.state.isSettled = false →
    (∀ o ∈ s.orders, o.slab ≠ x.id) → P s → P (s.settle c e x).2
  admitted : ∀ {s : State} {dst slab index : Nat} {job : Option Nat} {p : Placement} {w : Saw} (f : Nat),
    admissionCheck s dst job slab index = none → s.placement? slab index = some p → s.saw? dst = some w → P s →
    P (s.admitOrder p dst f)
  takeBack : ∀ {s : State} {o : CutOrder}, o ∈ s.orders → P s → P (s.shedOrder o)
  done : ∀ {s : State} {o : CutOrder} (c : Cause) (w : SawConfig) (n : Nat), o ∈ s.orders → P s → P (cutDone c w o n s)
  jobOpen : ∀ {s : State} {n : Nat}, s.job? n = none → s.jobs.length < maxJobs → P s → P (s.addJob (newJob n))
  takeBill : ∀ {s : State} {b : Nat} {rest : List Nat}, s.bills = b :: rest → P s →
    P (({ s with bills := rest } : State).freeJob b)

/-- A block that keeps a property. -/
def BlockSurvives (P : State → Prop) (b : Block) : Prop := ∀ s, P s → P (b s).2

section
variable {P : State → Prop} {C : Slab → Prop} {s t : State} {o : CutOrder}

theorem Survives.easy (hP : Survives P C) (h : Easy s t) (hs : P s) : P t :=
  hP.calm (h.keeps.2 (hP.bounded hs)) (h.calm (hP.bounded hs) (hP.orderly hs)) hs

theorem survives_of_easy (hP : Survives P C) {b : Block} (h : ∀ s, Easy s (b s).2) : BlockSurvives P b :=
  fun s hs => hP.easy (h s) hs

theorem survives_unlessFails {c : Check} {b : Block} (hs : P s) (h : c = none → P (b s).2) : P (unlessFails c b s).2 := by
  unfold unlessFails
  cases c with
  | none => exact h rfl
  | some d => exact hs

theorem survives_fromAttached {h : Header} {b : Block} (hb : BlockSurvives P b) : BlockSurvives P (fromAttached h b) := by
  intro s hs
  unfold fromAttached
  split
  · exact hs
  · split
    · exact hb s hs
    · exact hs

theorem survives_ite {c : Prop} [Decidable c] {a b : Reply × State} (ha : c → P a.2) (hb : ¬ c → P b.2) :
    P (if c then a else b).2 := by
  split
  · exact ha ‹_›
  · exact hb ‹_›

/-- Orders taken off in turn, each by the operation `f`, which beyond that is calm. -/
theorem Survives.foldl_takeBack (hP : Survives P C) {f : State → CutOrder → State} (hf : ∀ s o, Easy (s.shedOrder o) (f s o))
    (hst : ∀ s o, (f s o).stations = (s.shedOrder o).stations) (L : List CutOrder) (hs : P s) (hL : ∀ o ∈ L, o ∈ s.orders)
    (hd : L.Pairwise (fun a b => ¬ a.same b)) :
    P (L.foldl f s) ∧ ∀ y, y ∈ (L.foldl f s).orders ↔ y ∈ s.orders ∧ ∀ o ∈ L, ¬ y.same o := by
  induction L generalizing s with
  | nil => exact ⟨hs, fun y => by simp⟩
  | cons o L ih =>
    obtain ⟨hne, hd⟩ := List.pairwise_cons.1 hd
    have ho : o ∈ s.orders := hL o List.mem_cons_self
    have hmem (y : CutOrder) : y ∈ (f s o).orders ↔ y ∈ s.orders ∧ ¬ y.same o := by
      rw [orders_of_stations (hst s o)]
      exact mem_orders_shedOrder (hP.orderly hs) ho
    obtain ⟨hrest, horders⟩ := ih (hP.easy (hf s o) (hP.takeBack ho hs))
      (fun y hy => (hmem y).2 ⟨hL y (List.mem_cons_of_mem _ hy), fun h => hne y hy ⟨h.1.symm, h.2.symm⟩⟩) hd
    refine ⟨hrest, fun y => (horders y).trans ?_⟩
    rw [hmem y, List.forall_mem_cons, and_assoc]

/-! ## Completions -/

theorem Survives.restartFloor (hP : Survives P C) (hs : P s) : P s.restartFloor := by
  have hshed : P s.shed := by
    refine (hP.foldl_takeBack (f := State.shedOrder) (fun s o => .refl _) (fun _ _ => rfl) s.waitingOrders hs
      (fun o ho => (mem_waitingOrders.1 ho).1) ?_).1
    exact (ordersApart_of_orderly (hP.orderly hs)).filter _
  exact hP.easy (easy_restartStations _) (hP.easy (easy_closeAllReady _) hshed)

/-- The orders of a slab whose order was just taken off are its saw's orders of the slab. -/
theorem mem_ordersOn {a slab : Nat} {y : CutOrder} (hb : s.Bounded) (h : s.Orderly) :
    y ∈ s.ordersOn a slab ↔ y ∈ s.orders ∧ y.slab = slab ∧ y.saw = a := by
  unfold State.ordersOn
  constructor
  · cases hw : s.saw? a with
    | none => intro hy; cases hy
    | some w =>
      intro hy
      obtain ⟨hq, hslab⟩ := List.mem_filter.1 hy
      exact ⟨mem_orders_of_saw? hw hq, of_decide_eq_true hslab, saw_of_queue h hw hq⟩
  · rintro ⟨hy, hslab, hsaw⟩
    obtain ⟨st, hst, hq⟩ := mem_orders.1 hy
    obtain ⟨w, hw, hyw⟩ := mem_queueOf.1 hq
    have haddr : st.address = a := ((stationOrderly_iff.1 (h.1 st hst)).1 y hq).symm.trans hsaw
    have hfound : s.saw? a = some w := by
      unfold State.saw? State.station?
      rw [← haddr, findBy_eq Station.address hb.stations.1 hst]
      exact hw
    rw [hfound]
    exact List.mem_filter.2 ⟨hyw, decide_eq_true hslab⟩

theorem ordersOn_apart {a slab : Nat} (h : s.Orderly) : (s.ordersOn a slab).Pairwise (fun a b => ¬ a.same b) := by
  unfold State.ordersOn
  cases hw : s.saw? a with
  | none => exact List.Pairwise.nil
  | some w =>
    obtain ⟨st, hst, hsaw⟩ := Option.bind_eq_some_iff.1 hw
    have hq : queueOf st = w.queue := by unfold queueOf; rw [hsaw]
    exact (hq ▸ queueOf_apart h (findBy_some _ hst).1).filter _

/-- R87 step 6, R125: the slab's other orders are taken off and the slab is settled. -/
theorem Survives.breakSlab (hP : Survives P C) (c : Cause) (hs : P s) (hone : ∀ y ∈ s.orders, y.slab = o.slab → y.saw = o.saw)
    (hC : ∀ x, s.slab? o.slab = some x → C x ∧ x.state.isSettled = false) : P (s.breakSlab c o) := by
  have hraised : P (s.raise (brokenFault o)) := hP.easy (easy_raise _ s) hs
  have horders : (s.raise (brokenFault o)).orders = s.orders := orders_of_stations (State.raise_stations _ _)
  obtain ⟨hsib, hmem⟩ := hP.foldl_takeBack (f := State.returnSibling) (fun s o => easy_notify _ _) (fun _ _ => rfl)
    ((s.raise (brokenFault o)).ordersOn o.saw o.slab) hraised
    (fun y hy => ((mem_ordersOn (hP.bounded hraised) (hP.orderly hraised)).1 hy).1) (ordersOn_apart (hP.orderly hraised))
  have hnone : ∀ y ∈ (((s.raise (brokenFault o)).ordersOn o.saw o.slab).foldl State.returnSibling (s.raise (brokenFault o))).orders,
      y.slab ≠ o.slab := by
    intro y hy hslab
    obtain ⟨hys, hno⟩ := (hmem y).1 hy
    exact hno y ((mem_ordersOn (hP.bounded hraised) (hP.orderly hraised)).2
      ⟨hys, hslab, hone y (horders ▸ hys) hslab⟩) ⟨rfl, rfl⟩
  have hslabs : (((s.raise (brokenFault o)).ordersOn o.saw o.slab).foldl State.returnSibling (s.raise (brokenFault o))).slabs
      = s.slabs := by
    refine (foldl_frame (m := State.slabs) (f := State.returnSibling) (fun u y => ?_) _ _).trans (State.raise_slabs _ _)
    exact shedOrder_slabs y u
  unfold State.breakSlab
  dsimp only
  split
  · exact hsib
  next x hx =>
    have hid : x.id = o.slab := (findBy_some _ hx).2
    have hold : s.slab? o.slab = some x := by
      unfold State.slab? at hx ⊢
      rw [← hslabs]
      exact hx
    obtain ⟨hCx, hun⟩ := hC x hold
    exact hP.settle (hid ▸ hx) hCx hun (hid ▸ hnone) hsib

theorem settled_not_ordered (h : s.Orderly) (ho : o ∈ s.orders) {x : Slab} (hx : s.slab? o.slab = some x) :
    x.state.isSettled = false := by
  obtain ⟨-, -, -, -, -, hsettled, -⟩ := h
  obtain ⟨hmem, hid⟩ := findBy_some _ hx
  by_contra hne
  exact hsettled x hmem (Bool.not_eq_false _ ▸ hne) o ho hid.symm

/-- The charges of a completion that makes no material leave its order. -/
theorem Survives.charged (hP : Survives P C) (c : Cause) (w : SawConfig) {oc : Outcome3} {n : Nat} (hoc : oc ≠ .done)
    (ho : o ∈ s.orders) (hs : P s) :
    P (s.completionCharges c w o oc n).2 ∧ o ∈ (s.completionCharges c w o oc n).2.orders := by
  have hst : (s.completionCharges c w o oc n).2.stations = s.stations :=
    (congrArg State.stations (completionCharges_exceptTables c w o oc n s) :)
  refine ⟨hP.easy (easy_completionCharges hoc s) hs, ?_⟩
  rw [orders_of_stations hst]
  exact ho

/-- A completion of an order, whatever its outcome (R87). -/
theorem Survives.complete (hP : Survives P C) (c : Cause) (w : SawConfig) (oc : Outcome3) (n : Nat) (ho : o ∈ s.orders)
    (hs : P s) : P (s.complete c w o oc n).2 := by
  have hsec : P (s.modifySaw o.saw (Saw.addSeconds n)) :=
    hP.easy (easy_setSaw o.saw (Saw.addSeconds n) (fun _ => rfl) (fun _ => rfl) s) hs
  have hsame : (s.modifySaw o.saw (Saw.addSeconds n)).orders = s.orders := by
    rw [orders_eq, orders_eq]
    show (s.stations.map _).flatMap queueOf = _
    rw [List.flatMap_map]
    refine List.flatMap_congr (fun st _ => ?_)
    split
    · exact queueOf_mapSaw_same (f := Saw.addSeconds n) (fun _ => rfl) st
    · rfl
  have ho' : o ∈ (s.modifySaw o.saw (Saw.addSeconds n)).orders := hsame ▸ ho
  cases oc with
  | done =>
    show P (State.closeOf o.job (cutDone c w o n (s.modifySaw o.saw (Saw.addSeconds n))))
    exact hP.easy (easy_closeOf _ _) (hP.done c w n ho' hsec)
  | abandoned =>
    obtain ⟨hcharged, hoq⟩ := hP.charged c w (oc := .abandoned) (n := n) (by decide) ho' hsec
    exact hP.easy (easy_closeOf _ _) (hP.takeBack hoq hcharged)
  | broke =>
    obtain ⟨hcharged, hoq⟩ := hP.charged c w (oc := .broke) (n := n) (by decide) ho' hsec
    refine hP.easy (easy_closeAllReady _) (hP.breakSlab c (hP.takeBack hoq hcharged) (fun y hy hslab => ?_) (fun x hx => ?_))
    · obtain ⟨-, -, hone, -⟩ := hP.orderly hcharged
      exact hone y ((mem_orders_shedOrder (hP.orderly hcharged) hoq).1 hy).1 o hoq hslab
    · have hx' : (((s.modifySaw o.saw (Saw.addSeconds n)).completionCharges c w o .broke n).2).slab? o.slab = some x := by
        refine Eq.trans ?_ hx
        exact congrArg (findBy Slab.id o.slab) (shedOrder_slabs o _).symm
      exact ⟨hP.ordered hcharged hoq hx', settled_not_ordered (hP.orderly hcharged) hoq hx'⟩

end

end Sys2Proof.Proofs
end

