-- ==== Sys2Proof/Proofs/Walk.lean ====
section
/-! SUPPORT. Every command keeps a property that survives: block by block, announces, timers, pins and the tick. -/

namespace Sys2Proof.Proofs

open Sys2Proof Sys2Proof.Config Sys2Proof.Machine

section
variable {P : State → Prop} {C : Slab → Prop} {s t : State} {o : CutOrder}

/-! ## Slab stock -/

theorem survives_onEditable (a : Nat) {b : Slab → Block} (hb : ∀ x s, s.slab? a = some x → P s → P (b x s).2) :
    BlockSurvives P (onEditable a b) := by
  intro s hs
  unfold onEditable
  split
  · exact hs
  · split
    · exact hs
    · exact hb _ s ‹_› hs

theorem Survives.slabLock (hP : Survives P C) (a r : Nat) : BlockSurvives P (slabLock a r) := by
  intro s hs
  unfold Machine.slabLock
  split
  · exact hs
  next l _ =>
    refine survives_onEditable a (fun x s _ hs => ?_) s hs
    exact survives_ite (fun _ => hs) (fun _ => hP.easy (easy_presentBed x _) (hP.lock a (some l) hs))

theorem Survives.slabUnlock (hP : Survives P C) (a : Nat) : BlockSurvives P (slabUnlock a) := by
  refine survives_onEditable a (fun x s _ hs => ?_)
  dsimp only
  split
  · exact hP.easy (easy_presentBed x _) (hP.lock a none hs)
  · exact hs

theorem Survives.slabSetBasis (hP : Survives P C) (a v : Nat) : BlockSurvives P (slabSetBasis a v) := by
  refine survives_onEditable a (fun x s hx hs => ?_)
  refine survives_ite (fun _ => hs) (fun hst => survives_ite (fun _ => hs) (fun _ => survives_ite (fun _ => hs) (fun hfix => ?_)))
  push Not at hfix
  exact hP.basis hx hfix.1 (Bool.eq_false_iff.2 hfix.2) (Bool.not_eq_false _ ▸ hst) hs

theorem Survives.slabAddDefect (hP : Survives P C) (a : Nat) (r : Rect) : BlockSurvives P (slabAddDefect a r) := by
  refine survives_onEditable a (fun x s hx hs => ?_)
  dsimp only
  split
  · exact hs
  next hst =>
    split
    · exact hs
    split
    · exact hs
    next hlen =>
      split
      · exact hs
      next hordered =>
        split
        · exact hs
        next hcommitted =>
          have hstock : x.state.isStock = true := Bool.not_eq_false _ ▸ hst
          have hroom : x.defects.length < maxDefects := Nat.lt_of_not_le hlen
          have hgrown := hP.defect hx hstock hroom hordered hcommitted hs
          dsimp only
          exact hgrown

theorem Survives.slabEnter (hP : Survives P C) (a m t l w b : Nat) (ds : List Rect) : BlockSurvives P (slabEnter a m t l w b ds) := by
  intro s hs
  refine survives_ite (fun _ => hs) (fun hform => survives_ite (fun _ => hs) (fun hdup => survives_ite (fun _ => hs) (fun hfull => ?_)))
  refine hP.enter ?_ (Nat.lt_of_not_le hfull) ?_ hs
  · simpa using hdup
  · simp only [slabEnterForm, Bool.and_eq_true, decide_eq_true_eq, Bool.not_eq_false] at hform
    exact hform.1.2

theorem Survives.onScan (hP : Survives P C) (h : Header) (e a rk sl : Nat) {b : Slab → Block}
    (hb : ∀ x s, s.slab? x.id = some x → P s → P (b x s).2) : BlockSurvives P (onScan h e a rk sl b) := by
  intro s hs
  refine survives_ite (fun _ => hs) (fun _ => ?_)
  split
  · exact hP.easy (easy_raise _ s) hs
  next x hx =>
    refine survives_ite (fun _ => hP.easy (easy_raise _ s) hs) (fun _ => ?_)
    obtain rfl : x.id = a := (findBy_some _ hx).2
    exact hb x s hx hs

theorem Survives.scanToRack (hP : Survives P C) (rk sl : Nat) {x : Slab} (hx : s.slab? x.id = some x) (hs : P s) :
    P (scanToRack rk sl x s).2 := by
  refine survives_ite (fun _ => hs) (fun hst => ?_)
  split
  · rename_i hstaged
    refine survives_ite (fun _ => hs) (fun _ => ?_)
    exact hP.easy (easy_presentBed x _) (hP.unrack ⟨rk, sl⟩ hx hstaged hs)
  · rename_i hstaged
    exact hP.rack ⟨rk, sl⟩ hx (Bool.not_eq_false _ ▸ hst) hstaged hs

theorem slab?_raise (r : FaultRecord) (n : Nat) (s : State) : (s.raise r).slab? n = s.slab? n :=
  congrArg (findBy Slab.id n) (State.raise_slabs s r)

theorem saw?_raise (r : FaultRecord) (n : Nat) (s : State) : (s.raise r).saw? n = s.saw? n :=
  congrArg (fun l => (findBy Station.address n l).bind Station.saw) (State.raise_stations s r)

theorem Survives.scanToBed (hP : Survives P C) (h : Header) (a : Nat) {x : Slab} (hx : s.slab? x.id = some x) (hs : P s) :
    P (scanToBed h a x s).2 := by
  refine survives_ite (fun _ => hs) (fun hst => ?_)
  split
  · exact hs
  next w hw =>
    refine survives_ite (fun _ => hs) (fun hhere => survives_ite (fun _ => hs) (fun _ => ?_))
    have hstock : x.state.isStock = true := Bool.not_eq_false _ ▸ hst
    split
    · rename_i hbed
      exact hbed ▸ hP.bed hx hstock hw hhere hs
    next y hbed =>
      have hraised {r : FaultRecord} : P (s.raise r) := hP.easy (easy_raise r s) hs
      refine survives_ite (fun _ => hraised) (fun _ => ?_)
      exact hbed ▸ hP.bed ((slab?_raise _ _ s).trans hx) hstock ((saw?_raise _ _ s).trans hw) hhere hraised

theorem Survives.scanOffBed (hP : Survives P C) {x : Slab} (hx : s.slab? x.id = some x) (hs : P s) : P (scanOffBed x s).2 := by
  refine survives_ite (fun _ => hs) (fun hst => survives_ite (fun _ => hs) (fun _ => ?_))
  exact hP.easy (easy_presentBed x _) (hP.unbed hx (not_not.1 hst) hs)

theorem Survives.scanAway (hP : Survives P C) (h : Header) {x : Slab} (hx : s.slab? x.id = some x) (hs : P s) :
    P (scanAway h x s).2 := by
  refine survives_ite (fun _ => hP.easy (easy_raise _ s) hs) (fun hst => ?_)
  exact hP.easy (easy_presentBed x _) (hP.away hx (Bool.not_eq_false _ ▸ hst) hs)

theorem Survives.slabRetire (hP : Survives P C) (a : Nat) : BlockSurvives P (slabRetire a) := by
  intro s hs
  unfold Machine.slabRetire
  split
  · exact hs
  next x hx =>
    refine survives_ite (fun _ => hs) (fun hst => survives_ite (fun _ => hs) (fun hbed => ?_))
    exact hP.retire hx (Bool.not_eq_false _ ▸ hst) (by simpa using hbed) hs

/-! ## Plans -/

theorem Survives.placeBlock (hP : Survives P C) (a k : Nat) (r : Rect) (j pp pi rs : Nat) :
    BlockSurvives P (Machine.place a k r j pp pi rs) := by
  intro s hs
  unfold Machine.place
  split
  · exact hs
  next q hq =>
    refine survives_unlessFails hs (fun hc => ?_)
    split
    · rename_i x i hx hi
      exact hP.place hq hc hx hi hs
    · exact hs

theorem Survives.unplace (hP : Survives P C) (a i : Nat) : BlockSurvives P (unplace a i) := by
  intro s hs
  unfold Machine.unplace
  split
  · exact hs
  · split
    · exact hs
    next p hp =>
      refine survives_ite (fun _ => hs) (fun hst => survives_ite (fun _ => hs) (fun _ => ?_))
      exact hP.remove hp (not_not.1 hst) hs

theorem Survives.dropPlanned (hP : Survives P C) {q : Removal × State} (p : Placement) (hs : P q.2) : P (dropPlanned q p).2 := by
  unfold Machine.dropPlanned
  split
  · exact hs
  next x hx =>
    split
    · exact hP.remove hx ‹_› hs
    · exact hs

theorem Survives.dropPlanOf (hP : Survives P C) (n : Nat) (hs : P s) : P (s.dropPlanOf n).2 := by
  have hfold (L : List Placement) (q : Removal × State) (hq : P q.2) : P (L.foldl Machine.dropPlanned q).2 := by
    induction L generalizing q with
    | nil => exact hq
    | cons p L ih => exact ih _ (hP.dropPlanned p hq)
  exact hfold _ _ hs

theorem not_settled_of_stock {c : SlabState} (h : c.isStock = true) : c.isSettled = false := by
  cases c with
  | received => rfl
  | racked => rfl
  | staged => rfl
  | _ => cases h

theorem Survives.slabDone (hP : Survives P C) (a : Nat) (e : Ending) (b : Nat) : BlockSurvives P (slabDone a e b) := by
  intro s hs
  unfold Machine.slabDone
  refine survives_ite (fun _ => hs) (fun _ => ?_)
  split
  · exact hs
  next x hx =>
    refine survives_unlessFails hs (fun hc => ?_)
    obtain rfl : x.id = b := (findBy_some _ hx).2
    obtain ⟨hstock, hc⟩ := or_none hc
    have hstock : x.state.isStock = true := checkThat_none hstock
    have hnone : ∀ o ∈ s.orders, o.slab ≠ x.id := by
      obtain ⟨hflight, -⟩ := or_none hc
      unfold flightCheck at hflight
      split at hflight
      · rename_i hfind
        intro o ho hslab
        exact List.find?_eq_none.1 hfind o ho (decide_eq_true hslab)
      · cases hflight
    have hun : x.state.isSettled = false := not_settled_of_stock hstock
    exact hP.easy (easy_closeParticipants _ _) (hP.settle hx (hP.stock hstock) hun hnone hs)

/-! ## Jobs -/

theorem Survives.jobOpenBlock (hP : Survives P C) (n : Nat) : BlockSurvives P (Machine.jobOpen n) := by
  intro s hs
  refine survives_ite (fun _ => hs) (fun _ => survives_ite (fun _ => hs) (fun hdup => survives_ite (fun _ => hs) (fun hfull => ?_)))
  exact hP.jobOpen (by simpa using hdup) (Nat.lt_of_not_le hfull) hs

end

end Sys2Proof.Proofs
end

