-- ==== Sys2Proof/Proofs/WalkOrders.lean ====
section
/-! SUPPORT. Orders, reports, jobs, loads, announces, timers, pins and the tick keep a property that survives; so does a
step. -/

namespace Sys2Proof.Proofs

open Sys2Proof Sys2Proof.Config Sys2Proof.Machine

section
variable {P : State → Prop} {C : Slab → Prop} {s t : State} {o : CutOrder}

/-! ## Orders and reports -/

theorem Survives.orderBlock (hP : Survives P C) (d j a i f : Nat) : BlockSurvives P (order d j a i f) := by
  intro s hs
  refine survives_ite (fun _ => hs) (fun _ => survives_unlessFails hs (fun hc => ?_))
  split
  · rename_i p w hp hw
    exact hP.easy (easy_present _ _) (hP.admitted _ hc hp hw hs)
  · exact hs

theorem Survives.withdraw (hP : Survives P C) (a i : Nat) : BlockSurvives P (withdraw a i) := by
  intro s hs
  refine survives_ite (fun _ => hs) (fun _ => survives_unlessFails hs (fun _ => ?_))
  split
  · exact hs
  next o ho =>
    obtain ⟨hmem, rfl, rfl⟩ := mem_order? ho
    exact hP.easy ((easy_closeOf o.job _).trans (easy_present _ _)) (hP.takeBack hmem hs)

theorem Survives.orderDecline (hP : Survives P C) (a b i : Nat) : BlockSurvives P (orderDecline a b i) := by
  intro s hs
  unfold Machine.orderDecline
  split
  · exact hs
  next o ho =>
    refine hP.easy ?_ (hP.takeBack (mem_orders_of_held ho) hs)
    exact (((easy_closeOf o.job _).trans (easy_addOverheadWater _ _ _)).trans (easy_notify _ _)).trans (easy_present _ _)

theorem Survives.honour (hP : Survives P C) (a : Nat) (w : Saw) (oc : Outcome3) (n : Nat) (ho : o ∈ s.orders) (hs : P s) :
    P (honour a w o oc n s).2 := hP.easy (easy_present a _) (hP.complete _ _ oc n ho hs)

theorem raceOrder_mem {st : Station} {w : Saw} {slab index : Nat} (h : raceOrder st w slab index = some o) : o ∈ w.queue := by
  unfold raceOrder at h
  split at h
  · split at h
    · cases h
    next y hy =>
      split at h
      · cases h
        exact List.mem_of_find?_eq_some hy
      · cases h
  · cases h

/-- Attaching a station leaves the orders where they are. -/
theorem orders_attach (a : Nat) (s : State) : (s.attach a).orders = s.orders := by
  rw [orders_eq, orders_eq]
  show (s.stations.map _).flatMap queueOf = _
  rw [List.flatMap_map]
  refine List.flatMap_congr (fun st _ => ?_)
  split <;> rfl

theorem Survives.cutReport (hP : Survives P C) (a b i oc n : Nat) : BlockSurvives P (cutReport a b i oc n) := by
  intro s hs
  unfold Machine.cutReport
  split
  · exact hs
  · refine survives_ite (fun _ => hs) (fun _ => ?_)
    split
    · rename_i o _ w hheld _
      exact hP.honour a w _ n (mem_orders_of_held hheld) hs
    · rename_i st w _ _ hw
      split
      · rename_i o hrace
        have hmem : o ∈ s.orders := mem_orders_of_saw? hw (raceOrder_mem hrace)
        exact hP.honour a w _ n ((orders_attach a s).symm ▸ hmem : o ∈ (s.attach a).orders) (hP.easy (easy_attach a s) hs)
      · exact hP.easy (easy_raise _ s) hs
    · exact hP.easy (easy_raise _ s) hs

/-! ## Jobs -/

/-- Closing an OPEN job leaves its counts, and closes it only with none. -/
theorem easy_startClosing {n : Nat} (h : ∀ j ∈ s.jobs, j.id = n → j.state ≠ .closed) : Easy s (s.startClosing n) := by
  have hk : Keeps s (s.modifyJob n (fun x => { x with state := .closing })) :=
    keeps_modifyJob _ _ (fun _ => rfl) (fun _ h => h) (fun j hj e => by simp [h j hj e])
  refine Easy.trans (easy_of_jobs hk rfl rfl rfl (fun _ => ?_)) (easy_closeIfReady n _)
  exact jobsAlike_modifyBy (f := fun x => { x with state := .closing }) (fun _ _ => rfl) (fun _ _ _ hc => by cases hc)

theorem Survives.jobClose (hP : Survives P C) (n : Nat) : BlockSurvives P (jobClose n) := by
  intro s hs
  refine survives_ite (fun _ => hs) (fun _ => ?_)
  split
  · exact hs
  next j hj =>
    refine survives_ite (fun _ => hs) (fun hopen => ?_)
    refine hP.easy (easy_startClosing (fun k hk hid => ?_)) (hP.dropPlanOf n hs)
    have hjobs : (s.dropPlanOf n).2.jobs = s.jobs := dropPlanOf_jobs n
    obtain ⟨hmem, hjid⟩ := findBy_some _ hj
    obtain rfl : k = j := rising_unique Job.id (hP.bounded hs).jobs.1 (hjobs ▸ hk) hmem (hid.trans hjid.symm)
    exact fun hc => hopen (hc ▸ by decide)

theorem easy_jobLimit (n : Nat) (l : Option Nat) (hd : Nat) (s : State) : Easy s (jobLimit n l hd s).2 := by
  unfold jobLimit
  split
  · exact .refl s
  next b _ =>
    split
    · exact .refl s
    split
    · exact .refl s
    split
    · exact .refl s
    · have hk : Keeps s (s.modifyJob n (fun x => { x with limit := l, hold := b })) :=
        keeps_modifyJob _ _ (fun _ => rfl) (fun _ h => h) (fun _ _ _ => Iff.rfl)
      refine easy_of_jobs hk rfl rfl rfl (fun _ => ?_)
      exact jobsAlike_modifyBy (f := fun x => { x with limit := l, hold := b }) (fun _ _ => rfl) (fun _ _ _ hc => .inl hc)

theorem Survives.takeBillBlock (hP : Survives P C) (n : Option Nat) : BlockSurvives P (Machine.takeBill n) := by
  intro s hs
  refine survives_ite (fun _ => hs) (fun _ => ?_)
  split
  · exact hs
  · rename_i b rest hbills
    refine survives_ite (fun _ => hs) (fun _ => ?_)
    split
    · exact hs
    · exact hP.takeBill hbills hs

/-! ## Loads -/

/-- The tables that the laws speak of. -/
def lawTables (s : State) : List Placement × List Slab × List Station × List Job :=
  (s.placements, s.slabs, s.stations, s.jobs)

theorem easy_of_tables (hk : Keeps s t) (h : lawTables t = lawTables s) : Easy s t :=
  easy_of_same hk (congrArg Prod.fst h :) (congrArg (fun x => x.2.1) h :) (congrArg (fun x => x.2.2.1) h :)
    (congrArg (fun x => x.2.2.2) h :)

/-- A block that leaves the tables of the laws keeps the property. -/
theorem Survives.plain (hP : Survives P C) {b : Block} (hk : BlockKeeps b) (h : ∀ s, lawTables (b s).2 = lawTables s) :
    BlockSurvives P b := survives_of_easy hP (fun s => easy_of_tables (hk s) (h s))

theorem lawTables_ite {c : Prop} [Decidable c] {x y : Reply × State} (hx : lawTables x.2 = lawTables s)
    (hy : lawTables y.2 = lawTables s) : lawTables (if c then x else y).2 = lawTables s := by
  split
  · exact hx
  · exact hy

theorem lawTables_unlessFails {c : Check} {b : Block} (h : lawTables (b s).2 = lawTables s) :
    lawTables (unlessFails c b s).2 = lawTables s := by
  unfold unlessFails
  split
  · rfl
  · exact h

theorem lawTables_recomputeMode (c : ModeCause) (l : List (Nat × Bool)) (s : State) :
    lawTables (s.recomputeMode c l) = lawTables s := (congrArg lawTables (recomputeMode_exceptMode c l s) :)

theorem lawTables_loadRule (c d n k : Nat) (s : State) : lawTables (loadRule c d n k s).2 = lawTables s := by
  unfold loadRule
  split
  · rfl
  · split
    · rfl
    · exact lawTables_unlessFails rfl

theorem lawTables_loadWaterRule (a b c d e f g i : Nat) (s : State) :
    lawTables (loadWaterRule a b c d e f g i s).2 = lawTables s := by
  unfold loadWaterRule
  split
  · rfl
  · exact lawTables_recomputeMode _ _ _

theorem lawTables_releaseLine (s : State) : lawTables (releaseLine s).2 = lawTables s := by
  unfold releaseLine
  dsimp only
  split <;> rfl

/-- An entry changed to fit a load of its class and side keeps its orders and its bed. -/
theorem calm_reload (q : StationLoad) (ho : s.Orderly) : Calm s (s.modifyStation q.address (Station.reload q)) := by
  have hmap : (s.modifyStation q.address (Station.reload q)).stations
      = s.stations.map (fun st => if st.address = q.address then st.reload q else st) := rfl
  have hqueue (st : Station) : queueOf (if st.address = q.address then st.reload q else st) = queueOf st := by
    split
    · exact queueOf_reload q st
    · rfl
  refine calm_of_stations (t := s.modifyStation q.address (Station.reload q)) rfl rfl rfl ?_
    (bedded_map hmap (fun st => ?_)) (fun y hy => ?_)
  · rw [orders_eq, orders_eq, hmap, List.flatMap_map]
    exact List.flatMap_congr (fun st _ => hqueue st)
  · split
    · exact bedAt_reload q st
    · rfl
  · rw [hmap] at hy
    obtain ⟨st, hst, rfl⟩ := List.mem_map.1 hy
    refine stationOrderly_of_sublist (ho.1 st hst) ?_ (fun h => ?_) (hqueue st ▸ List.Sublist.refl _)
    · split <;> rfl
    · split at h <;> exact h

theorem Survives.loadStation (hP : Survives P C) (a c d n : Nat) (f : Option SawFields) :
    BlockSurvives P (loadStation a c d n f) := by
  intro s hs
  have hbounded := (blockKeeps_loadStation a c d n f s).2 (hP.bounded hs)
  unfold Machine.loadStation at hbounded ⊢
  split
  · exact hs
  next q hq =>
    rw [hq] at hbounded
    dsimp only at hbounded
    refine survives_unlessFails hs (fun hc => ?_)
    rw [unlessFails_pass hc] at hbounded
    obtain ho := hP.orderly hs
    split
    · rename_i hnone
      simp only [hnone] at hbounded
      exact hP.calm hbounded (calm_addStation ho (unused_newStation q)) hs
    · rename_i old hold
      simp only [hold] at hbounded
      split
      · rename_i hsame
        rw [if_pos hsame] at hbounded
        exact hP.calm hbounded (calm_reload q ho) hs
      · refine survives_unlessFails hs (fun hu => ?_)
        obtain ⟨hlow, hhigh, -, htier, hsaw⟩ := Machine.stationForm_some hq
        have hnew := newStation_legal hlow hhigh htier hsaw (classCheck_none hc).1
        have hput := keeps_modifyStation (s := s) q.address (fun _ => newStation q.address q.side q.cls q.tier q.saw)
          (fun st _ _ ha => ⟨hnew, ha.symm⟩)
        have hb := hP.bounded hs
        have hunused := unused_of_inUseCheck hu
        exact hP.easy (easy_recyclerGone _ _)
          (hP.calm (hput.2 hb) (calm_replaceStation hb ho hold hunused (unused_newStation q)) hs)

theorem Survives.loadStationNone (hP : Survives P C) (a : Nat) : BlockSurvives P (loadStationNone a) := by
  intro s hs
  refine survives_ite (fun _ => hs) (fun _ => ?_)
  split
  · exact hs
  next old hold =>
    refine survives_unlessFails hs (fun hc => ?_)
    have hb := hP.bounded hs
    exact hP.easy (easy_recyclerGone _ _) (hP.calm ((keeps_freeStation a).2 hb)
      (calm_freeStation hb (hP.orderly hs) hold (unused_of_inUseCheck hc)) hs)

/-! ## The line and the pins -/

theorem calm_of_tables (ho : s.Orderly) (h : lawTables t = lawTables s) : Calm s t := by
  have hst : t.stations = s.stations := (congrArg (fun x => x.2.2.1) h :)
  have hj : t.jobs = s.jobs := (congrArg (fun x => x.2.2.2) h :)
  exact calm_of_stations (congrArg Prod.fst h :) (congrArg (fun x => x.2.1) h :) hj (orders_of_stations hst)
    (fun a n => by rw [Bedded, Bedded, hst]) (hst ▸ ho.1)

theorem lawTables_tellLineReset (m : WaterMode) (l : List (Nat × Bool)) (s : State) :
    lawTables (s.tellLineReset m l) = lawTables s := by
  unfold State.tellLineReset
  split <;> rfl

theorem Survives.lineReset (hP : Survives P C) : BlockSurvives P lineReset := by
  intro s hs
  have hfloor := hP.restartFloor hs
  refine hP.calm (keeps_lineRestart.2 (hP.bounded hs)) (calm_of_tables (hP.orderly hfloor) ?_) hfloor
  exact lawTables_tellLineReset _ _ _

theorem Survives.releaseReset (hP : Survives P C) (k : Bool) (n : Nat) (hs : P s) : P (s.releaseReset k n) := by
  unfold State.releaseReset
  split
  · split
    · exact hP.reset s n _
    · have hfloor := hP.restartFloor hs
      exact hP.calm (keeps_keepReset.2 (hP.bounded hs)) (calm_of_tables (hP.orderly hfloor) rfl) hfloor
  · exact hP.reset s n _

theorem easy_standbyLost (s : State) : Easy s { s with standbyLost := true } := by
  refine easy_of_tables ⟨rfl, fun b => ?_⟩ rfl
  exact ⟨b.address, b.kindRules, b.constants, b.stations, b.slabs, b.placements, b.jobs, b.closeCounter, b.admissionCounter,
    b.water, b.shop, b.faults, b.txA, b.txB⟩

theorem easy_tick (s : State) : Easy s s.tick := by
  have hk : Keeps s s.tick := keeps_tick
  unfold State.tick at hk ⊢
  split
  · exact .refl s
  next hreset =>
    rw [if_neg hreset] at hk
    have hq (st : Station) : queueOf st.tick = queueOf st := by
      unfold queueOf Station.tick
      cases st.saw <;> rfl
    refine easy_of_stations (g := Station.tick) hk rfl rfl rfl rfl (fun st => ⟨?_, by rw [hq]⟩)
      (fun _ ho st hst => stationOrderly_of_sublist (ho.1 st hst) rfl id (hq st ▸ List.Sublist.refl _))
    unfold bedAt Station.tick
    cases st.saw <;> rfl

/-! ## Announces -/

/-- An order in doubt of an ATTACHED saw runs again. -/
theorem easy_resumeDoubt {w : Saw} {st : Station} (hw : s.saw? st.address = some w) (hst : st ∈ s.stations)
    (hatt : st.state = .attached) (hd : w.inDoubt = some o) : Easy s (s.resume st.address o) := by
  refine easy_modifyOrder st.address o.slab o.index (fun x => { x with state := .running }) (fun _ => rfl) (fun hb ho z hz ha => ?_)
  obtain rfl : z = st := rising_unique Station.address hb.stations.1 hz hst ha
  obtain ⟨-, hq⟩ := queueOf_of_saw hb hw hst rfl
  have hmem : o ∈ queueOf z := hq ▸ List.mem_of_find?_eq_some hd
  have hdoubt : o.state = .inDoubt := of_decide_eq_true (List.find?_some hd :)
  refine ⟨fun y hy hys hyi _ => ?_, fun hne => absurd hatt hne⟩
  rw [same_of_names ho hst hmem hy hys hyi]
  exact isActive_of_ne (hdoubt ▸ by decide)

/-- The last-delivered order of an ATTACHED saw without an order in doubt runs again. -/
theorem easy_resumeLast {w : Saw} {st : Station} (hw : s.saw? st.address = some w) (hst : st ∈ s.stations)
    (hatt : st.state = .attached) (hidle : ∀ y ∈ queueOf st, y.state = .waiting ∨ y.state = .inDoubt) (hd : w.inDoubt = none) :
    Easy s (s.resume st.address o) := by
  refine easy_activate st.address o.slab o.index (fun x => { x with state := .running }) (fun _ => rfl) (fun hb _ z hz ha => ?_)
  obtain rfl : z = st := rising_unique Station.address hb.stations.1 hz hst ha
  obtain ⟨-, hq⟩ := queueOf_of_saw hb hw hst rfl
  refine ⟨hatt, fun y hy => (hidle y hy).resolve_right (fun hdoubt => ?_)⟩
  exact List.find?_eq_none.1 hd y (hq ▸ hy) (decide_eq_true hdoubt)

theorem Survives.resolveDoubt (hP : Survives P C) {st : Station} (hst : st ∈ s.stations) (hatt : st.state = .attached)
    (hidle : ∀ y ∈ queueOf st, y.state = .waiting ∨ y.state = .inDoubt) (work : Option (Nat × Nat)) (hs : P s) :
    P (s.resolveDoubt st.address work) := by
  have habandon {u : State} {w : Saw} {o : CutOrder} (hu : P u) (hw : u.saw? st.address = some w) (hd : w.inDoubt = some o) :
      P (u.abandon st.address w o) :=
    hP.complete _ _ _ _ (mem_orders_of_saw? hw (List.mem_of_find?_eq_some hd)) hu
  unfold State.resolveDoubt
  split
  · exact hs
  next w hw =>
    split
    · rename_i hd
      exact habandon hs hw hd
    · rename_i hd
      split
      · exact hP.easy (easy_resumeDoubt hw hst hatt hd) hs
      · exact habandon (hP.easy (easy_raise _ s) hs) ((saw?_raise _ _ s).trans hw) hd
    · exact hs
    · rename_i hd
      split
      · exact hP.easy (easy_raise _ s) hs
      · split
        · exact hP.easy (easy_resumeLast hw hst hatt hidle hd) hs
        · exact hP.easy (easy_raise _ s) hs

/-- The entry of a station, just attached. -/
theorem mem_attach {st : Station} (hst : s.station? st.address = some st) (hne : st.state ≠ .attached) :
    { st with state := .attached, silence := some silenceMs } ∈ ((s.restartSilence st.address).attach st.address).stations := by
  refine List.mem_map.2 ⟨st, List.mem_map.2 ⟨st, (findBy_some _ hst).1, ?_⟩, if_pos rfl⟩
  exact (if_pos rfl).trans (if_neg hne)

theorem Survives.announce (hP : Survives P C) {st : Station} (work : Option (Nat × Nat)) (hs : P s)
    (hst : s.station? st.address = some st) : P (announce st work (s.restartSilence st.address)).2 := by
  have hquiet : P (s.restartSilence st.address) := hP.easy (easy_restartSilence _ s) hs
  by_cases hatt : st.state = .attached
  · rw [announce_attached hatt]
    exact hquiet
  · rw [announce_attaching hatt]
    have hattached := hP.easy (easy_attach st.address _) hquiet
    have hidle := (stationOrderly_iff.1 ((hP.orderly hs).1 st (findBy_some _ hst).1)).2.2 hatt
    have hsaw := hP.easy (easy_present st.address _) (hP.resolveDoubt (mem_attach hst hatt) rfl hidle work hattached)
    unfold State.onAttach
    cases st.cls with
    | bridgeSaw => exact hsaw
    | waterjet => exact hsaw
    | recycler => exact hP.easy (easy_queueValve _ _) hattached
    | planning => exact hattached
    | supervisor => exact hattached
    | panel => exact hattached
    | scanner => exact hattached

/-! ## Every block, and a step -/

theorem Survives.rowBlock (hP : Survives P C) {i : Instr} {b : Block} (hb : rowBlock i = some b) : BlockSurvives P b := by
  cases i with
  | loadStation => cases hb; exact hP.loadStation _ _ _ _ _
  | loadStationNone => cases hb; exact hP.loadStationNone _
  | loadRule => cases hb; exact hP.plain (blockKeeps_loadRule _ _ _ _) (lawTables_loadRule _ _ _ _)
  | loadGroup => cases hb; exact hP.plain (blockKeeps_loadGroup _) (fun _ => lawTables_ite rfl (lawTables_unlessFails rfl))
  | loadConstants => cases hb; exact hP.plain (blockKeeps_loadConstants _ _ _ _) (fun _ => lawTables_ite rfl rfl)
  | loadRates => cases hb; exact hP.plain (blockKeeps_loadRates _ _) (fun _ => lawTables_ite rfl rfl)
  | loadShareWindow => cases hb; exact hP.plain (blockKeeps_loadShareWindow _) (fun _ => lawTables_ite rfl rfl)
  | loadNotices =>
    cases hb
    exact hP.plain (blockKeeps_loadNotices _ _ _) (fun _ => lawTables_ite rfl (lawTables_ite rfl rfl))
  | loadWaterRule =>
    cases hb
    exact hP.plain (blockKeeps_loadWaterRule _ _ _ _ _ _ _ _) (lawTables_loadWaterRule _ _ _ _ _ _ _ _)
  | loadAllowance =>
    cases hb
    exact hP.plain (blockKeeps_loadAllowance _) (fun _ => lawTables_ite rfl (lawTables_recomputeMode _ _ _))
  | renewAllowance => cases hb; exact hP.plain blockKeeps_renewAllowance (fun _ => lawTables_recomputeMode _ _ _)
  | clearFault => cases hb; exact hP.plain blockKeeps_clearFault (fun _ => rfl)
  | releaseLine => cases hb; exact hP.plain blockKeeps_releaseLine lawTables_releaseLine
  | lineReset => cases hb; exact hP.lineReset
  | slabEnter => cases hb; exact hP.slabEnter _ _ _ _ _ _ _
  | slabEditLock => cases hb; exact hP.slabLock _ _
  | slabEditUnlock => cases hb; exact hP.slabUnlock _
  | slabEditSetBasis => cases hb; exact hP.slabSetBasis _ _
  | slabEditAddDefect => cases hb; exact hP.slabAddDefect _ _
  | slabRetire => cases hb; exact hP.slabRetire _
  | slabDoneFinished => cases hb; exact hP.slabDone _ _ _
  | slabDoneScrap => cases hb; exact hP.slabDone _ _ _
  | place => cases hb; exact hP.placeBlock _ _ _ _ _ _ _
  | unplace => cases hb; exact hP.unplace _ _
  | order => cases hb; exact hP.orderBlock _ _ _ _ _
  | withdraw => cases hb; exact hP.withdraw _ _
  | jobOpen => cases hb; exact hP.jobOpenBlock _
  | jobLimit => cases hb; exact survives_of_easy hP (easy_jobLimit _ _ _)
  | jobClose => cases hb; exact hP.jobClose _
  | takeBill => cases hb; exact hP.takeBillBlock _
  | sawStatus => cases hb; exact survives_fromAttached (survives_of_easy hP (easy_sawStatus _ _ _ _ _ _ _))
  | orderAck => cases hb; exact survives_fromAttached (survives_of_easy hP (easy_orderAck _))
  | orderDecline => cases hb; exact survives_fromAttached (hP.orderDecline _ _ _)
  | cutReport => cases hb; exact hP.cutReport _ _ _ _ _
  | scanRacked => cases hb; exact hP.onScan _ _ _ _ _ (fun _ _ hx hs => hP.scanToRack _ _ hx hs)
  | scanStaged => cases hb; exact hP.onScan _ _ _ _ _ (fun _ _ hx hs => hP.scanToBed _ _ hx hs)
  | scanUnstaged => cases hb; exact hP.onScan _ _ _ _ _ (fun _ _ hx hs => hP.scanOffBed hx hs)
  | scanGone => cases hb; exact hP.onScan _ _ _ _ _ (fun _ _ hx hs => hP.scanAway _ hx hs)
  | waterSample => cases hb; exact survives_fromAttached (survives_of_easy hP (easy_waterSample _ _ _ _ _ _))
  | coldResetAssert => cases hb
  | coldResetRelease => cases hb
  | standbyRetentionLoss => cases hb
  | telegramReceived => cases hb
  | transmitComplete => cases hb
  | announce => cases hb
  | silenceTimerExpiry => cases hb
  | ackTimerExpiry => cases hb
  | deliveryEvaluation => cases hb
  | _ => cases hb; exact fun _ hs => hs

theorem Survives.preserved (hP : Survives P C) : Preserved P where
  link h hk hs := hP.easy (easy_link h hk) hs
  silence a _ hs := hP.easy (easy_restartSilence a _) hs
  block _ hb _ hs := hP.rowBlock hb _ hs
  announce work hs hst := hP.announce work hs hst

/-- A property that survives is kept by every step. -/
theorem Survives.step (hP : Survives P C) (hs : P s) (h : step s = .next t) : P t := by
  obtain ⟨-, rfl⟩ | ⟨c, rest, -, hc⟩ := step_cases h
  · exact hP.easy (easy_tick s) hs
  · exact hP.preserved.exec (fun s => hP.easy (easy_assertReset s)) (fun k n _ => hP.releaseReset k n)
      (fun s => hP.easy (easy_standbyLost s)) (fun a s => hP.easy (easy_silenceExpiry a s))
      (fun a s => hP.easy (easy_ackExpiry a s)) (fun a _ => hP.easy (easy_evaluate a _) (hP.pending rest hs))
      (hP.pending rest hs) hc

end

end Sys2Proof.Proofs
end

