-- ==== Sys2Proof/Proofs/OrdersStay.lean ====
section
/-! SUPPORT. Changes of beds, slabs and plans that leave the orders where they are keep the law of the orders. -/

namespace Sys2Proof.Proofs

open Sys2Proof Sys2Proof.Config Sys2Proof.Machine

/-- What the law of the orders reads of a station. -/
def queueBook (st : Station) : Nat × StationState × List CutOrder := (st.address, st.state, queueOf st)

/-- What it reads of a job. -/
def jobOpens (j : Job) : Nat × Nat × JobState := (j.id, j.openOrders, j.state)

/-- The orders stay, and no slab is newly settled. -/
structure OrdersStay (s t : State) : Prop where
  queues : t.stations.map queueBook = s.stations.map queueBook
  ordered : ∀ slab index, OrderedAt t slab index ↔ OrderedAt s slab index
  settled : ∀ y ∈ t.slabs, y.state.isSettled = true → ∃ x ∈ s.slabs, x.id = y.id ∧ x.state.isSettled = true
  jobs : t.jobs.map jobOpens = s.jobs.map jobOpens

section
variable {s t u : State} {l m : List CutOrder} {ordered ordered' : Nat → Nat → Prop} {slabs slabs' : List Slab}
  {jobs jobs' : List Job} {p q : Placement} {o : CutOrder}

theorem OrdersStay.refl (s : State) : OrdersStay s s := ⟨rfl, fun _ _ => Iff.rfl, fun y hy hs => ⟨y, hy, rfl, hs⟩, rfl⟩

theorem OrdersStay.trans (h : OrdersStay s t) (k : OrdersStay t u) : OrdersStay s u where
  queues := k.queues.trans h.queues
  ordered a i := (k.ordered a i).trans (h.ordered a i)
  settled y hy hs := by
    obtain ⟨x, hx, hid, hxs⟩ := k.settled y hy hs
    obtain ⟨z, hz, hid', hzs⟩ := h.settled x hx hxs
    exact ⟨z, hz, hid'.trans hid, hzs⟩
  jobs := k.jobs.trans h.jobs

theorem orders_of_queueBook (h : t.stations.map queueBook = s.stations.map queueBook) : t.orders = s.orders := by
  have hof (u : State) : u.orders = (u.stations.map queueBook).flatMap (fun x => x.2.2) := by
    rw [orders_eq, List.flatMap_map]
    rfl
  rw [hof, hof, h]

theorem stations_of_queueBook (h : t.stations.map queueBook = s.stations.map queueBook) (ho : ∀ st ∈ s.stations, st.Orderly) :
    ∀ st ∈ t.stations, st.Orderly := by
  intro y hy
  have hmem : queueBook y ∈ s.stations.map queueBook := h ▸ List.mem_map_of_mem hy
  obtain ⟨st, hst, heq⟩ := List.mem_map.1 hmem
  have haddr : st.address = y.address := (congrArg Prod.fst heq :)
  have hstate : st.state = y.state := (congrArg (fun x => x.2.1) heq :)
  have hq : queueOf st = queueOf y := (congrArg (fun x => x.2.2) heq :)
  have horderly := stationOrderly_iff.1 (ho st hst)
  rw [haddr, hstate, hq] at horderly
  exact stationOrderly_iff.2 horderly

/-- The jobs of the books, by what the law reads of them. -/
theorem Books.of_jobs (h : Books l ordered slabs jobs) (hj : jobs'.map jobOpens = jobs.map jobOpens) :
    Books l ordered slabs jobs' := by
  have hback {y : Job} (hy : y ∈ jobs') : ∃ j ∈ jobs, jobOpens j = jobOpens y := by
    have hmem : jobOpens y ∈ jobs.map jobOpens := hj ▸ List.mem_map_of_mem hy
    exact List.mem_map.1 hmem
  refine ⟨h.apart, h.oneSaw, h.placed, h.unsettled, fun o ho n hn => ?_, fun y hy => ?_, fun y hy hc => ?_⟩
  · obtain ⟨j, hj', hid⟩ := h.named o ho n hn
    have hmem : jobOpens j ∈ jobs'.map jobOpens := hj ▸ List.mem_map_of_mem hj'
    obtain ⟨y, hy, heq⟩ := List.mem_map.1 hmem
    exact ⟨y, hy, ((congrArg Prod.fst heq :) : y.id = j.id).trans hid⟩
  · obtain ⟨j, hj', heq⟩ := hback hy
    have hid : j.id = y.id := (congrArg Prod.fst heq :)
    have hopen : j.openOrders = y.openOrders := (congrArg (fun x => x.2.1) heq :)
    rw [← hopen, ← hid]
    exact h.counted j hj'
  · obtain ⟨j, hj', heq⟩ := hback hy
    have hopen : j.openOrders = y.openOrders := (congrArg (fun x => x.2.1) heq :)
    have hstate : j.state = y.state := (congrArg (fun x => x.2.2) heq :)
    exact hopen ▸ h.closed j hj' (hstate.trans hc)

/-- The books with as many slabs settled as before, or those without orders. -/
theorem Books.of_tables (h : Books l ordered slabs jobs) (hord : ∀ a i, ordered' a i ↔ ordered a i)
    (hs : ∀ x ∈ slabs', x.state.isSettled = true → ∀ o ∈ l, o.slab ≠ x.id) : Books l ordered' slabs' jobs :=
  ⟨h.apart, h.oneSaw, fun a i => (hord a i).trans (h.placed a i), hs, h.named, h.counted, h.closed⟩

/-- A state whose orders stay where they were is orderly again, if what is newly settled has none. -/
theorem orderly_of_books (ho : s.Orderly) (hq : t.stations.map queueBook = s.stations.map queueBook)
    (hord : ∀ a i, OrderedAt t a i ↔ OrderedAt s a i)
    (hs : ∀ x ∈ t.slabs, x.state.isSettled = true → ∀ o ∈ s.orders, o.slab ≠ x.id)
    (hj : t.jobs.map jobOpens = s.jobs.map jobOpens) : t.Orderly := by
  obtain ⟨hst, hbooks⟩ := orderly_iff.1 ho
  refine orderly_iff.2 ⟨stations_of_queueBook hq hst, ?_⟩
  rw [orders_of_queueBook hq]
  exact (hbooks.of_tables hord hs).of_jobs hj

theorem OrdersStay.orderly (h : OrdersStay s t) (ho : s.Orderly) : t.Orderly := by
  refine orderly_of_books ho h.queues h.ordered (fun y hy hs o hmem => ?_) h.jobs
  obtain ⟨x, hx, hid, hxs⟩ := h.settled y hy hs
  exact hid ▸ (orderly_iff.1 ho).2.unsettled x hx hxs o hmem

/-! ## Slabs and beds -/

theorem settled_modifyBy {n : Nat} {f : Slab → Slab} (hid : ∀ x ∈ slabs, x.id = n → (f x).id = x.id)
    (hf : ∀ x ∈ slabs, x.id = n → (f x).state.isSettled = true → x.state.isSettled = true) :
    ∀ y ∈ modifyBy Slab.id n f slabs, y.state.isSettled = true → ∃ x ∈ slabs, x.id = y.id ∧ x.state.isSettled = true := by
  intro y hy hs
  obtain ⟨x, hx, rfl⟩ := List.mem_map.1 hy
  split at hs
  · rename_i hn
    exact ⟨x, hx, by rw [if_pos hn, hid x hx hn], hf x hx hn hs⟩
  · rename_i hn
    exact ⟨x, hx, by rw [if_neg hn], hs⟩

/-- A slab record changed, but not settled. -/
theorem ordersStay_modifySlab (n : Nat) (f : Slab → Slab) (hid : ∀ x, (f x).id = x.id)
    (hf : ∀ x, (f x).state.isSettled = true → x.state.isSettled = true) (s : State) : OrdersStay s (s.modifySlab n f) :=
  ⟨rfl, fun _ _ => Iff.rfl, settled_modifyBy (fun x _ _ => hid x) (fun x _ _ => hf x), rfl⟩

theorem queueBook_mapSaw {f : Saw → Saw} (hf : ∀ w, (f w).queue = w.queue) (st : Station) :
    queueBook (st.mapSaw f) = queueBook st := by
  unfold queueBook
  rw [queueOf_mapSaw_same hf]
  rfl

/-- A saw changed, but not its queue. -/
theorem ordersStay_modifySaw (a : Nat) (f : Saw → Saw) (hf : ∀ w, (f w).queue = w.queue) (s : State) :
    OrdersStay s (s.modifySaw a f) := by
  refine ⟨?_, fun _ _ => Iff.rfl, fun y hy hs => ⟨y, hy, rfl, hs⟩, rfl⟩
  show (s.stations.map _).map queueBook = _
  rw [List.map_map]
  refine List.map_congr_left (fun st _ => ?_)
  rw [Function.comp_apply]
  split
  · exact queueBook_mapSaw hf st
  · rfl

theorem ordersStay_clearBed (n : Nat) (s : State) : OrdersStay s (s.clearBed n) := by
  unfold State.clearBed
  split
  · exact .refl s
  · exact (ordersStay_modifySaw _ (fun w => { w with bed := none }) (fun _ => rfl) s).trans
      (ordersStay_modifySlab _ (fun x => { x with bed := none }) (fun _ => rfl) (fun _ h => h) _)

theorem ordersStay_of_tables (h : lawTables t = lawTables s) : OrdersStay s t := by
  have hp : t.placements = s.placements := (congrArg Prod.fst h :)
  have hx : t.slabs = s.slabs := (congrArg (fun x => x.2.1) h :)
  have hst : t.stations = s.stations := (congrArg (fun x => x.2.2.1) h :)
  have hj : t.jobs = s.jobs := (congrArg (fun x => x.2.2.2) h :)
  exact ⟨by rw [hst], fun a i => by rw [OrderedAt, OrderedAt, hp], fun y hy hs => ⟨y, hx ▸ hy, rfl, hs⟩, by rw [hj]⟩

theorem lawTables_presentBed (x : Slab) (s : State) : lawTables (s.presentBed x) = lawTables s := by
  unfold State.presentBed
  split <;> rfl

theorem ordersStay_displace (n : Nat) (s : State) : OrdersStay s (s.displace n) := by
  refine (ordersStay_clearBed n s).trans (ordersStay_modifySlab n (fun z =>
    if z.state.isStock then { z with state := .received, rack := none } else { z with rack := none }) (fun x => ?_) (fun x h => ?_) _)
  · split <;> rfl
  · split at h
    · cases h
    · exact h

theorem ordersStay_putOnBed (x : Slab) (a : Nat) (d : Option Nat) (s : State) : OrdersStay s (s.putOnBed x a d) := by
  have hput (u : State) : OrdersStay u (((((u.modifySlab x.id (fun z => { z with state := .staged, rack := none, bed := some a })).modifySaw a
      (fun w => { w with bed := some x.id })).presentBed x)).present a) :=
    (((ordersStay_modifySlab x.id (fun z => { z with state := .staged, rack := none, bed := some a }) (fun _ => rfl)
      (fun _ h => by cases h) u).trans (ordersStay_modifySaw a (fun w => { w with bed := some x.id }) (fun _ => rfl) _)).trans
      (ordersStay_of_tables (lawTables_presentBed x _))).trans (ordersStay_of_tables rfl)
  cases d with
  | none => exact (ordersStay_clearBed x.id s).trans (hput _)
  | some y => exact ((ordersStay_clearBed x.id s).trans (ordersStay_displace y _)).trans (hput _)

/-! ## Plans -/

/-- A pass over the pool that keeps every ORDERED placement in its place and its state. -/
theorem orderedAt_filterMap {f : Placement → Option Placement} (hp : t.placements = s.placements.filterMap f)
    (hf : ∀ q ∈ s.placements, ∀ r, f q = some r → r.slab = q.slab ∧ r.index = q.index ∧ r.state = q.state)
    (hkeep : ∀ q ∈ s.placements, q.state = .ordered → f q ≠ none) (slab index : Nat) :
    OrderedAt t slab index ↔ OrderedAt s slab index := by
  unfold OrderedAt
  rw [hp]
  constructor
  · rintro ⟨r, hr, hs, hi, hst⟩
    obtain ⟨q, hq, hqr⟩ := List.mem_filterMap.1 hr
    obtain ⟨hs', hi', hst'⟩ := hf q hq r hqr
    exact ⟨q, hq, hs'.symm.trans hs, hi'.symm.trans hi, hst'.symm.trans hst⟩
  · rintro ⟨q, hq, hs, hi, hst⟩
    obtain ⟨r, hr⟩ := Option.ne_none_iff_exists'.1 (hkeep q hq hst)
    obtain ⟨hs', hi', hst'⟩ := hf q hq r hr
    exact ⟨r, List.mem_filterMap.2 ⟨q, hq, hr⟩, hs'.trans hs, hi'.trans hi, hst'.trans hst⟩

/-- A filter of the pool that keeps every ORDERED placement. -/
theorem orderedAt_filter {c : Placement → Bool} (hp : t.placements = s.placements.filter c)
    (hkeep : ∀ q ∈ s.placements, q.state = .ordered → c q = true) (slab index : Nat) :
    OrderedAt t slab index ↔ OrderedAt s slab index := by
  refine orderedAt_filterMap (f := Option.guard (fun q => c q)) (hp.trans ?_) (fun q _ r hr => ?_) (fun q hq hst => ?_) slab index
  · exact (congrFun (List.filterMap_eq_filter (p := c)) s.placements).symm
  · obtain ⟨rfl, -⟩ := Option.guard_eq_some_iff.1 hr
    exact ⟨rfl, rfl, rfl⟩
  · rw [Option.guard_pos (by simpa using hkeep q hq hst)]
    simp

theorem ordersStay_removePiece (hl : PlacementsLegal s.placements) (hp : p ∈ s.placements) (hst : p.state ≠ .ordered) :
    OrdersStay s (s.removePiece p.slab p.index).2 := by
  rw [removePiece_eq hl]
  refine ⟨rfl, orderedAt_filterMap rfl (fun q _ r hr => ?_) (fun q hq hqst => ?_), fun y hy hs => ⟨y, hy, rfl, hs⟩, rfl⟩
  · obtain ⟨hs, hi⟩ := afterRemoval_names hr
    refine ⟨hs, hi, ?_⟩
    unfold afterRemoval at hr
    split at hr
    · cases hr
    · split at hr
      · obtain ⟨-, rfl⟩ := leftOf_some hr
        rfl
      · cases hr
        rfl
  · unfold afterRemoval leftOf
    rw [if_neg (fun hat => hst ?_)]
    · rw [if_pos hqst]
      split <;> simp
    · rw [← placement_unique hl hq hp hat.1 hat.2]
      exact hqst

theorem ordersStay_freePlacement (hl : PlacementsLegal s.placements) (hp : p ∈ s.placements) (hst : p.state ≠ .ordered) :
    OrdersStay s (s.freePlacement p.slab p.index) := by
  rw [freePlacement_eq]
  refine ⟨rfl, orderedAt_filter rfl (fun q hq hqst => decide_eq_true (fun hat => hst ?_)), fun y hy hs => ⟨y, hy, rfl, hs⟩, rfl⟩
  rw [← placement_unique hl hq hp hat.1 hat.2]
  exact hqst

theorem ordersStay_freeSlab (n : Nat) (s : State) : OrdersStay s (s.freeSlab n) :=
  ⟨rfl, fun _ _ => Iff.rfl, fun y hy hs => ⟨y, ((mem_eraseBy _).1 hy).1, rfl, hs⟩, rfl⟩

theorem ordersStay_removePlacement (hl : PlacementsLegal s.placements) (hp : p ∈ s.placements) (hst : p.state ≠ .ordered) :
    OrdersStay s (s.removePlacement p).2 := by
  have hfree := ordersStay_freePlacement hl hp hst
  unfold State.removePlacement
  split
  · exact ordersStay_removePiece hl hp hst
  · exact ordersStay_removePiece hl hp hst
  · exact hfree
  · split
    · exact hfree
    · exact hfree.trans (ordersStay_freeSlab _ _)

theorem mem_of_placement? {slab index : Nat} (h : s.placement? slab index = some p) :
    p ∈ s.placements ∧ p.slab = slab ∧ p.index = index := ⟨List.mem_of_find?_eq_some h, placement?_names h⟩

theorem ordersStay_dropMet (a : Nat) (r : Rect) (acc : Nat × State) (i : Nat) (hb : acc.2.Bounded) :
    OrdersStay acc.2 (dropMet a r acc i).2 := by
  unfold dropMet
  split
  · exact .refl _
  next p hp =>
    split
    · rename_i hc
      obtain ⟨hmem, rfl, rfl⟩ := mem_of_placement? hp
      have hst : p.state = .planned := by
        rw [Bool.and_eq_true, Bool.and_eq_true] at hc
        exact of_decide_eq_true hc.1.2
      exact (ordersStay_removePiece hb.placements hmem (by rw [hst]; decide)).trans (ordersStay_of_tables rfl)
    · exact .refl _

theorem ordersStay_clearPlanned (acc : Cleared × State) (p : Placement) (hb : acc.2.Bounded) :
    OrdersStay acc.2 (clearPlanned acc p).2 := by
  unfold clearPlanned
  split
  · exact .refl _
  next q hq =>
    split
    · rename_i hst
      obtain ⟨hmem, -, -⟩ := mem_of_placement? hq
      exact ordersStay_removePlacement hb.placements hmem (by rw [hst]; decide)
    · exact .refl _

/-- A chain of changes of bounded states, in each of which the orders stay. -/
theorem ordersStay_foldl {α β : Type} {f : β × State → α → β × State} (hk : ∀ b x, Keeps b.2 (f b x).2)
    (h : ∀ b x, b.2.Bounded → OrdersStay b.2 (f b x).2) (L : List α) (b : β × State) (hb : b.2.Bounded) :
    OrdersStay b.2 (L.foldl f b).2 := by
  induction L generalizing b with
  | nil => exact .refl _
  | cons x L ih => exact (h b x hb).trans (ih (f b x) ((hk b x).2 hb))

theorem ordersStay_clearPlan (n : Nat) (hb : s.Bounded) : OrdersStay s (s.clearPlan n).2 :=
  ordersStay_foldl keeps_clearPlanned ordersStay_clearPlanned _ (_, s) hb

theorem ordersStay_enterRemnant (x : Slab) (acc : List (Nat × Nat) × State) (p : Placement) :
    OrdersStay acc.2 (enterRemnant x acc p).2 := by
  unfold enterRemnant
  split
  · exact (ordersStay_modifySlab _ (fun z => { z with basis := areaShare x.basis p.area (x.length * x.width), state := .received })
      (fun _ => rfl) (fun _ h => by cases h) _).trans
      (ordersStay_modifySlab _ (fun z => { z with allocated := z.allocated + areaShare x.basis p.area (x.length * x.width) })
        (fun _ => rfl) (fun _ h => h) _)
  · exact .refl _

theorem ordersStay_enterRemnants (x : Slab) (hb : s.Bounded) : OrdersStay s (s.enterRemnants x).2 :=
  ordersStay_foldl (keeps_enterRemnant x) (fun b p _ => ordersStay_enterRemnant x b p) _ (_, s) hb

/-! ## Charges -/

theorem ordersStay_of_accounts (h : exceptAccounts t = exceptAccounts s) (hj : t.jobs.map jobOpens = s.jobs.map jobOpens) :
    OrdersStay s t := by
  have hp : t.placements = s.placements := (congrArg State.placements h :)
  have hx : t.slabs = s.slabs := (congrArg State.slabs h :)
  have hst : t.stations = s.stations := (congrArg State.stations h :)
  exact ⟨by rw [hst], fun a i => by rw [OrderedAt, OrderedAt, hp], fun y hy hs => ⟨y, hx ▸ hy, rfl, hs⟩, hj⟩

theorem jobOpens_of_core (h : jobs'.map jobCore = jobs.map jobCore) : jobs'.map jobOpens = jobs.map jobOpens := by
  have hopens := congrArg (List.map jobOpens) h
  rw [List.map_map, List.map_map] at hopens
  exact hopens

theorem ordersStay_chargeShares (c : Cause) (n : Nat) (l : List (Nat × Nat × Nat)) (s : State) :
    OrdersStay s (s.chargeShares c n l) :=
  ordersStay_of_accounts (chargeShares_exceptAccounts c n l s) (jobOpens_of_core chargeShares_core)

theorem ordersStay_lowerUnsettled (ps : List Placement) (s : State) : OrdersStay s (s.lowerUnsettled ps) := by
  refine ordersStay_of_accounts (lowerUnsettled_exceptAccounts ps s) ?_
  rw [lowerUnsettled_eq]
  show (s.jobs.map (loweredBy ps)).map jobOpens = _
  rw [List.map_map]
  rfl

/-- A settlement leaves the orders, where the slab has none. -/
theorem settle_orderly {c : Cause} {e : Ending} {x : Slab} (hb : s.Bounded) (ho : s.Orderly) (hnone : ∀ o ∈ s.orders, o.slab ≠ x.id) :
    (s.settle c e x).2.Orderly := by
  unfold State.settle
  dsimp only
  have hcleared := ordersStay_clearPlan x.id hb
  have hentered := hcleared.trans (ordersStay_enterRemnants x ((keeps_clearPlan x.id).2 hb))
  generalize ((s.clearPlan x.id).2.enterRemnants x).2 = v at hentered ⊢
  generalize sharesOf e _ _ = shares
  generalize v.cutPieces x.id = ps
  have hcharged := hentered.trans (ordersStay_chargeShares c x.id shares v)
  generalize v.chargeShares c x.id shares = w at hcharged ⊢
  have hclosed (n m : Nat) : ((w.addLoss m).closeSlab x.id n e).Orderly := by
    refine orderly_of_books ho hcharged.queues hcharged.ordered (fun y hy hs o hmem => ?_) hcharged.jobs
    obtain ⟨z, hz, rfl⟩ := List.mem_map.1 hy
    split at hs
    · rename_i hid
      rw [if_pos hid]
      exact hid ▸ hnone o hmem
    · rename_i hid
      rw [if_neg hid]
      obtain ⟨a, ha, haz, has⟩ := hcharged.settled z hz hs
      exact haz ▸ (orderly_iff.1 ho).2.unsettled a ha has o hmem
  exact (ordersStay_of_tables rfl).orderly ((ordersStay_lowerUnsettled ps _).orderly (hclosed _ _))

end

end Sys2Proof.Proofs
end

