-- ==== Sys2Proof/Proofs/OrdersMove.lean ====
section
/-! SUPPORT. Orders that come and go keep the law of the orders. Settles O5. -/

namespace Sys2Proof.Proofs

open Sys2Proof Sys2Proof.Config Sys2Proof.Machine

section
variable {s t u : State} {l m : List CutOrder} {ordered ordered' : Nat → Nat → Prop} {slabs slabs' : List Slab}
  {jobs jobs' : List Job} {p q : Placement} {o new : CutOrder}

/-! ## An order less -/

/-- The orders without one. -/
abbrev without (o : CutOrder) (l : List CutOrder) : List CutOrder :=
  l.filter (fun y => decide (¬ (y.slab = o.slab ∧ y.index = o.index)))

theorem eq_of_same (h : l.Pairwise (fun a b => ¬ a.same b)) {a b : CutOrder} (ha : a ∈ l) (hb : b ∈ l) (hab : a.same b) : a = b := by
  by_contra hne
  have hsymm : Std.Symm (fun a b : CutOrder => ¬ a.same b) := ⟨fun _ _ h e => h ⟨e.1.symm, e.2.symm⟩⟩
  exact List.Pairwise.forall h ha hb hne hab

theorem countP_without (h : l.Pairwise (fun a b => ¬ a.same b)) (ho : o ∈ l) (c : CutOrder → Bool) :
    (without o l).countP c = l.countP c - (c o).toNat := by
  have hnodup : l.Nodup := h.imp (fun {a b} hne (e : a = b) => hne (by rw [e]; exact ⟨rfl, rfl⟩))
  have hat {y : CutOrder} (hy : y ∈ l) : (y.slab = o.slab ∧ y.index = o.index) ↔ y = o :=
    ⟨fun e => eq_of_same h hy ho e, fun e => by rw [e]; exact ⟨rfl, rfl⟩⟩
  have hsplit : l.countP c = (without o l).countP c + l.countP (fun y => c y && decide (y = o)) := by
    rw [List.countP_filter]
    refine countP_split (fun y hy => ?_)
    by_cases e : y = o
    · simp [e]
    · simp [e, hat hy]
  have hone : l.countP (fun y => c y && decide (y = o)) = (c o).toNat := by
    cases hc : c o with
    | true => exact countP_eq_one hnodup ho (fun y _ => by
        constructor
        · intro hy
          exact of_decide_eq_true (Bool.and_eq_true_iff.1 hy).2
        · rintro rfl
          simp [hc])
    | false => exact List.countP_eq_zero.2 (fun y _ hy => by
        obtain ⟨hcy, he⟩ := Bool.and_eq_true_iff.1 hy
        rw [of_decide_eq_true he, hc] at hcy
        cases hcy)
  omega

/-- The books with one order less, its placement no longer ORDERED and its job's count lowered. -/
theorem Books.without (h : Books l ordered slabs jobs) (ho : o ∈ l)
    (hord : ∀ a i, ordered' a i ↔ ordered a i ∧ ¬ (o.slab = a ∧ o.index = i))
    (hs : ∀ y ∈ slabs', y.state.isSettled = true → ∃ x ∈ slabs, x.id = y.id ∧ x.state.isSettled = true)
    (hj : jobs'.map jobOpens = (jobsLowered o.job jobs).map jobOpens) : Books (without o l) ordered' slabs' jobs' := by
  refine Books.of_jobs ⟨h.apart.filter _, fun a ha b hb => ?_, fun a i => (hord a i).trans ?_, fun y hy hys b hb => ?_,
    fun b hb n hn => ?_, fun j hj' => ?_, fun j hj' hc => ?_⟩ hj
  · exact h.oneSaw a (List.mem_filter.1 ha).1 b (List.mem_filter.1 hb).1
  · rw [h.placed a i]
    constructor
    · rintro ⟨⟨b, hb, rfl, rfl⟩, hne⟩
      exact ⟨b, List.mem_filter.2 ⟨hb, decide_eq_true (fun e => hne ⟨e.1.symm, e.2.symm⟩)⟩, rfl, rfl⟩
    · rintro ⟨b, hb, rfl, rfl⟩
      obtain ⟨hb, hne⟩ := List.mem_filter.1 hb
      exact ⟨⟨b, hb, rfl, rfl⟩, fun e => of_decide_eq_true hne ⟨e.1.symm, e.2.symm⟩⟩
  · obtain ⟨x, hx, hid, hxs⟩ := hs y hy hys
    exact hid ▸ h.unsettled x hx hxs b (List.mem_filter.1 hb).1
  · obtain ⟨j, hj', hid⟩ := h.named b (List.mem_filter.1 hb).1 n hn
    refine ⟨_, List.mem_map_of_mem hj', ?_⟩
    split <;> exact hid
  · obtain ⟨k, hk, rfl⟩ := List.mem_map.1 hj'
    have hcount := h.counted k hk
    have hless := countP_without h.apart ho (fun b => decide (b.job = some k.id))
    by_cases hjob : o.job = some k.id
    · rw [if_pos hjob]
      have hhit : (decide (o.job = some k.id)).toNat = 1 := by rw [decide_eq_true hjob]; rfl
      rw [hhit, ← hcount] at hless
      exact hless.symm
    · rw [if_neg hjob]
      have hmiss : (decide (o.job = some k.id)).toNat = 0 := by rw [decide_eq_false hjob]; rfl
      rw [hmiss, ← hcount] at hless
      exact hless.symm
  · obtain ⟨k, hk, rfl⟩ := List.mem_map.1 hj'
    by_cases hjob : o.job = some k.id
    · rw [if_pos hjob] at hc ⊢
      have hzero := h.closed k hk hc
      show k.openOrders - 1 = 0
      omega
    · rw [if_neg hjob] at hc ⊢
      exact h.closed k hk hc

/-- A state with one order less. -/
theorem orderly_without (h : s.Orderly) (ho : o ∈ s.orders)
    (hst : t.stations = (s.modifySaw o.saw (Saw.removeOrder o)).stations)
    (hord : ∀ a i, OrderedAt t a i ↔ OrderedAt s a i ∧ ¬ (o.slab = a ∧ o.index = i))
    (hs : ∀ y ∈ t.slabs, y.state.isSettled = true → ∃ x ∈ s.slabs, x.id = y.id ∧ x.state.isSettled = true)
    (hj : t.jobs.map jobOpens = (jobsLowered o.job s.jobs).map jobOpens) : t.Orderly := by
  obtain ⟨hstations, hbooks⟩ := orderly_iff.1 h
  refine orderly_iff.2 ⟨?_, orders_removeOrder h ho hst ▸ hbooks.without ho hord hs hj⟩
  rw [hst]
  refine List.forall_mem_map.2 (fun st hmem => ?_)
  split
  · refine stationOrderly_of_sublist (hstations st hmem) rfl id ?_
    rw [queueOf_removeOrder]
    exact List.filter_sublist
  · exact hstations st hmem

theorem orderedAt_returned (hl : PlacementsLegal s.placements) (slab index a i : Nat) :
    OrderedAt (s.returnPlacement slab index) a i ↔ OrderedAt s a i ∧ ¬ (slab = a ∧ index = i) := by
  rw [returnPlacement_filterMap hl]
  constructor
  · rintro ⟨r, hr, rfl, rfl, hst⟩
    obtain ⟨q, hq, hqr⟩ := List.mem_filterMap.1 hr
    split at hqr
    · obtain ⟨-, rfl⟩ := returned_some hqr
      cases hst
    · rename_i hne
      cases hqr
      exact ⟨⟨r, hq, rfl, rfl, hst⟩, hne⟩
  · rintro ⟨⟨q, hq, rfl, rfl, hst⟩, hne⟩
    exact ⟨q, List.mem_filterMap.2 ⟨q, hq, if_neg hne⟩, rfl, rfl, hst⟩

theorem shedOrder_jobs (o : CutOrder) (s : State) : (s.shedOrder o).jobs = jobsLowered o.job s.jobs := by
  have hplans : (s.returnPlacement o.slab o.index).jobs = s.jobs :=
    (congrArg State.jobs (returnPlacement_exceptPlans o.slab o.index s) :)
  unfold State.shedOrder State.removeOrder
  rw [dropOpenOrder_eq]
  exact congrArg (jobsLowered o.job) hplans

theorem shedOrder_placements (o : CutOrder) (s : State) :
    (s.shedOrder o).placements = (s.returnPlacement o.slab o.index).placements := by
  unfold State.shedOrder State.removeOrder
  rw [dropOpenOrder_eq]
  rfl

theorem shedOrder_orderly (hb : s.Bounded) (h : s.Orderly) (ho : o ∈ s.orders) : (s.shedOrder o).Orderly := by
  refine orderly_without h ho (shedOrder_stations o s) (fun a i => ?_) (fun y hy hs => ⟨y, shedOrder_slabs o s ▸ hy, rfl, hs⟩)
    (by rw [shedOrder_jobs])
  unfold OrderedAt
  rw [shedOrder_placements]
  exact orderedAt_returned hb.placements o.slab o.index a i

/-! ## A DONE order -/

/-- The cents a DONE order adds to its slab (R114). -/
def doneCents (s : State) (o : CutOrder) : Nat := if o.job = none then 0 else s.materialOf o .done

theorem allocate_zero (n : Nat) (l : List Slab) : modifyBy Slab.id n (fun x => { x with allocated := x.allocated + 0 }) l = l :=
  (List.map_congr_left (fun x _ => ite_self x)).trans (List.map_id l)

/-- What a DONE order's charges change of the tables: its slab's allocated cents, and the accounts of its job. -/
theorem charged_done (c : Cause) (w : SawConfig) (o : CutOrder) (n : Nat) (s : State) :
    let t := (s.completionCharges c w o .done n).2
    t.stations = s.stations ∧ t.placements = s.placements ∧ t.jobs.map jobCore = s.jobs.map jobCore
      ∧ t.slabs = modifyBy Slab.id o.slab (fun x => { x with allocated := x.allocated + doneCents s o }) s.slabs := by
  intro t
  have hst : t.stations = s.stations := (congrArg State.stations (completionCharges_exceptTables c w o .done n s) :)
  refine ⟨hst, ?_⟩
  cases ho : o.job with
  | none =>
    have ht : t = s.addOverheadCents (bladeCharge n w.sawRate) (bladeCharge n w.wearRate) := by
      show (s.completionCharges c w o .done n).2 = _
      unfold State.completionCharges
      rw [ho]
    have hzero : doneCents s o = 0 := if_pos ho
    rw [ht, hzero, allocate_zero]
    exact ⟨rfl, rfl, rfl⟩
  | some job =>
    have ht : t = s.chargeCut c o job (bladeCharge n w.sawRate) (bladeCharge n w.wearRate)
        (waterCharge s.rates o.recycled o.fresh) (s.materialOf o .done) o.kind.isPiece n := by
      show (s.completionCharges c w o .done n).2 = _
      unfold State.completionCharges
      rw [ho]
      dsimp only
      rw [decide_eq_true (rfl : Outcome3.done = .done), Bool.and_true]
    have hcents : doneCents s o = s.materialOf o .done := if_neg (by rw [ho]; simp)
    have hcharge (u : State) (a : Accumulator) (k : Nat) : (u.charge c o.slab job a k).placements = u.placements
        ∧ (u.charge c o.slab job a k).slabs = u.slabs ∧ (u.charge c o.slab job a k).jobs.map jobCore = u.jobs.map jobCore :=
      ⟨(congrArg State.placements (charge_exceptAccounts c o.slab job a k u) :),
        (congrArg State.slabs (charge_exceptAccounts c o.slab job a k u) :), charge_core⟩
    have hadd (u : State) (a : Accumulator) (k : Nat) : (u.addToJob c o.slab job a k).placements = u.placements
        ∧ (u.addToJob c o.slab job a k).slabs = u.slabs ∧ (u.addToJob c o.slab job a k).jobs.map jobCore = u.jobs.map jobCore :=
      ⟨(congrArg State.placements (addToJob_exceptAccounts c o.slab job a k u) :),
        (congrArg State.slabs (addToJob_exceptAccounts c o.slab job a k u) :), addToJob_core⟩
    rw [ht, hcents]
    unfold State.chargeCut
    dsimp only
    simp only [(hadd _ _ _).1, (hadd _ _ _).2.1, (hadd _ _ _).2.2]
    split
    · unfold State.chargeMaterial
      show (State.charge _ _ _ _ _ _).placements = _ ∧ (State.charge _ _ _ _ _ _).jobs.map jobCore = _
        ∧ modifyBy _ _ _ (State.charge _ _ _ _ _ _).slabs = _
      simp only [(hcharge _ _ _).1, (hcharge _ _ _).2.1, (hcharge _ _ _).2.2, and_self]
    · rename_i hpiece
      have hzero : s.materialOf o .done = 0 := if_neg (fun h => hpiece h.1)
      rw [hzero, allocate_zero]
      simp only [(hcharge _ _ _).1, (hcharge _ _ _).2.1, (hcharge _ _ _).2.2, and_self]

/-- A job's id, its two counts and its state. -/
def jobBook (j : Job) : Nat × Nat × Nat × JobState := (j.id, j.openOrders, j.unsettled, j.state)

/-- A job's book when an order of it is DONE: an order less, and a piece more. -/
def doneBook (o : CutOrder) (b : Nat × Nat × Nat × JobState) : Nat × Nat × Nat × JobState :=
  if o.job = some b.1 then (b.1, b.2.1 - 1, b.2.2.1 + (if o.kind.isPiece then 1 else 0), b.2.2.2) else b

theorem jobBook_of_core (h : jobs'.map jobCore = jobs.map jobCore) : jobs'.map jobBook = jobs.map jobBook := by
  have hbooks := congrArg (List.map jobBook) h
  rw [List.map_map, List.map_map] at hbooks
  exact hbooks

theorem countPiece_books (o : CutOrder) (s : State) : (jobsLowered o.job (s.countPiece o).jobs).map jobBook
    = (s.jobs.map jobBook).map (doneBook o) := by
  unfold State.countPiece jobsLowered
  rw [List.map_map, List.map_map]
  cases ho : o.job with
  | none =>
    refine List.map_congr_left (fun j _ => ?_)
    simp [doneBook, ho]
  | some n =>
    dsimp only
    split
    · rename_i hpiece
      show (List.map _ s.jobs).map _ = _
      rw [List.map_map]
      refine List.map_congr_left (fun j _ => ?_)
      by_cases hj : j.id = n
      · simp [doneBook, jobBook, ho, hj, hpiece]
      · simp [doneBook, jobBook, ho, hj, Ne.symm hj]
    · rename_i hpiece
      refine List.map_congr_left (fun j _ => ?_)
      by_cases hj : j.id = n
      · simp [doneBook, jobBook, ho, hj, hpiece]
      · simp [doneBook, jobBook, ho, Ne.symm hj]

theorem jobOpens_of_book (h : jobs'.map jobBook = (jobs.map jobBook).map (doneBook o)) :
    jobs'.map jobOpens = (jobsLowered o.job jobs).map jobOpens := by
  have hopens := congrArg (List.map (fun b : Nat × Nat × Nat × JobState => (b.1, b.2.1, b.2.2.2))) h
  rw [List.map_map, List.map_map, List.map_map] at hopens
  refine Eq.trans hopens ?_
  unfold jobsLowered
  rw [List.map_map]
  refine List.map_congr_left (fun j _ => ?_)
  by_cases hj : o.job = some j.id
  · simp [doneBook, jobBook, jobOpens, hj]
  · simp [doneBook, jobBook, jobOpens, hj]

/-- The tables when an order is DONE (R87, R88). -/
theorem cutDone_tables (c : Cause) (w : SawConfig) (o : CutOrder) (n : Nat) (s : State) :
    let t := cutDone c w o n s
    t.stations = (s.modifySaw o.saw (Saw.removeOrder o)).stations
      ∧ t.placements = s.placements.map (fun p => if p.slab = o.slab ∧ p.index = o.index then { p with state := .cut } else p)
      ∧ t.slabs = modifyBy Slab.id o.slab (fun x => { x with allocated := x.allocated + doneCents s o, cutMark := true }) s.slabs
      ∧ t.jobs.map jobBook = (s.jobs.map jobBook).map (doneBook o) := by
  obtain ⟨hst, hp, hj, hx⟩ := charged_done c w o n s
  have hframe (u : State) : (u.countPiece o).stations = u.stations ∧ (u.countPiece o).placements = u.placements
      ∧ (u.countPiece o).slabs = u.slabs :=
    ⟨(congrArg State.stations (countPiece_exceptAccounts o u) :), (congrArg State.placements (countPiece_exceptAccounts o u) :),
      (congrArg State.slabs (countPiece_exceptAccounts o u) :)⟩
  have hbooks : (s.completionCharges c w o .done n).2.jobs.map jobBook = s.jobs.map jobBook := jobBook_of_core hj
  unfold cutDone State.removeOrder State.placeOutcome
  rw [dropOpenOrder_eq]
  generalize (s.completionCharges c w o .done n).2 = v at hst hp hx hbooks ⊢
  dsimp only
  refine ⟨?_, ?_, ?_, ?_⟩
  · show modifyBy Station.address o.saw _ (State.countPiece o _).stations = modifyBy Station.address o.saw _ s.stations
    rw [(hframe _).1]
    exact congrArg (modifyBy Station.address o.saw _) hst
  · show (State.countPiece o _).placements = _
    rw [(hframe _).2.1]
    show v.placements.map _ = _
    rw [hp]
    simp only [at_iff]
  · show (State.countPiece o _).slabs = _
    rw [(hframe _).2.2]
    show modifyBy Slab.id o.slab _ v.slabs = _
    rw [hx]
    unfold modifyBy
    rw [List.map_map]
    refine List.map_congr_left (fun x _ => ?_)
    rw [Function.comp_apply]
    split <;> rfl
  · show (jobsLowered o.job (State.countPiece o _).jobs).map jobBook = _
    rw [countPiece_books]
    exact congrArg (List.map (doneBook o)) hbooks

theorem orderedAt_cut {s t : State} {slab index : Nat}
    (hp : t.placements = s.placements.map (fun p => if p.slab = slab ∧ p.index = index then { p with state := .cut } else p))
    (a i : Nat) : OrderedAt t a i ↔ OrderedAt s a i ∧ ¬ (slab = a ∧ index = i) := by
  unfold OrderedAt
  rw [hp]
  constructor
  · rintro ⟨r, hr, rfl, rfl, hst⟩
    obtain ⟨q, hq, rfl⟩ := List.mem_map.1 hr
    split at hst
    · cases hst
    · rename_i hne
      rw [if_neg hne]
      exact ⟨⟨q, hq, rfl, rfl, hst⟩, fun e => hne ⟨e.1.symm, e.2.symm⟩⟩
  · rintro ⟨⟨q, hq, rfl, rfl, hst⟩, hne⟩
    exact ⟨q, List.mem_map.2 ⟨q, hq, if_neg (fun e => hne ⟨e.1.symm, e.2.symm⟩)⟩, rfl, rfl, hst⟩

theorem cutDone_orderly (h : s.Orderly) (ho : o ∈ s.orders) (c : Cause) (w : SawConfig) (n : Nat) : (cutDone c w o n s).Orderly := by
  obtain ⟨hst, hp, hx, hj⟩ := cutDone_tables c w o n s
  refine orderly_without h ho hst (orderedAt_cut hp) ?_ (jobOpens_of_book hj)
  rw [hx]
  exact settled_modifyBy (fun _ _ _ => rfl) (fun _ _ _ h => h)

theorem keeps_cutDone (c : Cause) (w : SawConfig) (o : CutOrder) (n : Nat) : Keeps s (cutDone c w o n s) :=
  ((keeps_completionCharges c w o .done n).trans (keeps_placeOutcome o .done)).trans (keeps_removeOrder o.saw o)

/-! ## An order more -/

/-- The books with one order more, of a placement newly ORDERED, its job's count raised. -/
theorem Books.cons (h : Books l ordered slabs jobs) (hnew : ¬ ordered new.slab new.index)
    (hone : ∀ b ∈ l, b.slab = new.slab → b.saw = new.saw)
    (hord : ∀ a i, ordered' a i ↔ ordered a i ∨ (new.slab = a ∧ new.index = i))
    (hs : ∀ x ∈ slabs, x.state.isSettled = true → new.slab ≠ x.id)
    (hjob : ∀ n ∈ new.job, ∃ j ∈ jobs, j.id = n) (hopen : ∀ j ∈ jobs, new.job = some j.id → j.state ≠ .closed)
    (hj : jobs' = jobs.map (fun j => if new.job = some j.id then { j with openOrders := j.openOrders + 1 } else j)) :
    Books (new :: l) ordered' slabs jobs' := by
  subst hj
  refine ⟨List.pairwise_cons.2 ⟨fun b hb e => hnew ((h.placed _ _).2 ⟨b, hb, e.1.symm, e.2.symm⟩), h.apart⟩, ?_,
    fun a i => (hord a i).trans ?_, fun x hx hxs => List.forall_mem_cons.2 ⟨hs x hx hxs, h.unsettled x hx hxs⟩, ?_, ?_, ?_⟩
  · refine List.forall_mem_cons.2 ⟨List.forall_mem_cons.2 ⟨fun _ => rfl, fun b hb hab => (hone b hb hab.symm).symm⟩, ?_⟩
    exact fun a ha => List.forall_mem_cons.2 ⟨hone a ha, h.oneSaw a ha⟩
  · rw [h.placed a i, List.exists_mem_cons_iff, or_comm]
  · have hraised {n : Nat} (hn : ∃ j ∈ jobs, j.id = n) : ∃ j ∈ jobs.map (fun j =>
        if new.job = some j.id then { j with openOrders := j.openOrders + 1 } else j), j.id = n := by
      obtain ⟨j, hj, hid⟩ := hn
      refine ⟨_, List.mem_map_of_mem hj, ?_⟩
      split <;> exact hid
    exact List.forall_mem_cons.2 ⟨fun n hn => hraised (hjob n hn), fun b hb n hn => hraised (h.named b hb n hn)⟩
  · refine List.forall_mem_map.2 (fun j hj => ?_)
    rw [List.countP_cons]
    by_cases hn : new.job = some j.id
    · rw [if_pos hn]
      show j.openOrders + 1 = List.countP (fun o => decide (o.job = some j.id)) l + _
      rw [if_pos (decide_eq_true hn), h.counted j hj]
    · rw [if_neg hn, if_neg (fun e => hn (of_decide_eq_true e)), h.counted j hj]
      rfl
  · refine List.forall_mem_map.2 (fun j hj hc => ?_)
    by_cases hn : new.job = some j.id
    · rw [if_pos hn] at hc
      exact absurd hc (hopen j hj hn)
    · rw [if_neg hn] at hc ⊢
      exact h.closed j hj hc

theorem Books.perm (h : Books l ordered slabs jobs) (hm : m.Perm l) : Books m ordered slabs jobs := by
  refine ⟨(hm.pairwise_iff (fun {a b} hne e => hne ⟨e.1.symm, e.2.symm⟩)).2 h.apart,
    fun a ha b hb => h.oneSaw a (hm.mem_iff.1 ha) b (hm.mem_iff.1 hb), fun a i => (h.placed a i).trans ?_,
    fun x hx hs o ho => h.unsettled x hx hs o (hm.mem_iff.1 ho), fun o ho => h.named o (hm.mem_iff.1 ho),
    fun j hj => (h.counted j hj).trans (hm.countP_eq _).symm, h.closed⟩
  exact exists_congr (fun o => and_congr_left (fun _ => hm.mem_iff.symm))

/-- An order put at the tail of one queue of a table without double addresses. -/
theorem perm_queued {L : List Station} {a : Nat} {g : Station → Station} (hr : Rising Station.address L)
    (hmem : ∃ st ∈ L, st.address = a) (hg : ∀ st ∈ L, st.address = a → queueOf (g st) = queueOf st ++ [new]) :
    ((L.map (fun st => if st.address = a then g st else st)).flatMap queueOf).Perm (new :: L.flatMap queueOf) := by
  induction L with
  | nil =>
    obtain ⟨st, hst, -⟩ := hmem
    cases hst
  | cons z L ih =>
    obtain ⟨hz, hL⟩ := List.pairwise_cons.1 hr
    rw [List.map_cons, List.flatMap_cons, List.flatMap_cons]
    by_cases ha : z.address = a
    · have hrest : L.map (fun st => if st.address = a then g st else st) = L := by
        refine (List.map_congr_left (fun st hst => if_neg (fun e => ?_))).trans (List.map_id L)
        have := hz st hst
        omega
      rw [if_pos ha, hg z List.mem_cons_self ha, hrest, List.append_assoc]
      exact List.perm_middle
    · rw [if_neg ha]
      obtain ⟨st, hst, hsta⟩ := hmem
      have htail : ∃ st ∈ L, st.address = a := by
        rcases List.mem_cons.1 hst with rfl | hst
        · exact absurd hsta ha
        · exact ⟨st, hst, hsta⟩
      exact ((ih hL htail (fun y hy => hg y (List.mem_cons_of_mem _ hy))).append_left _).trans List.perm_middle

/-- What the passed admission checks say of the tables (R61 to R65). -/
theorem admissionCheck_spec {dst slab index : Nat} {job : Option Nat} (h : admissionCheck s dst job slab index = none)
    (hp : s.placement? slab index = some p) : ∃ x, s.slab? slab = some x ∧ x.state.isStock = true ∧ p.state = .planned
      ∧ (∀ n ∈ p.job, ∃ j, s.job? n = some j ∧ j.state = .opened) ∧ ∀ o ∈ s.orders, o.slab = slab → o.saw = dst := by
  unfold admissionCheck at h
  split at h
  · cases h
  next x hx =>
    obtain ⟨hslab, h⟩ := or_none h
    rw [hp] at h
    dsimp only at h
    obtain ⟨hplacement, h⟩ := or_none h
    obtain ⟨hjob, h⟩ := or_none h
    obtain ⟨-, hsaw⟩ := or_none h
    obtain ⟨-, hslab⟩ := or_none hslab
    obtain ⟨hstock, -⟩ := or_none hslab
    obtain ⟨hplanned, -⟩ := or_none hplacement
    refine ⟨x, hx, checkThat_none hstock, of_decide_eq_true (checkThat_none hplanned), fun n hn => ?_, fun o ho hslab => ?_⟩
    · unfold jobOpenCheck at hjob
      rw [show p.job = some n from hn] at hjob
      dsimp only at hjob
      split at hjob
      · cases hjob
      next j hj => exact ⟨j, hj, of_decide_eq_true (checkThat_none hjob)⟩
    · have hid : x.id = slab := (findBy_some _ hx).2
      unfold sawChecks at hsaw
      split at hsaw
      · cases hsaw
      · split at hsaw
        · cases hsaw
        · obtain ⟨-, hsaw⟩ := or_none hsaw
          obtain ⟨-, hsaw⟩ := or_none hsaw
          obtain ⟨hsplit, -⟩ := or_none hsaw
          unfold splitCheck at hsplit
          split at hsplit
          · rename_i hfind
            by_contra hne
            refine List.find?_eq_none.1 hfind o ho ?_
            rw [decide_eq_true (hslab.trans hid.symm), decide_eq_true hne]
            rfl
          · cases hsplit

/-- The tables when an order is admitted (R68). -/
theorem admitOrder_tables (p : Placement) (dst f : Nat) (s : State) :
    let t := s.admitOrder p dst f
    let new := newOrder p dst f (advance32 s.admissionCounter)
    t.slabs = s.slabs
      ∧ t.stations = (s.modifySaw dst (fun w => { w with queue := w.queue ++ [new] })).stations
      ∧ t.placements = s.placements.map (fun q => if q.slab = p.slab ∧ q.index = p.index then { q with state := .ordered } else q)
      ∧ t.jobs = s.jobs.map (fun j => if new.job = some j.id then { j with openOrders := j.openOrders + 1 } else j) := by
  unfold State.admitOrder
  rw [raiseOpenOrder_eq]
  refine ⟨rfl, rfl, ?_, rfl⟩
  show s.placements.map _ = _
  simp only [at_iff]

theorem orderedAt_admitted (hp : p ∈ s.placements)
    (ht : t.placements = s.placements.map (fun q => if q.slab = p.slab ∧ q.index = p.index then { q with state := .ordered } else q))
    (a i : Nat) : OrderedAt t a i ↔ OrderedAt s a i ∨ (p.slab = a ∧ p.index = i) := by
  unfold OrderedAt
  rw [ht]
  constructor
  · rintro ⟨r, hr, rfl, rfl, hst⟩
    obtain ⟨q, hq, rfl⟩ := List.mem_map.1 hr
    split
    · rename_i hat
      exact .inr ⟨hat.1.symm, hat.2.symm⟩
    · rename_i hat
      rw [if_neg hat] at hst
      exact .inl ⟨q, hq, rfl, rfl, hst⟩
  · rintro (⟨q, hq, rfl, rfl, hst⟩ | ⟨rfl, rfl⟩)
    · refine ⟨_, List.mem_map_of_mem hq, ?_⟩
      split
      · exact ⟨rfl, rfl, rfl⟩
      · exact ⟨rfl, rfl, hst⟩
    · exact ⟨_, List.mem_map_of_mem hp, by rw [if_pos ⟨rfl, rfl⟩]; exact ⟨rfl, rfl, rfl⟩⟩

theorem queueOf_queued (st : Station) {w : Saw} (hw : st.saw = some w) (new : CutOrder) :
    queueOf (st.mapSaw (fun w => { w with queue := w.queue ++ [new] })) = queueOf st ++ [new] := by
  unfold queueOf Station.mapSaw
  rw [hw]
  rfl

/-- R68: an admitted order keeps the law. -/
theorem admitOrder_orderly {dst slab index : Nat} {job : Option Nat} {w : Saw} (f : Nat) (hb : s.Bounded) (ho : s.Orderly)
    (hc : admissionCheck s dst job slab index = none) (hp : s.placement? slab index = some p) (hw : s.saw? dst = some w) :
    (s.admitOrder p dst f).Orderly := by
  obtain ⟨hstations, hbooks⟩ := orderly_iff.1 ho
  obtain ⟨x, hx, hstock, hplanned, hjob, hone⟩ := admissionCheck_spec hc hp
  obtain ⟨hmem, rfl, rfl⟩ := mem_of_placement? hp
  obtain ⟨hslabs, hst, hplacements, hjobs⟩ := admitOrder_tables p dst f s
  let new := newOrder p dst f (advance32 s.admissionCounter)
  obtain ⟨st₀, hst₀, hsaw₀⟩ := Option.bind_eq_some_iff.1 hw
  obtain ⟨hmem₀, haddr₀⟩ := findBy_some _ hst₀
  have hsaw {st : Station} (hst : st ∈ s.stations) (ha : st.address = dst) : st.saw = some w :=
    (queueOf_of_saw hb hw hst ha).1
  have hperm : (s.admitOrder p dst f).orders.Perm (new :: s.orders) := by
    rw [orders_eq, orders_eq, hst]
    exact perm_queued hb.stations.1 ⟨st₀, hmem₀, haddr₀⟩ (fun st hst ha => queueOf_queued st (hsaw hst ha) new)
  refine orderly_iff.2 ⟨?_, hslabs ▸ Books.perm (Books.cons hbooks ?_ hone (orderedAt_admitted hmem hplacements) (fun y hy hys e => ?_)
    ?_ ?_ hjobs) hperm⟩
  · rw [hst]
    refine List.forall_mem_map.2 (fun st hmem => ?_)
    split
    · rename_i ha
      obtain ⟨hcarried, hactive, hidle⟩ := stationOrderly_iff.1 (hstations st hmem)
      rw [stationOrderly_iff, queueOf_queued st (hsaw hmem ha) new]
      refine ⟨List.forall_mem_append.2 ⟨hcarried, List.forall_mem_singleton.2 ha.symm⟩, ?_,
        fun hne => List.forall_mem_append.2 ⟨hidle hne, List.forall_mem_singleton.2 (.inl rfl)⟩⟩
      rw [List.countP_append]
      exact hactive
    · exact hstations st hmem
  · rintro ⟨q, hq, hs, hi, hqst⟩
    rw [placement_unique hb.placements hq hmem hs hi, hplanned] at hqst
    cases hqst
  · obtain ⟨hxm, hxid⟩ := findBy_some _ hx
    obtain rfl : y = x := rising_unique Slab.id hb.slabs.1 hy hxm (e.symm.trans hxid.symm)
    rw [not_settled_of_stock hstock] at hys
    cases hys
  · intro n hn
    obtain ⟨j, hj, -⟩ := hjob n hn
    exact ⟨j, findBy_some _ hj⟩
  · intro j hj hn hclosed
    obtain ⟨k, hk, hopen⟩ := hjob j.id hn
    obtain ⟨hkm, hkid⟩ := findBy_some _ hk
    obtain rfl : j = k := rising_unique Job.id hb.jobs.1 hj hkm hkid.symm
    rw [hopen] at hclosed
    cases hclosed

end

end Sys2Proof.Proofs
end

