-- ==== Sys2Proof/Proofs/OrderlySteps.lean ====
section
/-! SUPPORT. Every step keeps the law of the orders. Settles O5. -/

namespace Sys2Proof.Proofs

open Sys2Proof Sys2Proof.Config Sys2Proof.Machine

section
variable {s t : State} {p : Placement} {o : CutOrder} {x : Slab}

/-! ## Jobs that come and go -/

theorem addJob_orderly {n : Nat} (h : s.Orderly) (hn : s.job? n = none) : (s.addJob (newJob n)).Orderly := by
  obtain ⟨hst, hbooks⟩ := orderly_iff.1 h
  have hmem {j : Job} : j ∈ (s.addJob (newJob n)).jobs ↔ j = newJob n ∨ j ∈ s.jobs := mem_insertBy _ _ _ _
  refine orderly_iff.2 ⟨hst, hbooks.apart, hbooks.oneSaw, hbooks.placed, hbooks.unsettled, fun o ho k hk => ?_, fun j hj => ?_,
    fun j hj hc => ?_⟩
  · obtain ⟨j, hj, hid⟩ := hbooks.named o ho k hk
    exact ⟨j, hmem.2 (.inr hj), hid⟩
  · rcases hmem.1 hj with rfl | hj
    · refine (List.countP_eq_zero.2 (fun o ho hc => ?_)).symm
      obtain ⟨j, hj, hid⟩ := hbooks.named o ho n (of_decide_eq_true hc)
      exact List.find?_eq_none.1 hn j hj (decide_eq_true hid)
    · exact hbooks.counted j hj
  · rcases hmem.1 hj with rfl | hj
    · cases hc
    · exact hbooks.closed j hj hc

/-- A CLOSED job has no orders, and goes alone. -/
theorem freeBill_orderly {b : Nat} {rest : List Nat} (hb : s.Bounded) (h : s.Orderly) (hbills : s.bills = b :: rest) :
    (({ s with bills := rest } : State).freeJob b).Orderly := by
  obtain ⟨hst, hbooks⟩ := orderly_iff.1 h
  have hmem {j : Job} : j ∈ (({ s with bills := rest } : State).freeJob b).jobs ↔ j ∈ s.jobs ∧ j.id ≠ b := mem_eraseBy _
  obtain ⟨k, hk, hkid, hclosed⟩ := hb.jobs.2.2.2.2.1 b (by rw [hbills]; exact List.mem_cons_self)
  have hzero : s.orders.countP (fun o => decide (o.job = some b)) = 0 := by
    rw [← hkid, ← hbooks.counted k hk]
    exact hbooks.closed k hk hclosed
  refine orderly_iff.2 ⟨hst, hbooks.apart, hbooks.oneSaw, hbooks.placed, hbooks.unsettled, fun o ho n hn => ?_,
    fun j hj => hbooks.counted j (hmem.1 hj).1, fun j hj => hbooks.closed j (hmem.1 hj).1⟩
  obtain ⟨j, hj, hid⟩ := hbooks.named o ho n hn
  refine ⟨j, hmem.2 ⟨hj, fun e => ?_⟩, hid⟩
  refine List.countP_eq_zero.1 hzero o ho (decide_eq_true ?_)
  rw [show o.job = some n from hn, ← hid, e]

/-! ## Slabs that come and go -/

theorem ordersStay_addSlab {x : Slab} (hx : x.state.isSettled = false) (s : State) : OrdersStay s (s.addSlab x) := by
  refine ⟨rfl, fun _ _ => Iff.rfl, fun y hy hs => ?_, rfl⟩
  rcases (mem_insertBy _ _ _ _).1 hy with rfl | hy
  · rw [hx] at hs
    cases hs
  · exact ⟨y, hy, rfl, hs⟩

theorem ordersStay_addPlacement (hp : p.state = .planned) (s : State) : OrdersStay s (s.addPlacement p) := by
  refine ⟨rfl, fun a i => ⟨?_, ?_⟩, fun y hy hs => ⟨y, hy, rfl, hs⟩, rfl⟩
  · rintro ⟨q, hq, hs, hi, hst⟩
    rcases (mem_insertBy _ _ _ _).1 hq with rfl | hq
    · rw [hp] at hst
      cases hst
    · exact ⟨q, hq, hs, hi, hst⟩
  · rintro ⟨q, hq, h⟩
    exact ⟨q, (mem_insertBy _ _ _ _).2 (.inr hq), h⟩

theorem ordersStay_reserveRemnant (x : Slab) (q : PlaceRequest) (s : State) : OrdersStay s (s.reserveRemnant x q) := by
  unfold State.reserveRemnant
  split
  · exact .refl s
  · exact ordersStay_addSlab rfl s

/-- A settled slab has no ORDERED placement, and goes with its placements. -/
theorem retire_orderly {a : Nat} (h : s.Orderly) (hx : s.slab? a = some x) (hs : x.state.isSettled = true) :
    (({ s with placements := s.placements.filter (fun p => decide (p.slab ≠ a)) } : State).freeSlab a).Orderly := by
  obtain ⟨hmem, rfl⟩ := findBy_some _ hx
  refine OrdersStay.orderly (s := s) ⟨rfl, orderedAt_filter rfl (fun q hq hst => decide_eq_true (fun e => ?_)),
    fun y hy hys => ⟨y, ((mem_eraseBy _).1 hy).1, rfl, hys⟩, rfl⟩ h
  obtain ⟨-, hbooks⟩ := orderly_iff.1 h
  obtain ⟨o, ho, hslab, -⟩ := (hbooks.placed _ _).1 ⟨q, hq, rfl, rfl, hst⟩
  exact hbooks.unsettled x hmem hs o ho (hslab.trans e)

/-! ## Bounds -/

theorem keeps_addDefect {a : Nat} (r : Rect) (hx : s.slab? a = some x) (hlen : x.defects.length < maxDefects) :
    Keeps s (s.modifySlab a (fun z => { z with defects := z.defects ++ [r] })) := by
  refine keeps_modifySlab _ _ (fun _ => rfl) (fun h y hy e => ?_) (fun _ => rfl)
  obtain ⟨hmem, hid⟩ := findBy_some _ hx
  obtain rfl : y = x := rising_unique Slab.id h.1 hy hmem (e.trans hid.symm)
  rw [List.length_append, List.length_singleton]
  omega

theorem keeps_dropMets (a : Nat) (r : Rect) (L : List Nat) (acc : Nat × State) : Keeps acc.2 (L.foldl (dropMet a r) acc).2 :=
  Keeps.foldl_snd (f := dropMet a r) (fun b i => keeps_dropMet a r b i) L acc

theorem keeps_placed {a k j pp pi rs i : Nat} {r : Rect} {q : PlaceRequest} (hq : placeForm a k r j pp pi rs = some q)
    (hc : placeCheck s q = none) (hx : s.slab? a = some x) (hi : s.freeIndex a = some i) :
    Keeps s ((s.addPlacement (q.entry i s.constants.kerf)).reserveRemnant x q) := by
  obtain ⟨rfl, hremnant⟩ := Machine.placeForm_remnant hq
  obtain ⟨hroom, hgeometry⟩ := placeCheck_none hx hc
  obtain ⟨hlow, hfree⟩ := freeIndex_some hi
  refine (keeps_addPlacement (p := q.entry i s.constants.kerf) hfree hroom hlow).trans
    (keeps_reserveRemnant (findBy_some _ hx).1 (fun m hm => ?_))
  have hk : q.kind = .remnant := hremnant (by rw [hm]; simp)
  simp only [geometryCheck, hk] at hgeometry
  obtain ⟨-, hgeometry⟩ := or_none hgeometry
  obtain ⟨-, hremnant⟩ := or_none hgeometry
  have hspec := remnantCheck_none hremnant
  rw [hm] at hspec
  exact hspec

/-! ## The law survives -/

/-- A change of tables in which the orders stay. -/
theorem survive_stay (hk : Keeps s t) (h : OrdersStay s t) (hs : s.Bounded ∧ s.Orderly) : t.Bounded ∧ t.Orderly :=
  ⟨hk.2 hs.1, h.orderly hs.2⟩

theorem plainReset_orderly (s : State) (n : Nat) (r : ResetReport) : (s.plainReset n r).Orderly :=
  ⟨fun _ h => absurd h List.not_mem_nil, List.Pairwise.nil, fun _ h => absurd h List.not_mem_nil,
    fun _ h => absurd h List.not_mem_nil, fun _ h => absurd h List.not_mem_nil, fun _ h => absurd h List.not_mem_nil,
    fun _ h => absurd h List.not_mem_nil, fun _ h => absurd h List.not_mem_nil⟩

/-- The law of the orders survives every change. -/
theorem survives_orderly : Survives (fun s => s.Bounded ∧ s.Orderly) (fun _ => True) where
  bounded h := h.1
  orderly h := h.2
  pending l h := ⟨bounded_pending h.1 l, h.2⟩
  calm hb hc h := ⟨hb, hc.orderly h.2⟩
  reset s n r := ⟨plainReset_bounded n r, plainReset_orderly s n r⟩
  stock _ := trivial
  ordered _ _ _ := trivial
  lock a l := survive_stay (keeps_editSlab _ _ (fun _ => rfl) (fun _ => rfl) (fun _ => rfl))
    (ordersStay_modifySlab a (fun z => { z with lock := l }) (fun _ => rfl) (fun _ h => h) _)
  basis {s a v x} _ _ _ _ := survive_stay (keeps_editSlab _ _ (fun _ => rfl) (fun _ => rfl) (fun _ => rfl))
    (ordersStay_modifySlab a (fun z => { z with basis := v }) (fun _ => rfl) (fun _ h => h) _)
  defect {s a x r} hx _ hlen _ _ h := by
    have hgrown := ordersStay_modifySlab a (fun z => { z with defects := z.defects ++ [r] }) (fun _ => rfl) (fun _ h => h) s
    have hkept := keeps_addDefect r hx hlen
    generalize s.modifySlab a (fun z => { z with defects := z.defects ++ [r] }) = v at hgrown hkept ⊢
    exact survive_stay (hkept.trans (keeps_dropMets a r _ (0, v)))
      (hgrown.trans (ordersStay_foldl (keeps_dropMet a r) (ordersStay_dropMet a r) _ (0, v) (hkept.2 h.1))) h
  enter hn hlen hd := survive_stay (keeps_addSlab hn hlen hd (Nat.zero_le 3)) (ordersStay_addSlab rfl _)
  rack p _ _ _ := survive_stay (keeps_editSlab _ _ (fun _ => rfl) (fun _ => rfl) (fun _ => rfl))
    (ordersStay_modifySlab _ (fun z => { z with state := .racked, rack := some p }) (fun _ => rfl) (fun _ h => by cases h) _)
  unrack p _ _ := survive_stay ((keeps_clearBed _).trans (keeps_editSlab _ _ (fun _ => rfl) (fun _ => rfl) (fun _ => rfl)))
    ((ordersStay_clearBed _ _).trans (ordersStay_modifySlab _ (fun z => { z with state := .racked, rack := some p })
      (fun _ => rfl) (fun _ h => by cases h) _))
  bed _ _ _ _ := survive_stay (keeps_putOnBed _ _ _) (ordersStay_putOnBed _ _ _ _)
  unbed _ _ := survive_stay ((keeps_clearBed _).trans (keeps_editSlab _ _ (fun _ => rfl) (fun _ => rfl) (fun _ => rfl)))
    ((ordersStay_clearBed _ _).trans (ordersStay_modifySlab _ (fun z => { z with state := .received, rack := none })
      (fun _ => rfl) (fun _ h => by cases h) _))
  away _ _ := survive_stay ((keeps_clearBed _).trans (keeps_editSlab _ _ (fun _ => rfl) (fun _ => rfl) (fun _ => rfl)))
    ((ordersStay_clearBed _ _).trans (ordersStay_modifySlab _ (fun z => { z with rack := none }) (fun _ => rfl) (fun _ h => h) _))
  retire hx hs _ h := ⟨((keeps_filterPlacements _).trans (keeps_freeSlab _)).2 h.1, retire_orderly h.2 hx hs⟩
  place hq hc hx hi := survive_stay (keeps_placed hq hc hx hi)
    ((ordersStay_addPlacement rfl _).trans (ordersStay_reserveRemnant _ _ _))
  remove hp hst h := survive_stay (keeps_removePlacement _)
    (ordersStay_removePlacement h.1.placements (mem_of_placement? hp).1 (by rw [hst]; decide)) h
  settle _ _ _ hnone h := ⟨(keeps_settle _ _ _).2 h.1, settle_orderly h.1 h.2 hnone⟩
  admitted f hc hp hw h := ⟨(keeps_admit _ f hw (admissionCheck_queue hc hw)).2 h.1, admitOrder_orderly f h.1 h.2 hc hp hw⟩
  takeBack ho h := ⟨(keeps_shedOrder _).2 h.1, shedOrder_orderly h.1 h.2 ho⟩
  done c w n ho h := ⟨(keeps_cutDone c w _ n).2 h.1, cutDone_orderly h.2 ho c w n⟩
  jobOpen hn hlen h := ⟨(keeps_addJob (x := newJob _) hn hlen (by simp [Job.Legal, newJob]) (by simp [newJob])).2 h.1,
    addJob_orderly h.2 hn⟩
  takeBill hb h := ⟨(keeps_takeBill hb).2 h.1, freeBill_orderly h.1 h.2 hb⟩

end

/-- Settles O5: the law survives each change of a table, and every step is made of them. -/
theorem everyStepKeepsOrderly : Obligations.EveryStepKeepsOrderly :=
  fun _ _ hl ho h => (survives_orderly.step ⟨hl.1, ho⟩ h).2

end Sys2Proof.Proofs
end

