-- ==== Sys2Proof/Proofs/SoundLaws.lean ====
section
/-! SUPPORT. The laws of plans, beds, remnants, geometry, accounts and pieces, each as a statement about the tables it reads:
the pool, the stock as a lookup, the beds as a relation, the orders, the CUT pieces and the jobs. -/

namespace Sys2Proof.Proofs

open Sys2Proof Sys2Proof.Config Sys2Proof.Machine

/-! ## The laws -/

/-- The slab records, by id. -/
abbrev Stock := Nat → Option Slab

/-- The slab has a record that is not settled. -/
abbrev Unsettled (S : Stock) (n : Nat) : Prop := ∃ x, S n = some x ∧ x.state.isSettled = false

/-- The CUT pieces and mitres of a pool. -/
def cutsOf (P : List Placement) : List Placement := P.filter (fun p => decide (p.kind.isPiece = true ∧ p.state = .cut))

/-- A placement stands on a record that is not RESERVED, and only CUT on a settled one. -/
abbrev Home (S : Stock) (p : Placement) : Prop :=
  ∃ x, S p.slab = some x ∧ x.state ≠ .reserved ∧ (x.state.isSettled = true → p.state = .cut) ∧ (p.state = .cut → x.cutMark = true)

/-- The law of plans (R19, R20, R31, R56). -/
structure PlansLaw (P : List Placement) (S : Stock) (O : List CutOrder) : Prop where
  home : ∀ p ∈ P, Home S p
  record : ∀ p ∈ P, p.kind = .remnant ↔ p.remnantSlab ≠ none
  jobless : ∀ p ∈ P, p.kind = .remnant ↔ p.job = none
  matched : ∀ o ∈ O, ∀ p ∈ P, p.slab = o.slab → p.index = o.index → p.kind = o.kind ∧ p.job = o.job

/-- What a record's state says of its bed and its position (R3). -/
abbrev Posed (x : Slab) : Prop :=
  (x.state = .staged → x.bed ≠ none ∧ x.rack = none) ∧ (x.state = .racked → x.bed = none ∧ x.rack ≠ none)
    ∧ (x.state = .received ∨ x.state = .reserved → x.bed = none ∧ x.rack = none)

/-- The two sides of the bed relation (R3). -/
structure Paired (S : Stock) (B : Nat → Nat → Prop) : Prop where
  onBed : ∀ n x, S n = some x → ∀ a, x.bed = some a → B a n
  bedOf : ∀ a n, B a n → ∃ x, S n = some x ∧ x.bed = some a

/-- The law of beds (R3). -/
structure BedsLaw (S : Stock) (B : Nat → Nat → Prop) : Prop where
  paired : Paired S B
  posed : ∀ n x, S n = some x → Posed x

/-- The law of remnants (R31). -/
structure RemnantsLaw (P : List Placement) (S : Stock) : Prop where
  reserves : ∀ p ∈ P, ∀ r, p.remnantSlab = some r → Unsettled S p.slab → ∃ z, S r = some z ∧ z.state = .reserved
  alone : ∀ p ∈ P, ∀ q ∈ P, ∀ r, p.remnantSlab = some r → q.remnantSlab = some r → Unsettled S p.slab → Unsettled S q.slab →
    q.slab = p.slab ∧ q.index = p.index
  named : ∀ n z, S n = some z → z.state = .reserved → ∃ p ∈ P, p.remnantSlab = some n ∧ Unsettled S p.slab

/-- A reserved rectangle lies on its slab, and a piece's meets no defect. -/
abbrev Fits (a : Rect) (x : Slab) (piece : Bool) : Prop :=
  a.x + a.length ≤ x.length ∧ a.y + a.width ≤ x.width ∧ (piece = true → ∀ d ∈ x.defects, a.meets d = false)

/-- The law of geometry (R23). -/
structure FitLaw (P : List Placement) (S : Stock) : Prop where
  apart : ∀ p ∈ P, ∀ q ∈ P, q.slab = p.slab → q.index ≠ p.index → ∀ a, p.reserved = some a → ∀ b, q.reserved = some b →
    a.meets b = false
  within : ∀ p ∈ P, ∀ a, p.reserved = some a → ∀ x, S p.slab = some x → Fits a x p.kind.isPiece

/-- The CUT pieces among `C` on a slab. -/
abbrev piecesOn (C : List Placement) (n : Nat) : List Placement := C.filter (fun p => decide (p.slab = n))

/-- The law of accounts (R115, R131), but for the bound that the geometry gives. -/
structure BasisLaw (C : List Placement) (S : Stock) : Prop where
  settled : ∀ n x, S n = some x → x.state.isSettled = true → x.allocated = x.basis
  provisional : ∀ n x, S n = some x → x.state.isSettled = false → x.allocated = basisShares x (piecesOn C n)

/-- The law of unsettled pieces (R135). -/
structure PiecesLaw (C : List Placement) (S : Stock) (J : List Job) : Prop where
  counted : ∀ j ∈ J, j.unsettled = C.countP (fun p => (S p.slab).any (fun x => !x.state.isSettled) && decide (p.job = some j.id))
  closed : ∀ j ∈ J, j.state = .closed → j.unsettled = 0
  payers : ∀ p ∈ C, Unsettled S p.slab → ∃ j ∈ J, p.job = some j.id

/-- All of them. -/
structure Laws (P : List Placement) (S : Stock) (B : Nat → Nat → Prop) (O : List CutOrder) (J : List Job) : Prop where
  plans : PlansLaw P S O
  beds : BedsLaw S B
  remnants : RemnantsLaw P S
  fit : FitLaw P S
  basis : BasisLaw (cutsOf P) S
  pieces : PiecesLaw (cutsOf P) S J

/-! ## Geometry: areas of rectangles apart (R115) -/

/-- The unit squares of a rectangle. -/
def cells (a : Rect) : Finset (Nat × Nat) := Finset.Ico a.x (a.x + a.length) ×ˢ Finset.Ico a.y (a.y + a.width)

theorem card_cells (a : Rect) : (cells a).card = a.area := by
  unfold cells Rect.area
  rw [Finset.card_product, Nat.card_Ico, Nat.card_Ico, Nat.add_sub_cancel_left, Nat.add_sub_cancel_left]

theorem disjoint_cells {a b : Rect} (h : a.meets b = false) : Disjoint (cells a) (cells b) := by
  refine Finset.disjoint_left.2 (fun c hca hcb => ?_)
  simp only [cells, Finset.mem_product, Finset.mem_Ico] at hca hcb
  have hmeets : a.meets b = true := by
    simp only [Rect.meets, Bool.and_eq_true, decide_eq_true_eq]
    omega
  rw [h] at hmeets
  cases hmeets

/-- Rectangles apart from one another on a slab hold no more than its area. -/
theorem sum_area_le {L W : Nat} (l : List Rect) (hapart : l.Pairwise (fun a b => a.meets b = false))
    (hin : ∀ a ∈ l, a.x + a.length ≤ L ∧ a.y + a.width ≤ W) : (l.map Rect.area).sum ≤ L * W := by
  have hcover : ∀ m : List Rect, (∀ a ∈ m, a ∈ l) → m.Pairwise (fun a b => a.meets b = false) →
      ∃ F : Finset (Nat × Nat), F.card = (m.map Rect.area).sum ∧ (∀ c ∈ F, ∃ a ∈ m, c ∈ cells a) := by
    intro m hm hp
    induction m with
    | nil => exact ⟨∅, rfl, fun c hc => absurd hc (Finset.notMem_empty c)⟩
    | cons a m ih =>
      obtain ⟨ha, hp⟩ := List.pairwise_cons.1 hp
      obtain ⟨F, hcard, hF⟩ := ih (fun b hb => hm b (List.mem_cons_of_mem _ hb)) hp
      have hdisjoint : Disjoint (cells a) F := by
        refine Finset.disjoint_left.2 (fun c hca hcF => ?_)
        obtain ⟨b, hb, hcb⟩ := hF c hcF
        exact Finset.disjoint_left.1 (disjoint_cells (ha b hb)) hca hcb
      refine ⟨cells a ∪ F, ?_, fun c hc => ?_⟩
      · rw [Finset.card_union_of_disjoint hdisjoint, card_cells, hcard, List.map_cons, List.sum_cons]
      · rcases Finset.mem_union.1 hc with hc | hc
        · exact ⟨a, List.mem_cons_self, hc⟩
        · obtain ⟨b, hb, hcb⟩ := hF c hc
          exact ⟨b, List.mem_cons_of_mem _ hb, hcb⟩
  obtain ⟨F, hcard, hF⟩ := hcover l (fun _ h => h) hapart
  have hsub : F ⊆ Finset.range L ×ˢ Finset.range W := by
    intro c hc
    obtain ⟨a, ha, hca⟩ := hF c hc
    obtain ⟨hx, hy⟩ := hin a ha
    simp only [cells, Finset.mem_product, Finset.mem_Ico] at hca
    rw [Finset.mem_product, Finset.mem_range, Finset.mem_range]
    omega
  have hle := Finset.card_le_card hsub
  rwa [hcard, Finset.card_product, Finset.card_range, Finset.card_range] at hle

/-- The shares of a basis by areas that fit in the whole are no more than the basis. -/
theorem sum_shares_le {b T : Nat} (l : List Nat) (h : l.sum ≤ T) : (l.map (fun k => b * k / T)).sum ≤ b := by
  rcases Nat.eq_zero_or_pos T with rfl | hT
  · have hzero : (l.map (fun k => b * k / 0)).sum = 0 := by simp
    omega
  · have hmul : (l.map (fun k => b * k / T)).sum * T ≤ b * l.sum := by
      clear h
      induction l with
      | nil => simp
      | cons k l ih =>
        rw [List.map_cons, List.sum_cons, List.sum_cons, Nat.add_mul, Nat.mul_add]
        exact Nat.add_le_add (Nat.div_mul_le_self _ _) ih
    exact Nat.le_of_mul_le_mul_right (hmul.trans (Nat.mul_le_mul_left b h)) hT

section
variable {s t : State} {P Q : List Placement} {S S' : Stock} {B B' : Nat → Nat → Prop} {O O' : List CutOrder} {J J' : List Job}
  {x y z : Slab} {p q : Placement} {n : Nat}

/-- The shares of some of a slab's placements are no more than its basis. -/
theorem basisShares_le (hl : PlacementsLegal P) (h : FitLaw P S) (hx : S n = some x) {T : List Placement} (hT : T.Sublist P)
    (hs : ∀ p ∈ T, p.slab = n) : basisShares x T ≤ x.basis := by
  have hareas : (T.map Placement.area).sum ≤ x.length * x.width := by
    have hrects : (T.map Placement.area).sum = ((T.filterMap Placement.reserved).map Rect.area).sum := by
      clear hs hT
      induction T with
      | nil => rfl
      | cons p T ih =>
        rw [List.map_cons, List.sum_cons, List.filterMap_cons]
        unfold Placement.area at ih ⊢
        cases p.reserved with
        | none => rw [ih, Nat.zero_add]
        | some a => rw [List.map_cons, List.sum_cons, ih]
    rw [hrects]
    refine sum_area_le _ ?_ (fun a ha => ?_)
    · rw [List.pairwise_filterMap]
      have hapart : T.Pairwise (fun a b => ¬ (a.slab = b.slab ∧ a.index = b.index)) := (placements_apart hl).sublist hT
      refine hapart.imp_of_mem (fun {p q} hp hq hne a ha b hb => ?_)
      have hslab : q.slab = p.slab := (hs q hq).trans (hs p hp).symm
      exact h.apart p (hT.subset hp) q (hT.subset hq) hslab (fun e => hne ⟨hslab.symm, e.symm⟩) a ha b hb
    · obtain ⟨p, hp, ha⟩ := List.mem_filterMap.1 ha
      obtain ⟨hX, hY, -⟩ := h.within p (hT.subset hp) a ha x (hs p hp ▸ hx)
      exact ⟨hX, hY⟩
  have hle := sum_shares_le (b := x.basis) (T.map Placement.area) hareas
  rw [List.map_map] at hle
  exact hle

/-- An account that the laws hold is within its basis. -/
theorem allocated_le (hl : PlacementsLegal P) (hf : FitLaw P S) (hb : BasisLaw (cutsOf P) S) (hx : S n = some x) :
    x.allocated ≤ x.basis := by
  cases hs : x.state.isSettled with
  | true => exact (hb.settled n x hx hs).le
  | false =>
    rw [hb.provisional n x hx hs]
    refine basisShares_le hl hf hx (List.filter_sublist.trans List.filter_sublist) (fun p hp => ?_)
    exact of_decide_eq_true (List.mem_filter.1 hp).2

/-! ## The laws and the model's -/

theorem unsettled_iff : s.unsettled n = true ↔ Unsettled s.slab? n := by
  unfold State.unsettled
  simp [Option.any_eq_true]

theorem mem_slabs_iff (hb : s.Bounded) : x ∈ s.slabs ↔ s.slab? x.id = some x :=
  ⟨fun h => findBy_eq Slab.id hb.slabs.1 h, fun h => (findBy_some _ h).1⟩

theorem forall_slabs (hb : s.Bounded) {C : Nat → Slab → Prop} : (∀ x ∈ s.slabs, C x.id x) ↔ ∀ n x, s.slab? n = some x → C n x := by
  constructor
  · intro h n x hx
    obtain ⟨hmem, rfl⟩ := findBy_some _ hx
    exact h x hmem
  · exact fun h x hx => h x.id x ((mem_slabs_iff hb).1 hx)

theorem bedded_iff_saw (hb : s.Bounded) {a n : Nat} : Bedded s a n ↔ ∃ w, s.saw? a = some w ∧ w.bed = some n := by
  constructor
  · rintro ⟨st, hst, rfl, w, hw, hbed⟩
    refine ⟨w, ?_, hbed⟩
    unfold State.saw? State.station?
    rw [findBy_eq Station.address hb.stations.1 hst]
    exact hw
  · rintro ⟨w, hw, hbed⟩
    obtain ⟨st, hst, hsaw⟩ := Option.bind_eq_some_iff.1 hw
    obtain ⟨hmem, haddr⟩ := findBy_some _ hst
    exact ⟨st, hmem, haddr, w, hsaw, hbed⟩

/-- A saw holds one slab. -/
theorem bedded_unique (hb : s.Bounded) {a m : Nat} (h : Bedded s a n) (k : Bedded s a m) : n = m := by
  obtain ⟨w, hw, hn⟩ := (bedded_iff_saw hb).1 h
  obtain ⟨v, hv, hm⟩ := (bedded_iff_saw hb).1 k
  rw [hw] at hv
  cases hv
  exact Option.some.inj (hn.symm.trans hm)

theorem plansKept_iff : s.PlansKept ↔ PlansLaw s.placements s.slab? s.orders := by
  unfold State.PlansKept
  constructor
  · rintro ⟨hp, hm⟩
    exact ⟨fun p h => (hp p h).1, fun p h => (hp p h).2.1, fun p h => (hp p h).2.2, hm⟩
  · intro h
    exact ⟨fun p hp => ⟨h.home p hp, h.record p hp, h.jobless p hp⟩, h.matched⟩

theorem bedsAgree_iff (hb : s.Bounded) : s.BedsAgree ↔ BedsLaw s.slab? (Bedded s) := by
  have hpaired : (∀ st ∈ s.stations, ∀ w ∈ st.saw, ∀ n ∈ w.bed, ∃ x ∈ s.slab? n, x.bed = some st.address)
      ↔ ∀ a n, Bedded s a n → ∃ x, s.slab? n = some x ∧ x.bed = some a := by
    constructor
    · rintro h a n ⟨st, hst, rfl, w, hw, hbed⟩
      exact h st hst w hw n hbed
    · intro h st hst w hw n hbed
      exact h st.address n ⟨st, hst, rfl, w, hw, hbed⟩
  have hon : (∀ x ∈ s.slabs, ∀ a ∈ x.bed, ∃ w ∈ s.saw? a, w.bed = some x.id)
      ↔ ∀ n x, s.slab? n = some x → ∀ a, x.bed = some a → Bedded s a n :=
    (forall_slabs hb (C := fun n x => ∀ a ∈ x.bed, ∃ w ∈ s.saw? a, w.bed = some n)).trans
      (forall₅_congr (fun _ _ _ _ _ => (bedded_iff_saw hb).symm))
  unfold State.BedsAgree
  rw [hon, hpaired, forall_slabs hb (C := fun _ x => Posed x)]
  exact ⟨fun ⟨h1, h2, h3⟩ => ⟨⟨h1, h2⟩, h3⟩, fun ⟨⟨h1, h2⟩, h3⟩ => ⟨h1, h2, h3⟩⟩

theorem remnantsAgree_iff (hb : s.Bounded) : s.RemnantsAgree ↔ RemnantsLaw s.placements s.slab? := by
  unfold State.RemnantsAgree
  rw [forall_slabs hb (C := fun n z => z.state = .reserved → ∃ p ∈ s.placements, p.remnantSlab = some n ∧ s.unsettled p.slab = true)]
  simp only [unsettled_iff]
  constructor
  · rintro ⟨hp, hz⟩
    exact ⟨fun p h r hr hu => (hp p h r hr hu).1, fun p h q hq r hpr hqr hpu hqu => (hp p h r hpr hpu).2 q hq hqr hqu, hz⟩
  · intro h
    exact ⟨fun p hp r hr hu => ⟨h.reserves p hp r hr hu, fun q hq hqr hqu => h.alone p hp q hq r hr hqr hu hqu⟩, h.named⟩

theorem plansFit_iff : s.PlansFit ↔ FitLaw s.placements s.slab? := by
  constructor
  · intro h
    exact ⟨fun p hp q hq hs hi a ha b hb => (h p hp a ha).1 q hq hs hi b hb, fun p hp a ha x hx => (h p hp a ha).2 x hx⟩
  · exact fun h p hp a ha => ⟨fun q hq hs hi b hb => h.apart p hp q hq hs hi a ha b hb, fun x hx => h.within p hp a ha x hx⟩

theorem basisAccounted_iff (hb : s.Bounded) (hf : FitLaw s.placements s.slab?) :
    s.BasisAccounted ↔ BasisLaw (cutsOf s.placements) s.slab? := by
  have hpieces (n : Nat) : s.placements.filter (fun p => decide (p.slab = n ∧ p.kind.isPiece = true ∧ p.state = .cut))
      = piecesOn (cutsOf s.placements) n := by
    unfold piecesOn cutsOf
    rw [List.filter_filter]
    exact List.filter_congr (fun p _ => Bool.decide_and _ _)
  unfold State.BasisAccounted
  simp only [hpieces]
  rw [forall_slabs hb (C := fun n x => x.allocated ≤ x.basis ∧ (x.state.isSettled = true → x.allocated = x.basis)
    ∧ (x.state.isSettled = false → x.allocated = ((piecesOn (cutsOf s.placements) n).map (fun p =>
        x.basis * p.area / (x.length * x.width))).sum))]
  constructor
  · intro h
    exact ⟨fun n x hx => (h n x hx).2.1, fun n x hx => (h n x hx).2.2⟩
  · exact fun h n x hx => ⟨allocated_le hb.placements hf h hx, h.settled n x hx, h.provisional n x hx⟩

theorem piecesCounted_iff : s.PiecesCounted ↔ PiecesLaw (cutsOf s.placements) s.slab? s.jobs := by
  have hcount (j : Job) : s.placements.countP (fun p => (p.kind.isPiece && decide (p.state = .cut) && s.unsettled p.slab)
        && decide (p.job = some j.id))
      = (cutsOf s.placements).countP (fun p => (s.slab? p.slab).any (fun x => !x.state.isSettled) && decide (p.job = some j.id)) := by
    unfold cutsOf
    rw [List.countP_filter]
    refine List.countP_congr (fun p _ => ?_)
    simp only [State.unsettled, Bool.and_eq_true, decide_eq_true_eq]
    tauto
  unfold State.PiecesCounted
  simp only [hcount]
  constructor
  · rintro ⟨hj, hp⟩
    refine ⟨fun j h => (hj j h).1, fun j h => (hj j h).2, fun p h hu => ?_⟩
    obtain ⟨hmem, hcut⟩ := List.mem_filter.1 h
    obtain ⟨hk, hst⟩ := of_decide_eq_true hcut
    refine hp p hmem ?_
    rw [hk, decide_eq_true hst, unsettled_iff.2 hu]
    rfl
  · intro h
    refine ⟨fun j hj => ⟨h.counted j hj, h.closed j hj⟩, fun p hp hc => ?_⟩
    rw [Bool.and_eq_true, Bool.and_eq_true] at hc
    obtain ⟨⟨hk, hst⟩, hu⟩ := hc
    exact h.payers p (List.mem_filter.2 ⟨hp, decide_eq_true ⟨hk, of_decide_eq_true hst⟩⟩) (unsettled_iff.1 hu)

theorem sound_iff (hb : s.Bounded) : s.Sound ↔ Laws s.placements s.slab? (Bedded s) s.orders s.jobs := by
  constructor
  · intro h
    have hf := plansFit_iff.1 h.fit
    exact ⟨plansKept_iff.1 h.plans, (bedsAgree_iff hb).1 h.beds, (remnantsAgree_iff hb).1 h.remnants, hf,
      (basisAccounted_iff hb hf).1 h.basis, piecesCounted_iff.1 h.pieces⟩
  · intro h
    exact ⟨plansKept_iff.2 h.plans, (bedsAgree_iff hb).2 h.beds, (remnantsAgree_iff hb).2 h.remnants, plansFit_iff.2 h.fit,
      (basisAccounted_iff hb h.fit).2 h.basis, piecesCounted_iff.2 h.pieces⟩

end

end Sys2Proof.Proofs
end

