-- ==== Sys2Proof/Proofs/LawChanges.lean ====
section
/-! SUPPORT. How the laws pass from tables to changed tables: the orders, the jobs, the beds, the records, and one pass over
the pool. -/

namespace Sys2Proof.Proofs

open Sys2Proof Sys2Proof.Config Sys2Proof.Machine

section
variable {s t : State} {P Q : List Placement} {S S' : Stock} {B B' : Nat → Nat → Prop} {O O' : List CutOrder} {J J' : List Job}
  {C : List Placement} {x y z : Slab} {p q r : Placement} {n a b : Nat}

/-! ## Orders and jobs -/

theorem PlansLaw.of_orders (h : PlansLaw P S O) (hO : ∀ o ∈ O', ∃ o₀ ∈ O, identity o₀ = identity o) : PlansLaw P S O' := by
  refine ⟨h.home, h.record, h.jobless, fun o ho p hp hs hi => ?_⟩
  obtain ⟨o₀, ho₀, heq⟩ := hO o ho
  have hslab : o₀.slab = o.slab := (congrArg CutOrder.slab heq :)
  have hindex : o₀.index = o.index := (congrArg CutOrder.index heq :)
  have hkind : o₀.kind = o.kind := (congrArg CutOrder.kind heq :)
  have hjob : o₀.job = o.job := (congrArg CutOrder.job heq :)
  obtain ⟨hk, hj⟩ := h.matched o₀ ho₀ p hp (hs.trans hslab.symm) (hi.trans hindex.symm)
  exact ⟨hk.trans hkind, hj.trans hjob⟩

theorem PiecesLaw.of_jobs (h : PiecesLaw C S J) (hJ : JobsAlike J J') : PiecesLaw C S J' := by
  refine ⟨fun j hj => ?_, fun j hj hc => ?_, fun p hp hu => ?_⟩
  · have hmem : jobCounts j ∈ J.map jobCounts := hJ.counts ▸ List.mem_map_of_mem hj
    obtain ⟨i, hi, heq⟩ := List.mem_map.1 hmem
    have hid : i.id = j.id := (congrArg Prod.fst heq :)
    have hcount : i.unsettled = j.unsettled := (congrArg (fun x => x.2.2) heq :)
    rw [← hcount, ← hid]
    exact h.counted i hi
  · rcases hJ.closed j hj hc with ⟨i, hi, heq, hic⟩ | hzero
    · have hcount : i.unsettled = j.unsettled := (congrArg (fun x => x.2.2) heq :)
      exact hcount ▸ h.closed i hi hic
    · exact hzero.2
  · obtain ⟨i, hi, hjob⟩ := h.payers p hp hu
    have hmem : jobCounts i ∈ J'.map jobCounts := hJ.counts ▸ List.mem_map_of_mem hi
    obtain ⟨j, hj, heq⟩ := List.mem_map.1 hmem
    have hid : j.id = i.id := (congrArg Prod.fst heq :)
    exact ⟨j, hj, hid.symm ▸ hjob⟩

theorem BedsLaw.of_beds (h : BedsLaw S B) (hB : ∀ a n, B' a n ↔ B a n) : BedsLaw S B' :=
  ⟨⟨fun n x hx a ha => (hB a n).2 (h.paired.onBed n x hx a ha), fun a n hb => h.paired.bedOf a n ((hB a n).1 hb)⟩, h.posed⟩

/-- The laws of a state. -/
abbrev LawsOf (s : State) : Prop := Laws s.placements s.slab? (Bedded s) s.orders s.jobs

/-- Calm changes keep the laws. -/
theorem LawsOf.calm (h : LawsOf s) (hc : Calm s t) : LawsOf t := by
  have hS : t.slab? = s.slab? := funext (fun n => congrArg (findBy Slab.id n) hc.slabs)
  unfold LawsOf
  rw [hc.placements, hS]
  refine ⟨h.plans.of_orders (fun o ho => ?_), h.beds.of_beds hc.beds, h.remnants, h.fit, h.basis, h.pieces.of_jobs hc.jobs⟩
  have hmem : identity o ∈ s.orders.map identity := hc.names ▸ List.mem_map_of_mem ho
  exact List.mem_map.1 hmem

/-! ## Records -/

theorem any_unsettled : (S n).any (fun x => !x.state.isSettled) = true ↔ Unsettled S n := by
  simp [Option.any_eq_true]

theorem PiecesLaw.of_stock (h : PiecesLaw C S J) (hu : ∀ p ∈ C, Unsettled S' p.slab ↔ Unsettled S p.slab) : PiecesLaw C S' J := by
  refine ⟨fun j hj => (h.counted j hj).trans ?_, h.closed, fun p hp hun => h.payers p hp ((hu p hp).1 hun)⟩
  refine List.countP_congr (fun p hp => ?_)
  rw [Bool.and_eq_true, Bool.and_eq_true, any_unsettled, any_unsettled, hu p hp]

theorem PlansLaw.of_stock (h : PlansLaw P S O) (hs : ∀ p ∈ P, ∀ x, S p.slab = some x → x.state ≠ .reserved →
    ∃ y, S' p.slab = some y ∧ y.state ≠ .reserved ∧ (y.state.isSettled = true → x.state.isSettled = true)
      ∧ (x.cutMark = true → y.cutMark = true)) : PlansLaw P S' O := by
  refine ⟨fun p hp => ?_, h.record, h.jobless, h.matched⟩
  obtain ⟨x, hx, hr, hsettled, hcut⟩ := h.home p hp
  obtain ⟨y, hy, hyr, hys, hyc⟩ := hs p hp x hx hr
  exact ⟨y, hy, hyr, fun hset => hsettled (hys hset), fun hst => hyc (hcut hst)⟩

theorem RemnantsLaw.of_stock (h : RemnantsLaw P S) (hu : ∀ p ∈ P, Unsettled S' p.slab ↔ Unsettled S p.slab)
    (hr : ∀ n, (∃ z, S' n = some z ∧ z.state = .reserved) ↔ ∃ z, S n = some z ∧ z.state = .reserved) : RemnantsLaw P S' := by
  refine ⟨fun p hp r hpr hpu => (hr r).2 (h.reserves p hp r hpr ((hu p hp).1 hpu)),
    fun p hp q hq r hpr hqr hpu hqu => h.alone p hp q hq r hpr hqr ((hu p hp).1 hpu) ((hu q hq).1 hqu), fun n z hz hst => ?_⟩
  obtain ⟨z₀, hz₀, hst₀⟩ := (hr n).1 ⟨z, hz, hst⟩
  obtain ⟨p, hp, hpr, hpu⟩ := h.named n z₀ hz₀ hst₀
  exact ⟨p, hp, hpr, (hu p hp).2 hpu⟩

theorem FitLaw.of_stock (h : FitLaw P S) (hs : ∀ p ∈ P, ∀ y, S' p.slab = some y →
    ∃ x, S p.slab = some x ∧ y.length = x.length ∧ y.width = x.width ∧ y.defects = x.defects) : FitLaw P S' := by
  refine ⟨h.apart, fun p hp a ha y hy => ?_⟩
  obtain ⟨x, hx, hl, hw, hd⟩ := hs p hp y hy
  unfold Fits
  rw [hl, hw, hd]
  exact h.within p hp a ha x hx

theorem basisShares_congr (hb : y.basis = x.basis) (hl : y.length = x.length) (hw : y.width = x.width) (T : List Placement) :
    basisShares y T = basisShares x T := by
  unfold basisShares basisShare
  rw [hb, hl, hw]

/-- What two records share that the laws but that of beds read. -/
structure SameAccount (x y : Slab) : Prop where
  length : y.length = x.length
  width : y.width = x.width
  defects : y.defects = x.defects
  basis : y.basis = x.basis
  allocated : y.allocated = x.allocated
  cutMark : y.cutMark = x.cutMark
  settled : y.state.isSettled = x.state.isSettled
  reserved : y.state = .reserved ↔ x.state = .reserved

theorem SameAccount.symm (h : SameAccount x y) : SameAccount y x :=
  ⟨h.length.symm, h.width.symm, h.defects.symm, h.basis.symm, h.allocated.symm, h.cutMark.symm, h.settled.symm, h.reserved.symm⟩

theorem SameAccount.refl (x : Slab) : SameAccount x x := ⟨rfl, rfl, rfl, rfl, rfl, rfl, rfl, Iff.rfl⟩

/-- Two stocks whose records differ in their beds, positions and locks alone. -/
structure SameStock (S S' : Stock) : Prop where
  there : ∀ n x, S n = some x → ∃ y, S' n = some y ∧ SameAccount x y
  back : ∀ n y, S' n = some y → ∃ x, S n = some x ∧ SameAccount x y

theorem SameStock.unsettled (h : SameStock S S') : Unsettled S' n ↔ Unsettled S n := by
  constructor
  · rintro ⟨y, hy, hs⟩
    obtain ⟨x, hx, hxy⟩ := h.back n y hy
    exact ⟨x, hx, hxy.settled ▸ hs⟩
  · rintro ⟨x, hx, hs⟩
    obtain ⟨y, hy, hxy⟩ := h.there n x hx
    exact ⟨y, hy, hxy.settled.symm ▸ hs⟩

/-- Where only beds, positions and locks change, all but the law of beds is kept. -/
theorem Laws.of_sameStock (h : Laws P S B O J) (hs : SameStock S S') (hb : BedsLaw S' B') : Laws P S' B' O J where
  plans := h.plans.of_stock (fun p _ x hx hr => by
    obtain ⟨y, hy, hxy⟩ := hs.there _ x hx
    exact ⟨y, hy, fun e => hr (hxy.reserved.1 e), fun e => hxy.settled ▸ e, fun e => hxy.cutMark.symm ▸ e⟩)
  beds := hb
  remnants := h.remnants.of_stock (fun _ _ => hs.unsettled) (fun n => by
    constructor
    · rintro ⟨y, hy, hst⟩
      obtain ⟨x, hx, hxy⟩ := hs.back n y hy
      exact ⟨x, hx, hxy.reserved.1 hst⟩
    · rintro ⟨x, hx, hst⟩
      obtain ⟨y, hy, hxy⟩ := hs.there n x hx
      exact ⟨y, hy, hxy.reserved.2 hst⟩)
  fit := h.fit.of_stock (fun p _ y hy => by
    obtain ⟨x, hx, hxy⟩ := hs.back _ y hy
    exact ⟨x, hx, hxy.length, hxy.width, hxy.defects⟩)
  basis := by
    refine ⟨fun n y hy hset => ?_, fun n y hy hset => ?_⟩
    · obtain ⟨x, hx, hxy⟩ := hs.back n y hy
      rw [hxy.allocated, hxy.basis]
      exact h.basis.settled n x hx (hxy.settled ▸ hset)
    · obtain ⟨x, hx, hxy⟩ := hs.back n y hy
      rw [hxy.allocated, basisShares_congr hxy.basis hxy.length hxy.width]
      exact h.basis.provisional n x hx (hxy.settled ▸ hset)
  pieces := h.pieces.of_stock (fun _ _ => hs.unsettled)

theorem Paired.of_sameBeds (h : Paired S B) (there : ∀ n x, S n = some x → ∃ y, S' n = some y ∧ y.bed = x.bed)
    (back : ∀ n y, S' n = some y → ∃ x, S n = some x ∧ y.bed = x.bed) : Paired S' B := by
  refine ⟨fun n y hy a ha => ?_, fun a n hb => ?_⟩
  · obtain ⟨x, hx, hxy⟩ := back n y hy
    exact h.onBed n x hx a (hxy.symm.trans ha)
  · obtain ⟨x, hx, hbed⟩ := h.bedOf a n hb
    obtain ⟨y, hy, hxy⟩ := there n x hx
    exact ⟨y, hy, hxy.trans hbed⟩

/-! ## One record changed -/

/-- A stock with one record changed. -/
def changed (S : Stock) (n : Nat) (f : Slab → Slab) : Stock := fun m => if m = n then (S m).map f else S m

theorem slab?_changed {f : Slab → Slab} (hf : ∀ x, (f x).id = x.id) : (s.modifySlab n f).slab? = changed s.slab? n f := by
  funext m
  rw [slab?_modifySlab (fun x _ => hf x)]
  unfold changed
  cases hx : s.slab? m with
  | none => simp
  | some x =>
    have hid : x.id = m := slab?_id hx
    by_cases e : m = n
    · simp [e, hid]
    · simp [e, hid]

theorem changed_self {f : Slab → Slab} (h : changed S n f n = some y) : ∃ x, S n = some x ∧ y = f x := by
  unfold changed at h
  rw [if_pos rfl] at h
  obtain ⟨x, hx, rfl⟩ := Option.map_eq_some_iff.1 h
  exact ⟨x, hx, rfl⟩

theorem changed_other {f : Slab → Slab} (h : a ≠ n) : changed S n f a = S a := if_neg h

theorem changed_found {f : Slab → Slab} (h : S n = some x) : changed S n f n = some (f x) := by
  unfold changed
  rw [if_pos rfl, h]
  rfl

theorem changed_cases {f : Slab → Slab} (h : changed S n f a = some y) :
    (a = n ∧ ∃ x, S n = some x ∧ y = f x) ∨ (a ≠ n ∧ S a = some y) := by
  by_cases e : a = n
  · subst e
    exact .inl ⟨rfl, changed_self h⟩
  · exact .inr ⟨e, (changed_other e).symm.trans h⟩

theorem changed_some {f : Slab → Slab} (h : S a = some x) :
    (a = n ∧ changed S n f a = some (f x)) ∨ (a ≠ n ∧ changed S n f a = some x) := by
  by_cases e : a = n
  · subst e
    exact .inl ⟨rfl, changed_found h⟩
  · exact .inr ⟨e, (changed_other e).trans h⟩

/-- One record changed in its bed, position and lock alone. -/
theorem sameStock_changed {f : Slab → Slab} (hf : ∀ x, S n = some x → SameAccount x (f x)) : SameStock S (changed S n f) := by
  refine ⟨fun a x hx => ?_, fun a y hy => ?_⟩
  · rcases changed_some (f := f) (n := n) hx with ⟨rfl, h⟩ | ⟨-, h⟩
    · exact ⟨f x, h, hf x hx⟩
    · exact ⟨x, h, .refl x⟩
  · rcases changed_cases hy with ⟨rfl, x, hx, rfl⟩ | ⟨-, h⟩
    · exact ⟨x, hx, hf x hx⟩
    · exact ⟨y, h, .refl y⟩

theorem SameStock.trans {S'' : Stock} (h : SameStock S S') (k : SameStock S' S'') : SameStock S S'' := by
  have hcomp {x y z : Slab} (h : SameAccount x y) (k : SameAccount y z) : SameAccount x z :=
    ⟨k.length.trans h.length, k.width.trans h.width, k.defects.trans h.defects, k.basis.trans h.basis,
      k.allocated.trans h.allocated, k.cutMark.trans h.cutMark, k.settled.trans h.settled, k.reserved.trans h.reserved⟩
  refine ⟨fun n x hx => ?_, fun n z hz => ?_⟩
  · obtain ⟨y, hy, hxy⟩ := h.there n x hx
    obtain ⟨z, hz, hyz⟩ := k.there n y hy
    exact ⟨z, hz, hcomp hxy hyz⟩
  · obtain ⟨y, hy, hyz⟩ := k.back n z hz
    obtain ⟨x, hx, hxy⟩ := h.back n y hy
    exact ⟨x, hx, hcomp hxy hyz⟩

/-! ## One pass over the pool -/

/-- The same placement, but for its state and its parent. -/
structure SameNames (q r : Placement) : Prop where
  slab : r.slab = q.slab
  index : r.index = q.index
  kind : r.kind = q.kind
  job : r.job = q.job
  record : r.remnantSlab = q.remnantSlab
  reserved : r.reserved = q.reserved

/-- The same placement, but for its state short of CUT and its parent. -/
structure SameEntry (q r : Placement) : Prop where
  names : SameNames q r
  cut : r.state = .cut ↔ q.state = .cut

theorem SameNames.refl (q : Placement) : SameNames q q := ⟨rfl, rfl, rfl, rfl, rfl, rfl⟩

theorem SameEntry.refl (q : Placement) : SameEntry q q := ⟨.refl q, Iff.rfl⟩

theorem PlansLaw.of_names (h : PlansLaw P S O) (hQ : ∀ r ∈ Q, ∃ q ∈ P, SameNames q r) (home : ∀ r ∈ Q, Home S' r) :
    PlansLaw Q S' O := by
  refine ⟨home, fun r hr => ?_, fun r hr => ?_, fun o ho r hr hs hi => ?_⟩
  · obtain ⟨q, hq, e⟩ := hQ r hr
    rw [e.kind, e.record]
    exact h.record q hq
  · obtain ⟨q, hq, e⟩ := hQ r hr
    rw [e.kind, e.job]
    exact h.jobless q hq
  · obtain ⟨q, hq, e⟩ := hQ r hr
    rw [e.kind, e.job]
    exact h.matched o ho q hq (e.slab ▸ hs) (e.index ▸ hi)

theorem FitLaw.of_names (h : FitLaw P S) (hQ : ∀ r ∈ Q, ∃ q ∈ P, SameNames q r) : FitLaw Q S := by
  refine ⟨fun r hr r' hr' hs hi a ha b hb => ?_, fun r hr a ha x hx => ?_⟩
  · obtain ⟨q, hq, e⟩ := hQ r hr
    obtain ⟨q', hq', e'⟩ := hQ r' hr'
    exact h.apart q hq q' hq' (e'.slab.symm.trans (hs.trans e.slab)) (fun k => hi (e'.index.trans (k.trans e.index.symm)))
      a (e.reserved ▸ ha) b (e'.reserved ▸ hb)
  · obtain ⟨q, hq, e⟩ := hQ r hr
    rw [e.kind]
    exact h.within q hq a (e.reserved ▸ ha) x (e.slab ▸ hx)

theorem RemnantsLaw.of_names (h : RemnantsLaw P S) (hQ : ∀ r ∈ Q, ∃ q ∈ P, SameNames q r)
    (hP : ∀ q ∈ P, q.remnantSlab ≠ none → ∃ r ∈ Q, SameNames q r) : RemnantsLaw Q S := by
  refine ⟨fun r hr n hn hu => ?_, fun r hr r' hr' n hn hn' hu hu' => ?_, fun n z hz hst => ?_⟩
  · obtain ⟨q, hq, e⟩ := hQ r hr
    exact h.reserves q hq n (e.record ▸ hn) (e.slab ▸ hu)
  · obtain ⟨q, hq, e⟩ := hQ r hr
    obtain ⟨q', hq', e'⟩ := hQ r' hr'
    rw [e.slab, e'.slab, e.index, e'.index]
    exact h.alone q hq q' hq' n (e.record ▸ hn) (e'.record ▸ hn') (e.slab ▸ hu) (e'.slab ▸ hu')
  · obtain ⟨p, hp, hrec, hu⟩ := h.named n z hz hst
    obtain ⟨r, hr, e⟩ := hP p hp (by rw [hrec]; simp)
    exact ⟨r, hr, e.record.trans hrec, e.slab.symm ▸ hu⟩

/-- A pass over the pool: each placement stays as an entry, or goes, if it is neither a remnant nor a CUT piece. -/
structure Passes (P : List Placement) (f : Placement → Option Placement) : Prop where
  kept : ∀ q ∈ P, ∀ r, f q = some r → SameEntry q r
  gone : ∀ q ∈ P, f q = none → q.kind ≠ .remnant
  cuts : ∀ q ∈ P, q.kind.isPiece = true → q.state = .cut → f q = some q

theorem filter_filterMap_of {α : Type} {c : α → Bool} {f : α → Option α} {l : List α} (hyes : ∀ x ∈ l, c x = true → f x = some x)
    (hno : ∀ x ∈ l, c x = false → ∀ y, f x = some y → c y = false) : (l.filterMap f).filter c = l.filter c := by
  induction l with
  | nil => rfl
  | cons x l ih =>
    have ih := ih (fun y hy => hyes y (List.mem_cons_of_mem _ hy)) (fun y hy => hno y (List.mem_cons_of_mem _ hy))
    rw [List.filterMap_cons]
    cases hc : c x with
    | true =>
      rw [hyes x List.mem_cons_self hc]
      dsimp only
      rw [List.filter_cons_of_pos hc, List.filter_cons_of_pos hc, ih]
    | false =>
      rw [List.filter_cons_of_neg (by simp [hc])]
      cases hf : f x with
      | none => exact ih
      | some y =>
        dsimp only
        rw [List.filter_cons_of_neg (by simp [hno x List.mem_cons_self hc y hf]), ih]

section
variable {f : Placement → Option Placement}

theorem Passes.cutsOf_eq (h : Passes P f) : cutsOf (P.filterMap f) = cutsOf P := by
  refine filter_filterMap_of (fun q hq hc => ?_) (fun q hq hc r hr => ?_)
  · obtain ⟨hk, hst⟩ := of_decide_eq_true hc
    exact h.cuts q hq hk hst
  · have hsame := h.kept q hq r hr
    rw [decide_eq_false_iff_not] at hc ⊢
    rw [hsame.names.kind, hsame.cut]
    exact hc

/-- A pass over the pool keeps the laws. -/
theorem Laws.pass (h : Laws P S B O J) (hf : Passes P f) : Laws (P.filterMap f) S B O J := by
  have hback : ∀ r ∈ P.filterMap f, ∃ q ∈ P, SameEntry q r := by
    intro r hr
    obtain ⟨q, hq, hqr⟩ := List.mem_filterMap.1 hr
    exact ⟨q, hq, hf.kept q hq r hqr⟩
  have hnames : ∀ r ∈ P.filterMap f, ∃ q ∈ P, SameNames q r := by
    intro r hr
    obtain ⟨q, hq, e⟩ := hback r hr
    exact ⟨q, hq, e.names⟩
  refine ⟨h.plans.of_names hnames (fun r hr => ?_), h.beds, h.remnants.of_names hnames (fun p hp hrec => ?_), h.fit.of_names hnames,
    hf.cutsOf_eq.symm ▸ h.basis, hf.cutsOf_eq.symm ▸ h.pieces⟩
  · obtain ⟨q, hq, e⟩ := hback r hr
    obtain ⟨x, hx, hres, hset, hmark⟩ := h.plans.home q hq
    exact ⟨x, e.names.slab ▸ hx, hres, fun k => e.cut.2 (hset k), fun k => hmark (e.cut.1 k)⟩
  · obtain ⟨r, hr⟩ := Option.ne_none_iff_exists'.1 (fun e => hf.gone p hp e ((h.plans.record p hp).2 hrec))
    exact ⟨r, List.mem_filterMap.2 ⟨p, hp, hr⟩, (hf.kept p hp r hr).names⟩

end

end

end Sys2Proof.Proofs
end

