-- ==== Sys2Proof/Proofs/BedMoves.lean ====
section
/-! SUPPORT. The laws are kept where a record's lock, position, bed, basis or defects change, and where a record is entered. -/

namespace Sys2Proof.Proofs

open Sys2Proof Sys2Proof.Config Sys2Proof.Machine

section
variable {s t : State} {P Q : List Placement} {S S' : Stock} {B B' : Nat → Nat → Prop} {O O' : List CutOrder} {J J' : List Job}
  {x y z : Slab} {p q r : Placement} {n a b c m : Nat}

/-! ## One record in place -/

theorem lawsOf_of_tables (h : lawTables t = lawTables s) (hs : LawsOf s) : LawsOf t := by
  have hp : t.placements = s.placements := (congrArg Prod.fst h :)
  have hx : t.slabs = s.slabs := (congrArg (fun x => x.2.1) h :)
  have hst : t.stations = s.stations := (congrArg (fun x => x.2.2.1) h :)
  have hj : t.jobs = s.jobs := (congrArg (fun x => x.2.2.2) h :)
  have hS : t.slab? = s.slab? := funext (fun n => congrArg (findBy Slab.id n) hx)
  have hB : Bedded t = Bedded s := by funext a n; rw [Bedded, Bedded, hst]
  unfold LawsOf
  rw [hp, hS, hB, orders_of_stations hst, hj]
  exact hs

/-- The law of beds when a record changes, but not its bed. -/
theorem BedsLaw.changed {f : Slab → Slab} (h : BedsLaw S B)
    (hf : ∀ x, S n = some x → (f x).bed = x.bed ∧ Posed (f x)) : BedsLaw (changed S n f) B := by
  refine ⟨h.paired.of_sameBeds (fun m x hx => ?_) (fun m y hy => ?_), fun m y hy => ?_⟩
  · rcases changed_some (f := f) (n := n) hx with ⟨rfl, hc⟩ | ⟨-, hc⟩
    · exact ⟨f x, hc, (hf x hx).1⟩
    · exact ⟨x, hc, rfl⟩
  · rcases changed_cases hy with ⟨rfl, x, hx, rfl⟩ | ⟨-, hc⟩
    · exact ⟨x, hx, (hf x hx).1⟩
    · exact ⟨y, hc, rfl⟩
  · rcases changed_cases hy with ⟨rfl, x, hx, rfl⟩ | ⟨-, hc⟩
    · exact (hf x hx).2
    · exact h.posed m y hc

/-- A record's lock, position or place in stock changes. -/
theorem lawsOf_modifySlab {f : Slab → Slab} (h : LawsOf s) (hid : ∀ x, (f x).id = x.id)
    (hf : ∀ x, s.slab? n = some x → SameAccount x (f x) ∧ (f x).bed = x.bed ∧ Posed (f x)) : LawsOf (s.modifySlab n f) := by
  unfold LawsOf
  rw [slab?_changed hid]
  exact h.of_sameStock (sameStock_changed (fun x hx => (hf x hx).1)) (h.beds.changed (fun x hx => (hf x hx).2))

theorem lawsOf_lock (h : LawsOf s) (l : Option LockReason) : LawsOf (s.modifySlab n (fun z => { z with lock := l })) :=
  lawsOf_modifySlab (f := fun z => { z with lock := l }) h (fun _ => rfl)
    (fun x hx => ⟨⟨rfl, rfl, rfl, rfl, rfl, rfl, rfl, Iff.rfl⟩, rfl, h.beds.posed n x hx⟩)

/-- A record stays on account when it moves between the stock states. -/
theorem sameAccount_stock {st : SlabState} {rack : Option RackPosition} {bed : Option Nat} (hx : x.state.isStock = true)
    (hst : st.isStock = true) : SameAccount x { x with state := st, rack := rack, bed := bed } := by
  refine ⟨rfl, rfl, rfl, rfl, rfl, rfl, (not_settled_of_stock hst).trans (not_settled_of_stock hx).symm, ?_, ?_⟩
  · exact fun e => absurd e (ne_reserved_of_isStock hst)
  · exact fun e => absurd e (ne_reserved_of_isStock hx)

/-- A stock record that is not STAGED has no bed. -/
theorem bed_of_posed (h : Posed x) (hst : x.state.isStock = true) (hne : x.state ≠ .staged) : x.bed = none := by
  cases hs : x.state with
  | received => exact (h.2.2 (.inl hs)).1
  | racked => exact (h.2.1 hs).1
  | staged => exact absurd hs hne
  | _ => rw [hs] at hst; cases hst

theorem lawsOf_rack (h : LawsOf s) (k : RackPosition) (hx : s.slab? x.id = some x) (hst : x.state.isStock = true)
    (hne : x.state ≠ .staged) : LawsOf (s.modifySlab x.id (fun z => { z with state := .racked, rack := some k })) := by
  refine lawsOf_modifySlab (f := fun z => { z with state := .racked, rack := some k }) h (fun _ => rfl) (fun y hy => ?_)
  obtain rfl : x = y := Option.some.inj (hx.symm.trans hy)
  refine ⟨sameAccount_stock (bed := x.bed) hst rfl, rfl, nofun, fun _ => ⟨?_, by simp⟩, nofun⟩
  exact bed_of_posed (x := x) (h.beds.posed x.id x hx) hst hne

/-! ## Beds cleared (R12, R15, R16) -/

/-- A record without a bed. -/
def noBed (x : Slab) : Slab := { x with bed := none }

theorem noBed_of_none (h : x.bed = none) : noBed x = x := by
  unfold noBed
  rw [← h]

theorem slab?_clearBed (n : Nat) (s : State) : (s.clearBed n).slab? = changed s.slab? n noBed := by
  unfold State.clearBed
  cases hx : (s.slab? n).bind Slab.bed with
  | none =>
    funext m
    by_cases e : m = n
    · subst e
      unfold changed
      rw [if_pos rfl]
      cases hs : s.slab? m with
      | none => rfl
      | some x =>
        rw [hs] at hx
        rw [Option.map_some, noBed_of_none hx]
    · exact (changed_other e).symm
  | some a => exact slab?_changed (s := s.modifySaw a (fun w => { w with bed := none })) (f := noBed) (fun _ => rfl)

theorem bedded_modifySaw {v : Option Nat} (hb : s.Bounded) : Bedded (s.modifySaw a (fun w => { w with bed := v })) c m
    ↔ (c ≠ a ∧ Bedded s c m) ∨ (c = a ∧ v = some m ∧ ∃ w, s.saw? a = some w) := by
  have hmap : (s.modifySaw a (fun w => { w with bed := v })).stations = s.stations.map (fun st =>
      if st.address = a then st.mapSaw (fun w => { w with bed := v }) else st) := rfl
  constructor
  · rintro ⟨y, hy, hc, w, hw, hbed⟩
    rw [hmap] at hy
    obtain ⟨st, hst, rfl⟩ := List.mem_map.1 hy
    split at hw
    · rename_i ha
      rw [if_pos ha] at hc
      obtain ⟨u, hu, rfl⟩ := Option.map_eq_some_iff.1 hw
      refine .inr ⟨hc.symm.trans ha, hbed, u, ?_⟩
      unfold State.saw? State.station?
      rw [← ha, findBy_eq Station.address hb.stations.1 hst]
      exact hu
    · rename_i ha
      rw [if_neg ha] at hc
      exact .inl ⟨hc ▸ ha, st, hst, hc, w, hw, hbed⟩
  · rintro (⟨hne, st, hst, hc, w, hw, hbed⟩ | ⟨rfl, rfl, w, hw⟩)
    · exact ⟨st, hmap ▸ List.mem_map.2 ⟨st, hst, if_neg (hc ▸ hne)⟩, hc, w, hw, hbed⟩
    · obtain ⟨st, hst, hsaw⟩ := Option.bind_eq_some_iff.1 hw
      obtain ⟨hmem, haddr⟩ := findBy_some _ hst
      refine ⟨_, hmap ▸ List.mem_map_of_mem hmem, ?_, { w with bed := some m }, ?_, rfl⟩
      · split <;> exact haddr
      · rw [if_pos haddr]
        show st.saw.map _ = _
        rw [hsaw]
        rfl

theorem bedded_clearBed (hb : s.Bounded) (h : Paired s.slab? (Bedded s)) :
    Bedded (s.clearBed n) c m ↔ Bedded s c m ∧ m ≠ n := by
  have hback (hcn : Bedded s c n) : ∃ x, s.slab? n = some x ∧ x.bed = some c := h.bedOf c n hcn
  unfold State.clearBed
  split
  · rename_i hnone
    refine ⟨fun hcm => ⟨hcm, fun e => ?_⟩, And.left⟩
    obtain ⟨x, hx, hbed⟩ := hback (e ▸ hcm)
    rw [hx, Option.bind_some, hbed] at hnone
    cases hnone
  · rename_i a hsome
    obtain ⟨x, hx, hbed⟩ := Option.bind_eq_some_iff.1 hsome
    have han : Bedded s a n := h.onBed n x hx a hbed
    refine (bedded_modifySaw hb).trans ⟨?_, fun ⟨hcm, hne⟩ => .inl ⟨fun e => ?_, hcm⟩⟩
    · rintro (⟨hne, hcm⟩ | ⟨-, e, -⟩)
      · refine ⟨hcm, fun e => hne ?_⟩
        obtain ⟨y, hy, hyc⟩ := hback (e ▸ hcm)
        rw [hx] at hy
        cases hy
        exact Option.some.inj (hyc.symm.trans hbed)
      · cases e
    · exact hne (bedded_unique hb (e ▸ hcm) han)

theorem paired_noBed (h : Paired S B) (hB : ∀ c m, B' c m ↔ B c m ∧ m ≠ n) : Paired (changed S n noBed) B' := by
  refine ⟨fun m y hy a ha => ?_, fun a m hb => ?_⟩
  · rcases changed_cases hy with ⟨rfl, x, -, rfl⟩ | ⟨hne, hc⟩
    · cases ha
    · exact (hB a m).2 ⟨h.onBed m y hc a ha, hne⟩
  · obtain ⟨hbm, hne⟩ := (hB a m).1 hb
    obtain ⟨x, hx, hbed⟩ := h.bedOf a m hbm
    exact ⟨x, (changed_other hne).trans hx, hbed⟩

theorem changed_changed {f g : Slab → Slab} : changed (changed S n f) n g = changed S n (fun x => g (f x)) := by
  funext m
  unfold changed
  by_cases e : m = n
  · rw [if_pos e, if_pos e, if_pos e, Option.map_map]
    rfl
  · rw [if_neg e, if_neg e, if_neg e]

theorem orders_clearBed (n : Nat) (s : State) : (s.clearBed n).orders = s.orders :=
  orders_of_queueBook (ordersStay_clearBed n s).queues

theorem clearBed_jobs (n : Nat) (s : State) : (s.clearBed n).jobs = s.jobs := by
  unfold State.clearBed
  split <;> rfl

theorem clearBed_placements (n : Nat) (s : State) : (s.clearBed n).placements = s.placements := by
  unfold State.clearBed
  split <;> rfl

/-- A record leaves its bed and changes in its place in stock. -/
theorem lawsOf_offBed {f : Slab → Slab} (hb : s.Bounded) (h : LawsOf s) (hid : ∀ x, (f x).id = x.id) (hbed : ∀ x, (f x).bed = x.bed)
    (hf : ∀ x, s.slab? n = some x → SameAccount x (f (noBed x)) ∧ Posed (f (noBed x))) :
    LawsOf ((s.clearBed n).modifySlab n f) := by
  have hB (c m : Nat) : Bedded ((s.clearBed n).modifySlab n f) c m ↔ Bedded s c m ∧ m ≠ n := bedded_clearBed hb h.beds.paired
  have hS : ((s.clearBed n).modifySlab n f).slab? = changed s.slab? n (fun x => f (noBed x)) := by
    rw [slab?_changed hid, slab?_clearBed, changed_changed]
  have ho : ((s.clearBed n).modifySlab n f).orders = s.orders := orders_clearBed n s
  have hj : ((s.clearBed n).modifySlab n f).jobs = s.jobs := clearBed_jobs n s
  have hp : ((s.clearBed n).modifySlab n f).placements = s.placements := clearBed_placements n s
  unfold LawsOf
  rw [hS, ho, hj, hp]
  refine h.of_sameStock (sameStock_changed (fun x hx => (hf x hx).1)) ⟨?_, fun m y hy => ?_⟩
  · refine (paired_noBed h.beds.paired hB).of_sameBeds (fun m x hx => ?_) (fun m y hy => ?_)
    · rcases changed_cases hx with ⟨rfl, z, hz, rfl⟩ | ⟨hne, hc⟩
      · exact ⟨f (noBed z), changed_found hz, hbed _⟩
      · exact ⟨x, (changed_other hne).trans hc, rfl⟩
    · rcases changed_cases hy with ⟨rfl, z, hz, rfl⟩ | ⟨hne, hc⟩
      · exact ⟨noBed z, changed_found hz, hbed _⟩
      · exact ⟨y, (changed_other hne).trans hc, rfl⟩
  · rcases changed_cases hy with ⟨rfl, z, hz, rfl⟩ | ⟨-, hc⟩
    · exact (hf z hz).2
    · exact h.beds.posed m y hc

theorem lawsOf_unrack (hb : s.Bounded) (h : LawsOf s) (k : RackPosition) (hx : s.slab? x.id = some x) (hst : x.state = .staged) :
    LawsOf ((s.clearBed x.id).modifySlab x.id (fun z => { z with state := .racked, rack := some k })) := by
  refine lawsOf_offBed (f := fun z => { z with state := .racked, rack := some k }) hb h (fun _ => rfl) (fun _ => rfl) (fun y hy => ?_)
  obtain rfl : x = y := Option.some.inj (hx.symm.trans hy)
  exact ⟨sameAccount_stock (by rw [hst]; rfl) rfl, nofun, fun _ => ⟨rfl, by simp⟩, nofun⟩

theorem lawsOf_unbed (hb : s.Bounded) (h : LawsOf s) (hx : s.slab? x.id = some x) (hst : x.state = .staged) :
    LawsOf ((s.clearBed x.id).modifySlab x.id (fun z => { z with state := .received, rack := none })) := by
  refine lawsOf_offBed (f := fun z => { z with state := .received, rack := none }) hb h (fun _ => rfl) (fun _ => rfl) (fun y hy => ?_)
  obtain rfl : x = y := Option.some.inj (hx.symm.trans hy)
  exact ⟨sameAccount_stock (by rw [hst]; rfl) rfl, nofun, nofun, fun _ => ⟨rfl, rfl⟩⟩

/-- Nothing is asked of a settled record's place. -/
theorem posed_of_settled (h : x.state.isSettled = true) : Posed x := by
  refine ⟨fun e => ?_, fun e => ?_, fun e => ?_⟩
  · rw [e] at h
    cases h
  · rw [e] at h
    cases h
  · rcases e with e | e
    · rw [e] at h
      cases h
    · rw [e] at h
      cases h

theorem lawsOf_away (hb : s.Bounded) (h : LawsOf s) (hx : s.slab? x.id = some x) (hst : x.state.isSettled = true) :
    LawsOf ((s.clearBed x.id).modifySlab x.id (fun z => { z with rack := none })) := by
  refine lawsOf_offBed (f := fun z => { z with rack := none }) hb h (fun _ => rfl) (fun _ => rfl) (fun y hy => ?_)
  obtain rfl : x = y := Option.some.inj (hx.symm.trans hy)
  exact ⟨⟨rfl, rfl, rfl, rfl, rfl, rfl, rfl, Iff.rfl⟩, posed_of_settled (x := { noBed x with rack := none }) hst⟩

/-! ## A bed taken (R13, R14) -/

/-- A record displaced from its bed. -/
def displaced (z : Slab) : Slab := if z.state.isStock then { z with state := .received, rack := none } else { z with rack := none }

theorem slab?_displace (n : Nat) (s : State) : (s.displace n).slab? = changed s.slab? n (fun x => displaced (noBed x)) := by
  unfold State.displace
  have hid (x : Slab) : (displaced x).id = x.id := by
    unfold displaced
    split <;> rfl
  exact (slab?_changed (s := s.clearBed n) (f := displaced) hid).trans (by rw [slab?_clearBed, changed_changed])

theorem sameAccount_displaced (x : Slab) : SameAccount x (displaced (noBed x)) := by
  unfold displaced
  split
  · rename_i h
    exact sameAccount_stock (x := x) h rfl
  · exact ⟨rfl, rfl, rfl, rfl, rfl, rfl, rfl, Iff.rfl⟩

theorem posed_displaced (x : Slab) : Posed (displaced (noBed x)) := by
  unfold displaced
  split
  · exact ⟨nofun, nofun, fun _ => ⟨rfl, rfl⟩⟩
  · rename_i h
    refine ⟨fun e => ?_, fun e => ?_, fun _ => ⟨rfl, rfl⟩⟩
    · have hstaged : x.state = .staged := e
      refine absurd ?_ h
      show x.state.isStock = true
      rw [hstaged]
      rfl
    · have hracked : x.state = .racked := e
      refine absurd ?_ h
      show x.state.isStock = true
      rw [hracked]
      rfl

theorem displaced_bed (x : Slab) : (displaced (noBed x)).bed = none := by
  unfold displaced
  split <;> rfl

/-- The beds when the bed of one saw is cleared of what it holds, and another record leaves its own. -/
structure Freed (s u : State) (x : Slab) (d : Option Nat) : Prop where
  bounded : u.Bounded
  stock : SameStock s.slab? u.slab?
  paired : Paired u.slab? (Bedded u)
  bedded : ∀ c m, Bedded u c m ↔ Bedded s c m ∧ m ≠ x.id ∧ ∀ y, d = some y → m ≠ y
  posed : ∀ m y, u.slab? m = some y → m ≠ x.id → Posed y
  saws : ∀ a, (u.saw? a).isSome = (s.saw? a).isSome
  placements : u.placements = s.placements
  orders : u.orders = s.orders
  jobs : u.jobs = s.jobs

theorem isSome_saw?_clearBed (n a : Nat) (s : State) : ((s.clearBed n).saw? a).isSome = (s.saw? a).isSome := by
  unfold State.clearBed
  split
  · rfl
  · rename_i b _
    show (((s.modifySaw b (fun w => { w with bed := none })).station? a).bind Station.saw).isSome = _
    rw [station?_modifySaw]
    unfold State.saw?
    cases s.station? a with
    | none => rfl
    | some st =>
      rw [Option.map_some, Option.bind_some, Option.bind_some]
      split
      · exact Option.isSome_map
      · rfl

theorem freed_none (hb : s.Bounded) (h : LawsOf s) : Freed s (s.clearBed x.id) x none where
  bounded := (keeps_clearBed x.id).2 hb
  stock := by
    rw [slab?_clearBed]
    exact sameStock_changed (fun y _ => ⟨rfl, rfl, rfl, rfl, rfl, rfl, rfl, Iff.rfl⟩)
  paired := by
    rw [slab?_clearBed]
    exact paired_noBed h.beds.paired (fun c m => bedded_clearBed hb h.beds.paired)
  bedded c m := (bedded_clearBed hb h.beds.paired).trans (and_congr_right (fun _ => by simp))
  posed m y hy hne := by
    rw [slab?_clearBed] at hy
    exact h.beds.posed m y ((changed_other hne).symm.trans hy)
  saws a := isSome_saw?_clearBed x.id a s
  placements := clearBed_placements x.id s
  orders := orders_clearBed x.id s
  jobs := clearBed_jobs x.id s

theorem freed_some (hb : s.Bounded) (h : LawsOf s) (b : Nat) : Freed s ((s.clearBed x.id).displace b) x (some b) := by
  have hone := freed_none (x := x) hb h
  have hB (c m : Nat) : Bedded ((s.clearBed x.id).displace b) c m ↔ Bedded (s.clearBed x.id) c m ∧ m ≠ b :=
    bedded_clearBed hone.bounded hone.paired
  refine ⟨(keeps_displace b).2 hone.bounded, ?_, ?_, fun c m => ?_, fun m y hy hne => ?_, fun a => ?_, ?_, ?_, ?_⟩
  · rw [slab?_displace]
    exact hone.stock.trans (sameStock_changed (fun y _ => sameAccount_displaced y))
  · rw [slab?_displace]
    refine (paired_noBed hone.paired hB).of_sameBeds (fun m y hy => ?_) (fun m y hy => ?_)
    · rcases changed_cases hy with ⟨rfl, z, hz, rfl⟩ | ⟨hne, hc⟩
      · exact ⟨displaced (noBed z), changed_found hz, displaced_bed z⟩
      · exact ⟨y, (changed_other hne).trans hc, rfl⟩
    · rcases changed_cases hy with ⟨rfl, z, hz, rfl⟩ | ⟨hne, hc⟩
      · exact ⟨noBed z, changed_found hz, displaced_bed z⟩
      · exact ⟨y, (changed_other hne).trans hc, rfl⟩
  · rw [hB, hone.bedded]
    constructor
    · rintro ⟨⟨hcm, hne, -⟩, hmb⟩
      exact ⟨hcm, hne, fun y hy => by cases hy; exact hmb⟩
    · rintro ⟨hcm, hne, hd⟩
      exact ⟨⟨hcm, hne, fun y hy => by cases hy⟩, hd b rfl⟩
  · rw [slab?_displace] at hy
    rcases changed_cases hy with ⟨rfl, z, hz, rfl⟩ | ⟨-, hc⟩
    · exact posed_displaced z
    · exact hone.posed m y hc hne
  · exact (isSome_saw?_clearBed b a (s.clearBed x.id)).trans (hone.saws a)
  · exact (clearBed_placements b (s.clearBed x.id)).trans hone.placements
  · exact (orders_clearBed b (s.clearBed x.id)).trans hone.orders
  · exact (clearBed_jobs b (s.clearBed x.id)).trans hone.jobs

end

end Sys2Proof.Proofs
end

