-- ==== Sys2Proof/Proofs/StockEntries.lean ====
section
/-! SUPPORT. The laws are kept where a slab is put on a bed, where its basis is set, and where a record is entered or retired. -/

namespace Sys2Proof.Proofs

open Sys2Proof Sys2Proof.Config Sys2Proof.Machine

section
variable {s t u : State} {P Q : List Placement} {S S' : Stock} {B B' : Nat → Nat → Prop} {O O' : List CutOrder} {J J' : List Job}
  {x y z : Slab} {p q r : Placement} {n a b c m : Nat} {d : Option Nat}

/-! ## A bed taken (R13, R14) -/

theorem isStock_iff {st : SlabState} : st.isStock = true ↔ st.isSettled = false ∧ st ≠ .reserved := by
  cases st <;> simp [SlabState.isStock, SlabState.isSettled]

theorem SameAccount.isStock (h : SameAccount x y) (hx : x.state.isStock = true) : y.state.isStock = true := by
  obtain ⟨hs, hr⟩ := isStock_iff.1 hx
  exact isStock_iff.2 ⟨h.settled.trans hs, fun e => hr (h.reserved.1 e)⟩

/-- A record put on a bed. -/
def staged (a : Nat) (z : Slab) : Slab := { z with state := .staged, rack := none, bed := some a }

/-- A slab takes a bed that is free of others. -/
theorem lawsOf_onBed (h : LawsOf s) (hf : Freed s u x d) (hx : s.slab? x.id = some x) (hst : x.state.isStock = true)
    (hw : (s.saw? a).isSome = true) (hd : ∀ m, Bedded s a m → d = some m) :
    LawsOf ((u.modifySlab x.id (staged a)).modifySaw a (fun w => { w with bed := some x.id })) := by
  have hS : ((u.modifySlab x.id (staged a)).modifySaw a (fun w => { w with bed := some x.id })).slab?
      = changed u.slab? x.id (staged a) := slab?_changed (f := staged a) (fun _ => rfl)
  have hbu : (u.modifySlab x.id (staged a)).Bounded :=
    (keeps_modifySlab x.id (staged a) (fun _ => rfl) (fun hl y hy _ => (hl.2.2 y hy).1) (fun _ => rfl)).2 hf.bounded
  have hsaw : ∃ w, u.saw? a = some w := Option.isSome_iff_exists.1 ((hf.saws a).trans hw)
  have hB (c m : Nat) : Bedded ((u.modifySlab x.id (staged a)).modifySaw a (fun w => { w with bed := some x.id })) c m
      ↔ (c ≠ a ∧ Bedded u c m) ∨ (c = a ∧ x.id = m) := by
    refine (bedded_modifySaw hbu).trans (or_congr Iff.rfl (and_congr_right (fun _ => ?_)))
    rw [Option.some.injEq]
    exact and_iff_left hsaw
  have hfree (m : Nat) : ¬ Bedded u a m := by
    intro hbm
    obtain ⟨hbs, -, hne⟩ := (hf.bedded a m).1 hbm
    exact hne m (hd m hbs) rfl
  have hone : ∀ z, u.slab? x.id = some z → SameAccount z (staged a z) := by
    intro z hz
    obtain ⟨x', hx', hxz⟩ := hf.stock.back x.id z hz
    obtain rfl : x = x' := Option.some.inj (hx.symm.trans hx')
    exact sameAccount_stock (hxz.isStock hst) rfl
  have ho : ((u.modifySlab x.id (staged a)).modifySaw a (fun w => { w with bed := some x.id })).orders = s.orders :=
    (orders_of_queueBook (ordersStay_modifySaw a (fun w => { w with bed := some x.id }) (fun _ => rfl) _).queues).trans hf.orders
  have hj : ((u.modifySlab x.id (staged a)).modifySaw a (fun w => { w with bed := some x.id })).jobs = s.jobs := hf.jobs
  have hp : ((u.modifySlab x.id (staged a)).modifySaw a (fun w => { w with bed := some x.id })).placements = s.placements :=
    hf.placements
  unfold LawsOf
  rw [hS, ho, hj, hp]
  refine h.of_sameStock (hf.stock.trans (sameStock_changed hone)) ⟨⟨fun m y hy c hc => ?_, fun c m hbm => ?_⟩, fun m y hy => ?_⟩
  · rcases changed_cases hy with ⟨rfl, z, -, rfl⟩ | ⟨-, hy⟩
    · exact (hB c x.id).2 (.inr ⟨(Option.some.inj hc).symm, rfl⟩)
    · have hbm := hf.paired.onBed m y hy c hc
      exact (hB c m).2 (.inl ⟨fun e => hfree m (e ▸ hbm), hbm⟩)
  · rcases (hB c m).1 hbm with ⟨hne, hbm⟩ | ⟨rfl, rfl⟩
    · obtain ⟨y, hy, hbed⟩ := hf.paired.bedOf c m hbm
      exact ⟨y, (changed_other ((hf.bedded c m).1 hbm).2.1).trans hy, hbed⟩
    · obtain ⟨z, hz, -⟩ := hf.stock.there x.id x hx
      exact ⟨staged c z, changed_found hz, rfl⟩
  · rcases changed_cases hy with ⟨rfl, z, -, rfl⟩ | ⟨hne, hy⟩
    · exact ⟨fun _ => ⟨nofun, rfl⟩, nofun, nofun⟩
    · exact hf.posed m y hy hne

theorem lawsOf_putOnBed {w : Saw} (hb : s.Bounded) (h : LawsOf s) (hx : s.slab? x.id = some x) (hst : x.state.isStock = true)
    (hw : s.saw? a = some w) : LawsOf (s.putOnBed x a w.bed) := by
  have hsome : (s.saw? a).isSome = true := by rw [hw]; rfl
  have hd : ∀ m, Bedded s a m → w.bed = some m := by
    intro m hbm
    obtain ⟨v, hv, hbed⟩ := (bedded_iff_saw hb).1 hbm
    rw [hw] at hv
    cases hv
    exact hbed
  have hlast (v : State) (hv : LawsOf v) : LawsOf ((v.presentBed x).present a) :=
    lawsOf_of_tables (t := (v.presentBed x).present a) (lawTables_presentBed x v) hv
  unfold State.putOnBed
  generalize hd' : w.bed = d at hd
  cases d with
  | none => exact hlast _ (lawsOf_onBed h (freed_none hb h) hx hst hsome hd)
  | some y => exact hlast _ (lawsOf_onBed h (freed_some hb h y) hx hst hsome hd)

/-! ## The basis set (R8) -/

/-- The CUT pieces of a slab without a cut mark are none. -/
theorem piecesOn_nil (h : PlansLaw P S O) (hx : S n = some x) (hc : x.cutMark = false) : piecesOn (cutsOf P) n = [] := by
  refine List.filter_eq_nil_iff.2 (fun p hp hslab => ?_)
  obtain ⟨hmem, hcut⟩ := List.mem_filter.1 hp
  obtain rfl : p.slab = n := of_decide_eq_true hslab
  obtain ⟨y, hy, -, -, hmark⟩ := h.home p hmem
  obtain rfl : x = y := Option.some.inj (hx.symm.trans hy)
  rw [hmark (of_decide_eq_true hcut).2] at hc
  cases hc

/-- The same standing in the stock: settled or not, RESERVED or not, a cut mark kept. -/
structure SameStanding (x y : Slab) : Prop where
  settled : y.state.isSettled = x.state.isSettled
  reserved : y.state = .reserved ↔ x.state = .reserved
  mark : x.cutMark = true → y.cutMark = true

section
variable {f : Slab → Slab}

theorem unsettled_changed (hf : ∀ x, S n = some x → SameStanding x (f x)) (m : Nat) :
    Unsettled (changed S n f) m ↔ Unsettled S m := by
  constructor
  · rintro ⟨y, hy, hs⟩
    rcases changed_cases hy with ⟨rfl, z, hz, rfl⟩ | ⟨-, hy⟩
    · exact ⟨z, hz, (hf z hz).settled ▸ hs⟩
    · exact ⟨y, hy, hs⟩
  · rintro ⟨y, hy, hs⟩
    rcases changed_some (f := f) (n := n) hy with ⟨rfl, hy'⟩ | ⟨-, hy'⟩
    · exact ⟨_, hy', (hf y hy).settled.symm ▸ hs⟩
    · exact ⟨_, hy', hs⟩

theorem reserved_changed (hf : ∀ x, S n = some x → SameStanding x (f x)) (m : Nat) :
    (∃ z, changed S n f m = some z ∧ z.state = .reserved) ↔ ∃ z, S m = some z ∧ z.state = .reserved := by
  constructor
  · rintro ⟨y, hy, hs⟩
    rcases changed_cases hy with ⟨rfl, z, hz, rfl⟩ | ⟨-, hy⟩
    · exact ⟨z, hz, (hf z hz).reserved.1 hs⟩
    · exact ⟨y, hy, hs⟩
  · rintro ⟨y, hy, hs⟩
    rcases changed_some (f := f) (n := n) hy with ⟨rfl, hy'⟩ | ⟨-, hy'⟩
    · exact ⟨_, hy', (hf y hy).reserved.2 hs⟩
    · exact ⟨_, hy', hs⟩

theorem PlansLaw.changed (h : PlansLaw P S O) (hf : ∀ x, S n = some x → SameStanding x (f x)) : PlansLaw P (changed S n f) O := by
  refine h.of_stock (fun p _ y hy hr => ?_)
  rcases changed_some (f := f) (n := n) hy with ⟨rfl, hy'⟩ | ⟨-, hy'⟩
  · have hsame := hf y hy
    exact ⟨_, hy', fun e => hr (hsame.reserved.1 e), fun e => hsame.settled ▸ e, hsame.mark⟩
  · exact ⟨_, hy', hr, id, id⟩

theorem RemnantsLaw.changed (h : RemnantsLaw P S) (hf : ∀ x, S n = some x → SameStanding x (f x)) : RemnantsLaw P (changed S n f) :=
  h.of_stock (fun p _ => unsettled_changed hf p.slab) (reserved_changed hf)

theorem PiecesLaw.changed (h : PiecesLaw C S J) (hf : ∀ x, S n = some x → SameStanding x (f x)) : PiecesLaw C (changed S n f) J :=
  h.of_stock (fun p _ => unsettled_changed hf p.slab)

/-- The law of geometry reads lengths, widths and defects. -/
theorem FitLaw.changed (h : FitLaw P S)
    (hf : ∀ x, S n = some x → (f x).length = x.length ∧ (f x).width = x.width ∧ (f x).defects = x.defects) :
    FitLaw P (changed S n f) := by
  refine h.of_stock (fun p _ y hy => ?_)
  rcases changed_cases hy with ⟨e, z, hz, rfl⟩ | ⟨-, hy⟩
  · exact ⟨z, e.symm ▸ hz, hf z hz⟩
  · exact ⟨y, hy, rfl, rfl, rfl⟩

end

/-- The basis of a slab with no CUT piece and nothing allocated is replaced. -/
theorem BasisLaw.rebased (h : BasisLaw C S) (v : Nat) (hx : S n = some x) (hs : x.state.isSettled = false) (ha : x.allocated = 0)
    (hC : piecesOn C n = []) : BasisLaw C (changed S n (fun z => { z with basis := v })) := by
  refine ⟨fun m y hy hset => ?_, fun m y hy hset => ?_⟩
  · rcases changed_cases hy with ⟨rfl, z, hz, rfl⟩ | ⟨-, hy⟩
    · obtain rfl : x = z := Option.some.inj (hx.symm.trans hz)
      exact absurd (hs.symm.trans hset) (by decide)
    · exact h.settled m y hy hset
  · rcases changed_cases hy with ⟨rfl, z, hz, rfl⟩ | ⟨-, hy⟩
    · obtain rfl : x = z := Option.some.inj (hx.symm.trans hz)
      rw [hC]
      exact ha
    · exact h.provisional m y hy hset

theorem lawsOf_basis (h : LawsOf s) (v : Nat) (hx : s.slab? a = some x) (ha : x.allocated = 0) (hc : x.cutMark = false)
    (hst : x.state.isStock = true) : LawsOf (s.modifySlab a (fun z => { z with basis := v })) := by
  have hsame : ∀ y, s.slab? a = some y → SameStanding y { y with basis := v } := fun _ _ => ⟨rfl, Iff.rfl, id⟩
  unfold LawsOf
  rw [slab?_changed (f := fun z => { z with basis := v }) (fun _ => rfl)]
  exact ⟨h.plans.changed hsame, h.beds.changed (fun y hy => ⟨rfl, h.beds.posed a y hy⟩), h.remnants.changed hsame,
    h.fit.changed (fun _ _ => ⟨rfl, rfl, rfl⟩), h.basis.rebased v hx (not_settled_of_stock hst) ha (piecesOn_nil h.plans hx hc),
    h.pieces.changed hsame⟩

end

end Sys2Proof.Proofs
end

