-- ==== Sys2Proof/Proofs/PlanMoves.lean ====
section
/-! SUPPORT. The laws are kept where a record is entered or retired, and where a placement is added or removed. -/

namespace Sys2Proof.Proofs

open Sys2Proof Sys2Proof.Config Sys2Proof.Machine

section
variable {s t u : State} {P Q C D : List Placement} {S S' : Stock} {B B' : Nat → Nat → Prop} {O O' : List CutOrder} {J J' : List Job}
  {x y z : Slab} {e p q r : Placement} {n a b c m i : Nat}

/-! ## Stocks that agree where the plans stand -/

theorem PlansLaw.of_agree (h : PlansLaw P S O) (hS : ∀ p ∈ P, S' p.slab = S p.slab) : PlansLaw P S' O :=
  h.of_stock (fun p hp x hx hr => ⟨x, (hS p hp).trans hx, hr, id, id⟩)

theorem FitLaw.of_agree (h : FitLaw P S) (hS : ∀ p ∈ P, S' p.slab = S p.slab) : FitLaw P S' :=
  h.of_stock (fun p hp y hy => ⟨y, (hS p hp).symm.trans hy, rfl, rfl, rfl⟩)

theorem unsettled_of_agree (hS : S' n = S n) : Unsettled S' n ↔ Unsettled S n := by
  unfold Unsettled
  rw [hS]

theorem PiecesLaw.of_agree (h : PiecesLaw C S J) (hS : ∀ p ∈ C, S' p.slab = S p.slab) : PiecesLaw C S' J :=
  h.of_stock (fun p hp => unsettled_of_agree (hS p hp))

theorem mem_of_cutsOf (h : p ∈ cutsOf P) : p ∈ P := (List.mem_filter.1 h).1

theorem slab_there (h : PlansLaw P S O) (hp : p ∈ P) : S p.slab ≠ none := by
  obtain ⟨x, hx, -⟩ := h.home p hp
  rw [hx]
  nofun

/-! ## A record entered (R4, R30) -/

/-- A stock with one more record. -/
def withSlab (S : Stock) (x : Slab) : Stock := fun m => if x.id = m then some x else S m

theorem withSlab_self : withSlab S x x.id = some x := if_pos rfl

theorem withSlab_other (h : m ≠ x.id) : withSlab S x m = S m := if_neg (fun e => h e.symm)

theorem withSlab_cases (h : withSlab S x m = some y) : (m = x.id ∧ y = x) ∨ (m ≠ x.id ∧ S m = some y) := by
  by_cases e : m = x.id
  · subst e
    exact .inl ⟨rfl, (Option.some.inj (withSlab_self.symm.trans h)).symm⟩
  · exact .inr ⟨e, (withSlab_other e).symm.trans h⟩

theorem withSlab_old (hn : S x.id = none) (h : S m = some y) : withSlab S x m = some y := by
  refine (withSlab_other (fun e => ?_)).trans h
  rw [e, hn] at h
  cases h

theorem slab?_addSlab (hn : s.slab? x.id = none) : (s.addSlab x).slab? = withSlab s.slab? x := by
  funext m
  refine findBy_insertBy (key := Slab.id) (x := x) (l := s.slabs) (fun y hy e => ?_) m
  exact absurd (decide_eq_true e) (List.find?_eq_none.1 hn y hy)

theorem agree_withSlab (h : PlansLaw P S O) (hn : S x.id = none) : ∀ p ∈ P, withSlab S x p.slab = S p.slab :=
  fun _ hp => withSlab_other (fun e => slab_there h hp (e ▸ hn))

theorem BedsLaw.withSlab (h : BedsLaw S B) (hn : S x.id = none) (hbed : x.bed = none) (hx : Posed x) : BedsLaw (withSlab S x) B := by
  refine ⟨⟨fun m y hy a ha => ?_, fun a m hb => ?_⟩, fun m y hy => ?_⟩
  · rcases withSlab_cases hy with ⟨-, rfl⟩ | ⟨-, hy⟩
    · rw [hbed] at ha
      cases ha
    · exact h.paired.onBed m y hy a ha
  · obtain ⟨y, hy, hya⟩ := h.paired.bedOf a m hb
    exact ⟨y, withSlab_old hn hy, hya⟩
  · rcases withSlab_cases hy with ⟨-, rfl⟩ | ⟨-, hy⟩
    · exact hx
    · exact h.posed m y hy

theorem BasisLaw.withSlab (h : BasisLaw (cutsOf P) S) (hp : PlansLaw P S O) (hn : S x.id = none) (ha : x.allocated = 0)
    (hs : x.state.isSettled = false) : BasisLaw (cutsOf P) (withSlab S x) := by
  refine ⟨fun m y hy hset => ?_, fun m y hy hset => ?_⟩
  · rcases withSlab_cases hy with ⟨-, rfl⟩ | ⟨-, hy⟩
    · rw [hs] at hset
      cases hset
    · exact h.settled m y hy hset
  · rcases withSlab_cases hy with ⟨rfl, rfl⟩ | ⟨-, hy⟩
    · have hnone : piecesOn (cutsOf P) y.id = [] := by
        refine List.filter_eq_nil_iff.2 (fun p hp' hslab => ?_)
        refine slab_there hp (mem_of_cutsOf hp') ?_
        rw [of_decide_eq_true hslab]
        exact hn
      rw [hnone]
      exact ha
    · exact h.provisional m y hy hset

theorem lawsOf_enter (h : LawsOf s) (hn : s.slab? x.id = none) (hst : x.state = .received) (ha : x.allocated = 0)
    (hbed : x.bed = none) (hrack : x.rack = none) : LawsOf (s.addSlab x) := by
  have hS := agree_withSlab h.plans hn
  unfold LawsOf
  rw [slab?_addSlab hn]
  refine ⟨h.plans.of_agree hS, h.beds.withSlab hn hbed ⟨fun e => ?_, fun e => ?_, fun _ => ⟨hbed, hrack⟩⟩,
    h.remnants.of_stock (fun p hp => unsettled_of_agree (hS p hp)) (fun m => ⟨?_, ?_⟩), h.fit.of_agree hS,
    h.basis.withSlab h.plans hn ha (by rw [hst]; rfl), h.pieces.of_agree (fun p hp => hS p (mem_of_cutsOf hp))⟩
  · rw [hst] at e
    cases e
  · rw [hst] at e
    cases e
  · rintro ⟨y, hy, hr⟩
    rcases withSlab_cases hy with ⟨-, rfl⟩ | ⟨-, hy⟩
    · rw [hst] at hr
      cases hr
    · exact ⟨y, hy, hr⟩
  · rintro ⟨y, hy, hr⟩
    exact ⟨y, withSlab_old hn hy, hr⟩

/-! ## Fewer placements -/

theorem PlansLaw.sub (h : PlansLaw P S O) (hQ : ∀ p ∈ Q, p ∈ P) : PlansLaw Q S O :=
  ⟨fun p hp => h.home p (hQ p hp), fun p hp => h.record p (hQ p hp), fun p hp => h.jobless p (hQ p hp),
    fun o ho p hp => h.matched o ho p (hQ p hp)⟩

theorem FitLaw.sub (h : FitLaw P S) (hQ : ∀ p ∈ Q, p ∈ P) : FitLaw Q S :=
  ⟨fun p hp q hq => h.apart p (hQ p hp) q (hQ q hq), fun p hp => h.within p (hQ p hp)⟩

theorem cutsOf_filter (c : Placement → Bool) : cutsOf (P.filter c) = (cutsOf P).filter c := by
  unfold cutsOf
  rw [List.filter_filter, List.filter_filter]
  exact List.filter_congr (fun p _ => Bool.and_comm _ _)

/-! ## A settled record retired (R17) -/

/-- A stock without one record. -/
def lessSlab (S : Stock) (n : Nat) : Stock := fun m => if m = n then none else S m

theorem slab?_lessSlab (n : Nat) (s : State) : (s.freeSlab n).slab? = lessSlab s.slab? n := funext (fun m => slab?_freeSlab n m)

theorem lessSlab_other (h : m ≠ n) : lessSlab S n m = S m := if_neg h

theorem of_lessSlab (h : lessSlab S n m = some y) : m ≠ n ∧ S m = some y := by
  by_cases e : m = n
  · rw [lessSlab, if_pos e] at h
    cases h
  · exact ⟨e, (lessSlab_other e).symm.trans h⟩

/-- A record without a bed goes. -/
theorem BedsLaw.lessSlab (h : BedsLaw S B) (hx : S n = some x) (hbed : x.bed = none) : BedsLaw (lessSlab S n) B := by
  refine ⟨⟨fun m y hy => h.paired.onBed m y (of_lessSlab hy).2, fun a m hb => ?_⟩, fun m y hy => h.posed m y (of_lessSlab hy).2⟩
  obtain ⟨y, hy, hya⟩ := h.paired.bedOf a m hb
  refine ⟨y, (lessSlab_other (fun e => ?_)).trans hy, hya⟩
  rw [e, hx] at hy
  cases hy
  rw [hbed] at hya
  cases hya

theorem lawsOf_retire (h : LawsOf s) (hx : s.slab? a = some x) (hs : x.state.isSettled = true) (hbed : x.bed = none) :
    LawsOf (({ s with placements := s.placements.filter (fun p => decide (p.slab ≠ a)) } : State).freeSlab a) := by
  have hsub : ∀ p ∈ s.placements.filter (fun p => decide (p.slab ≠ a)), p ∈ s.placements ∧ p.slab ≠ a := by
    intro p hp
    obtain ⟨hmem, hne⟩ := List.mem_filter.1 hp
    exact ⟨hmem, of_decide_eq_true hne⟩
  have hS : ∀ p ∈ s.placements.filter (fun p => decide (p.slab ≠ a)), lessSlab s.slab? a p.slab = s.slab? p.slab :=
    fun p hp => lessSlab_other (hsub p hp).2
  have hun {m : Nat} : Unsettled (lessSlab s.slab? a) m ↔ Unsettled s.slab? m := by
    constructor
    · rintro ⟨y, hy, hys⟩
      exact ⟨y, (of_lessSlab hy).2, hys⟩
    · rintro ⟨y, hy, hys⟩
      refine ⟨y, (lessSlab_other (fun e => ?_)).trans hy, hys⟩
      rw [e, hx] at hy
      cases hy
      rw [hs] at hys
      cases hys
  unfold LawsOf
  rw [slab?_lessSlab a ({ s with placements := s.placements.filter (fun p => decide (p.slab ≠ a)) } : State)]
  refine ⟨(h.plans.sub (fun p hp => (hsub p hp).1)).of_agree hS, h.beds.lessSlab hx hbed,
    ⟨fun p hp r hr hu => ?_, fun p hp q hq r hr hr' hu hu' => ?_, fun m z hz hst => ?_⟩,
    (h.fit.sub (fun p hp => (hsub p hp).1)).of_agree hS, ?_, ?_⟩
  · obtain ⟨z, hz, hst⟩ := h.remnants.reserves p (hsub p hp).1 r hr (hun.1 hu)
    refine ⟨z, (lessSlab_other (fun e => ?_)).trans hz, hst⟩
    rw [e, hx] at hz
    cases hz
    rw [hst] at hs
    cases hs
  · exact h.remnants.alone p (hsub p hp).1 q (hsub q hq).1 r hr hr' (hun.1 hu) (hun.1 hu')
  · obtain ⟨p, hp, hr, hu⟩ := h.remnants.named m z (of_lessSlab hz).2 hst
    refine ⟨p, List.mem_filter.2 ⟨hp, decide_eq_true (fun e => ?_)⟩, hr, hun.2 hu⟩
    obtain ⟨y, hy, hys⟩ := hu
    rw [e, hx] at hy
    cases hy
    rw [hs] at hys
    cases hys
  · show BasisLaw (cutsOf (s.placements.filter _)) _
    rw [cutsOf_filter]
    refine ⟨fun m y hy => h.basis.settled m y (of_lessSlab hy).2, fun m y hy hys => ?_⟩
    obtain ⟨hne, hy⟩ := of_lessSlab hy
    have hpieces : piecesOn ((cutsOf s.placements).filter (fun p => decide (p.slab ≠ a))) m = piecesOn (cutsOf s.placements) m := by
      unfold piecesOn
      rw [List.filter_filter]
      refine List.filter_congr (fun p _ => ?_)
      by_cases e : p.slab = m
      · simp [e, hne]
      · simp [e]
    rw [hpieces]
    exact h.basis.provisional m y hy hys
  · show PiecesLaw (cutsOf (s.placements.filter _)) (lessSlab s.slab? a) s.jobs
    rw [cutsOf_filter]
    refine ⟨fun j hj => ?_, h.pieces.closed, fun p hp hu => h.pieces.payers p (List.mem_filter.1 hp).1 (hun.1 hu)⟩
    rw [List.countP_filter, h.pieces.counted j hj]
    refine List.countP_congr (fun p _ => ?_)
    rw [Bool.and_eq_true, Bool.and_eq_true, Bool.and_eq_true, any_unsettled, any_unsettled, hun, decide_eq_true_iff, decide_eq_true_iff]
    refine ⟨fun hc => ⟨hc, fun e => ?_⟩, And.left⟩
    obtain ⟨⟨y, hy, hys⟩, -⟩ := hc
    rw [e, hx] at hy
    cases hy
    rw [hs] at hys
    cases hys

end

end Sys2Proof.Proofs
end

