-- ==== Sys2Proof/Proofs/PlanAdded.lean ====
section
/-! SUPPORT. The laws are kept where a PLACE adds its entry and a remnant's record. -/

namespace Sys2Proof.Proofs

open Sys2Proof Sys2Proof.Config Sys2Proof.Machine

section
variable {s t u : State} {P Q C D : List Placement} {S S' : Stock} {B B' : Nat → Nat → Prop} {O O' : List CutOrder} {J J' : List Job}
  {x y z : Slab} {e p q r : Placement} {n a b c m i : Nat}

/-! ## An entry added -/

/-- What an entry must be to join the plans. -/
structure Joins (P : List Placement) (S : Stock) (O : List CutOrder) (e : Placement) : Prop where
  home : ∃ x, S e.slab = some x ∧ x.state.isStock = true
  planned : e.state = .planned
  record : e.kind = .remnant ↔ e.remnantSlab ≠ none
  jobless : e.kind = .remnant ↔ e.job = none
  free : ∀ o ∈ O, e.slab = o.slab → e.index ≠ o.index
  apart : ∀ p ∈ P, p.slab = e.slab → ∀ a, e.reserved = some a → ∀ b, p.reserved = some b → a.meets b = false
  within : ∀ a, e.reserved = some a → ∀ x, S e.slab = some x → Fits a x e.kind.isPiece

/-- The pool with an entry added. -/
abbrev adding (P : List Placement) (e : Placement) : List Placement := insertBy Placement.key e P

theorem mem_adding : p ∈ adding P e ↔ p = e ∨ p ∈ P := mem_insertBy _ _ _ _

theorem cutsOf_adding (he : e.state = .planned) : cutsOf (adding P e) = cutsOf P := by
  have hno : decide (e.kind.isPiece = true ∧ e.state = .cut) = false := by
    rw [he]
    exact decide_eq_false (fun h => by cases h.2)
  unfold cutsOf adding
  induction P with
  | nil => exact List.filter_cons_of_neg (by simp [hno])
  | cons p P ih =>
    rw [insertBy]
    split
    · exact List.filter_cons_of_neg (by simp [hno])
    · rw [List.filter_cons, List.filter_cons, ih]

theorem PlansLaw.joined (h : PlansLaw P S O) (he : Joins P S O e) : PlansLaw (adding P e) S O := by
  refine ⟨fun p hp => ?_, fun p hp => ?_, fun p hp => ?_, fun o ho p hp hs hi => ?_⟩
  · rcases mem_adding.1 hp with rfl | hp
    · obtain ⟨x, hx, hst⟩ := he.home
      refine ⟨x, hx, ne_reserved_of_isStock hst, fun hs => ?_, fun hc => ?_⟩
      · rw [not_settled_of_stock hst] at hs
        cases hs
      · rw [he.planned] at hc
        cases hc
    · exact h.home p hp
  · rcases mem_adding.1 hp with rfl | hp
    · exact he.record
    · exact h.record p hp
  · rcases mem_adding.1 hp with rfl | hp
    · exact he.jobless
    · exact h.jobless p hp
  · rcases mem_adding.1 hp with rfl | hp
    · exact absurd hi (he.free o ho hs)
    · exact h.matched o ho p hp hs hi

theorem FitLaw.joined (h : FitLaw P S) (he : Joins P S O e) : FitLaw (adding P e) S := by
  refine ⟨fun p hp q hq hs hi a ha b hb => ?_, fun p hp => ?_⟩
  · rcases mem_adding.1 hp with rfl | hpP
    · rcases mem_adding.1 hq with rfl | hqP
      · exact absurd rfl hi
      · exact he.apart q hqP hs a ha b hb
    · rcases mem_adding.1 hq with rfl | hqP
      · exact (meets_comm a b).trans (he.apart p hpP hs.symm b hb a ha)
      · exact h.apart p hpP q hqP hs hi a ha b hb
  · rcases mem_adding.1 hp with rfl | hp
    · exact he.within
    · exact h.within p hp

theorem RemnantsLaw.joined (h : RemnantsLaw P S) (hn : e.remnantSlab = none) : RemnantsLaw (adding P e) S := by
  have hold : ∀ p ∈ adding P e, ∀ r, p.remnantSlab = some r → p ∈ P := by
    intro p hp r hr
    rcases mem_adding.1 hp with rfl | hp
    · rw [hn] at hr
      cases hr
    · exact hp
  refine ⟨fun p hp r hr => h.reserves p (hold p hp r hr) r hr, fun p hp q hq r hr hr' => ?_, fun m z hz hst => ?_⟩
  · exact h.alone p (hold p hp r hr) q (hold q hq r hr') r hr hr'
  · obtain ⟨p, hp, hr, hu⟩ := h.named m z hz hst
    exact ⟨p, mem_adding.2 (.inr hp), hr, hu⟩

/-- R30: the entry of a remnant comes with its record. -/
theorem RemnantsLaw.reserving (h : RemnantsLaw P S) (hp : PlansLaw P S O) (he : Joins P S O e) (hz : S z.id = none)
    (hst : z.state = .reserved) (hr : e.remnantSlab = some z.id) : RemnantsLaw (adding P e) (withSlab S z) := by
  have hun : ∀ p ∈ P, Unsettled (withSlab S z) p.slab ↔ Unsettled S p.slab :=
    fun p h => unsettled_of_agree (agree_withSlab hp hz p h)
  have hfresh : ∀ p ∈ P, p.remnantSlab = some z.id → ¬ Unsettled S p.slab := by
    intro p hp hr hu
    obtain ⟨y, hy, -⟩ := h.reserves p hp z.id hr hu
    rw [hz] at hy
    cases hy
  have hhome : Unsettled (withSlab S z) e.slab := by
    obtain ⟨x, hx, hst⟩ := he.home
    exact ⟨x, withSlab_old hz hx, not_settled_of_stock hst⟩
  refine ⟨fun p hp n hn hu => ?_, fun p hp q hq n hn hn' hu hu' => ?_, fun m y hy hyr => ?_⟩
  · rcases mem_adding.1 hp with rfl | hp
    · rw [hr] at hn
      cases hn
      exact ⟨z, withSlab_self, hst⟩
    · obtain ⟨y, hy, hyr⟩ := h.reserves p hp n hn ((hun p hp).1 hu)
      exact ⟨y, withSlab_old hz hy, hyr⟩
  · rcases mem_adding.1 hp with rfl | hpP
    · rcases mem_adding.1 hq with rfl | hqP
      · exact ⟨rfl, rfl⟩
      · rw [hr] at hn
        cases hn
        exact absurd ((hun q hqP).1 hu') (hfresh q hqP hn')
    · rcases mem_adding.1 hq with rfl | hqP
      · rw [hr] at hn'
        cases hn'
        exact absurd ((hun p hpP).1 hu) (hfresh p hpP hn)
      · exact h.alone p hpP q hqP n hn hn' ((hun p hpP).1 hu) ((hun q hqP).1 hu')
  · rcases withSlab_cases hy with ⟨rfl, rfl⟩ | ⟨-, hy⟩
    · exact ⟨e, mem_adding.2 (.inl rfl), hr, hhome⟩
    · obtain ⟨p, hp, hpr, hu⟩ := h.named m y hy hyr
      exact ⟨p, mem_adding.2 (.inr hp), hpr, (hun p hp).2 hu⟩

theorem Laws.joined (h : Laws P S B O J) (he : Joins P S O e) (hn : e.remnantSlab = none) : Laws (adding P e) S B O J :=
  ⟨h.plans.joined he, h.beds, h.remnants.joined hn, h.fit.joined he, (cutsOf_adding he.planned).symm ▸ h.basis,
    (cutsOf_adding he.planned).symm ▸ h.pieces⟩

theorem Laws.reserving (h : Laws P S B O J) (he : Joins P S O e) (hz : S z.id = none) (hst : z.state = .reserved)
    (hbed : z.bed = none) (hrack : z.rack = none) (ha : z.allocated = 0) (hr : e.remnantSlab = some z.id) :
    Laws (adding P e) (withSlab S z) B O J := by
  have hplans := h.plans.joined he
  have hS := agree_withSlab hplans hz
  refine ⟨hplans.of_agree hS, h.beds.withSlab hz hbed ⟨fun k => ?_, fun k => ?_, fun _ => ⟨hbed, hrack⟩⟩,
    h.remnants.reserving h.plans he hz hst hr, (h.fit.joined he).of_agree hS, ?_, ?_⟩
  · rw [hst] at k
    cases k
  · rw [hst] at k
    cases k
  · rw [cutsOf_adding he.planned]
    exact h.basis.withSlab h.plans hz ha (by rw [hst]; rfl)
  · rw [cutsOf_adding he.planned]
    exact h.pieces.of_agree (fun p hp => agree_withSlab h.plans hz p (mem_of_cutsOf hp))

/-! ## What PLACE checks (R24 to R33) -/

theorem placeForm_shape {k j pp pi rs : Nat} {rect : Rect} {q : PlaceRequest} (h : placeForm a k rect j pp pi rs = some q) :
    (q.kind = .remnant ↔ q.remnant ≠ none) ∧ (q.kind = .remnant ↔ q.job = none) := by
  rcases hk : decodeKind k with _ | kind
  · simp [placeForm, hk] at h
  · by_cases bad : sizeFits kind rect = false ∨ 4000 < rect.x ∨ 2200 < rect.y
    · simp [placeForm, hk, bad] at h
    · simp only [placeForm, hk, if_neg bad] at h
      cases kind <;> simp [taken_request h]

theorem lowest_free {slab : Nat} {k : Placement → Bool} (hl : PlacementsLegal s.placements) (h : s.lowest slab k = none)
    (hp : p ∈ s.placements) (hs : p.slab = slab) : k p = false := by
  rw [lowest_eq, find?_range_eq_none] at h
  have hlow := h p.index (Nat.lt_succ_of_le (hl.2.2 p hp))
  rw [(placement?_eq_some hl).2 ⟨hp, hs, rfl⟩] at hlow
  exact hlow

theorem usable_of_check {r : Rect} (h : usableCheck s x r = none) :
    r.x + (r.length + s.constants.kerf) ≤ x.length ∧ r.y + (r.width + s.constants.kerf) ≤ x.width := by
  have hin := checkThat_none h
  unfold inUsable Rect.skirted at hin
  simp only [Bool.and_eq_true, decide_eq_true_eq] at hin
  omega

theorem apart_of_check {slab : Nat} {r b : Rect} (hl : PlacementsLegal s.placements) (h : overlapCheck s slab r = none)
    (hp : p ∈ s.placements) (hs : p.slab = slab) (hb : p.reserved = some b) : (r.skirted s.constants.kerf).meets b = false := by
  unfold overlapCheck at h
  split at h
  next hlow =>
    have hfree := lowest_free hl hlow hp hs
    rw [meetsRect_eq] at hfree
    simp only [hb, Option.any_some] at hfree
    exact (meets_comm _ _).trans hfree
  · cases h

theorem clear_of_check {r d : Rect} (h : defectCheck s x r = none) (hd : d ∈ x.defects) :
    (r.skirted s.constants.kerf).meets d = false := by
  rw [defectCheck_eq, Option.map_eq_none_iff, List.findIdx?_eq_none_iff] at h
  exact h d hd

/-- What passes the checks of its kind lies on the slab, apart from what is there. -/
theorem fits_of_geometry {q : PlaceRequest} (hl : PlacementsLegal s.placements) (h : geometryCheck s x q = none) (i : Nat) {r : Rect}
    (hr : (q.entry i s.constants.kerf).reserved = some r) :
    Fits r x q.kind.isPiece ∧ ∀ p ∈ s.placements, p.slab = q.slab → ∀ b, p.reserved = some b → r.meets b = false := by
  have hpiece (hr : some (q.rect.skirted s.constants.kerf) = some r)
      (h : (usableCheck s x q.rect).or ((overlapCheck s q.slab q.rect).or (defectCheck s x q.rect)) = none) (k : Bool) :
      Fits r x k ∧ ∀ p ∈ s.placements, p.slab = q.slab → ∀ b, p.reserved = some b → r.meets b = false := by
    cases hr
    obtain ⟨hu, hrest⟩ := or_none h
    obtain ⟨ho, hd⟩ := or_none hrest
    obtain ⟨hX, hY⟩ := usable_of_check hu
    exact ⟨⟨hX, hY, fun _ d hmem => clear_of_check hd hmem⟩, fun p hp hs b hb => apart_of_check hl ho hp hs hb⟩
  unfold geometryCheck at h
  unfold Placement.reserved PlaceRequest.entry at hr
  cases hk : q.kind with
  | piece =>
    rw [hk] at h hr
    exact hpiece hr h _
  | mitre =>
    rw [hk] at h hr
    exact hpiece hr h _
  | remnant =>
    rw [hk] at h hr
    cases hr
    obtain ⟨hu, hrest⟩ := or_none h
    obtain ⟨ho, -⟩ := or_none hrest
    obtain ⟨hX, hY⟩ := usable_of_check hu
    exact ⟨⟨hX, hY, nofun⟩, fun p hp hs b hb => apart_of_check hl ho hp hs hb⟩
  | cutout =>
    rw [hk] at hr
    cases hr

theorem stock_of_placeCheck {q : PlaceRequest} (hx : s.slab? q.slab = some x) (h : placeCheck s q = none) : x.state.isStock = true := by
  unfold placeCheck at h
  rw [hx] at h
  exact checkThat_none (or_none (or_none h).2).1

/-! ## PLACE (R32) -/

theorem joins_of_place {k j pp pi rs : Nat} {rect : Rect} {q : PlaceRequest} (hb : s.Bounded) (ho : s.Orderly)
    (hq : placeForm a k rect j pp pi rs = some q) (hc : placeCheck s q = none) (hx : s.slab? a = some x)
    (hi : s.freeIndex a = some i) : Joins s.placements s.slab? s.orders (q.entry i s.constants.kerf) := by
  obtain ⟨rfl, -⟩ := Machine.placeForm_remnant hq
  obtain ⟨hrecord, hjobless⟩ := placeForm_shape hq
  obtain ⟨-, hgeometry⟩ := placeCheck_none hx hc
  obtain ⟨-, hfree⟩ := freeIndex_some hi
  refine ⟨⟨x, hx, stock_of_placeCheck hx hc⟩, rfl, hrecord, hjobless, fun o hmem hs hindex => ?_,
    fun p hp hs r hr b hpb => (fits_of_geometry hb.placements hgeometry i hr).2 p hp hs b hpb, fun r hr y hy => ?_⟩
  · obtain ⟨-, hbooks⟩ := orderly_iff.1 ho
    obtain ⟨p, hp, hslab, hpi, -⟩ := (hbooks.placed o.slab o.index).2 ⟨o, hmem, rfl, rfl⟩
    have hfound : s.placement? q.slab i = some p :=
      (placement?_eq_some hb.placements).2 ⟨hp, hslab.trans hs.symm, hpi.trans hindex.symm⟩
    rw [hfree] at hfound
    cases hfound
  · obtain rfl : x = y := Option.some.inj (hx.symm.trans hy)
    exact (fits_of_geometry hb.placements hgeometry i hr).1

theorem lawsOf_place {k j pp pi rs : Nat} {rect : Rect} {q : PlaceRequest} (hb : s.Bounded) (ho : s.Orderly) (h : LawsOf s)
    (hq : placeForm a k rect j pp pi rs = some q) (hc : placeCheck s q = none) (hx : s.slab? a = some x)
    (hi : s.freeIndex a = some i) : LawsOf ((s.addPlacement (q.entry i s.constants.kerf)).reserveRemnant x q) := by
  have he := joins_of_place hb ho hq hc hx hi
  unfold State.reserveRemnant
  split
  next hn => exact h.joined he hn
  next m hm =>
    have hfree : s.slab? m = none := by
      obtain ⟨rfl, hremnant⟩ := Machine.placeForm_remnant hq
      obtain ⟨-, hgeometry⟩ := placeCheck_none hx hc
      simp only [geometryCheck, hremnant (by rw [hm]; nofun)] at hgeometry
      obtain ⟨-, hrest⟩ := or_none hgeometry
      obtain ⟨-, hcheck⟩ := or_none hrest
      obtain ⟨-, hfree, -⟩ := remnantCheck_none hcheck
      rw [hm] at hfree
      exact hfree
    unfold LawsOf
    rw [slab?_addSlab (s := s.addPlacement (q.entry i s.constants.kerf)) (x := remnantSlab x m q.rect) hfree]
    exact h.reserving he hfree rfl rfl rfl rfl hm

end

end Sys2Proof.Proofs
end

