-- ==== Sys2Proof/Proofs/PlanRemoved.lean ====
section
/-! SUPPORT. The laws are kept where a placement is removed, and where a defect removes the pieces it meets. -/

namespace Sys2Proof.Proofs

open Sys2Proof Sys2Proof.Config Sys2Proof.Machine

section
variable {s t u : State} {P Q C D : List Placement} {S S' : Stock} {B B' : Nat → Nat → Prop} {O O' : List CutOrder} {J J' : List Job}
  {x y z : Slab} {p q : Placement} {n a b m i : Nat} {c : Placement → Bool} {r : Rect}

/-! ## Filters of the pool -/

/-- The placements a filter takes out are neither remnants nor CUT pieces. -/
theorem Laws.filter (h : Laws P S B O J) (hc : ∀ q ∈ P, c q = false → q.kind ≠ .remnant ∧ ¬ (q.kind.isPiece = true ∧ q.state = .cut)) :
    Laws (P.filter c) S B O J := by
  have hpass : Passes P (Option.guard (fun q => c q)) := by
    refine ⟨fun q _ r hr => ?_, fun q hq hnone => ?_, fun q hq hk hst => ?_⟩
    · obtain ⟨rfl, -⟩ := Option.guard_eq_some_iff.1 hr
      exact .refl _
    · have hno : c q = false := by
        cases hcq : c q with
        | false => rfl
        | true =>
          rw [Option.guard_pos (by simpa using hcq)] at hnone
          cases hnone
      exact (hc q hq hno).1
    · refine Option.guard_pos ?_
      by_contra hcq
      exact (hc q hq (by simpa using hcq)).2 ⟨hk, hst⟩
  rw [← List.filterMap_eq_filter]
  exact h.pass hpass

theorem passes_afterRemoval (hl : PlacementsLegal P) (hp : p ∈ P) (hk : p.kind.isPiece = true) (hst : p.state = .planned) :
    Passes P (afterRemoval p.slab p.index) := by
  refine ⟨fun q _ r hr => ?_, fun q hq hnone => ?_, fun q hq hqk hqst => ?_⟩
  · unfold afterRemoval at hr
    split at hr
    · cases hr
    · split at hr
      · obtain ⟨-, rfl⟩ := leftOf_some hr
        exact ⟨⟨rfl, rfl, rfl, rfl, rfl, rfl⟩, Iff.rfl⟩
      · cases hr
        exact .refl _
  · unfold afterRemoval at hnone
    split at hnone
    · rename_i hat
      rw [placement_unique hl hq hp hat.1 hat.2]
      intro e
      rw [e] at hk
      cases hk
    · split at hnone
      · rename_i hcut
        rw [hcut.2.1]
        nofun
      · cases hnone
  · unfold afterRemoval
    rw [if_neg, if_neg]
    · rintro ⟨-, hcut, -⟩
      rw [hcut] at hqk
      cases hqk
    · intro hat
      rw [placement_unique hl hq hp hat.1 hat.2, hst] at hqst
      cases hqst

/-! ## A remnant's placement with its record (R31) -/

theorem Laws.unreserve (hl : PlacementsLegal P) (h : Laws P S B O J) (hp : p ∈ P) (hst : p.state = .planned) (hr : p.remnantSlab = some n) :
    Laws (P.filter (fun q => decide (¬ (q.slab = p.slab ∧ q.index = p.index)))) (lessSlab S n) B O J := by
  have hun : Unsettled S p.slab := by
    obtain ⟨x, hx, -, hcut, -⟩ := h.plans.home p hp
    refine ⟨x, hx, ?_⟩
    by_contra hs
    have := hcut (Bool.not_eq_false _ ▸ hs)
    rw [hst] at this
    cases this
  obtain ⟨z, hz, hzr⟩ := h.remnants.reserves p hp n hr hun
  have hagree : ∀ q ∈ P, lessSlab S n q.slab = S q.slab := by
    intro q hq
    obtain ⟨x, hx, hne, -⟩ := h.plans.home q hq
    refine lessSlab_other (fun e => ?_)
    rw [e, hz] at hx
    cases hx
    exact hne hzr
  have hsub : ∀ q ∈ P.filter (fun q => decide (¬ (q.slab = p.slab ∧ q.index = p.index))), q ∈ P ∧ ¬ (q.slab = p.slab ∧ q.index = p.index) := by
    intro q hq
    obtain ⟨hmem, hne⟩ := List.mem_filter.1 hq
    exact ⟨hmem, of_decide_eq_true hne⟩
  have hcuts : cutsOf (P.filter (fun q => decide (¬ (q.slab = p.slab ∧ q.index = p.index)))) = cutsOf P := by
    rw [cutsOf_filter]
    refine List.filter_eq_self.2 (fun q hq => decide_eq_true (fun hat => ?_))
    obtain ⟨hmem, hcut⟩ := List.mem_filter.1 hq
    have hqst := (of_decide_eq_true hcut).2
    rw [placement_unique hl hmem hp hat.1 hat.2, hst] at hqst
    cases hqst
  have hback : ∀ q ∈ P, Unsettled (lessSlab S n) q.slab ↔ Unsettled S q.slab := fun q hq => unsettled_of_agree (hagree q hq)
  refine ⟨(h.plans.sub (fun q hq => (hsub q hq).1)).of_agree (fun q hq => hagree q (hsub q hq).1),
    h.beds.lessSlab hz ((h.beds.posed n z hz).2.2 (.inr hzr)).1,
    ⟨fun q hq k hk hu => ?_, fun q hq q' hq' k hk hk' hu hu' => ?_, fun k y hy hyr => ?_⟩,
    (h.fit.sub (fun q hq => (hsub q hq).1)).of_agree (fun q hq => hagree q (hsub q hq).1), ?_, ?_⟩
  · obtain ⟨hmem, hne⟩ := hsub q hq
    obtain ⟨y, hy, hyr⟩ := h.remnants.reserves q hmem k hk ((hback q hmem).1 hu)
    refine ⟨y, (lessSlab_other (fun e => hne ?_)).trans hy, hyr⟩
    subst e
    exact h.remnants.alone p hp q hmem k hr hk hun ((hback q hmem).1 hu)
  · obtain ⟨hmem, -⟩ := hsub q hq
    obtain ⟨hmem', -⟩ := hsub q' hq'
    exact h.remnants.alone q hmem q' hmem' k hk hk' ((hback q hmem).1 hu) ((hback q' hmem').1 hu')
  · obtain ⟨hkn, hy⟩ := of_lessSlab hy
    obtain ⟨q, hq, hk, hu⟩ := h.remnants.named k y hy hyr
    refine ⟨q, List.mem_filter.2 ⟨hq, decide_eq_true (fun hat => hkn ?_)⟩, hk, (hback q hq).2 hu⟩
    rw [placement_unique hl hq hp hat.1 hat.2, hr] at hk
    exact (Option.some.inj hk).symm
  · rw [hcuts]
    exact ⟨fun m y hy => h.basis.settled m y (of_lessSlab hy).2, fun m y hy => h.basis.provisional m y (of_lessSlab hy).2⟩
  · rw [hcuts]
    exact h.pieces.of_agree (fun q hq => hagree q (mem_of_cutsOf hq))

/-! ## UNPLACE and JOB CLOSE (R34, R35) -/

theorem lawsOf_freePlacement (hl : PlacementsLegal s.placements) (h : LawsOf s) (hp : p ∈ s.placements) (hst : p.state = .planned)
    (hk : p.kind ≠ .remnant) : LawsOf (s.freePlacement p.slab p.index) := by
  rw [freePlacement_eq]
  refine h.filter (fun q hq hno => ?_)
  obtain rfl : q = p := by
    have hat := of_decide_eq_false hno
    rw [not_not] at hat
    exact placement_unique hl hq hp hat.1 hat.2
  refine ⟨hk, fun hcut => ?_⟩
  rw [hst] at hcut
  cases hcut.2

theorem lawsOf_removePiece (hl : PlacementsLegal s.placements) (h : LawsOf s) (hp : p ∈ s.placements) (hst : p.state = .planned)
    (hk : p.kind.isPiece = true) : LawsOf (s.removePiece p.slab p.index).2 := by
  rw [removePiece_eq hl]
  exact h.pass (passes_afterRemoval hl hp hk hst)

theorem lawsOf_removePlacement (hl : PlacementsLegal s.placements) (h : LawsOf s) (hp : p ∈ s.placements) (hst : p.state = .planned) :
    LawsOf (s.removePlacement p).2 := by
  unfold State.removePlacement
  split
  next hk => exact lawsOf_removePiece hl h hp hst (by rw [hk]; rfl)
  next hk => exact lawsOf_removePiece hl h hp hst (by rw [hk]; rfl)
  next hk => exact lawsOf_freePlacement hl h hp hst (by rw [hk]; nofun)
  next hk =>
    split
    next hn => exact absurd hn ((h.plans.record p hp).1 hk)
    next n hr =>
      unfold LawsOf
      rw [slab?_lessSlab, freePlacement_eq]
      exact h.unreserve hl hp hst hr

/-! ## ADD DEFECT (R9, R10) -/

theorem met_planned (hl : PlacementsLegal s.placements) (ho : s.orderedConflict a r = none) (hc : s.committedConflict a r = none)
    (hp : p ∈ s.placements) (hm : Met a r p) :
    p.state = .planned ∧ ∀ c ∈ s.placements, CutoutOf a p.index c → c.state = .planned := by
  obtain ⟨hslab, hk, hmet⟩ := hm
  have hst : p.state = .planned := by
    rw [orderedConflict_eq] at ho
    by_contra hne
    have := lowest_free hl ho hp hslab
    exact of_decide_eq_false this ⟨hk, hne, hmet⟩
  refine ⟨hst, fun c hcm hcut => ?_⟩
  by_contra hne
  have hfree := lowest_free hl hc hp hslab
  rw [hmet, Bool.and_true] at hfree
  have hyes : s.committed p = true := committed_iff.2 ⟨hk, hst, c, hcm, hslab.symm ▸ hcut, hne⟩
  rw [hfree] at hyes
  cases hyes

/-- A defect clear of the pieces on its slab. -/
theorem fitLaw_defect (h : FitLaw P S) (hclear : ∀ p ∈ P, p.slab = n → p.kind.isPiece = true → p.meetsRect r = false) :
    FitLaw P (changed S n (fun z => { z with defects := z.defects ++ [r] })) := by
  refine ⟨h.apart, fun p hp k hk y hy => ?_⟩
  rcases changed_cases hy with ⟨hn, x, hx, rfl⟩ | ⟨-, hy⟩
  · obtain ⟨hX, hY, hd⟩ := h.within p hp k hk x (hn ▸ hx)
    refine ⟨hX, hY, fun hpiece d hmem => ?_⟩
    rcases List.mem_append.1 hmem with hmem | hmem
    · exact hd hpiece d hmem
    · obtain rfl := List.mem_singleton.1 hmem
      have hfree := hclear p hp hn hpiece
      rw [meetsRect_eq] at hfree
      simpa only [hk, Option.any_some] using hfree
  · exact h.within p hp k hk y hy

theorem BasisLaw.changed {f : Slab → Slab} (h : BasisLaw C S) (hf : ∀ x, S n = some x → (f x).state = x.state ∧ (f x).basis = x.basis
    ∧ (f x).allocated = x.allocated ∧ (f x).length = x.length ∧ (f x).width = x.width) : BasisLaw C (changed S n f) := by
  refine ⟨fun m y hy hs => ?_, fun m y hy hs => ?_⟩
  · rcases changed_cases hy with ⟨rfl, x, hx, rfl⟩ | ⟨-, hy⟩
    · obtain ⟨hst, hb, ha, -⟩ := hf x hx
      rw [ha, hb]
      exact h.settled m x hx (hst ▸ hs)
    · exact h.settled m y hy hs
  · rcases changed_cases hy with ⟨rfl, x, hx, rfl⟩ | ⟨-, hy⟩
    · obtain ⟨hst, hb, ha, hX, hY⟩ := hf x hx
      rw [ha, basisShares_congr hb hX hY]
      exact h.provisional m x hx (hst ▸ hs)
    · exact h.provisional m y hy hs

theorem lawsOf_defect (hl : PlacementsLegal s.placements) (h : LawsOf s) (ho : s.orderedConflict a r = none)
    (hc : s.committedConflict a r = none) :
    LawsOf ((List.range maxPerSlab).foldl (dropMet a r) (0, s.modifySlab a (fun z => { z with defects := z.defects ++ [r] }))).2 := by
  have hplanned : ∀ p ∈ s.placements, Met a r p → p.state = .planned
      ∧ ∀ c ∈ s.placements, CutoutOf a p.index c → c.state = .planned := fun p hp hm => met_planned hl ho hc hp hm
  have hrun : (List.range maxPerSlab).foldl (dropMet a r) (0, s.modifySlab a (fun z => { z with defects := z.defects ++ [r] }))
      = defectProgress s (s.modifySlab a (fun z => { z with defects := z.defects ++ [r] })) a r 12 := by
    rw [← defectProgress_zero (s := s) (slab := a) (r := r) (v := s.modifySlab a (fun z => { z with defects := z.defects ++ [r] })) rfl]
    exact foldl_dropMet hl hplanned _ 12
  have hS : (defectProgress s (s.modifySlab a (fun z => { z with defects := z.defects ++ [r] })) a r 12).2.slab?
      = changed s.slab? a (fun z => { z with defects := z.defects ++ [r] }) :=
    slab?_changed (f := fun z => { z with defects := z.defects ++ [r] }) (fun _ => rfl)
  have hpool : (defectProgress s (s.modifySlab a (fun z => { z with defects := z.defects ++ [r] })) a r 12).2.placements
      = s.placements.filter (fun p => decide (¬ Met a r p ∧ ¬ ∃ q ∈ s.placements, Met a r q ∧ CutoutOf a q.index p)) := poolBelow_all hl
  have hleft := h.filter (c := fun p => decide (¬ Met a r p ∧ ¬ ∃ q ∈ s.placements, Met a r q ∧ CutoutOf a q.index p)) (fun q hq hno => by
    have hgone := of_decide_eq_false hno
    rw [not_and_or, not_not, not_not] at hgone
    rcases hgone with hm | ⟨p, -, -, hcut⟩
    · refine ⟨fun e => ?_, fun hcut => ?_⟩
      · have := hm.2.1
        rw [e] at this
        cases this
      · rw [(hplanned q hq hm).1] at hcut
        cases hcut.2
    · refine ⟨fun e => ?_, fun hpc => ?_⟩
      · rw [hcut.2.1] at e
        cases e
      · rw [hcut.2.1] at hpc
        cases hpc.1)
  have hstand : ∀ y, s.slab? a = some y → SameStanding y { y with defects := y.defects ++ [r] } := fun _ _ => ⟨rfl, Iff.rfl, id⟩
  rw [hrun]
  unfold LawsOf
  rw [hS, hpool]
  refine ⟨hleft.plans.changed hstand, hleft.beds.changed (fun y hy => ⟨rfl, h.beds.posed a y hy⟩), hleft.remnants.changed hstand,
    fitLaw_defect hleft.fit (fun p hp hslab hk => ?_), hleft.basis.changed (fun _ _ => ⟨rfl, rfl, rfl, rfl, rfl⟩), hleft.pieces.changed hstand⟩
  obtain ⟨-, hno⟩ := List.mem_filter.1 hp
  by_contra hmet
  exact (of_decide_eq_true hno).1 ⟨hslab, hk, Bool.not_eq_false _ ▸ hmet⟩

end

end Sys2Proof.Proofs
end

