-- ==== Sys2Proof/Proofs/LawsOfOrders.lean ====
section
/-! SUPPORT. The laws are kept where orders are admitted and taken back, and where jobs come and go. -/

namespace Sys2Proof.Proofs

open Sys2Proof Sys2Proof.Config Sys2Proof.Machine

section
variable {s t u : State} {P Q C D : List Placement} {S S' : Stock} {B B' : Nat → Nat → Prop} {O O' : List CutOrder} {J J' : List Job}
  {x y z : Slab} {p q : Placement} {n a b m i : Nat} {o : CutOrder}

/-! ## Jobs -/

/-- What the laws read of a job. -/
def debtOf (j : Job) : Nat × Nat × JobState := (j.id, j.unsettled, j.state)

theorem PiecesLaw.of_debts (h : PiecesLaw C S J) (hJ : J'.map debtOf = J.map debtOf) : PiecesLaw C S J' := by
  have hback {j : Job} (hj : j ∈ J') : ∃ k ∈ J, k.id = j.id ∧ k.unsettled = j.unsettled ∧ k.state = j.state := by
    have hmem : debtOf j ∈ J.map debtOf := hJ ▸ List.mem_map_of_mem hj
    obtain ⟨k, hk, heq⟩ := List.mem_map.1 hmem
    exact ⟨k, hk, (congrArg Prod.fst heq :), (congrArg (fun d => d.2.1) heq :), (congrArg (fun d => d.2.2) heq :)⟩
  refine ⟨fun j hj => ?_, fun j hj hc => ?_, fun p hp hu => ?_⟩
  · obtain ⟨k, hk, hid, hun, -⟩ := hback hj
    rw [← hun, ← hid]
    exact h.counted k hk
  · obtain ⟨k, hk, -, hun, hst⟩ := hback hj
    exact hun ▸ h.closed k hk (hst.trans hc)
  · obtain ⟨k, hk, hjob⟩ := h.payers p hp hu
    have hmem : debtOf k ∈ J'.map debtOf := hJ ▸ List.mem_map_of_mem hk
    obtain ⟨j, hj, heq⟩ := List.mem_map.1 hmem
    have hid : j.id = k.id := (congrArg Prod.fst heq :)
    exact ⟨j, hj, hid.symm ▸ hjob⟩

theorem debts_jobsLowered (job : Option Nat) (l : List Job) : (jobsLowered job l).map debtOf = l.map debtOf := by
  unfold jobsLowered
  rw [List.map_map]
  refine List.map_congr_left (fun j _ => ?_)
  rw [Function.comp_apply]
  split <;> rfl

/-- A job without CUT pieces on unsettled slabs. -/
theorem no_pieces (h : PiecesLaw C S J) (hn : ∀ j ∈ J, j.id = n → j.unsettled = 0) :
    C.countP (fun p => (S p.slab).any (fun x => !x.state.isSettled) && decide (p.job = some n)) = 0 := by
  by_contra hne
  obtain ⟨p, hp, hc⟩ := List.countP_pos_iff.1 (Nat.pos_of_ne_zero hne)
  rw [Bool.and_eq_true, any_unsettled] at hc
  obtain ⟨hu, hjob⟩ := hc
  obtain ⟨j, hj, hpj⟩ := h.payers p hp hu
  have hid : j.id = n := Option.some.inj (hpj.symm.trans (of_decide_eq_true hjob))
  have hzero := hn j hj hid
  rw [h.counted j hj, hid] at hzero
  exact hne hzero

theorem lawsOf_jobOpen (h : LawsOf s) (hn : s.job? n = none) : LawsOf (s.addJob (newJob n)) := by
  have hmem {j : Job} : j ∈ (s.addJob (newJob n)).jobs ↔ j = newJob n ∨ j ∈ s.jobs := mem_insertBy _ _ _ _
  refine ⟨h.plans, h.beds, h.remnants, h.fit, h.basis, fun j hj => ?_, fun j hj hc => ?_, fun p hp hu => ?_⟩
  · rcases hmem.1 hj with rfl | hj
    · refine (no_pieces h.pieces (fun k hk hid => ?_)).symm
      exact absurd (decide_eq_true hid) (List.find?_eq_none.1 hn k hk)
    · exact h.pieces.counted j hj
  · rcases hmem.1 hj with rfl | hj
    · cases hc
    · exact h.pieces.closed j hj hc
  · obtain ⟨j, hj, hjob⟩ := h.pieces.payers p hp hu
    exact ⟨j, hmem.2 (.inr hj), hjob⟩

theorem lawsOf_takeBill {rest : List Nat} (hb : s.Bounded) (h : LawsOf s) (hbills : s.bills = b :: rest) :
    LawsOf (({ s with bills := rest } : State).freeJob b) := by
  have hmem {j : Job} : j ∈ (({ s with bills := rest } : State).freeJob b).jobs ↔ j ∈ s.jobs ∧ j.id ≠ b := mem_eraseBy _
  obtain ⟨k, hk, hkid, hclosed⟩ := hb.jobs.2.2.2.2.1 b (by rw [hbills]; exact List.mem_cons_self)
  have hnone := no_pieces (n := b) h.pieces (fun j hj hid => by
    obtain rfl : j = k := rising_unique Job.id hb.jobs.1 hj hk (hid.trans hkid.symm)
    exact h.pieces.closed j hj hclosed)
  refine ⟨h.plans, h.beds, h.remnants, h.fit, h.basis, fun j hj => h.pieces.counted j (hmem.1 hj).1,
    fun j hj => h.pieces.closed j (hmem.1 hj).1, fun p hp hu => ?_⟩
  obtain ⟨j, hj, hjob⟩ := h.pieces.payers p hp hu
  refine ⟨j, hmem.2 ⟨hj, fun hid => ?_⟩, hjob⟩
  refine List.countP_eq_zero.1 hnone p hp ?_
  rw [Bool.and_eq_true, any_unsettled]
  exact ⟨hu, decide_eq_true (hid ▸ hjob)⟩

/-! ## Beds under a change of the saws -/

theorem bedded_mapSaw {f : Saw → Saw} (hf : ∀ w, (f w).bed = w.bed)
    (ht : t.stations = (s.modifySaw a f).stations) (c m : Nat) : Bedded t c m ↔ Bedded s c m := by
  have hmap : t.stations = s.stations.map (fun st => if st.address = a then st.mapSaw f else st) := ht
  constructor
  · rintro ⟨y, hy, hc, w, hw, hbed⟩
    rw [hmap] at hy
    obtain ⟨st, hst, rfl⟩ := List.mem_map.1 hy
    split at hw
    · rename_i ha
      rw [if_pos ha] at hc
      obtain ⟨v, hv, rfl⟩ := Option.map_eq_some_iff.1 hw
      exact ⟨st, hst, hc, v, hv, (hf v).symm.trans hbed⟩
    · rename_i ha
      rw [if_neg ha] at hc
      exact ⟨st, hst, hc, w, hw, hbed⟩
  · rintro ⟨st, hst, hc, w, hw, hbed⟩
    by_cases ha : st.address = a
    · refine ⟨st.mapSaw f, hmap ▸ List.mem_map.2 ⟨st, hst, if_pos ha⟩, hc, f w, ?_, (hf w).trans hbed⟩
      exact Option.map_eq_some_iff.2 ⟨w, hw, rfl⟩
    · exact ⟨st, hmap ▸ List.mem_map.2 ⟨st, hst, if_neg ha⟩, hc, w, hw, hbed⟩

theorem removeOrder_bed (o : CutOrder) (w : Saw) : (Saw.removeOrder o w).bed = w.bed := by
  rw [removeOrder_eq]

/-! ## Orders taken back (R36) -/

/-- The placement an order names is ORDERED. -/
theorem ordered_of_order (hb : s.Bounded) (h : s.Orderly) (ho : o ∈ s.orders) (hq : q ∈ s.placements) (hs : q.slab = o.slab)
    (hi : q.index = o.index) : q.state = .ordered := by
  obtain ⟨-, hbooks⟩ := orderly_iff.1 h
  obtain ⟨p, hp, hps, hpi, hst⟩ := (hbooks.placed o.slab o.index).2 ⟨o, ho, rfl, rfl⟩
  rw [placement_unique hb.placements hq hp (hs.trans hps.symm) (hi.trans hpi.symm)]
  exact hst

theorem passes_returned (hst : ∀ q ∈ P, q.slab = n → q.index = i → q.state ≠ .cut) :
    Passes P (fun q => if n = q.slab ∧ i = q.index then returned q else some q) := by
  refine ⟨fun q hq r hr => ?_, fun q _ hnone => ?_, fun q hq _ hqst => ?_⟩
  · split at hr
    · rename_i hat
      obtain ⟨-, rfl⟩ := returned_some hr
      exact ⟨⟨rfl, rfl, rfl, rfl, rfl, rfl⟩, ⟨nofun, fun e => absurd e (hst q hq hat.1.symm hat.2.symm)⟩⟩
    · cases hr
      exact .refl _
  · split at hnone
    · unfold returned at hnone
      split at hnone
      · rename_i hcut
        rw [hcut.1]
        nofun
      · cases hnone
    · cases hnone
  · exact if_neg (fun hat => hst q hq hat.1.symm hat.2.symm hqst)

theorem lawsOf_takeBack (hb : s.Bounded) (ho : s.Orderly) (h : LawsOf s) (hmem : o ∈ s.orders) : LawsOf (s.shedOrder o) := by
  have hS : (s.shedOrder o).slab? = s.slab? := funext (fun n => congrArg (findBy Slab.id n) (shedOrder_slabs o s))
  have hpool : (s.shedOrder o).placements = s.placements.filterMap (fun q =>
      if o.slab = q.slab ∧ o.index = q.index then returned q else some q) := by
    rw [shedOrder_placements, returnPlacement_filterMap hb.placements]
  have hpass := h.pass (passes_returned (n := o.slab) (i := o.index) (fun q hq hs hi => by
    rw [ordered_of_order hb ho hmem hq hs hi]
    nofun))
  unfold LawsOf
  rw [hS, hpool, shedOrder_jobs]
  refine ⟨hpass.plans.of_orders (fun y hy => ⟨y, ((mem_orders_shedOrder ho hmem).1 hy).1, rfl⟩),
    hpass.beds.of_beds (bedded_mapSaw (removeOrder_bed o) (shedOrder_stations o s)), hpass.remnants, hpass.fit, hpass.basis,
    hpass.pieces.of_debts (debts_jobsLowered _ _)⟩

/-! ## Orders admitted (R68) -/

theorem passes_ordered (hst : ∀ q ∈ P, q.slab = n → q.index = i → q.state ≠ .cut) :
    Passes P (fun q => some (if q.slab = n ∧ q.index = i then { q with state := .ordered } else q)) := by
  refine ⟨fun q hq r hr => ?_, fun q _ hnone => (nomatch hnone), fun q hq _ hqst => ?_⟩
  · cases hr
    split
    · rename_i hat
      exact ⟨⟨rfl, rfl, rfl, rfl, rfl, rfl⟩, ⟨nofun, fun e => absurd e (hst q hq hat.1 hat.2)⟩⟩
    · exact .refl _
  · exact congrArg some (if_neg (fun hat => hst q hq hat.1 hat.2 hqst))

/-- An order of a placement's kind and job. -/
theorem PlansLaw.with_order (hl : PlacementsLegal P) (h : PlansLaw P S O) (hp : p ∈ P) (hs : o.slab = p.slab) (hi : o.index = p.index)
    (hk : o.kind = p.kind) (hj : o.job = p.job) (hO : ∀ y ∈ O', y = o ∨ y ∈ O) : PlansLaw P S O' := by
  refine ⟨h.home, h.record, h.jobless, fun y hy q hq hqs hqi => ?_⟩
  rcases hO y hy with rfl | hy
  · rw [placement_unique hl hq hp (hqs.trans hs) (hqi.trans hi)]
    exact ⟨hk.symm, hj.symm⟩
  · exact h.matched y hy q hq hqs hqi

theorem orders_admitOrder {dst f : Nat} {w : Saw} (hb : s.Bounded) (hw : s.saw? dst = some w) :
    ∀ y ∈ (s.admitOrder p dst f).orders, y = newOrder p dst f (advance32 s.admissionCounter) ∨ y ∈ s.orders := by
  obtain ⟨-, hst, -, -⟩ := admitOrder_tables p dst f s
  obtain ⟨st₀, hst₀, -⟩ := Option.bind_eq_some_iff.1 hw
  obtain ⟨hmem₀, haddr₀⟩ := findBy_some _ hst₀
  have hperm : (s.admitOrder p dst f).orders.Perm (newOrder p dst f (advance32 s.admissionCounter) :: s.orders) := by
    rw [orders_eq, orders_eq, hst]
    exact perm_queued hb.stations.1 ⟨st₀, hmem₀, haddr₀⟩
      (fun st hst ha => queueOf_queued st (queueOf_of_saw hb hw hst ha).1 _)
  exact fun y hy => List.mem_cons.1 (hperm.mem_iff.1 hy)

theorem lawsOf_admitted {dst slab index : Nat} {job : Option Nat} {w : Saw} (f : Nat) (hb : s.Bounded) (hb' : (s.admitOrder p dst f).Bounded)
    (h : LawsOf s) (hc : admissionCheck s dst job slab index = none) (hp : s.placement? slab index = some p)
    (hw : s.saw? dst = some w) : LawsOf (s.admitOrder p dst f) := by
  obtain ⟨-, -, -, hplanned, -, -⟩ := admissionCheck_spec hc hp
  obtain ⟨hmem, rfl, rfl⟩ := mem_of_placement? hp
  obtain ⟨hslabs, hst, hpool, hjobs⟩ := admitOrder_tables p dst f s
  have hS : (s.admitOrder p dst f).slab? = s.slab? := funext (fun n => congrArg (findBy Slab.id n) hslabs)
  have hnot : ∀ q ∈ s.placements, q.slab = p.slab → q.index = p.index → q.state ≠ .cut := by
    intro q hq hs hi
    rw [placement_unique hb.placements hq hmem hs hi, hplanned]
    nofun
  have hpass := h.pass (passes_ordered hnot)
  rw [List.filterMap_eq_map'] at hpass
  have hdebts : (s.admitOrder p dst f).jobs.map debtOf = s.jobs.map debtOf := by
    rw [hjobs, List.map_map]
    refine List.map_congr_left (fun j _ => ?_)
    rw [Function.comp_apply]
    split <;> rfl
  have hthere : ({ p with state := .ordered } : Placement) ∈ (s.admitOrder p dst f).placements := by
    rw [hpool]
    exact List.mem_map.2 ⟨p, hmem, if_pos ⟨rfl, rfl⟩⟩
  unfold LawsOf
  rw [hS]
  rw [← hpool] at hpass
  exact ⟨hpass.plans.with_order hb'.placements hthere rfl rfl rfl rfl (orders_admitOrder hb hw),
    hpass.beds.of_beds (bedded_mapSaw
      (f := fun w => { w with queue := w.queue ++ [newOrder p dst f (advance32 s.admissionCounter)] }) (fun _ => rfl) hst), hpass.remnants, hpass.fit, hpass.basis, hpass.pieces.of_debts hdebts⟩

/-! ## The reset -/

theorem lawsOf_plainReset (s : State) (n : Nat) (r : ResetReport) : LawsOf (s.plainReset n r) := by
  have hS (m : Nat) : (s.plainReset n r).slab? m = none := rfl
  refine ⟨⟨fun _ h => absurd h List.not_mem_nil, fun _ h => absurd h List.not_mem_nil, fun _ h => absurd h List.not_mem_nil,
      fun _ h => absurd h List.not_mem_nil⟩, ⟨⟨fun m x hx => ?_, fun a m hb => ?_⟩, fun m x hx => ?_⟩,
    ⟨fun _ h => absurd h List.not_mem_nil, fun _ h => absurd h List.not_mem_nil, fun m z hz => ?_⟩,
    ⟨fun _ h => absurd h List.not_mem_nil, fun _ h => absurd h List.not_mem_nil⟩, ⟨fun m x hx => ?_, fun m x hx => ?_⟩,
    ⟨fun _ h => absurd h List.not_mem_nil, fun _ h => absurd h List.not_mem_nil, fun _ h => absurd h List.not_mem_nil⟩⟩
  · exact nomatch (hS m).symm.trans hx
  · obtain ⟨st, hst, -⟩ := hb
    exact absurd hst List.not_mem_nil
  · exact nomatch (hS m).symm.trans hx
  · exact nomatch (hS m).symm.trans hz
  · exact nomatch (hS m).symm.trans hx
  · exact nomatch (hS m).symm.trans hx

end

end Sys2Proof.Proofs
end

