-- ==== Sys2Proof/Proofs/LawsOfCuts.lean ====
section
/-! SUPPORT. The laws are kept where an order is DONE: a placement more is CUT, charged and counted. -/

namespace Sys2Proof.Proofs

open Sys2Proof Sys2Proof.Config Sys2Proof.Machine

section
variable {s t u : State} {P Q C D : List Placement} {S S' : Stock} {B B' : Nat → Nat → Prop} {O O' : List CutOrder} {J J' : List Job}
  {x y z : Slab} {p q : Placement} {n a b m i : Nat} {o : CutOrder} {f : Slab → Slab}

/-! ## The CUT pieces, in any order -/

theorem BasisLaw.perm (h : BasisLaw C S) (hD : D.Perm C) : BasisLaw D S := by
  refine ⟨h.settled, fun n x hx hs => (h.provisional n x hx hs).trans ?_⟩
  exact (((hD.filter _).map _).sum_eq).symm

theorem PiecesLaw.perm (h : PiecesLaw C S J) (hD : D.Perm C) : PiecesLaw D S J :=
  ⟨fun j hj => (h.counted j hj).trans (hD.countP_eq _).symm, h.closed, fun p hp hu => h.payers p (hD.mem_iff.1 hp) hu⟩

/-- What the charge of a CUT piece does to its record: its share is allocated. -/
structure Allocates (k : Nat) (x y : Slab) : Prop where
  state : y.state = x.state
  length : y.length = x.length
  width : y.width = x.width
  basis : y.basis = x.basis
  allocated : y.allocated = x.allocated + k

/-- A CUT piece more, its share allocated. -/
theorem basisLaw_cut (h : BasisLaw C S) (hx : S p.slab = some x) (hs : x.state.isSettled = false)
    (hf : ∀ x, S p.slab = some x → Allocates (basisShare x p) x (f x)) : BasisLaw (p :: C) (changed S p.slab f) := by
  refine ⟨fun m y hy hset => ?_, fun m y hy hset => ?_⟩
  · rcases changed_cases hy with ⟨rfl, z, hz, rfl⟩ | ⟨-, hy⟩
    · obtain rfl : x = z := Option.some.inj (hx.symm.trans hz)
      rw [(hf x hx).state, hs] at hset
      cases hset
    · exact h.settled m y hy hset
  · rcases changed_cases hy with ⟨rfl, z, hz, rfl⟩ | ⟨hne, hy⟩
    · have hz' := hf z hz
      rw [hz'.allocated, basisShares_congr hz'.basis hz'.length hz'.width, piecesOn, List.filter_cons_of_pos (by simp),
        h.provisional _ z hz (hz'.state ▸ hset), Nat.add_comm]
      rfl
    · rw [piecesOn, List.filter_cons_of_neg (by simpa using fun e => hne e.symm)]
      exact h.provisional m y hy hset

/-- A CUT piece more, counted for its job. -/
theorem PiecesLaw.cut (h : PiecesLaw C S J) (hu : Unsettled S p.slab) (hp : ∃ j ∈ J, p.job = some j.id)
    (hJ : J'.map debtOf = (J.map debtOf).map (fun d => if p.job = some d.1 then (d.1, d.2.1 + 1, d.2.2) else d))
    (hc : ∀ j ∈ J, p.job = some j.id → j.state ≠ .closed) : PiecesLaw (p :: C) S J' := by
  have hback {j : Job} (hj : j ∈ J') : ∃ k ∈ J, k.id = j.id ∧ k.state = j.state
      ∧ j.unsettled = k.unsettled + (if p.job = some k.id then 1 else 0) := by
    have hmem : debtOf j ∈ J'.map debtOf := List.mem_map_of_mem hj
    rw [hJ] at hmem
    obtain ⟨d, hd, heq⟩ := List.mem_map.1 hmem
    obtain ⟨k, hk, rfl⟩ := List.mem_map.1 hd
    refine ⟨k, hk, ?_⟩
    by_cases hpk : p.job = some (debtOf k).1
    · rw [if_pos hpk] at heq
      rw [if_pos (show p.job = some k.id from hpk)]
      exact ⟨(congrArg Prod.fst heq :), (congrArg (fun d => d.2.2) heq :), ((congrArg (fun d => d.2.1) heq :)).symm⟩
    · rw [if_neg hpk] at heq
      rw [if_neg (show ¬ p.job = some k.id from hpk)]
      exact ⟨(congrArg Prod.fst heq :), (congrArg (fun d => d.2.2) heq :), ((congrArg (fun d => d.2.1) heq :)).symm⟩
  have hforth {k : Job} (hk : k ∈ J) : ∃ j ∈ J', j.id = k.id := by
    have hmem : (if p.job = some (debtOf k).1 then ((debtOf k).1, (debtOf k).2.1 + 1, (debtOf k).2.2) else debtOf k)
        ∈ J'.map debtOf := by
      rw [hJ]
      exact List.mem_map_of_mem (List.mem_map_of_mem hk)
    obtain ⟨j, hj, heq⟩ := List.mem_map.1 hmem
    refine ⟨j, hj, (congrArg Prod.fst heq).trans ?_⟩
    split <;> rfl
  refine ⟨fun j hj => ?_, fun j hj hclosed => ?_, fun q hq hqu => ?_⟩
  · obtain ⟨k, hk, hid, -, hun⟩ := hback hj
    rw [hun, h.counted k hk, List.countP_cons, any_unsettled.2 hu, Bool.true_and, ← hid]
    by_cases hpk : p.job = some k.id
    · simp [hpk]
    · simp [hpk]
  · obtain ⟨k, hk, -, hst, hun⟩ := hback hj
    have hopen : ¬ p.job = some k.id := fun e => hc k hk e (hst.trans hclosed)
    rw [hun, if_neg hopen, h.closed k hk (hst.trans hclosed)]
  · have hjob : ∃ k ∈ J, q.job = some k.id := by
      rcases List.mem_cons.1 hq with rfl | hq
      · exact hp
      · exact h.payers q hq hqu
    obtain ⟨k, hk, hqk⟩ := hjob
    obtain ⟨j, hj, hid⟩ := hforth hk
    exact ⟨j, hj, hid.symm ▸ hqk⟩

/-! ## The pool with a placement CUT -/

/-- A placement CUT. -/
def cutOf (p : Placement) : Placement := { p with state := .cut }

/-- The pool with the placement at an index CUT. -/
abbrev cutting (P : List Placement) (slab index : Nat) : List Placement :=
  P.map (fun p => if p.slab = slab ∧ p.index = index then cutOf p else p)

theorem cutsOf_cutting (hl : PlacementsLegal P) (hp : p ∈ P) (hst : p.state ≠ .cut) :
    (cutsOf (cutting P p.slab p.index)).Perm (if p.kind.isPiece = true then cutOf p :: cutsOf P else cutsOf P) := by
  obtain ⟨l, r, rfl⟩ := List.append_of_mem hp
  have hapart := placements_apart hl
  rw [List.pairwise_append] at hapart
  obtain ⟨-, hright, hleft⟩ := hapart
  obtain ⟨hright, -⟩ := List.pairwise_cons.1 hright
  have hsame : ∀ m : List Placement, (∀ q ∈ m, ¬ (q.slab = p.slab ∧ q.index = p.index)) → cutting m p.slab p.index = m :=
    fun m hm => (List.map_congr_left (fun q hq => if_neg (hm q hq))).trans (List.map_id m)
  have hl' : cutting l p.slab p.index = l := hsame l (fun q hq => hleft q hq p List.mem_cons_self)
  have hr' : cutting r p.slab p.index = r := hsame r (fun q hq e => hright q hq ⟨e.1.symm, e.2.symm⟩)
  have hmid : cutting (l ++ p :: r) p.slab p.index = l ++ cutOf p :: r := by
    show List.map _ (l ++ p :: r) = _
    rw [List.map_append, List.map_cons, if_pos ⟨rfl, rfl⟩]
    exact congrArg₂ (fun a b => a ++ cutOf p :: b) hl' hr'
  have hold : cutsOf (l ++ p :: r) = cutsOf l ++ cutsOf r := by
    unfold cutsOf
    rw [List.filter_append, List.filter_cons_of_neg (by simp [hst])]
  rw [hmid, hold]
  unfold cutsOf
  rw [List.filter_append, List.filter_cons]
  split
  · rename_i hk
    have hpiece : p.kind.isPiece = true := (of_decide_eq_true hk).1
    rw [if_pos hpiece]
    exact List.perm_middle
  · rename_i hk
    have hpiece : ¬ p.kind.isPiece = true := fun e => hk (decide_eq_true ⟨e, rfl⟩)
    rw [if_neg hpiece]

theorem names_cutting (r : Placement) (hr : r ∈ cutting P n i) : ∃ q ∈ P, SameNames q r := by
  obtain ⟨q, hq, rfl⟩ := List.mem_map.1 hr
  refine ⟨q, hq, ?_⟩
  split
  · exact ⟨rfl, rfl, rfl, rfl, rfl, rfl⟩
  · exact .refl q

/-! ## DONE (R87, R88, R115) -/

/-- A record of which a placement was CUT. -/
def markCut (k : Nat) (x : Slab) : Slab := { x with allocated := x.allocated + k, cutMark := true }

theorem standing_markCut (k : Nat) (x : Slab) : SameStanding x (markCut k x) := ⟨rfl, Iff.rfl, fun _ => rfl⟩

/-- The plans with a placement CUT on its slab. -/
theorem plansLaw_cutting (h : PlansLaw P S O) (k : Nat) (hx : S n = some x) (hs : x.state.isSettled = false) :
    PlansLaw (cutting P n i) (changed S n (markCut k)) O := by
  have hch := h.changed (n := n) (f := markCut k) (fun x _ => standing_markCut k x)
  refine hch.of_names names_cutting (fun r hr => ?_)
  obtain ⟨q, hq, rfl⟩ := List.mem_map.1 hr
  obtain ⟨y, hy, hres, hset, hmark⟩ := hch.home q hq
  by_cases hat : q.slab = n ∧ q.index = i
  · rw [if_pos hat]
    have hfound := changed_found (f := markCut k) hx
    rw [hat.1, hfound] at hy
    cases hy
    refine ⟨markCut k x, hat.1.symm ▸ hfound, hres, fun e => ?_, fun _ => rfl⟩
    exact absurd (hs.symm.trans e) (by decide)
  · rw [if_neg hat]
    exact ⟨y, hy, hres, hset, hmark⟩

/-- The debts when an order is DONE. -/
theorem debts_of_books (h : J'.map jobBook = (J.map jobBook).map (doneBook o)) :
    J'.map debtOf = (J.map debtOf).map (fun d => if o.job = some d.1 then (d.1, d.2.1 + (if o.kind.isPiece then 1 else 0), d.2.2) else d) := by
  have hdebts := congrArg (List.map (fun b : Nat × Nat × Nat × JobState => (b.1, b.2.2.1, b.2.2.2))) h
  rw [List.map_map, List.map_map, List.map_map] at hdebts
  refine Eq.trans hdebts ?_
  rw [List.map_map]
  refine List.map_congr_left (fun j _ => ?_)
  by_cases hj : o.job = some j.id
  · simp [doneBook, jobBook, debtOf, hj]
  · simp [doneBook, jobBook, debtOf, hj]

theorem doneCents_of_piece (hl : PlacementsLegal s.placements) (h : PlansLaw s.placements s.slab? s.orders) (ho : o ∈ s.orders)
    (hp : p ∈ s.placements) (hs : p.slab = o.slab) (hi : p.index = o.index) (hx : s.slab? o.slab = some x) :
    doneCents s o = if p.kind.isPiece = true then basisShare x p else 0 := by
  obtain ⟨hk, hj⟩ := h.matched o ho p hp hs hi
  have hfound : s.placement? o.slab o.index = some p := (placement?_eq_some hl).2 ⟨hp, hs, hi⟩
  unfold doneCents
  by_cases hpiece : p.kind.isPiece = true
  · have hjob : o.job ≠ none := by
      intro e
      rw [(h.jobless p hp).2 (hj.trans e)] at hpiece
      cases hpiece
    rw [if_neg hjob, if_pos hpiece, materialOf_piece (hk ▸ hpiece) hx hfound]
    rfl
  · have hzero : s.materialOf o .done = 0 := if_neg (fun e => hpiece (hk.symm ▸ e.1))
    rw [hzero, if_neg hpiece, ite_self]

theorem lawsOf_done (hb : s.Bounded) (ho : s.Orderly) (h : LawsOf s) (hmem : o ∈ s.orders) (c : Cause) (w : SawConfig) (n : Nat) :
    LawsOf (cutDone c w o n s) := by
  obtain ⟨hst, hpool, hslabs, hjobs⟩ := cutDone_tables c w o n s
  obtain ⟨-, hbooks⟩ := orderly_iff.1 ho
  obtain ⟨p, hp, hps, hpi, hpst⟩ := (hbooks.placed o.slab o.index).2 ⟨o, hmem, rfl, rfl⟩
  obtain ⟨hk, hj⟩ := h.plans.matched o hmem p hp hps hpi
  obtain ⟨x, hx, -, hcut, -⟩ := h.plans.home p hp
  have hs : x.state.isSettled = false := by
    by_contra hne
    have := hcut (Bool.not_eq_false _ ▸ hne)
    rw [hpst] at this
    cases this
  have hS : (cutDone c w o n s).slab? = changed s.slab? o.slab (markCut (doneCents s o)) := by
    rw [← slab?_changed (s := s) (f := markCut (doneCents s o)) (fun _ => rfl)]
    exact funext (fun m => congrArg (findBy Slab.id m) hslabs)
  have hP : (cutDone c w o n s).placements = cutting s.placements p.slab p.index := by rw [hpool, hps, hpi]; rfl
  have hcents := doneCents_of_piece hb.placements h.plans hmem hp hps hpi (hps ▸ hx)
  have horders : ∀ y ∈ (cutDone c w o n s).orders, ∃ y₀ ∈ s.orders, identity y₀ = identity y := by
    rw [orders_removeOrder ho hmem hst]
    exact fun y hy => ⟨y, (List.mem_filter.1 hy).1, rfl⟩
  have hstand : ∀ y, s.slab? p.slab = some y → SameStanding y (markCut (doneCents s o) y) := fun y _ => standing_markCut _ y
  have hperm := cutsOf_cutting hb.placements hp (by rw [hpst]; nofun)
  have hun : Unsettled (changed s.slab? p.slab (markCut (doneCents s o))) p.slab := ⟨_, changed_found hx, hs⟩
  have hpieces := h.pieces.changed (n := p.slab) hstand
  unfold LawsOf
  rw [hS, hP, ← hps]
  refine ⟨(plansLaw_cutting h.plans _ hx hs).of_orders horders,
    (h.beds.changed (f := markCut (doneCents s o)) (fun y hy => ⟨rfl, h.beds.posed _ y hy⟩)).of_beds (bedded_mapSaw (removeOrder_bed o) hst),
    (h.remnants.changed hstand).of_names names_cutting (fun q hq _ => ⟨_, List.mem_map_of_mem hq, ?_⟩),
    (h.fit.changed (n := p.slab) (f := markCut (doneCents s o)) (fun _ _ => ⟨rfl, rfl, rfl⟩)).of_names names_cutting, ?_, ?_⟩
  · split
    · exact ⟨rfl, rfl, rfl, rfl, rfl, rfl⟩
    · exact .refl q
  · refine BasisLaw.perm ?_ hperm
    rw [hcents]
    split
    · rename_i hpiece
      refine basisLaw_cut (p := cutOf p) h.basis hx hs (fun y hy => ?_)
      obtain rfl : x = y := Option.some.inj (hx.symm.trans hy)
      exact ⟨rfl, rfl, rfl, rfl, rfl⟩
    · exact h.basis.changed (fun _ _ => ⟨rfl, rfl, rfl, rfl, rfl⟩)
  · refine PiecesLaw.perm ?_ hperm
    have hdebts := debts_of_books hjobs
    rw [← hk, ← hj] at hdebts
    split
    · rename_i hpiece
      rw [if_pos hpiece] at hdebts
      have hjob : p.job ≠ none := by
        intro e
        rw [(h.plans.jobless p hp).2 e] at hpiece
        cases hpiece
      obtain ⟨k, hk'⟩ := Option.ne_none_iff_exists'.1 hjob
      obtain ⟨j, hjm, hid⟩ := hbooks.named o hmem k (hj.symm.trans hk')
      refine PiecesLaw.cut (p := cutOf p) hpieces hun ⟨j, hjm, hk'.trans (congrArg some hid.symm)⟩ hdebts (fun i hi hji hc => ?_)
      have hzero := hbooks.closed i hi hc
      rw [hbooks.counted i hi] at hzero
      exact List.countP_eq_zero.1 hzero o hmem (decide_eq_true (hj.symm.trans hji))
    · rename_i hpiece
      rw [if_neg hpiece] at hdebts
      refine hpieces.of_debts (hdebts.trans ((List.map_congr_left (fun d _ => ?_)).trans (List.map_id _)))
      simp

end

end Sys2Proof.Proofs
end

