-- ==== Sys2Proof/Proofs/LawsOfSettling.lean ====
section
/-! SUPPORT. The laws are kept where a slab is settled (R123 to R132). -/

namespace Sys2Proof.Proofs

open Sys2Proof Sys2Proof.Config Sys2Proof.Machine

/-- A slab about to be settled in a state that keeps the laws: a stock slab without orders. -/
structure Settling (s : State) (x : Slab) : Prop where
  bounded : s.Bounded
  orderly : s.Orderly
  laws : LawsOf s
  found : s.slab? x.id = some x
  stock : x.state.isStock = true
  free : ∀ o ∈ s.orders, o.slab ≠ x.id

/-- A settled slab's record (R131). -/
def closedSlab (e : Ending) (x : Slab) : Slab := { x with allocated := x.basis, state := e.state }

/-- No placement of the slab names the record. -/
abbrev Unnamed (s : State) (slab n : Nat) : Prop := ∀ p ∈ s.placements, p.slab = slab → p.remnantSlab ≠ some n

section
variable {s t u : State} {P Q C D : List Placement} {S S' : Stock} {B B' : Nat → Nat → Prop} {O O' : List CutOrder} {J J' : List Job}
  {x y z : Slab} {p q : Placement} {n a b m i : Nat} {o : CutOrder} {e : Ending} {c : Cause}

theorem settled_ending (e : Ending) : e.state.isSettled = true := by cases e <;> rfl

/-! ## What is settled -/

theorem Settling.unsettled (h : Settling s x) : Unsettled s.slab? x.id := ⟨x, h.found, not_settled_of_stock h.stock⟩

theorem Settling.unordered (h : Settling s x) : ∀ p ∈ s.placements, p.slab = x.id → p.state ≠ .ordered := by
  intro p hp hs hst
  obtain ⟨-, hbooks⟩ := orderly_iff.1 h.orderly
  obtain ⟨o, ho, hslab, -⟩ := (hbooks.placed p.slab p.index).1 ⟨p, hp, rfl, rfl, hst⟩
  exact h.free o ho (hslab.trans hs)

/-- A record that a placement of the slab names is RESERVED. -/
theorem Settling.named (h : Settling s x) (hp : p ∈ s.placements) (hs : p.slab = x.id) (hr : p.remnantSlab = some n) :
    ∃ z, s.slab? n = some z ∧ z.state = .reserved := h.laws.remnants.reserves p hp n hr (hs.symm ▸ h.unsettled)

theorem Settling.own (h : Settling s x) : OwnRecords s x.id := by
  intro p hp hs _ r hr
  refine ⟨fun e => ?_, fun q hq hqs hqr => ?_⟩
  · obtain ⟨z, hz, hzr⟩ := h.named hp hs hr
    obtain rfl : x = z := Option.some.inj (h.found.symm.trans (e ▸ hz))
    exact ne_reserved_of_isStock h.stock hzr
  · obtain ⟨hslab, hindex⟩ := h.laws.remnants.alone p hp q hq r hr hqr (hs.symm ▸ h.unsettled) (hqs.symm ▸ h.unsettled)
    exact placement_unique h.bounded.placements hq hp hslab hindex

theorem Settling.settleable (h : Settling s x) : Settleable s x :=
  ⟨h.bounded.placements, h.found, h.unordered, recordsApart_of_own h.bounded.placements h.own⟩

/-- A record that is not RESERVED is not named. -/
theorem Settling.unnamed (h : Settling s x) (hz : s.slab? n = some z) (hst : z.state ≠ .reserved) : Unnamed s x.id n := by
  intro p hp hs hr
  obtain ⟨y, hy, hyr⟩ := h.named hp hs hr
  obtain rfl : z = y := Option.some.inj (hz.symm.trans hy)
  exact hst hyr

/-- The charges and the remnants' shares of the slab are within its basis (R115, R126). -/
theorem Settling.within (h : Settling s x) : x.allocated + basisShares x (cutRemnants s x.id) ≤ x.basis := by
  let T := s.placements.filter (fun p => decide (p.slab = x.id ∧ p.state = .cut
    ∧ (p.kind.isPiece = true ∨ p.kind = .remnant ∧ p.remnantSlab ≠ none)))
  have hpieces : T.filter (fun p => p.kind.isPiece) = piecesOn (cutsOf s.placements) x.id := by
    unfold T piecesOn cutsOf
    rw [List.filter_filter, List.filter_filter]
    refine List.filter_congr (fun p _ => ?_)
    rw [Bool.eq_iff_iff]
    simp only [Bool.and_eq_true, decide_eq_true_eq]
    tauto
  have hremnants : T.filter (fun p => !p.kind.isPiece) = cutRemnants s x.id := by
    unfold T cutRemnants
    rw [List.filter_filter]
    refine List.filter_congr (fun p _ => ?_)
    rw [Bool.eq_iff_iff]
    simp only [Bool.and_eq_true, decide_eq_true_eq, Bool.not_eq_true']
    constructor
    · rintro ⟨hno, hs, hcut, hk | ⟨hk, hr⟩⟩
      · rw [hk] at hno
        cases hno
      · exact ⟨hs, hk, hcut, hr⟩
    · rintro ⟨hs, hk, hcut, hr⟩
      exact ⟨by rw [hk]; rfl, hs, hcut, .inr ⟨hk, hr⟩⟩
  have hsum : basisShares x (piecesOn (cutsOf s.placements) x.id) + basisShares x (cutRemnants s x.id) = basisShares x T := by
    rw [← hpieces, ← hremnants]
    unfold basisShares
    rw [← List.sum_append, ← List.map_append]
    exact ((List.filter_append_perm _ T).map _).sum_eq
  rw [h.laws.basis.provisional x.id x h.found (not_settled_of_stock h.stock), hsum]
  refine basisShares_le h.bounded.placements h.laws.fit h.found List.filter_sublist (fun p hp => ?_)
  exact (of_decide_eq_true (List.mem_filter.1 hp).2).1

/-! ## The stock -/

theorem Settling.stays (h : Settling s x) : ¬ RecordFreed s x.id x := by
  rintro ⟨p, hp, hs, -, -, hr⟩
  exact h.unnamed h.found (ne_reserved_of_isStock h.stock) p hp hs hr

theorem Settling.slab_self (h : Settling s x) : (tablesSettled s e x).slab? x.id = some (closedSlab e x) := by
  rw [slab?_tablesSettled h.found h.stays, settledSlab_self h.within]
  rfl

theorem find_cutRemnants_none (hn : Unnamed s m n) :
    (cutRemnants s m).find? (fun p => decide (p.remnantSlab = some n)) = none := by
  refine List.find?_eq_none.2 (fun p hp hr => ?_)
  obtain ⟨hmem, hs, -⟩ := mem_cutRemnants.1 hp
  exact hn p hmem hs (of_decide_eq_true hr)

theorem Settling.slab_kept (hne : n ≠ x.id) (hz : s.slab? n = some z) (hn : Unnamed s x.id n) :
    (tablesSettled s e x).slab? n = some z := by
  obtain rfl : z.id = n := slab?_id hz
  have hfree : ¬ RecordFreed s x.id z := by
    rintro ⟨p, hp, hs, -, -, hr⟩
    exact hn p hp hs hr
  rw [slab?_tablesSettled hz hfree, settledSlab_other hne, entered_other hne (find_cutRemnants_none hn)]

/-- A record that enters stock (R126). -/
def receivedSlab (k : Nat) (z : Slab) : Slab := { z with basis := k, state := .received }

theorem Settling.slab_cases (h : Settling s x) (hy : (tablesSettled s e x).slab? n = some y) :
    (n = x.id ∧ y = closedSlab e x)
      ∨ (n ≠ x.id ∧ ∃ z k, s.slab? n = some z ∧ z.state = .reserved ∧ y = receivedSlab k z)
      ∨ (n ≠ x.id ∧ s.slab? n = some y ∧ Unnamed s x.id n) := by
  have hmap : (tablesSettled s e x).slab? n
      = (findBy Slab.id n (s.slabs.filter (fun z => decide (¬ RecordFreed s x.id z)))).map (settledSlab s e x) :=
    findBy_map (settledSlab_id s e x) n _
  rw [hmap] at hy
  obtain ⟨z, hz, rfl⟩ := Option.map_eq_some_iff.1 hy
  obtain ⟨hmem, rfl⟩ := findBy_some _ hz
  obtain ⟨hzs, hfree⟩ := List.mem_filter.1 hmem
  have hzfound := (mem_slabs_iff h.bounded).1 hzs
  by_cases hid : z.id = x.id
  · obtain rfl : x = z := Option.some.inj (h.found.symm.trans (hid ▸ hzfound))
    exact .inl ⟨rfl, settledSlab_self h.within⟩
  · rw [settledSlab_other hid]
    cases hfind : (cutRemnants s x.id).find? (fun p => decide (p.remnantSlab = some z.id)) with
    | some p =>
      obtain ⟨hp, hs, -⟩ := mem_cutRemnants.1 (List.mem_of_find?_eq_some hfind)
      have hr : p.remnantSlab = some z.id := of_decide_eq_true (List.find?_some hfind :)
      obtain ⟨z', hz', hzr⟩ := h.named hp hs hr
      obtain rfl : z = z' := Option.some.inj (hzfound.symm.trans hz')
      exact .inr (.inl ⟨hid, z, basisShare x p, hzfound, hzr, entered_found hid hfind⟩)
    | none =>
      refine .inr (.inr ⟨hid, ?_, fun p hp hs hr => ?_⟩)
      · rw [entered_other hid hfind]
        exact hzfound
      · have hk : p.kind = .remnant := (h.laws.plans.record p hp).2 (by rw [hr]; nofun)
        cases hst : p.state with
        | planned => exact of_decide_eq_true hfree ⟨p, hp, hs, hk, hst, hr⟩
        | ordered => exact h.unordered p hp hs hst
        | cut =>
          refine List.find?_eq_none.1 hfind p (mem_cutRemnants.2 ⟨hp, hs, hk, hst, by rw [hr]; nofun⟩) (decide_eq_true hr)

/-! ## The tables -/

theorem pool_settled (hp : p ∈ (tablesSettled s e x).placements) : p ∈ s.placements ∧ (p.slab = x.id → p.state = .cut) := by
  obtain ⟨hmem, hst⟩ := List.mem_filter.1 hp
  exact ⟨hmem, fun hs => (of_decide_eq_true hst hs).1⟩

theorem mem_pool_elsewhere (hp : p ∈ s.placements) (hs : p.slab ≠ x.id) : p ∈ (tablesSettled s e x).placements :=
  List.mem_filter.2 ⟨hp, decide_eq_true (fun e => absurd e hs)⟩

theorem cutsOf_settled : cutsOf (tablesSettled s e x).placements = cutsOf s.placements := by
  show cutsOf (s.placements.filter _) = _
  rw [cutsOf_filter]
  refine List.filter_eq_self.2 (fun p hp => decide_eq_true (fun _ => ?_))
  obtain ⟨hk, hst⟩ := of_decide_eq_true (List.mem_filter.1 hp).2
  refine ⟨hst, fun hcut => ?_⟩
  rw [hcut.1] at hk
  cases hk

section
variable (h : Settling s x)
include h

/-- The record of a placement elsewhere stays. -/
theorem Settling.elsewhere (hp : p ∈ s.placements) (hs : p.slab ≠ x.id) : (tablesSettled s e x).slab? p.slab = s.slab? p.slab := by
  obtain ⟨z, hz, hr, -⟩ := h.laws.plans.home p hp
  rw [hz]
  exact Settling.slab_kept hs hz (h.unnamed hz hr)

theorem Settling.unsettled_iff (hp : p ∈ s.placements) :
    Unsettled (tablesSettled s e x).slab? p.slab ↔ Unsettled s.slab? p.slab ∧ p.slab ≠ x.id := by
  by_cases hs : p.slab = x.id
  · refine ⟨?_, fun hu => absurd hs hu.2⟩
    rintro ⟨y, hy, hys⟩
    rw [hs, h.slab_self] at hy
    cases hy
    exact absurd ((settled_ending e).symm.trans hys) (by decide)
  · rw [unsettled_of_agree (h.elsewhere hp hs)]
    exact (and_iff_left hs).symm

theorem Settling.plans : PlansLaw (tablesSettled s e x).placements (tablesSettled s e x).slab? s.orders := by
  have hold := h.laws.plans.sub (Q := (tablesSettled s e x).placements) (fun p hp => (pool_settled hp).1)
  refine ⟨fun p hp => ?_, hold.record, hold.jobless, hold.matched⟩
  obtain ⟨hmem, hcut⟩ := pool_settled hp
  obtain ⟨z, hz, hr, hset, hmark⟩ := h.laws.plans.home p hmem
  by_cases hs : p.slab = x.id
  · refine ⟨closedSlab e x, hs.symm ▸ h.slab_self, ?_, fun _ => hcut hs, fun hst => ?_⟩
    · show e.state ≠ .reserved
      cases e <;> nofun
    · obtain rfl : x = z := Option.some.inj (h.found.symm.trans (hs ▸ hz))
      exact hmark hst
  · exact ⟨z, (h.elsewhere hmem hs).trans hz, hr, hset, hmark⟩

theorem Settling.beds : BedsLaw (tablesSettled s e x).slab? (Bedded s) := by
  refine ⟨⟨fun m y hy a ha => ?_, fun a m hb => ?_⟩, fun m y hy => ?_⟩
  · rcases h.slab_cases hy with ⟨rfl, rfl⟩ | ⟨-, z, k, hz, hzr, rfl⟩ | ⟨-, hy, -⟩
    · exact h.laws.beds.paired.onBed _ x h.found a ha
    · exact h.laws.beds.paired.onBed m z hz a ha
    · exact h.laws.beds.paired.onBed m y hy a ha
  · obtain ⟨z, hz, hbed⟩ := h.laws.beds.paired.bedOf a m hb
    by_cases hs : m = x.id
    · subst hs
      obtain rfl : x = z := Option.some.inj (h.found.symm.trans hz)
      exact ⟨closedSlab e x, h.slab_self, hbed⟩
    · refine ⟨z, Settling.slab_kept hs hz (h.unnamed hz (fun hr => ?_)), hbed⟩
      rw [((h.laws.beds.posed m z hz).2.2 (.inr hr)).1] at hbed
      cases hbed
  · rcases h.slab_cases hy with ⟨rfl, rfl⟩ | ⟨-, z, k, hz, hzr, rfl⟩ | ⟨-, hy, -⟩
    · exact posed_of_settled (settled_ending e)
    · exact ⟨nofun, nofun, fun _ => (h.laws.beds.posed m z hz).2.2 (.inr hzr)⟩
    · exact h.laws.beds.posed m y hy

theorem Settling.remnants : RemnantsLaw (tablesSettled s e x).placements (tablesSettled s e x).slab? := by
  refine ⟨fun p hp r hr hu => ?_, fun p hp q hq r hr hr' hu hu' => ?_, fun m z hz hst => ?_⟩
  · obtain ⟨hmem, -⟩ := pool_settled hp
    obtain ⟨hu, hs⟩ := (h.unsettled_iff hmem).1 hu
    obtain ⟨z, hz, hzr⟩ := h.laws.remnants.reserves p hmem r hr hu
    refine ⟨z, Settling.slab_kept (fun hrx => ?_) hz (fun q hq hqs hqr => hs ?_), hzr⟩
    · obtain rfl : x = z := Option.some.inj (h.found.symm.trans (hrx ▸ hz))
      exact ne_reserved_of_isStock h.stock hzr
    · exact (h.laws.remnants.alone q hq p hmem r hqr hr (hqs.symm ▸ h.unsettled) hu).1.trans hqs
  · obtain ⟨hmem, -⟩ := pool_settled hp
    obtain ⟨hmem', -⟩ := pool_settled hq
    exact h.laws.remnants.alone p hmem q hmem' r hr hr' ((h.unsettled_iff hmem).1 hu).1 ((h.unsettled_iff hmem').1 hu').1
  · rcases h.slab_cases hz with ⟨-, rfl⟩ | ⟨-, z, k, -, -, rfl⟩ | ⟨-, hz, hn⟩
    · have hset := settled_ending e
      rw [show e.state = .reserved from hst] at hset
      cases hset
    · cases hst
    · obtain ⟨p, hp, hr, hu⟩ := h.laws.remnants.named m z hz hst
      have hs : p.slab ≠ x.id := fun hs => hn p hp hs hr
      exact ⟨p, mem_pool_elsewhere hp hs, hr, (h.unsettled_iff hp).2 ⟨hu, hs⟩⟩

theorem Settling.fit : FitLaw (tablesSettled s e x).placements (tablesSettled s e x).slab? := by
  refine (h.laws.fit.sub (fun p hp => (pool_settled hp).1)).of_stock (fun p hp y hy => ?_)
  by_cases hs : p.slab = x.id
  · rw [hs] at hy ⊢
    rw [h.slab_self] at hy
    cases hy
    exact ⟨x, h.found, rfl, rfl, rfl⟩
  · exact ⟨y, (h.elsewhere (pool_settled hp).1 hs).symm.trans hy, rfl, rfl, rfl⟩

theorem Settling.basis : BasisLaw (cutsOf s.placements) (tablesSettled s e x).slab? := by
  refine ⟨fun m y hy hs => ?_, fun m y hy hs => ?_⟩
  · rcases h.slab_cases hy with ⟨-, rfl⟩ | ⟨-, z, k, -, -, rfl⟩ | ⟨-, hy, -⟩
    · rfl
    · cases hs
    · exact h.laws.basis.settled m y hy hs
  · rcases h.slab_cases hy with ⟨-, rfl⟩ | ⟨-, z, k, hz, hzr, rfl⟩ | ⟨-, hy, -⟩
    · exact absurd ((settled_ending e).symm.trans hs) (by decide)
    · have hnone : piecesOn (cutsOf s.placements) m = [] := by
        refine List.filter_eq_nil_iff.2 (fun p hp hslab => ?_)
        obtain ⟨z', hz', hr, -⟩ := h.laws.plans.home p (mem_of_cutsOf hp)
        rw [of_decide_eq_true hslab] at hz'
        obtain rfl : z = z' := Option.some.inj (hz.symm.trans hz')
        exact hr hzr
      have hzero := h.laws.basis.provisional m z hz (by rw [hzr]; rfl)
      rw [hnone] at hzero ⊢
      exact hzero
    · exact h.laws.basis.provisional m y hy hs

end

/-! ## The jobs -/

/-- The debts of jobs lowered by the CUT pieces of a slab. -/
def lowered (T : List Placement) (d : Nat × Nat × JobState) : Nat × Nat × JobState :=
  (d.1, d.2.1 - T.countP (fun p => decide (p.job = some d.1)), d.2.2)

/-- A slab less unsettled, its pieces no longer counted (R131). -/
theorem PiecesLaw.lowered (h : PiecesLaw C S J) (hn : Unsettled S n)
    (hu : ∀ p ∈ C, Unsettled S' p.slab ↔ Unsettled S p.slab ∧ p.slab ≠ n)
    (hJ : J'.map debtOf = (J.map debtOf).map (lowered (piecesOn C n))) : PiecesLaw C S' J' := by
  have hback {j : Job} (hj : j ∈ J') : ∃ k ∈ J, k.id = j.id ∧ k.state = j.state
      ∧ j.unsettled = k.unsettled - (piecesOn C n).countP (fun p => decide (p.job = some k.id)) := by
    have hmem : debtOf j ∈ J'.map debtOf := List.mem_map_of_mem hj
    rw [hJ] at hmem
    obtain ⟨d, hd, heq⟩ := List.mem_map.1 hmem
    obtain ⟨k, hk, rfl⟩ := List.mem_map.1 hd
    exact ⟨k, hk, (congrArg Prod.fst heq :), (congrArg (fun d => d.2.2) heq :), ((congrArg (fun d => d.2.1) heq :)).symm⟩
  refine ⟨fun j hj => ?_, fun j hj hc => ?_, fun p hp hpu => ?_⟩
  · obtain ⟨k, hk, hid, -, hun⟩ := hback hj
    have hsplit : C.countP (fun p => (S p.slab).any (fun x => !x.state.isSettled) && decide (p.job = some k.id))
        = C.countP (fun p => (S' p.slab).any (fun x => !x.state.isSettled) && decide (p.job = some k.id))
          + (piecesOn C n).countP (fun p => decide (p.job = some k.id)) := by
      unfold piecesOn
      rw [List.countP_filter]
      refine countP_split (fun p hp => ?_)
      have hiff := hu p hp
      rw [← any_unsettled, ← any_unsettled] at hiff
      by_cases hs : p.slab = n
      · have hyes := any_unsettled.2 (hs.symm ▸ hn : Unsettled S p.slab)
        have hno : (S' p.slab).any (fun x => !x.state.isSettled) = false := by
          rw [← Bool.not_eq_true, hiff]
          exact fun e => e.2 hs
        rw [hyes, hno, decide_eq_true hs]
        cases decide (p.job = some k.id) <;> rfl
      · have hsame : (S' p.slab).any (fun x => !x.state.isSettled) = (S p.slab).any (fun x => !x.state.isSettled) := by
          rw [Bool.eq_iff_iff, hiff]
          exact and_iff_left hs
        rw [hsame, decide_eq_false hs, Bool.and_false]
        cases (S p.slab).any (fun x => !x.state.isSettled) && decide (p.job = some k.id) <;> rfl
    rw [hun, h.counted k hk, hsplit, Nat.add_sub_cancel, ← hid]
  · obtain ⟨k, hk, -, hst, hun⟩ := hback hj
    rw [hun, h.closed k hk (hst.trans hc), Nat.zero_sub]
  · obtain ⟨k, hk, hjob⟩ := h.payers p hp ((hu p hp).1 hpu).1
    have hmem : Proofs.lowered (piecesOn C n) (debtOf k) ∈ J'.map debtOf := by
      rw [hJ]
      exact List.mem_map_of_mem (List.mem_map_of_mem hk)
    obtain ⟨j, hj, heq⟩ := List.mem_map.1 hmem
    have hid : j.id = k.id := (congrArg Prod.fst heq :)
    exact ⟨j, hj, hid.symm ▸ hjob⟩

theorem debts_settled (c : Cause) (s : State) (e : Ending) (x : Slab) : (accountsSettled c s e x s).jobs.map debtOf
    = (s.jobs.map debtOf).map (lowered (piecesOn (cutsOf s.placements) x.id)) := by
  have hcore := chargeShares_core (s := s) (c := c) (slab := x.id) (l := (settledAs s e x).shares)
  have hdebts := congrArg (List.map debtOf) hcore
  rw [List.map_map, List.map_map] at hdebts
  have hpieces : cutPiecesOn s x.id = piecesOn (cutsOf s.placements) x.id := by
    unfold cutPiecesOn piecesOn cutsOf
    rw [List.filter_filter]
    exact List.filter_congr (fun p _ => Bool.decide_and _ _)
  rw [accountsSettled_eq]
  show ((s.chargeShares c x.id (settledAs s e x).shares).jobs.map (loweredBy (cutPiecesOn s x.id))).map debtOf = _
  rw [hpieces, List.map_map]
  refine Eq.trans ?_ (congrArg (List.map (lowered (piecesOn (cutsOf s.placements) x.id))) hdebts)
  rw [List.map_map]
  rfl

/-! ## The settlement -/

theorem lawsOf_settle (h : Settling s x) (c : Cause) (e : Ending) : LawsOf (s.settle c e x).2 := by
  rw [settle_eq h.settleable]
  have hS : (withAccounts (tablesSettled s e x) (accountsSettled c s e x s)).slab? = (tablesSettled s e x).slab? := rfl
  have hp : (withAccounts (tablesSettled s e x) (accountsSettled c s e x s)).placements = (tablesSettled s e x).placements := rfl
  have hj : (withAccounts (tablesSettled s e x) (accountsSettled c s e x s)).jobs = (accountsSettled c s e x s).jobs := rfl
  show Laws _ _ _ _ _
  rw [hS, hp, hj]
  refine ⟨h.plans, h.beds, h.remnants, h.fit, ?_, ?_⟩
  · rw [cutsOf_settled]
    exact h.basis
  · rw [cutsOf_settled]
    exact h.laws.pieces.lowered h.unsettled (fun p hp => h.unsettled_iff (mem_of_cutsOf hp)) (debts_settled c s e x)

end

end Sys2Proof.Proofs
end

