-- ==== Sys2Proof/Proofs/SoundSteps.lean ====
section
/-! SUPPORT. Every step keeps the laws of plans, beds, remnants, geometry, accounts and pieces. Settles O6 and O7. -/

namespace Sys2Proof.Proofs

open Sys2Proof Sys2Proof.Config Sys2Proof.Machine

/-- The invariant of O6 and O7: the tables are within their bounds, the orders agree, and the laws hold. -/
structure Lawful (s : State) : Prop where
  bounded : s.Bounded
  orderly : s.Orderly
  laws : LawsOf s

section
variable {s t : State} {x : Slab} {o : CutOrder}

/-- What keeps the law of the orders keeps the rest where it keeps the laws. -/
theorem Lawful.next (ht : t.Bounded ∧ t.Orderly) (hl : LawsOf t) : Lawful t := ⟨ht.1, ht.2, hl⟩

/-- The slab of an order is in stock. -/
theorem stock_of_order (h : Lawful s) (ho : o ∈ s.orders) (hx : s.slab? o.slab = some x) : x.state.isStock = true := by
  obtain ⟨-, hbooks⟩ := orderly_iff.1 h.orderly
  obtain ⟨p, hp, hs, -, hst⟩ := (hbooks.placed o.slab o.index).2 ⟨o, ho, rfl, rfl⟩
  obtain ⟨y, hy, hr, hset, -⟩ := h.laws.plans.home p hp
  obtain rfl : x = y := Option.some.inj (hx.symm.trans (hs ▸ hy))
  refine isStock_iff.2 ⟨?_, hr⟩
  by_contra hne
  have hcut := hset (Bool.not_eq_false _ ▸ hne)
  rw [hst] at hcut
  cases hcut

theorem Lawful.agree (h : Lawful s) : s.Bounded ∧ s.Orderly := ⟨h.bounded, h.orderly⟩

/-- The laws survive every change. -/
theorem survives_lawful : Survives Lawful (fun x => x.state.isStock = true) where
  bounded h := h.bounded
  orderly h := h.orderly
  pending l h := .next (survives_orderly.pending l h.agree) h.laws
  calm hb hc h := .next (survives_orderly.calm hb hc h.agree) (h.laws.calm hc)
  reset s n r := .next (survives_orderly.reset s n r) (lawsOf_plainReset s n r)
  stock h := h
  ordered h ho hx := stock_of_order h ho hx
  lock a l h := .next (survives_orderly.lock a l h.agree) (lawsOf_lock h.laws l)
  basis hx ha hc hst h := .next (survives_orderly.basis hx ha hc hst h.agree) (lawsOf_basis h.laws _ hx ha hc hst)
  defect hx hst hlen ho hc h := .next (survives_orderly.defect hx hst hlen ho hc h.agree)
    (lawsOf_defect h.bounded.placements h.laws ho hc)
  enter hn hlen hd h := .next (survives_orderly.enter hn hlen hd h.agree) (lawsOf_enter h.laws hn rfl rfl rfl rfl)
  rack p hx hst hne h := .next (survives_orderly.rack p hx hst hne h.agree) (lawsOf_rack h.laws p hx hst hne)
  unrack p hx hst h := .next (survives_orderly.unrack p hx hst h.agree) (lawsOf_unrack h.bounded h.laws p hx hst)
  bed hx hst hw hne h := .next (survives_orderly.bed hx hst hw hne h.agree) (lawsOf_putOnBed h.bounded h.laws hx hst hw)
  unbed hx hst h := .next (survives_orderly.unbed hx hst h.agree) (lawsOf_unbed h.bounded h.laws hx hst)
  away hx hs h := .next (survives_orderly.away hx hs h.agree) (lawsOf_away h.bounded h.laws hx hs)
  retire hx hs hbed h := .next (survives_orderly.retire hx hs hbed h.agree) (lawsOf_retire h.laws hx hs hbed)
  place hq hc hx hi h := .next (survives_orderly.place hq hc hx hi h.agree) (lawsOf_place h.bounded h.orderly h.laws hq hc hx hi)
  remove hp hst h := .next (survives_orderly.remove hp hst h.agree)
    (lawsOf_removePlacement h.bounded.placements h.laws (mem_of_placement? hp).1 hst)
  settle hx hst hun hnone h := .next (survives_orderly.settle hx trivial hun hnone h.agree)
    (lawsOf_settle ⟨h.bounded, h.orderly, h.laws, hx, hst, hnone⟩ _ _)
  admitted f hc hp hw h := by
    have ht := survives_orderly.admitted f hc hp hw h.agree
    exact .next ht (lawsOf_admitted f h.bounded ht.1 h.laws hc hp hw)
  takeBack ho h := .next (survives_orderly.takeBack ho h.agree) (lawsOf_takeBack h.bounded h.orderly h.laws ho)
  done c w n ho h := .next (survives_orderly.done c w n ho h.agree) (lawsOf_done h.bounded h.orderly h.laws ho c w n)
  jobOpen hn hlen h := .next (survives_orderly.jobOpen hn hlen h.agree) (lawsOf_jobOpen h.laws hn)
  takeBill hb h := .next (survives_orderly.takeBill hb h.agree) (lawsOf_takeBill h.bounded h.laws hb)

/-- A step from a sound state reaches a sound state. -/
theorem sound_step (hl : s.Legal) (ho : s.Orderly) (hs : s.Sound) (h : step s = .next t) : t.Sound := by
  have ht := survives_lawful.step ⟨hl.1, ho, (sound_iff hl.1).1 hs⟩ h
  exact (sound_iff ht.bounded).2 ht.laws

end

/-- Settles O6: the laws survive each change of a table, and every step is made of them. -/
theorem everyStepKeepsBedsAndCounts : Obligations.EveryStepKeepsBedsAndCounts := by
  intro s t hl ho hs h
  have ht := sound_step hl ho hs h
  exact ⟨ht.beds, ht.remnants, ht.pieces⟩

/-- Settles O7: the laws survive each change of a table, and every step is made of them. -/
theorem everyStepKeepsPlansAndBasis : Obligations.EveryStepKeepsPlansAndBasis := by
  intro s t hl ho hs h
  have ht := sound_step hl ho hs h
  exact ⟨ht.plans, ht.fit, ht.basis⟩

end Sys2Proof.Proofs
end
